-- ==== Sys2Proof/Word.lean ====
section
/-!
DEFINITION. The word types of the Pulux P7 and their plainest arithmetic (00_scope.md R2).
-/
namespace Sys2Proof

/-- A byte. -/
abbrev Byte := BitVec 8
/-- A halfword: the unit of instruction encoding (R63). -/
abbrev W16 := BitVec 16
/-- A 32-bit word: masks, accumulator lanes and FP32 values (R5). -/
abbrev W32 := BitVec 32
/-- A 64-bit word: scalar registers, addresses and CSRs (R5, R12). -/
abbrev W64 := BitVec 64
/-- A vector register (R5, R8). -/
abbrev W256 := BitVec 256
/-- A 64-byte descriptor or block. -/
abbrev W512 := BitVec 512

/-- A boolean as a 64-bit 0 or 1. -/
def boolW (b : Bool) : W64 := if b then 1 else 0

end Sys2Proof
end

