-- ==== Sys2Proof/Syntax.lean ====
section
/-!
DEFINITION. The operations of the part: one constructor of `Instr` per row of spec/opcode_table.json.
The rows with an encoding carry decoded operand fields; the rows without one are the part's own steps
(95_what_each_step_holds.md), and their arguments name the agent that acts and whatever order the spec leaves open.
-/
namespace Sys2Proof

/-- The four port names n, e, s, w (R18); also the four physical links. -/
inductive Port where | n | e | s | w
deriving DecidableEq, Repr

/-- A scalar field of values 0 to 31 (R5, R68): a g register, a scalar stream view or a scalar port view. -/
inductive SReg where
  | g (i : Fin 24)
  | s (i : Fin 4)
  | p (i : Port)
deriving DecidableEq, Repr

/-- A vector field of values 0 to 15 (R5, R68): a v register, a vector stream view or a vector port view. -/
inductive VReg where
  | v (i : Fin 8)
  | w (i : Fin 4)
  | q (i : Port)
deriving DecidableEq, Repr

/-- A scalar field that admits no view: values 0 to 23. -/
abbrev GReg := Fin 24
/-- A mask field of values 0 to 3 (R68). -/
abbrev MReg := Fin 4
/-- A stream number (06_streams.md). -/
abbrev StreamId := Fin 4

/-- The pm field (R9): unpredicated, or one of m1, m2, m3. -/
inductive Pred where | always | m1 | m2 | m3
deriving DecidableEq, Repr

/-- The scope code (R70). -/
inductive Scope where | cr | cl | di | pk | sy
deriving DecidableEq, Repr

/-- The ORD field of majors 0x22 to 0x24 (R66). -/
inductive Ord where | none | acq | rel | acqRel
deriving DecidableEq, Repr

/-- The size field of a load (R69). -/
inductive LSize where | b | h | w | d | bu | hu | wu
deriving DecidableEq, Repr

/-- The size field of a store (R69). -/
inductive SSize where | b | h | w | d
deriving DecidableEq, Repr

/-- Modes 00 and 01 of the L format (R69). -/
inductive LMode where | offset | postInc
deriving DecidableEq, Repr

/-- Size W or D of an integer atomic (R122). -/
inductive ASize where | w | d
deriving DecidableEq, Repr

/-- Format of FAMO and FRED: FP32 or BF16 (R122). -/
inductive AFmt where | fp32 | bf16
deriving DecidableEq, Repr

/-- AMO operations (R123). -/
inductive AmoOp where | add | and | or | xor | min | max | minu | maxu
deriving DecidableEq, Repr

/-- Operations of FAMO, RED and FRED (R123, R124). -/
inductive RedOp where | add | min | max
deriving DecidableEq, Repr

/-- The wide floating-point formats, in the order of the wide code of R144. -/
inductive FFmt where | fp64 | fp32 | bf16 | fp16
deriving DecidableEq, Repr

/-- The two formats of FMA, FMS and FNMA (R79). -/
inductive FmaFmt where | fp64 | fp32
deriving DecidableEq, Repr

/-- The lane formats of R71. -/
inductive LFmt where | fp64 | fp32 | bf16 | fp16 | b8p4se | i32 | i16 | i8
deriving DecidableEq, Repr

/-- The integer formats of R144. -/
inductive IFmt where | i8 | i16 | i32 | i64 | n8 | n16 | n32 | n64
deriving DecidableEq, Repr

/-- The 28 binary8 variants of R31: precision minus 1 (0 to 6), unsigned, finite. -/
structure B8 where
  pm1 : Fin 7
  uns : Bool
  fin : Bool
deriving DecidableEq, Repr

/-- The rounding modes of R43. -/
inductive RMode where | rne | rtz | rup | rdn | rna
deriving DecidableEq, Repr

/-- The rounding code of R144: a mode, or FCSR.RM. -/
inductive RCode where
  | fixed (m : RMode)
  | dyn
deriving DecidableEq, Repr

/-- Conditions of VCMP (R153). -/
inductive VCond where | eq | ne | lt | le | ltu | leu | un
deriving DecidableEq, Repr

/-- Formats of VFMA by func3 (R79). -/
inductive VfmaFmt where | fp64 | fp32 | bf16 | fp16
deriving DecidableEq, Repr

/-- Formats of VDOT (R79). -/
inductive DotFmt where | bf16 | i8
deriving DecidableEq, Repr

/-- The element width of the indexed and corner-turned accesses: 8, 16, 32 or 64 bits (R76, R389). -/
inductive EWidth where | b | h | w | d
deriving DecidableEq, Repr

/-- VCVT's KIND with its formats (R161). -/
inductive VcvtKind where
  | ff (dst src : FFmt)
  | fi (src : FFmt) (dst : IFmt)
  | intF (dst : FFmt) (src : IFmt)
deriving DecidableEq, Repr

/-- Destinations of VNARROW (R162). -/
inductive NarrowDst where
  | b8 (v : B8)
  | bf16 | fp16 | i8 | i16 | n8 | n16
deriving DecidableEq, Repr

/-- Destinations of VWIDEN (R163). -/
inductive WidenDst where | fp32 | bf16 | fp16
deriving DecidableEq, Repr

/-- Sources of VWIDEN (R163). -/
inductive WidenSrc where
  | b8 (v : B8)
  | i8 | n8 | i16 | n16 | i4
deriving DecidableEq, Repr

/-- A Q descriptor's width (R40). -/
inductive QWid where | w16 | w32 | w64
deriving DecidableEq, Repr

/-- The level of BAR and ARRIVE. -/
inductive BarLevel where | course | bond
deriving DecidableEq, Repr

/-- The register operand of MOVK and MOVTK (R266). -/
inductive KReg where
  | scalar (r : SReg)
  | double (r : SReg)
  | vector (r : VReg)
deriving DecidableEq, Repr

/-- A core number, (y << 7) | x, 0 to 20,479: the core's row y is 0 to 159 and its column x 0 to 127 (R20). -/
abbrev CoreId := Nat
/-- A strand slot of a core. -/
abbrev Slot := Fin 8

/-- Where an uncorrectable error strikes (R420). -/
inductive ErrSite where
  | memWord (loc : Nat)
  | gWord (c : CoreId) (slot : Slot) (r : Fin 24)
  | vWord (c : CoreId) (slot : Slot) (r : Fin 8) (word : Fin 4)
  | kWord (c : CoreId) (pair : Fin 128)
  | portEntry (c : CoreId) (link : Port) (idx : Nat)
  | inboundEntry (c : CoreId) (idx : Nat)
  | seamEntry (c : CoreId) (link : Port) (idx : Nat)
  | outboundEntry (c : CoreId) (idx : Nat)
  | storeEntry (c : CoreId) (idx : Nat)
  | streamEntry (c : CoreId) (n : StreamId) (idx : Nat)
  | mailboxEntry (cl idx : Nat)
  | copyCommand (c : CoreId) (ch : Fin 3) (n : Nat)
  | footCommand (c : CoreId) (n : Nat)
  | seqCommand (die : Fin 4) (q : Fin 8) (n : Nat)
  /-- The word at an offset of a core's shadow store, as it holds a job's context (R426). -/
  | shadowWord (part job : Nat) (c : CoreId) (off : Nat)
  /-- A reduction's unit in a die's memory-side cache (R436). -/
  | shadowUnit (die : Fin 4) (idx : Nat)
  /-- What comes over a link after sixteen failed replays: the answer of part `part` of request `idx`, the data of a
  reduction, a destination word of a copied element. -/
  | answer (c : CoreId) (slot : Slot) (idx part : Nat)
  | reduction (c : CoreId) (idx : Nat)
  | copyWord (c : CoreId) (ch : Fin 3) (n word : Nat)
  | icacheLine (c : CoreId)
  /-- An entry of a core's I-TLB and D-TLB together, of a cluster's TLB, or of a die's. -/
  | coreTlb (c : CoreId) (idx : Nat)
  | clusterTlb (cl idx : Nat)
  | dieTlb (die : Fin 4) (idx : Nat)
deriving DecidableEq, Repr

/-- Whom a control-state error names (R422). -/
inductive ErrOwner where
  | job (j : Nat)
  | unknown
deriving DecidableEq, Repr

/-- A register of the device block or of a queue that the host may write (R460, R462). -/
inductive HostReg where
  | qbase (q : Nat)
  | qstat (q : Nat)
  | resetDevice
deriving DecidableEq, Repr

/-- What excursion raises the alarm (R477). -/
inductive AlarmCause where | supply | clock | temperature | tamper
deriving DecidableEq, Repr

/-- A peer's node with the lease epoch that its access carries (R298, R471). -/
structure Lessee where
  node : Nat
  epoch : W32
deriving DecidableEq, Repr

/-- What a tile sequencer's component does (R367, R371, R427). -/
inductive SeqAct where
  /-- A component gang claims the cores of a descriptor, or claims them again after a pre-emption. -/
  | place (desc : W512)
  /-- The component gang completes one more pulse. -/
  | pulse
  /-- A component gang that has completed its pulses gives its cores back. -/
  | thaw
  /-- The component writes aligned words, each named by the place of a value among those left. -/
  | write (puts : List Nat)
deriving DecidableEq, Repr

/-- The operations of the part, one constructor per row of spec/opcode_table.json. -/
inductive Instr where
  -- majors 0x00 to 0x0E (R104 to R111)
  | add (p : Pred) (d a b : SReg) | sub (p : Pred) (d a b : SReg) | and (p : Pred) (d a b : SReg)
  | or (p : Pred) (d a b : SReg) | xor (p : Pred) (d a b : SReg) | andn (p : Pred) (d a b : SReg)
  | orn (p : Pred) (d a b : SReg) | sll (p : Pred) (d a b : SReg) | srl (p : Pred) (d a b : SReg)
  | sra (p : Pred) (d a b : SReg) | rol (p : Pred) (d a b : SReg) | ror (p : Pred) (d a b : SReg)
  | min (p : Pred) (d a b : SReg) | max (p : Pred) (d a b : SReg) | minu (p : Pred) (d a b : SReg)
  | maxu (p : Pred) (d a b : SReg) | slt (p : Pred) (d a b : SReg) | sltu (p : Pred) (d a b : SReg)
  | seq (p : Pred) (d a b : SReg) | sne (p : Pred) (d a b : SReg)
  | sel (p : Pred) (d : GReg) (a b : SReg)
  | addi (p : Pred) (d a : SReg) (imm : BitVec 13) | andi (p : Pred) (d a : SReg) (imm : BitVec 13)
  | ori (p : Pred) (d a : SReg) (imm : BitVec 13) | xori (p : Pred) (d a : SReg) (imm : BitVec 13)
  | slli (p : Pred) (d a : SReg) (sh : BitVec 6) | srli (p : Pred) (d a : SReg) (sh : BitVec 6)
  | srai (p : Pred) (d a : SReg) (sh : BitVec 6) | roli (p : Pred) (d a : SReg) (sh : BitVec 6)
  | slti (p : Pred) (d a : SReg) (imm : BitVec 13) | sltiu (p : Pred) (d a : SReg) (imm : BitVec 13)
  | lui (d : SReg) (imm : BitVec 18) | auipc (d : SReg) (imm : BitVec 18)
  | lop3 (p : Pred) (d : GReg) (a b : SReg) (table : BitVec 8)
  | fshl (p : Pred) (d a b : SReg) (sh : BitVec 6) | fshr (p : Pred) (d a b : SReg) (sh : BitVec 6)
  | mul (p : Pred) (d a b : SReg) | mulh (p : Pred) (d a b : SReg) | mulhu (p : Pred) (d a b : SReg)
  | div (p : Pred) (d a b : SReg) | divu (p : Pred) (d a b : SReg)
  | rem (p : Pred) (d a b : SReg) | remu (p : Pred) (d a b : SReg)
  | clz (p : Pred) (d a : SReg) | ctz (p : Pred) (d a : SReg) | popc (p : Pred) (d a : SReg)
  | brev (p : Pred) (d a : SReg) | bswap (p : Pred) (d a : SReg)
  | sextB (p : Pred) (d a : SReg) | sextH (p : Pred) (d a : SReg) | sextW (p : Pred) (d a : SReg)
  | zextB (p : Pred) (d a : SReg) | zextH (p : Pred) (d a : SReg) | zextW (p : Pred) (d a : SReg)
  | setm (p : Pred) (d : MReg) (a : SReg) | getm (p : Pred) (d : SReg) (a : MReg)
  | mand (p : Pred) (d a b : MReg) | mor (p : Pred) (d a b : MReg) | mnot (p : Pred) (d a : MReg)
  -- branches and jumps (R112, R113, R193)
  | beq (a b : SReg) (off : BitVec 15) | bne (a b : SReg) (off : BitVec 15) | blt (a b : SReg) (off : BitVec 15)
  | bge (a b : SReg) (off : BitVec 15) | bltu (a b : SReg) (off : BitVec 15) | bgeu (a b : SReg) (off : BitVec 15)
  | j (off : BitVec 25) | jal (d : SReg) (off : BitVec 18)
  | jalr (p : Pred) (d : SReg) (a : GReg) (imm : BitVec 13)
  | beos (st : StreamId) (off : BitVec 15)
  -- ITER (R220 to R222)
  | iter (p : Pred) (d a : GReg) (off : BitVec 12) | iteri (p : Pred) (d a : GReg) (mn : BitVec 12)
  -- loads and stores (R115, R120, R121)
  | ld (p : Pred) (d : SReg) (a : GReg) (sz : LSize) (m : LMode) (off : BitVec 8)
  | ldIndexed (p : Pred) (d : SReg) (a : GReg) (sz : LSize) (b : GReg)
  | st (p : Pred) (d : SReg) (a : GReg) (sz : SSize) (m : LMode) (off : BitVec 8)
  | stIndexed (p : Pred) (d : SReg) (a : GReg) (sz : SSize) (b : GReg)
  | lda (p : Pred) (d : SReg) (a : GReg) (sz : LSize) (sc : Scope) (off : BitVec 5)
  | stl (p : Pred) (d : SReg) (a : GReg) (sz : SSize) (sc : Scope) (off : BitVec 5)
  | pref (p : Pred) (hint : Fin 3) (a : GReg) (off : BitVec 5)
  -- presence (R284)
  | ldp (p : Pred) (d : SReg) (a : GReg) (m : LMode) (off : BitVec 8)
  | ldpIndexed (p : Pred) (d : SReg) (a b : GReg)
  | stp (p : Pred) (d : SReg) (a : GReg) (m : LMode) (off : BitVec 8)
  | stpIndexed (p : Pred) (d : SReg) (a b : GReg)
  | clrp (p : Pred) (d : SReg) (a : GReg) (m : LMode) (off : BitVec 8)
  | clrpIndexed (p : Pred) (d : SReg) (a b : GReg)
  | vldp (p : Pred) (d : VReg) (a : GReg) (m : LMode) (off : BitVec 8)
  | vldpIndexed (p : Pred) (d : VReg) (a b : GReg)
  | vstp (p : Pred) (d : VReg) (a : GReg) (m : LMode) (off : BitVec 8)
  | vstpIndexed (p : Pred) (d : VReg) (a b : GReg)
  -- vector memory (R147, R148, R389, R390)
  | vld (p : Pred) (d : VReg) (a : GReg) (m : LMode) (off : BitVec 8)
  | vldIndexed (p : Pred) (d : VReg) (a b : GReg)
  | vst (p : Pred) (d : VReg) (a : GReg) (m : LMode) (off : BitVec 8)
  | vstIndexed (p : Pred) (d : VReg) (a b : GReg)
  | vgath (p : Pred) (d : VReg) (a : GReg) (ew : EWidth) (i : VReg)
  | vscat (p : Pred) (d : VReg) (a : GReg) (ew : EWidth) (i : VReg)
  | vstt (p : Pred) (d : VReg) (a : GReg) (m : LMode) (b : GReg) (ew : EWidth)
  | stn (p : Pred) (d : VReg) (a : GReg) (m : LMode) (off : BitVec 4) (na : Fin 16)
  -- atomics (R122 to R128)
  | amo (o : Ord) (op : AmoOp) (z : ASize) (sc : Scope) (d : SReg) (a : GReg) (b : SReg)
  | cas (o : Ord) (z : ASize) (sc : Scope) (d : GReg) (a : GReg) (b : SReg)
  | casXchg (o : Ord) (z : ASize) (sc : Scope) (d : GReg) (a : GReg) (b : SReg)
  | famo (o : Ord) (op : RedOp) (f : AFmt) (sc : Scope) (d : SReg) (a : GReg) (b : SReg)
  | red (rel : Bool) (op : RedOp) (z : ASize) (sc : Scope) (a : GReg) (b : SReg)
  | fred (rel : Bool) (op : RedOp) (f : AFmt) (sc : Scope) (a : GReg) (b : SReg)
  -- fences (R129 to R131)
  | fence (o : Ord) (sc : Scope) (red uo : Bool) | ifence
  -- engine waits (R360 to R362)
  | waitge (p : Pred) (d a b : GReg) | waitgen (p : Pred) (d a b : GReg) | signal (p : Pred) (a b : GReg)
  -- barriers (R219)
  | bar (p : Pred) (l : BarLevel) | arrive (p : Pred) (l : BarLevel) (d : GReg)
  -- time (R447 to R449)
  | tnow (p : Pred) (d : GReg) | tuntil (p : Pred) (d a : GReg)
  -- scalar floating point (R140 to R146)
  | fadd (p : Pred) (f : FFmt) (d a b : SReg) | fsub (p : Pred) (f : FFmt) (d a b : SReg)
  | fmul (p : Pred) (f : FFmt) (d a b : SReg) | fdiv (p : Pred) (f : FFmt) (d a b : SReg)
  | fsqrt (p : Pred) (f : FFmt) (d a : SReg)
  | fmin (p : Pred) (f : FFmt) (d a b : SReg) | fmax (p : Pred) (f : FFmt) (d a b : SReg)
  | fsgn (p : Pred) (f : FFmt) (d a b : SReg) | fcmp (p : Pred) (f : FFmt) (d a b : SReg)
  | fclass (p : Pred) (f : FFmt) (d a : SReg)
  | fma (p : Pred) (f : FmaFmt) (d a b c : SReg) | fms (p : Pred) (f : FmaFmt) (d a b c : SReg)
  | fnma (p : Pred) (f : FmaFmt) (d a b c : SReg)
  | fcvt (p : Pred) (sr : Bool) (dst src : FFmt) (d a : SReg)
  | fcvtWideToB8 (p : Pred) (sr : Bool) (src : FFmt) (dst : B8) (d a : SReg)
  | fcvtB8ToWide (p : Pred) (dst : FFmt) (src : B8) (d a : SReg)
  | fcvti (p : Pred) (src : FFmt) (dst : IFmt) (r : RCode) (d a : SReg)
  | icvtf (p : Pred) (dst : FFmt) (src : IFmt) (r : RCode) (d a : SReg)
  | frnd (p : Pred) (f : FFmt) (r : RCode) (d a : SReg)
  -- vector lane operations (R149 to R158)
  | vadd (p : Pred) (f : LFmt) (d a b : VReg) | vsub (p : Pred) (f : LFmt) (d a b : VReg)
  | vmul (p : Pred) (f : LFmt) (d a b : VReg) | vmulh (p : Pred) (f : LFmt) (d a b : VReg)
  | vmin (p : Pred) (f : LFmt) (d a b : VReg) | vmax (p : Pred) (f : LFmt) (d a b : VReg)
  | vabs (p : Pred) (f : LFmt) (dotP : Bool) (d a : VReg) | vneg (p : Pred) (f : LFmt) (dotP : Bool) (d a : VReg)
  | vand (p : Pred) (f : LFmt) (d a b : VReg) | vor (p : Pred) (f : LFmt) (d a b : VReg)
  | vxor (p : Pred) (f : LFmt) (d a b : VReg)
  | vshl (p : Pred) (f : LFmt) (d a b : VReg) | vshr (p : Pred) (f : LFmt) (d a b : VReg)
  | vsra (p : Pred) (f : LFmt) (d a b : VReg)
  | vcmp (p : Pred) (cc : VCond) (f : LFmt) (d : MReg) (a b : VReg)
  | vsel (p : Pred) (f : LFmt) (d a b : VReg)
  | vclamp (p : Pred) (f : LFmt) (d : Fin 8) (a b : VReg)
  | vmov (p : Pred) (f : LFmt) (dotP : Bool) (d a : VReg)
  | vbcast (p : Pred) (f : LFmt) (d a : VReg) (j : BitVec 5)
  | vshuf (p : Pred) (f : LFmt) (d a b : VReg)
  | vrot (p : Pred) (f : LFmt) (d a : VReg) (k : BitVec 5)
  | vred (p : Pred) (op : RedOp) (f : LFmt) (dotP : Bool) (d a : VReg)
  | vins (p : Pred) (f : LFmt) (d : Fin 8) (a : SReg) (j : BitVec 5)
  | vext (p : Pred) (f : LFmt) (d : SReg) (a : VReg) (j : BitVec 5)
  | viota (p : Pred) (f : LFmt) (dotP : Bool) (d : VReg) (a : SReg)
  | vlut (p : Pred) (f : LFmt) (d a b : VReg)
  | vexp2 (p : Pred) (f : LFmt) (dotP : Bool) (d a : VReg) | vlog2 (p : Pred) (f : LFmt) (dotP : Bool) (d a : VReg)
  | vrcp (p : Pred) (f : LFmt) (dotP : Bool) (d a : VReg) | vrsq (p : Pred) (f : LFmt) (dotP : Bool) (d a : VReg)
  | vtanh (p : Pred) (f : LFmt) (dotP : Bool) (d a : VReg)
  | vlop3 (p : Pred) (d : Fin 8) (a b : VReg) (table : BitVec 8)
  | vfma (p : Pred) (f : VfmaFmt) (d a b c : VReg) | vfms (p : Pred) (f : FmaFmt) (d a b c : VReg)
  | vdot (p : Pred) (f : DotFmt) (d a b c : VReg)
  | vcvt (p : Pred) (sr : Bool) (k : VcvtKind) (part : BitVec 3) (d a : VReg)
  | vnarrow (p : Pred) (sr : Bool) (dst : NarrowDst) (part : BitVec 3) (d a : VReg)
  | vwiden (p : Pred) (dst : WidenDst) (src : WidenSrc) (part : BitVec 3) (d a : VReg)
  -- fixed point (R164)
  | qmul (p : Pred) (w : QWid) (f : BitVec 6) (d : GReg) (a : SReg)
  | qdiv (p : Pred) (w : QWid) (f : BitVec 6) (d : GReg) (a : SReg)
  | qsqrt (p : Pred) (w : QWid) (f : BitVec 6) (d a : SReg)
  -- compressed lane forms (R84, R165)
  | cVadd (f : LFmt) (d b : VReg) | cVsub (f : LFmt) (d b : VReg) | cVmul (f : LFmt) (d b : VReg)
  | cVmin (f : LFmt) (d b : VReg) | cVmax (f : LFmt) (d b : VReg) | cVand (f : LFmt) (d b : VReg)
  | cVor (f : LFmt) (d b : VReg) | cVxor (f : LFmt) (d b : VReg) | cVmov (f : LFmt) (d b : VReg)
  | cVshl (f : LFmt) (d b : VReg) | cVshr (f : LFmt) (d b : VReg) | cVsra (f : LFmt) (d b : VReg)
  | cVabs (f : LFmt) (d b : VReg) | cVneg (f : LFmt) (d b : VReg) | cVmac (f : LFmt) (d b : VReg)
  | cVbcast (f : LFmt) (d b : VReg)
  -- streams (R183 to R192)
  | scfg (p : Pred) (st : StreamId) (a : GReg) | sbind (p : Pred) (st : StreamId) (port : Option Port)
  | spos (p : Pred) (d : GReg) (st : StreamId) | sstop (p : Pred) (st : StreamId)
  | srew (p : Pred) (st : StreamId) (a : GReg) | sflush (p : Pred) (st : StreamId)
  | sskip (p : Pred) (st : StreamId) (a : GReg)
  -- threads (R206 to R217)
  | spawn (p : Pred) (d a b : GReg) | endStrand (p : Pred) | yield (p : Pred)
  | sleep (p : Pred) (d a : GReg) | wake (p : Pred) (a b : GReg)
  | send (p : Pred) (d : GReg) (a b : GReg) (tag : BitVec 4) | senda (p : Pred) (d : GReg) (a b : GReg) (tag : BitVec 4)
  | fan (p : Pred) (d a b : GReg) (dmask : BitVec 4) | prio (p : Pred) (d a : GReg)
  -- gangs (R263 to R266, R233)
  | gang (p : Pred) (d a b c : GReg) | gwait (p : Pred) (d a : GReg) | gstat (p : Pred) (d a : GReg)
  | gthaw (p : Pred) (a : GReg)
  | movk (p : Pred) (d : KReg) (k : BitVec 8) | movtk (p : Pred) (k : BitVec 8) (a : KReg)
  | ppeek (p : Pred) (d : GReg) (port : Port)
  -- tile operations and recording (R378 to R388)
  | topTmm (p : Pred) (d a b : GReg) | topTadd (p : Pred) (d a b : GReg) | topTmul (p : Pred) (d a b : GReg)
  | topTscale (p : Pred) (d a b : GReg) | topTact (p : Pred) (d a b : GReg) | topTsum (p : Pred) (d a b : GReg)
  | topTsoft (p : Pred) (d a b : GReg) | topTnorm (p : Pred) (d a b : GReg) | topTlay (p : Pred) (d a b : GReg)
  | topTcopy (p : Pred) (d a b : GReg)
  | recon (p : Pred) (a b : GReg) | recoff (p : Pred) | recmark (p : Pred) (a : GReg)
  | reverse (p : Pred) (d a : GReg)
  -- engines (R357 to R359)
  | cpgo (p : Pred) (ch : Fin 2) (d : GReg) | cpblk (p : Pred) (ch : Fin 2) (d a b : GReg)
  | ftgo (p : Pred) (d a : GReg) | armw (p : Pred) (d a b : GReg)
  -- CSRs and traps (R132 to R135)
  | csrr (d : SReg) (csr : BitVec 12) | csrw (csr : BitVec 12) (a : SReg)
  | csrs (csr : BitVec 12) (a : SReg) | csrc (csr : BitVec 12) (a : SReg)
  | trap (p : Pred) (a : SReg) (n : BitVec 5) | rett (p : Pred) | ecall (p : Pred) | ebreak (p : Pred)
  -- steps of the strand and of memory
  /-- The issuing strand's word (zero-extended) is no instruction (R80). -/
  | illegalInstruction (w : W64)
  /-- Request `idx` of the strand is answered (R102). -/
  | loadResponse (c : CoreId) (slot : Slot) (idx : Nat)
  /-- Entry `idx` of the core's outbound store queue is accepted at its home (R304). -/
  | storePerform (c : CoreId) (idx : Nat)
  /-- Outstanding return-free reduction `idx` of the core is performed and acknowledged (R125). -/
  | reductionAck (c : CoreId) (idx : Nat)
  | releaseComplete (c : CoreId) (slot : Slot)
  /-- Entry `idx` of the core's store queue is rejected by its target (R327). -/
  | faultAcknowledgement (c : CoreId) (idx : Nat)
  /-- The slice port performs part `part` of request `idx` of the strand (R281). -/
  | slicePortRequest (c : CoreId) (slot : Slot) (idx part : Nat)
  /-- The memory-side cache performs part `part` of request `idx` of the strand (R288). -/
  | stackAccess (c : CoreId) (slot : Slot) (idx part : Nat)
  /-- The network interface resends packet `idx` of the network, which its target refused (R200). -/
  | networkRetry (idx : Nat)
  -- arrivals: `idx` is the packet's place in the network
  | spawnRequest (idx : Nat) | message (idx : Nat) | fanStartMessage (idx : Nat) | wakeDelivery (idx : Nat)
  | completionMessage (idx : Nat) | gangWakeMessage (idx : Nat) | scopeMissMessage (idx : Nat)
  | scopeMissAutoWiden (idx : Nat)
  /-- The widening of the pending miss `token` reaches the tag's home (R315). -/
  | tagWiden (token : Nat)
  | slotActivation (c : CoreId)
  /-- Request `idx` of the core's outbound buffer leaves (R215). -/
  | outboundSend (c : CoreId) (idx : Nat)
  | sleepDeadline (c : CoreId) (slot : Slot)
  | fanTimedStart (c : CoreId)
  | bondCompletion (b : Nat)
  /-- The scheduler places unit `idx` of the partition's queue with its north-west cluster at (cx, cy) (R225). -/
  | schedulerPlace (part idx : Nat) (cx cy : Nat)
  | priorityAging (part idx : Nat)
  -- streams
  | streamReadFetch (c : CoreId) (n : StreamId)
  | streamWritePerform (c : CoreId) (n : StreamId)
  | boundStreamPush (c : CoreId) (n : StreamId)
  | boundStreamPop (c : CoreId) (n : StreamId)
  -- gangs: (c, slot) is the issuing core and ticket slot; `cell` is a core of the rectangle
  /-- The claim reaches one core of the rectangle, or, with no core named, is decided at once (R242). -/
  | gangClaim (c : CoreId) (slot : Fin 4) (cell : Option CoreId)
  | gangTimedStart (c : CoreId) (slot : Fin 4)
  | wsLatchEntry (cell : CoreId)
  | gangPulse (cell : CoreId)
  | gangComplete (c : CoreId) (slot : Fin 4)
  | gangThawRequest (c : CoreId) (slot : Fin 4) (preempt : Bool)
  | gangPreemptThaw (c : CoreId) (slot : Fin 4)
  | gangFaultThaw (c : CoreId) (slot : Fin 4)
  | seamBufferForward (c : CoreId) (link : Port)
  | seamContextTimeout (c : CoreId) (link : Port) (idx : Nat)
  -- translation and leases
  /-- The walk for the strand that waits on a TLB miss (R293). -/
  | pageWalk (c : CoreId) (slot : Slot)
  /-- The peer answers the lease request for `page` of node `node`: a grant with its size, permissions and epoch, or a
  refusal (R298). -/
  | leaseGrant (node page : Nat) (granted : Bool) (size : Nat) (rd wr : Bool) (epoch : W32)
  | leaseRecall (node page : Nat)
  /-- A peer reads or writes 8 bytes at `off` of the window that partition `part` exports, under a lease epoch (R298,
  R471). -/
  | peerAccess (part : Nat) (peer : Lessee) (off : Nat) (write : Option W64)
  | smrelWrite (token : W64)
  -- copies: (c, ch, n) is the core, the channel (2 stands for the exchange engines of R451) and the command number
  /-- The edge engine accepts the command, or refuses it with a back-off hint (R345). -/
  | copyAccept (c : CoreId) (ch : Fin 3) (n : Nat) (refuse : Option Nat)
  | copyRefusalRetry (c : CoreId) (ch : Fin 3) (n : Nat)
  | copyTimedStart (c : CoreId) (ch : Fin 3) (n : Nat)
  /-- The aligned 8-byte destination word `word`, counted from the one that holds DBASE, lands (R347). -/
  | copyLanding (c : CoreId) (ch : Fin 3) (n word : Nat)
  | copyComplete (c : CoreId) (ch : Fin 3) (n : Nat)
  /-- The element that `word` holds first faults (R349). -/
  | copyFault (c : CoreId) (ch : Fin 3) (n word : Nat)
  -- footing units
  /-- The footing unit performs outstanding reduction `idx` of the core at its stack (R352). -/
  | footingAtomic (c : CoreId) (idx : Nat)
  /-- The footing unit performs piece `piece` of optimiser command `n` (R356). -/
  | optimiserPiece (c : CoreId) (n piece : Nat)
  | optimiserComplete (c : CoreId) (n : Nat)
  /-- A tile sequencer goes on with the command at its head (R366, R367, R371): with no act it reads the operands of the
  operation or of the next record; then components act, and once nothing is left the operation ends. `splits` lists, product
  by product, the lengths of the parts into which K is cut (R62); `staged` and `accs` are what the step leaves in the staging
  bytes (core × 2^16 + offset) and in the accumulator lanes (core × 256 + lane) of the region (R367). -/
  | seqCommand (die : Fin 4) (q : Fin 8) (splits : List (List Nat)) (staged : List (Nat × Byte))
      (accs : List (Nat × W32)) (act : SeqAct)
  | seqCommandComplete (die : Fin 4) (q : Fin 8)
  -- faults
  | faultMessageArrival (idx : Nat)
  | serviceStrandStart (cl : Nat)
  | faultSlotTimeout (cl : Nat)
  | fractResume | fractSkip | fractKill
  | eccCorrected (c : CoreId)
  | uncorrectableError (site : ErrSite)
  /-- The flit of network packet `idx` fails its check once more (R420). -/
  | linkReplay (idx : Nat)
  | controlStateError (owner : ErrOwner)
  -- partitions
  | timeSliceExpiry (part : Nat)
  | partitionHalt (part : Nat)
  | partitionRestore (part job : Nat)
  /-- The partition manager gives a partition its clusters, stacks and keys, and the window that it exports (R471). -/
  | partitionAssign (part : Nat) (clusters memStacks keys : List Nat) (window : Option (Nat × Nat))
  | partitionTeardown (part : Nat)
  -- reductions at package scope
  | shadowCombine (c : CoreId) (idx : Nat)
  | shadowMerge (die : Fin 4) (idx : Nat)
  | shadowCapacityMerge (die : Fin 4)
  -- time
  /-- An IEEE 1588 message: of the copies of plumb time at the four dies, xa and xb, those of `slow` withhold an advance,
  those of `fast` add one, and the offset bound becomes `err` (R444, R445). -/
  | ptpMessage (slow fast : BitVec 6) (err : W32)
  | tuntilDeadline (c : CoreId) (slot : Slot)
  -- host
  | qdbWrite (q : Nat)
  | qcfgWrite (q : Nat) (v : W64)
  | hostRegisterWrite (r : HostReg) (v : W64)
  | jobConfigWrite (j : Nat) (ptroot fhvec smvec tvec : W64)
  | queuePollTimeout (q : Nat)
  -- packets: queue q's packet, as the fetcher read it; an ACTIVE, COPY, SIGNAL, WAIT or FENCE at its dispatch
  | launch (q : Nat) | active (q : Nat) | copy (q : Nat) | signalPacket (q : Nat) | wait (q : Nat) | fencePacket (q : Nat)
  /-- Packet number `n` of queue `q` completes (R468). -/
  | packetComplete (q n : Nat)
  /-- The host reads or writes 8 bytes at PA `pa` through the CXL.mem window (R459). -/
  | hostMemoryAccess (pa : Nat) (write : Option W64)
  | ustisFrame (node seq : Nat)
  | ustisRetransmitTimeout (node : Nat)
  | nvmeCompletion (idx : Nat) (mediaError : Bool)
  -- CSR writes with an effect of their own
  | hirqWrite (v : W64)
  | nactlWrite (n : Fin 16) (v : W64)
  | nalRead (d : SReg) (n : Fin 16)
  | tlbinvAll | tlbinvVa (va : W64)
  | containWrite (v : W64)
  -- device
  | deviceReset | powerOn
  | firmwareImage (image version : Nat)
  | attestationRequest (nonce : Nat)
  | securityAlarm (cause : AlarmCause)
  | thermalThrottle | thermalShutdown
  | powerLimitSet (watts : Nat)
  | synchronisationLost
  | primaryPortDown (down : Bool)
deriving DecidableEq, Repr

end Sys2Proof
end

