-- ==== Sys2Proof/WellFormed.lean ====
section
/-!
DEFINITION. The operand limits that the types of `Instr` do not carry: limits between fields, lane indexes and
accepted formats. A word that breaks one raises cause 0x01 (R80, R91).
-/
namespace Sys2Proof

/-- Lane width in bits of a lane format (R8, R71). -/
def LFmt.width : LFmt → Nat
  | .fp64 => 64 | .fp32 | .i32 => 32 | .bf16 | .fp16 | .i16 => 16 | .b8p4se | .i8 => 8

/-- Lane count of a lane format (R8). -/
def LFmt.lanes (f : LFmt) : Nat := 256 / f.width

/-- The integer lane formats I32, I16 and I8. -/
def LFmt.isInt : LFmt → Bool
  | .i32 | .i16 | .i8 => true
  | .fp64 | .fp32 | .bf16 | .fp16 | .b8p4se => false

/-- Width in bits of a wide format. -/
def FFmt.width : FFmt → Nat
  | .fp64 => 64 | .fp32 => 32 | .bf16 | .fp16 => 16

/-- Width in bits of an integer format. -/
def IFmt.width : IFmt → Nat
  | .i8 | .n8 => 8 | .i16 | .n16 => 16 | .i32 | .n32 => 32 | .i64 | .n64 => 64

/-- Width in bits of a Q descriptor (R40). -/
def QWid.bits : QWid → Nat
  | .w16 => 16 | .w32 => 32 | .w64 => 64

/-- R144: a wide-to-wide conversion narrows to a narrower format, and between BF16 and FP16. -/
def narrows (src dst : FFmt) : Bool :=
  dst.width < src.width || (src == .bf16 && dst == .fp16) || (src == .fp16 && dst == .bf16)

/-- R160: PART must be below the width ratio. -/
def partOk (ws wd : Nat) (part : BitVec 3) : Bool :=
  part.toNat < Nat.max ws wd / Nat.min ws wd

def NarrowDst.width : NarrowDst → Nat
  | .b8 _ | .i8 | .n8 => 8
  | .bf16 | .fp16 | .i16 | .n16 => 16

def WidenDst.width : WidenDst → Nat
  | .fp32 => 32 | .bf16 | .fp16 => 16

def WidenSrc.width : WidenSrc → Nat
  | .b8 _ | .i8 | .n8 => 8
  | .i16 | .n16 => 16
  | .i4 => 4

/-- R161: which format pairs, parts and SR bits VCVT accepts. -/
def vcvtOk (sr : Bool) (k : VcvtKind) (part : BitVec 3) : Bool :=
  match k with
  | .ff dst src => partOk src.width dst.width part && (!sr || narrows src dst)
  | .fi src dst => !sr && partOk src.width dst.width part
      && (dst.width != 64 || src == .fp64 || src == .fp32)
  | .intF dst src => !sr && partOk src.width dst.width part
      && (src.width != 64 || dst == .fp64 || dst == .fp32)

/-- R129: the legal FENCE encodings. -/
def fenceOk (o : Ord) (sc : Scope) (red uo : Bool) : Bool :=
  match o with
  | .none => red && !uo && sc == .cr
  | .acq => !uo
  | .rel | .acqRel => true

/-- R149: the estimates accept FP32, BF16 and FP16. -/
def estFmt (f : LFmt) : Bool := f == .fp32 || f == .bf16 || f == .fp16

/-- R153: LTU and LEU are for integers, UN for floating point and b8p4se. -/
def vcmpOk (cc : VCond) (f : LFmt) : Bool :=
  match cc with
  | .ltu | .leu => f.isInt
  | .un => !f.isInt
  | .eq | .ne | .lt | .le => true

/-- R266: N is even for .D and a multiple of 8 for a vector. -/
def movkOk (r : KReg) (k : BitVec 8) : Bool :=
  match r with
  | .scalar _ => true
  | .double _ => k.toNat % 2 == 0
  | .vector _ => k.toNat % 8 == 0

/-- R115, R284: in mode 01 the destination of a load differs from its base. -/
def postIncOk (d : SReg) (a : GReg) (m : LMode) : Bool := m == .offset || d != .g a

/-- R171: one stream is not named through both s and w. -/
def oneStream (s : SReg) (v : VReg) : Bool :=
  match s, v with
  | .s i, .w k => i != k
  | _, _ => true

/-- The limits on an instruction's fields; the part's own steps have none. -/
def wellFormed : Instr → Bool
  | .ld _ d a _ m _ => postIncOk d a m
  | .ldp _ d a m _ => postIncOk d a m
  | .fence o sc red uo => fenceOk o sc red uo
  | .fcvt _ sr dst src _ _ => !sr || narrows src dst
  | .vmulh _ f _ _ _ | .vshl _ f _ _ _ | .vshr _ f _ _ _ | .vsra _ f _ _ _ => f.isInt
  | .viota _ f _ d a => f.isInt && oneStream a d
  | .vlut _ f _ _ _ => f == .bf16 || f == .fp16 || f == .i16 || f == .i8
  | .vexp2 _ f _ _ _ | .vlog2 _ f _ _ _ | .vrcp _ f _ _ _ | .vrsq _ f _ _ _ | .vtanh _ f _ _ _ => estFmt f
  | .vcmp _ cc f _ _ _ => vcmpOk cc f
  | .vbcast _ f _ _ j | .vins _ f _ _ j => j.toNat < f.lanes
  | .vrot _ f _ _ k => k.toNat < f.lanes
  | .vext _ f d a j => decide (j.toNat < f.lanes) && oneStream d a
  | .vcvt _ sr k part _ _ => vcvtOk sr k part
  | .vnarrow _ _ dst part _ _ => partOk 32 dst.width part
  | .vwiden _ dst src part _ _ => partOk src.width dst.width part
  | .qmul _ w f _ _ | .qdiv _ w f _ _ => f.toNat < w.bits
  | .qsqrt _ w f _ _ => f.toNat < w.bits
  | .iter _ d _ _ => d.val ≤ 19
  | .iteri _ d _ _ => d.val ≤ 21
  | .send _ d _ _ _ | .senda _ d _ _ _ => d.val ≤ 16
  | .fan _ _ _ _ dmask => dmask != 0
  | .gang _ _ _ b _ => b.val ≤ 20
  | .movk _ d k => movkOk d k
  | .movtk _ k a => movkOk a k
  | .vstt _ _ a m b _ => m == .offset || a != b
  | .cVadd f _ _ | .cVsub f _ _ | .cVmul f _ _ | .cVmin f _ _ | .cVmax f _ _ | .cVand f _ _ | .cVor f _ _
  | .cVxor f _ _ | .cVmov f _ _ | .cVabs f _ _ | .cVneg f _ _ | .cVmac f _ _ | .cVbcast f _ _ => f != .fp64
  | .cVshl f _ _ | .cVshr f _ _ | .cVsra f _ _ => f.isInt
  | _ => true

/-! ## The units that an event names (R1, R20, R334, R423, R451, R461, R462, R471) -/

def coreExists (c : CoreId) : Bool := decide (c < 20480)
def clusterExists (cl : Nat) : Bool := decide (cl < 320)
def queueExists (q : Nat) : Bool := decide (q < 1024)
def jobExists (j : Nat) : Bool := decide (j < 64)
def partExists (p : Nat) : Bool := decide (p < 320)
def nodeExists (n : Nat) : Bool := decide (1 ≤ n) && decide (n < 0xFE)
/-- A core with a copy channel of its own, or, for channel 2, a partition's context of one of the 32 exchange engines. -/
def channelExists (c : CoreId) (ch : Fin 3) : Bool := if ch = 2 then decide (c < 10240) else coreExists c

def siteExists : ErrSite → Bool
  | .memWord _ | .seqCommand _ _ _ | .dieTlb _ _ => true
  | .gWord c _ _ | .vWord c _ _ _ | .kWord c _ | .portEntry c _ _ | .inboundEntry c _ | .seamEntry c _ _
  | .outboundEntry c _ | .storeEntry c _ | .streamEntry c _ _ | .footCommand c _ | .icacheLine c
  | .coreTlb c _ | .answer c _ _ _ | .reduction c _ => coreExists c
  | .shadowWord p j c _ => partExists p && jobExists j && coreExists c
  | .shadowUnit _ _ => true
  | .copyWord c ch _ _ => channelExists c ch
  | .mailboxEntry cl _ | .clusterTlb cl _ => clusterExists cl
  | .copyCommand c ch _ => channelExists c ch

/-- Whether the package has every unit that an event names; an encoded instruction names none. -/
def unitsExist : Instr → Bool
  | .loadResponse c _ _ | .storePerform c _ | .reductionAck c _ | .releaseComplete c _ | .faultAcknowledgement c _
  | .slicePortRequest c _ _ _ | .stackAccess c _ _ _ | .slotActivation c | .outboundSend c _ | .sleepDeadline c _
  | .fanTimedStart c | .streamReadFetch c _ | .streamWritePerform c _ | .boundStreamPush c _ | .boundStreamPop c _
  | .gangTimedStart c _ | .wsLatchEntry c | .gangPulse c | .gangComplete c _ | .gangThawRequest c _ _
  | .gangPreemptThaw c _ | .gangFaultThaw c _ | .seamBufferForward c _ | .seamContextTimeout c _ _ | .pageWalk c _
  | .footingAtomic c _ | .optimiserPiece c _ _ | .optimiserComplete c _ | .eccCorrected c | .shadowCombine c _
  | .tuntilDeadline c _ => coreExists c
  | .gangClaim c _ cell => coreExists c && (match cell with | some d => coreExists d | none => true)
  | .copyAccept c ch _ _ | .copyRefusalRetry c ch _ | .copyTimedStart c ch _ | .copyLanding c ch _ _
  | .copyComplete c ch _ | .copyFault c ch _ _ => channelExists c ch
  | .serviceStrandStart cl | .faultSlotTimeout cl => clusterExists cl
  | .leaseGrant n _ _ _ _ _ _ | .leaseRecall n _ | .ustisFrame n _ | .ustisRetransmitTimeout n => nodeExists n
  | .peerAccess p n _ _ => partExists p && nodeExists n.node
  | .schedulerPlace p _ cx cy => partExists p && decide (cx < 16) && decide (cy < 20)
  | .priorityAging p _ | .timeSliceExpiry p | .partitionHalt p | .partitionTeardown p => partExists p
  | .partitionAssign p cls _ _ _ => partExists p && cls.all clusterExists
  | .partitionRestore p j => partExists p && jobExists j
  | .uncorrectableError e => siteExists e
  | .controlStateError (.job j) | .jobConfigWrite j _ _ _ _ => jobExists j
  | .qdbWrite q | .qcfgWrite q _ | .queuePollTimeout q | .launch q | .active q | .copy q | .signalPacket q | .wait q
  | .fencePacket q | .packetComplete q _ | .hostRegisterWrite (.qbase q) _ | .hostRegisterWrite (.qstat q) _ =>
    queueExists q
  | _ => true

end Sys2Proof
end

