-- ==== Sys2Proof/Decode.lean ====
section
/-!
DEFINITION. Decoding bytes to an instruction (03_encoding_and_assembly.md, and each chapter's field tables), and the
encoder. A word is decoded as a number below 2^32, so that a field is a quotient and a remainder.
-/
namespace Sys2Proof

/-- Why a word is no instruction (R80). Every reason raises cause 0x01, but for `short`, which no fetch meets. -/
inductive DecodeError where
  | short            -- fewer bytes than the length of R63
  | reservedMajor    -- a major opcode that R72 reserves
  | illegalMajor     -- major 0x3F (R82)
  | reservedSelector -- a func8, func3, selector or operation value not assigned
  | reservedBits     -- a reserved bit is set
  | reservedSize     -- a size or mode that the instruction does not accept
  | vectorField      -- a vector field of 16 to 31
  | maskField        -- a mask field of 4 to 31
  | viewField        -- a view in a field that admits none
  | streamField      -- a field that names a stream or port and does not hold its code
  | reservedScope    -- a scope code 101 to 111
  | reservedFormat   -- a format code the operation does not accept
  | operandLimits    -- `wellFormed` fails
deriving DecidableEq, Repr

abbrev Dec := Except DecodeError

/-- Field [lo + len - 1 : lo] of a word. -/
def field (w lo len : Nat) : Nat := w / 2 ^ lo % 2 ^ len

def need (c : Bool) (e : DecodeError) : Dec Unit := if c then .ok () else .error e

/-! ### Operand fields and their codes -/

def Port.ofCode (n : Nat) : Port :=
  match n % 4 with
  | 0 => .n | 1 => .e | 2 => .s | _ => .w

def Port.code : Port → Nat
  | .n => 0 | .e => 1 | .s => 2 | .w => 3

def SReg.ofCode (n : Nat) : SReg :=
  if h : n < 24 then .g ⟨n, h⟩
  else if n < 28 then .s ⟨(n - 24) % 4, Nat.mod_lt _ (by decide)⟩
  else .p (Port.ofCode (n - 28))

def SReg.code : SReg → Nat
  | .g i => i.val
  | .s i => 24 + i.val
  | .p i => 28 + i.code

def GReg.ofCode (n : Nat) : Dec GReg := if h : n < 24 then .ok ⟨n, h⟩ else .error .viewField

def VReg.ofCode (n : Nat) : Dec VReg :=
  if h : n < 8 then .ok (.v ⟨n, h⟩)
  else if n < 12 then .ok (.w ⟨(n - 8) % 4, Nat.mod_lt _ (by decide)⟩)
  else if n < 16 then .ok (.q (Port.ofCode (n - 12)))
  else .error .vectorField

def VReg.code : VReg → Nat
  | .v i => i.val
  | .w i => 8 + i.val
  | .q i => 12 + i.code

/-- A destructive vector destination: values 8 to 15 are views (R137), 16 to 31 reserved (R6). -/
def plainV (n : Nat) : Dec (Fin 8) :=
  if h : n < 8 then .ok ⟨n, h⟩ else if n < 16 then .error .viewField else .error .vectorField

def MReg.ofCode (n : Nat) : Dec MReg := if h : n < 4 then .ok ⟨n, h⟩ else .error .maskField

def streamCode (n : Nat) : Dec StreamId :=
  if 24 ≤ n ∧ n < 28 then .ok ⟨(n - 24) % 4, Nat.mod_lt _ (by decide)⟩ else .error .streamField

def portCode (n : Nat) : Dec Port := if 28 ≤ n ∧ n < 32 then .ok (Port.ofCode (n - 28)) else .error .streamField

def Pred.ofCode (n : Nat) : Pred :=
  match n % 4 with
  | 0 => .always | 1 => .m1 | 2 => .m2 | _ => .m3

def Pred.code : Pred → Nat
  | .always => 0 | .m1 => 1 | .m2 => 2 | .m3 => 3

def Ord.ofCode (n : Nat) : Ord :=
  match n % 4 with
  | 0 => .none | 1 => .acq | 2 => .rel | _ => .acqRel

def Ord.code : Ord → Nat
  | .none => 0 | .acq => 1 | .rel => 2 | .acqRel => 3

def Scope.ofCode (n : Nat) : Dec Scope :=
  match n with
  | 0 => .ok .cr | 1 => .ok .cl | 2 => .ok .di | 3 => .ok .pk | 4 => .ok .sy
  | _ => .error .reservedScope

def Scope.code : Scope → Nat
  | .cr => 0 | .cl => 1 | .di => 2 | .pk => 3 | .sy => 4

def LSize.ofCode (n : Nat) : Dec LSize :=
  match n with
  | 0 => .ok .b | 1 => .ok .h | 2 => .ok .w | 3 => .ok .d | 4 => .ok .bu | 5 => .ok .hu | 6 => .ok .wu
  | _ => .error .reservedSize

def LSize.code : LSize → Nat
  | .b => 0 | .h => 1 | .w => 2 | .d => 3 | .bu => 4 | .hu => 5 | .wu => 6

def SSize.ofCode (n : Nat) : Dec SSize :=
  match n with
  | 0 => .ok .b | 1 => .ok .h | 2 => .ok .w | 3 => .ok .d
  | _ => .error .reservedSize

def SSize.code : SSize → Nat
  | .b => 0 | .h => 1 | .w => 2 | .d => 3

/-- Modes 00 and 01; mode 11 is reserved, and mode 10 is decoded before. -/
def LMode.ofCode (n : Nat) : Dec LMode :=
  match n with
  | 0 => .ok .offset | 1 => .ok .postInc | _ => .error .reservedSize

def LMode.code : LMode → Nat
  | .offset => 0 | .postInc => 1

def ASize.ofCode (n : Nat) : ASize := if n % 2 = 0 then .w else .d
def ASize.code : ASize → Nat
  | .w => 0 | .d => 1

def AFmt.ofCode (n : Nat) : AFmt := if n % 2 = 0 then .fp32 else .bf16
def AFmt.code : AFmt → Nat
  | .fp32 => 0 | .bf16 => 1

def AmoOp.ofCode (n : Nat) : AmoOp :=
  match n % 8 with
  | 0 => .add | 1 => .and | 2 => .or | 3 => .xor | 4 => .min | 5 => .max | 6 => .minu | _ => .maxu
def AmoOp.code : AmoOp → Nat
  | .add => 0 | .and => 1 | .or => 2 | .xor => 3 | .min => 4 | .max => 5 | .minu => 6 | .maxu => 7

def RedOp.ofCode (n : Nat) : Dec RedOp :=
  match n with
  | 0 => .ok .add | 1 => .ok .min | 2 => .ok .max | _ => .error .reservedSelector
def RedOp.code : RedOp → Nat
  | .add => 0 | .min => 1 | .max => 2

def FFmt.ofCode (n : Nat) : FFmt :=
  match n % 4 with
  | 0 => .fp64 | 1 => .fp32 | 2 => .bf16 | _ => .fp16
def FFmt.code : FFmt → Nat
  | .fp64 => 0 | .fp32 => 1 | .bf16 => 2 | .fp16 => 3

/-- The format code of R71, limited to 000 to 011 in major 0x28 (R77). -/
def scalarFmt (n : Nat) : Dec FFmt := if n < 4 then .ok (FFmt.ofCode n) else .error .reservedFormat

def FmaFmt.ofCode (n : Nat) : FmaFmt := if n % 2 = 0 then .fp64 else .fp32
def FmaFmt.code : FmaFmt → Nat
  | .fp64 => 0 | .fp32 => 1

def LFmt.ofCode (n : Nat) : LFmt :=
  match n % 8 with
  | 0 => .fp64 | 1 => .fp32 | 2 => .bf16 | 3 => .fp16 | 4 => .b8p4se | 5 => .i32 | 6 => .i16 | _ => .i8
def LFmt.code : LFmt → Nat
  | .fp64 => 0 | .fp32 => 1 | .bf16 => 2 | .fp16 => 3 | .b8p4se => 4 | .i32 => 5 | .i16 => 6 | .i8 => 7

def IFmt.ofCode (n : Nat) : IFmt :=
  match n % 8 with
  | 0 => .i8 | 1 => .i16 | 2 => .i32 | 3 => .i64 | 4 => .n8 | 5 => .n16 | 6 => .n32 | _ => .n64
def IFmt.code : IFmt → Nat
  | .i8 => 0 | .i16 => 1 | .i32 => 2 | .i64 => 3 | .n8 => 4 | .n16 => 5 | .n32 => 6 | .n64 => 7

/-- The binary8 variant code (R31); PM1 = 111 is outside the operand limits. -/
def B8.ofCode (n : Nat) : Dec B8 :=
  if h : n % 8 < 7 then .ok ⟨⟨n % 8, h⟩, n / 8 % 2 == 1, n / 16 % 2 == 1⟩ else .error .operandLimits
def B8.code (v : B8) : Nat := v.pm1.val + 8 * v.uns.toNat + 16 * v.fin.toNat

def RMode.code : RMode → Nat
  | .rne => 0 | .rtz => 1 | .rup => 2 | .rdn => 3 | .rna => 4

/-- The rounding code of R144. -/
def RCode.ofCode (n : Nat) : Dec RCode :=
  match n with
  | 0 => .ok (.fixed .rne) | 1 => .ok (.fixed .rtz) | 2 => .ok (.fixed .rup) | 3 => .ok (.fixed .rdn)
  | 4 => .ok (.fixed .rna) | 7 => .ok .dyn
  | _ => .error .reservedSelector
def RCode.code : RCode → Nat
  | .fixed m => m.code
  | .dyn => 7

def VCond.ofCode (n : Nat) : Dec VCond :=
  match n with
  | 0 => .ok .eq | 1 => .ok .ne | 2 => .ok .lt | 3 => .ok .le | 4 => .ok .ltu | 5 => .ok .leu | 6 => .ok .un
  | _ => .error .reservedSelector
def VCond.code : VCond → Nat
  | .eq => 0 | .ne => 1 | .lt => 2 | .le => 3 | .ltu => 4 | .leu => 5 | .un => 6

def EWidth.ofCode (n : Nat) : EWidth :=
  match n % 4 with
  | 0 => .b | 1 => .h | 2 => .w | _ => .d
def EWidth.code : EWidth → Nat
  | .b => 0 | .h => 1 | .w => 2 | .d => 3

def VfmaFmt.ofCode (n : Nat) : VfmaFmt :=
  match n % 4 with
  | 0 => .fp64 | 1 => .fp32 | 2 => .bf16 | _ => .fp16
def VfmaFmt.code : VfmaFmt → Nat
  | .fp64 => 0 | .fp32 => 1 | .bf16 => 2 | .fp16 => 3

def DotFmt.ofCode (n : Nat) : DotFmt := if n % 2 = 0 then .bf16 else .i8
def DotFmt.code : DotFmt → Nat
  | .bf16 => 0 | .i8 => 1

def BarLevel.ofCode (n : Nat) : BarLevel := if n % 2 = 0 then .course else .bond
def BarLevel.code : BarLevel → Nat
  | .course => 0 | .bond => 1

def QWid.ofCode (n : Nat) : Dec QWid :=
  match n with
  | 0 => .ok .w16 | 1 => .ok .w32 | 2 => .ok .w64 | _ => .error .operandLimits
def QWid.code : QWid → Nat
  | .w16 => 0 | .w32 => 1 | .w64 => 2

/-- The field [23:19] of VNARROW (R162). -/
def NarrowDst.ofCode (b8 : Bool) (n : Nat) : Dec NarrowDst :=
  if b8 then (B8.ofCode n).map .b8
  else match n with
    | 0 => .ok .bf16 | 1 => .ok .fp16 | 2 => .ok .i8 | 3 => .ok .i16 | 4 => .ok .n8 | 5 => .ok .n16
    | _ => .error .reservedFormat
def NarrowDst.code : NarrowDst → Nat
  | .b8 v => v.code
  | .bf16 => 0 | .fp16 => 1 | .i8 => 2 | .i16 => 3 | .n8 => 4 | .n16 => 5
def NarrowDst.isB8 : NarrowDst → Bool
  | .b8 _ => true
  | .bf16 | .fp16 | .i8 | .i16 | .n8 | .n16 => false

def WidenDst.ofCode (n : Nat) : Dec WidenDst :=
  match n with
  | 0 => .ok .fp32 | 1 => .ok .bf16 | 2 => .ok .fp16 | _ => .error .reservedFormat
def WidenDst.code : WidenDst → Nat
  | .fp32 => 0 | .bf16 => 1 | .fp16 => 2

/-- The field [23:19] of VWIDEN (R163). -/
def WidenSrc.ofCode (b8 : Bool) (n : Nat) : Dec WidenSrc :=
  if b8 then (B8.ofCode n).map .b8
  else match n with
    | 0 => .ok .i8 | 1 => .ok .n8 | 2 => .ok .i16 | 3 => .ok .n16 | 4 => .ok .i4
    | _ => .error .reservedFormat
def WidenSrc.code : WidenSrc → Nat
  | .b8 v => v.code
  | .i8 => 0 | .n8 => 1 | .i16 => 2 | .n16 => 3 | .i4 => 4
def WidenSrc.isB8 : WidenSrc → Bool
  | .b8 _ => true
  | .i8 | .n8 | .i16 | .n16 | .i4 => false

/-! ### Decoding, family by family -/

section
variable (w : Nat)

/-- Bits [8:7]. -/
def fP : Nat := field w 7 2
/-- Bits [13:9]. -/
def fD : Nat := field w 9 5
/-- Bits [18:14]. -/
def fA : Nat := field w 14 5
/-- Bits [23:19]. -/
def fB : Nat := field w 19 5
/-- Bits [28:24]. -/
def fC : Nat := field w 24 5
/-- Bits [31:24]. -/
def fF8 : Nat := field w 24 8
/-- Bits [31:19]. -/
def fI13 : BitVec 13 := BitVec.ofNat 13 (field w 19 13)
/-- Bits [31:24] as off8 (R69). -/
def fOff8 : BitVec 8 := BitVec.ofNat 8 (field w 24 8)
/-- The B-format offset, [31:19] : [8:7] (R67). -/
def fBoff : BitVec 15 := BitVec.ofNat 15 (field w 19 13 * 4 + field w 7 2)

/-- R format with scalar d, a and b. -/
def sss (k : Pred → SReg → SReg → SReg → Instr) : Dec Instr :=
  .ok (k (.ofCode (fP w)) (.ofCode (fD w)) (.ofCode (fA w)) (.ofCode (fB w)))

/-- R format with scalar d and a, and b reserved. -/
def ss (k : Pred → SReg → SReg → Instr) : Dec Instr := do
  need (fB w == 0) .reservedBits
  .ok (k (.ofCode (fP w)) (.ofCode (fD w)) (.ofCode (fA w)))

/-- R format with three fields that admit no view. -/
def ggg (k : Pred → GReg → GReg → GReg → Instr) : Dec Instr := do
  let d ← GReg.ofCode (fD w)
  let a ← GReg.ofCode (fA w)
  let b ← GReg.ofCode (fB w)
  .ok (k (.ofCode (fP w)) d a b)

/-- R format with d and a that admit no view, and b reserved. -/
def gg (k : Pred → GReg → GReg → Instr) : Dec Instr := do
  need (fB w == 0) .reservedBits
  let d ← GReg.ofCode (fD w)
  let a ← GReg.ofCode (fA w)
  .ok (k (.ofCode (fP w)) d a)

/-- R format with vector d, a and b and a lane format in [26:24]. -/
def vvv (k : Pred → LFmt → VReg → VReg → VReg → Instr) : Dec Instr := do
  let d ← VReg.ofCode (fD w)
  let a ← VReg.ofCode (fA w)
  let b ← VReg.ofCode (fB w)
  .ok (k (.ofCode (fP w)) (.ofCode (field w 24 3)) d a b)

/-- R format with vector d and a, .P in [23], [22:19] reserved and a lane format in [26:24]. -/
def vvP (k : Pred → LFmt → Bool → VReg → VReg → Instr) : Dec Instr := do
  need (field w 19 4 == 0) .reservedBits
  let d ← VReg.ofCode (fD w)
  let a ← VReg.ofCode (fA w)
  .ok (k (.ofCode (fP w)) (.ofCode (field w 24 3)) (field w 23 1 == 1) d a)

/-- Major 0x00 (R73). -/
def decInt : Dec Instr :=
  match fF8 w with
  | 0x00 => sss w .add | 0x01 => sss w .sub | 0x02 => sss w .and | 0x03 => sss w .or | 0x04 => sss w .xor
  | 0x05 => sss w .andn | 0x06 => sss w .orn | 0x08 => sss w .sll | 0x09 => sss w .srl | 0x0A => sss w .sra
  | 0x0B => sss w .rol | 0x0C => sss w .ror | 0x10 => sss w .min | 0x11 => sss w .max | 0x12 => sss w .minu
  | 0x13 => sss w .maxu | 0x14 => sss w .slt | 0x15 => sss w .sltu | 0x16 => sss w .seq | 0x17 => sss w .sne
  | 0x18 => do .ok (.sel (.ofCode (fP w)) (← GReg.ofCode (fD w)) (.ofCode (fA w)) (.ofCode (fB w)))
  | _ => .error .reservedSelector

/-- I format with scalar d and a. -/
def imm (k : Pred → SReg → SReg → BitVec 13 → Instr) : Dec Instr :=
  .ok (k (.ofCode (fP w)) (.ofCode (fD w)) (.ofCode (fA w)) (fI13 w))

/-- Major 0x05 (R75). -/
def decShift : Dec Instr := do
  need (field w 27 5 == 0) .reservedBits
  let k : Pred → SReg → SReg → BitVec 6 → Instr :=
    match field w 25 2 with
    | 0 => .slli | 1 => .srli | 2 => .srai | _ => .roli
  .ok (k (.ofCode (fP w)) (.ofCode (fD w)) (.ofCode (fA w)) (BitVec.ofNat 6 (field w 19 6)))

/-- U format (R65): [8:7] is reserved. -/
def decU (k : SReg → BitVec 18 → Instr) : Dec Instr := do
  need (fP w == 0) .reservedBits
  .ok (k (.ofCode (fD w)) (BitVec.ofNat 18 (field w 14 18)))

/-- Major 0x0B (R75). -/
def decFunnel : Dec Instr := do
  need (field w 31 1 == 0) .reservedBits
  let k : Pred → SReg → SReg → SReg → BitVec 6 → Instr := if field w 30 1 = 0 then .fshl else .fshr
  .ok (k (.ofCode (fP w)) (.ofCode (fD w)) (.ofCode (fA w)) (.ofCode (fB w)) (BitVec.ofNat 6 (field w 24 6)))

/-- Majors 0x0C, 0x0D and 0x0E (R74). -/
def decMul : Dec Instr :=
  match fF8 w with
  | 0x00 => sss w .mul | 0x01 => sss w .mulh | 0x02 => sss w .mulhu
  | 0x04 => sss w .div | 0x05 => sss w .divu | 0x06 => sss w .rem | 0x07 => sss w .remu
  | _ => .error .reservedSelector

def decBit : Dec Instr :=
  match fF8 w with
  | 0x00 => ss w .clz | 0x01 => ss w .ctz | 0x02 => ss w .popc | 0x03 => ss w .brev | 0x04 => ss w .bswap
  | 0x08 => ss w .sextB | 0x09 => ss w .sextH | 0x0A => ss w .sextW
  | 0x0C => ss w .zextB | 0x0D => ss w .zextH | 0x0E => ss w .zextW
  | _ => .error .reservedSelector

def decMask : Dec Instr :=
  match fF8 w with
  | 0x00 => do
    need (fB w == 0) .reservedBits
    .ok (.setm (.ofCode (fP w)) (← MReg.ofCode (fD w)) (.ofCode (fA w)))
  | 0x01 => do
    need (fB w == 0) .reservedBits
    .ok (.getm (.ofCode (fP w)) (.ofCode (fD w)) (← MReg.ofCode (fA w)))
  | 0x02 => do .ok (.mand (.ofCode (fP w)) (← MReg.ofCode (fD w)) (← MReg.ofCode (fA w)) (← MReg.ofCode (fB w)))
  | 0x03 => do .ok (.mor (.ofCode (fP w)) (← MReg.ofCode (fD w)) (← MReg.ofCode (fA w)) (← MReg.ofCode (fB w)))
  | 0x04 => do
    need (fB w == 0) .reservedBits
    .ok (.mnot (.ofCode (fP w)) (← MReg.ofCode (fD w)) (← MReg.ofCode (fA w)))
  | _ => .error .reservedSelector

/-- B format (R65). -/
def decB (k : SReg → SReg → BitVec 15 → Instr) : Dec Instr :=
  .ok (k (.ofCode (fD w)) (.ofCode (fA w)) (fBoff w))

/-- Major 0x19 (R193). -/
def decBeos : Dec Instr := do
  need (fA w == 0) .reservedBits
  .ok (.beos (← streamCode (fD w)) (fBoff w))

/-- Major 0x1A (R220). -/
def decIter : Dec Instr := do
  let d ← GReg.ofCode (fD w)
  let a ← GReg.ofCode (fA w)
  let k : Pred → GReg → GReg → BitVec 12 → Instr := if field w 31 1 = 0 then .iter else .iteri
  .ok (k (.ofCode (fP w)) d a (BitVec.ofNat 12 (field w 19 12)))

/-- The index register of mode 10: a scalar field without a view, with [31:29] reserved (R69). -/
def indexReg : Dec GReg := do
  need (field w 29 3 == 0) .reservedBits
  GReg.ofCode (fC w)

/-- Major 0x1C. -/
def decLd : Dec Instr := do
  let sz ← LSize.ofCode (field w 19 3)
  let a ← GReg.ofCode (fA w)
  if field w 22 2 = 2 then
    .ok (.ldIndexed (.ofCode (fP w)) (.ofCode (fD w)) a sz (← indexReg w))
  else
    .ok (.ld (.ofCode (fP w)) (.ofCode (fD w)) a sz (← LMode.ofCode (field w 22 2)) (fOff8 w))

/-- Major 0x1D. -/
def decSt : Dec Instr := do
  let sz ← SSize.ofCode (field w 19 3)
  let a ← GReg.ofCode (fA w)
  if field w 22 2 = 2 then
    .ok (.stIndexed (.ofCode (fP w)) (.ofCode (fD w)) a sz (← indexReg w))
  else
    .ok (.st (.ofCode (fP w)) (.ofCode (fD w)) a sz (← LMode.ofCode (field w 22 2)) (fOff8 w))

/-- Major 0x1E (R120, R121). -/
def decLda : Dec Instr := do
  let a ← GReg.ofCode (fA w)
  let off := BitVec.ofNat 5 (field w 27 5)
  match field w 22 2 with
  | 0 => do
    let sz ← LSize.ofCode (field w 19 3)
    .ok (.lda (.ofCode (fP w)) (.ofCode (fD w)) a sz (← Scope.ofCode (field w 24 3)) off)
  | 1 => do
    let sz ← SSize.ofCode (field w 19 3)
    .ok (.stl (.ofCode (fP w)) (.ofCode (fD w)) a sz (← Scope.ofCode (field w 24 3)) off)
  | 2 => do
    need (field w 19 3 == 3) .reservedSize
    need (field w 24 3 == 0) .reservedScope
    if h : fD w < 3 then .ok (.pref (.ofCode (fP w)) ⟨fD w, h⟩ a off) else .error .operandLimits
  | _ => .error .reservedSelector

/-- Major 0x1F with a scalar d, and with a vector d. -/
def presS (k : Pred → SReg → GReg → LMode → BitVec 8 → Instr) (kx : Pred → SReg → GReg → GReg → Instr) :
    Dec Instr := do
  let a ← GReg.ofCode (fA w)
  if field w 22 2 = 2 then .ok (kx (.ofCode (fP w)) (.ofCode (fD w)) a (← indexReg w))
  else .ok (k (.ofCode (fP w)) (.ofCode (fD w)) a (← LMode.ofCode (field w 22 2)) (fOff8 w))

def memV (k : Pred → VReg → GReg → LMode → BitVec 8 → Instr) (kx : Pred → VReg → GReg → GReg → Instr) :
    Dec Instr := do
  let d ← VReg.ofCode (fD w)
  let a ← GReg.ofCode (fA w)
  if field w 22 2 = 2 then .ok (kx (.ofCode (fP w)) d a (← indexReg w))
  else .ok (k (.ofCode (fP w)) d a (← LMode.ofCode (field w 22 2)) (fOff8 w))

/-- Major 0x1F (R284). -/
def decPres : Dec Instr :=
  match field w 19 3 with
  | 0 => presS w .ldp .ldpIndexed
  | 1 => presS w .stp .stpIndexed
  | 2 => presS w .clrp .clrpIndexed
  | 3 => memV w .vldp .vldpIndexed
  | 4 => memV w .vstp .vstpIndexed
  | _ => .error .reservedSelector

/-- VGATH and VSCAT (R148). -/
def gathScat (k : Pred → VReg → GReg → EWidth → VReg → Instr) : Dec Instr := do
  need (field w 29 3 == 0) .reservedBits
  let d ← VReg.ofCode (fD w)
  let a ← GReg.ofCode (fA w)
  let i ← VReg.ofCode (fC w)
  .ok (k (.ofCode (fP w)) d a (.ofCode (field w 22 2)) i)

/-- Major 0x20. -/
def decVmem : Dec Instr :=
  match field w 19 3 with
  | 0 => memV w .vld .vldIndexed
  | 1 => memV w .vst .vstIndexed
  | 2 => gathScat w .vgath
  | 3 => gathScat w .vscat
  | _ => .error .reservedSelector

/-- Major 0x21 (R389, R390). -/
def decStash : Dec Instr := do
  let d ← VReg.ofCode (fD w)
  let a ← GReg.ofCode (fA w)
  match field w 19 3 with
  | 0 => do
    need (field w 31 1 == 0) .reservedBits
    let m ← LMode.ofCode (field w 22 2)
    let b ← GReg.ofCode (fC w)
    .ok (.vstt (.ofCode (fP w)) d a m b (.ofCode (field w 29 2)))
  | 1 => do
    let m ← LMode.ofCode (field w 22 2)
    .ok (.stn (.ofCode (fP w)) d a m (BitVec.ofNat 4 (field w 24 4)) ⟨field w 28 4 % 16, Nat.mod_lt _ (by decide)⟩)
  | _ => .error .reservedSelector

/-- Major 0x22. -/
def decAmo : Dec Instr := do
  let sc ← Scope.ofCode (field w 24 3)
  let a ← GReg.ofCode (fA w)
  let o := Ord.ofCode (fP w)
  let z := ASize.ofCode (field w 27 1)
  let b := SReg.ofCode (fB w)
  if field w 31 1 = 0 then
    .ok (.amo o (.ofCode (field w 28 3)) z sc (.ofCode (fD w)) a b)
  else
    match field w 28 3 with
    | 0 => do .ok (.cas o z sc (← GReg.ofCode (fD w)) a b)
    | 1 => do .ok (.casXchg o z sc (← GReg.ofCode (fD w)) a b)
    | _ => .error .reservedSelector

/-- RED and FRED accept ORD 00 and 10 only (R126). -/
def redOrd : Dec Bool :=
  match fP w with
  | 0 => .ok false | 2 => .ok true | _ => .error .operandLimits

/-- Major 0x23. -/
def decFamo : Dec Instr := do
  let sc ← Scope.ofCode (field w 24 3)
  let a ← GReg.ofCode (fA w)
  let b := SReg.ofCode (fB w)
  let op ← RedOp.ofCode (field w 28 2)
  match field w 30 2 with
  | 0 => .ok (.famo (.ofCode (fP w)) op (.ofCode (field w 27 1)) sc (.ofCode (fD w)) a b)
  | 1 => do
    need (fD w == 0) .reservedBits
    .ok (.red (← redOrd w) op (.ofCode (field w 27 1)) sc a b)
  | 2 => do
    need (fD w == 0) .reservedBits
    .ok (.fred (← redOrd w) op (.ofCode (field w 27 1)) sc a b)
  | _ => .error .reservedSelector

/-- Major 0x24 (R129, R131). -/
def decFence : Dec Instr :=
  if field w 31 1 = 1 then do
    need (field w 7 24 == 0) .reservedBits
    .ok .ifence
  else do
    need (field w 9 15 == 0 && field w 29 2 == 0) .reservedBits
    .ok (.fence (.ofCode (fP w)) (← Scope.ofCode (field w 24 3)) (field w 27 1 == 1) (field w 28 1 == 1))

/-- Major 0x25 (R357). -/
def decWait : Dec Instr := do
  need (field w 24 6 == 0) .reservedBits
  match field w 30 2 with
  | 0 => ggg w .waitge
  | 1 => ggg w .waitgen
  | 2 => do
    need (fD w == 0) .reservedBits
    let a ← GReg.ofCode (fA w)
    let b ← GReg.ofCode (fB w)
    .ok (.signal (.ofCode (fP w)) a b)
  | _ => .error .reservedSelector

/-- Major 0x26 (R219). -/
def decBar : Dec Instr := do
  need (field w 14 16 == 0) .reservedBits
  let l := BarLevel.ofCode (field w 30 1)
  if field w 31 1 = 0 then do
    need (fD w == 0) .reservedBits
    .ok (.bar (.ofCode (fP w)) l)
  else do
    .ok (.arrive (.ofCode (fP w)) l (← GReg.ofCode (fD w)))

/-- Major 0x27 (R447). -/
def decTime : Dec Instr := do
  need (field w 19 12 == 0) .reservedBits
  let d ← GReg.ofCode (fD w)
  if field w 31 1 = 0 then do
    need (fA w == 0) .reservedBits
    .ok (.tnow (.ofCode (fP w)) d)
  else do
    .ok (.tuntil (.ofCode (fP w)) d (← GReg.ofCode (fA w)))

/-- Major 0x28, with b and with b reserved (R77). -/
def f3 (k : Pred → FFmt → SReg → SReg → SReg → Instr) : Dec Instr := do
  let f ← scalarFmt (field w 24 3)
  .ok (k (.ofCode (fP w)) f (.ofCode (fD w)) (.ofCode (fA w)) (.ofCode (fB w)))

def f2 (k : Pred → FFmt → SReg → SReg → Instr) : Dec Instr := do
  let f ← scalarFmt (field w 24 3)
  need (fB w == 0) .reservedBits
  .ok (k (.ofCode (fP w)) f (.ofCode (fD w)) (.ofCode (fA w)))

def decFp : Dec Instr :=
  match field w 27 5 with
  | 0 => f3 w .fadd | 1 => f3 w .fsub | 2 => f3 w .fmul | 3 => f3 w .fdiv | 4 => f2 w .fsqrt
  | 5 => f3 w .fmin | 6 => f3 w .fmax | 7 => f3 w .fsgn | 8 => f3 w .fcmp | 9 => f2 w .fclass
  | _ => .error .reservedSelector

/-- Major 0x29 (R79). -/
def decFma : Dec Instr :=
  let f := FmaFmt.ofCode (field w 29 1)
  let k (c : Pred → FmaFmt → SReg → SReg → SReg → SReg → Instr) : Dec Instr :=
    .ok (c (.ofCode (fP w)) f (.ofCode (fD w)) (.ofCode (fA w)) (.ofCode (fB w)) (.ofCode (fC w)))
  match field w 30 2 with
  | 0 => k .fma | 1 => k .fms | 2 => k .fnma
  | _ => .error .reservedSelector

/-- Major 0x2A (R144). -/
def decFcvt : Dec Instr :=
  let p := Pred.ofCode (fP w)
  let d := SReg.ofCode (fD w)
  let a := SReg.ofCode (fA w)
  let sr := field w 29 1 == 1
  let wide := FFmt.ofCode (field w 25 2)
  match field w 30 2 with
  | 0 =>
    match field w 27 2 with
    | 0 => do
      need (field w 21 4 == 0) .reservedBits
      .ok (.fcvt p sr wide (.ofCode (field w 19 2)) d a)
    | 1 => do
      need (field w 24 1 == 0) .reservedBits
      .ok (.fcvtWideToB8 p sr wide (← B8.ofCode (fB w)) d a)
    | 2 => do
      need (field w 24 1 == 0) .reservedBits
      need (!sr) .operandLimits
      .ok (.fcvtB8ToWide p wide (← B8.ofCode (fB w)) d a)
    | _ => .error .reservedSelector
  | 1 => do
    need (field w 27 3 == 0) .reservedBits
    .ok (.fcvti p wide (.ofCode (field w 22 3)) (← RCode.ofCode (field w 19 3)) d a)
  | 2 => do
    need (field w 27 3 == 0) .reservedBits
    .ok (.icvtf p wide (.ofCode (field w 22 3)) (← RCode.ofCode (field w 19 3)) d a)
  | _ => do
    need (field w 27 3 == 0 && field w 22 3 == 0) .reservedBits
    .ok (.frnd p wide (← RCode.ofCode (field w 19 3)) d a)

/-- Major 0x2B (R78, R150). -/
def decVec : Dec Instr :=
  let p := Pred.ofCode (fP w)
  let f := LFmt.ofCode (field w 24 3)
  let idx := BitVec.ofNat 5 (fB w)
  match field w 27 5 with
  | 0x00 => vvv w .vadd | 0x01 => vvv w .vsub | 0x02 => vvv w .vmul | 0x03 => vvv w .vmulh
  | 0x04 => vvv w .vmin | 0x05 => vvv w .vmax | 0x06 => vvP w .vabs | 0x07 => vvP w .vneg
  | 0x08 => vvv w .vand | 0x09 => vvv w .vor | 0x0A => vvv w .vxor | 0x0B => vvv w .vshl
  | 0x0C => vvv w .vshr | 0x0D => vvv w .vsra
  | 0x0E => do
    let cc ← VCond.ofCode (field w 11 3)
    let a ← VReg.ofCode (fA w)
    let b ← VReg.ofCode (fB w)
    .ok (.vcmp p cc f ⟨field w 9 2 % 4, Nat.mod_lt _ (by decide)⟩ a b)
  | 0x0F => vvv w .vsel
  | 0x10 => do
    let d ← plainV (fD w)
    let a ← VReg.ofCode (fA w)
    let b ← VReg.ofCode (fB w)
    .ok (.vclamp p f d a b)
  | 0x11 => vvP w .vmov
  | 0x12 => do
    let d ← VReg.ofCode (fD w)
    .ok (.vbcast p f d (← VReg.ofCode (fA w)) idx)
  | 0x13 => vvv w .vshuf
  | 0x14 => do
    let d ← VReg.ofCode (fD w)
    .ok (.vrot p f d (← VReg.ofCode (fA w)) idx)
  | 0x15 => do
    need (field w 21 2 == 0) .reservedBits
    let op ← RedOp.ofCode (field w 19 2)
    let d ← VReg.ofCode (fD w)
    .ok (.vred p op f (field w 23 1 == 1) d (← VReg.ofCode (fA w)))
  | 0x16 => do .ok (.vins p f (← plainV (fD w)) (.ofCode (fA w)) idx)
  | 0x17 => do .ok (.vext p f (.ofCode (fD w)) (← VReg.ofCode (fA w)) idx)
  | 0x18 => do
    need (field w 19 4 == 0) .reservedBits
    .ok (.viota p f (field w 23 1 == 1) (← VReg.ofCode (fD w)) (.ofCode (fA w)))
  | 0x19 => vvv w .vlut
  | 0x1A => vvP w .vexp2 | 0x1B => vvP w .vlog2 | 0x1C => vvP w .vrcp | 0x1D => vvP w .vrsq | 0x1E => vvP w .vtanh
  | _ => .error .reservedSelector

/-- Major 0x2C. -/
def decVlop3 : Dec Instr := do
  let d ← plainV (fD w)
  let a ← VReg.ofCode (fA w)
  let b ← VReg.ofCode (fB w)
  .ok (.vlop3 (.ofCode (fP w)) d a b (BitVec.ofNat 8 (fF8 w)))

/-- Major 0x2D (R79). -/
def decVfma : Dec Instr := do
  let p := Pred.ofCode (fP w)
  let d ← VReg.ofCode (fD w)
  let a ← VReg.ofCode (fA w)
  let b ← VReg.ofCode (fB w)
  let c ← VReg.ofCode (fC w)
  match field w 31 1, field w 30 1 with
  | 0, _ => .ok (.vfma p (.ofCode (field w 29 2)) d a b c)
  | _, 0 => .ok (.vfms p (.ofCode (field w 29 1)) d a b c)
  | _, _ => .ok (.vdot p (.ofCode (field w 29 1)) d a b c)

/-- VCVT's formats and part (R161). -/
def vcvtKind : Dec (VcvtKind × Nat) :=
  let wide := FFmt.ofCode (field w 25 2)
  match field w 27 2 with
  | 0 => do
    need (field w 22 1 == 0 && field w 21 1 == 0) .reservedBits
    .ok (.ff wide (.ofCode (field w 23 2)), field w 19 2)
  | 1 => .ok (.fi wide (.ofCode (field w 22 3)), field w 19 3)
  | 2 => .ok (.intF wide (.ofCode (field w 22 3)), field w 19 3)
  | _ => .error .reservedSelector

/-- Major 0x2E (R160 to R163). -/
def decVcvt : Dec Instr := do
  let p := Pred.ofCode (fP w)
  let d ← VReg.ofCode (fD w)
  let a ← VReg.ofCode (fA w)
  match field w 30 2 with
  | 0 => do
    let (k, part) ← vcvtKind w
    .ok (.vcvt p (field w 29 1 == 1) k (BitVec.ofNat 3 part) d a)
  | 1 => do
    need (field w 27 1 == 0) .reservedBits
    let dst ← NarrowDst.ofCode (field w 28 1 == 1) (fB w)
    .ok (.vnarrow p (field w 29 1 == 1) dst (BitVec.ofNat 3 (field w 24 3)) d a)
  | 2 => do
    let dst ← WidenDst.ofCode (field w 28 2)
    let src ← WidenSrc.ofCode (field w 24 1 == 1) (fB w)
    .ok (.vwiden p dst src (BitVec.ofNat 3 (field w 25 3)) d a)
  | _ => .error .reservedSelector

/-- Major 0x2F (R164). -/
def decQ : Dec Instr := do
  need (field w 27 3 == 0) .reservedBits
  let q ← QWid.ofCode (field w 25 2)
  let f := BitVec.ofNat 6 (field w 19 6)
  let p := Pred.ofCode (fP w)
  match field w 30 2 with
  | 0 => do .ok (.qmul p q f (← GReg.ofCode (fD w)) (.ofCode (fA w)))
  | 1 => do .ok (.qdiv p q f (← GReg.ofCode (fD w)) (.ofCode (fA w)))
  | 2 => .ok (.qsqrt p q f (.ofCode (fD w)) (.ofCode (fA w)))
  | _ => .error .reservedSelector

/-- Major 0x30 (R183). -/
def decStream : Dec Instr := do
  let p := Pred.ofCode (fP w)
  need (field w 24 5 == 0) .reservedBits
  need (fB w == 0) .reservedBits
  match field w 29 3 with
  | 0 => do .ok (.scfg p (← streamCode (fD w)) (← GReg.ofCode (fA w)))
  | 1 => do
    let st ← streamCode (fD w)
    if fA w = 0 then .ok (.sbind p st none) else .ok (.sbind p st (some (← portCode (fA w))))
  | 2 => do .ok (.spos p (← GReg.ofCode (fD w)) (← streamCode (fA w)))
  | 3 => do
    need (fA w == 0) .reservedBits
    .ok (.sstop p (← streamCode (fD w)))
  | 4 => do .ok (.srew p (← streamCode (fD w)) (← GReg.ofCode (fA w)))
  | 5 => do
    need (fA w == 0) .reservedBits
    .ok (.sflush p (← streamCode (fD w)))
  | 6 => do .ok (.sskip p (← streamCode (fD w)) (← GReg.ofCode (fA w)))
  | _ => .error .reservedSelector

/-- Major 0x31 (R206). -/
def decThread : Dec Instr := do
  let p := Pred.ofCode (fP w)
  let t := BitVec.ofNat 4 (field w 24 4)
  match field w 28 4 with
  | 0 => do
    need (field w 24 4 == 0) .reservedBits
    ggg w .spawn
  | 1 => do
    need (field w 9 19 == 0) .reservedBits
    .ok (.endStrand p)
  | 2 => do
    need (field w 9 19 == 0) .reservedBits
    .ok (.yield p)
  | 3 => do
    need (field w 24 4 == 0) .reservedBits
    gg w .sleep
  | 4 => do
    need (field w 24 4 == 0 && fD w == 0) .reservedBits
    let a ← GReg.ofCode (fA w)
    let b ← GReg.ofCode (fB w)
    .ok (.wake p a b)
  | 5 => ggg w (fun p d a b => .send p d a b t)
  | 6 => ggg w (fun p d a b => .senda p d a b t)
  | 7 => ggg w (fun p d a b => .fan p d a b t)
  | 8 => do
    need (field w 24 4 == 0) .reservedBits
    gg w .prio
  | _ => .error .reservedSelector

/-- The register operand of MOVK and MOVTK under the bits V and D (R266). -/
def kReg (v d r : Nat) : Dec KReg :=
  match v, d with
  | 0, 0 => .ok (.scalar (.ofCode r))
  | 0, _ => .ok (.double (.ofCode r))
  | _, 0 => do .ok (.vector (← VReg.ofCode r))
  | _, _ => .error .operandLimits

/-- Major 0x32 (08_ports_and_gangs.md). -/
def decGang : Dec Instr := do
  let p := Pred.ofCode (fP w)
  match field w 29 3 with
  | 0 => do
    let c ← GReg.ofCode (fC w)
    ggg w (fun p d a b => .gang p d a b c)
  | 1 => do
    need (fC w == 0) .reservedBits
    gg w .gwait
  | 2 => do
    need (fC w == 0) .reservedBits
    gg w .gstat
  | 3 => do
    need (fC w == 0 && fB w == 0 && fD w == 0) .reservedBits
    .ok (.gthaw p (← GReg.ofCode (fA w)))
  | 4 => do
    need (fA w == 0) .reservedBits
    .ok (.movk p (← kReg (field w 27 1) (field w 28 1) (fD w)) (BitVec.ofNat 8 (field w 19 8)))
  | 5 => do
    need (fD w == 0) .reservedBits
    .ok (.movtk p (BitVec.ofNat 8 (field w 19 8)) (← kReg (field w 27 1) (field w 28 1) (fA w)))
  | 6 => do
    need (fC w == 0 && fB w == 0) .reservedBits
    .ok (.ppeek p (← GReg.ofCode (fD w)) (← portCode (fA w)))
  | _ => .error .reservedSelector

/-- Major 0x33 (14_record_and_reverse.md). -/
def decTile : Dec Instr := do
  let p := Pred.ofCode (fP w)
  match field w 29 3 with
  | 0 =>
    match fC w with
    | 0 => ggg w .topTmm | 1 => ggg w .topTadd | 2 => ggg w .topTmul | 3 => ggg w .topTscale
    | 4 => ggg w .topTact | 5 => ggg w .topTsum | 6 => ggg w .topTsoft | 7 => ggg w .topTnorm
    | 8 => ggg w .topTlay | 9 => ggg w .topTcopy
    | _ => .error .reservedSelector
  | 1 => do
    need (fC w == 0 && fD w == 0) .reservedBits
    let a ← GReg.ofCode (fA w)
    let b ← GReg.ofCode (fB w)
    .ok (.recon p a b)
  | 2 => do
    need (field w 9 20 == 0) .reservedBits
    .ok (.recoff p)
  | 3 => do
    need (fC w == 0 && fB w == 0 && fD w == 0) .reservedBits
    .ok (.recmark p (← GReg.ofCode (fA w)))
  | 4 => do
    need (fC w == 0) .reservedBits
    gg w .reverse
  | _ => .error .reservedSelector

/-- Major 0x34 (R357). -/
def decEngine : Dec Instr := do
  let p := Pred.ofCode (fP w)
  need (fC w == 0) .reservedBits
  let ch : Fin 2 := ⟨field w 29 1 % 2, Nat.mod_lt _ (by decide)⟩
  match field w 30 2 with
  | 0 => do
    need (fB w == 0 && fA w == 0) .reservedBits
    .ok (.cpgo p ch (← GReg.ofCode (fD w)))
  | 1 => ggg w (fun p d a b => .cpblk p ch d a b)
  | 2 => do
    need (field w 29 1 == 0) .reservedBits
    gg w .ftgo
  | _ => do
    need (field w 29 1 == 0) .reservedBits
    ggg w .armw

/-- Major 0x35 (R132). -/
def decCsr : Dec Instr := do
  need (field w 31 1 == 0) .reservedBits
  let csr := BitVec.ofNat 12 (field w 19 12)
  match fP w with
  | 0 => do
    need (fA w == 0) .reservedBits
    .ok (.csrr (.ofCode (fD w)) csr)
  | 1 => do
    need (fD w == 0) .reservedBits
    .ok (.csrw csr (.ofCode (fA w)))
  | 2 => do
    need (fD w == 0) .reservedBits
    .ok (.csrs csr (.ofCode (fA w)))
  | _ => do
    need (fD w == 0) .reservedBits
    .ok (.csrc csr (.ofCode (fA w)))

/-- Major 0x36 (R134). -/
def decTrap : Dec Instr := do
  let p := Pred.ofCode (fP w)
  match field w 30 2 with
  | 0 => do
    need (field w 29 1 == 0 && fB w == 0 && fD w == 0) .reservedBits
    .ok (.trap p (.ofCode (fA w)) (BitVec.ofNat 5 (fC w)))
  | 1 => do
    need (field w 9 21 == 0) .reservedBits
    .ok (.rett p)
  | 2 => do
    need (field w 9 21 == 0) .reservedBits
    .ok (.ecall p)
  | _ => do
    need (field w 9 21 == 0) .reservedBits
    .ok (.ebreak p)

/-- The major opcode map (R72). -/
def decMajor : Dec Instr :=
  match field w 1 6 with
  | 0x00 => decInt w
  | 0x01 => imm w .addi | 0x02 => imm w .andi | 0x03 => imm w .ori | 0x04 => imm w .xori
  | 0x05 => decShift w
  | 0x06 => imm w .slti | 0x07 => imm w .sltiu
  | 0x08 => decU w .lui | 0x09 => decU w .auipc
  | 0x0A => do
    .ok (.lop3 (.ofCode (fP w)) (← GReg.ofCode (fD w)) (.ofCode (fA w)) (.ofCode (fB w)) (BitVec.ofNat 8 (fF8 w)))
  | 0x0B => decFunnel w
  | 0x0C => decMul w
  | 0x0D => decBit w
  | 0x0E => decMask w
  | 0x10 => decB w .beq | 0x11 => decB w .bne | 0x12 => decB w .blt
  | 0x13 => decB w .bge | 0x14 => decB w .bltu | 0x15 => decB w .bgeu
  | 0x16 => .ok (.j (BitVec.ofNat 25 (field w 7 25)))
  | 0x17 => decU w .jal
  | 0x18 => do .ok (.jalr (.ofCode (fP w)) (.ofCode (fD w)) (← GReg.ofCode (fA w)) (fI13 w))
  | 0x19 => decBeos w
  | 0x1A => decIter w
  | 0x1C => decLd w
  | 0x1D => decSt w
  | 0x1E => decLda w
  | 0x1F => decPres w
  | 0x20 => decVmem w
  | 0x21 => decStash w
  | 0x22 => decAmo w
  | 0x23 => decFamo w
  | 0x24 => decFence w
  | 0x25 => decWait w
  | 0x26 => decBar w
  | 0x27 => decTime w
  | 0x28 => decFp w
  | 0x29 => decFma w
  | 0x2A => decFcvt w
  | 0x2B => decVec w
  | 0x2C => decVlop3 w
  | 0x2D => decVfma w
  | 0x2E => decVcvt w
  | 0x2F => decQ w
  | 0x30 => decStream w
  | 0x31 => decThread w
  | 0x32 => decGang w
  | 0x33 => decTile w
  | 0x34 => decEngine w
  | 0x35 => decCsr w
  | 0x36 => decTrap w
  | 0x3F => .error .illegalMajor
  | _ => .error .reservedMajor

/-- Two vector fields of a 16-bit form (R83). -/
def cvv (k : LFmt → VReg → VReg → Instr) : Dec Instr := do
  let d ← VReg.ofCode (field w 5 4)
  let b ← VReg.ofCode (field w 9 4)
  .ok (k (.ofCode (field w 13 3)) d b)

/-- The sixteen 16-bit operations (R84). -/
def dec16 : Dec Instr :=
  match field w 1 4 with
  | 0 => cvv w .cVadd | 1 => cvv w .cVsub | 2 => cvv w .cVmul | 3 => cvv w .cVmin | 4 => cvv w .cVmax
  | 5 => cvv w .cVand | 6 => cvv w .cVor | 7 => cvv w .cVxor | 8 => cvv w .cVmov | 9 => cvv w .cVshl
  | 10 => cvv w .cVshr | 11 => cvv w .cVsra | 12 => cvv w .cVabs | 13 => cvv w .cVneg | 14 => cvv w .cVmac
  | _ => cvv w .cVbcast

end

/-- The operand limits, checked last. -/
def limits (i : Instr) : Dec Instr := if wellFormed i then .ok i else .error .operandLimits

/-- Length in bytes of the instruction whose first halfword is `h` (R63). -/
def instrLength (h : Nat) : Nat := if h % 2 = 1 then 4 else 2

/-- Decodes a whole instruction, given as a number: 32 bits if bit 0 is 1, else 16. -/
def decodeWord (w : Nat) : Dec Instr :=
  if w % 2 = 1 then do limits (← decMajor w) else do limits (← dec16 (w % 65536))

/-- Decodes the first instruction of a list of bytes; the rest of the list follows it (R63). -/
def decode (bs : List Byte) : Dec (Instr × List Byte) :=
  match bs with
  | b0 :: b1 :: rest =>
    let h := b0.toNat + 256 * b1.toNat
    if h % 2 = 0 then do .ok (← decodeWord h, rest)
    else match rest with
      | b2 :: b3 :: rest' => do .ok (← decodeWord (h + 65536 * (b2.toNat + 256 * b3.toNat)), rest')
      | _ => .error .short
  | _ => .error .short

/-- The low `n` bytes of a number, least significant first (R2). -/
def leBytes : Nat → Nat → List Byte
  | 0, _ => []
  | n + 1, w => BitVec.ofNat 8 w :: leBytes n (w / 256)

/-- The instruction the decoder reads from an instruction of `nbits` bits that are `w`, the bits above being zero. -/
def decodeTableWord (nbits w : Nat) : Option Instr :=
  match decode (leBytes 4 (w % 2 ^ nbits)) with
  | .ok (i, _) => some i
  | .error _ => none

/-! ### The encoder, from the same field tables -/

/-- An encoded instruction: its length in bits and its bits. -/
structure Encoded where
  nbits : Nat
  bits : Nat
deriving DecidableEq, Repr

/-- A word of the R, I and L formats by its fields: [8:7], [13:9], [18:14] and [31:19]. -/
def encR (major p d a hi : Nat) : Option Encoded :=
  some ⟨32, 1 + 2 * major + 2 ^ 7 * p + 2 ^ 9 * d + 2 ^ 14 * a + 2 ^ 19 * hi⟩

/-- [23:19] b and [31:24] func8 as [31:19]. -/
def hiBF (b f8 : Nat) : Nat := b + 32 * f8

/-- [23:19] b, [28:24] c and [31:29] func3 as [31:19]. -/
def hiBCF (b c f3 : Nat) : Nat := b + 32 * c + 1024 * f3

/-- [21:19] size, [23:22] mode and [31:24] as [31:19]. -/
def hiL (size mode off : Nat) : Nat := size + 8 * mode + 32 * off

def encU (major d i : Nat) : Option Encoded := some ⟨32, 1 + 2 * major + 2 ^ 9 * d + 2 ^ 14 * i⟩

def encB (major a b off : Nat) : Option Encoded :=
  encR major (off % 4) a b (off / 4)

def enc16 (op4 : Nat) (f : LFmt) (d b : VReg) : Option Encoded :=
  some ⟨16, 2 * op4 + 2 ^ 5 * d.code + 2 ^ 9 * b.code + 2 ^ 13 * f.code⟩

/-- R format with three register codes. -/
def enc3 (major f8 : Nat) (p : Pred) (d a b : Nat) : Option Encoded := encR major p.code d a (hiBF b f8)

def encV3 (op : Nat) (p : Pred) (f : LFmt) (d a b : VReg) : Option Encoded :=
  enc3 0x2B (8 * op + f.code) p d.code a.code b.code

def encVP (op : Nat) (p : Pred) (f : LFmt) (dotP : Bool) (d a : VReg) : Option Encoded :=
  enc3 0x2B (8 * op + f.code) p d.code a.code (16 * dotP.toNat)

def encF (op : Nat) (p : Pred) (f : FFmt) (d a b : Nat) : Option Encoded := enc3 0x28 (8 * op + f.code) p d a b

def encFma (op : Nat) (p : Pred) (f : FmaFmt) (d a b c : SReg) : Option Encoded :=
  encR 0x29 p.code d.code a.code (hiBCF b.code c.code (2 * op + f.code))

/-- Major 0x2A: [24:19], [26:25], [28:27], [29], [31:30]. -/
def encCvt (p : Pred) (sel sr kind wide low : Nat) (d a : SReg) : Option Encoded :=
  encR 0x2A p.code d.code a.code (low + 64 * wide + 256 * kind + 1024 * sr + 2048 * sel)

def KReg.code : KReg → Nat
  | .scalar r | .double r => r.code
  | .vector r => r.code

/-- The bits [28] D and [27] V. -/
def KReg.dv : KReg → Nat
  | .scalar _ => 0 | .double _ => 2 | .vector _ => 1

def encTop (op : Nat) (p : Pred) (d a b : GReg) : Option Encoded := encR 0x33 p.code d a (hiBCF b op 0)

def encCsr (op : Nat) (d a : Nat) (csr : BitVec 12) : Option Encoded := encR 0x35 op d a csr.toNat

/-- The word of a well-formed instruction; the part's own steps have none. -/
def encode : Instr → Option Encoded
  | .add p d a b => enc3 0 0x00 p d.code a.code b.code
  | .sub p d a b => enc3 0 0x01 p d.code a.code b.code
  | .and p d a b => enc3 0 0x02 p d.code a.code b.code
  | .or p d a b => enc3 0 0x03 p d.code a.code b.code
  | .xor p d a b => enc3 0 0x04 p d.code a.code b.code
  | .andn p d a b => enc3 0 0x05 p d.code a.code b.code
  | .orn p d a b => enc3 0 0x06 p d.code a.code b.code
  | .sll p d a b => enc3 0 0x08 p d.code a.code b.code
  | .srl p d a b => enc3 0 0x09 p d.code a.code b.code
  | .sra p d a b => enc3 0 0x0A p d.code a.code b.code
  | .rol p d a b => enc3 0 0x0B p d.code a.code b.code
  | .ror p d a b => enc3 0 0x0C p d.code a.code b.code
  | .min p d a b => enc3 0 0x10 p d.code a.code b.code
  | .max p d a b => enc3 0 0x11 p d.code a.code b.code
  | .minu p d a b => enc3 0 0x12 p d.code a.code b.code
  | .maxu p d a b => enc3 0 0x13 p d.code a.code b.code
  | .slt p d a b => enc3 0 0x14 p d.code a.code b.code
  | .sltu p d a b => enc3 0 0x15 p d.code a.code b.code
  | .seq p d a b => enc3 0 0x16 p d.code a.code b.code
  | .sne p d a b => enc3 0 0x17 p d.code a.code b.code
  | .sel p d a b => enc3 0 0x18 p d a.code b.code
  | .addi p d a i => encR 0x01 p.code d.code a.code i.toNat
  | .andi p d a i => encR 0x02 p.code d.code a.code i.toNat
  | .ori p d a i => encR 0x03 p.code d.code a.code i.toNat
  | .xori p d a i => encR 0x04 p.code d.code a.code i.toNat
  | .slli p d a s => encR 0x05 p.code d.code a.code s.toNat
  | .srli p d a s => encR 0x05 p.code d.code a.code (s.toNat + 64)
  | .srai p d a s => encR 0x05 p.code d.code a.code (s.toNat + 128)
  | .roli p d a s => encR 0x05 p.code d.code a.code (s.toNat + 192)
  | .slti p d a i => encR 0x06 p.code d.code a.code i.toNat
  | .sltiu p d a i => encR 0x07 p.code d.code a.code i.toNat
  | .lui d i => encU 0x08 d.code i.toNat
  | .auipc d i => encU 0x09 d.code i.toNat
  | .lop3 p d a b t => enc3 0x0A t.toNat p d a.code b.code
  | .fshl p d a b s => enc3 0x0B s.toNat p d.code a.code b.code
  | .fshr p d a b s => enc3 0x0B (s.toNat + 64) p d.code a.code b.code
  | .mul p d a b => enc3 0x0C 0x00 p d.code a.code b.code
  | .mulh p d a b => enc3 0x0C 0x01 p d.code a.code b.code
  | .mulhu p d a b => enc3 0x0C 0x02 p d.code a.code b.code
  | .div p d a b => enc3 0x0C 0x04 p d.code a.code b.code
  | .divu p d a b => enc3 0x0C 0x05 p d.code a.code b.code
  | .rem p d a b => enc3 0x0C 0x06 p d.code a.code b.code
  | .remu p d a b => enc3 0x0C 0x07 p d.code a.code b.code
  | .clz p d a => enc3 0x0D 0x00 p d.code a.code 0
  | .ctz p d a => enc3 0x0D 0x01 p d.code a.code 0
  | .popc p d a => enc3 0x0D 0x02 p d.code a.code 0
  | .brev p d a => enc3 0x0D 0x03 p d.code a.code 0
  | .bswap p d a => enc3 0x0D 0x04 p d.code a.code 0
  | .sextB p d a => enc3 0x0D 0x08 p d.code a.code 0
  | .sextH p d a => enc3 0x0D 0x09 p d.code a.code 0
  | .sextW p d a => enc3 0x0D 0x0A p d.code a.code 0
  | .zextB p d a => enc3 0x0D 0x0C p d.code a.code 0
  | .zextH p d a => enc3 0x0D 0x0D p d.code a.code 0
  | .zextW p d a => enc3 0x0D 0x0E p d.code a.code 0
  | .setm p d a => enc3 0x0E 0x00 p d a.code 0
  | .getm p d a => enc3 0x0E 0x01 p d.code a 0
  | .mand p d a b => enc3 0x0E 0x02 p d a b
  | .mor p d a b => enc3 0x0E 0x03 p d a b
  | .mnot p d a => enc3 0x0E 0x04 p d a 0
  | .beq a b o => encB 0x10 a.code b.code o.toNat
  | .bne a b o => encB 0x11 a.code b.code o.toNat
  | .blt a b o => encB 0x12 a.code b.code o.toNat
  | .bge a b o => encB 0x13 a.code b.code o.toNat
  | .bltu a b o => encB 0x14 a.code b.code o.toNat
  | .bgeu a b o => encB 0x15 a.code b.code o.toNat
  | .j o => some ⟨32, 1 + 2 * 0x16 + 2 ^ 7 * o.toNat⟩
  | .jal d o => encU 0x17 d.code o.toNat
  | .jalr p d a i => encR 0x18 p.code d.code a i.toNat
  | .beos st o => encB 0x19 (24 + st.val) 0 o.toNat
  | .iter p d a o => encR 0x1A p.code d a o.toNat
  | .iteri p d a m => encR 0x1A p.code d a (m.toNat + 4096)
  | .ld p d a sz m o => encR 0x1C p.code d.code a (hiL sz.code m.code o.toNat)
  | .ldIndexed p d a sz b => encR 0x1C p.code d.code a (hiL sz.code 2 b)
  | .st p d a sz m o => encR 0x1D p.code d.code a (hiL sz.code m.code o.toNat)
  | .stIndexed p d a sz b => encR 0x1D p.code d.code a (hiL sz.code 2 b)
  | .lda p d a sz sc o => encR 0x1E p.code d.code a (hiL sz.code 0 (sc.code + 8 * o.toNat))
  | .stl p d a sz sc o => encR 0x1E p.code d.code a (hiL sz.code 1 (sc.code + 8 * o.toNat))
  | .pref p h a o => encR 0x1E p.code h a (hiL 3 2 (8 * o.toNat))
  | .ldp p d a m o => encR 0x1F p.code d.code a (hiL 0 m.code o.toNat)
  | .ldpIndexed p d a b => encR 0x1F p.code d.code a (hiL 0 2 b)
  | .stp p d a m o => encR 0x1F p.code d.code a (hiL 1 m.code o.toNat)
  | .stpIndexed p d a b => encR 0x1F p.code d.code a (hiL 1 2 b)
  | .clrp p d a m o => encR 0x1F p.code d.code a (hiL 2 m.code o.toNat)
  | .clrpIndexed p d a b => encR 0x1F p.code d.code a (hiL 2 2 b)
  | .vldp p d a m o => encR 0x1F p.code d.code a (hiL 3 m.code o.toNat)
  | .vldpIndexed p d a b => encR 0x1F p.code d.code a (hiL 3 2 b)
  | .vstp p d a m o => encR 0x1F p.code d.code a (hiL 4 m.code o.toNat)
  | .vstpIndexed p d a b => encR 0x1F p.code d.code a (hiL 4 2 b)
  | .vld p d a m o => encR 0x20 p.code d.code a (hiL 0 m.code o.toNat)
  | .vldIndexed p d a b => encR 0x20 p.code d.code a (hiL 0 2 b)
  | .vst p d a m o => encR 0x20 p.code d.code a (hiL 1 m.code o.toNat)
  | .vstIndexed p d a b => encR 0x20 p.code d.code a (hiL 1 2 b)
  | .vgath p d a ew i => encR 0x20 p.code d.code a (hiL 2 ew.code i.code)
  | .vscat p d a ew i => encR 0x20 p.code d.code a (hiL 3 ew.code i.code)
  | .vstt p d a m b ew => encR 0x21 p.code d.code a (hiL 0 m.code (b + 32 * ew.code))
  | .stn p d a m o na => encR 0x21 p.code d.code a (hiL 1 m.code (o.toNat + 16 * na))
  | .amo o op z sc d a b => encR 0x22 o.code d.code a (hiBF b.code (sc.code + 8 * z.code + 16 * op.code))
  | .cas o z sc d a b => encR 0x22 o.code d a (hiBF b.code (sc.code + 8 * z.code + 128))
  | .casXchg o z sc d a b => encR 0x22 o.code d a (hiBF b.code (sc.code + 8 * z.code + 16 + 128))
  | .famo o op f sc d a b => encR 0x23 o.code d.code a (hiBF b.code (sc.code + 8 * f.code + 16 * op.code))
  | .red r op z sc a b => encR 0x23 (2 * r.toNat) 0 a (hiBF b.code (sc.code + 8 * z.code + 16 * op.code + 64))
  | .fred r op f sc a b => encR 0x23 (2 * r.toNat) 0 a (hiBF b.code (sc.code + 8 * f.code + 16 * op.code + 128))
  | .fence o sc red uo => encR 0x24 o.code 0 0 (hiBF 0 (sc.code + 8 * red.toNat + 16 * uo.toNat))
  | .ifence => encR 0x24 0 0 0 (hiBF 0 128)
  | .waitge p d a b => encR 0x25 p.code d a (hiBF b 0)
  | .waitgen p d a b => encR 0x25 p.code d a (hiBF b 64)
  | .signal p a b => encR 0x25 p.code 0 a (hiBF b 128)
  | .bar p l => encR 0x26 p.code 0 0 (2048 * l.code)
  | .arrive p l d => encR 0x26 p.code d 0 (2048 * l.code + 4096)
  | .tnow p d => encR 0x27 p.code d 0 0
  | .tuntil p d a => encR 0x27 p.code d a 4096
  | .fadd p f d a b => encF 0 p f d.code a.code b.code
  | .fsub p f d a b => encF 1 p f d.code a.code b.code
  | .fmul p f d a b => encF 2 p f d.code a.code b.code
  | .fdiv p f d a b => encF 3 p f d.code a.code b.code
  | .fsqrt p f d a => encF 4 p f d.code a.code 0
  | .fmin p f d a b => encF 5 p f d.code a.code b.code
  | .fmax p f d a b => encF 6 p f d.code a.code b.code
  | .fsgn p f d a b => encF 7 p f d.code a.code b.code
  | .fcmp p f d a b => encF 8 p f d.code a.code b.code
  | .fclass p f d a => encF 9 p f d.code a.code 0
  | .fma p f d a b c => encFma 0 p f d a b c
  | .fms p f d a b c => encFma 1 p f d a b c
  | .fnma p f d a b c => encFma 2 p f d a b c
  | .fcvt p sr dst src d a => encCvt p 0 sr.toNat 0 dst.code src.code d a
  | .fcvtWideToB8 p sr src dst d a => encCvt p 0 sr.toNat 1 src.code dst.code d a
  | .fcvtB8ToWide p dst src d a => encCvt p 0 0 2 dst.code src.code d a
  | .fcvti p src dst r d a => encCvt p 1 0 0 src.code (r.code + 8 * dst.code) d a
  | .icvtf p dst src r d a => encCvt p 2 0 0 dst.code (r.code + 8 * src.code) d a
  | .frnd p f r d a => encCvt p 3 0 0 f.code r.code d a
  | .vadd p f d a b => encV3 0x00 p f d a b
  | .vsub p f d a b => encV3 0x01 p f d a b
  | .vmul p f d a b => encV3 0x02 p f d a b
  | .vmulh p f d a b => encV3 0x03 p f d a b
  | .vmin p f d a b => encV3 0x04 p f d a b
  | .vmax p f d a b => encV3 0x05 p f d a b
  | .vabs p f x d a => encVP 0x06 p f x d a
  | .vneg p f x d a => encVP 0x07 p f x d a
  | .vand p f d a b => encV3 0x08 p f d a b
  | .vor p f d a b => encV3 0x09 p f d a b
  | .vxor p f d a b => encV3 0x0A p f d a b
  | .vshl p f d a b => encV3 0x0B p f d a b
  | .vshr p f d a b => encV3 0x0C p f d a b
  | .vsra p f d a b => encV3 0x0D p f d a b
  | .vcmp p cc f d a b => enc3 0x2B (8 * 0x0E + f.code) p (d.val + 4 * cc.code) a.code b.code
  | .vsel p f d a b => encV3 0x0F p f d a b
  | .vclamp p f d a b => enc3 0x2B (8 * 0x10 + f.code) p d a.code b.code
  | .vmov p f x d a => encVP 0x11 p f x d a
  | .vbcast p f d a j => enc3 0x2B (8 * 0x12 + f.code) p d.code a.code j.toNat
  | .vshuf p f d a b => encV3 0x13 p f d a b
  | .vrot p f d a k => enc3 0x2B (8 * 0x14 + f.code) p d.code a.code k.toNat
  | .vred p op f x d a => enc3 0x2B (8 * 0x15 + f.code) p d.code a.code (op.code + 16 * x.toNat)
  | .vins p f d a j => enc3 0x2B (8 * 0x16 + f.code) p d a.code j.toNat
  | .vext p f d a j => enc3 0x2B (8 * 0x17 + f.code) p d.code a.code j.toNat
  | .viota p f x d a => enc3 0x2B (8 * 0x18 + f.code) p d.code a.code (16 * x.toNat)
  | .vlut p f d a b => encV3 0x19 p f d a b
  | .vexp2 p f x d a => encVP 0x1A p f x d a
  | .vlog2 p f x d a => encVP 0x1B p f x d a
  | .vrcp p f x d a => encVP 0x1C p f x d a
  | .vrsq p f x d a => encVP 0x1D p f x d a
  | .vtanh p f x d a => encVP 0x1E p f x d a
  | .vlop3 p d a b t => enc3 0x2C t.toNat p d a.code b.code
  | .vfma p f d a b c => encR 0x2D p.code d.code a.code (hiBCF b.code c.code f.code)
  | .vfms p f d a b c => encR 0x2D p.code d.code a.code (hiBCF b.code c.code (4 + f.code))
  | .vdot p f d a b c => encR 0x2D p.code d.code a.code (hiBCF b.code c.code (6 + f.code))
  | .vcvt p sr k part d a =>
    let low := match k with
      | .ff dst src => part.toNat + 16 * src.code + 64 * dst.code
      | .fi src dst => part.toNat + 8 * dst.code + 64 * src.code + 256
      | .intF dst src => part.toNat + 8 * src.code + 64 * dst.code + 512
    encR 0x2E p.code d.code a.code (low + 1024 * sr.toNat)
  | .vnarrow p sr dst part d a =>
    encR 0x2E p.code d.code a.code
      (dst.code + 32 * part.toNat + 512 * dst.isB8.toNat + 1024 * sr.toNat + 2048)
  | .vwiden p dst src part d a =>
    encR 0x2E p.code d.code a.code
      (src.code + 32 * src.isB8.toNat + 64 * part.toNat + 512 * dst.code + 4096)
  | .qmul p w f d a => encR 0x2F p.code d a.code (f.toNat + 64 * w.code)
  | .qdiv p w f d a => encR 0x2F p.code d a.code (f.toNat + 64 * w.code + 2048)
  | .qsqrt p w f d a => encR 0x2F p.code d.code a.code (f.toNat + 64 * w.code + 4096)
  | .cVadd f d b => enc16 0 f d b | .cVsub f d b => enc16 1 f d b | .cVmul f d b => enc16 2 f d b
  | .cVmin f d b => enc16 3 f d b | .cVmax f d b => enc16 4 f d b | .cVand f d b => enc16 5 f d b
  | .cVor f d b => enc16 6 f d b | .cVxor f d b => enc16 7 f d b | .cVmov f d b => enc16 8 f d b
  | .cVshl f d b => enc16 9 f d b | .cVshr f d b => enc16 10 f d b | .cVsra f d b => enc16 11 f d b
  | .cVabs f d b => enc16 12 f d b | .cVneg f d b => enc16 13 f d b | .cVmac f d b => enc16 14 f d b
  | .cVbcast f d b => enc16 15 f d b
  | .scfg p st a => encR 0x30 p.code (24 + st.val) a 0
  | .sbind p st port => encR 0x30 p.code (24 + st.val) (match port with | none => 0 | some q => 28 + q.code) 1024
  | .spos p d st => encR 0x30 p.code d (24 + st.val) 2048
  | .sstop p st => encR 0x30 p.code (24 + st.val) 0 3072
  | .srew p st a => encR 0x30 p.code (24 + st.val) a 4096
  | .sflush p st => encR 0x30 p.code (24 + st.val) 0 5120
  | .sskip p st a => encR 0x30 p.code (24 + st.val) a 6144
  | .spawn p d a b => enc3 0x31 0x00 p d a b
  | .endStrand p => enc3 0x31 0x10 p 0 0 0
  | .yield p => enc3 0x31 0x20 p 0 0 0
  | .sleep p d a => enc3 0x31 0x30 p d a 0
  | .wake p a b => enc3 0x31 0x40 p 0 a b
  | .send p d a b t => enc3 0x31 (0x50 + t.toNat) p d a b
  | .senda p d a b t => enc3 0x31 (0x60 + t.toNat) p d a b
  | .fan p d a b m => enc3 0x31 (0x70 + m.toNat) p d a b
  | .prio p d a => enc3 0x31 0x80 p d a 0
  | .gang p d a b c => encR 0x32 p.code d a (hiBCF b c 0)
  | .gwait p d a => encR 0x32 p.code d a (hiBCF 0 0 1)
  | .gstat p d a => encR 0x32 p.code d a (hiBCF 0 0 2)
  | .gthaw p a => encR 0x32 p.code 0 a (hiBCF 0 0 3)
  | .movk p d k => encR 0x32 p.code d.code 0 (k.toNat + 256 * d.dv + 4096)
  | .movtk p k a => encR 0x32 p.code 0 a.code (k.toNat + 256 * a.dv + 5120)
  | .ppeek p d port => encR 0x32 p.code d (28 + port.code) (hiBCF 0 0 6)
  | .topTmm p d a b => encTop 0 p d a b
  | .topTadd p d a b => encTop 1 p d a b
  | .topTmul p d a b => encTop 2 p d a b
  | .topTscale p d a b => encTop 3 p d a b
  | .topTact p d a b => encTop 4 p d a b
  | .topTsum p d a b => encTop 5 p d a b
  | .topTsoft p d a b => encTop 6 p d a b
  | .topTnorm p d a b => encTop 7 p d a b
  | .topTlay p d a b => encTop 8 p d a b
  | .topTcopy p d a b => encTop 9 p d a b
  | .recon p a b => encR 0x33 p.code 0 a (hiBCF b 0 1)
  | .recoff p => encR 0x33 p.code 0 0 (hiBCF 0 0 2)
  | .recmark p a => encR 0x33 p.code 0 a (hiBCF 0 0 3)
  | .reverse p d a => encR 0x33 p.code d a (hiBCF 0 0 4)
  | .cpgo p ch d => encR 0x34 p.code d 0 (1024 * ch.val)
  | .cpblk p ch d a b => encR 0x34 p.code d a (hiBF b (32 * ch.val + 64))
  | .ftgo p d a => encR 0x34 p.code d a (hiBF 0 128)
  | .armw p d a b => encR 0x34 p.code d a (hiBF b 192)
  | .csrr d csr => encCsr 0 d.code 0 csr
  | .csrw csr a => encCsr 1 0 a.code csr
  | .csrs csr a => encCsr 2 0 a.code csr
  | .csrc csr a => encCsr 3 0 a.code csr
  | .trap p a n => encR 0x36 p.code 0 a.code (hiBF 0 n.toNat)
  | .rett p => encR 0x36 p.code 0 0 (hiBF 0 64)
  | .ecall p => encR 0x36 p.code 0 0 (hiBF 0 128)
  | .ebreak p => encR 0x36 p.code 0 0 (hiBF 0 192)
  | .illegalInstruction _ | .loadResponse _ _ _ | .storePerform _ _ | .reductionAck _ _ | .releaseComplete _ _
  | .faultAcknowledgement _ _ | .slicePortRequest _ _ _ _ | .stackAccess _ _ _ _ | .networkRetry _
  | .spawnRequest _ | .message _ | .fanStartMessage _ | .wakeDelivery _ | .completionMessage _
  | .gangWakeMessage _ | .scopeMissMessage _ | .scopeMissAutoWiden _ | .tagWiden _ | .slotActivation _
  | .outboundSend _ _ | .sleepDeadline _ _ | .fanTimedStart _ | .bondCompletion _ | .schedulerPlace _ _ _ _
  | .priorityAging _ _ | .streamReadFetch _ _ | .streamWritePerform _ _ | .boundStreamPush _ _
  | .boundStreamPop _ _ | .gangClaim _ _ _ | .gangTimedStart _ _ | .wsLatchEntry _ | .gangPulse _
  | .gangComplete _ _ | .gangThawRequest _ _ _ | .gangPreemptThaw _ _ | .gangFaultThaw _ _
  | .seamBufferForward _ _ | .seamContextTimeout _ _ _ | .pageWalk _ _ | .leaseGrant _ _ _ _ _ _ _ | .leaseRecall _ _
  | .peerAccess _ _ _ _ | .smrelWrite _ | .copyAccept _ _ _ _ | .copyRefusalRetry _ _ _ | .copyTimedStart _ _ _
  | .copyLanding _ _ _ _ | .copyComplete _ _ _ | .copyFault _ _ _ _ | .footingAtomic _ _ | .optimiserPiece _ _ _
  | .optimiserComplete _ _ | .seqCommand _ _ _ _ _ _ | .seqCommandComplete _ _ | .faultMessageArrival _
  | .serviceStrandStart _ | .faultSlotTimeout _ | .fractResume | .fractSkip | .fractKill | .eccCorrected _
  | .uncorrectableError _ | .linkReplay _ | .controlStateError _ | .timeSliceExpiry _ | .partitionHalt _
  | .partitionRestore _ _ | .partitionAssign _ _ _ _ _ | .partitionTeardown _ | .shadowCombine _ _
  | .shadowMerge _ _ | .shadowCapacityMerge _ | .ptpMessage _ _ _ | .tuntilDeadline _ _ | .qdbWrite _
  | .qcfgWrite _ _ | .hostRegisterWrite _ _ | .jobConfigWrite _ _ _ _ _ | .queuePollTimeout _ | .launch _
  | .active _ | .copy _ | .signalPacket _ | .wait _ | .fencePacket _ | .packetComplete _ _
  | .hostMemoryAccess _ _ | .ustisFrame _ _ | .ustisRetransmitTimeout _ | .nvmeCompletion _ _ | .hirqWrite _
  | .nactlWrite _ _ | .nalRead _ _ | .tlbinvAll | .tlbinvVa _ | .containWrite _ | .deviceReset | .powerOn
  | .firmwareImage _ _ | .attestationRequest _ | .securityAlarm _ | .thermalThrottle | .thermalShutdown
  | .powerLimitSet _ | .synchronisationLost | .primaryPortDown _ => none

end Sys2Proof
end

