-- ==== Sys2Proof/Machine/State.lean ====
section
/-!
DEFINITION. The state of the whole package as plain data. Every piece of state a rule of spec/ names has a field here;
INVENTORY.md lists each with its rule and its reset value. Sparse families (cores, clusters, queues, jobs, ...) are
maps from a number to a record, and an unlisted member reads as the record's reset value.
-/
namespace Sys2Proof.Machine

/-- A sparse family: pairs of a number and a record, numbers strictly rising. -/
abbrev Map (α : Type) := List (Nat × α)

/-! ## Memory -/

/-- The ordering kinds of R290. -/
inductive OrdKind where | rc | so | uo
deriving DecidableEq, Repr

/-- A release tag at the home of an aligned 8-byte word (R314): the word's location, the scope, the releasing
core and slot, the releasing strand with its bond, and the release's identity, which is its place in issue order. -/
structure Tag where
  word : Nat
  scope : Scope
  core : CoreId
  slot : Slot
  uid : Nat
  bond : Option Nat
  id : Nat
deriving DecidableEq, Repr

/-- An observer of a word, for the scopes of R301: a core, an engine of the package, or the host or a peer. -/
inductive Reader where | core (c : CoreId) | engine | outside
deriving DecidableEq, Repr

/-- A pending scope miss of a tag (R315): its TOKEN, the tagged word and the tag's identity, the needed scope,
the parked readers in the order they parked, whether the widening has been asked for, and whether the core performs it
itself. -/
structure Miss where
  token : W64
  word : Nat
  tagId : Nat
  need : Scope
  readers : List Reader
  asked : Bool
  auto : Bool
deriving DecidableEq, Repr

/-! ## Fault messages -/

/-- SOURCE of R296. -/
inductive FaultSource where | strand | fetch | readStream | writeStream | gang | engine | rejection
deriving DecidableEq, Repr

/-- A fault message (R296). `uid` is the owner or issuing strand, for the walk of R415. -/
structure FaultMsg where
  kind : Byte
  reason : BitVec 4
  source : FaultSource
  wr : Bool
  level : BitVec 2
  slot : Slot
  strm : StreamId
  va : W64
  core : CoreId
  pc : W64
  pos : W64
  entry : W64
  token : W64
  uid : Nat
  /-- The message's data is poisoned (R420). -/
  poison : Bool
deriving DecidableEq, Repr

/-! ## Strands -/

/-- How a strand came into its slot (R199, R413, R467). -/
inductive StrandKind where | stub | fan | spawned | message | service
deriving DecidableEq, Repr

/-- Why a strand does not issue (R23, R425). -/
inductive Wait where
  /-- It may issue. -/
  | none
  /-- The instruction at the PC was tried and is not ready (R100); the next selection tries it again. -/
  | notReady
  /-- A load, atomic, LDP or VLDP has issued and its answer has not come (R102, R125). -/
  | answer
  /-- A fence or the release of an instruction is not performed (R130). -/
  | release (sc : Scope) (uo red : Bool)
  /-- BAR has issued: it waits for the phase that ends `phase` (R219). -/
  | barrier (l : BarLevel) (phase : W32)
  /-- SLEEP writes d when a wake or the deadline comes (R211). -/
  | sleep (d : Fin 24) (deadline : W64)
  /-- TUNTIL is not issued before the deadline (R449). -/
  | tuntil (deadline : W64)
  /-- A fault message was posted; the strand waits for the reply that names `token` (R26, R297). SKIP passes over `len`
  bytes; `load` names an in-flight request whose answer was poisoned. -/
  | reply (token : W64) (len : Nat) (load : Option Nat)
  /-- A TLB miss of a fetch, or of an access that may write, waits for a walker (R293). -/
  | walk (va : W64) (fetch wr : Bool)
  /-- The home withholds a word that an operation at its port reads (R315). -/
  | withheld (word : Nat)
  /-- A write of SMREL waits for the widening of its token (R317). -/
  | widen (token : W64)
deriving DecidableEq, Repr

/-- A stream view or a port view by its physical link (R7, R18). -/
inductive View where
  | stream (n : StreamId) (vec : Bool)
  | port (l : Port) (vec : Bool)
deriving DecidableEq, Repr

/-- The lease that an access to a peer page carries (R298): the page's first location, and the epoch. -/
abbrev LeaseMark := Option (Nat × W32)

/-- One part of a request: `n` bytes at physical location `loc`, within one aligned 8-byte word; byte 0 of the part
is byte `pos` of the assembled 32-byte value. `got` is the word's answer and whether it was poisoned. -/
structure Part where
  va : W64
  loc : Nat
  n : Nat
  pos : Nat
  key : Nat
  ord : OrdKind
  lease : LeaseMark
  got : Option (W64 × Bool)
deriving DecidableEq, Repr

/-- What a request does at its target. -/
inductive ReqKind where
  /-- A load (R115, R120, R147, R148). -/
  | load
  /-- An LDP or VLDP: waits for the presence bits of its parts (R283). -/
  | presence
  /-- AMO, CAS or FAMO (R123, R124): the operation, with its operands. -/
  | amo (op : AmoOp) (v : W64)
  | cas (expect v : W64)
  | xchg (v : W64)
  | famo (op : RedOp) (f : AFmt) (v : W64)
  /-- CLRP: each part clears the presence bit of its word (R284). -/
  | clear
  /-- WAITGEN: reads GEN of an arrival word once it has passed b (R361). -/
  | gen (b : W32)
deriving DecidableEq, Repr

/-- How an answer is written (R69, R122, R147): a scalar field with its extension from `w` bits, or the lanes of a
vector field of width `w` that the mask enables. -/
inductive Dest where
  | scalar (d : SReg) (w : Nat) (signed : Bool)
  | vector (d : VReg) (w : Nat) (mask : W32)
  /-- No destination. -/
  | nothing
  /-- A word block that the instruction at the PC uses once it is there (R184, R264, R344). -/
  | block
deriving DecidableEq, Repr

/-- A request of a strand that has issued and whose answer has not come (R102). `blocking` says that the strand
waits for it; `park` is its place in the order of parked requests at its target, 0 when it is not parked (R283, R315). -/
structure Pending where
  seq : Nat
  pc : W64
  len : Nat
  kind : ReqKind
  parts : List Part
  dest : Dest
  base : Option (Fin 24 × W64)
  blocking : Bool
  release : Option Scope
  /-- The scope at which the answer is an acquire (R310). -/
  acquire : Option Scope
  /-- The views that are popped when the request completes (R11, R99). -/
  pops : List View
  /-- The presence test of a VLDP has been passed (R283, R284). -/
  passed : Bool
  /-- The target has rejected the access (R299, R327). -/
  rejected : Bool
  /-- The access straddles two pages, slices or striped pieces: its parts are performed in address order (R306). -/
  ordered : Bool
  park : Nat
  /-- A reply RESUME lets the access run again from its start: its parts are checked and translated anew before any is
  performed (R297). -/
  again : Bool
deriving DecidableEq, Repr

/-- A strand slot (R5, R15, R199). A FREE slot has `occ = false` and keeps no state. -/
structure Strand where
  occ : Bool
  uid : Nat
  kind : StrandKind
  pc : W64
  /-- Privilege (R13): true is supervisor. -/
  super : Bool
  g : Vector W64 24
  v : Vector W256 8
  m : Vector W32 4
  /-- Poison of each g register and of each 8-byte word of each v register, bit 4r + word (R420). -/
  gPoison : BitVec 24
  vPoison : BitVec 32
  fcsr : W64
  orient : W64
  tvec : W64
  tepc : W64
  tstat : W64
  tcause : W64
  tval : W64
  sprio : W64
  contain : W64
  contup : W64
  dhint : W64
  cpw : Vector W64 8
  cptick : W64
  frtok : W64
  logbase : W64
  loglim : W64
  logtop : W64
  stktop : W64
  recording : Bool
  llen : BitVec 4
  rbusy : Bool
  ctpitch : W64
  /-- The upper halves that the last reads of NAL0 to NAL15 kept (R385). -/
  nalHi : Vector W64 16
  wakePend : Bool
  yieldPend : Bool
  /-- Barrier member (R218). -/
  member : Bool
  wait : Wait
  inflight : List Pending
  /-- Arrivals of ARRIVE or BAR whose release is not performed yet: level and place in issue order (R219). -/
  arriving : List (BarLevel × Nat)
  /-- Instruction bytes that fetches of this strand may still see until IFENCE (R131). -/
  ifetch : List Host.Cell
  /-- The bond it belongs to; none for a service strand (R197). -/
  bond : Option Nat
  job : Nat
  part : Nat
  /-- FAN's linear index of the strand, for a restart (R416). -/
  index : W64
  /-- The fault message a service strand holds, until it has replied (R413). -/
  serving : Option FaultMsg
deriving DecidableEq, Repr

/-- A FREE slot (R199, R24: every register not listed is zero). -/
def Strand.free : Strand where
  occ := false
  uid := 0
  kind := .fan
  pc := 0
  super := false
  g := Vector.replicate 24 0
  v := Vector.replicate 8 0
  m := Vector.replicate 4 0
  gPoison := 0
  vPoison := 0
  fcsr := 0
  orient := 0
  tvec := 0
  tepc := 0
  tstat := 0
  tcause := 0
  tval := 0
  sprio := 0
  contain := 0
  contup := 0
  dhint := 0
  cpw := Vector.replicate 8 0
  cptick := 0
  frtok := 0
  logbase := 0
  loglim := 0
  logtop := 0
  stktop := 0
  recording := false
  llen := 0
  rbusy := false
  ctpitch := 0
  nalHi := Vector.replicate 16 0
  wakePend := false
  yieldPend := false
  member := false
  wait := .none
  inflight := []
  arriving := []
  ifetch := []
  bond := none
  job := 0
  part := 0
  index := 0
  serving := none

/-! ## Streams and ports -/

/-- State of a stream engine (R166, R182). -/
inductive StreamMode where | idle | active | stopped
deriving DecidableEq, Repr

/-- A fault recorded on an element (R176). -/
inductive ElemFault where
  | translation (reason : BitVec 4) (level : BitVec 2) (entry : W64)
  | violation
  | poison
deriving DecidableEq, Repr

/-- An element in a stream's buffer (R175): its place in the traversal, its bytes or its fault, and whether a port entry
or a push begins with it (R187). -/
structure Elem where
  idx : Nat
  first : Bool
  data : W256
  fault : Option ElemFault
deriving DecidableEq, Repr

/-- A stream engine (R166). `pos` is the place in the traversal of the next element to pop or push; the position's
four indices follow from it (R168). `skips` holds the skip-list entries the engine has read, in order (R179). -/
structure Stream where
  mode : StreamMode
  desc : W512
  pos : Nat
  /-- The place in the traversal of the next element to fetch, or to push to a port when bound (R175, R186). -/
  ahead : Nat
  endF : Bool
  exh : Bool
  bound : Option Port
  buf : List Elem
  owner : Slot
  ownerUid : Nat
  skips : List W32
  /-- The place of the element whose fault halted a bound read engine, and the places that SKIP has read as zero bytes
  (R187). -/
  stuck : Option Nat
  zeros : List Nat
  /-- The TOKEN a halted engine waits on (R177, R187). -/
  token : Option W64
deriving DecidableEq, Repr

def Stream.idle : Stream where
  mode := .idle
  desc := 0
  pos := 0
  ahead := 0
  endF := false
  exh := false
  bound := none
  buf := []
  owner := 0
  ownerUid := 0
  skips := []
  stuck := none
  zeros := []
  token := none

/-- An entry of a port queue (R227): 32 bytes, the sideband tag (TV and FMT), poison, the bound stream that
supplied it with the place in its traversal that follows the entry, so that it can be withdrawn (R186), and the strand
that pushed it with the push's place in issue order (R230, R441). -/
structure PortEntry where
  data : W256
  tag : BitVec 7
  poison : Bool
  src : Option (CoreId × StreamId × Nat)
  by_ : Option (Nat × Nat)
deriving DecidableEq, Repr

/-- A transfer that runs at a fixed stride (R442): a stream of a core, a copy command of a channel, or a gang's drains and
stashes. -/
inductive Transfer where
  | stream (c : CoreId) (n : StreamId)
  | copy (c : CoreId) (ch : Fin 3) (n : Nat)
  | gang (c : CoreId) (ticket : Fin 4)
deriving DecidableEq, Repr

/-- A stream context open on a seam link (R442): the transfer that uses it and the tick of its last flit. -/
structure SeamCtx where
  owner : Transfer
  last : Nat
deriving DecidableEq, Repr

/-! ## Messages -/

/-- A request to start strands, as it waits in an inbound queue (R200, R209, R212, R217), or a scope-miss message that the
core answers itself (R316). -/
inductive Start where
  /-- A message (R212): handler, g0 to g7, g8, g9. -/
  | message (pc : W64) (regs : Vector W64 8) (g8 g9 : W64)
  /-- A spawn request (R209): entry, first register and values, and what the child copies. -/
  | spawn (pc : W64) (first : Nat) (regs : List W64) (fcsr orient tvec dhint : W64) (super : Bool) (uid : Nat)
  /-- FAN's start message (R217): entry, g0, g1 of strand 0, g3, tick, strand numbers still to start, first uid. -/
  | fan (pc arg first size tick : W64) (started : Nat) (uids : List Nat)
  /-- A scope-miss message of a core with SMVEC.EN = 0: its token (R316). -/
  | widen (token : W64)
deriving DecidableEq, Repr

/-- An entry of the inbound queue, with the bond it belongs to, whether it started a scope-miss handler (R316), and
how many of the 16 places it takes. -/
structure InMsg where
  start : Start
  bond : Option Nat
  job : Nat
  part : Nat
  size : Nat
  scopeMiss : Bool
  poison : Bool
deriving DecidableEq, Repr

/-- A fault agent's reply wait is named by its TOKEN; what travels in the package (R200, R409, R470). -/
inductive Body where
  | start (dst : CoreId) (msg : InMsg)
  /-- FAN's start message on its way to a keystone core, with what it passes on to each core of its cluster (R217, R276). -/
  | fanKeystone (dst : CoreId) (msgs : List (CoreId × InMsg))
  | fanStart (dst : CoreId) (msg : InMsg)
  | completion (dst : CoreId) (msg : InMsg)
  | gangWake (dst : CoreId) (msg : InMsg)
  | wake (dst : CoreId) (slot : Slot)
  | fault (cluster : Nat) (msg : FaultMsg)
  | scopeMiss (dst : CoreId) (token : W64)
deriving DecidableEq, Repr

/-- A packet of the network: the core it came from, the strand that sent it (0: none), what it carries, how often its
flit has been replayed (R420), whether its target has refused it (R200), and the queue and packet number of an ACTIVE
packet that it carries out (R466). -/
structure Packet where
  src : CoreId
  uid : Nat
  body : Body
  replays : Nat
  refused : Bool
  poison : Bool
  queue : Option (Nat × Nat)
deriving DecidableEq, Repr

/-- A request or message in the outbound buffer (R209, R215): it leaves once every access its strand issued before
`seq` is performed at `scope`. -/
structure OutMsg where
  uid : Nat
  seq : Nat
  scope : Scope
  body : Body
deriving DecidableEq, Repr

/-! ## Writes on their way -/

/-- What stands between a write on its way and what happens after it (R312): the releases that follow it, each with its
core and scope, and the strands that have acquired one of them, each with the place in issue order of the acquire. -/
structure Order where
  rel : List (CoreId × Scope)
  heirs : Map Nat
deriving DecidableEq, Repr

def Order.none : Order := ⟨[], []⟩

/-- An entry of a core's outbound store queue (R302): bytes of one aligned 8-byte word. `after` names an earlier entry
that is performed first (R306); `tag` is the release tag it carries (R314). -/
structure StoreEntry where
  seq : Nat
  uid : Nat
  slot : Slot
  pc : W64
  va : W64
  word : Nat
  mask : BitVec 8
  val : W64
  /-- The data moved was poisoned (R421). -/
  poison : Bool
  key : Nat
  ord : OrdKind
  lease : LeaseMark
  tag : Option Tag
  after : Option Nat
  order : Order
  /-- The TOKEN of the SOURCE 6 message when the target has rejected the write (R327). -/
  token : Option W64
deriving DecidableEq, Repr

/-- The operation of a return-free reduction or of a write with norm (R124, R390). -/
inductive RedKind where
  | int (op : RedOp) (z : ASize)
  | fp (op : RedOp) (f : AFmt)
  /-- FP32 lanes of an aligned 8-byte word, with norm (R383). -/
  | norm (acc : Fin 16) (lanes : BitVec 2)
deriving DecidableEq, Repr

/-- An outstanding return-free reduction (R125). -/
structure Reduction where
  seq : Nat
  uid : Nat
  slot : Slot
  pc : W64
  va : W64
  loc : Nat
  kind : RedKind
  val : W64
  key : Nat
  ord : OrdKind
  lease : LeaseMark
  /-- The page is a reduction page (R127). -/
  rp : Bool
  /-- It is a release, at this scope (R126). -/
  release : Option Scope
  /-- Its target has performed it; the acknowledgement is on its way. -/
  performed : Bool
  /-- Its data came over a link poisoned (R420). -/
  poison : Bool
  order : Order
  token : Option W64
deriving DecidableEq, Repr

/-- A contribution to a shadow unit: its strand with its core and slot, place in issue order, address, release scope (R487),
bond and lease. -/
structure Contribution where
  core : CoreId
  slot : Slot
  uid : Nat
  seq : Nat
  va : W64
  release : Option Scope
  bond : Option Nat
  lease : LeaseMark
  order : Order
deriving DecidableEq, Repr

/-- A shadow unit of a die (R436): home location and key, operation, value, poison, contributions and partition. -/
structure ShadowUnit where
  loc : Nat
  key : Nat
  kind : RedKind
  val : W64
  poison : Bool
  contribs : List Contribution
  part : Nat
deriving DecidableEq, Repr

/-! ## Gangs -/

/-- STATE of R263. -/
inductive GangState where | claiming | frozen | done | preempted | thawed | fault | refused | stale
deriving DecidableEq, Repr

/-- One cell of a gang (R246 to R252). -/
structure Cell where
  pulse : Nat
  /-- Weight-block entries that have reached the cell in the latch phase (R251). -/
  latched : Nat
  /-- Zero points at ZPOFF, read at freeze (R245). -/
  zp : W64
  /-- Column scales, read before the first pulse in WS (R245). -/
  scales : Option W256
  flags : BitVec 6
  zpiv : Bool
deriving DecidableEq, Repr

/-- A ticket slot (R240, R243, R263). `book` is the codebook (R249); `cells` are keyed by core. -/
structure Ticket where
  busy : Bool
  seq : W32
  desc : W512
  book : W256
  tick : W64
  state : GangState
  reason : BitVec 4
  cause : Byte
  cx : BitVec 6
  cy : BitVec 6
  zpiv : Bool
  late : Bool
  pulse : W32
  uid : Nat
  slot : Slot
  /-- Privilege of the issuing strand. -/
  super : Bool
  bond : Nat
  cells : Map Cell
  /-- The pulse the tick has been met for (R450). -/
  started : Bool
  /-- P of R256, with whether a pre-emption request and a GTHAW are among the requests. -/
  stop : Option Nat
  preempt : Bool
  thawReq : Bool
  /-- A cell's or the epilogue's fault waiting to thaw the gang: cause, u, v, pulse (R257). -/
  faulted : Option (Byte × Nat × Nat × Nat)
  /-- Elements of the epilogue a SKIP left unwritten, the element that waits for a reply, and its TOKEN (R255). -/
  skipped : List Nat
  waitElem : Nat
  token : Option W64
  /-- The wake message has not left the outbound place (R209). -/
  unsent : Option OutMsg
deriving DecidableEq, Repr

def Ticket.empty : Ticket where
  busy := false
  seq := 0
  desc := 0
  book := 0
  tick := 0
  state := .done
  reason := 0
  cause := 0
  cx := 0
  cy := 0
  zpiv := false
  late := false
  pulse := 0
  uid := 0
  slot := 0
  super := false
  bond := 0
  cells := []
  started := false
  stop := none
  preempt := false
  thawReq := false
  faulted := none
  skipped := []
  waitElem := 0
  token := none
  unsent := none

/-! ## Engines -/

/-- Where a copy command stands (R345 to R349). -/
inductive CopyPhase where
  | sent
  | refused (until_ : Nat)
  | accepted
  | running
  /-- Stopped at an element, waiting on a TOKEN (R349). -/
  | faulted (token : W64) (elem : Nat)
  | finished
deriving DecidableEq, Repr

/-- A destination word of a copied element of 16 or 32 bytes that has been read together with the rest of the element and is
still to be written (R305, R342): its number, its home with the key and the lease, the value and its poison. -/
structure HeldWord where
  word : Nat
  home : Nat
  key : Nat
  lease : LeaseMark
  val : W64
  poison : Bool
deriving DecidableEq, Repr

/-- An address that a running copy has translated for an element still in flight, while a later one has landed (R349): a byte
of a source, or a destination word (`store`), with its location, key and lease. -/
structure CopyPin where
  va : W64
  store : Bool
  loc : Nat
  key : Nat
  lease : LeaseMark
deriving DecidableEq, Repr

/-- A copy command (R344). Elements below `first` are done for good (R349, R427); `landed` lists the destination words landed,
`skipped` the elements SKIP left out, `fetched` the flash blocks of its source that have been read (R472), and `outcome` is
the outcome so far. -/
structure CopyCmd where
  n : Nat
  words : W512
  tick : W64
  uid : Nat
  core : CoreId
  slot : Slot
  /-- Privilege of the issuing strand. -/
  super : Bool
  bond : Option Nat
  part : Nat
  job : Nat
  seq : Nat
  phase : CopyPhase
  first : Nat
  landed : List Nat
  /-- Words whose bytes the arrival word has counted (R347). -/
  counted : List Nat
  skipped : List Nat
  held : List HeldWord
  pins : List CopyPin
  fetched : List Nat
  outcome : Byte
  message : Option OutMsg
  /-- The queue and packet a COPY packet came from. -/
  packet : Option (Nat × Nat)
deriving DecidableEq, Repr

/-- A new value of an element that a footing command has computed and not written yet (R356): address, bytes, code and
poison. -/
structure FootPut where
  va : Nat
  n : Nat
  code : Nat
  poison : Bool
deriving DecidableEq, Repr

/-- A footing command (R354 to R356): the location, the key and the first byte of the leaf page of every 64 KiB of its ranges
once all are translated, by VA ÷ 2^16, the elements computed of each piece, and the values that wait for the rest of their
word. -/
structure FootCmd where
  n : Nat
  words : W512
  uid : Nat
  slot : Slot
  super : Bool
  bond : Option Nat
  part : Nat
  job : Nat
  seq : Nat
  pages : Option (Map (Nat × Nat × Nat))
  pieces : Map Nat
  puts : List FootPut
  outcome : Byte
  token : Option W64
deriving DecidableEq, Repr

/-- What a tile sequencer command does (R372, R381): a tile operation with its descriptors as TOP read them and the
plain and corner-turned stash address of each slot, or the records of a reversal that are still to be run. -/
inductive SeqOp where
  | tile (op : Nat) (b : W64) (descs : List W512) (stash : List (W64 × W64))
  | reverse (records : List W64)
deriving DecidableEq, Repr

/-- A write that a tile sequencer command is still to make: its step of R377, its address, bytes, code and poison, the norm
accumulator it adds to (R383), and whether its code is added to the FP32 value there. -/
structure SeqPut where
  phase : Nat
  va : W64
  n : Nat
  code : Nat
  poison : Bool
  norm : Option (Fin 16)
  add : Bool
deriving DecidableEq, Repr

/-- A component gang of a tile sequencer command (R367): its descriptor, the pulses that it has completed, counted from 0 as
in R246, and whether its cores are frozen for it; a pre-empted one has left them and keeps its pulse (R427). -/
structure SeqGang where
  desc : W512
  pulse : Nat
  placed : Bool
deriving DecidableEq, Repr

/-- A tile sequencer command. `region` is TREGION as the command found it when it began, `gang` the component gang at hand,
and `todo` holds the writes left of a tile operation or of the record in hand, once its operands have been read (R371). -/
structure SeqCmd where
  n : Nat
  op : SeqOp
  core : CoreId
  uid : Nat
  slot : Slot
  super : Bool
  seq : Nat
  region : Option W64
  gang : Option SeqGang
  todo : Option (List SeqPut)
  ran : Bool
  flags : BitVec 6
  outcome : Byte
  token : Option W64
deriving DecidableEq, Repr

/-- The timeline of an engine context (R335, R336, R343): counter, next number, commands complete above the counter,
the outcomes retained, and the status. -/
structure Timeline where
  counter : W64
  next : Nat
  complete : List Nat
  outcomes : Map Byte
  err : Bool
  late : Bool
  cause : Byte
deriving DecidableEq, Repr

def Timeline.zero : Timeline where
  counter := 0
  next := 1
  complete := []
  outcomes := []
  err := false
  late := false
  cause := 0

structure Channel where
  tl : Timeline
  cmds : List CopyCmd
deriving DecidableEq, Repr

structure FootQueue where
  tl : Timeline
  cmds : List FootCmd
deriving DecidableEq, Repr

structure Sequencer where
  bond : Option Nat
  tl : Timeline
  cmds : List SeqCmd
  /-- The partition whose bond held it last (R337, R474). -/
  part : Option Nat
deriving DecidableEq, Repr

/-! ## Translation -/

/-- A lease on a peer page (R298). -/
structure Lease where
  node : Nat
  page : Nat
  /-- Bytes the grant covers, and the permissions it carries. -/
  size : Nat
  rd : Bool
  wr : Bool
  epoch : W32
  /-- The peer refused the lease, or could not be reached: an access that needs it faults (R298). -/
  refused : Bool
  /-- The peer recalls it: no new access uses it (R299). -/
  recalled : Bool
deriving DecidableEq, Repr

/-- A lease that a peer node holds on bytes of a partition's exported window (R298, R471): from its first byte on, with the
permissions and the epoch. -/
structure Export where
  part : Nat
  node : Nat
  first : Nat
  size : Nat
  rd : Bool
  wr : Bool
  epoch : W32
deriving DecidableEq, Repr

/-- A TLB entry (R293): ASID, first virtual address and size in bytes, the leaf with the virtual address that its page
begins at, the partition it was filled for, and the lease of a peer page. -/
structure TlbEntry where
  asid : Nat
  base : Nat
  size : Nat
  leaf : W64
  origin : Nat
  part : Nat
  lease : Option Lease
deriving DecidableEq, Repr

/-! ## Cores and clusters -/

/-- What has frozen a core: a gang, by its issuing core and ticket slot, or a tile sequencer for a component of its command
(R242, R367). -/
inductive Freezer where
  | gang (c : CoreId) (ticket : Fin 4)
  | sequencer (die : Fin 4) (q : Fin 8)
deriving DecidableEq, Repr

/-- A core. -/
structure Core where
  slots : Vector Strand 8
  k : Vector W32 256
  /-- Poison of each pair of k lanes (R420). -/
  kPoison : BitVec 128
  srseed : W64
  ptag : W64
  streams : Vector Stream 4
  /-- Inbound port queues and seam buffers, by physical link (R227, R441). -/
  inq : Vector (List PortEntry) 4
  seam : Vector (List PortEntry) 4
  ctxs : Vector (List SeamCtx) 4
  inbound : List InMsg
  outbound : List OutMsg
  stores : List StoreEntry
  reds : List Reduction
  last0 : Slot
  last1 : Slot
  run : Nat
  halted : Bool
  /-- What has frozen the core, and the gang that is claiming it (R242). -/
  frozen : Option Freezer
  claimed : Option (CoreId × Fin 4)
  tickets : Vector Ticket 4
  gangSeq : W32
  chans : Vector Channel 2
  foot : FootQueue
  smvec : W64
  ordstat : W64
  ecccnt : W64
  itlb : List TlbEntry
  dtlb : List TlbEntry
  /-- Messages each agent of the core has posted (R410). -/
  agentSeq : Vector W32 20
deriving DecidableEq, Repr

/-- The reset value of SRSEED (R46). -/
def srseedReset : W64 := 0x5A17C3E90B64D2F1

/-- A core at reset. -/
def Core.reset : Core where
  slots := Vector.replicate 8 Strand.free
  k := Vector.replicate 256 0
  kPoison := 0
  srseed := srseedReset
  ptag := 0
  streams := Vector.replicate 4 Stream.idle
  inq := Vector.replicate 4 []
  seam := Vector.replicate 4 []
  ctxs := Vector.replicate 4 []
  inbound := []
  outbound := []
  stores := []
  reds := []
  last0 := 0
  last1 := 0
  run := 0
  halted := false
  frozen := none
  claimed := none
  tickets := Vector.replicate 4 Ticket.empty
  gangSeq := 0
  chans := Vector.replicate 2 ⟨Timeline.zero, []⟩
  foot := ⟨Timeline.zero, []⟩
  smvec := 0
  ordstat := 0
  ecccnt := 0
  itlb := []
  dtlb := []
  agentSeq := Vector.replicate 20 0

/-- A barrier of a course or bond (R218): the strands that are members and those that have arrived. -/
structure Barrier where
  members : List Nat
  arrived : List Nat
  phase : W32
deriving DecidableEq, Repr

/-- A cluster (R21, R411). `raised` holds the flags raised into CFU in this cycle: under 3c those of core c since its last
issue began, under 3c + 1 those that its strands raised before its issue, and under 3c + 2 those of the instruction that it
issued; `since` is the tick at which the head of the mailbox became the head. -/
structure Cluster where
  cfu : W64
  raised : Map (BitVec 6)
  fhvec : W64
  mailbox : List FaultMsg
  since : Nat
  bond : Option Nat
  part : Option Nat
  tlb : List TlbEntry
deriving DecidableEq, Repr

def Cluster.reset : Cluster where
  cfu := 0
  raised := []
  fhvec := 0
  mailbox := []
  since := 0
  bond := none
  part := none
  tlb := []

/-! ## Work -/

/-- A command-queue packet as the fetcher read it (R463, R464): words 0 to 15, from the low bits, and its ring index. -/
structure QPacket where
  words : BitVec 1024
  index : Nat
deriving DecidableEq, Repr

/-- A packet taken and not complete (R468), with the job it was taken for. -/
structure Taken where
  n : Nat
  job : Nat
  packet : QPacket
  done : Bool
deriving DecidableEq, Repr

/-- The number of a resident bond is its record's key. -/
structure Bond where
  job : Nat
  part : Nat
  /-- Clusters of the rectangle (R466). -/
  cx : Nat
  cy : Nat
  cw : Nat
  ch : Nat
  spc : Nat
  dmask : BitVec 4
  size : W32
  fanned : Bool
  late : Bool
  contup : W64
  bay : Nat
  /-- FAN's entry and argument, for a course restart (R416). -/
  fanPc : W64
  fanArg : W64
  fanMask : BitVec 4
  /-- The bond's barrier and the courses' barriers by cluster (R218). -/
  bar : Barrier
  courses : Map Barrier
  seqr : Option (Fin 4 × Fin 8)
  tregion : W64
  tsErr : Bool
  tsFlags : BitVec 6
  tsCause : Byte
  /-- Retries left at the levels course (by cluster), bond, bay and job (R416). -/
  leftCourse : Map Nat
  leftBond : Nat
  leftBay : Nat
  leftJob : Nat
  /-- The queue and packet number of its LAUNCH, and the packet. -/
  queue : Nat
  packetNo : Nat
  packet : QPacket
deriving DecidableEq, Repr

/-- A queued unit of the scheduler (R223, R224). -/
structure WorkUnit where
  packet : QPacket
  queue : Nat
  packetNo : Nat
  job : Nat
  /-- Plumb time when its dependences were first met (R224), and the levels gained by waiting. -/
  metAt : Option Nat
  aged : Nat
  arrival : Nat
  /-- Retries left at the levels bond, bay and job when a restart has queued the unit again (R416). -/
  left : Option (Nat × Nat × Nat)
deriving DecidableEq, Repr

/-- A job slot (R461, R213, R294, R337). -/
structure Job where
  cfgPtroot : W64
  cfgFhvec : W64
  cfgSmvec : W64
  cfgTvec : W64
  ptroot : W64
  ownset : W64
  timelines : Map W64
  part : Option Nat
  killed : Bool
deriving DecidableEq, Repr

def Job.reset : Job where
  cfgPtroot := 0
  cfgFhvec := 0
  cfgSmvec := 0
  cfgTvec := 0
  ptroot := 0
  ownset := 0
  timelines := []
  part := none
  killed := false

/-- A command queue (R462, R463). -/
structure Queue where
  qbase : W64
  qcfg : W64
  pos : Nat
  phase : Bool
  run : Bool
  err : Bool
  cause : Byte
  epos : BitVec 16
  bkill : Bool
  bcause : Byte
  bpos : BitVec 16
  /-- The packet in hand, not yet dispatched. -/
  hand : Option QPacket
  /-- Packets taken and not complete, and the number of the next one. -/
  taken : List Taken
  next : Nat
  /-- The tick at which the fetcher last found the ring empty. -/
  polled : Nat
deriving DecidableEq, Repr

def Queue.reset : Queue where
  qbase := 0
  qcfg := 0
  pos := 0
  phase := true
  run := false
  err := false
  cause := 0
  epos := 0
  bkill := false
  bcause := 0
  bpos := 0
  hand := none
  taken := []
  next := 0
  polled := 0

/-- Where a partition stands (R424). -/
inductive PartPhase where | free | running | draining | saved
deriving DecidableEq, Repr

/-- The saved context of a job (R426): the shadow stores of its cores, its keystone mailboxes and FHVEC by cluster,
its norm accumulators with their control, and its bonds. `struck` lists the poisoned words of control state in the shadow
stores, by core and offset (R420, R426). -/
structure Saved where
  job : Nat
  cores : Map Core
  clusters : Map Cluster
  bonds : Map Bond
  norms : Map Int
  nactl : Map W64
  queue : List WorkUnit
  /-- Messages that were on their way to its cores. -/
  net : List Packet
  /-- The contexts of the exchange engines, with their commands as checkpointed (R452). -/
  exchange : Map Channel
  struck : List (CoreId × Nat)
deriving DecidableEq, Repr

/-- A partition (R423). `norms` is keyed 16·die + n (R384); `drain` says that step 4 of R424 has begun. -/
structure Partition where
  phase : PartPhase
  drain : Bool
  job : Nat
  clusters : List Nat
  memStacks : List Nat
  keys : List Nat
  swapcnt : W32
  units : List WorkUnit
  norms : Map Int
  nactl : Map W64
  saved : List Saved
  /-- The exported window (R471): physical base and size. -/
  window : Option (Nat × Nat)
  /-- A replied token whose effect waits for the resumption (R430). -/
  held : List (W64 × BitVec 2)
  /-- Containment walks that wait for the resumption, with their job (R430). -/
  walks : List (Nat × FaultMsg)
deriving DecidableEq, Repr

def Partition.free : Partition where
  phase := .free
  drain := false
  job := 0
  clusters := []
  memStacks := []
  keys := []
  swapcnt := 0
  units := []
  norms := []
  nactl := []
  saved := []
  window := none
  held := []
  walks := []

/-! ## Dies, I/O and the device -/

/-- A compute die (R366, R293, R436). -/
structure Die where
  tlb : List TlbEntry
  shadows : List ShadowUnit
  seqrs : Vector Sequencer 8
deriving DecidableEq, Repr

/-- A Ustis path to a node (R470): the number of the next frame that is to arrive, the retransmissions made of the frame
that is not acknowledged, and whether the peer counts as unreachable. -/
structure Path where
  rx : Nat
  retries : Nat
  down : Bool
deriving DecidableEq, Repr

/-- An NVMe command that command n of a copy channel waits for (R472): the virtual address of its block, and whether it is a
Write or a Read. -/
structure FlashOp where
  core : CoreId
  ch : Fin 3
  n : Nat
  block : Nat
  write : Bool
deriving DecidableEq, Repr

/-- What the device block holds (R460, R475 to R479). -/
structure Device where
  powered : Bool
  ready : Bool
  recovery : Bool
  image : Nat
  fuses : Nat
  alarm : Option AlarmCause
  throttled : Bool
  shut : Bool
  powerLimit : Nat
  measures : Vector W512 8
  report : Option (Nat × W512)
  primaryDown : Bool
  /-- MSI-X vectors sent, latest first (R459). -/
  msix : List Nat
  node : Byte
  sync : Bool
  hold : Bool
  perr : W32
deriving DecidableEq, Repr

/-- The environment's choice of what moves next. -/
inductive Turn where
  /-- One of the part's own steps, or the host's. -/
  | event (i : Instr)
  /-- The core issues one instruction; `lazy` leaves its requests on their way. -/
  | issue (c : CoreId) (lazy : Bool)
  /-- One tick of plumb time passes. -/
  | tick
  /-- Entry `idx` of a core's I-TLB or D-TLB, a cluster's TLB or a die's TLB is replaced. -/
  | dropItlb (c : CoreId) (idx : Nat) | dropDtlb (c : CoreId) (idx : Nat)
  | dropCluster (cl idx : Nat) | dropDie (d : Fin 4) (idx : Nat)
  /-- The host, a peer or flash changes a byte of its own memory. -/
  | outside (loc : Nat) (b : Byte)
  /-- A peer rejects accesses under a lease from now on, without a recall (R299). -/
  | revoke (node page : Nat)
  /-- The host writes 8 bytes at an offset of BAR0 (R460). -/
  | hostWrite (off : Nat) (v : W64)
  /-- The firmware grants a peer a lease on an exported window, or has recalled it (R298, R299). -/
  | exportLease (x : Export) (on : Bool)
  /-- The firmware assigns the device its node number (R471). -/
  | assignNode (n : Byte)
  /-- The partition manager moves an aligned 8-byte word between a slice and stack memory in a switch (R424): out of the
  slice, or back into it. -/
  | moveSlice (part loc pa : Nat) (out : Bool)
deriving DecidableEq, Repr

/-- The whole package. -/
structure State where
  /-- What moves next; empty: one cycle of the package passes. -/
  turns : List Turn
  /-- The strand whose instruction `exec` performs. -/
  cur : CoreId
  slot : Slot
  lazy : Bool
  nextUid : Nat
  nextSeq : Nat
  /-- The model's own counter for free values. -/
  freeCtr : Nat
  mem : List Host.Cell
  /-- Words (location ÷ 8) that are poisoned (R288), and slice words whose presence bit is set (R282), rising. -/
  poison : List Nat
  present : List Nat
  /-- The key under which each 128-byte line was last written (R473). -/
  lineKey : Map Nat
  /-- The binding in force of each assigned key index: a number no other binding has had (R473). -/
  keyInst : Map Nat
  tags : List Tag
  misses : List Miss
  /-- Fault messages that no reply has answered yet (R410, R414). -/
  asked : List FaultMsg
  cores : Map Core
  clusters : Map Cluster
  dies : Vector Die 4
  bonds : Map Bond
  nextBond : Nat
  jobs : Map Job
  parts : Map Partition
  queues : Map Queue
  net : List Packet
  /-- The contexts of the exchange engines by 32 × partition + engine: 0–15 of xa, 16–31 of xb (R337, R423, R451). -/
  exchange : Map Channel
  leases : List Lease
  /-- Leases on the exported windows of this device's partitions that peers hold (R298, R471). -/
  exports : List Export
  /-- Lease epochs that a peer node has revoked without recall (R299). -/
  revoked : List (Nat × W32)
  paths : Map Path
  flash : List FlashOp
  /-- Plumb time at the compute dies and at xa and xb (R444), and one more than the tick of each copy's last slew (0: none). -/
  plumb : Vector W64 6
  slewed : Vector Nat 6
  /-- Ticks of the reference clock since reset. -/
  ticks : Nat
  dev : Device
deriving DecidableEq, Repr

/-- A compute die at reset. -/
def Die.reset : Die where
  tlb := []
  shadows := []
  seqrs := Vector.replicate 8 ⟨none, Timeline.zero, [], none⟩

/-- The device block after bring-up (R479). -/
def Device.reset : Device where
  powered := true
  ready := true
  recovery := false
  image := 0
  fuses := 0
  alarm := none
  throttled := false
  shut := false
  powerLimit := 2000
  measures := Vector.replicate 8 0
  report := none
  primaryDown := false
  msix := []
  node := 1
  sync := false
  hold := false
  perr := 0xFFFFFFFF

/-- The machine after bring-up (R479): everything lost, memory zero, plumb time 0. -/
def State.reset : State where
  turns := []
  cur := 0
  slot := 0
  lazy := false
  nextUid := 1
  nextSeq := 1
  freeCtr := 0
  mem := []
  poison := []
  present := []
  lineKey := []
  keyInst := []
  tags := []
  misses := []
  asked := []
  cores := []
  clusters := []
  dies := Vector.replicate 4 Die.reset
  bonds := []
  nextBond := 1
  jobs := []
  parts := []
  queues := []
  net := []
  exchange := []
  leases := []
  exports := []
  revoked := []
  paths := []
  flash := []
  plumb := Vector.replicate 6 0
  slewed := Vector.replicate 6 0
  ticks := 0
  dev := Device.reset

/-- Why the machine stops. Raised by `step` alone. -/
inductive Fault where
  /-- The environment's turn names a core, cluster, queue, job or partition the package does not have (R1): no event
  of this part. Safe: nothing of the hardware is cut short. -/
  | noSuchUnit
deriving DecidableEq, Repr

/-- Why an instruction has no meaning. -/
inductive Refusal where
  /-- The instruction's arm in Machine/Dispatch.lean has no meaning yet. Safe. -/
  | notModelled (mnemonic : String)
deriving DecidableEq, Repr

end Sys2Proof.Machine
end

