-- ==== Sys2Proof/Machine/Bits.lean ====
section
/-!
DEFINITION. Bit fields, sparse maps, sorted sets and the canonical byte memory.
-/
namespace Sys2Proof.Machine

/-! ## Bit fields -/

/-- Bits [hi:lo] of a word, as a number. -/
def bits {w : Nat} (x : BitVec w) (hi lo : Nat) : Nat := (x.toNat >>> lo) % 2 ^ (hi + 1 - lo)

/-- Bit i of a word. -/
def bit {w : Nat} (x : BitVec w) (i : Nat) : Bool := x.getLsbD i

/-- x with bits [lo + n − 1 : lo] replaced by the low n bits of v. -/
def putBits {w : Nat} (x : BitVec w) (lo n v : Nat) : BitVec w :=
  BitVec.ofNat w (x.toNat % 2 ^ lo + (v % 2 ^ n) * 2 ^ lo + (x.toNat >>> (lo + n)) * 2 ^ (lo + n))

/-- The low n bits of x, sign-extended (R67). -/
def sext {w : Nat} (x : BitVec w) (n v : Nat) : BitVec v := (x.setWidth n).signExtend v

/-- Byte i of a word, byte 0 the least significant (R2). -/
def byteAt {w : Nat} (x : BitVec w) (i : Nat) : Byte := BitVec.ofNat 8 (x.toNat >>> (8 * i))

/-- A word of bytes, the first the least significant (R2). -/
def ofBytes (w : Nat) : List Byte → BitVec w
  | [] => 0
  | b :: t => BitVec.ofNat w (b.toNat + 256 * (ofBytes w t).toNat)

/-- Lane i of width w (R8). -/
def lane {v : Nat} (x : BitVec v) (w i : Nat) : BitVec w := x.extractLsb' (i * w) w

/-- x with lane i of width w replaced (R8). -/
def setLane {v : Nat} (x : BitVec v) (w i : Nat) (y : BitVec w) : BitVec v := putBits x (i * w) w y.toNat

/-- The vector whose lane i of width w is `f i`, for i below n. -/
def lanesOf (v w : Nat) (f : Nat → BitVec w) : Nat → BitVec v
  | 0 => 0
  | n + 1 => lanesOf v w f n ||| ((f n).setWidth v <<< (n * w))

/-- The number of set bits. -/
def popcount : Nat → Nat → Nat
  | 0, _ => 0
  | n + 1, x => x % 2 + popcount n (x / 2)

/-- Index of the highest set bit plus 1, and 0 for 0: the bit length. -/
def bitLen (x : Nat) : Nat := if x = 0 then 0 else x.log2 + 1

/-- ⌈a ÷ b⌉. -/
def ceilDiv (a b : Nat) : Nat := (a + b - 1) / b

/-- Whether a condition holds of some number below n. -/
def anyBelow (p : Nat → Bool) : Nat → Bool
  | 0 => false
  | n + 1 => anyBelow p n || p n

/-! ## Sparse maps -/

/-- The record of number k, `d` when unlisted. -/
def mapGet {α : Type} (d : α) : Map α → Nat → α
  | [], _ => d
  | (a, v) :: t, k => if a = k then v else mapGet d t k

/-- The record of number k, if listed. -/
def mapFind {α : Type} : Map α → Nat → Option α
  | [], _ => none
  | (a, v) :: t, k => if a = k then some v else mapFind t k

/-- The map with the record of number k replaced, numbers kept rising. -/
def mapSet {α : Type} (k : Nat) (v : α) : Map α → Map α
  | [] => [(k, v)]
  | (a, w) :: t =>
    if k < a then (k, v) :: (a, w) :: t
    else if k = a then (k, v) :: t
    else (a, w) :: mapSet k v t

/-- The map without number k. -/
def mapErase {α : Type} (k : Nat) (m : Map α) : Map α := m.filter (fun e => e.1 != k)

/-! ## Sorted sets of numbers -/

def setAdd (k : Nat) : List Nat → List Nat
  | [] => [k]
  | a :: t => if k < a then k :: a :: t else if k = a then a :: t else a :: setAdd k t

def setDel (k : Nat) (l : List Nat) : List Nat := l.filter (· != k)

/-! ## Byte memory: strictly rising locations, no byte equal to what an unlisted location reads as -/

/-- What an unlisted location reads as: bring-up zeroes all memory (R479). -/
def blank : Byte := 0

/-- The byte at a location. -/
def memGet : List Host.Cell → Nat → Byte
  | [], _ => blank
  | (a, b) :: t, k => if a = k then b else memGet t k

/-- Memory with the byte at location k replaced, in canonical form. -/
def memSet (k : Nat) (b : Byte) : List Host.Cell → List Host.Cell
  | [] => if b = blank then [] else [(k, b)]
  | (a, c) :: t =>
    if k < a then (if b = blank then (a, c) :: t else (k, b) :: (a, c) :: t)
    else if k = a then (if b = blank then t else (k, b) :: t)
    else (a, c) :: memSet k b t

/-- The canonical form, above a lower bound. -/
def memWfFrom : Nat → List Host.Cell → Bool
  | _, [] => true
  | lo, (a, b) :: t => decide (lo ≤ a) && b != blank && memWfFrom (a + 1) t

/-- The canonical form of memory: locations strictly rising, no blank byte listed. -/
def Memory.wf (m : List Host.Cell) : Bool := memWfFrom 0 m

/-- The little-endian word of n bytes at a location (R2). -/
def memWord (w : Nat) (m : List Host.Cell) (loc : Nat) : Nat → BitVec w
  | 0 => 0
  | n + 1 => BitVec.ofNat w ((memGet m loc).toNat + 256 * (memWord w m (loc + 1) n).toNat)

/-- Memory with byte i of an aligned 8-byte word replaced where bit i of the mask is 1, for i below n. -/
def memPut (m : List Host.Cell) (loc : Nat) (mask : BitVec 8) (val : W64) : Nat → List Host.Cell
  | 0 => m
  | n + 1 =>
    let m' := memPut m loc mask val n
    if bit mask n then memSet (loc + n) (byteAt val n) m' else m'

end Sys2Proof.Machine
end

