-- ==== Sys2Proof/Machine/CopyMap.lean ====
section
/-!
DEFINITION. The copy descriptor, its validity and its map (R338 to R341).
-/
namespace Sys2Proof.Machine

/-- Eight payload words. -/
def payload (l : List W64) : Vector W64 8 := Vector.ofFn fun i => l.getD i.val 0

/-- The core that the low 23 bits of a coordinate word name. -/
def coreOfWord {w : Nat} (x : BitVec w) : CoreId := bits x 7 0 * 128 + bits x 22 16

/-! ## Fields (R338, R339) -/

def cdSbase (d : W512) : W64 := d.extractLsb' 0 64
def cdDbase (d : W512) : W64 := d.extractLsb' 64 64
/-- Number of atomic dimensions. -/
def cdDims (d : W512) : Nat := bits d 130 128 + 1
def cdPerm (d : W512) (k : Nat) : Nat := bits d (133 + 3 * k) (131 + 3 * k)
def cdSb (d : W512) : Nat := bits d 157 155 + 1
def cdDb (d : W512) : Nat := bits d 160 158 + 1
/-- Extent of atomic dimension k. -/
def cdExt (d : W512) (k : Nat) : Nat := bits d (207 + 16 * k) (192 + 16 * k) + 1
def cdAword (d : W512) : Nat := bits d 350 320
def cdAen (d : W512) : Bool := bit d 351
def cdDpitch (d : W512) : Nat := bits d 383 352
def cdMcore (d : W512) : BitVec 23 := d.extractLsb' 384 23
def cdMen (d : W512) : Bool := bit d 407
def cdMtag (d : W512) : W64 := (d.extractLsb' 408 4).setWidth 64
def cdEszCode (d : W512) : Nat := bits d 414 412
def cdEsz (d : W512) : Nat := 2 ^ cdEszCode d
def cdPset (d : W512) : Bool := bit d 415
def cdSpitch (d : W512) : Nat := bits d 447 416
def cdHandler (d : W512) : W64 := d.extractLsb' 448 64

/-- R341: MCORE and HANDLER can carry a completion message. -/
def cdMessageOk (d : W512) : Bool :=
  !bit (cdHandler d) 0 && bits (cdMcore d) 15 8 == 0 && decide (bits (cdMcore d) 7 0 ≤ 159)

/-! ## The map (R340) -/

/-- The product of the extents of source dimensions 0 to k − 1. -/
def srcProd (d : W512) : Nat → Nat
  | 0 => 1
  | k + 1 => srcProd d k * cdExt d k

/-- The product of the extents of destination dimensions 0 to k − 1. -/
def dstProd (d : W512) : Nat → Nat
  | 0 => 1
  | k + 1 => dstProd d k * cdExt d (cdPerm d k)

/-- T of R340. -/
def cdTotal (d : W512) : Nat := srcProd d (cdDims d)

/-- Source and destination outer pitches. -/
def cdPs (d : W512) : Nat := if cdSpitch d ≠ 0 then cdSpitch d else cdEsz d * srcProd d (cdSb d)
def cdPd (d : W512) : Nat := if cdDpitch d ≠ 0 then cdDpitch d else cdEsz d * dstProd d (cdDb d)

/-- Destination index k of element e of the traversal. -/
def dstIndex (d : W512) (e k : Nat) : Nat := e / dstProd d k % cdExt d (cdPerm d k)

/-- Source index k of element e: that of the destination dimension it becomes. -/
def srcIndex (d : W512) (e k : Nat) : Nat :=
  match (List.range (cdDims d)).find? fun j => cdPerm d j == k with
  | some j => dstIndex d e j
  | none => 0

/-- The source's linear inner and outer index of element e. -/
def srcInner (d : W512) (e : Nat) : Nat → Nat
  | 0 => 0
  | k + 1 => srcInner d e k + (if k < cdSb d then srcIndex d e k * srcProd d k else 0)
def srcOuter (d : W512) (e : Nat) : Nat → Nat
  | 0 => 0
  | k + 1 => srcOuter d e k + (if k < cdSb d then 0 else srcIndex d e k * (srcProd d k / srcProd d (cdSb d)))

/-- The source address of element e. -/
def cdSource (d : W512) (e : Nat) : W64 :=
  cdSbase d + BitVec.ofNat 64 (srcInner d e (cdDims d) * cdEsz d + srcOuter d e (cdDims d) * cdPs d)

/-- The destination's byte offset of element e: inner index, then outer index by the pitch. -/
def cdDstOffset (d : W512) (e : Nat) : Nat :=
  e % dstProd d (cdDb d) * cdEsz d + e / dstProd d (cdDb d) * cdPd d

/-- The element, and the byte in it, that lies at a byte offset of the destination, if any. -/
def cdAt (d : W512) (off : Nat) : Option (Nat × Nat) :=
  let inner := off % cdPd d
  let e := off / cdPd d * dstProd d (cdDb d) + inner / cdEsz d
  if inner < cdEsz d * dstProd d (cdDb d) ∧ e < cdTotal d then some (e, inner % cdEsz d) else none

/-- The element bytes of destination word `word`, counted from the aligned word that holds DBASE: byte of the word,
element, byte of the element. -/
def cdWord (d : W512) (word : Nat) : List (Nat × Nat × Nat) :=
  (List.range 8).filterMap fun i =>
    let at_ := 8 * word + i
    let skip := (cdDbase d).toNat % 8
    if at_ < skip then none else (cdAt d (at_ - skip)).map fun e => (i, e.1, e.2)

/-- The position in the traversal of the last element with a byte in a word (R340). -/
def cdPosition (d : W512) (word : Nat) : Nat :=
  match (cdWord d word).getLast? with
  | some (_, e, _) => cdEsz d * e
  | none => 0

/-- The destination words that are read together: those of an element of 16 or 32 bytes, else the word alone (R342). -/
def cdUnit (d : W512) (word : Nat) : List Nat :=
  match cdWord d word with
  | (_, _, b) :: _ => if cdEsz d ≤ 8 then [word] else (List.range (cdEsz d / 8)).map fun j => word - b / 8 + j
  | [] => [word]

/-- Positions of a copy that an engine keeps in flight (R349). -/
def copyWindow : Nat := 4 * 2 ^ 20

/-! ## Validity (R341) -/

/-- Fields 0 to n − 1 of PERM hold each of 0 to n − 1 once; the others, and their extents, are 0. -/
def permOk (d : W512) : Bool :=
  let n := cdDims d
  (List.range n).all (fun k => (List.range n).any fun j => cdPerm d j == k)
  && (List.range 8).all fun k => decide (k < n) || (cdPerm d k == 0 && cdExt d k == 1)

/-- The conditions of R341 on the descriptor alone. -/
def cdValid (d : W512) : Bool :=
  let al := Nat.min (cdEsz d) 8
  bits d 191 161 == 0 && decide (cdEszCode d ≤ 5) && permOk d
  && decide (cdSb d ≤ cdDims d) && decide (cdDb d ≤ cdDims d)
  && (cdSbase d).toNat % al == 0 && (cdDbase d).toNat % al == 0 && cdSpitch d % al == 0 && cdDpitch d % al == 0
  && (cdSpitch d == 0 || decide (cdSpitch d ≥ cdEsz d * srcProd d (cdSb d)))
  && (cdDpitch d == 0 || decide (cdDpitch d ≥ cdEsz d * dstProd d (cdDb d)))
  && decide (cdEsz d * cdTotal d ≤ 2 ^ 40)
  && (!cdAen d || (cdAword d % 16 == 0 && decide (cdAword d / 2 ^ 23 ≤ 159)))
  && (!cdPset d || bits d 127 112 == 0xFFFF)
  && (!cdMen d || cdMessageOk d)

end Sys2Proof.Machine
end

