-- ==== Sys2Proof/Machine/Fp.lean ====
section
/-!
DEFINITION. Numbers, rounding and flags (02_number_formats.md). A value is kept exactly, as sign, n and e for
n × 2^e; `sticky` says that the exact magnitude lies strictly between n × 2^e and (n + 1) × 2^e.
-/
namespace Sys2Proof.Machine

/-- A datum: a NaN (signalling or not), an infinity, or a finite value. -/
inductive Num where
  | nan (signalling : Bool)
  | inf (neg : Bool)
  | fin (neg : Bool) (n : Nat) (e : Int) (sticky : Bool)
deriving DecidableEq, Repr

/-- The six flags in FCSR order: NV, DZ, OF, UF, NX, SAT (R16). -/
abbrev Flags := BitVec 6
def fNV : Flags := 1
def fDZ : Flags := 2
def fOF : Flags := 4
def fUF : Flags := 8
def fNX : Flags := 16
def fSAT : Flags := 32
def flagIf (b : Bool) (f : Flags) : Flags := if b then f else 0

/-! ## Formats -/

/-- A grid of magnitudes: precision P, the exponent q of the spacing of the subnormals, the magnitude code of the
largest finite value, and how codes carry signs and special values (R28, R32, R33). -/
inductive Coding where
  | ieee (w : Nat)
  | b8 (uns fin : Bool)
deriving DecidableEq, Repr

structure Fmt where
  prec : Nat
  q : Int
  maxCode : Nat
  coding : Coding
deriving DecidableEq, Repr

def fmtFp64 : Fmt := ⟨53, -1074, 0x7FEFFFFFFFFFFFFF, .ieee 64⟩
def fmtFp32 : Fmt := ⟨24, -149, 0x7F7FFFFF, .ieee 32⟩
def fmtFp16 : Fmt := ⟨11, -24, 0x7BFF, .ieee 16⟩
def fmtBf16 : Fmt := ⟨8, -133, 0x7F7F, .ieee 16⟩

/-- R32, R33: the binary8 formats. -/
def fmtB8 (b : B8) : Fmt :=
  let p := b.pm1.val + 1
  let bias : Int := if b.uns then 2 ^ (8 - p) else 2 ^ (7 - p)
  let m := if b.uns then (if b.fin then 0xFE else 0xFD) else (if b.fin then 0x7F else 0x7E)
  ⟨p, 1 - bias - b.pm1.val, m, .b8 b.uns b.fin⟩

def ffmt : FFmt → Fmt
  | .fp64 => fmtFp64 | .fp32 => fmtFp32 | .bf16 => fmtBf16 | .fp16 => fmtFp16

/-- b8p4se, the lane format of R71. -/
def b8p4se : B8 := ⟨3, false, false⟩

/-- The format of a floating-point lane (R71); integer lanes have none. -/
def laneFmt : LFmt → Option Fmt
  | .fp64 => some fmtFp64 | .fp32 => some fmtFp32 | .bf16 => some fmtBf16 | .fp16 => some fmtFp16
  | .b8p4se => some (fmtB8 b8p4se) | .i32 | .i16 | .i8 => none

/-- The value that a magnitude code stands for, as n and e (R28, R32). -/
def codeMag (f : Fmt) (c : Nat) : Nat × Int :=
  let t := f.prec - 1
  if c < 2 ^ t then (c, f.q) else (2 ^ t + c % 2 ^ t, f.q + (c / 2 ^ t : Nat) - 1)

/-- The canonical NaN (R28, R33). -/
def canonNaN (f : Fmt) : Nat :=
  match f.coding with
  | .ieee _ => f.maxCode + 1 + 2 ^ (f.prec - 2)
  | .b8 uns _ => if uns then 0xFF else 0x80

/-- A code read as a datum (R28, R32, R33). -/
def readFp (f : Fmt) (x : Nat) : Num :=
  match f.coding with
  | .ieee w =>
    let neg := x.testBit (w - 1)
    let c := x % 2 ^ (w - 1)
    if c ≤ f.maxCode then let m := codeMag f c; .fin neg m.1 m.2 false
    else if c = f.maxCode + 1 then .inf neg
    else .nan (!c.testBit (f.prec - 2))
  | .b8 uns fin =>
    let x := x % 256
    if uns then
      if x = 0xFF then .nan false
      else if x = 0xFE ∧ !fin then .inf false
      else let m := codeMag f x; .fin false m.1 m.2 false
    else
      let neg := x.testBit 7
      let c := x % 128
      if x = 0x80 then .nan false
      else if c = 0x7F ∧ !fin then .inf neg
      else let m := codeMag f c; .fin neg m.1 m.2 false

/-- The code of a signed magnitude code; binary8 has no −0 (R33, R35). -/
def signCode (f : Fmt) (neg : Bool) (c : Nat) : Nat :=
  match f.coding with
  | .ieee w => if neg then c + 2 ^ (w - 1) else c
  | .b8 _ _ => if neg ∧ c ≠ 0 then c + 128 else c

/-- The code of an infinity, and NV where the format has none (R35, R44). -/
def infCode (f : Fmt) (neg : Bool) : Nat × Flags :=
  match f.coding with
  | .ieee _ => (signCode f neg (f.maxCode + 1), 0)
  | .b8 uns fin =>
    if uns ∧ neg then (0xFF, fNV)
    else if fin then (signCode f neg f.maxCode, fNV)
    else (signCode f neg (f.maxCode + 1), 0)

/-! ## Rounding (R43, R44, R45) -/

/-- Where an exact value lies above a candidate, in parts of the spacing. -/
inductive Frac where | zero | below | half | above
deriving DecidableEq, Repr

/-- n × 2^e as a multiple of 2^u, rounded down, and where it lies above that. -/
def scaleDown (n : Nat) (e u : Int) (sticky : Bool) : Nat × Frac :=
  if u ≤ e then (n * 2 ^ (e - u).toNat, if sticky then .below else .zero)
  else
    let k := (u - e).toNat
    let r := n % 2 ^ k
    let h := 2 ^ (k - 1)
    (n / 2 ^ k,
      if r < h then (if r = 0 ∧ !sticky then .zero else .below)
      else if r = h ∧ !sticky then .half else .above)

/-- Whether the candidate of larger magnitude is taken (R43); `odd` is bit 0 of the smaller one's encoding. -/
def roundsUp (rm : RMode) (neg odd : Bool) (fr : Frac) : Bool :=
  match rm, fr with
  | _, .zero => false
  | .rne, .below => false | .rne, .half => odd | .rne, .above => true
  | .rna, .below => false | .rna, .half => true | .rna, .above => true
  | .rtz, _ => false
  | .rup, _ => !neg
  | .rdn, _ => neg

/-- The largest magnitude code not above a value, with unbounded exponent, and where the value lies above it. -/
def floorCode (f : Fmt) (n : Nat) (e : Int) (sticky : Bool) : Nat × Frac :=
  let u := max f.q ((bitLen n : Int) + e - f.prec)
  let r := scaleDown n e u sticky
  ((u - f.q).toNat * 2 ^ (f.prec - 1) + r.1, r.2)

/-- R45: the exact value is below the smallest normal. -/
def isTiny (f : Fmt) (n : Nat) (e : Int) : Bool :=
  decide ((bitLen n : Int) + e ≤ f.q + (f.prec - 1 : Nat))

/-- R44: what an overflow delivers. -/
def overflowCode (f : Fmt) (rm : RMode) (neg : Bool) : Nat :=
  let toMax := match f.coding with | .b8 _ true => true | _ => false
  let m := match rm with
    | .rne | .rna => false
    | .rtz => true
    | .rup => neg
    | .rdn => !neg
  signCode f neg (if m || toMax then f.maxCode else f.maxCode + 1)

/-- A chosen magnitude code delivered, with R35 for a negative value in an unsigned format. -/
def deliver (f : Fmt) (neg : Bool) (c : Nat) (fl : Flags) : Nat × Flags :=
  match f.coding with
  | .b8 true _ => if neg then (if c = 0 then (0, fl) else (0xFF, fNV)) else (c, fl)
  | _ => (signCode f neg c, fl)

/-- A finite value rounded to a format (R43, R44, R45). -/
def roundFin (f : Fmt) (rm : RMode) (neg : Bool) (n : Nat) (e : Int) (sticky : Bool) : Nat × Flags :=
  if n = 0 ∧ !sticky then deliver f neg 0 0
  else
    let lo := floorCode f n e sticky
    let c := if roundsUp rm neg (lo.1 % 2 == 1) lo.2 then lo.1 + 1 else lo.1
    let near := rm == .rne || rm == .rna
    let ovf := if near then
        decide (lo.1 > f.maxCode) || (lo.1 == f.maxCode && (lo.2 == .half || lo.2 == .above))
      else decide (c > f.maxCode)
    let unsNeg := neg && (match f.coding with | .b8 u _ => u | _ => false)
    if ovf && !unsNeg then (overflowCode f rm neg, fOF ||| fNX)
    else if ovf then (0xFF, fNV)
    else
      let inexact := lo.2 != .zero
      deliver f neg c (flagIf inexact fNX ||| flagIf (inexact && isTiny f n e) fUF)

/-- RoundTo(f, x, rm) with the flags of the rounding; a signalling NaN raises NV (R45, R49, R50). -/
def roundTo (f : Fmt) (rm : RMode) : Num → Nat × Flags
  | .nan sg => (canonNaN f, flagIf sg fNV)
  | .inf neg => infCode f neg
  | .fin neg n e st => roundFin f rm neg n e st

/-! ## Stochastic rounding (R46 to R48) -/

/-- One step of the generator (R47). -/
def srStep (x : W64) : W64 :=
  let x := x ^^^ (x <<< 13)
  let x := x ^^^ (x >>> 7)
  x ^^^ (x <<< 17)

/-- floor(((n × 2^e − lo × 2^u) ÷ 2^u) × 65536). -/
def srFrac (n : Nat) (e u : Int) (lo : Nat) : Nat :=
  let r := scaleDown n e (u - 16) false
  r.1 - lo * 65536

/-- R47: a value rounded stochastically with the drawn bits x[15:0]. -/
def roundSr (f : Fmt) (x : Nat) : Num → Nat × Flags
  | .nan sg => (canonNaN f, flagIf sg fNV)
  | .inf neg => infCode f neg
  | .fin neg n e st =>
    if n = 0 ∧ !st then deliver f neg 0 0
    else
      let lo0 := floorCode f n e st
      let lo := min lo0.1 f.maxCode
      let m := codeMag f lo
      let fr := srFrac n e m.2 m.1
      let up := decide (x % 65536 < fr)
      let c := if up then lo + 1 else lo
      let exact := !up && lo == lo0.1 && lo0.2 == .zero
      let unsNeg := neg && (match f.coding with | .b8 un _ => un | _ => false)
      if c > f.maxCode && !unsNeg then (overflowCode f .rne neg, fOF ||| fNX)
      else deliver f neg c (flagIf (!exact) fNX ||| flagIf (!exact && isTiny f n e) fUF)

/-! ## Exact arithmetic -/

def isNaN : Num → Bool
  | .nan _ => true
  | _ => false
def isSig : Num → Bool
  | .nan sg => sg
  | _ => false
def isNeg : Num → Bool
  | .nan _ => false
  | .inf s => s
  | .fin s _ _ _ => s
def isZero : Num → Bool
  | .fin _ n _ st => n == 0 && !st
  | _ => false

/-- The sign reversed. -/
def negNum : Num → Num
  | .nan sg => .nan sg
  | .inf s => .inf (!s)
  | .fin s n e st => .fin (!s) n e st

/-- A signed magnitude as an integer multiple of 2^u, for u ≤ e. -/
def scaled (neg : Bool) (n : Nat) (e u : Int) : Int :=
  let m : Int := (n * 2 ^ (e - u).toNat : Nat)
  if neg then -m else m

/-- An integer multiple of 2^u; an exact zero takes the sign given (R30). -/
def ofScaled (x : Int) (u : Int) (zeroNeg : Bool) : Num :=
  if x = 0 then .fin zeroNeg 0 u false else .fin (decide (x < 0)) x.natAbs u false

/-- The result of an operation: a datum, with the flags the operation itself raises. -/
abbrev NumF := Num × Flags

/-- NaN inputs of an operation: the quiet NaN, with NV for a signalling one (R49, R50). -/
def nanOf (xs : List Num) : NumF := (.nan false, flagIf (xs.any isSig) fNV)

/-- a + b, exactly (R30, R45). -/
def addNum (rm : RMode) (a b : Num) : NumF :=
  match a, b with
  | .fin s n e _, .fin s' n' e' _ =>
    let u := min e e'
    let x := scaled s n e u + scaled s' n' e' u
    (ofScaled x u (if s = s' then s else rm == .rdn), 0)
  | .inf s, .inf s' => if s = s' then (.inf s, 0) else (.nan false, fNV)
  | .inf s, .fin _ _ _ _ => (.inf s, 0)
  | .fin _ _ _ _, .inf s => (.inf s, 0)
  | _, _ => nanOf [a, b]

/-- a × b, exactly. -/
def mulNum (a b : Num) : NumF :=
  match a, b with
  | .fin s n e _, .fin s' n' e' _ => (.fin (s != s') (n * n') (e + e') false, 0)
  | .inf s, .inf s' => (.inf (s != s'), 0)
  | .inf s, .fin s' n _ _ => if n = 0 then (.nan false, fNV) else (.inf (s != s'), 0)
  | .fin s n _ _, .inf s' => if n = 0 then (.nan false, fNV) else (.inf (s != s'), 0)
  | _, _ => nanOf [a, b]

/-- a × b + c, exactly; 0 × ∞ is NaN with NV whatever c holds (R143). -/
def fmaNum (rm : RMode) (a b c : Num) : NumF :=
  let p := mulNum a b
  match p.1 with
  | .nan _ => (.nan false, p.2 ||| flagIf (isSig c) fNV)
  | _ => let r := addNum rm p.1 c; (r.1, p.2 ||| r.2)

/-- The exact sum of data: a zero sum of operands of opposite sign is +0, or −0 under RDN (R30, R45, R60). -/
def sumNum (rm : RMode) (l : List Num) : NumF :=
  if l.any isNaN then nanOf l
  else
    let isInf := fun (neg : Bool) (x : Num) => match x with | .inf s => s == neg | _ => false
    if l.any (isInf false) && l.any (isInf true) then (.nan false, fNV)
    else if l.any (isInf false) then (.inf false, 0)
    else if l.any (isInf true) then (.inf true, 0)
    else
      let exps := l.map fun x => match x with | .fin _ _ e _ => e | _ => 0
      let u := exps.foldl min (exps.headD 0)
      let total := l.foldl (fun (y : Int) x => match x with | .fin s n e _ => y + scaled s n e u | _ => y) 0
      let zeroNeg := if l.all isNeg then true else if l.any isNeg then rm == .rdn else false
      (ofScaled total u zeroNeg, 0)

/-- The exact sum of products and an addend; 0 × ∞ is NaN with NV whatever the others hold (R60, R159). -/
def dotNum (rm : RMode) (ps : List (Num × Num)) (c : Num) : NumF :=
  let ms := ps.map fun e => mulNum e.1 e.2
  let r := sumNum rm (ms.map (fun e => e.1) ++ [c])
  (r.1, (ms.foldl (fun f e => f ||| e.2) 0) ||| r.2)

/-- a ÷ b to far more bits than any format holds, with the rest in `sticky` (R45). -/
def divNum (a b : Num) : NumF :=
  match a, b with
  | .fin s n e _, .fin s' n' e' _ =>
    if n' = 0 then (if n = 0 then (.nan false, fNV) else (.inf (s != s'), fDZ))
    else if n = 0 then (.fin (s != s') 0 0 false, 0)
    else
      let k := 128 + bitLen n'
      let m := n * 2 ^ k
      (.fin (s != s') (m / n') (e - e' - k) (m % n' != 0), 0)
  | .inf _, .inf _ => (.nan false, fNV)
  | .inf s, .fin s' _ _ _ => (.inf (s != s'), 0)
  | .fin s _ _ _, .inf s' => (.fin (s != s') 0 0 false, 0)
  | _, _ => nanOf [a, b]

/-- The integer square root, bit by bit from bit k − 1 down. -/
def isqrtFrom (m : Nat) : Nat → Nat → Nat
  | 0, r => r
  | k + 1, r => let r' := r + 2 ^ k; isqrtFrom m k (if r' * r' ≤ m then r' else r)

def isqrt (m : Nat) : Nat := isqrtFrom m ((bitLen m + 1) / 2) 0

/-- √(n × 2^e) to at least 130 bits, with the rest in `sticky`. -/
def sqrtMag (n : Nat) (e : Int) : Nat × Int × Bool :=
  let k : Nat := if (e - 260) % 2 = 0 then 260 else 261
  let m := n * 2 ^ k
  let r := isqrt m
  (r, (e - k) / 2, r * r != m)

/-- √a (R140). -/
def sqrtNum (a : Num) : NumF :=
  match a with
  | .nan _ => nanOf [a]
  | .inf s => if s then (.nan false, fNV) else (a, 0)
  | .fin s n e _ =>
    if n = 0 then (a, 0)
    else if s then (.nan false, fNV)
    else let r := sqrtMag n e; (.fin false r.1 r.2.1 r.2.2, 0)

/-- The order of two data that are not NaN, with −0 equal to +0. -/
def cmpNum (a b : Num) : Ordering :=
  match a, b with
  | .inf s, .inf s' => if s = s' then .eq else if s then .lt else .gt
  | .inf s, _ => if s then .lt else .gt
  | _, .inf s => if s then .gt else .lt
  | .fin s n e _, .fin s' n' e' _ =>
    let u := min e e'
    compare (scaled s n e u) (scaled s' n' e' u)
  | _, _ => .eq

/-- Whether a is less than b, −0 counting as less than +0 (R140). -/
def lessNum (a b : Num) : Bool :=
  match cmpNum a b with
  | .lt => true
  | .gt => false
  | .eq => isNeg a && !isNeg b

def minNum (a b : Num) : NumF :=
  if isNaN a || isNaN b then nanOf [a, b] else (if lessNum b a then b else a, 0)
def maxNum (a b : Num) : NumF :=
  if isNaN a || isNaN b then nanOf [a, b] else (if lessNum a b then b else a, 0)

/-! ## Whole operations on codes -/

/-- An operation's datum rounded to a format. -/
def finishFp (f : Fmt) (rm : RMode) (r : NumF) : Nat × Flags :=
  let x := roundTo f rm r.1; (x.1, r.2 ||| x.2)

def fpAdd (f : Fmt) (rm : RMode) (a b : Nat) : Nat × Flags := finishFp f rm (addNum rm (readFp f a) (readFp f b))
def fpSub (f : Fmt) (rm : RMode) (a b : Nat) : Nat × Flags :=
  finishFp f rm (addNum rm (readFp f a) (negNum (readFp f b)))
def fpMul (f : Fmt) (rm : RMode) (a b : Nat) : Nat × Flags := finishFp f rm (mulNum (readFp f a) (readFp f b))
def fpDiv (f : Fmt) (rm : RMode) (a b : Nat) : Nat × Flags := finishFp f rm (divNum (readFp f a) (readFp f b))
def fpSqrt (f : Fmt) (rm : RMode) (a : Nat) : Nat × Flags := finishFp f rm (sqrtNum (readFp f a))
def fpMin (f : Fmt) (a b : Nat) : Nat × Flags := finishFp f .rne (minNum (readFp f a) (readFp f b))
def fpMax (f : Fmt) (a b : Nat) : Nat × Flags := finishFp f .rne (maxNum (readFp f a) (readFp f b))
/-- a × b + c (R143). -/
def fpFma (f : Fmt) (rm : RMode) (a b c : Nat) : Nat × Flags :=
  finishFp f rm (fmaNum rm (readFp f a) (readFp f b) (readFp f c))
/-- a × b − c (R143). -/
def fpFms (f : Fmt) (rm : RMode) (a b c : Nat) : Nat × Flags :=
  finishFp f rm (fmaNum rm (readFp f a) (readFp f b) (negNum (readFp f c)))
/-- c − a × b (R143). -/
def fpFnma (f : Fmt) (rm : RMode) (a b c : Nat) : Nat × Flags :=
  finishFp f rm (fmaNum rm (negNum (readFp f a)) (readFp f b) (readFp f c))

/-- a with the sign given; a NaN gives the canonical NaN (R140, R151). -/
def fpSetSign (f : Fmt) (neg : Bool) (a : Nat) : Nat × Flags :=
  match readFp f a with
  | .nan sg => (canonNaN f, flagIf sg fNV)
  | x => finishFp f .rne (if isNeg x = neg then x else negNum x, 0)

/-- FSGN (R140). -/
def fpSgn (f : Fmt) (a b : Nat) : Nat × Flags :=
  let w := match f.coding with | .ieee w => w | .b8 _ _ => 8
  let r := fpSetSign f (b.testBit (w - 1)) a
  (r.1, r.2 ||| flagIf (isSig (readFp f b)) fNV)

/-- FCMP (R141). -/
def fpCmp (f : Fmt) (a b : Nat) : Nat × Flags :=
  let x := readFp f a
  let y := readFp f b
  if isNaN x || isNaN y then (8, flagIf (isSig x || isSig y) fNV)
  else match cmpNum x y with | .lt => (1, 0) | .eq => (2, 0) | .gt => (4, 0)

/-- FCLASS (R142). -/
def fpClass (f : Fmt) (a : Nat) : Nat :=
  match readFp f a with
  | .nan sg => if sg then 256 else 512
  | .inf s => if s then 1 else 128
  | .fin s n e _ =>
    if n = 0 then (if s then 8 else 16)
    else if isTiny f n e then (if s then 4 else 32)
    else (if s then 2 else 64)

/-! ## Integers and Q formats -/

/-- A finite value rounded to an integer, and whether that was inexact. -/
def roundMagInt (rm : RMode) (neg : Bool) (n : Nat) (e : Int) (sticky : Bool) : Nat × Bool :=
  let r := scaleDown n e 0 sticky
  (if roundsUp rm neg (r.1 % 2 == 1) r.2 then r.1 + 1 else r.1, r.2 != .zero)

def signInt (neg : Bool) (m : Nat) : Int := if neg then -(m : Int) else m

/-- The range of an integer format (R36). -/
def ifmtRange : IFmt → Int × Int
  | .i8 => (-128, 127) | .i16 => (-32768, 32767) | .i32 => (-2147483648, 2147483647)
  | .i64 => (-9223372036854775808, 9223372036854775807)
  | .n8 => (0, 255) | .n16 => (0, 65535) | .n32 => (0, 4294967295) | .n64 => (0, 18446744073709551615)

/-- The value of the low bits in an integer format. -/
def ifmtRead (f : IFmt) (x : Nat) : Int :=
  let w := f.width
  let y := x % 2 ^ w
  if (ifmtRange f).1 < 0 ∧ y ≥ 2 ^ (w - 1) then (y : Int) - 2 ^ w else y

/-- An integer as the code of w bits. -/
def intCode (w : Nat) (x : Int) : Nat := (x % (2 ^ w : Nat)).toNat

/-- An integer clamped to a range. -/
def clampInt (r : Int × Int) (x : Int) : Int := if x < r.1 then r.1 else if x > r.2 then r.2 else x

/-- Floating point to integer (R52). -/
def numToInt (rm : RMode) (r : Int × Int) : Num → Int × Flags
  | .nan _ => (0, fNV)
  | .inf s => (if s then r.1 else r.2, fNV)
  | .fin s n e st =>
    let m := roundMagInt rm s n e st
    let x := signInt s m.1
    if x < r.1 ∨ x > r.2 then (clampInt r x, fNV) else (x, flagIf m.2 fNX)

/-- Stochastic rounding to an integer (R47). -/
def numToIntSr (d : Nat) (r : Int × Int) : Num → Int × Flags
  | .nan _ => (0, fNV)
  | .inf s => (if s then r.1 else r.2, fNV)
  | .fin s n e st =>
    let lo := scaleDown n e 0 st
    let up := decide (d % 65536 < srFrac n e 0 lo.1)
    let x := signInt s (if up then lo.1 + 1 else lo.1)
    if x < r.1 ∨ x > r.2 then (clampInt r x, fNV) else (x, flagIf (lo.2 != .zero) fNX)

/-- An integer as a datum. -/
def intNum (x : Int) : Num := .fin (decide (x < 0)) x.natAbs 0 false

/-- FRND (R146): the integral value in the same format. -/
def fpRound (f : Fmt) (rm : RMode) (a : Nat) : Nat × Flags :=
  match readFp f a with
  | .fin s n e st =>
    if n = 0 ∨ 0 ≤ e then finishFp f .rne (.fin s n e st, 0)
    else
      let m := roundMagInt rm s n e st
      let r := finishFp f .rne (.fin s m.1 0 false, 0)
      (r.1, flagIf m.2 fNX)
  | x => finishFp f rm (x, 0)

/-- The range of a Q format's codes (R40). -/
def qRange (w : Nat) : Int × Int := (-(2 ^ (w - 1) : Nat), (2 ^ (w - 1) : Nat) - 1)

/-- A W-bit code as a signed integer. -/
def qRead (w : Nat) (x : Nat) : Int :=
  let y := x % 2 ^ w
  if y ≥ 2 ^ (w - 1) then (y : Int) - (2 ^ w : Nat) else y

/-- num ÷ den rounded to an integer, and whether that was inexact. -/
def roundDiv (rm : RMode) (num : Int) (den : Nat) : Int × Bool :=
  let neg := decide (num < 0)
  let m := num.natAbs
  let r := m % den
  let fr : Frac := if r = 0 then .zero else if 2 * r < den then .below else if 2 * r = den then .half else .above
  let lo := m / den
  (signInt neg (if roundsUp rm neg (lo % 2 == 1) fr then lo + 1 else lo), fr != .zero)

/-- R41: round, then saturate. -/
def qSat (w : Nat) (r : Int × Bool) : Int × Flags :=
  let c := clampInt (qRange w) r.1
  (c, flagIf r.2 fNX ||| flagIf (c != r.1) fSAT)

def qMul (w f : Nat) (rm : RMode) (y x : Int) : Int × Flags := qSat w (roundDiv rm (y * x) (2 ^ f))

/-- R42, R164. -/
def qDiv (w f : Nat) (rm : RMode) (y x : Int) : Int × Flags :=
  if x = 0 then (if y > 0 then (qRange w).2 else if y < 0 then (qRange w).1 else 0, fDZ)
  else qSat w (roundDiv rm (if x < 0 then -(y * 2 ^ f) else y * 2 ^ f) x.natAbs)

/-- The integer nearest to √m under a rounding mode, and whether that was inexact. -/
def roundSqrt (rm : RMode) (m : Nat) : Int × Bool :=
  if m = 0 then (0, false)
  else let r := sqrtMag m 0; let x := roundMagInt rm false r.1 r.2.1 r.2.2; (x.1, x.2)

def qSqrt (w f : Nat) (rm : RMode) (x : Int) : Int × Flags :=
  if x < 0 then (0, fNV) else qSat w (roundSqrt rm (x.natAbs * 2 ^ f))

/-! ## Reductions at a target (R123, R124) -/

/-- An integer reduction of w bits: ADD wraps, MIN and MAX are signed. -/
def redInt (op : RedOp) (w : Nat) (old v : BitVec w) : BitVec w :=
  match op with
  | .add => old + v
  | .min => if old.slt v then old else v
  | .max => if old.slt v then v else old

/-- AMO's operations. -/
def amoInt (op : AmoOp) (w : Nat) (old v : BitVec w) : BitVec w :=
  match op with
  | .add => old + v
  | .and => old &&& v
  | .or => old ||| v
  | .xor => old ^^^ v
  | .min => if old.slt v then old else v
  | .max => if old.slt v then v else old
  | .minu => if old.ult v then old else v
  | .maxu => if old.ult v then v else old

def afmt : AFmt → Fmt
  | .fp32 => fmtFp32 | .bf16 => fmtBf16
def afmtBytes : AFmt → Nat
  | .fp32 => 4 | .bf16 => 2
def asizeBytes : ASize → Nat
  | .w => 4 | .d => 8

/-- A floating-point reduction, rounded to nearest even, with its flags. -/
def redFp (op : RedOp) (f : AFmt) (old v : Nat) : Nat × Flags :=
  match op with
  | .add => fpAdd (afmt f) .rne old v
  | .min => fpMin (afmt f) old v
  | .max => fpMax (afmt f) old v

/-- T(x) of a write with norm, for an FP32 code and the exponent scale E (R383). -/
def normTerm (e : Int) (x : Nat) : Int :=
  match readFp fmtFp32 x with
  | .fin _ n k _ =>
    let m := roundMagInt .rne false (n * n) (2 * k - e) false
    min (2 ^ 100) (m.1 : Int)
  | _ => 2 ^ 100

end Sys2Proof.Machine
end

