-- ==== Sys2Proof/Machine/GangFmt.lean ====
section
/-!
DEFINITION. The gang format codes (R234) and the pairs of formats that a cell accepts (R235).
-/
namespace Sys2Proof.Machine

/-- A format that a gang or tile operand may have (R234). -/
inductive GFmt where
  | fp (f : FFmt)
  | b8 (v : B8)
  | i8 | i4 | l4 | q
deriving DecidableEq, Repr

/-- A binary8 variant from its code (R31); PM1 = 111 is reserved. -/
def b8Of (v : Nat) : Option B8 :=
  if h : v % 8 < 7 then some ⟨⟨v % 8, h⟩, v / 8 % 2 == 1, v / 16 % 2 == 1⟩ else none

/-- The format of a 6-bit code; none when it is not assigned. -/
def gfmtOf (code : Nat) : Option GFmt :=
  if code ≥ 32 then (b8Of (code % 32)).map .b8
  else match code with
    | 0 => some (.fp .fp64) | 1 => some (.fp .fp32) | 2 => some (.fp .bf16) | 3 => some (.fp .fp16)
    | 4 => some .i8 | 5 => some .i4 | 6 => some .l4 | 7 => some .q
    | _ => none

/-- The accumulator of a cell (R235). -/
inductive AccFmt where | fp64 | fp32 | i32
deriving DecidableEq, Repr

/-- A pair's RM, CN and accumulator (R235). -/
structure PairShape where
  rm : Nat
  cn : Nat
  acc : AccFmt
deriving DecidableEq, Repr

/-- R235, R56: the shape of a pair of formats; none when it is not legal. -/
def pairOf : GFmt → GFmt → Option PairShape
  | .fp .fp64, .fp .fp64 => some ⟨4, 4, .fp64⟩
  | .fp .fp32, .fp .fp32 => some ⟨4, 4, .fp32⟩
  | .fp .bf16, .fp .bf16 | .fp .bf16, .fp .fp16 | .fp .fp16, .fp .bf16 | .fp .fp16, .fp .fp16 => some ⟨8, 8, .fp32⟩
  | .b8 _, .b8 _ => some ⟨16, 8, .fp32⟩
  | .i8, .i8 => some ⟨16, 8, .i32⟩
  | .b8 _, .i4 | .b8 _, .l4 => some ⟨16, 8, .fp32⟩
  | .i8, .i4 => some ⟨16, 8, .i32⟩
  | .fp .bf16, .i4 | .fp .bf16, .l4 => some ⟨8, 8, .fp32⟩
  | _, _ => none

/-- Bits of an element (R236, R37). -/
def gfmtBits : GFmt → Nat
  | .fp .fp64 => 64 | .fp .fp32 => 32 | .fp .bf16 | .fp .fp16 => 16
  | .b8 _ | .i8 => 8
  | .i4 | .l4 => 4
  | .q => 64

end Sys2Proof.Machine
end

