-- ==== Sys2Proof/Config.lean ====
section
/-!
DEFINITION. What an implementation fixes and the spec leaves open: free values. None has a body, so nothing can be
proved of a particular value. `n` is State.freeCtr, which every step advances, so that two steps need not agree.
-/
namespace Sys2Proof.Config

/-- A byte of a line read under another key than the one it was written with (R473). -/
opaque wrongKeyByte : Nat → Nat → Byte
/-- d[7:0] of a WAITGE on a command outside the retained window (R360). -/
opaque staleOutcome : Nat → Byte
/-- POS[63:56] of the message of a COPY packet's translation fault (R349, R466). -/
opaque packetContext : Nat → Byte
/-- QSTAT.CAUSE of a queue whose job is killed by the teardown of its partition (R468, R474). -/
opaque teardownCause : Nat → Byte
/-- A per-bond CSR read by a strand that belongs to no bond (R201, R368, R413). -/
opaque noBondCsr : Nat → W64
/-- SHA-512 of a measurement register and the value that extends it (R476). -/
opaque extend : W512 → Nat → W512
/-- What measurement register 1 is extended by: the configuration (R476). -/
opaque configuration : Nat → Nat
/-- The identity that the device block shows (R460). -/
opaque identity : W64
/-- Whether an image carries a valid signature under the fused key (R475). -/
opaque imageSigned : Nat → Bool
/-- The signature of an attestation report over a nonce and the measurement registers (R476). -/
opaque signReport : Nat → Vector W512 8 → W512

end Sys2Proof.Config
end

