-- ==== Sys2Proof/Machine/Base.lean ====
section
/-!
DEFINITION. Reading and changing the records of the state; the geometry of cores, clusters and dies; scopes.
-/
namespace Sys2Proof.Machine

/-! ## Records -/

def coreOf (s : State) (c : CoreId) : Core := mapGet Core.reset s.cores c
def setCore (s : State) (c : CoreId) (k : Core) : State := { s with cores := mapSet c k s.cores }
def modCore (s : State) (c : CoreId) (f : Core → Core) : State := setCore s c (f (coreOf s c))

def strandAt (s : State) (c : CoreId) (i : Slot) : Strand := (coreOf s c).slots[i]
def modStrand (s : State) (c : CoreId) (i : Slot) (f : Strand → Strand) : State :=
  modCore s c fun k => { k with slots := k.slots.set i (f k.slots[i]) }

/-- The issuing strand. -/
def me (s : State) : Strand := strandAt s s.cur s.slot
def modMe (s : State) (f : Strand → Strand) : State := modStrand s s.cur s.slot f

def clusterOf (s : State) (cl : Nat) : Cluster := mapGet Cluster.reset s.clusters cl
def modCluster (s : State) (cl : Nat) (f : Cluster → Cluster) : State :=
  { s with clusters := mapSet cl (f (clusterOf s cl)) s.clusters }

def jobOf (s : State) (j : Nat) : Job := mapGet Job.reset s.jobs j
def modJob (s : State) (j : Nat) (f : Job → Job) : State := { s with jobs := mapSet j (f (jobOf s j)) s.jobs }

def queueOf (s : State) (q : Nat) : Queue := mapGet Queue.reset s.queues q
def modQueue (s : State) (q : Nat) (f : Queue → Queue) : State :=
  { s with queues := mapSet q (f (queueOf s q)) s.queues }

def partOf (s : State) (p : Nat) : Partition := mapGet Partition.free s.parts p
def modPart (s : State) (p : Nat) (f : Partition → Partition) : State :=
  { s with parts := mapSet p (f (partOf s p)) s.parts }

def modBond (s : State) (b : Nat) (f : Bond → Bond) : State :=
  match mapFind s.bonds b with
  | some x => { s with bonds := mapSet b (f x) s.bonds }
  | none => s

def modDie (s : State) (d : Fin 4) (f : Die → Die) : State := { s with dies := s.dies.set d (f s.dies[d]) }

def modStream (s : State) (c : CoreId) (n : StreamId) (f : Stream → Stream) : State :=
  modCore s c fun k => { k with streams := k.streams.set n (f k.streams[n]) }

def modTicket (s : State) (c : CoreId) (i : Fin 4) (f : Ticket → Ticket) : State :=
  modCore s c fun k => { k with tickets := k.tickets.set i (f k.tickets[i]) }

/-- The context that an exchange engine keeps for a partition (R337, R423, R451). -/
def exchangeOf (part e : Nat) : Nat := 32 * part + e

/-- A copy channel: the two of a core, and for channel 2 the exchange engine's context numbered `c` (R334, R451). -/
def chanOf (s : State) (c : CoreId) (ch : Fin 3) : Channel :=
  if h : ch.val < 2 then (coreOf s c).chans[ch.val] else mapGet ⟨Timeline.zero, []⟩ s.exchange c

def modChan (s : State) (c : CoreId) (ch : Fin 3) (f : Channel → Channel) : State :=
  if h : ch.val < 2 then modCore s c fun k => { k with chans := k.chans.set ch.val (f k.chans[ch.val]) }
  else { s with exchange := mapSet c (f (chanOf s c ch)) s.exchange }

/-! ## Geometry (R20, R275, R276, R431) -/

def coreCount : Nat := 20480
def coreX (c : CoreId) : Nat := c % 128
def coreY (c : CoreId) : Nat := c / 128
def coreAt (x y : Nat) : CoreId := y * 128 + x
/-- (x << 16) | y. -/
def xyWord (c : CoreId) : W64 := BitVec.ofNat 64 (coreX c * 65536 + coreY c)
/-- The core that (x << 16) | y names. -/
def coreOfXy (w : Nat) : CoreId := coreAt (w / 65536 % 128) (w % 256)
/-- R275: the cluster's index. -/
def clusterIdx (c : CoreId) : Nat := coreY c / 8 * 16 + coreX c / 8
/-- R276: the north-west core of a cluster. -/
def keystone (cl : Nat) : CoreId := coreAt (cl % 16 * 8) (cl / 16 * 8)
/-- The core at cluster-local position s, row by row (R275). -/
def clusterCore (cl i : Nat) : CoreId := coreAt (cl % 16 * 8 + i % 8) (cl / 16 * 8 + i / 8)
/-- R431: the die of a core. -/
def dieNum (c : CoreId) : Nat := (if coreX c ≥ 64 then 1 else 0) + (if coreY c ≥ 80 then 2 else 0)
def dieOf (c : CoreId) : Fin 4 := Fin.ofNat 4 (dieNum c)
/-- The die a cluster lies on. -/
def clusterDie (cl : Nat) : Fin 4 := dieOf (keystone cl)

/-- The 64 cores of a cluster, row by row. -/
def clusterCores (cl : Nat) : List CoreId := (List.range 64).map (clusterCore cl)

/-- The physical links as numbers: north 0, east 1, south 2, west 3 (R18). -/
def portNum : Port → Nat
  | .n => 0 | .e => 1 | .s => 2 | .w => 3
def portOf (n : Nat) : Port := match n % 4 with | 0 => .n | 1 => .e | 2 => .s | _ => .w
def portFin : Port → Fin 4
  | .n => 0 | .e => 1 | .s => 2 | .w => 3
/-- The link that faces it. -/
def opposite : Port → Port
  | .n => .s | .e => .w | .s => .n | .w => .e

/-- R18: the physical link that a port name reaches under ORIENT. -/
def linkOf (orient : W64) (p : Port) : Port :=
  let m := if bit orient 2 then (4 - portNum p) % 4 else portNum p
  portOf (m + bits orient 1 0)

/-- The neighbour beyond a physical link, if the package goes on there. -/
def neighbour (c : CoreId) (l : Port) : Option CoreId :=
  let x := coreX c
  let y := coreY c
  match l with
  | .n => if y = 0 then none else some (coreAt x (y - 1))
  | .e => if x = 127 then none else some (coreAt (x + 1) y)
  | .s => if y = 159 then none else some (coreAt x (y + 1))
  | .w => if x = 0 then none else some (coreAt (x - 1) y)

/-- Whether the link crosses a die seam (R441). -/
def crossesSeam (c : CoreId) (l : Port) : Bool :=
  match neighbour c l with
  | some n => dieNum n != dieNum c
  | none => false

/-- Flags raised into the CFU of a core's cluster (R21, R259, R370). -/
def raiseFlags (s : State) (c : CoreId) (f : BitVec 6) : State :=
  modCluster s (clusterIdx c) fun l => { l with
    cfu := l.cfu ||| f.setWidth 64, raised := mapSet (3 * c) (mapGet 0 l.raised (3 * c) ||| f) l.raised }

/-- The core's issue in a cycle begins: what its strands have raised since its last one, by answers and thaws, was raised in
this cycle and before the instruction (R21). -/
def openRaised (s : State) (c : CoreId) : State :=
  let l := clusterOf s (clusterIdx c)
  if mapGet 0 l.raised (3 * c) = 0 && mapGet 0 l.raised (3 * c + 1) = 0 && mapGet 0 l.raised (3 * c + 2) = 0 then s
  else modCluster s (clusterIdx c) fun l => { l with
    raised := mapSet (3 * c + 1) (mapGet 0 l.raised (3 * c)) (mapErase (3 * c + 2) (mapErase (3 * c) l.raised)) }

/-- The core's issue ends: what is raised since it began was raised by the instruction. -/
def closeRaised (s : State) (c : CoreId) : State :=
  let l := clusterOf s (clusterIdx c)
  if mapGet 0 l.raised (3 * c) = 0 then s
  else modCluster s (clusterIdx c) fun l => { l with
    raised := mapSet (3 * c + 2) (mapGet 0 l.raised (3 * c)) (mapErase (3 * c) l.raised) }

/-- A CSRC of CFU by a strand of a core: a flag that a strand raises in the same cycle is set after it (R21). -/
def clearFlags (s : State) (c : CoreId) (a : W64) : State :=
  modCluster s (clusterIdx c) fun l => { l with
    cfu := (l.cfu &&& ~~~a)
      ||| (l.raised.filter fun e => e.1 != 3 * c).foldl (fun x e => x ||| e.2.setWidth 64) 0 }

/-! ## Scopes (R301) -/

/-- Whether an observer lies in the instance of a scope around core c: an engine of the package in every .PK instance,
the host and the peers in those of .SY alone (R301). -/
def inScope (sc : Scope) (c : CoreId) (r : Reader) : Bool :=
  match r with
  | .core d => (match sc with
    | .cr => d == c
    | .cl => clusterIdx d == clusterIdx c
    | .di => dieNum d == dieNum c
    | .pk | .sy => true)
  | .engine => sc == .pk || sc == .sy
  | .outside => sc == .sy

def scopeNum : Scope → Nat
  | .cr => 0 | .cl => 1 | .di => 2 | .pk => 3 | .sy => 4

/-- The narrowest scope around core c that contains core d (R215). -/
def scopeBetween (c d : CoreId) : Scope :=
  if d = c then .cr else if clusterIdx d = clusterIdx c then .cl else if dieNum d = dieNum c then .di else .pk

/-- The narrowest scope whose instance around c contains every reader (R315). -/
def neededScope (c : CoreId) (rs : List Reader) : Scope :=
  if rs.all (inScope .cr c) then .cr else if rs.all (inScope .cl c) then .cl
  else if rs.all (inScope .di c) then .di else if rs.all (inScope .pk c) then .pk else .sy

/-! ## Bonds and partitions -/

/-- Whether a core lies in a bond's clusters. -/
def inBond (s : State) (b : Option Nat) (c : CoreId) : Bool :=
  match b with
  | none => false
  | some n => (clusterOf s (clusterIdx c)).bond == some n && decide (c < coreCount)

/-- The clusters of a bond's rectangle, in index order. -/
def bondClusters (b : Bond) : List Nat :=
  (List.range b.ch).flatMap fun j => (List.range b.cw).map fun i => (b.cy + j) * 16 + (b.cx + i)

/-- R217: the bond's cores on the dies of a mask, by die number, then y, then x. -/
def bondCores (b : Bond) (dmask : BitVec 4) : List CoreId :=
  (List.range 4).flatMap fun d => if bit dmask d then
    (List.range (b.ch * 8)).flatMap fun j =>
      ((List.range (b.cw * 8)).map fun i => coreAt (b.cx * 8 + i) (b.cy * 8 + j)).filter fun c => dieNum c == d
  else []

/-- All occupied slots of a core with their strands. -/
def coreStrands (k : Core) : List (Slot × Strand) :=
  ((List.finRange 8).map fun i => (i, k.slots[i])).filter fun e => e.2.occ

/-- The core and slot of a live strand. -/
def findUid (s : State) (uid : Nat) : Option (CoreId × Slot) :=
  (s.cores.findSome? fun e =>
    ((coreStrands e.2).find? fun t => t.2.uid == uid).map fun t => (e.1, t.1))

/-- Plumb time at a core's die (R444). -/
def plumbAt (s : State) (c : CoreId) : W64 := s.plumb[dieNum c]?.getD 0

end Sys2Proof.Machine
end

