-- ==== Sys2Proof/Machine/Mem.lean ====
section
/-!
DEFINITION. Homes, requests, the outbound store queue, return-free reductions, release tags and what a release waits
for (10_memory_and_translation.md, 11_consistency.md, 18_dies_and_package.md). A location below 2^48 is a physical
address of R287 or of a peer (R290); the slices lie above it, and above them the flash of each partition (R472).
-/
namespace Sys2Proof.Machine

/-- Flags of an instruction (R17): an enabled one traps; the others join FCSR and the cluster's CFU (R21). -/
def addFlags (s : State) (c : CoreId) (i : Slot) (fl : Flags) : State :=
  if fl = 0 then s
  else
    raiseFlags (modStrand s c i fun t => { t with fcsr := t.fcsr ||| (fl.setWidth 64 <<< 4) }) c fl

/-! ## Locations -/

def sliceBase : Nat := 2 ^ 48
def sliceLoc (c : CoreId) (off : Nat) : Nat := sliceBase + c * 65536 + off
def isSlice (loc : Nat) : Bool := decide (sliceBase ≤ loc) && decide (loc < sliceBase + 2 ^ 40)
/-- The core whose slice holds a location. -/
def sliceCore (loc : Nat) : CoreId := (loc - sliceBase) / 65536
/-- PA[47:40]: 0 is this device, 0xFE flash, 0xFF the host (R290, R471). -/
def nodeOf (loc : Nat) : Nat := if isSlice loc then 0 else loc / 2 ^ 40 % 256
/-- The aligned 8-byte word of a location. -/
def wordOf (loc : Nat) : Nat := loc / 8 * 8
/-- R287: the die of a local stack location. -/
def homeDie (loc : Nat) : Fin 4 := Fin.ofNat 4 (loc / 2 ^ 36 % 16 / 3)

/-! ## A word at its home -/

/-- Whether the line of a word can be read under a key binding (R473); slices and foreign memory are not encrypted here. -/
def keyFits (s : State) (word key : Nat) : Bool :=
  isSlice word || nodeOf word != 0 ||
    (let j := mapGet 0 s.lineKey (word / 128); j == 0 || j == key)

/-- The bytes a read of a line under another key delivers (R473). -/
def wrongKeyWord (s : State) (word : Nat) : W64 :=
  ofBytes 64 ((List.range 8).map fun i => Config.wrongKeyByte s.freeCtr (word + i))

/-- The word at a home, and whether it is poisoned (R288). -/
def homeWord (s : State) (word key : Nat) : W64 × Bool :=
  (if keyFits s word key then memWord 64 s.mem word 8 else wrongKeyWord s word, s.poison.contains (word / 8))

/-- A write under a key takes the whole line to that key: the bytes it leaves become what they read as (R473). -/
def rekey (s : State) (word key : Nat) : State :=
  if isSlice word || nodeOf word != 0 then s
  else
    let s' := { s with lineKey := mapSet (word / 128) key s.lineKey }
    if keyFits s word key then s'
    else
      let base := word / 128 * 128
      let fill := fun m i => memSet (base + i) (Config.wrongKeyByte s.freeCtr (base + i)) m
      { s' with mem := (List.range 128).foldl fill s.mem }

/-- Bytes of a word written at its home; a write of all eight clears its poison (R288). -/
def putWord (s : State) (word key : Nat) (mask : BitVec 8) (val : W64) : State :=
  let s := rekey s word key
  { s with
    mem := memPut s.mem word mask val 8
    poison := if mask = 0xFF then setDel (word / 8) s.poison else s.poison }

/-- A poisoned word (R420, R421). -/
def poisonWord (s : State) (word : Nat) : State := { s with poison := setAdd (word / 8) s.poison }

def isPresent (s : State) (word : Nat) : Bool := s.present.contains (word / 8)
def setPresent (s : State) (word : Nat) : State := { s with present := setAdd (word / 8) s.present }
def clearPresent (s : State) (word : Nat) : State := { s with present := setDel (word / 8) s.present }

/-! ## Release tags and scope misses (R314, R315) -/

def tagOf (s : State) (word : Nat) : Option Tag := s.tags.find? fun t => t.word == word

/-- A strand whose operation at a port waits for a withheld word tries it again. -/
def unpark (word : Nat) (t : Strand) : Strand := if t.wait = .withheld word then { t with wait := .none } else t

/-- The strands that wait for a withheld word try again. -/
def unparkWord (s : State) (word : Nat) : State :=
  { s with cores := s.cores.map fun e => (e.1, { e.2 with slots := e.2.slots.map (unpark word) }) }

/-- A strand whose write of SMREL waits on a miss that has ended tries it again. -/
def dropWiden (gone : List Miss) (t : Strand) : Strand :=
  match t.wait with
  | .widen k => if gone.any fun m => m.token == k then { t with wait := .none } else t
  | _ => t

/-- The tag of a word replaced or removed; misses of the old tag end, and what waits for it tries again
(R314, R315, R317). -/
def setTag (s : State) (word : Nat) (t : Option Tag) : State :=
  match tagOf s word, t with
  | none, none => s
  | _, t => unparkWord { s with
      tags := (s.tags.filter fun x => x.word != word) ++ (match t with
        | some x => if x.scope = .sy then [] else [x]
        | none => [])
      misses := s.misses.filter fun m => m.word != word
      cores := s.cores.map fun e => (e.1, { e.2 with
        slots := e.2.slots.map (dropWiden (s.misses.filter fun m => m.word == word)) }) } word

/-- Whether a word's tag lets a reader read it (R315). -/
def tagReadable (s : State) (r : Reader) (word : Nat) : Bool :=
  match tagOf s word with
  | none => true
  | some t => inScope t.scope t.core r

/-- Location and key of a byte of a footing command's translated range. -/
def footPlace (pages : Map (Nat × Nat × Nat)) (va : Nat) : Nat × Nat :=
  let r := mapGet (0, 0, 0) pages (va / 65536)
  (r.1 + va % 65536, r.2.1)

/-- Whether a footing command has read elements of a 128-byte line whose new values it has not written yet. -/
def footHolds (m : FootCmd) (line : Nat) : Bool :=
  match m.pages with
  | some l => m.puts.any fun x => (footPlace l x.va).1 / 128 == line
  | none => false

/-- Whether the cache holds accesses to a word's line back until a footing unit has performed there (R288). -/
def footHeld (s : State) (word : Nat) : Bool := s.cores.any fun e => e.2.foot.cmds.any fun m => footHolds m (word / 128)

/-- Whether the home serves a reader now (R288, R315). -/
def readable (s : State) (r : Reader) (word : Nat) : Bool := tagReadable s r word && !footHeld s word

/-- ORDSTAT (R319): the 16-bit counter at a bit of a core's register counts one more. -/
def countMiss (s : State) (c : CoreId) (lo : Nat) : State :=
  modCore s c fun k => { k with ordstat := putBits k.ordstat lo 16 (bits k.ordstat (lo + 15) lo + 1) }

/-- A scope-miss message for a tag leaves, with the narrowest scope that holds its parked readers (R315). -/
def sendMiss (s : State) (t : Tag) (rs : List Reader) : State :=
  let token := BitVec.ofNat 64 s.nextSeq
  { s with
    nextSeq := s.nextSeq + 1
    misses := s.misses ++ [⟨token, t.word, t.id, neededScope t.core rs, rs, false, false⟩]
    net := s.net ++ [⟨t.core, 0, .scopeMiss t.core token, 0, false, false, none⟩] }

/-- R315: a read of a tagged word from outside the tag's scope instance is parked; the first sends a scope-miss message, and
later ones join it. -/
def parkMiss (s : State) (r : Reader) (word : Nat) : State :=
  match tagOf s word with
  | none => s
  | some t =>
    if inScope t.scope t.core r then s
    else if s.misses.any (fun m => m.tagId == t.id && m.word == word) then
      { s with misses := s.misses.map fun m =>
          if m.tagId = t.id ∧ m.word = word ∧ ¬ m.readers.contains r then { m with readers := m.readers ++ [r] } else m }
    else sendMiss s t [r]

/-! ## Requests of strands -/

/-- The bytes of a word that the entries of a store queue hold, over a base value. -/
def overlayVal (es : List StoreEntry) (base : W64) : W64 :=
  es.foldl (fun x e => (List.range 8).foldl (fun y i => if bit e.mask i then setLane y 8 i (byteAt e.val i) else y) x) base
/-- Whether a word is poisoned under those entries: a whole word brings its own poison, a part adds its (R288, R421). -/
def overlayPoison (es : List StoreEntry) (base : Bool) : Bool :=
  es.foldl (fun b e => if e.mask = 0xFF then e.poison else b || e.poison) base
def overlayMask (es : List StoreEntry) : BitVec 8 := es.foldl (fun m e => m ||| e.mask) 0

/-- The bytes [off + n − 1 : off] of a word as a mask. -/
def byteMask (off n : Nat) : BitVec 8 := BitVec.ofNat 8 ((2 ^ n - 1) * 2 ^ off)

/-- Whether the higher part of a straddling store still waits for its lower part (R306). -/
def waitsLower (all : List StoreEntry) (e : StoreEntry) : Bool :=
  match e.after with
  | some q => all.any fun b => b.seq == q && b.uid == e.uid && b.after.isNone
  | none => false

/-- Whether an entry is performed at no scope yet, .CR included: it is the higher part of a straddling store whose lower
part is on its way, or its strand's later store to that word (R303, R306). It has no place in the word's order yet. -/
def hiddenStore (all : List StoreEntry) (e : StoreEntry) : Bool :=
  all.any fun b => b.uid == e.uid && b.word == e.word && b.seq ≤ e.seq && waitsLower all b

/-- Entries taken from a store queue; those that come into sight by it take their place at the end (R306). -/
def dropStores (gone : StoreEntry → Bool) (all : List StoreEntry) : List StoreEntry :=
  let left := all.filter fun e => !gone e
  let shown := fun e => hiddenStore all e && !hiddenStore left e
  left.filter (fun e => !shown e) ++ left.filter shown

/-- The entries of a core's store queue that an observer of the core with an identity reads before a place in issue order,
in coherence order: what is in sight, then its own that are not (R302, R304, R306). -/
def seenStores (s : State) (c : CoreId) (uid seq word : Nat) : List StoreEntry :=
  let all := (coreOf s c).stores
  let es := all.filter fun e => e.word == word && (e.uid != uid || e.seq < seq)
  es.filter (fun e => !hiddenStore all e) ++ es.filter fun e => hiddenStore all e && e.uid == uid

/-- What a load of a strand of core c reads of a word (R302, R304): its home, under the entries of the core's store
queue that precede the load; nothing when the home withholds it (R315). -/
def strandWord (s : State) (c : CoreId) (uid seq word key : Nat) (need : BitVec 8) : Option (W64 × Bool) :=
  let es := seenStores s c uid seq word
  let m := overlayMask es
  if need &&& ~~~m = 0 then some (overlayVal es 0, overlayPoison es false)
  else if readable s (.core c) word then
    let h := homeWord s word key
    some (overlayVal es h.1, overlayPoison es h.2)
  else none

/-- Bytes off to off + n − 1 of a word. -/
def subWord (w : W64) (off n : Nat) : W64 := (w >>> (8 * off)).setWidth (8 * n) |>.setWidth 64

/-- What an indivisible read-modify-write stores, if anything, and the flags it raises (R123, R124). -/
def rmwVal (k : ReqKind) (n : Nat) (old : W64) : Option W64 × Flags :=
  let w := 8 * n
  match k with
  | .amo op v => (some ((amoInt op w (old.setWidth w) (v.setWidth w)).setWidth 64), 0)
  | .cas x v => (if old.setWidth w = x.setWidth w then some v else none, 0)
  | .xchg v => (some v, 0)
  | .famo op f v => let r := redFp op f (old.toNat % 2 ^ w) (v.toNat % 2 ^ w); (some (BitVec.ofNat 64 r.1), r.2)
  | .load | .presence | .clear | .gen _ => (none, 0)

/-- GEN has passed a value by serial comparison (R361). -/
def genPassed (gen b : W32) : Bool :=
  let x := (gen - b).toNat
  decide (1 ≤ x) && decide (x < 2 ^ 31)

/-- The bond of a strand that lives on a core. -/
def bondOfUid (s : State) (c : CoreId) (uid : Nat) : Option Nat :=
  match (coreStrands (coreOf s c)).find? fun t => t.2.uid == uid with
  | some t => t.2.bond
  | none => (clusterOf s (clusterIdx c)).bond

/-- The tag that a release of strand uid at core c leaves (R314). -/
def releaseTag (s : State) (c : CoreId) (slot : Slot) (uid seq word : Nat) (sc : Scope) : Tag :=
  ⟨word, sc, c, slot, uid, bondOfUid s c uid, seq⟩

/-- n bytes written at a location. -/
def putBytes (s : State) (loc key n : Nat) (val : W64) : State :=
  putWord s (wordOf loc) key (byteMask (loc % 8) n) (val <<< (8 * (loc % 8)))

/-- Requests from other cores that are parked at a slice port (R283). -/
def parkedAt (s : State) (target : CoreId) : Nat :=
  (s.cores.filter fun e => e.1 != target).foldl (fun n e =>
    (coreStrands e.2).foldl (fun n t => n + (t.2.inflight.filter fun p =>
      p.park != 0 && p.parts.any fun q => q.got.isNone && isSlice q.loc && sliceCore q.loc == target).length) n) 0

/-- A request joins the order of waiting, unless it comes from another core and 16 are parked (R283). -/
def parkReq (s : State) (c : CoreId) (p : Pending) (loc : Nat) : Pending × State :=
  if p.park ≠ 0 then (p, s)
  else if isSlice loc && sliceCore loc != c && decide (parkedAt s (sliceCore loc) ≥ 16) then (p, s)
  else ({ p with park := s.nextSeq }, { s with nextSeq := s.nextSeq + 1 })

/-- The bytes a part asks for, as a mask of its word. -/
def partMask (q : Part) : BitVec 8 := byteMask (q.loc % 8) q.n

/-! ### What comes before an access (R303, R306, R308, R470) -/

/-- Whether a load that a strand issued before `seq` has not read a word yet: later accesses to the word wait (R303). -/
def olderRead (s : State) (c : CoreId) (uid seq word : Nat) : Bool :=
  (coreStrands (coreOf s c)).any fun t => t.2.uid == uid && t.2.inflight.any fun p =>
    p.seq < seq && p.parts.any fun q => q.got.isNone && wordOf q.loc == word

/-- Whether a return-free reduction that a strand issued to a word before `seq` has not been performed at its home; on a
reduction page the home sees it only by a merge (R303, R439). -/
def olderRed (s : State) (c : CoreId) (uid seq word : Nat) : Bool :=
  (coreOf s c).reds.any fun x => wordOf x.loc == word && x.uid == uid && x.seq < seq && !x.performed && !x.rp

/-- Whether the core's store queue holds an entry to a word that an operation at the home must follow: any that the
strand may have read, and its own earlier ones (R303). -/
def queuedStore (s : State) (c : CoreId) (uid seq word : Nat) : Bool :=
  let all := (coreOf s c).stores
  all.any fun e => e.word == word && (if e.uid = uid then decide (e.seq < seq) else !hiddenStore all e)

/-- Whether an access is to a peer page that begins at a location. -/
def onPage (m : LeaseMark) (page : Nat) : Bool := match m with | some x => x.1 == page | none => false

/-- The core's accesses to one peer page keep their issue order (R470). -/
def peerTurn (s : State) (c : CoreId) (seq : Nat) (m : LeaseMark) : Bool :=
  match m with
  | none => true
  | some (page, _) =>
    let k := coreOf s c
    !(k.stores.any fun e => e.token.isNone && decide (e.seq < seq) && onPage e.lease page)
    && !(k.reds.any fun r => r.token.isNone && !r.performed && decide (r.seq < seq) && onPage r.lease page)
    && !((coreStrands k).any fun t => t.2.inflight.any fun p =>
      decide (p.seq < seq) && !p.rejected && !p.again && p.parts.any fun q => q.got.isNone && onPage q.lease page)

/-- Whether an access carries a lease epoch that the peer has revoked (R299). -/
def epochRevoked (s : State) (loc : Nat) (m : LeaseMark) : Bool :=
  match m with
  | none => false
  | some (_, e) => s.revoked.contains (nodeOf loc, e)

/-- Whether part j of a request may be performed: the strand's earlier accesses to the word come first (R303), the parts
of a straddling access go in address order (R306), and those to a peer page in issue order (R470). The words of one such
part, which have no order among them (R305), go in that order too (log 124). -/
def partTurn (s : State) (c : CoreId) (uid : Nat) (p : Pending) (j : Nat) (q : Part) : Bool :=
  !olderRead s c uid p.seq (wordOf q.loc) && !olderRed s c uid p.seq (wordOf q.loc)
  && (!p.ordered || (p.parts.take j).all fun x => x.got.isSome) && peerTurn s c p.seq q.lease

/-- Part j answered with a word. -/
def takePart (p : Pending) (j : Nat) (q : Part) (r : W64 × Bool) : Pending :=
  { p with parts := p.parts.set j { q with got := some r }, park := 0 }

/-- A part that reads its word, or parks while the home withholds it (R315). -/
def readPart (s : State) (c : CoreId) (uid : Nat) (p : Pending) (j : Nat) (q : Part) : Pending × State :=
  match strandWord s c uid p.seq (wordOf q.loc) q.key (partMask q) with
  | some r => (takePart p j q r, s)
  | none => let r := parkReq s c p q.loc; (r.1, parkMiss r.2 (.core c) (wordOf q.loc))

/-- A part that reads an arrival word at its port once GEN has passed a value, and waits there until then (R361). -/
def genPart (s : State) (c : CoreId) (uid : Nat) (p : Pending) (j : Nat) (q : Part) (b : W32) : Pending × State :=
  let word := wordOf q.loc
  let h := homeWord s word q.key
  if queuedStore s c uid p.seq word then (p, s)
  else if !readable s (.core c) word then let r := parkReq s c p q.loc; (r.1, parkMiss r.2 (.core c) word)
  else if h.2 || genPassed (h.1.setWidth 32) b then (takePart p j q h, s)
  else parkReq s c p q.loc

/-- A part that reads and writes its word as one operation (R122); a poisoned word is only read (R118). -/
def rmwPart (s : State) (c : CoreId) (slot : Slot) (uid : Nat) (p : Pending) (j : Nat) (q : Part) : Pending × State :=
  let word := wordOf q.loc
  if queuedStore s c uid p.seq word then (p, s)
  else if !readable s (.core c) word then let r := parkReq s c p q.loc; (r.1, parkMiss r.2 (.core c) word)
  else
    let h := homeWord s word q.key
    let old := subWord h.1 (q.loc % 8) q.n
    let p' := takePart p j q h
    if h.2 then (p', s)
    else match (rmwVal p.kind q.n old).1 with
      | none => (p', s)
      | some v =>
        let s := putBytes s q.loc q.key q.n v
        (p', match p.release with
          | some sc => setTag s word (some (releaseTag s c slot uid p.seq word sc))
          | none => s)

/-- Part j of a request is performed at its home, parks there, or is rejected (R281, R283, R288, R299, R315). -/
def performPart (s : State) (c : CoreId) (slot : Slot) (uid : Nat) (p : Pending) (j : Nat) : Pending × State :=
  match p.parts[j]? with
  | none => (p, s)
  | some q =>
    if q.got.isSome || p.rejected || p.again || !partTurn s c uid p j q then (p, s)
    else if epochRevoked s q.loc q.lease then ({ p with rejected := true }, s)
    else match p.kind with
      | .load => readPart s c uid p j q
      | .presence =>
        if p.passed || p.parts.all fun q => isPresent s (wordOf q.loc)
        then readPart s c uid { p with passed := true } j q
        else parkReq s c p q.loc
      | .clear =>
        if (coreOf s c).stores.any fun e => e.word == wordOf q.loc && e.uid == uid && e.seq < p.seq then (p, s)
        else (takePart p j q (0, false), clearPresent s (wordOf q.loc))
      | .gen b => genPart s c uid p j q b
      | .amo _ _ | .cas _ _ | .xchg _ | .famo _ _ _ => rmwPart s c slot uid p j q

/-- All parts of a request in turn. -/
def performParts (s : State) (c : CoreId) (slot : Slot) (uid : Nat) (p : Pending) : Nat → Pending × State
  | 0 => (p, s)
  | n + 1 => let r := performParts s c slot uid p n; performPart r.2 c slot uid r.1 n

def performReq (s : State) (c : CoreId) (slot : Slot) (uid : Nat) (p : Pending) : Pending × State :=
  performParts s c slot uid p p.parts.length

/-- The request of a strand with a place in issue order, replaced. -/
def setPending (t : Strand) (p : Pending) : Strand :=
  { t with inflight := t.inflight.map fun x => if x.seq = p.seq then p else x }

/-- Whether a request writes its words. -/
def writesWord : ReqKind → Bool
  | .amo _ _ | .cas _ _ | .xchg _ | .famo _ _ _ => true
  | .load | .presence | .clear | .gen _ => false

/-- Whether the destination is a view; such a request blocks its strand. -/
def destView (p : Pending) : Bool :=
  match p.dest with
  | .scalar (.g _) _ _ | .vector (.v _) _ _ | .nothing | .block => false
  | .scalar _ _ _ | .vector _ _ _ => true

/-- Whether a request is performed at its home together with its answer: an atomic whose destination is a view, since its
write is not made when the push fails (R173; log 102). -/
def withAnswer (p : Pending) : Bool := writesWord p.kind && destView p

/-- A request tried again at its home. -/
def retryReq (s : State) (c : CoreId) (slot : Slot) (seq : Nat) : State :=
  let t := strandAt s c slot
  match t.inflight.find? fun p => p.seq == seq with
  | none => s
  | some p =>
    if withAnswer p then s
    else let r := performReq s c slot t.uid p; modStrand r.2 c slot fun t => setPending t r.1

/-- The requests that wait on a word, in the order in which they began to wait: (park, core, slot, seq). -/
def parkedOn (s : State) (word : Nat) : List (Nat × CoreId × Slot × Nat) :=
  s.cores.foldl (fun l e => (coreStrands e.2).foldl (fun l t =>
    t.2.inflight.foldl (fun l p =>
      if p.park != 0 && p.parts.any (fun q => wordOf q.loc == word && q.got.isNone) then
        mapSet p.park (e.1, t.1, p.seq) l else l) l) l) []

/-- R283, R315: requests that wait on a word are performed after the access that lets them. -/
def wakeWord (s : State) (word : Nat) : State :=
  unparkWord ((parkedOn s word).foldl (fun s e => retryReq s e.2.1 e.2.2.1 e.2.2.2) s) word

/-- What waits for a line that a footing unit has held is performed, unless it still has to wait (R288). -/
def wakeLine (s : State) (word : Nat) : State :=
  (List.range 16).foldl (fun s i => wakeWord s (word / 128 * 128 + 8 * i)) s

/-- A word written at its home by an access that is not an RMW without .REL: the tag goes or is replaced (R314). -/
def homeWrite (s : State) (word key : Nat) (mask : BitVec 8) (val : W64) (tag : Option Tag) : State :=
  wakeWord (setTag (putWord s word key mask val) word tag) word

/-! ## The outbound store queue (R302, R304, R306, R308) -/

/-- Whether an entry may be performed now as the queue stands: the entries before it are given. -/
def storeReady (before : List StoreEntry) (all : List StoreEntry) (e : StoreEntry) : Bool :=
  e.token.isNone && !(before.any fun b => b.word == e.word && (b.uid == e.uid || !hiddenStore all b))
  && !(e.ord == .so && before.any fun b => b.ord == .so && b.uid == e.uid)
  && !waitsLower all e

/-- Whether the strand's earlier loads and reductions, the core's earlier accesses to the peer page, and the footing units let
an entry be performed (R288, R303, R470). -/
def storeFree (s : State) (c : CoreId) (e : StoreEntry) : Bool :=
  !olderRead s c e.uid e.seq e.word && !olderRed s c e.uid e.seq e.word && peerTurn s c e.seq e.lease
  && !footHeld s e.word

/-- R118, R299: the target rejects the write. -/
def storeRejected (s : State) (e : StoreEntry) : Bool :=
  (e.mask != 0xFF && s.poison.contains (e.word / 8)) || epochRevoked s e.word e.lease

/-- A message's payload TOKEN for the next message of an agent of a core (R410). -/
def agentToken (s : State) (c : CoreId) (agent : Fin 20) : W64 :=
  let q := (coreOf s c).agentSeq[agent] + 1
  BitVec.ofNat 64 (q.toNat * 2 ^ 32 + agent.val * 2 ^ 24) + xyWord c

/-- A fault message leaves for the mailbox of the cluster of the core it names (R296, R409, R410). -/
def postFault (s : State) (agent : Fin 20) (m : FaultMsg) : State :=
  let token := agentToken s m.core agent
  let s := modCore s m.core fun k => { k with agentSeq := k.agentSeq.set agent (k.agentSeq[agent] + 1) }
  let m := { m with token := token }
  { s with
    asked := s.asked ++ [m]
    net := s.net ++ [⟨m.core, 0, .fault (clusterIdx m.core) m, 0, false, false, none⟩] }

/-- A fault message with the fields that most kinds leave 0. -/
def faultMsg (kind : Byte) (src : FaultSource) (c : CoreId) (slot : Slot) (va pc : W64) (uid : Nat) : FaultMsg where
  kind := kind
  reason := 0
  source := src
  wr := false
  level := 0
  slot := slot
  strm := 0
  va := va
  core := c
  pc := pc
  pos := 0
  entry := 0
  token := 0
  uid := uid
  poison := false

/-- The strand slots as fault agents (R410). -/
def slotAgent (i : Slot) : Fin 20 := ⟨i.val, by omega⟩

/-- R327: the core keeps a rejected write and posts a message with SOURCE 6. -/
def rejectStore (s : State) (c : CoreId) (e : StoreEntry) : State :=
  let m := { faultMsg 0x08 .rejection c e.slot e.va 0 e.uid with
    kind := if epochRevoked s e.word e.lease then 0x08 else 0x0D, wr := true }
  let token := agentToken s c (slotAgent e.slot)
  let s := postFault s (slotAgent e.slot) m
  let mark := fun (x : StoreEntry) => if x.seq = e.seq ∧ x.word = e.word then { x with token := some token } else x
  modCore s c fun k => { k with stores := k.stores.map mark }

/-- An entry is accepted at its home, or rejected there (R302, R304, R327). -/
def performStore (s : State) (c : CoreId) (e : StoreEntry) : State :=
  if storeRejected s e then rejectStore s c e
  else
    let s := modCore s c fun k => { k with stores := dropStores (fun x => x.seq == e.seq && x.word == e.word) k.stores }
    let s := putWord s e.word e.key e.mask e.val
    let s := if e.poison then poisonWord s e.word else s
    wakeWord (setTag s e.word e.tag) e.word

/-! ## Return-free reductions and writes with norm (R125, R352, R383, R436) -/

/-- Bytes a reduction covers. -/
def redBytes : RedKind → Nat
  | .int _ z => asizeBytes z
  | .fp _ f => afmtBytes f
  | .norm _ _ => 8

/-- op(old, v) at the width of a reduction (R61, R124). -/
def redVal (k : RedKind) (old v : W64) : W64 :=
  match k with
  | .int op .w => (redInt op 32 (old.setWidth 32) (v.setWidth 32)).setWidth 64
  | .int op .d => redInt op 64 old v
  | .fp op f => let w := 8 * afmtBytes f; BitVec.ofNat 64 (redFp op f (old.toNat % 2 ^ w) (v.toNat % 2 ^ w)).1
  | .norm _ _ => v

/-- NACTL.E of a partition's accumulator, as a signed number (R369). -/
def normScale (s : State) (part : Nat) (n : Nat) : Int :=
  (BitVec.ofNat 8 (bits (mapGet 0 (partOf s part).nactl n : W64) 7 0)).toInt

/-- R384: an addition into accumulator n of a die, clamped to 128 bits with SAT. -/
def normAdd (s : State) (part die n : Nat) (x : Int) : State :=
  modPart s part fun p =>
    let y := mapGet 0 p.norms (16 * die + n) + x
    let z := clampInt (qRange 128) y
    { p with
      norms := mapSet (16 * die + n) z p.norms
      nactl := if y = z then p.nactl else mapSet n (mapGet 0 p.nactl n ||| (0x100 : W64)) p.nactl }

/-- The bytes of the FP32 lanes of a word that a mask names. -/
def laneBytes (mask : BitVec 2) : BitVec 8 := (if bit mask 0 then 0x0F else 0) ||| (if bit mask 1 then 0xF0 else 0)

/-- R383: FP32 lanes of an aligned 8-byte word written over others, with their terms added; one indivisible operation. -/
def normWrite (s : State) (part die n : Nat) (word key : Nat) (mask : BitVec 2) (v : W64) : State :=
  let old := (homeWord s word key).1
  let e := normScale s part n
  let term := fun (i : Nat) =>
    if bit mask i then normTerm e (lane v 32 i).toNat - normTerm e (lane old 32 i).toNat else 0
  normAdd (homeWrite s word key (laneBytes mask) v none) part die n (term 0 + term 1)

/-- The partition that holds a core's cluster. -/
def partOfCore (s : State) (c : CoreId) : Nat := (clusterOf s (clusterIdx c)).part.getD 0

/-! ### What a release waits for (R130, R302, R312, R320) -/

/-- Whether a release at a scope waits for a store on its way (R302): at .CR for one that the core's strands do not see yet
(R306). A store to a UO page is waited for by a FENCE with UO = 1 alone, at a peer's page too (R130, R309, log 100). -/
def waitedStore (all : List StoreEntry) (sc : Scope) (uo : Bool) (e : StoreEntry) : Bool :=
  (e.ord != .uo || uo) && (if nodeOf e.word != 0 then sc == .sy else sc != .cr || hiddenStore all e)

/-- Whether a release at a scope waits for a return-free reduction: at .DI and wider for every one, wherever it goes
(R130, R320, log 100). -/
def waitedRed (sc : Scope) (red : Bool) (_r : Reduction) : Bool := red || decide (scopeNum sc ≥ 2)

/-- Whether a write by strand `owner` at place `at_` happens before what strand `uid` does from place `seq` on: by program
order, or through releases and acquires between them (R312). -/
def precedes (o : Order) (owner at_ uid seq : Nat) : Bool :=
  (owner == uid && decide (at_ < seq)) || o.heirs.any fun h => h.1 == uid && decide (h.2 ≤ seq)

/-- Whether a port push that strand uid made before a place is still in a seam buffer of a core (R230, R441). -/
def pushLeft (k : Core) (uid seq : Nat) : Bool :=
  k.seam.toList.any fun q => q.any fun x =>
    match x.by_ with | some y => y.1 == uid && decide (y.2 < seq) | none => false

/-- Whether an access that happens before what strand uid of core c does at place `seq`, and that a release at a scope waits
for, is not performed (R302, R312, R320): loads of its own, stores and reductions on their way that happen before it, and its
port pushes over a seam (R230, R441). -/
def accessLeft (s : State) (c : CoreId) (uid seq : Nat) (sc : Scope) (uo red : Bool) : Bool :=
  (coreStrands (coreOf s c)).any (fun t => t.2.uid == uid && t.2.inflight.any fun p => p.seq < seq)
  || s.cores.any (fun e =>
    e.2.stores.any (fun w => precedes w.order w.uid w.seq uid seq && waitedStore e.2.stores sc uo w)
    || e.2.reds.any (fun r => precedes r.order r.uid r.seq uid seq && waitedRed sc red r))
  || (decide (scopeNum sc ≥ 3) && pushLeft (coreOf s c) uid seq)

/-- Whether a shadow unit holds a contribution that happens before a place (R438). -/
def unitLeft (s : State) (uid seq : Nat) : Bool :=
  s.dies.toList.any fun d => d.shadows.any fun u => u.contribs.any fun x => precedes x.order x.uid x.seq uid seq

/-- Whether something is left that a release by strand uid of core c at place `seq` waits for (R302, R438). -/
def outstanding (s : State) (c : CoreId) (uid seq : Nat) (sc : Scope) (uo red : Bool) : Bool :=
  accessLeft s c uid seq sc uo red || (decide (scopeNum sc ≥ 3) && unitLeft s uid seq)

/-- Whether an access that happens before an engine command's launch is not performed (R321). A reduction to a reduction page
is performed at its acknowledgement (R320), so a unit that has not merged holds no command back. -/
def launchWaits (s : State) (c : CoreId) (uid seq : Nat) : Bool := accessLeft s c uid seq .sy true true

/-- The writes on their way changed. -/
def mapOrders (s : State) (f : Nat → Nat → OrdKind → Order → Order) : State :=
  { s with
    cores := s.cores.map fun e => (e.1, { e.2 with
      stores := e.2.stores.map fun w => { w with order := f w.uid w.seq w.ord w.order }
      reds := e.2.reds.map fun r => { r with order := f r.uid r.seq r.ord r.order } })
    dies := s.dies.map fun d => { d with shadows := d.shadows.map fun u =>
      { u with contribs := u.contribs.map fun x => { x with order := f x.uid x.seq .rc x.order } } } }

/-- A release by strand uid of core c at place `seq`: the writes before it that it has not waited for carry its mark
(R312); those to UO pages only of a FENCE with UO = 1 (R309). -/
def markRelease (s : State) (c : CoreId) (uid seq : Nat) (sc : Scope) (uo : Bool) : State :=
  mapOrders s fun owner at_ ord o =>
    if precedes o owner at_ uid seq && (ord != .uo || uo) && !o.rel.contains (c, sc)
    then { o with rel := o.rel ++ [(c, sc)] } else o

/-- An acquire by strand uid of core c at a scope: the writes marked by a release whose scope instance holds the core,
and whose core lies in the acquire's, happen before what the strand does from here on (R311, R312). -/
def markAcquire (s : State) (c : CoreId) (uid : Nat) (sc : Scope) : State :=
  mapOrders s fun owner _ _ o =>
    if owner != uid && (mapFind o.heirs uid).isNone
        && o.rel.any fun r => inScope r.2 r.1 (.core c) && inScope sc c (.core r.1)
    then { o with heirs := mapSet uid s.nextSeq o.heirs } else o

/-- Whether a reduction's target can be operated on now: the word is readable, the accesses to it that come before it have
been performed, and so has what its release waits for (R303, R310, R315, R470). -/
def redReady (s : State) (c : CoreId) (r : Reduction) : Bool :=
  r.token.isNone && readable s (.core c) (wordOf r.loc) && !olderRead s c r.uid r.seq (wordOf r.loc)
  && !(match r.release with | some sc => outstanding s c r.uid r.seq sc false false | none => false)
  && !queuedStore s c r.uid r.seq (wordOf r.loc) && !olderRed s c r.uid r.seq (wordOf r.loc)
  && peerTurn s c r.seq r.lease

/-- The record of a reduction replaced. -/
def setRed (k : Core) (r : Reduction) : Core :=
  { k with reds := k.reds.map fun x => if x.seq = r.seq ∧ x.loc = r.loc then r else x }

/-- R327 for a reduction or a write with norm (R118, R390). -/
def rejectRed (s : State) (c : CoreId) (r : Reduction) : State :=
  let m := { faultMsg 0x08 .rejection c r.slot r.va 0 r.uid with
    kind := if epochRevoked s r.loc r.lease then 0x08 else 0x0D, wr := true }
  let token := agentToken s c (slotAgent r.slot)
  let s := postFault s (slotAgent r.slot) m
  modCore s c fun k => setRed k { r with token := some token }

/-- A reduction is performed at its home as one read-modify-write, or rejected (R352, R327, R383). -/
def performRed (s : State) (c : CoreId) (r : Reduction) : State :=
  let word := wordOf r.loc
  if !redReady s c r then parkMiss s (.core c) word
  else if s.poison.contains (word / 8) || r.poison || epochRevoked s r.loc r.lease then rejectRed s c r
  else
    let done := fun s => modCore s c fun k => setRed k { r with performed := true }
    match r.kind with
    | .norm n m => done (normWrite s (partOfCore s c) (dieNum c) n.val word r.key m r.val)
    | k =>
      let old := subWord (homeWord s word r.key).1 (r.loc % 8) (redBytes k)
      let s := putBytes s r.loc r.key (redBytes k) (redVal k old r.val)
      let s := match r.release with
        | some sc => wakeWord (setTag s word (some (releaseTag s c r.slot r.uid r.seq word sc))) word
        | none => s
      done s

/-- The acknowledgement of a performed reduction reaches its core (R125). -/
def ackRed (s : State) (c : CoreId) (r : Reduction) : State :=
  modCore s c fun k => { k with reds := k.reds.filter fun x => ¬ (x.seq = r.seq ∧ x.loc = r.loc) }

/-! ## Shadow units (R436 to R439, R487) -/

def overlaps (a n b m : Nat) : Bool := decide (a < b + m) && decide (b < a + n)

/-- Every shadow unit with its die. -/
def allUnits (s : State) : List (Fin 4 × ShadowUnit) :=
  (List.finRange 4).flatMap fun d => (s.dies[d]).shadows.map fun u => (d, u)

/-- Whether a releasing reduction in one unit covers a contribution in another (R487). -/
def unitCovers (u v : ShadowUnit) : Bool :=
  u.contribs.any fun x => x.release.isSome && v.contribs.any fun y => precedes y.order y.uid y.seq x.uid x.seq

/-- Units with those whose merge theirs must follow (R487): they merge in one step, since each may cover the other. -/
def mergeSet (s : State) : Nat → List (Fin 4 × ShadowUnit) → List (Fin 4 × ShadowUnit)
  | 0, l => l
  | n + 1, l =>
    let more := (allUnits s).filter fun e => !l.contains e && l.any fun x => unitCovers x.2 e.2
    if more.isEmpty then l else mergeSet s n (l ++ more)

/-- A unit of a die with the units that merge with it. -/
def mergeGroup (s : State) (die : Fin 4) (u : ShadowUnit) : List (Fin 4 × ShadowUnit) :=
  mergeSet s (allUnits s).length [(die, u)]

/-- R487: what the releasing reductions of a unit cover has been performed, contributions to units apart. -/
def unitFree (s : State) (u : ShadowUnit) : Bool :=
  u.contribs.all fun x => match x.release with
    | none => true
    | some sc =>
      s.cores.all fun e =>
        !(e.2.stores.any fun w =>
          precedes w.order w.uid w.seq x.uid x.seq && waitedStore e.2.stores (if sc = .sy then .sy else .pk) false w)
        && !(e.2.reds.any fun w => precedes w.order w.uid w.seq x.uid x.seq && !(w.rp && w.performed))
        && !pushLeft e.2 x.uid x.seq
        && !((coreStrands e.2).any fun t => t.2.uid == x.uid && t.2.inflight.any fun p => p.seq < x.seq)

/-- R487: whether a unit of a die may merge; no footing unit holds its line (R288). -/
def shadowFree (s : State) (die : Fin 4) (u : ShadowUnit) : Bool :=
  (mergeGroup s die u).all fun e => unitFree s e.2 && !footHeld s (wordOf e.2.loc)

/-- A unit of a die goes. -/
def dropUnit (s : State) (die : Fin 4) (u : ShadowUnit) : State :=
  modDie s die fun d => { d with shadows := d.shadows.filter fun x => ¬ (x.loc = u.loc ∧ x.kind = u.kind) }

/-- The contribution whose core answers for a unit that its target rejects: the first of a bond that is still resident, or of
a strand of none (log 121). -/
def unitOwner (s : State) (u : ShadowUnit) : Option Contribution :=
  u.contribs.find? fun x => x.bond.all fun b => (mapFind s.bonds b).isSome

/-- A unit as a reduction of one of its strands, which sends it home again after a rejection (R327, R437). -/
def unitRed (u : ShadowUnit) (x : Contribution) : Reduction :=
  ⟨x.seq, x.uid, x.slot, 0, x.va, u.loc, u.kind, u.val, u.key, .rc, x.lease, false, none, false, u.poison, x.order, none⟩

/-- A unit whose home word is poisoned, so that its arithmetic would consume poison (R421), or whose lease is revoked (R299):
its owner's core keeps it as a rejected reduction and posts the message of R327. -/
def rejectUnit (s : State) (die : Fin 4) (u : ShadowUnit) : State :=
  match unitOwner s u with
  | none => dropUnit s die u
  | some x =>
    let r := unitRed u x
    let add := fun (k : Core) =>
      { k with reds := (k.reds.filter fun y => ¬ (y.seq = r.seq ∧ y.loc = r.loc)) ++ [r] }
    rejectRed (modCore (dropUnit s die u) x.core add) x.core r

/-- Whether a unit lies in a peer page under an epoch that the peer has revoked (R299). -/
def unitRevoked (s : State) (u : ShadowUnit) : Bool := u.contribs.any fun x => epochRevoked s u.loc x.lease

/-- R437: a shadow unit merges at the home as one read-modify-write and is released; poison in it poisons the word (R439). -/
def mergeShadow (s : State) (die : Fin 4) (u : ShadowUnit) : State :=
  let word := wordOf u.loc
  let n := redBytes u.kind
  let h := homeWord s word u.key
  if h.2 || unitRevoked s u then rejectUnit s die u
  else
    let old := subWord h.1 (u.loc % 8) n
    let s := putBytes s u.loc u.key n (redVal u.kind old u.val)
    let s := if u.poison then poisonWord s word else s
    dropUnit s die u

/-- The 128-byte lines of the memory-side cache that a die's shadow units take (R438). -/
def shadowLines (d : Die) : Nat := (d.shadows.map fun u => u.loc / 128).dedup.length

/-- A unit merges, if it is still there, together with those that merge with it (R437, R487; log 112). -/
def mergeUnits (s : State) (die : Fin 4) (u : ShadowUnit) : State :=
  if (allUnits s).contains (die, u) then (mergeGroup s die u).foldl (fun s e => mergeShadow s e.1 e.2) s else s

/-- Whether a die's units would pass a limit of R438 if a strand contributed to a unit: 16 MiB in all, 4,096 of the
strand. -/
def beyondLimit (d : Die) (uid loc : Nat) (kind : RedKind) : Bool :=
  let same := fun (u : ShadowUnit) => u.loc == loc && u.kind == kind
  let new := if d.shadows.any same then 0 else 1
  decide (((loc / 128) :: d.shadows.map fun u => u.loc / 128).dedup.length > 131072)
  || decide ((d.shadows.filter fun u => same u || u.contribs.any fun x => x.uid == uid).length + new > 4096)

/-- Whether a reduction on its way would take its die beyond a limit: the die's oldest units merge first (R438). -/
def capacityDue (s : State) (die : Fin 4) : Bool :=
  s.cores.any fun e => dieOf e.1 == die
    && e.2.reds.any fun r => r.rp && !r.performed && beyondLimit s.dies[die] r.uid r.loc r.kind

/-- The units of a die that overlap a reduction and are of another kind or size (R436). -/
def otherUnits (d : Die) (r : Reduction) : List ShadowUnit :=
  d.shadows.filter fun u =>
    overlaps u.loc (redBytes u.kind) r.loc (redBytes r.kind) && !(u.loc == r.loc && u.kind == r.kind)

/-- A reduction joins the unit of its bytes and kind, or makes one (R436). -/
def joinUnit (s : State) (c : CoreId) (r : Reduction) : State :=
  let mark : Contribution := ⟨c, r.slot, r.uid, r.seq, r.va, r.release, bondOfUid s c r.uid, r.lease, r.order⟩
  modDie s (dieOf c) fun d =>
    if d.shadows.any fun u => u.loc == r.loc && u.kind == r.kind then
      { d with shadows := d.shadows.map fun u =>
          if u.loc = r.loc ∧ u.kind = r.kind
          then { u with
            val := redVal u.kind u.val r.val, poison := u.poison || r.poison, contribs := u.contribs ++ [mark] } else u }
    else { d with shadows := d.shadows ++ [⟨r.loc, r.key, r.kind, r.val, r.poison, [mark], partOfCore s c⟩] }

/-- R436: a reduction to an RP page combines into its die's shadow unit; overlapping units of another kind merge first.
While they must wait (R487), what its release covers is not performed, or a limit would be passed (R438), nothing
happens; one to a peer page under a revoked epoch is rejected (R299). -/
def combineShadow (s : State) (c : CoreId) (r : Reduction) : State :=
  let die := dieOf c
  let others := otherUnits s.dies[die] r
  if r.token.isSome then s
  else if epochRevoked s r.loc r.lease then rejectRed s c r
  else if (match r.release with | some sc => outstanding s c r.uid r.seq sc false false | none => false)
      || !(others.all (shadowFree s die)) then s
  else
    let t := others.foldl (fun s u => mergeUnits s die u) s
    if beyondLimit t.dies[die] r.uid r.loc r.kind then s
    else modCore (joinUnit t c r) c fun k => setRed k { r with performed := true }

/-- Whether a strand waits for a release at .PK or .SY, or a request of it leaves after one (R438). -/
def strandReleases (s : State) (uid seq : Nat) : Bool :=
  s.cores.any fun e =>
    ((coreStrands e.2).any fun t => t.2.uid == uid && (match t.2.wait with
      | .release sc _ _ => decide (scopeNum sc ≥ 3)
      | _ => !(t.2.arriving.filter fun a => a.1 == .bond && a.2 > seq).isEmpty))
    || (e.2.outbound.any fun m => m.uid == uid && m.seq > seq && decide (scopeNum m.scope ≥ 3))
    || (e.2.reds.any fun r => r.uid == uid && r.seq > seq && !r.performed
        && (match r.release with | some sc => decide (scopeNum sc ≥ 3) | none => false))

/-- Whether a release, a widening or step 4 of a switch of the partition has a unit merged now (R438). -/
def mergeDue (s : State) (u : ShadowUnit) : Bool :=
  (partOf s u.part).drain
  || u.contribs.any (fun x => strandReleases s x.uid x.seq || x.order.heirs.any fun h => strandReleases s h.1 h.2)
  || u.contribs.any (fun x => s.misses.any fun m => m.asked && decide (scopeNum m.need ≥ 3)
      && s.tags.any fun t => t.id == m.tagId && precedes x.order x.uid x.seq t.uid t.id)

end Sys2Proof.Machine
end

