-- ==== Sys2Proof/Machine/Xlate.lean ====
section
/-!
DEFINITION. The address map, the page tables, the TLBs and the checks an address passes
(10_memory_and_translation.md; R117, R434).
-/
namespace Sys2Proof.Machine

/-! ## The address map (R273 to R275) -/

inductive Region where
  | virt
  | slice (core : CoreId) (off : Nat) (own : Bool)
deriving DecidableEq, Repr

/-- The region of an address as core c sees it; none when it is unassigned. -/
def regionOf (c : CoreId) (ea : W64) : Option Region :=
  let x := ea.toNat
  let low := x % 2 ^ 48
  if x < 2 ^ 48 then some .virt
  else if x < 0xFFFF000000000000 then none
  else if low ≥ 0xFFFFFFFF0000 then some (.slice c (low % 65536) true)
  else if low < 0x50000000 then some (.slice (coreAt (low / 65536 % 128) (low / 2 ^ 23)) (low % 65536) false)
  else if 2 ^ 47 ≤ low ∧ low - 2 ^ 47 < 0x50000000 then
    let o := (low - 2 ^ 47) % 2 ^ 22
    some (.slice (clusterCore ((low - 2 ^ 47) / 2 ^ 22) (o / 128 % 64)) (o / 2 ^ 13 * 128 + o % 128) false)
  else none

/-- An address in a slice, under any of its names. -/
def isSliceAddr (c : CoreId) (ea : W64) : Bool :=
  match regionOf c ea with
  | some (.slice _ _ _) => true
  | _ => false

/-- The direct-window address of a core's slice byte (R274). -/
def directAddr (c : CoreId) (off : Nat) : W64 :=
  BitVec.ofNat 64 (0xFFFF000000000000 + coreY c * 2 ^ 23 + coreX c * 65536 + off)

/-- Whether two addresses of one access lie in one page, slice or striped piece (R147, R279, R306). -/
def samePiece (a b : W64) : Bool :=
  let k := if (a.toNat / 2 ^ 47) % 2 = 1 ∧ a.toNat < 0xFFFFFFFFFFFF0000 then 128 else 65536
  a.toNat / k == b.toNat / k

/-! ## Page tables (R287, R289 to R291) -/

/-- R287: a valid local physical address. -/
def validPa (pa : Nat) : Bool :=
  decide (pa < 2 ^ 40) && decide (pa / 2 ^ 36 ≤ 11) && decide (pa % 2 ^ 36 < 48 * 2 ^ 30)

/-- What a walk ends with. -/
inductive Walk where
  | leaf (pte : W64) (size level : Nat)
  | stop (reason : BitVec 4) (level : BitVec 2) (entry : W64)
  /-- A footing unit holds the line of a table word (R288). -/
  | held
deriving DecidableEq, Repr

/-- Leaf page size of a level (R289). -/
def leafSize (level : Nat) : Nat := match level with | 1 => 2 ^ 31 | 2 => 2 ^ 21 | _ => 2 ^ 16
/-- Alignment of a level's table (R289). -/
def tableAlign (level : Nat) : Nat := match level with | 0 => 2048 | 2 => 8192 | _ => 4096
/-- The index of an address into a level's table (R289). -/
def tableIndex (level va : Nat) : Nat :=
  match level with
  | 0 => va / 2 ^ 40 % 256
  | 1 => va / 2 ^ 31 % 512
  | 2 => va / 2 ^ 21 % 1024
  | _ => va / 2 ^ 16 % 32

/-- PA[47:12] of an entry as an address (R290). -/
def pteAddr (e : W64) : Nat := bits e 47 12 * 4096
/-- PA[47:40] of a peer leaf: the node (R290). -/
def pteNode (e : W64) : Nat := bits e 47 40

/-- R291: a malformed entry at a level. -/
def malformed (level : Nat) (e : W64) : Bool :=
  if bit e 1 then
    level == 0 || bit e 11 || bits e 63 58 != 0 || bits e 7 6 == 3 || (bit e 3 && !bit e 2)
    || pteAddr e % leafSize level != 0
    || (if bit e 10 then pteNode e == 0 else !validPa (pteAddr e))
    || (bit e 9 && (bit e 3 || bit e 8 || bit e 10 || decide (pteAddr e / 2 ^ 36 > 2)))
  else
    level == 3 || bits e 11 2 != 0 || bits e 63 48 != 0
    || pteAddr e % tableAlign (level + 1) != 0 || !validPa (pteAddr e)

/-- A page-table word as a walker of a partition reads it: under the partition's keys, and unrelated bytes when its line
was last written under a key that is none of them (R473). -/
def tableWord (s : State) (part word : Nat) : W64 :=
  let j := mapGet 0 s.lineKey (word / 128)
  if j == 0 || (partOf s part).keys.any fun k => mapGet 0 s.keyInst k == j then memWord 64 s.mem word 8
  else wrongKeyWord s word

/-- A walk from a table of a level (R289 to R291); `n` levels remain. -/
def walkFrom (s : State) (part va : Nat) : Nat → Nat → Nat → Walk
  | 0, level, _ => .stop 2 (BitVec.ofNat 2 level) 0
  | n + 1, level, table =>
    let word := table + 8 * tableIndex level va
    let e := tableWord s part word
    if footHeld s word then .held
    else if !bit e 0 then .stop 1 (BitVec.ofNat 2 level) e
    else if malformed level e then .stop 2 (BitVec.ofNat 2 level) e
    else if bit e 1 then .leaf e (leafSize level) level
    else walkFrom s part va n (level + 1) (pteAddr e)

/-- A walk of a job's tables (R289, R294); a ROOT that is no local address is walked as it stands (log 126). -/
def walkJob (s : State) (job va : Nat) : Walk :=
  let j := jobOf s job
  if !bit j.ptroot 63 then .stop 1 0 0 else walkFrom s (j.part.getD 0) va 4 0 (bits j.ptroot 47 11 * 2048)

/-! ## TLBs (R293) -/

def tlbFind (l : List TlbEntry) (asid va : Nat) : Option TlbEntry :=
  l.find? fun e => e.asid == asid && decide (e.base ≤ va) && decide (va < e.base + e.size)

def tlbPut (cap : Nat) (e : TlbEntry) (l : List TlbEntry) : List TlbEntry :=
  (e :: l.filter fun x => x != e).take cap

/-- A leaf's entry for a virtual address: its page, or as much of it as the lease grants (R293, R298). -/
def leafEntry (asid part va : Nat) (pte : W64) (size : Nat) (lease : Option Lease) : TlbEntry :=
  let origin := va / size * size
  match lease with
  | none => ⟨asid, origin, size, pte, origin, part, none⟩
  | some l =>
    let first := bits pte 39 12 * 4096
    let lo := Nat.max first (l.page * 4096)
    ⟨asid, origin + (lo - first), Nat.min (first + size) (l.page * 4096 + Nat.max l.size 4096) - lo, pte, origin, part,
      some l⟩

/-- A translated entry enters the TLBs it passed through. -/
def tlbFill (s : State) (c : CoreId) (fetch engine : Bool) (e : TlbEntry) : State :=
  let s := modDie s (dieOf c) fun d => { d with tlb := tlbPut 4096 e d.tlb }
  if engine then s
  else
    let s := modCluster s (clusterIdx c) fun l => { l with tlb := tlbPut 2048 e l.tlb }
    modCore s c fun k =>
      if fetch then { k with itlb := tlbPut 16 e k.itlb } else { k with dtlb := tlbPut 32 e k.dtlb }

/-- The entry that a lookup hits, in the order of R293. -/
def tlbLookup (s : State) (c : CoreId) (fetch engine : Bool) (asid va : Nat) : Option TlbEntry :=
  let last := tlbFind s.dies[dieOf c].tlb asid va
  if engine then last
  else
    let k := coreOf s c
    (tlbFind (if fetch then k.itlb else k.dtlb) asid va).or
      ((tlbFind (clusterOf s (clusterIdx c)).tlb asid va).or last)

/-! ## The checks an address passes (R117, R278, R292) -/

inductive Use where | load | store | atomic | red | fetch
deriving DecidableEq, Repr

/-- Whose access it is: core, privilege, job, partition, the die whose copy of a replicated page it reads (R434),
and whether it is an engine's. -/
structure Who where
  core : CoreId
  super : Bool
  job : Nat
  part : Nat
  copyDie : Nat
  engine : Bool
deriving DecidableEq, Repr

/-- Where an access goes: address, physical location, key binding, ordering kind, reduction page, peer page, and the
lease it carries. -/
structure Ref where
  va : W64
  loc : Nat
  key : Nat
  ord : OrdKind
  rp : Bool
  peer : Bool
  lease : LeaseMark
deriving DecidableEq, Repr

inductive Chk where
  | ok (r : Ref) (s : State)
  | violation
  | fault (reason : BitVec 4) (level : BitVec 2) (entry : W64)
  /-- A walk or a lease is awaited (R293, R298). -/
  | await
deriving DecidableEq, Repr

def pteOrd (e : W64) : OrdKind := match bits e 7 6 with | 1 => .so | 2 => .uo | _ => .rc

/-- R292: whether a leaf allows an access, its key included; only copies reach flash (R472). -/
def leafAllows (s : State) (w : Who) (use : Use) (e : W64) : Bool :=
  (match use with
    | .load => bit e 2
    | .store | .red => bit e 3
    | .atomic => bit e 2 && bit e 3 && !bit e 8
    | .fetch => bit e 4)
  && (w.super || bit e 5)
  && (bit e 10 || (partOf s w.part).keys.contains (bits e 57 48))
  && (w.engine || !(bit e 10 && pteNode e == 0xFE))

/-- Flash locations lie above the slices, apart for each partition's namespace (R472). -/
def flashBase (part : Nat) : Nat := (part + 1) * 2 ^ 50

/-- The physical access behind a leaf (R292, R298, R434). -/
def leafRef (s : State) (w : Who) (va : W64) (t : TlbEntry) : Ref :=
  let e := t.leaf
  let flash := bit e 10 && pteNode e == 0xFE
  let pa := pteAddr e + (va.toNat - t.origin) + (if bit e 9 then w.copyDie * 3 * 2 ^ 36 else 0)
    + (if flash then flashBase w.part else 0)
  ⟨va, pa, if bit e 10 then 0 else mapGet 0 s.keyInst (bits e 57 48), pteOrd e, bit e 8, bit e 10,
    t.lease.map fun l => (pteAddr e + (t.base - t.origin), l.epoch)⟩

/-- The lease in force on a page of a node's window (R298). -/
def leaseAt (s : State) (node addr : Nat) : Option Lease :=
  s.leases.find? fun l => l.node == node && !l.recalled && decide (l.page * 4096 ≤ addr)
    && decide (addr < l.page * 4096 + Nat.max l.size 4096)

/-- Whether a peer counts as unreachable (R470). -/
def nodeDown (s : State) (n : Nat) : Bool := match mapFind s.paths n with | some x => x.down | none => false

/-- Whether a peer leaf needs a lease at all: the host and flash have none (R460, R472). -/
def needsLease (e : W64) : Bool := bit e 10 && pteNode e != 0xFF && pteNode e != 0xFE

/-- Whether the grant's permissions admit an access (R298). -/
def leaseAllows (use : Use) (t : TlbEntry) : Bool :=
  match t.lease with
  | some l => (match use with
    | .load | .fetch => l.rd
    | .store | .red => l.wr
    | .atomic => l.rd && l.wr)
  | none => true

/-- R299: the peer rejects a load under a revoked epoch; a write is rejected later, at its target. -/
def leaseRejects (s : State) (use : Use) (r : Ref) : Bool :=
  (use == .load || use == .fetch) && epochRevoked s r.loc r.lease

/-- A translated access through an entry: permission, then the location. -/
def throughLeaf (s : State) (w : Who) (use : Use) (va : W64) (t : TlbEntry) : Chk :=
  let r := leafRef s w va t
  if !leafAllows s w use t.leaf || !leaseAllows use t || leaseRejects s use r then .violation else .ok r s

/-- What a walk that ends at a leaf gives: an entry, a lease refused or out of reach, or a lease to wait for (R298). -/
inductive Filled where
  | entry (t : TlbEntry)
  | refused
  | await
deriving DecidableEq, Repr

def fillOf (s : State) (asid part va : Nat) (e : W64) (size : Nat) : Filled :=
  if needsLease e then
    match leaseAt s (pteNode e) (bits e 39 12 * 4096 + va % size) with
    | some l => if l.refused then .refused else .entry (leafEntry asid part va e size (some l))
    | none => if nodeDown s (pteNode e) then .refused else .await
  else .entry (leafEntry asid part va e size none)

/-- A translation: TLB hit, or a walk whose leaf enters the TLBs. `inline` says that a miss is walked at once. -/
def translate (s : State) (w : Who) (use : Use) (inline_ : Bool) (va : W64) : Chk :=
  let asid := bits (jobOf s w.job).ptroot 9 0
  let fetch := use == .fetch
  match if bit (jobOf s w.job).ptroot 63 then tlbLookup s w.core fetch w.engine asid va.toNat else none with
  | some t => throughLeaf s w use va t
  | none =>
    if !inline_ then .await
    else match walkJob s w.job va.toNat with
      | .held => .await
      | .stop r l e => .fault r l e
      | .leaf e size level => match fillOf s asid w.part va.toNat e size with
        | .entry t => throughLeaf (tlbFill s w.core fetch w.engine t) w use va t
        | .refused => .fault 3 (BitVec.ofNat 2 level) e
        | .await => .await

/-- R278: the named cluster belongs to the partition. -/
def partitionHolds (s : State) (part : Nat) (core : CoreId) : Bool :=
  (clusterOf s (clusterIdx core)).part == some part

/-- R117: the region, the partition check, translation and permission, in that order. -/
def checkAddr (s : State) (w : Who) (use : Use) (inline_ : Bool) (ea : W64) : Chk :=
  match regionOf w.core ea with
  | none => .violation
  | some (.slice core off own) =>
    if own || partitionHolds s w.part core then .ok ⟨ea, sliceLoc core off, 0, .rc, false, false, none⟩ s else .violation
  | some .virt => translate s w use inline_ ea

end Sys2Proof.Machine
end

