-- ==== Sys2Proof/Machine/Streams.lean ====
section
/-!
DEFINITION. The stream engines and the port queues (06_streams.md; R227 to R233, R441).
-/
namespace Sys2Proof.Machine

/-! ## The descriptor (R167, R168) -/

def sdBase (d : W512) : W64 := d.extractLsb' 0 64
def sdEsz (d : W512) : Nat := bits d 66 64
/-- Element size in bytes. -/
def sdSize (d : W512) : Nat := match sdEsz d with | 0 => 1 | 1 => 2 | 2 => 4 | 3 => 8 | _ => 32
def sdWrite (d : W512) : Bool := bit d 67
def sdSx (d : W512) : Bool := bit d 68
def sdPres (d : W512) : Bool := bit d 69
def sdSkip (d : W512) : Bool := bit d 70
def sdHdv (d : W512) : Bool := bit d 71
def sdHdie (d : W512) : Nat := bits d 73 72
def sdSkipOff (d : W512) : Nat := bits d 95 80
def sdBlk (d : W512) : Nat := bits d 111 96 + 1
/-- The count of dimension k. -/
def sdCnt (d : W512) (k : Nat) : Nat := bits d (143 + 16 * k) (128 + 16 * k) + 1
def sdStride (d : W512) (k : Nat) : W64 := d.extractLsb' (192 + 64 * k) 64
/-- T of R168. -/
def sdTotal (d : W512) : Nat := sdCnt d 0 * sdCnt d 1 * sdCnt d 2 * sdCnt d 3
/-- Elements of a group: G of R170. -/
def sdGroup (d : W512) : Nat := 32 / sdSize d

/-- Index k of traversal place t (R168). -/
def sdIndex (d : W512) (t k : Nat) : Nat :=
  match k with
  | 0 => t % sdCnt d 0
  | 1 => t / sdCnt d 0 % sdCnt d 1
  | 2 => t / (sdCnt d 0 * sdCnt d 1) % sdCnt d 2
  | _ => t / (sdCnt d 0 * sdCnt d 1 * sdCnt d 2) % sdCnt d 3

/-- The address of the element at place t (R168). -/
def sdAddr (d : W512) (t : Nat) : W64 :=
  sdBase d + BitVec.ofNat 64 (sdIndex d t 0) * sdStride d 0 + BitVec.ofNat 64 (sdIndex d t 1) * sdStride d 1
    + BitVec.ofNat 64 (sdIndex d t 2) * sdStride d 2 + BitVec.ofNat 64 (sdIndex d t 3) * sdStride d 3

/-- The packing of R188. -/
def sdPack (d : W512) (t : Nat) : W64 :=
  BitVec.ofNat 64 (sdIndex d t 0 + sdIndex d t 1 * 2 ^ 16 + sdIndex d t 2 * 2 ^ 32 + sdIndex d t 3 * 2 ^ 48)

/-- The place that a packed position names. -/
def sdPlace (d : W512) (a : W64) : Nat :=
  bits a 15 0 + sdCnt d 0 * (bits a 31 16 + sdCnt d 1 * (bits a 47 32 + sdCnt d 2 * bits a 63 48))

/-- R169: none when valid, otherwise the reason of R174; 0x5 for a descriptor that is misaligned and invalid otherwise too
(log 103). -/
def sdInvalid (d : W512) : Option Nat :=
  let sz := sdEsz d
  let al := if sz = 4 then 8 else sdSize d
  if bits d 79 74 ≠ 0 ∨ bits d 127 112 ≠ 0 ∨ bits d 511 448 ≠ 0 ∨ sz > 4 then some 5
  else if sdSx d ∧ (sdWrite d ∨ sz ≥ 3) then some 5
  else if sdPres d ∧ bits d 63 48 ≠ 0xFFFF then some 5
  else if sdSkip d ∧ sdSkipOff d % 4 ≠ 0 then some 5
  else if ¬ sdHdv d ∧ sdHdie d ≠ 0 then some 5
  else if (sdBase d).toNat % al ≠ 0 ∨ anyBelow (fun k => sdCnt d k != 1 && (sdStride d k).toNat % al != 0) 4 then some 6
  else none

/-! ## Skip mode (R179) -/

/-- Whether block b is delivered under the entries read: yes, no with the first block after the drop, or unknown. -/
inductive SkipAt where | deliver | dropTo (block : Nat) | unknown
deriving DecidableEq, Repr

def skipAt : List W32 → Nat → Nat → SkipAt
  | [], _, _ => .unknown
  | e :: t, start, b =>
    let keep := bits e 15 0
    let drop := bits e 31 16
    if e = 0 then .deliver
    else if b < start + keep then .deliver
    else if b < start + keep + drop then .dropTo (start + keep + drop)
    else skipAt t (start + keep + drop) b

/-- Entry j of the skip list in the core's slice, which a list that runs past its end goes on from the slice's start; it is
read at its home (log 105). -/
def skipEntry (m : List Host.Cell) (c : CoreId) (d : W512) (j : Nat) : W32 :=
  memWord 32 m (sliceLoc c ((sdSkipOff d + 4 * j) % 65536)) 4

/-- The first delivered place at or after t, T when none is left, with the entries read on the way. -/
def nextPlace (m : List Host.Cell) (c : CoreId) (d : W512) : Nat → List W32 → Nat → List W32 × Nat
  | 0, sk, t => (sk, t)
  | fuel + 1, sk, t =>
    if t ≥ sdTotal d then (sk, sdTotal d)
    else if !sdSkip d then (sk, t)
    else match skipAt sk 0 (t / sdBlk d) with
      | .deliver => (sk, t)
      | .dropTo b => nextPlace m c d fuel sk (b * sdBlk d)
      | .unknown => nextPlace m c d fuel (sk ++ [skipEntry m c d sk.length]) t

/-- The next delivered place of a core's stream from t on. -/
def nextOf (s : State) (c : CoreId) (st : Stream) (t : Nat) : List W32 × Nat :=
  nextPlace s.mem c st.desc (2 * sdTotal st.desc + 2) st.skips t

/-- The n-th delivered place from t on: after n elements are passed; T when they run out, with how many were left. -/
def passPlaces (m : List Host.Cell) (c : CoreId) (d : W512) : Nat → List W32 → Nat → List W32 × Nat × Nat
  | 0, sk, t => let r := nextPlace m c d (2 * sdTotal d + 2) sk t; (r.1, r.2, 0)
  | n + 1, sk, t =>
    let r := nextPlace m c d (2 * sdTotal d + 2) sk t
    if r.2 ≥ sdTotal d then (r.1, r.2, n + 1) else passPlaces m c d n r.1 (r.2 + 1)

/-- The first n delivered places from t on, and the place after them. -/
def takePlaces (m : List Host.Cell) (c : CoreId) (d : W512) : Nat → List W32 → Nat → List Nat × List W32 × Nat
  | 0, sk, t => let r := nextPlace m c d (2 * sdTotal d + 2) sk t; ([], r.1, r.2)
  | n + 1, sk, t =>
    let r := nextPlace m c d (2 * sdTotal d + 2) sk t
    if r.2 ≥ sdTotal d then ([], r.1, r.2)
    else let q := takePlaces m c d n r.1 (r.2 + 1); (r.2 :: q.1, q.2)

/-- The position set to a place, wrapping to 0 with EXH past the end (R168). -/
def setPlace (st : Stream) (sk : List W32) (t : Nat) : Stream :=
  if t ≥ sdTotal st.desc then { st with pos := 0, exh := true, skips := sk } else { st with pos := t, skips := sk }

/-- A fault is recorded or being serviced (FLT of R182). -/
def streamFlt (st : Stream) : Bool := st.token.isSome || (!sdWrite st.desc && st.buf.any fun e => e.fault.isSome)

/-- The buffer and any recorded fault discarded: the engine fetches again from the position (R189, R191). -/
def dropBuffer (st : Stream) : Stream :=
  { st with buf := [], ahead := if st.exh then sdTotal st.desc else st.pos }

/-- A stream that passes over n delivered elements (R192). -/
def skipElems (s : State) (c : CoreId) (x : Stream) (n : Nat) : Stream :=
  let from_ := if x.exh then sdTotal x.desc else x.pos
  let r := passPlaces s.mem c x.desc (Nat.min n (sdTotal x.desc + 1)) x.skips from_
  let t := if r.2.2 > 0 then sdTotal x.desc else r.2.1
  let y := setPlace { x with endF := x.endF || decide (r.2.2 > 0) } r.1 t
  if sdWrite x.desc then y
  else { y with buf := y.buf.filter (fun e => decide (t ≤ e.idx)), ahead := Nat.max y.ahead t }

/-! ## Whose access a stream's is -/

/-- The privilege of the owner strand while it lives, and user afterwards. -/
def streamWho (s : State) (c : CoreId) (st : Stream) : Who :=
  let o := strandAt s c st.owner
  let live := o.occ && o.uid == st.ownerUid
  let cl := clusterOf s (clusterIdx c)
  let job := match cl.bond.bind (mapFind s.bonds) with
    | some b => b.job
    | none => if live then o.job else 0
  ⟨c, live && o.super, job, cl.part.getD 0, if sdHdv st.desc then sdHdie st.desc else dieNum c, false⟩

/-! ## Port queues and seams (R227, R441, R442) -/

def inqOf (k : Core) (l : Port) : List PortEntry := k.inq[portFin l]
def seamOf (k : Core) (l : Port) : List PortEntry := k.seam[portFin l]
def setInq (k : Core) (l : Port) (q : List PortEntry) : Core := { k with inq := k.inq.set (portFin l) q }
def setSeam (k : Core) (l : Port) (q : List PortEntry) : Core := { k with seam := k.seam.set (portFin l) q }

/-- Whether a bound read stream of a core supplied an entry (R186). -/
def suppliedBy (c : CoreId) (n : StreamId) (e : PortEntry) : Bool :=
  match e.src with | some (a, b, _) => a == c && b == n | none => false

/-- Entries that a bound read stream has placed and nobody has popped (R186). -/
def placedEntries (s : State) (c : CoreId) (n : StreamId) : Nat :=
  match (coreOf s c).streams[n].bound with
  | none => 0
  | some l =>
    ((seamOf (coreOf s c) l).filter (suppliedBy c n)).length + (match neighbour c l with
      | some d => ((inqOf (coreOf s d) (opposite l)).filter (suppliedBy c n)).length
      | none => 0)

/-- The die of a location of this package. -/
def locDie (loc : Nat) : Option Nat :=
  if isSlice loc then some (dieNum (sliceCore loc)) else if nodeOf loc = 0 then some (homeDie loc).val else none

/-- The seam links that a unit at a core crosses to a die: along the row first, then along the column it has reached. -/
def seamLinks (c : CoreId) (die : Nat) : List (CoreId × Port) :=
  let east := coreX c < 64 && die % 2 == 1
  let west := coreX c ≥ 64 && die % 2 == 0
  let x := if east then 64 else if west then 63 else coreX c
  (if east then [(coreAt 63 (coreY c), Port.e)] else if west then [(coreAt 64 (coreY c), Port.w)] else [])
  ++ (if coreY c < 80 && die ≥ 2 then [(coreAt x 79, Port.s)]
      else if coreY c ≥ 80 && die < 2 then [(coreAt x 80, Port.n)] else [])

/-- Whether a transfer has not ended (R442). -/
def transferLive (s : State) : Transfer → Bool
  | .stream c n =>
    let st := (coreOf s c).streams[n]
    st.mode == .active || (sdWrite st.desc && !st.buf.isEmpty)
  | .copy c ch n => (chanOf s c ch).cmds.any fun m => m.n == n && m.phase != .finished
  | .gang c i =>
    let t := (coreOf s c).tickets[i]
    t.busy && t.state == .frozen

/-- A transfer's context on a seam link is used, opening it if one of the 256 is free (R442). -/
def useCtx (s : State) (c : CoreId) (l : Port) (owner : Transfer) : State :=
  modCore s c fun k =>
    let q := k.ctxs[portFin l].filter fun x => transferLive s x.owner
    let q' := if q.any (fun x => x.owner == owner) then
        q.map fun x => if x.owner = owner then { x with last := s.ticks } else x
      else if q.length < 256 then q ++ [⟨owner, s.ticks⟩] else q
    { k with ctxs := k.ctxs.set (portFin l) q' }

/-- The contexts of transfers that have ended close (R442). -/
def closeCtxs (s : State) : State :=
  { s with cores := s.cores.map fun e =>
      (e.1, { e.2 with ctxs := e.2.ctxs.map fun q => q.filter fun x => transferLive s x.owner }) }

/-- An access of a transfer from a unit at a core to a location uses a context on each seam link of its way (R442). -/
def crossSeams (s : State) (c : CoreId) (loc : Nat) (owner : Transfer) : State :=
  match locDie loc with
  | some d => (seamLinks c d).foldl (fun s l => useCtx s l.1 l.2 owner) s
  | none => s

/-! ## Fetching (R175, R176, R178, R181) -/

/-- What an engine of a core reads of a word: the entries of the core's store queue, over the home. -/
def engineWord (s : State) (c : CoreId) (word key : Nat) : Option (W64 × Bool) :=
  strandWord s c 0 0 word key 0xFF

/-- The chunks of an element: bytes, offset of the chunk and its length; at most 8 bytes each. -/
def elemChunks (size : Nat) : List (Nat × Nat) :=
  if size ≤ 8 then [(0, size)] else (List.range (size / 8)).map fun j => (8 * j, 8)

inductive Fetch where
  /-- The element's bytes. -/
  | data (v : W256)
  | fault (f : ElemFault)
  /-- A presence bit, a lease or a scope miss is awaited. -/
  | await
deriving DecidableEq, Repr

/-- A chunk of an element checked; one past the end of the own-slice alias is an access violation (R280). -/
def elemAddr (s : State) (w : Who) (use : Use) (a : W64) (off : Nat) : Chk :=
  if (a + BitVec.ofNat 64 off).toNat < a.toNat then .violation else checkAddr s w use true (a + BitVec.ofNat 64 off)

/-- One element read by a stream engine, with the state after TLB fills, scope misses and seam crossings. -/
def readElem (s : State) (c : CoreId) (sid : StreamId) (w : Who) (pres : Bool) (a : W64) :
    List (Nat × Nat) → Fetch × State
  | [] => (.data 0, s)
  | (off, n) :: t =>
    match elemAddr s w .load a off with
    | .violation => (.fault .violation, s)
    | .fault r l e => (.fault (.translation r l e), s)
    | .await => (.await, s)
    | .ok ref s =>
      if (pres && !isPresent s (wordOf ref.loc)) || !peerTurn s c s.nextSeq ref.lease then (.await, s)
      else match engineWord s c (wordOf ref.loc) ref.key with
        | none => (.await, parkMiss s (.core c) (wordOf ref.loc))
        | some (v, p) =>
          if p then (.fault .poison, s)
          else match readElem (crossSeams s c ref.loc (.stream c sid)) c sid w pres a t with
            | (.data rest, s) =>
              (.data (rest ||| ((subWord v (ref.loc % 8) n).setWidth 256 <<< (8 * off))), s)
            | r => r

/-- Whether a read engine may fetch: it is ACTIVE, meets no recorded fault, and stays within 512 bytes of its position,
which entries that a bound engine has placed have not moved (R175, R176, R186). -/
def mayFetch (s : State) (c : CoreId) (n : StreamId) (st : Stream) : Bool :=
  st.mode == .active && !sdWrite st.desc && !streamFlt st && !(st.bound.isSome && (coreOf s c).frozen.isSome)
  && decide ((st.buf.length + 1) * sdSize st.desc + 32 * placedEntries s c n ≤ 512)

/-- A read engine fetches its next delivered element (R175, R176). -/
def streamFetch (s : State) (c : CoreId) (n : StreamId) : State :=
  let k := coreOf s c
  let st := k.streams[n]
  if !mayFetch s c n st then s
  else
    let r := nextOf s c st st.ahead
    if r.2 ≥ sdTotal st.desc then modStream s c n fun st => { st with skips := r.1, ahead := r.2 }
    else
      let put := fun s (e : Elem) => modStream s c n fun st =>
        { st with skips := r.1, ahead := r.2 + 1, buf := st.buf ++ [e] }
      if st.zeros.contains r.2 then put s ⟨r.2, true, 0, none⟩
      else match readElem s c n (streamWho s c st) (sdPres st.desc) (sdAddr st.desc r.2) (elemChunks (sdSize st.desc)) with
      | (.data v, s) => put s ⟨r.2, true, v, none⟩
      | (.fault f, s) => put s ⟨r.2, true, 0, some f⟩
      | (.await, s) => modStream s c n fun st => { st with skips := r.1 }

/-! ## Performing pushed elements (R177, R178, R181) -/

/-- The stream engines as fault agents (R410). -/
def streamAgent (n : StreamId) : Fin 20 := ⟨8 + n.val, by omega⟩

/-- A message of a stream engine (R177, R187). -/
def streamMsg (c : CoreId) (n : StreamId) (st : Stream) (src : FaultSource) (t : Nat) (f : ElemFault) : FaultMsg :=
  let m := { faultMsg 0x08 src c st.owner (sdAddr st.desc t) 0 st.ownerUid with
    strm := n, pos := sdPack st.desc t, wr := src == .writeStream }
  match f with
  | .translation r l e => { m with kind := 0x10, reason := r, level := l, entry := e }
  | .violation => m
  | .poison => { m with kind := 0x0D }

/-- An engine halts at the element at a place and waits on its message's TOKEN. -/
def streamPost (s : State) (c : CoreId) (n : StreamId) (idx : Nat) (m : FaultMsg) : State :=
  let token := agentToken s c (streamAgent n)
  modStream (postFault s (streamAgent n) m) c n fun st => { st with token := some token, stuck := some idx }

/-- All chunks of an element checked before any is written: the places, the first fault, or a wait. -/
def checkElem (s : State) (c : CoreId) (w : Who) (a : W64) : List (Nat × Nat) → Except (Option ElemFault) (List (Nat × Nat × Ref) × State)
  | [] => .ok ([], s)
  | (off, n) :: t =>
    match elemAddr s w .store a off with
    | .violation => .error (some .violation)
    | .fault r l e => .error (some (.translation r l e))
    | .await => .error none
    | .ok ref s =>
      if epochRevoked s ref.loc ref.lease then .error (some .violation)
      else if n < 8 && s.poison.contains (wordOf ref.loc / 8) then .error (some .poison)
      else if !peerTurn s c s.nextSeq ref.lease || footHeld s (wordOf ref.loc) then .error none
      else match checkElem s c w a t with
        | .ok (l, s) => .ok ((off, n, ref) :: l, s)
        | .error e => .error e

/-- A frozen core's bound engine pauses before an element that begins a port entry (R187). -/
def pausedAt (k : Core) (st : Stream) (e : Elem) : Bool := st.bound.isSome && k.frozen.isSome && e.first

/-- A write engine performs its oldest pushed element, or posts a message and halts (R177); a STOPPED stream goes on with
the elements it was given (R189). -/
def streamPerform (s : State) (c : CoreId) (n : StreamId) : State :=
  let k := coreOf s c
  let st := k.streams[n]
  if !sdWrite st.desc || st.token.isSome then s
  else match st.buf with
    | [] => s
    | e :: t =>
      if pausedAt k st e then s
      else match checkElem s c (streamWho s c st) (sdAddr st.desc e.idx) (elemChunks (sdSize st.desc)) with
      | .error none => s
      | .error (some f) => streamPost s c n e.idx (streamMsg c n st .writeStream e.idx f)
      | .ok (l, s) =>
        let s := modStream s c n fun st => { st with buf := t }
        l.foldl (fun s x =>
          let word := wordOf x.2.2.loc
          let v := (e.data >>> (8 * x.1)).setWidth 64
          let s := putBytes (crossSeams s c x.2.2.loc (.stream c n)) x.2.2.loc x.2.2.key x.2.1 v
          let s := if e.fault.isSome then poisonWord s word else s
          let s := if sdPres st.desc then setPresent s word else s
          wakeWord (setTag s word none) word) s

/-! ## Popping and pushing (R170 to R173) -/

/-- Elements that a pop requests: one for a scalar view, a group for a vector view. -/
def wantOf (st : Stream) (vec : Bool) : Nat := if vec then sdGroup st.desc else 1

/-- Whether a read stream holds what a pop requests (R100, R172): enough elements, a fault among them, or the end. -/
def popReady (s : State) (c : CoreId) (st : Stream) (want : Nat) : Bool :=
  decide (want ≤ st.buf.length) || (st.buf.take want).any (fun e => e.fault.isSome)
  || decide ((nextOf s c st st.ahead).2 ≥ sdTotal st.desc)

/-- The fault that a pop meets: that of the first faulting element (R176). -/
def popFault (st : Stream) (want : Nat) : Option Elem := (st.buf.take want).find? fun e => e.fault.isSome

/-- The bytes a pop delivers (R170, R172). -/
def popBytes (st : Stream) : List Elem → Nat → W256
  | [], _ => 0
  | e :: t, j => ((e.data % 2 ^ (8 * sdSize st.desc)) <<< (8 * sdSize st.desc * j)) ||| popBytes st t (j + 1)

/-- The scalar that a scalar view delivers (R170). -/
def scalarOf (st : Stream) (v : W256) : W64 :=
  let sz := sdSize st.desc
  if sz ≥ 8 then v.setWidth 64
  else if sdSx st.desc then sext v (8 * sz) 64 else (v.setWidth (8 * sz)).setWidth 64

/-- A pop committed: the elements go, the position advances, END is set when they run out (R172). -/
def popStream (s : State) (c : CoreId) (n : StreamId) (vec : Bool) : State :=
  modStream s c n fun st =>
    let want := wantOf st vec
    let got := st.buf.take want
    let r := match got.getLast? with
      | some e => nextPlace s.mem c st.desc (2 * sdTotal st.desc + 2) st.skips (e.idx + 1)
      | none => if st.exh then (st.skips, sdTotal st.desc) else nextOf s c st st.pos
    let st := setPlace st r.1 r.2
    { st with buf := st.buf.drop want, endF := st.endF || decide (got.length < want) }

/-- Places a push fills, from the position on (R173, R179). -/
def pushPlaces (s : State) (c : CoreId) (st : Stream) (vec : Bool) : List Nat × List W32 × Nat :=
  if st.exh then ([], st.skips, sdTotal st.desc)
  else takePlaces s.mem c st.desc (wantOf st vec) st.skips st.pos

/-- Whether the buffer has room for a push (R175). -/
def pushRoom (st : Stream) (vec : Bool) : Bool :=
  decide ((st.buf.length + wantOf st vec) * sdSize st.desc ≤ 512)

/-- Elements cut from 32 bytes (R170). -/
def cutElems (st : Stream) (v : W256) (fault : Option ElemFault) : List Nat → Nat → List Elem
  | [], _ => []
  | t :: ts, j => ⟨t, j == 0, (v >>> (8 * sdSize st.desc * j)) % 2 ^ (8 * sdSize st.desc), fault⟩ :: cutElems st v fault ts (j + 1)

/-- A push committed (R170). -/
def pushStream (s : State) (c : CoreId) (n : StreamId) (vec : Bool) (v : W256) : State :=
  modStream s c n fun st =>
    let r := pushPlaces s c st vec
    let st := setPlace st r.2.1 r.2.2
    { st with buf := st.buf ++ cutElems st v none r.1 0 }

/-! ## Pushes and pops of ports (R227 to R231, R441) -/

/-- Free entries that a push over a link finds (R228, R233, R441). -/
def linkFree (s : State) (c : CoreId) (l : Port) : Nat :=
  if crossesSeam c l then 4 - (seamOf (coreOf s c) l).length
  else match neighbour c l with
    | some n => 4 - (inqOf (coreOf s n) (opposite l)).length
    | none => 0

/-- R232: the sideband tag given to pushed entries. -/
def tagBits (k : Core) : BitVec 7 := if bit k.ptag 6 then k.ptag.setWidth 7 else 0

/-- An entry pushed over a link with room (R227, R441). -/
def pushLink (s : State) (c : CoreId) (l : Port) (e : PortEntry) : State :=
  if crossesSeam c l then modCore s c fun k => setSeam k l (seamOf k l ++ [e])
  else match neighbour c l with
    | some n => modCore s n fun k => setInq k (opposite l) (inqOf k (opposite l) ++ [e])
    | none => s

/-- The oldest entry of an inbound queue goes; a bound stream that supplied it advances (R186, R227). -/
def popLink (s : State) (c : CoreId) (l : Port) : State :=
  match inqOf (coreOf s c) l with
  | [] => s
  | e :: t =>
    let s := modCore s c fun k => setInq k l t
    match e.src with
    | some (c', n', next) => modStream s c' n' fun st => setPlace st st.skips next
    | none => s

/-- The stream of a core that holds a link direction bound (R185). -/
def boundOn (k : Core) (l : Port) (write : Bool) : Option StreamId :=
  (List.finRange 4).find? fun n =>
    let st := k.streams[n]
    st.bound == some l && sdWrite st.desc == write && st.mode == .active

/-- A stream with entries withdrawn: its position names the first element of the first of them (R186). -/
def standAtFirst (s : State) (c : CoreId) (st : Stream) : Stream :=
  if st.exh then st else let r := nextOf s c st st.pos; setPlace st r.1 r.2

/-- R186: the entries that a bound read stream placed and nobody popped are withdrawn. -/
def withdraw (s : State) (c : CoreId) (n : StreamId) : State :=
  let st := (coreOf s c).streams[n]
  match st.bound with
  | none => s
  | some l =>
    if sdWrite st.desc then s
    else
      let mine := suppliedBy c n
      let some_ := decide (0 < placedEntries s c n)
      let s := modCore s c fun k => setSeam k l ((seamOf k l).filter fun e => !mine e)
      let s := match neighbour c l with
        | some d => modCore s d fun k => setInq k (opposite l) ((inqOf k (opposite l)).filter fun e => !mine e)
        | none => s
      modStream s c n fun st => dropBuffer (if some_ then standAtFirst s c st else st)

/-- R186: a stream unbound. -/
def unbind (s : State) (c : CoreId) (n : StreamId) : State :=
  modStream (withdraw s c n) c n fun st => { st with bound := none }

/-- BOUND_STREAM_PUSH (R185, R187). -/
def boundPush (s : State) (c : CoreId) (n : StreamId) : State :=
  let k := coreOf s c
  let st := k.streams[n]
  match st.bound with
  | none => s
  | some l =>
    if sdWrite st.desc || st.mode != .active || st.token.isSome || k.frozen.isSome then s
    else
      let want := sdGroup st.desc
      let got := st.buf.take want
      if !popReady s c st want then s
      else match popFault st want with
        | some e => streamPost s c n e.idx (streamMsg c n st .readStream e.idx (e.fault.getD .violation))
        | none =>
          match got.getLast? with
          | none => s
          | some last =>
            if linkFree s c l = 0 then s
            else
              let r := nextPlace s.mem c st.desc (2 * sdTotal st.desc + 2) st.skips (last.idx + 1)
              let s := if crossesSeam c l then useCtx s c l (.stream c n) else s
              let s := pushLink s c l ⟨popBytes st got 0, tagBits k, false, some (c, n, r.2), none⟩
              modStream s c n fun st => { st with buf := st.buf.drop want, skips := r.1 }

/-- BOUND_STREAM_POP (R185). -/
def boundPop (s : State) (c : CoreId) (n : StreamId) : State :=
  let k := coreOf s c
  let st := k.streams[n]
  match st.bound with
  | none => s
  | some l =>
    if !sdWrite st.desc || st.mode != .active || st.token.isSome || k.frozen.isSome then s
    else match inqOf k l with
      | [] => s
      | e :: _ =>
        let r := pushPlaces s c st true
        if r.1.isEmpty || !pushRoom st true then s
        else
          modStream (popLink s c l) c n fun st =>
            let st := setPlace st r.2.1 r.2.2
            { st with buf := st.buf ++ cutElems st e.data (if e.poison then some .poison else none) r.1 0 }

/-- SEAM_BUFFER_FORWARD (R441). -/
def seamForward (s : State) (c : CoreId) (l : Port) : State :=
  match seamOf (coreOf s c) l, neighbour c l with
  | e :: t, some n =>
    if (inqOf (coreOf s n) (opposite l)).length ≥ 4 then s
    else
      let s := modCore s c fun k => setSeam k l t
      modCore s n fun k => setInq k (opposite l) (inqOf k (opposite l) ++ [e])
  | _, _ => s

end Sys2Proof.Machine
end

