-- ==== Sys2Proof/Machine/Strands.lean ====
section
/-!
DEFINITION. Strand slots and start states (R24, R199, R200), barriers (R218, R219), engine timelines (R335, R336) and
software timelines (R337, R362).
-/
namespace Sys2Proof.Machine

/-! ## All strands of the package -/

/-- Every occupied strand changed. -/
def mapStrands (s : State) (f : CoreId → Strand → Strand) : State :=
  { s with cores := s.cores.map fun e =>
      (e.1, { e.2 with slots := e.2.slots.map fun t => if t.occ then f e.1 t else t }) }

/-- The strands of a bond on the cores of a cluster test. -/
def bondStrands (s : State) (b : Nat) (inCluster : Nat → Bool) : List (CoreId × Slot × Strand) :=
  s.cores.flatMap fun e =>
    if inCluster (clusterIdx e.1) then
      ((coreStrands e.2).filter fun t => t.2.bond == some b).map fun t => (e.1, t.1, t.2)
    else []

/-! ## Barriers (R218, R219) -/

def emptyBarrier : Barrier := ⟨[], [], 0⟩

/-- The barrier of a level, as seen from a cluster. -/
def barOf (s : State) (b : Nat) (l : BarLevel) (cl : Nat) : Barrier :=
  match mapFind s.bonds b with
  | none => emptyBarrier
  | some x => match l with
    | .bond => x.bar
    | .course => mapGet emptyBarrier x.courses cl

def setBar (s : State) (b : Nat) (l : BarLevel) (cl : Nat) (x : Barrier) : State :=
  modBond s b fun y => match l with
    | .bond => { y with bar := x }
    | .course => { y with courses := mapSet cl x y.courses }

/-- The scope of a barrier's release and acquire (R219). -/
def barScope : BarLevel → Scope
  | .course => .cl
  | .bond => .pk

/-- Whether a strand is blocked at BAR in a phase (R219). -/
def atBarrier (b : Nat) (l : BarLevel) (cl : Nat) (ph : W32) (c : CoreId) (t : Strand) : Bool :=
  t.bond == some b && t.wait == .barrier l ph && (l == .bond || clusterIdx c == cl)

/-- A strand blocked at BAR goes on after its phase completes (R219). -/
def passBarrier (b : Nat) (l : BarLevel) (cl : Nat) (ph : W32) (c : CoreId) (t : Strand) : Strand :=
  if atBarrier b l cl ph c t then { t with wait := .none, pc := t.pc + 4 } else t

/-- The strands that a completed phase lets go on acquire at its scope (R219). -/
def acquireBarrier (s : State) (b : Nat) (l : BarLevel) (cl : Nat) (ph : W32) : State :=
  (s.cores.flatMap fun e => ((coreStrands e.2).filter fun t => atBarrier b l cl ph e.1 t.2).map fun t => (e.1, t.2.uid)).foldl
    (fun s e => markAcquire s e.1 e.2 (barScope l)) s

/-- BARRIER_PHASE_COMPLETE (R218): when every member has arrived the phase number advances. -/
def settleBarrier (s : State) (b : Nat) (l : BarLevel) (cl : Nat) : State :=
  let x := barOf s b l cl
  if x.members = [] ∨ x.arrived.length ≠ x.members.length then s
  else
    let s := acquireBarrier (setBar s b l cl { x with arrived := [], phase := x.phase + 1 }) b l cl x.phase
    mapStrands s (passBarrier b l cl x.phase)

/-- A strand becomes a member of its course and bond (R218). -/
def joinBarriers (s : State) (b : Nat) (c : CoreId) (uid : Nat) : State :=
  let cl := clusterIdx c
  let add := fun (x : Barrier) => { x with members := x.members ++ [uid] }
  let s := setBar s b .bond cl (add (barOf s b .bond cl))
  setBar s b .course cl (add (barOf s b .course cl))

/-- A member arrives in the current phase (R219). -/
def arriveBarrier (s : State) (b : Nat) (l : BarLevel) (cl uid : Nat) : State :=
  let x := barOf s b l cl
  settleBarrier (setBar s b l cl { x with arrived := x.arrived ++ [uid] }) b l cl

/-- A member leaves a barrier; its departure completes the phase if every other member has arrived (R218). -/
def leaveBarrier (s : State) (b : Nat) (l : BarLevel) (cl uid : Nat) : State :=
  let x := barOf s b l cl
  if x.members.contains uid then
    let x := { x with members := x.members.filter (· != uid), arrived := x.arrived.filter (· != uid) }
    settleBarrier (setBar s b l cl x) b l cl
  else s

/-! ## Slots (R199, R200) -/

/-- The lowest-numbered free slot. -/
def freeSlot (k : Core) : Option Slot := (List.finRange 8).find? fun i => !k.slots[i].occ

/-- A slot becomes free: its strand leaves its barriers, and no state of it remains. An arrival that its release still
delays is not made: the strand leaves at once (log 99). -/
def leaveSlot (s : State) (c : CoreId) (i : Slot) : State :=
  let t := strandAt s c i
  let s := modStrand s c i fun _ => Strand.free
  match t.bond with
  | none => s
  | some b => leaveBarrier (leaveBarrier s b .bond (clusterIdx c) t.uid) b .course (clusterIdx c) t.uid

/-- g registers with the first ones given. -/
def regsFrom (l : List W64) : Vector W64 24 := Vector.ofFn fun i => l.getD i.val 0

/-- What every strand of a bond starts with (R24): the zero state with its bond, job, partition and policies. -/
def startBase (s : State) (b : Option Nat) (job part uid : Nat) (pc : W64) : Strand :=
  { Strand.free with
    occ := true
    uid := uid
    pc := pc
    bond := b
    job := job
    part := part
    contup := match b.bind (mapFind s.bonds) with | some x => x.contup | none => 0 }

/-- Message column of R24 (R212). -/
def startMessage (s : State) (m : InMsg) (uid : Nat) (pc : W64) (regs : Vector W64 8) (g8 g9 : W64) : Strand :=
  { startBase s m.bond m.job m.part uid pc with
    kind := .message
    g := regsFrom (regs.toList ++ [g8, g9])
    gPoison := if m.poison then 0x3FF else 0
    tvec := (jobOf s m.job).cfgTvec }

/-- SPAWN column of R24 (R209). -/
def startSpawned (s : State) (m : InMsg) (uid : Nat) (pc : W64) (first : Nat) (regs : List W64)
    (fcsr orient tvec dhint : W64) (sup : Bool) : Strand :=
  { startBase s m.bond m.job m.part uid pc with
    kind := .spawned
    g := regsFrom (List.replicate first 0 ++ regs)
    gPoison := if m.poison then BitVec.ofNat 24 ((2 ^ regs.length - 1) * 2 ^ first) else 0
    fcsr := fcsr
    orient := orient
    tvec := tvec
    dhint := dhint
    super := sup
    member := true }

/-- FAN column of R24 (R217). -/
def startFanned (s : State) (b : Option Nat) (job part uid : Nat) (c : CoreId) (pc arg idx size : W64) : Strand :=
  { startBase s b job part uid pc with
    kind := .fan
    g := regsFrom [arg, idx, xyWord c, size]
    tvec := (jobOf s job).cfgTvec
    index := idx
    member := true }

/-- A strand put into a slot; bit 0 of its PC is 0 (R12), and its start is an acquire (R215, R260, R325). -/
def putStrand (s : State) (c : CoreId) (i : Slot) (t : Strand) : State :=
  markAcquire (modStrand s c i fun _ => { t with pc := t.pc &&& ~~~(1 : W64) }) c t.uid .sy

/-! ## Engine timelines (R335, R336) -/

/-- The counter moved over every number above it that is complete. -/
def tlPrefix : Nat → W64 → List Nat → W64
  | 0, c, _ => c
  | n + 1, c, l => if l.contains (c.toNat + 1) then tlPrefix n (c + 1) l else c

/-- Command n of a context completes with an outcome: COUNTER_ADVANCE. -/
def tlFinish (t : Timeline) (n : Nat) (o : Byte) : Timeline :=
  let all := setAdd n t.complete
  let c := tlPrefix all.length t.counter all
  { t with
    counter := c
    complete := all.filter (· > c.toNat)
    outcomes := (mapSet n o t.outcomes).filter fun e => c.toNat < e.1 + 64
    err := t.err || o != 0
    cause := if o = 0 then t.cause else o }

/-! ## Software timelines and interrupts (R337, R362, R459) -/

/-- A software timeline never goes back (R362, R468). -/
def advanceTimeline (s : State) (job tl : Nat) (v : W64) : State :=
  modJob s job fun j =>
    let old : W64 := mapGet 0 j.timelines tl
    { j with timelines := mapSet tl (if old.toNat < v.toNat then v else old) j.timelines }

def sendMsix (s : State) (vec : Nat) : State := { s with dev := { s.dev with msix := vec :: s.dev.msix } }

/-! ## Packets of command queues (R464, R468) -/

/-- Word i of a packet. -/
def pktWord (p : QPacket) (i : Nat) : W64 := p.words.extractLsb' (64 * i) 64
def pktType (p : QPacket) : Nat := bits (pktWord p 0) 3 1
def pktPrio (p : QPacket) : Nat := bits (pktWord p 0) 5 4
def pktNdep (p : QPacket) : Nat := bits (pktWord p 0) 7 6

def queueJob (q : Queue) : Nat := bits q.qcfg 9 4

/-- A packet taken by a queue has done its work; its completion follows (R468). -/
def markDone (s : State) (q n : Nat) : State :=
  modQueue s q fun x => { x with taken := x.taken.map fun t => if t.n = n then { t with done := true } else t }

/-- A queue stops with ERR, a cause and the index of the failing packet (R468). -/
def stopQueue (s : State) (q : Nat) (cause : Byte) (index : Nat) : State :=
  modQueue s q fun x => { x with
    run := false, err := true, cause := cause, epos := BitVec.ofNat 16 index, hand := none }

/-- The packet in hand stops its queue, and completes like every packet taken before it (R468). -/
def failPacket (s : State) (q : Nat) (cause : Byte) (index : Nat) : State :=
  let take := fun (x : Queue) => match x.hand with
    | some p => { x with taken := x.taken ++ [⟨x.next, queueJob x, p, true⟩], next := x.next + 1 }
    | none => x
  stopQueue (modQueue s q take) q cause index

end Sys2Proof.Machine
end

