-- ==== Sys2Proof/Machine/Gang.lean ====
section
/-!
DEFINITION. Gang descriptors, tickets, the claim, the cells' arithmetic and thaws (R234 to R262).
-/
namespace Sys2Proof.Machine

/-! ## The descriptor (R238) -/

def gdX0 (d : W512) : Nat := bits d 6 0
def gdY0 (d : W512) : Nat := bits d 15 8
/-- Width and height in cores. -/
def gdW (d : W512) : Nat := bits d 21 16 + 1
def gdH (d : W512) : Nat := bits d 29 24 + 1
inductive GangMode where | rs | ws | giv | reserved
deriving DecidableEq, Repr
def gdMode (d : W512) : GangMode := match bits d 31 30 with | 0 => .rs | 1 => .ws | 2 => .giv | _ => .reserved
def gdArev (d : W512) : Bool := bit d 32
def gdBrev (d : W512) : Bool := bit d 33
def gdHold (d : W512) : Bool := bit d 34
def gdKeep (d : W512) : Bool := bit d 35
def gdStash (d : W512) : Bool := bit d 36
def gdCturn (d : W512) : Bool := bit d 37
def gdBse (d : W512) : Bool := bit d 38
def gdScen (d : W512) : Bool := bit d 39
def gdZpen (d : W512) : Bool := bit d 40
def gdPin (d : W512) : Bool := bit d 41
def gdAfmt (d : W512) : Option GFmt := gfmtOf (bits d 47 42)
def gdBfmt (d : W512) : Option GFmt := gfmtOf (bits d 53 48)
def gdQf (d : W512) : Nat := bits d 59 54
/-- W of the Q descriptor, 128 for the reserved code. -/
def gdQw (d : W512) : Nat := 16 * 2 ^ bits d 61 60
def gdK (d : W512) : Nat := bits d 95 64
def gdStart (d : W512) : Nat := bits d 127 96
def gdDbase (d : W512) : Nat := bits d 191 128
def gdDpitch (d : W512) : Nat := bits d 223 192
def gdDrain (d : W512) : Bool := bit d 224
def gdWake (d : W512) : Bool := bit d 225
def gdWakeCore (d : W512) : CoreId := coreAt (bits d 238 232) (bits d 247 240)
def gdWtag (d : W512) : Nat := bits d 251 248
def gdWhnd (d : W512) : W64 := d.extractLsb' 256 64
def gdSbase (d : W512) : Nat := bits d 383 320
def gdTbase (d : W512) : Nat := bits d 447 384
def gdScoff (d : W512) : Nat := bits d 463 448
def gdZpoff (d : W512) : Nat := bits d 479 464
def gdBsaoff (d : W512) : Nat := bits d 495 480
def gdBsboff (d : W512) : Nat := bits d 511 496

/-- The shape of the descriptor's pair; of a solver gang one element per cell. -/
def gdPair (d : W512) : Option PairShape :=
  match gdMode d, gdAfmt d, gdBfmt d with
  | .giv, some .q, some .q => some ⟨1, 1, .i32⟩
  | .rs, some a, some b | .ws, some a, some b => pairOf a b
  | _, _, _ => none

def accBytes : AccFmt → Nat
  | .fp64 => 8 | .fp32 | .i32 => 4

/-- Bytes of a result element (R239). -/
def gdEs (d : W512) (p : PairShape) : Nat :=
  match gdMode d with
  | .giv => gdQw d / 8
  | _ => if gdScen d then 4 else accBytes p.acc

/-- The accumulator of a cell: of block-scaled I8 it is FP32 (R59). -/
def gdAcc (d : W512) (p : PairShape) : AccFmt := if gdBse d then .fp32 else p.acc

/-- R239, with the pair's shape. -/
def gdValidWith (d : W512) (p : PairShape) : Bool :=
  let es := gdEs d p
  let ws := gdMode d == .ws
  let rs := gdMode d == .rs
  let giv := gdMode d == .giv
  let nb := ceilDiv (gdK d) 32
  (!giv || (decide (gdQw d ≤ 64) && decide (gdQf d < gdQw d) && decide (gdH d ≤ gdW d)))
  && decide (gdStart d < gdK d)
  && (ws || (!gdHold d && !gdPin d)) && (rs || (!gdBse d && !gdStash d && !gdCturn d))
  && (!gdCturn d || gdStash d) && (!gdDrain d || !ws)
  && (!gdBse d || (match gdAfmt d, gdBfmt d with | some (.b8 _), some (.b8 _) | some .i8, some .i8 => true | _, _ => false))
  && (!gdScen d || (p.acc != .fp64 && !giv)) && (!gdZpen d || gdBfmt d == some .i4)
  && (!gdDrain d || (gdDbase d % es == 0 && gdDpitch d % es == 0 && decide (gdDpitch d ≥ gdW d * p.cn * es)))
  && (!gdStash d || gdSbase d % es == 0) && (!gdCturn d || gdTbase d % es == 0)
  && (!gdScen d || (gdScoff d % 4 == 0 && decide (gdScoff d + 4 * p.cn ≤ 65536)))
  && (!gdZpen d || decide (gdZpoff d + p.cn / 2 ≤ 65536))
  && (!gdBse d || (gdBsaoff d % 4 == 0 && gdBsboff d % 4 == 0 && decide (gdBsaoff d + 4 * p.rm * nb ≤ 65536)
      && decide (gdBsboff d + 4 * p.cn * nb ≤ 65536)))

/-- R239: the shape of a valid descriptor. -/
def gdValid (d : W512) : Option PairShape :=
  if bit d 7 || bits d 23 22 != 0 || bits d 63 62 != 0 || bits d 231 226 != 0 || bit d 239 || bits d 255 252 != 0 then none
  else match gdPair d with
    | some p => if gdValidWith d p then some p else none
    | none => none

/-! ## Places (R246, R247) -/

/-- The core of cell (u, v); coordinates below 0 or past the package are `none`. -/
def cellCore (d : W512) (u v : Int) : Option CoreId :=
  let x : Int := gdX0 d + (if gdArev d then gdW d - 1 - u else u)
  let y : Int := gdY0 d + (if gdBrev d then gdH d - 1 - v else v)
  if 0 ≤ x ∧ x < 128 ∧ 0 ≤ y ∧ y < 160 then some (coreAt x.toNat y.toNat) else none

/-- (u, v) of a core of the rectangle. -/
def cellU (d : W512) (c : CoreId) : Nat := if gdArev d then gdX0 d + gdW d - 1 - coreX c else coreX c - gdX0 d
def cellV (d : W512) (c : CoreId) : Nat := if gdBrev d then gdY0 d + gdH d - 1 - coreY c else coreY c - gdY0 d

/-- The links of a cell: A or activations in and out, B or partial sums in and out. -/
def linkA (d : W512) : Port := if gdArev d then .e else .w
def linkB (d : W512) : Port := if gdBrev d then .s else .n

/-- The cells of the rectangle, row by row. -/
def gangCells (d : W512) : List (Nat × Nat) :=
  (List.range (gdH d)).flatMap fun (v : Nat) => (List.range (gdW d)).map fun (u : Nat) => (u, v)

/-- Whether a cell takes part (R262). -/
def takesPart (d : W512) (u v : Nat) : Bool := gdMode d != .giv || decide (v ≤ u)

/-- The cores of the rectangle; none when it leaves the package. -/
def gangCores (d : W512) : List (Option CoreId) := (gangCells d).map fun e => cellCore d e.1 e.2

/-- The cores beyond the input edges, and in WS beyond the output edge (R241). -/
def gangBeyond (d : W512) : List (Option CoreId) :=
  (List.range (gdH d)).map (fun (v : Nat) => cellCore d (-1) v)
    ++ (List.range (gdW d)).map (fun (u : Nat) => cellCore d u (-1))
  ++ (if gdMode d = .ws then (List.range (gdW d)).map fun (u : Nat) => cellCore d u (gdH d) else [])

/-- Every drain and stash write: cell, accumulator, address (R254). -/
def gangWrites (d : W512) (p : PairShape) : List ((Nat × Nat) × (Nat × Nat) × Nat) :=
  let es := gdEs d p
  let n := gdW d * p.cn
  let m := gdH d * p.rm
  let part := fun (on : Bool) (f : Nat → Nat → Nat) =>
    if on then (gangCells d).flatMap fun e => if takesPart d e.1 e.2 then
      (List.range p.rm).flatMap fun r => (List.range p.cn).map fun c =>
        (e, (r, c), f (e.2 * p.rm + r) (e.1 * p.cn + c)) else []
    else []
  part (gdDrain d) (fun i j => gdDbase d + i * gdDpitch d + j * es)
  ++ part (gdStash d) (fun i j => gdSbase d + (i * n + j) * es)
  ++ part (gdCturn d) (fun i j => gdTbase d + (j * m + i) * es)

/-! ## Tickets (R240, R243, R263) -/

def ticketWord (c : CoreId) (i : Fin 4) (t : Ticket) : W64 :=
  xyWord c + BitVec.ofNat 64 (i.val * 2 ^ 24 + t.seq.toNat * 2 ^ 32)

def gangStateCode : GangState → Nat
  | .claiming => 0 | .frozen => 1 | .done => 2 | .preempted => 3 | .thawed => 4 | .fault => 5 | .refused => 6 | .stale => 7

/-- The entry cell's pulse (R246). -/
def entryPulse (t : Ticket) : Nat :=
  match (cellCore t.desc 0 0).bind (mapFind t.cells) with
  | some x => x.pulse
  | none => gdStart t.desc

/-- The status word (R263). -/
def gangStatus (t : Ticket) : W64 :=
  let at_ := t.state == .fault || t.state == .refused
  let pulse := match t.state with
    | .claiming => gdStart t.desc
    | .frozen => entryPulse t % 2 ^ 32
    | .refused | .stale => 0
    | _ => t.pulse.toNat
  BitVec.ofNat 64 (gangStateCode t.state + 16 * t.reason.toNat + 256 * t.cause.toNat
    + (if at_ then 2 ^ 16 * t.cx.toNat + 2 ^ 22 * t.cy.toNat else 0)
    + 2 ^ 28 * t.zpiv.toNat + 2 ^ 29 * t.late.toNat + 2 ^ 32 * pulse)

/-- The wake message of a gang, in its outbound place (R260). -/
def gangWakeOut (s : State) (c : CoreId) (i : Fin 4) (t : Ticket) : Option OutMsg :=
  let dst := gdWakeCore t.desc
  if gdWake t.desc && inBond s (some t.bond) dst then
    let b := mapFind s.bonds t.bond
    let regs := payload [ticketWord c i t, gangStatus t]
    some ⟨0, 0, .cr, .gangWake dst ⟨.message (gdWhnd t.desc) regs (xyWord c) (BitVec.ofNat 64 (gdWtag t.desc)),
      some t.bond, (b.map fun b => b.job).getD 0, (b.map fun b => b.part).getD 0, 1, false, false⟩⟩
  else none

/-! ## The claim (R241, R242) -/

def gangFinal : GangState → Bool
  | .claiming | .frozen => false
  | .done | .preempted | .thawed | .fault | .refused | .stale => true

/-- The cores that a gang has frozen or is claiming are free again. -/
def releaseCores (s : State) (c : CoreId) (i : Fin 4) : State :=
  { s with cores := s.cores.map fun e => (e.1, { e.2 with
      frozen := if e.2.frozen = some (.gang c i) then none else e.2.frozen
      claimed := if e.2.claimed = some (c, i) then none else e.2.claimed }) }

/-- Whether every address of a slice window among the writes names a core of the bond. -/
def targetsMine (s : State) (c : CoreId) (b : Nat) (ws : List ((Nat × Nat) × (Nat × Nat) × Nat)) : Bool :=
  ws.all fun w =>
    if w.2.2 ≥ 2 ^ 64 then true
    else match regionOf c (BitVec.ofNat 64 w.2.2) with
      | some (.slice k _ own) => own || inBond s (some b) k
      | _ => true

/-- The refusal reason of a claim, but for reason 3. -/
def claimReason (s : State) (c : CoreId) (t : Ticket) : Option (BitVec 4) :=
  let d := t.desc
  match gdValid d with
  | none => some 4
  | some p =>
    let mine := fun (o : Option CoreId) => match o with | some k => inBond s (some t.bond) k | none => false
    if !((gangCores d ++ gangBeyond d).all Option.isSome) then some 5
    else if (gangCores d).contains (some c) then some 1
    else if !((gangCores d ++ gangBeyond d).all mine) || !targetsMine s c t.bond (gangWrites d p)
        || (gdWake d && !inBond s (some t.bond) (gdWakeCore d)) then some 2
    else none

/-- A refused claim: no core is held, and the wake message goes out where R241 has one. -/
def refuseClaim (s : State) (c : CoreId) (i : Fin 4) (reason : BitVec 4) (u v : Nat) : State :=
  let s := modTicket (releaseCores s c i) c i fun t => { t with
    state := .refused, reason := reason, cx := BitVec.ofNat 6 u, cy := BitVec.ofNat 6 v }
  let t := (coreOf s c).tickets[i]
  if reason = 4 then s
  else let m := gangWakeOut s c i t; modTicket s c i fun t => { t with unsent := m }

/-- Bytes of a core's own slice as a cell reads them: the word that its home withholds, or the value and its poison. -/
def cellRead (s : State) (c : CoreId) (off : Nat) : Nat → Except Nat (Nat × Bool)
  | 0 => .ok (0, false)
  | n + 1 => do
    let r ← cellRead s c off n
    let loc := sliceLoc c (off + n)
    let word := wordOf loc
    if !readable s (.core c) word then .error word
    else .ok (r.1 + (memGet s.mem loc).toNat * 2 ^ (8 * n), r.2 || s.poison.contains (word / 8))

/-- A cell's fault (R257); the first one stands. -/
def faultGang (s : State) (c : CoreId) (i : Fin 4) (cause : Byte) (u v pulse : Nat) : State :=
  modTicket s c i fun t => { t with faulted := t.faulted.or (some (cause, u, v, pulse)) }

/-- The lanes that R237 assigns to a cell. -/
def cellLanes (d : W512) (p : PairShape) : List Nat :=
  match gdMode d with
  | .rs => if gdBse d then List.range 256
    else List.range (p.rm * p.cn * (if p.acc = .fp64 then 2 else 1))
  | .ws => (List.range 32).map (128 + ·) ++ List.range (if p.acc = .fp64 then 8 else p.cn)
  | _ => if gdQw d = 64 then [0, 1] else [0]

/-- A lane of the accumulator file. -/
def kAt (k : Core) (i : Nat) : W32 := (k.k[i]?).getD 0
/-- A lane replaced; its word's poison stays. -/
def kPut (k : Core) (i : Nat) (x : W32) : Core := if h : i < 256 then { k with k := k.k.set i x } else k
/-- Two lanes of one word replaced: its poison goes (R421). -/
def kPutPair (k : Core) (i : Nat) (x : W64) : Core :=
  let k := kPut (kPut k i (x.setWidth 32)) (i + 1) ((x >>> 32).setWidth 32)
  { k with kPoison := putBits k.kPoison (i / 2) 1 0 }
/-- A list of lanes replaced: words written in both lanes lose their poison. -/
def kPutLanes (k : Core) (l : List (Nat × W32)) : Core :=
  let k' := l.foldl (fun k e => kPut k e.1 e.2) k
  let whole := (l.filter fun e => e.1 % 2 = 0 && l.any fun f => f.1 == e.1 + 1).map fun e => e.1 / 2
  { k' with kPoison := whole.foldl (fun q i => putBits q i 1 0) k'.kPoison }
/-- Whether a lane's word is poisoned. -/
def kBad (k : Core) (i : Nat) : Bool := bit k.kPoison (i / 2)

/-- The zero points of a cell (R249). -/
def readZp (s : State) (c : CoreId) (d : W512) (p : PairShape) : Except Nat (Nat × Bool) :=
  if gdZpen d then cellRead s c (gdZpoff d) (p.cn / 2) else .ok (0, false)

/-- A strand of a core that freezes: a WAITGEN that waits has not issued, and is executed again after the thaw (R363). -/
def unissueWaits (t : Strand) : Strand :=
  let gen := fun (p : Pending) => match p.kind with | .gen _ => true | _ => false
  if t.inflight.any gen then
    { t with inflight := t.inflight.filter (fun p => !gen p), wait := if t.wait = .answer then .none else t.wait }
  else t

/-- A core freezes (R242, R244, R367). -/
def freezeCore (k : Core) (f : Freezer) : Core :=
  { k with frozen := some f, claimed := none, slots := k.slots.map unissueWaits }

/-- All cores freeze together (R242, R244, R245). -/
def freezeCells (s : State) (c : CoreId) (i : Fin 4) (d : W512) (p : PairShape) : List CoreId → State
  | [] => s
  | k :: t =>
    let r := match readZp s k d p with | .ok r => r | .error _ => (0, false)
    let cell : Cell := ⟨gdStart d, 0, BitVec.ofNat 64 r.1, none, 0, false⟩
    let s := modCore s k fun x =>
      let x := freezeCore x (.gang c i)
      if gdKeep d || !takesPart d (cellU d k) (cellV d k) then x else kPutLanes x ((cellLanes d p).map fun l => (l, 0))
    let s := modTicket s c i fun t => { t with cells := mapSet k cell t.cells }
    let s := if r.2 then faultGang s c i 0x0D (cellU d k) (cellV d k) (gdStart d) else s
    freezeCells s c i d p t

/-- The gang freezes once every core has accepted; a cell whose zero points its home withholds makes it wait. -/
def freezeGang (s : State) (c : CoreId) (i : Fin 4) (d : W512) (p : PairShape) (cs : List CoreId) : State :=
  match cs.findSome? fun k => match readZp s k d p with | .error w => some (k, w) | .ok _ => none with
  | some (k, w) => parkMiss s (.core k) w
  | none =>
    let tick := ((coreOf s c).tickets[i]).tick
    let now := match cellCore d 0 0 with | some k => plumbAt s k | none => 0
    let s := freezeCells s c i d p cs
    modTicket s c i fun t => { t with
      state := .frozen
      started := decide (tick.toNat ≤ now.toNat)
      late := tick != 0 && decide (tick.toNat < now.toNat) }

/-- Whether a core rejects the claim of a gang. -/
def rejects (s : State) (c : CoreId) (i : Fin 4) (k : CoreId) : Bool :=
  let x := coreOf s k
  x.frozen.isSome || (match x.claimed with | some e => e != (c, i) | none => false)

/-- Cores accept one after another; the first that rejects ends the claim. -/
def claimCores (s : State) (c : CoreId) (i : Fin 4) (d : W512) : List CoreId → State
  | [] => s
  | k :: t =>
    if rejects s c i k then refuseClaim s c i 3 (cellU d k) (cellV d k)
    else claimCores (modCore s k fun x => { x with claimed := some (c, i) }) c i d t

/-- GANG_CLAIM (R241, R242). -/
def claimGang (s : State) (c : CoreId) (i : Fin 4) (cell : Option CoreId) : State :=
  let t := (coreOf s c).tickets[i]
  let d := t.desc
  if !t.busy || t.state != .claiming then s
  else match claimReason s c t, gdValid d with
    | some r, _ => refuseClaim s c i r 0 0
    | none, none => s
    | none, some p =>
      let cs := (gangCores d).filterMap id
      let s := claimCores s c i d (match cell with | none => cs | some k => cs.filter (· == k))
      if ((coreOf s c).tickets[i]).state == .claiming && cs.all (fun k => (coreOf s k).claimed == some (c, i)) then
        freezeGang s c i d p cs
      else s

/-! ## Arithmetic of a cell (R56 to R59, R248 to R252, R262) -/

/-- Element n of an entry (R236, R37). -/
def entryCode (f : GFmt) (x n : Nat) : Nat := x / 2 ^ (gfmtBits f * n) % 2 ^ gfmtBits f

/-- An I4 zero point of column c (R249). -/
def zpOf (z : W64) (c : Nat) : Int := qRead 4 (bits z (4 * c + 3) (4 * c))

/-- The integer that an I8 or I4 element stands for. -/
def elemInt (f : GFmt) (z : Int) (code : Nat) : Int :=
  match f with
  | .i4 => qRead 4 code - z
  | _ => qRead 8 code

/-- The value that an element stands for (R248). -/
def elemNum (f : GFmt) (book : W256) (z : Int) (code : Nat) : Num :=
  match f with
  | .fp g => readFp (ffmt g) code
  | .b8 v => readFp (fmtB8 v) code
  | .l4 => readFp fmtBf16 (bits book (16 * (code % 16) + 15) (16 * (code % 16)))
  | f => intNum (elemInt f z code)

def accFp : AccFmt → Fmt
  | .fp64 => fmtFp64 | .fp32 | .i32 => fmtFp32

/-- The value of an accumulator code. -/
def accNum (a : AccFmt) (code : Nat) : Num :=
  match a with
  | .i32 => intNum (qRead 32 code)
  | a => readFp (accFp a) code

/-- Lanes of an accumulator. -/
def accLane (a : AccFmt) (n : Nat) : Nat := match a with | .fp64 => 2 * n | _ => n
def accRead (k : Core) (a : AccFmt) (n : Nat) : Nat :=
  match a with
  | .fp64 => (kAt k (2 * n)).toNat + (kAt k (2 * n + 1)).toNat * 2 ^ 32
  | _ => (kAt k n).toNat
def accLanes (a : AccFmt) (n code : Nat) : List (Nat × W32) :=
  match a with
  | .fp64 => [(2 * n, BitVec.ofNat 32 code), (2 * n + 1, BitVec.ofNat 32 (code / 2 ^ 32))]
  | _ => [(n, BitVec.ofNat 32 code)]

/-- One operand pair: values for a floating-point accumulator, integers for an I32 one. -/
structure Operand where
  num : Num
  int : Int

def operandOf (f : GFmt) (book : W256) (z : Int) (code : Nat) : Operand :=
  ⟨elemNum f book z code, elemInt f z code⟩

/-- acc + a × b, rounded once to nearest even; I32 wraps (R57). -/
def macOne (a : AccFmt) (old : Nat) (x y : Operand) : Nat × Flags :=
  match a with
  | .i32 => (intCode 32 (qRead 32 old + x.int * y.int), 0)
  | a => finishFp (accFp a) .rne (fmaNum .rne x.num y.num (readFp (accFp a) old))

/-- p + Σ w × x, rounded once to nearest even; I32 wraps (R58). -/
def macMany (a : AccFmt) (old : Nat) (l : List (Operand × Operand)) : Nat × Flags :=
  match a with
  | .i32 => (intCode 32 (l.foldl (fun n e => n + e.1.int * e.2.int) (qRead 32 old)), 0)
  | a => finishFp (accFp a) .rne (dotNum .rne (l.map fun e => (e.1.num, e.2.num)) (readFp (accFp a) old))

/-- RoundTo(FP32, acc × scale, RNE) (R57). -/
def scaleAcc (a : AccFmt) (code scale : Nat) : Nat × Flags :=
  finishFp fmtFp32 .rne (mulNum (accNum a code) (readFp fmtFp32 scale))

/-- The 32-bit word n of a byte string. -/
def word32 (x n : Nat) : Nat := x / 2 ^ (32 * n) % 2 ^ 32

/-- A pulse in RS mode: lanes and flags (R248). With block scales the partial accumulates (R59). -/
def pulseRs (k : Core) (d : W512) (p : PairShape) (fa fb : GFmt) (book : W256) (zp : W64) (x y : Nat) :
    List (Nat × W32) × Flags :=
  let base := if gdBse d then 128 else 0
  let bs := (List.range p.cn).map fun c => operandOf fb book (zpOf zp c) (entryCode fb y c)
  (List.range p.rm).foldl (fun acc r =>
    let a := operandOf fa book 0 (entryCode fa x r)
    (bs.zip (List.range p.cn)).foldl (fun (acc : List (Nat × W32) × Flags) e =>
      let n := base + p.cn * r + e.2
      let z := macOne p.acc (accRead k p.acc n) a e.1
      (acc.1 ++ accLanes p.acc n z.1, acc.2 ||| z.2)) acc) ([], 0)

/-- A block scale is positive and finite (R39). -/
def scaleOk (x : Nat) : Bool := decide (0 < x) && decide (x < 0x7F800000)

/-- The boundary step of a block (R59): lanes and flags, from the scales of rows and columns. -/
def boundary (k : Core) (p : PairShape) (sa sb : Nat) : List (Nat × W32) × Flags :=
  (List.range p.rm).foldl (fun acc r => (List.range p.cn).foldl (fun (acc : List (Nat × W32) × Flags) c =>
    let n := 8 * r + c
    let sc := fpMul fmtFp32 .rne (word32 sa r) (word32 sb c)
    let z := finishFp fmtFp32 .rne (fmaNum .rne (readFp fmtFp32 sc.1) (accNum p.acc (kAt k (128 + n)).toNat)
      (readFp fmtFp32 (kAt k n).toNat))
    (acc.1 ++ [(n, BitVec.ofNat 32 z.1), (128 + n, 0)], acc.2 ||| sc.2 ||| z.2)) acc) ([], 0)

/-- Bytes of a weight block, and the entries it occupies (R251). -/
def blockBytes (p : PairShape) (fb : GFmt) : Nat := p.rm * p.cn * gfmtBits fb / 8
def blockEntries (p : PairShape) (fb : GFmt) : Nat := ceilDiv (blockBytes p fb) 32

/-- The code of weight (i, j) in k128 to k159 (R237). -/
def weightCode (k : Core) (p : PairShape) (fb : GFmt) (i j : Nat) : Nat :=
  let b := gfmtBits fb
  let at_ := (i * p.cn + j) * b
  if b = 64 then (kAt k (128 + at_ / 32)).toNat + (kAt k (129 + at_ / 32)).toNat * 2 ^ 32
  else bits (kAt k (128 + at_ / 32)) (at_ % 32 + b - 1) (at_ % 32)

/-- The results of a pulse in WS mode, before scaling (R251). -/
def pulseWs (k : Core) (p : PairShape) (fa fb : GFmt) (book : W256) (zp : W64) (x sums : Nat) : List Nat × Flags :=
  let w := 8 * accBytes p.acc
  let xs := (List.range p.rm).map fun i => operandOf fa book 0 (entryCode fa x i)
  (List.range p.cn).foldl (fun (acc : List Nat × Flags) j =>
    let ws := (List.range p.rm).map fun i => operandOf fb book (zpOf zp j) (weightCode k p fb i j)
    let z := macMany p.acc (sums / 2 ^ (w * j) % 2 ^ w) (ws.zip xs)
    (acc.1 ++ [z.1], acc.2 ||| z.2)) ([], 0)

/-- Values packed at a width, the first lowest. -/
def packBits (w : Nat) : List Nat → Nat
  | [] => 0
  | x :: t => x % 2 ^ w + 2 ^ w * packBits w t

/-- GIVB (R262): new r, (c, s), flags, ZPIV. -/
def givBoundary (w f : Nat) (r x : Int) : Int × Int × Int × Flags × Bool :=
  if r = 0 ∧ x = 0 then
    (0, clampInt (qRange w) (2 ^ f : Nat), 0, flagIf (decide (((2 ^ f : Nat) : Int) > (qRange w).2)) fSAT, true)
  else
    let t := qSat w (roundSqrt .rne (r * r + x * x).toNat)
    let c := qDiv w f .rne r t.1
    let sn := qDiv w f .rne x t.1
    (t.1, c.1, sn.1, t.2 ||| c.2 ||| sn.2, false)

/-- GIVI (R262): new r and x′, flags. -/
def givInternal (w f : Nat) (r x c sn : Int) : Int × Int × Flags :=
  let a := qSat w (roundDiv .rne (c * r + sn * x) (2 ^ f))
  let b := qSat w (roundDiv .rne (c * x - sn * r) (2 ^ f))
  (a.1, b.1, a.2 ||| b.2)

/-- A Q code as 64 bits of an entry. -/
def qWord (x : Int) : Nat := intCode 64 x

/-! ## Thaws (R258, R259) -/

/-- The cores beyond the edges, each with its link toward the rectangle. -/
def gangEdges (d : W512) : List (CoreId × Port) :=
  let mk := fun (o : Option CoreId) (l : Port) => match o with | some o => [(o, l)] | none => []
  (List.range (gdH d)).flatMap (fun (v : Nat) =>
    mk (cellCore d (-1) v) (opposite (linkA d)) ++ mk (cellCore d (gdW d) v) (linkA d))
  ++ (List.range (gdW d)).flatMap fun (u : Nat) =>
    mk (cellCore d u (-1)) (opposite (linkB d)) ++ mk (cellCore d u (gdH d)) (linkB d)

/-- The read streams of an outside core that are bound to a link, unbound. -/
def unbindLink (s : State) (o : CoreId) (l : Port) : State :=
  (List.finRange 4).foldl (fun s n =>
    let st := (coreOf s o).streams[n]
    if st.bound = some l ∧ ¬ sdWrite st.desc then unbind s o n else s) s

/-- The input queues of a cell emptied, and the seam buffers through which it forwards within the rectangle (R258); those
of a solver gang that serve no operands too (log 106). -/
def clearCell (d : W512) (s : State) (e : Nat × Nat) : State :=
  match cellCore d e.1 e.2 with
  | none => s
  | some c => modCore s c fun k =>
    let k := setInq (setInq k (linkA d) []) (linkB d) []
    let k := if e.1 + 1 < gdW d then setSeam k (opposite (linkA d)) [] else k
    if e.2 + 1 < gdH d then setSeam k (opposite (linkB d)) [] else k

/-- The edges at a thaw: streams unbound, then the queues emptied (R258). -/
def clearEdges (s : State) (d : W512) : State :=
  (gangCells d).foldl (clearCell d) ((gangEdges d).foldl (fun s e => unbindLink s e.1 e.2) s)

/-- Flags of all cells, and whether a boundary cell's ZPIV is set. -/
def gangFlags (t : Ticket) : Flags := t.cells.foldl (fun f e => f ||| e.2.flags) 0
def gangZpiv (t : Ticket) : Bool := t.cells.any fun e => e.2.zpiv

/-- GANG_FLAG_MERGE (R259). -/
def mergeGangFlags (s : State) (c : CoreId) (t : Ticket) : State :=
  let live := strandAt s c t.slot
  let fl := gangFlags t
  if live.occ && live.uid == t.uid then addFlags s c t.slot fl
  else raiseFlags s c fl

/-- A thaw: status, wake message, flags, cores (R254, R256 to R260). -/
def thawGang (s : State) (c : CoreId) (i : Fin 4) (state : GangState) (pulse : Nat) (cause : Byte) (u v : Nat) : State :=
  let t := (coreOf s c).tickets[i]
  let t' := { t with
    state := state, pulse := BitVec.ofNat 32 pulse, cause := cause, cx := BitVec.ofNat 6 u, cy := BitVec.ofNat 6 v
    zpiv := gangZpiv t, token := none, cells := [] }
  let t' := { t' with unsent := gangWakeOut s c i t' }
  let s := mergeGangFlags s c t
  modTicket (clearEdges (releaseCores s c i) t.desc) c i fun _ => t'

end Sys2Proof.Machine
end

