-- ==== Sys2Proof/Machine/GangCell.lean ====
section
/-!
DEFINITION. The cells of a gang: the latch phase, the pulses, the epilogue, and thaws at a pulse boundary
(R245 to R258, R262).
-/
namespace Sys2Proof.Machine

/-! ## A gang's cells -/

/-- The gang a core is frozen for, its cell, and (u, v). -/
structure CellAt where
  owner : CoreId
  slot : Fin 4
  t : Ticket
  d : W512
  p : PairShape
  cell : Cell
  u : Nat
  v : Nat

/-- The cell of a core that is frozen for a gang without a fault. -/
def cellAt (s : State) (k : CoreId) : Option CellAt :=
  match (coreOf s k).frozen with
  | some (.gang c i) =>
    let t := (coreOf s c).tickets[i]
    if t.state != .frozen || t.faulted.isSome then none
    else match gdValid t.desc, mapFind t.cells k with
      | some p, some cell => some ⟨c, i, t, t.desc, p, cell, cellU t.desc k, cellV t.desc k⟩
      | _, _ => none
  | some (.sequencer _ _) | none => none

def modCell (s : State) (x : CellAt) (k : CoreId) (f : Cell → Cell) : State :=
  modTicket s x.owner x.slot fun t => { t with cells := t.cells.map fun e => if e.1 = k then (e.1, f e.2) else e }

/-- A fault at a cell, at its next pulse. -/
def cellFault (s : State) (x : CellAt) (cause : Byte) : State := faultGang s x.owner x.slot cause x.u x.v x.cell.pulse

/-- The oldest entry at a cell's link. -/
def linkHead (s : State) (k : CoreId) (l : Port) : Option PortEntry := (inqOf (coreOf s k) l).head?

/-- An entry that a cell pushes. -/
def outEntry (data : Nat) (tag : BitVec 7) : PortEntry := ⟨BitVec.ofNat 256 data, tag, false, none, none⟩

/-- Low n bits of an entry, which a cell forwards (R236). -/
def lowData (e : PortEntry) (n : Nat) : Nat := e.data.toNat % 2 ^ n

/-- Entries of the latch phase that a cell forwards, and that it keeps (R251). -/
def latchAhead (x : CellAt) (fb : GFmt) : Nat := (gdH x.d - 1 - x.v) * blockEntries x.p fb
def latchDone (x : CellAt) : Bool :=
  match gdMode x.d, gdBfmt x.d with
  | .ws, some fb => gdKeep x.d || decide (x.cell.latched ≥ latchAhead x fb + blockEntries x.p fb)
  | _, _ => true

/-- WS_LATCH_ENTRY (R251): the cell's next entry of the latch phase is forwarded or kept. -/
def latchEntry (s : State) (k : CoreId) : State :=
  match cellAt s k with
  | none => s
  | some x =>
    let l := linkB x.d
    match gdBfmt x.d, linkHead s k l with
    | some fb, some e =>
      if latchDone x || (x.t.stop.isSome && x.v == 0) then s
      else if e.poison then cellFault s x 0x0D
      else
        let count := fun s => modCell s x k fun c => { c with latched := c.latched + 1 }
        if x.cell.latched < latchAhead x fb then
          if linkFree s k (opposite l) = 0 then s
          else count (pushLink (popLink s k l) k (opposite l) { e with src := none })
        else
          let j := x.cell.latched - latchAhead x fb
          let lanes := (List.range 8).map fun i => (128 + 8 * j + i, lane e.data 32 i)
          count (modCore (popLink s k l) k fun c => kPutLanes c lanes)
    | _, _ => s

/-! ## GANG_PULSE (R246 to R252, R262) -/

/-- Whether a cell may fire its next pulse, its queues apart (R251, R253, R256, R264). -/
def mayPulse (s : State) (k : CoreId) (x : CellAt) : Bool :=
  let limit := match x.t.stop with
    | some n => decide (x.cell.pulse < n)
    | none => decide (x.cell.pulse < gdK x.d) || (gdMode x.d == .ws && gdHold x.d)
  limit && x.t.started && decide (x.t.tick.toNat ≤ (plumbAt s k).toNat) && takesPart x.d x.u x.v && latchDone x

/-- Room to forward over a link, where the cell forwards at all. -/
def roomFor (s : State) (k : CoreId) (forward : Bool) (l : Port) : Bool := !forward || decide (0 < linkFree s k l)

/-- An entry pushed where the cell forwards. -/
def forward (s : State) (k : CoreId) (on : Bool) (l : Port) (data : Nat) (tag : BitVec 7) : State :=
  if on then pushLink s k l (outEntry data tag) else s

/-- A pulse is over: lanes, flags, ZPIV, count. -/
def endPulse (s : State) (x : CellAt) (k : CoreId) (lanes : List (Nat × W32)) (fl : Flags) (zpiv : Bool) : State :=
  modCell (modCore s k fun c => kPutLanes c lanes) x k fun c =>
    { c with pulse := c.pulse + 1, flags := c.flags ||| fl, zpiv := zpiv }

/-- BLOCK_BOUNDARY_STEP (R59, R250), with the scales of the cell's rows and columns; a bad scale is a fault of the pulse
that it follows. -/
def boundaryStep (s : State) (x : CellAt) (k : CoreId) (sa sb : Nat × Bool) : State :=
  let ok := (List.range x.p.rm).all (fun r => scaleOk (word32 sa.1 r))
    && (List.range x.p.cn).all fun c => scaleOk (word32 sb.1 c)
  if sa.2 || sb.2 then cellFault s x 0x0D
  else if !ok then cellFault s x 0x09
  else
    let r := boundary (coreOf s k) x.p sa.1 sb.1
    modCell (modCore s k fun c => kPutLanes c r.1) x k fun c => { c with flags := c.flags ||| r.2 }

/-- A pulse in RS mode, with the block scales when a boundary follows it. -/
def firePulseRs (s : State) (x : CellAt) (k : CoreId) (a b : PortEntry)
    (scales : Option ((Nat × Bool) × (Nat × Bool))) : State :=
  match gdAfmt x.d, gdBfmt x.d with
  | some fa, some fb =>
    if a.poison || b.poison || (cellLanes x.d x.p).any (kBad (coreOf s k)) then cellFault s x 0x0D
    else
      let r := pulseRs (coreOf s k) x.d x.p fa fb x.t.book x.cell.zp a.data.toNat b.data.toNat
      let s := popLink (popLink s k (linkA x.d)) k (linkB x.d)
      let s := forward s k (decide (x.u + 1 < gdW x.d)) (opposite (linkA x.d)) (lowData a (x.p.rm * gfmtBits fa)) a.tag
      let s := forward s k (decide (x.v + 1 < gdH x.d)) (opposite (linkB x.d)) (lowData b (x.p.cn * gfmtBits fb)) b.tag
      let s := endPulse s x k r.1 r.2 false
      match scales with
      | some (sa, sb) => boundaryStep s x k sa sb
      | none => s
  | _, _ => s

/-- The scales that the boundary after a pulse reads; none when no boundary follows (R250). -/
def boundaryScales (s : State) (x : CellAt) (k : CoreId) : Except Nat (Option ((Nat × Bool) × (Nat × Bool))) :=
  let n := x.cell.pulse
  if gdBse x.d && ((n + 1) % 32 == 0 || n + 1 == gdK x.d) then do
    let sa ← cellRead s k (gdBsaoff x.d + 4 * (n / 32 * x.p.rm)) (4 * x.p.rm)
    let sb ← cellRead s k (gdBsboff x.d + 4 * (n / 32 * x.p.cn)) (4 * x.p.cn)
    .ok (some (sa, sb))
  else .ok none

/-- The column scales of a WS cell of the last row, read before its first pulse (R245). -/
def wsScales (s : State) (x : CellAt) (k : CoreId) : Except Nat (Nat × Bool) :=
  match x.cell.scales with
  | some w => .ok (w.toNat, false)
  | none => if gdScen x.d && x.v + 1 == gdH x.d then cellRead s k (gdScoff x.d) (4 * x.p.cn) else .ok (0, false)

/-- The format of an activation entry (R252). -/
def activationFmt (x : CellAt) (e : PortEntry) : Option GFmt :=
  if bit e.tag 6 then gfmtOf (bits e.tag 5 0) else gdAfmt x.d

/-- A pulse in WS mode: `sums` is the partial-sum entry, none where it starts from zero. -/
def firePulseWs (s : State) (x : CellAt) (k : CoreId) (a : PortEntry) (sums : Option PortEntry) (sc : Nat × Bool) :
    State :=
  match activationFmt x a, gdBfmt x.d with
  | some fa, some fb => match pairOf fa fb with
    | none => cellFault s x 0x01
    | some p =>
      let weights := (List.range (ceilDiv (blockBytes p fb) 4)).any fun i => kBad (coreOf s k) (128 + i)
      if p.rm ≠ x.p.rm ∨ p.cn ≠ x.p.cn then cellFault s x 0x01
      else if a.poison || (sums.map fun e => e.poison).getD false || sc.2 || weights then cellFault s x 0x0D
      else
        let old := (sums.map fun e => e.data.toNat).getD 0
        let r := pulseWs (coreOf s k) p fa fb x.t.book x.cell.zp a.data.toNat old
        let last := gdScen x.d && x.v + 1 == gdH x.d
        let out := if last then (r.1.zip (List.range p.cn)).map fun e => scaleAcc p.acc e.1 (word32 sc.1 e.2)
          else r.1.map fun c => (c, 0)
        let acc := if last then .fp32 else p.acc
        let fl := out.foldl (fun f e => f ||| e.2) r.2
        let lanes := (out.zip (List.range p.cn)).flatMap fun e => accLanes acc e.2 e.1.1
        let s := popLink s k (linkA x.d)
        let s := if sums.isSome then popLink s k (linkB x.d) else s
        let s := forward s k (decide (x.u + 1 < gdW x.d)) (opposite (linkA x.d)) (lowData a (p.rm * gfmtBits fa)) a.tag
        let s := forward s k true (opposite (linkB x.d)) (packBits (8 * accBytes acc) (out.map fun e => e.1)) 0
        let s := endPulse s x k lanes fl false
        modCell s x k fun c => { c with scales := if last then some (BitVec.ofNat 256 sc.1) else c.scales }
  | _, _ => cellFault s x 0x01

/-- r of a solver cell, and its lanes (R237). -/
def givR (k : Core) (w : Nat) : Int :=
  qRead w (if w = 64 then (kAt k 0).toNat + (kAt k 1).toNat * 2 ^ 32 else (kAt k 0).toNat)
def givLanes (w : Nat) (r : Int) : List (Nat × W32) :=
  if w = 64 then [(0, BitVec.ofInt 32 r), (1, BitVec.ofNat 32 (intCode 64 r / 2 ^ 32))] else [(0, BitVec.ofInt 32 r)]

/-- A pulse of a solver cell (R262): `a` is (c, s) from the u side, at an internal cell. -/
def firePulseGiv (s : State) (x : CellAt) (k : CoreId) (a : Option PortEntry) (b : PortEntry) : State :=
  let w := gdQw x.d
  let f := gdQf x.d
  let r := givR (coreOf s k) w
  let y := qRead w b.data.toNat
  let right := decide (x.u + 1 < gdW x.d)
  let la := linkA x.d
  let lb := linkB x.d
  if b.poison || (a.map fun e => e.poison).getD false || (cellLanes x.d x.p).any (kBad (coreOf s k)) then
    cellFault s x 0x0D
  else match a with
    | none =>
      let (r', c, sn, fl, z) := givBoundary w f r y
      let s := forward (popLink s k lb) k right (opposite la) (qWord c + 2 ^ 64 * qWord sn) 0
      endPulse s x k (givLanes w r') fl z
    | some e =>
      let (r', y', fl) := givInternal w f r y (qRead w e.data.toNat) (qRead w (e.data.toNat / 2 ^ 64))
      let s := popLink (popLink s k la) k lb
      let s := forward s k right (opposite la) (lowData e 128) 0
      let s := forward s k (decide (x.v + 1 < gdH x.d)) (opposite lb) (qWord y') 0
      endPulse s x k (givLanes w r') fl false

/-- GANG_PULSE: a cell whose inputs are present and whose outputs have room fires. -/
def pulseCell (s : State) (k : CoreId) : State :=
  match cellAt s k with
  | none => s
  | some x =>
    let la := linkA x.d
    let lb := linkB x.d
    let right := roomFor s k (decide (x.u + 1 < gdW x.d)) (opposite la)
    let down := roomFor s k (decide (x.v + 1 < gdH x.d)) (opposite lb)
    if !mayPulse s k x then s
    else match gdMode x.d, linkHead s k la, linkHead s k lb with
      | .rs, some a, some b =>
        if !right || !down then s
        else match boundaryScales s x k with
          | .error w => parkMiss s (.core k) w
          | .ok sc => firePulseRs s x k a b sc
      | .ws, some a, b =>
        let entry := x.v == 0 && !gdPin x.d
        if !right || linkFree s k (opposite lb) == 0 || (!entry && b.isNone) then s
        else match wsScales s x k with
          | .error w => parkMiss s (.core k) w
          | .ok sc => firePulseWs s x k a (if entry then none else b) sc
      | .giv, a, some b =>
        if x.u = x.v then (if right then firePulseGiv s x k none b else s)
        else if !right || !down || a.isNone then s
        else firePulseGiv s x k a b
      | _, _, _ => s

/-! ## Requests, thaws and completion (R253 to R258) -/

/-- Whether a gang completes by itself (R253). -/
def completes (d : W512) : Bool := gdMode d != .ws || !gdHold d

/-- A thaw request reaches the entry cell and fixes P (R256); one that comes after pulse K − 1 is met by completion. -/
def requestThaw (s : State) (c : CoreId) (i : Fin 4) (preempt : Bool) : State :=
  let t := (coreOf s c).tickets[i]
  let due := if preempt then decide ((partOf s (partOfCore s c)).phase = .draining) else t.thawReq
  if !t.busy || gangFinal t.state || !due then s
  else
    let n := if t.state = .claiming then gdStart t.desc else entryPulse t
    let late := t.state != .claiming && completes t.desc && decide (n ≥ gdK t.desc)
    modTicket s c i fun t => { t with
      preempt := t.preempt || preempt
      stop := t.stop.or (if late then none else some n) }

/-- The cells that take part, with their records. -/
def partCells (t : Ticket) : List Cell :=
  (t.cells.filter fun e => takesPart t.desc (cellU t.desc e.1) (cellV t.desc e.1)).map fun e => e.2

/-- Whether a cell of the latch phase still has an entry to forward or keep, or one on its way over a seam (R251). -/
def latchMoves (s : State) (x : CellAt) (k : CoreId) : Bool :=
  let l := linkB x.d
  match gdBfmt x.d with
  | none => false
  | some fb =>
    !latchDone x && x.v != 0
    && ((!(inqOf (coreOf s k) l).isEmpty
        && (decide (x.cell.latched ≥ latchAhead x fb) || linkFree s k (opposite l) != 0))
      || (match neighbour k l with
        | some n => !(seamOf (coreOf s n) (opposite l)).isEmpty
        | none => false))

/-- Whether the entries that were injected before a thaw have drained (R256): every cell that takes part has completed the
pulses before n, and no entry of the latch phase is still on its way between cells. -/
def gangDrained (s : State) (t : Ticket) (n : Nat) : Bool :=
  (partCells t).all (fun x => decide (x.pulse ≥ n))
  && t.cells.all fun e => match cellAt s e.1 with
    | some x => !latchMoves s x e.1
    | none => true

/-- GANG_PREEMPT_THAW (R256): every cell has completed the pulses before P. -/
def preemptThaw (s : State) (c : CoreId) (i : Fin 4) : State :=
  let t := (coreOf s c).tickets[i]
  match t.stop with
  | none => s
  | some n =>
    if !t.busy || t.state != .frozen || t.faulted.isSome || !gangDrained s t n then s
    else thawGang s c i (if t.preempt then .preempted else .thawed) n 0 0 0

/-- The column scales of the cells of an RS gang are read once, when the epilogue starts (R245): the home of a word may
withhold it, and poison faults the gang. -/
def readScales (s : State) (c : CoreId) (i : Fin 4) (d : W512) (p : PairShape) : List (CoreId × Cell) → State × Bool
  | [] => (s, true)
  | (k, x) :: t =>
    if !gdScen d || gdMode d != .rs || x.scales.isSome then readScales s c i d p t
    else match cellRead s k (gdScoff d) (4 * p.cn) with
      | .error w => (parkMiss s (.core k) w, false)
      | .ok sc =>
        if sc.2 then (faultGang s c i 0x0D (cellU d k) (cellV d k) (gdK d), false)
        else readScales (modTicket s c i fun y => { y with
          cells := mapSet k { x with scales := some (BitVec.ofNat 256 sc.1) } y.cells }) c i d p t

/-- The value of a drained element with the flags of its scale (R254); the poison of an element that is not scaled goes with
it, and scaling consumes it. -/
inductive Drained where
  | value (code : Nat) (poison : Bool) (fl : Flags)
  | poisoned

def drainValue (s : State) (d : W512) (p : PairShape) (k : CoreId) (cell : Option Cell) (r c : Nat) : Drained :=
  let x := coreOf s k
  if gdMode d = .giv then .value (intCode (gdQw d) (givR x (gdQw d))) (kBad x 0) 0
  else
    let n := p.cn * r + c
    let a := gdAcc d p
    let code := accRead x a n
    let bad := kBad x (accLane a n)
    if !gdScen d then .value code bad 0
    else if bad then .poisoned
    else
      let scales := (cell.bind fun y => y.scales).getD 0
      let z := scaleAcc a code (word32 scales.toNat c)
      .value z.1 false z.2

/-- The gang ticket slots as fault agents (R410). -/
def ticketAgent (i : Fin 4) : Fin 20 := ⟨12 + i.val, by omega⟩

/-- Whose stores a gang's drain makes (R254). -/
def gangWho (s : State) (c : CoreId) (t : Ticket) : Who :=
  let b := mapFind s.bonds t.bond
  ⟨c, t.super, (b.map fun b => b.job).getD 0, (b.map fun b => b.part).getD 0, dieNum c, false⟩

/-- The epilogue waits at element n, which cell (u, v) writes. -/
def epilogueAt (s : State) (c : CoreId) (i : Fin 4) (n u v : Nat) : State :=
  modTicket s c i fun t => { t with waitElem := n, cx := BitVec.ofNat 6 u, cy := BitVec.ofNat 6 v }

/-- A store of an element at a checked place (R255, R421). -/
def drainStore (s : State) (c : CoreId) (i : Fin 4) (r : Ref) (es code : Nat) (poison : Bool) : State :=
  let word := wordOf r.loc
  let s := homeWrite (crossSeams s c r.loc (.gang c i)) word r.key (byteMask (r.loc % 8) es)
    (BitVec.ofNat 64 code <<< (8 * (r.loc % 8))) none
  if poison then poisonWord s word else s

/-- The epilogue from element n on (R254, R255): done, or stopped at an element. -/
def epilogue (s : State) (c : CoreId) (i : Fin 4) (p : PairShape) :
    Nat → List ((Nat × Nat) × (Nat × Nat) × Nat) → State × Bool
  | _, [] => (s, true)
  | n, w :: rest =>
    let t := (coreOf s c).tickets[i]
    let d := t.desc
    let (u, v) := w.1
    let es := gdEs d p
    let va := BitVec.ofNat 64 w.2.2
    if t.skipped.contains n then epilogue s c i p (n + 1) rest
    else match cellCore d u v with
      | none => epilogue s c i p (n + 1) rest
      | some k => match drainValue s d p k (mapFind t.cells k) w.2.1.1 w.2.1.2 with
        | .poisoned => (faultGang s c i 0x0D u v (gdK d), false)
        | .value code poison fl =>
          let s := modTicket s c i fun t => { t with
            cells := t.cells.map fun e => if e.1 = k then (e.1, { e.2 with flags := e.2.flags ||| fl }) else e }
          if w.2.2 + es > 2 ^ 64 then (faultGang s c i 0x08 u v (gdK d), false)
          else match checkAddr s (gangWho s c t) .store true va with
            | .violation => (faultGang s c i 0x08 u v (gdK d), false)
            | .await => (epilogueAt s c i n u v, false)
            | .fault r l x =>
              let m := { faultMsg 0x10 .gang c 0 va 0 t.uid with
                reason := r, level := l, entry := x, wr := true, pos := ticketWord c i t }
              let token := agentToken s c (ticketAgent i)
              let s := epilogueAt (postFault s (ticketAgent i) m) c i n u v
              (modTicket s c i fun t => { t with token := some token }, false)
            | .ok ref s =>
              if es < 8 && s.poison.contains (wordOf ref.loc / 8) then (faultGang s c i 0x0D u v (gdK d), false)
              else if epochRevoked s ref.loc ref.lease then (faultGang s c i 0x08 u v (gdK d), false)
              else if !peerTurn s c s.nextSeq ref.lease || footHeld s (wordOf ref.loc) then (epilogueAt s c i n u v, false)
              else epilogue (drainStore s c i ref es code poison) c i p (n + 1) rest

/-- GANG_COMPLETE (R253, R254): the epilogue, then the thaw as DONE. -/
def completeGang (s : State) (c : CoreId) (i : Fin 4) : State :=
  let t := (coreOf s c).tickets[i]
  match gdValid t.desc with
  | none => s
  | some p =>
    if !t.busy || t.state != .frozen || t.faulted.isSome || t.token.isSome || t.stop.isSome || !completes t.desc
        || !(partCells t).all (fun x => decide (x.pulse ≥ gdK t.desc)) then s
    else
      let ws := gangWrites t.desc p
      let q := if ws.isEmpty then (s, true) else readScales s c i t.desc p t.cells
      let r := if q.2 then epilogue q.1 c i p t.waitElem (ws.drop t.waitElem) else q
      if r.2 then thawGang r.1 c i .done (gdK t.desc) 0 0 0 else r.1

/-! ## Gangs that end with their bond (R256, R417) -/

/-- The cells' moves of a gang, once each, with the seam buffers on their ways and the bound streams that feed them. -/
def moveCells (s : State) (t : Ticket) : State :=
  let feed := fun s (e : CoreId × Port) => (List.finRange 4).foldl (fun s n =>
    if ((coreOf s e.1).streams[n]).bound == some e.2 then boundPush (streamFetch s e.1 n) e.1 n else s) s
  let s := (gangEdges t.desc).foldl (fun s e => seamForward (feed s e) e.1 e.2) s
  (t.cells.map fun e => e.1).foldl (fun s k =>
    let s := pulseCell (latchEntry s k) k
    seamForward (seamForward s k (opposite (linkA t.desc))) k (opposite (linkB t.desc))) s

/-- Rounds of the cells' moves, until the pulses before n have drained. -/
def drainCells (c : CoreId) (i : Fin 4) (n : Nat) : Nat → State → State
  | 0, s => s
  | k + 1, s =>
    let t := (coreOf s c).tickets[i]
    if t.faulted.isSome || gangDrained s t n then s else drainCells c i n k (moveCells s t)

/-- A gang ends at once as by GTHAW (R256, R257): P is fixed at the entry cell, the pulses before it drain, and the cores
thaw. A gang whose entry cell has completed all its pulses completes if its epilogue can; a fault takes precedence. One
that is still claiming holds no core. -/
def endGang (s : State) (c : CoreId) (i : Fin 4) : State :=
  let t := (coreOf s c).tickets[i]
  if t.state = .claiming then
    modTicket (releaseCores s c i) c i fun t => { t with state := .thawed, pulse := BitVec.ofNat 32 (gdStart t.desc) }
  else
    let s := requestThaw (modTicket s c i fun t => { t with thawReq := true }) c i false
    let t := (coreOf s c).tickets[i]
    let n := t.stop.getD (gdK t.desc)
    let s := completeGang (drainCells c i n (8 * (gdW t.desc + gdH t.desc) + 64) s) c i
    let t := (coreOf s c).tickets[i]
    if gangFinal t.state then s
    else match t.faulted with
      | some (cause, u, v, p) => thawGang s c i .fault p cause u v
      | none => thawGang s c i (if t.preempt then .preempted else .thawed) n 0 0 0

end Sys2Proof.Machine
end

