-- ==== Sys2Proof/Machine/Contain.lean ====
section
/-!
DEFINITION. Replies to fault messages, the containment walk, kills and restarts (R414 to R418).
-/
namespace Sys2Proof.Machine

/-! ## Commands that end -/

/-- The context word of a copy channel with SELF = 0 (R337). -/
def channelWord (c : CoreId) (ch : Nat) : W64 := BitVec.ofNat 64 (ch * 16) + (xyWord c <<< 16)

/-- The completion message of R348. -/
def copyMessage (c : CoreId) (ch : Nat) (m : CopyCmd) (o : Byte) : OutMsg :=
  let regs := payload [BitVec.ofNat 64 m.n, o.setWidth 64, channelWord c ch]
  ⟨0, 0, .cr, .completion (coreOfWord (cdMcore m.words))
    ⟨.message (cdHandler m.words) regs (xyWord c) (cdMtag m.words), m.bond, m.job, m.part, 1, false, false⟩⟩

/-- A copy command completes (R348, R349): outcome, counter, completion message, nothing left to land; a COPY packet's work
is done. A message with no core of the bond to go to is not posted (log 128). -/
def finishCopy (s : State) (c : CoreId) (ch : Fin 3) (n : Nat) (o : Byte) : State :=
  match (chanOf s c ch).cmds.find? fun m => m.n == n with
  | none => s
  | some m =>
    let post := cdMen m.words && cdMessageOk m.words && inBond s m.bond (coreOfWord (cdMcore m.words))
    let m' := { m with
      phase := .finished, outcome := o, held := [], pins := []
      message := if post then some (copyMessage c ch.val m o) else none }
    let keep := fun (l : List CopyCmd) =>
      if post then l.map (fun x => if x.n = n then m' else x) else l.filter (fun x => x.n != n)
    let s := modChan s c ch fun k => { tl := tlFinish k.tl n o, cmds := keep k.cmds }
    match m.packet with
    | some (q, i) => markDone s q i
    | none => s

/-- A footing command completes (R336, R356); what waited for the lines that it held goes on (R288). -/
def finishFoot (s : State) (c : CoreId) (n : Nat) (o : Byte) : State :=
  let lines := ((coreOf s c).foot.cmds.filter fun m => m.n == n).flatMap fun m => match m.pages with
    | some l => m.puts.map fun x => (footPlace l x.va).1 / 128 * 128
    | none => []
  let s := modCore s c fun k => { k with foot :=
    { tl := tlFinish k.foot.tl n o, cmds := k.foot.cmds.filter fun x => x.n != n } }
  lines.dedup.foldl wakeLine s

/-- The cores that a tile sequencer has frozen are free again (R367). -/
def releaseSeqCores (s : State) (die : Fin 4) (q : Fin 8) : State :=
  { s with cores := s.cores.map fun e => (e.1, { e.2 with
      frozen := if e.2.frozen = some (.sequencer die q) then none else e.2.frozen }) }

/-- A tile sequencer leaves the cores of the component that its command at the head has placed, which thaw as a gang's do
(R258, R367). -/
def leaveComponent (s : State) (die : Fin 4) (q : Fin 8) : State :=
  let s' := releaseSeqCores s die q
  match s.dies[die].seqrs[q].cmds with
  | m :: _ => (match m.gang with
    | some g => if g.placed then clearEdges s' g.desc else s'
    | none => s')
  | [] => s'

/-- A tile sequencer command completes (R370, R371): counter, TSSTAT, CFU, RBUSY of its strand. -/
def finishSeq (s : State) (die : Fin 4) (q : Fin 8) (n : Nat) (o : Byte) : State :=
  let x := s.dies[die].seqrs[q]
  match x.cmds.find? fun m => m.n == n with
  | none => s
  | some m =>
    let put := fun (y : Sequencer) =>
      { y with tl := tlFinish y.tl n o, cmds := y.cmds.filter fun z => z.n != n }
    let s := modDie (leaveComponent s die q) die fun d => { d with seqrs := d.seqrs.set q (put d.seqrs[q]) }
    let s := match x.bond with
      | some b => modBond s b fun y => { y with
          tsErr := y.tsErr || o != 0
          tsFlags := y.tsFlags ||| m.flags
          tsCause := if o = 0 then y.tsCause else o }
      | none => s
    let s := raiseFlags s m.core m.flags
    match m.op with
    | .reverse _ => mapStrands s fun _ t => if t.uid = m.uid then { t with rbusy := false } else t
    | .tile _ _ _ _ => s

/-! ## Gangs that stop -/

/-- The gangs of a core's tickets that belong to a bond and are not final. -/
def openTickets (k : Core) (b : Nat) : List (Fin 4) :=
  (List.finRange 4).filter fun i =>
    let t := k.tickets[i]
    t.busy && t.bond == b && !gangFinal t.state

/-- A kill of a course thaws its gangs as by GTHAW (R417). -/
def thawTickets (s : State) (c : CoreId) (b : Nat) : State :=
  (openTickets (coreOf s c) b).foldl (fun s i => modTicket s c i fun t => { t with thawReq := true }) s

/-- A kill of a bond, which empties the queues and files of its cores, ends its gangs in the same step, as by GTHAW (R256,
R417; log 108); a gang that a KILL has ended by fault keeps that end (R414). -/
def dropTickets (s : State) (c : CoreId) (b : Nat) : State :=
  (openTickets (coreOf s c) b).foldl (fun s i => endGang s c i) s

/-! ## Kills (R417, R418) -/

/-- Tags that go, with the reads that were parked for them served (R318). -/
def dropTags (s : State) (gone : Tag → Bool) : State :=
  (s.tags.filter gone).foldl (fun s t => wakeWord (setTag s t.word none) t.word) s

/-- What a killed strand leaves (R318, R327, R418): its tags go, its rejected writes are abandoned, and so are its releases,
whose own writes are not performed. Its other writes and reductions on their way are performed in their turn (log 132). -/
def abandonWrites (s : State) (c : CoreId) (uid : Nat) : State :=
  let s := modCore s c fun k => { k with
    stores := (dropStores (fun e => e.uid == uid && e.token.isSome) k.stores).map fun e =>
      if e.uid = uid then { e with tag := none } else e
    reds := k.reds.filter fun r => ¬ (r.uid = uid ∧ (r.token.isSome ∨ (r.release.isSome ∧ r.performed = false))) }
  dropTags s fun t => t.uid == uid

/-- What strands that have ended leave in a core whose context is killed: their rejected writes are abandoned, and the
releases among the others leave no tag (R318, R327, R418). -/
def abandonEnded (k : Core) : Core :=
  let ended := fun (uid : Nat) => !((coreStrands k).any fun t => t.2.uid == uid)
  { k with
    stores := (dropStores (fun e => ended e.uid && e.token.isSome) k.stores).map fun e =>
      if ended e.uid then { e with tag := none } else e
    reds := k.reds.filter fun r => !ended r.uid || !(r.token.isSome || (r.release.isSome && !r.performed)) }

/-- A strand is killed at an instruction boundary (R417, R418). -/
def killStrand (s : State) (c : CoreId) (i : Slot) : State :=
  abandonWrites (leaveSlot s c i) c (strandAt s c i).uid

/-- Commands that strands of a bond issued from a core and that are not complete are cancelled (R417). -/
def cancelCore (s : State) (c : CoreId) (b : Nat) : State :=
  let k := coreOf s c
  let copies := fun (ch : Fin 2) =>
    ((k.chans[ch].cmds.filter fun m => m.bond == some b && m.phase != .finished).map fun m => (ch, m.n))
  let s := (copies 0 ++ copies 1).foldl (fun s e => finishCopy s c (e.1.castLE (by decide)) e.2 0x11) s
  ((k.foot.cmds.filter fun m => m.bond == some b).map fun m => m.n).foldl (fun s n => finishFoot s c n 0x11) s

/-- Commands in a bond's tile sequencer that come from cores of a cluster test are cancelled; one that a KILL has failed
keeps its outcome (R414). -/
def cancelSeq (s : State) (x : Bond) (inCluster : Nat → Bool) : State :=
  match x.seqr with
  | none => s
  | some (die, q) =>
    ((s.dies[die].seqrs[q].cmds.filter fun m => inCluster (clusterIdx m.core)).map fun m =>
        (m.n, if m.ran && m.outcome != 0 then m.outcome else (0x11 : Byte))).foldl
      (fun s e => finishSeq s die q e.1 e.2) s

/-- The strands, commands and gangs of part of a bond are killed (R417); what its ended strands have left goes too (R318,
R327). -/
def killPart (s : State) (b : Nat) (inCluster : Nat → Bool) (now : Bool) : State :=
  let s := (bondStrands s b inCluster).foldl (fun s e => killStrand s e.1 e.2.1) s
  let abandon := fun (e : CoreId × Core) => if inCluster (clusterIdx e.1) then (e.1, abandonEnded e.2) else e
  let s : State := { s with cores := s.cores.map abandon }
  let s := dropTags s fun t => t.bond == some b && inCluster (clusterIdx t.core)
  let s := match mapFind s.bonds b with | some x => cancelSeq s x inCluster | none => s
  ((s.cores.map fun e => e.1).filter fun c => inCluster (clusterIdx c)).foldl
    (fun s c => let s := cancelCore s c b; if now then dropTickets s c b else thawTickets s c b) s

def killCourse (s : State) (b cl : Nat) : State := killPart s b (· == cl) false

/-- A core after a kill of its bond (R417): streams IDLE, port queues and inbound queues empty, accumulators zero, and no
completion or wake message left to start a strand of the bond (R196). -/
def clearCore (k : Core) : Core :=
  { k with
    streams := Vector.replicate 4 Stream.idle
    inq := Vector.replicate 4 []
    seam := Vector.replicate 4 []
    ctxs := Vector.replicate 4 []
    inbound := []
    outbound := []
    chans := k.chans.map fun x => { x with cmds := x.cmds.filter fun m => m.phase != .finished }
    tickets := k.tickets.map fun x => { x with unsent := none }
    k := Vector.replicate 256 0
    kPoison := 0
    frozen := none
    claimed := none }

/-- Whether a packet on its way starts or wakes a strand on a core of a cluster test. -/
def startsOn (inCluster : Nat → Bool) : Body → Bool
  | .start d _ | .fanKeystone d _ | .fanStart d _ | .completion d _ | .gangWake d _ | .wake d _ =>
    inCluster (clusterIdx d)
  | .fault _ _ | .scopeMiss _ _ => false

/-- A bond's sequencer is free again (R366). -/
def releaseSeqr (s : State) (x : Bond) : State :=
  match x.seqr with
  | some (die, q) => modDie s die fun d => { d with seqrs := d.seqrs.set q { d.seqrs[q] with bond := none } }
  | none => s

/-- A bond leaves its clusters. -/
def freeClusters (s : State) (x : Bond) : State :=
  (bondClusters x).foldl (fun s cl => modCluster s cl fun l => { l with bond := none }) s

/-- Everything a kill of a bond does short of its LAUNCH packet. -/
def stopBond (s : State) (b : Nat) : State :=
  match mapFind s.bonds b with
  | none => s
  | some x =>
    let inside := fun cl => (bondClusters x).contains cl
    let s := killPart s b inside true
    let clear := fun (e : CoreId × Core) => if inside (clusterIdx e.1) then (e.1, clearCore e.2) else e
    let s : State := { s with cores := s.cores.map clear }
    let s := (s.net.filter fun p => startsOn inside p.body).foldl (fun s p => match p.queue with
      | some (q, n) => markDone s q n
      | none => s) s
    let s : State := { s with net := s.net.filter fun p => !startsOn inside p.body }
    let s := freeClusters (releaseSeqr s x) x
    { s with bonds := mapErase b s.bonds }

/-- A bond is killed and absorbed: its LAUNCH packet completes and its queue records the cause (R417, R468). -/
def killBond (s : State) (b : Nat) (cause : Byte) : State :=
  match mapFind s.bonds b with
  | none => s
  | some x =>
    let s := modQueue (stopBond s b) x.queue fun q => { q with
      bkill := true, bcause := cause, bpos := BitVec.ofNat 16 x.packet.index }
    markDone s x.queue x.packetNo

/-- The resident bonds of a bond's bay (R466). -/
def bayBonds (s : State) (x : Bond) (b : Nat) : List Nat :=
  if x.bay = 0 then [b]
  else (s.bonds.filter fun e => e.2.job == x.job && e.2.bay == x.bay).map fun e => e.1

def jobBonds (s : State) (j : Nat) : List Nat := (s.bonds.filter fun e => e.2.job == j).map fun e => e.1

/-- A saved bond of a killed job goes: its sequencer's commands are cancelled and the sequencer is free, its tags go, and
its LAUNCH packet completes with the cause (R318, R366, R417). -/
def dropSavedBond (cause : Byte) (s : State) (e : Nat × Bond) : State :=
  let s := releaseSeqr (cancelSeq s e.2 fun _ => true) e.2
  let s := dropTags s fun t => t.bond == some e.1
  markDone (modQueue s e.2.queue fun q => { q with
    bkill := true, bcause := cause, bpos := BitVec.ofNat 16 e.2.packet.index }) e.2.queue e.2.packetNo

/-- The saved context of a killed job goes with its bonds and units, whose packets complete (R417). -/
def dropSaved (s : State) (j : Nat) (cause : Byte) : State :=
  let old := s.parts.flatMap fun e => e.2.saved.filter fun x => x.job == j
  let s := old.foldl (fun s x =>
    x.queue.foldl (fun s u => markDone s u.queue u.packetNo) (x.bonds.foldl (dropSavedBond cause) s)) s
  { s with parts := s.parts.map fun e => (e.1, { e.2 with
      saved := e.2.saved.filter fun x => x.job != j
      walks := e.2.walks.filter fun x => x.1 != j }) }

/-- A job is killed: its bonds, its queued units, and its command queues stop (R417, R468); which packet EPOS names, and
that the packet in hand is dropped, is log 133. -/
def killJob (s : State) (j : Nat) (cause : Byte) : State :=
  let at_ := fun q => ((s.bonds.find? fun e => e.2.job == j && e.2.queue == q).map fun e => e.2.packet.index).getD
    (queueOf s q).pos
  let s := dropSaved ((jobBonds s j).foldl (fun s b => killBond s b cause) s) j cause
  let waiting := s.parts.flatMap fun e => e.2.units.filter fun u => u.job == j
  let s := waiting.foldl (fun s u => markDone s u.queue u.packetNo) s
  let s : State := { s with parts := s.parts.map fun e => (e.1, { e.2 with units := e.2.units.filter fun u => u.job != j }) }
  let qs := ((s.queues.filter fun e => queueJob e.2 == j && e.2.run).map fun e => e.1).map fun q => (q, at_ q)
  let s := qs.foldl (fun s q => stopQueue s q.1 cause q.2) s
  modJob s j fun x => { x with killed := true }

/-! ## Restarts (R416) -/

/-- How many strands of a core FAN has started. -/
def fanStarted (s : State) (b : Nat) (x : Bond) (c : CoreId) : Nat :=
  let waits := (coreOf s c).inbound.findSome? fun m => match m.start with
    | .fan _ _ _ _ _ n _ => if m.bond = some b then some n else none
    | _ => none
  let mine := fun (x : Body) => match x with
    | .fanStart d m => d == c && m.bond == some b
    | .fanKeystone _ l => l.any fun e => e.1 == c && e.2.bond == some b
    | _ => false
  let flies := s.net.any (fun p => mine p.body) || s.cores.any fun e => e.2.outbound.any fun m => mine m.body
  if !x.fanned || flies then 0 else waits.getD x.spc

/-- Strands t to n − 1 of a core's FAN start wait in its inbound queue for a slot: they join the start message that waits
there, or stand at its head without an entry of it (R200, R217; log 138). They are barrier members at once (R218). -/
def queueFanned (s : State) (b : Nat) (x : Bond) (c : CoreId) (first t n : Nat) : State :=
  let uids := (List.range (n - t)).map (s.nextUid + ·)
  let s := uids.foldl (fun s u => joinBarriers s b c u) { s with nextUid := s.nextUid + (n - t) }
  let isFan : InMsg → Bool := fun m => match m.start with | .fan _ _ _ _ _ _ _ => m.bond == some b | _ => false
  let again := fun (m : InMsg) => match m.start with
    | .fan pc arg f size tick _ old =>
      { m with start := .fan pc arg f size tick t (List.replicate t 0 ++ uids ++ old.drop n) }
    | _ => m
  let new : InMsg := ⟨.fan x.fanPc x.fanArg (BitVec.ofNat 64 first) (x.size.setWidth 64) 0 t (List.replicate t 0 ++ uids),
    some b, x.job, x.part, 0, false, false⟩
  modCore s c fun k =>
    let l := k.inbound
    { k with inbound := if l.any isFan then l.map (fun m => if isFan m then again m else m) else new :: l }

/-- The last `k` of n strands that FAN started on a core are started again, in ascending order; those that find no slot
wait (R416). -/
def restartFanned (s : State) (b : Nat) (x : Bond) (c : CoreId) (first n : Nat) : Nat → State
  | 0 => s
  | k + 1 =>
    let t := n - (k + 1)
    match freeSlot (coreOf s c) with
    | none => queueFanned s b x c first t n
    | some i =>
      let uid := s.nextUid
      let new := startFanned s (some b) x.job x.part uid c x.fanPc x.fanArg (BitVec.ofNat 64 (first + t)) (x.size.setWidth 64)
      restartFanned (joinBarriers (putStrand { s with nextUid := uid + 1 } c i new) b c uid) b x c first n k

/-- A course is killed, and the strands that FAN started on its cores start again. -/
def restartCourse (s : State) (b cl : Nat) : State :=
  match mapFind s.bonds b with
  | none => s
  | some x =>
    let all := bondCores x x.fanMask
    let mine := (all.zip (List.range all.length)).filter fun e => clusterIdx e.1 == cl
    let todo := mine.map fun e => (e.1, e.2 * x.spc, fanStarted s b x e.1)
    todo.foldl (fun s e => restartFanned s b x e.1 e.2.1 e.2.2 e.2.2) (killCourse s b cl)

/-- A bond's LAUNCH is queued again with the counters of the levels at and above the restarted one. -/
def requeueBond (s : State) (b : Nat) (left : Option (Nat × Nat × Nat)) : State :=
  match mapFind s.bonds b with
  | none => s
  | some x =>
    let u : WorkUnit := ⟨x.packet, x.queue, x.packetNo, x.job, none, 0, s.nextSeq, left⟩
    modPart { stopBond s b with nextSeq := s.nextSeq + 1 } x.part fun p => { p with units := p.units ++ [u] }

/-- RETRY of a level of CONTUP: 0 course, 1 bond, 2 bay, 3 job (R204). -/
def contRetry (w : W64) (l : Nat) : Nat := bits w (8 * l + 5) (8 * l + 2)
def contPol (w : W64) (l : Nat) : Nat := bits w (8 * l + 1) (8 * l)

/-- A unit above the course is restarted (R416): 2 bond, 3 bay, 4 job. A restart resets the counters of the units inside. -/
def restartUnits (s : State) (bs : List Nat) (level : Nat) : State :=
  bs.foldl (fun s b => match mapFind s.bonds b with
    | none => s
    | some x =>
      let keepBond := if level = 2 then x.leftBond else contRetry x.contup 1
      let keepBay := if level ≤ 3 then x.leftBay else contRetry x.contup 2
      requeueBond s b (some (keepBond, keepBay, x.leftJob))) s

/-! ## Agents that wait for a reply (R410, R414) -/

inductive Agent where
  | strand (c : CoreId) (i : Slot)
  | stream (c : CoreId) (n : StreamId)
  | copy (c : CoreId) (ch : Fin 3) (n : Nat)
  | foot (c : CoreId) (n : Nat)
  | seq (die : Fin 4) (q : Fin 8) (n : Nat)
  | ticket (c : CoreId) (i : Fin 4)
  | store (c : CoreId) (seq word : Nat)
  | red (c : CoreId) (seq loc : Nat)
deriving DecidableEq, Repr

def waitsOn (token : W64) (t : Strand) : Bool := match t.wait with | .reply x _ _ => x == token | _ => false

def copyWaits (token : W64) (m : CopyCmd) : Bool :=
  match m.phase with
  | .faulted t _ => t == token
  | _ => false

/-- The agent of one core that waits on a token. -/
def coreAgent (c : CoreId) (k : Core) (token : W64) : Option Agent :=
  let chan := fun (ch : Fin 2) => (k.chans[ch].cmds.find? (copyWaits token)).map fun m =>
    Agent.copy c (ch.castLE (by decide)) m.n
  ((coreStrands k).find? fun e => waitsOn token e.2).map (fun e => Agent.strand c e.1)
  |>.or (((List.finRange 4).find? fun n => k.streams[n].token == some token).map fun n => Agent.stream c n)
  |>.or (((List.finRange 4).find? fun i => k.tickets[i].token == some token).map fun i => Agent.ticket c i)
  |>.or (chan 0) |>.or (chan 1)
  |>.or ((k.foot.cmds.find? fun m => m.token == some token).map fun m => Agent.foot c m.n)
  |>.or ((k.stores.find? fun e => e.token == some token).map fun e => Agent.store c e.seq e.word)
  |>.or ((k.reds.find? fun r => r.token == some token).map fun r => Agent.red c r.seq r.loc)

/-- The tile sequencer command that waits on a token. -/
def seqAgent (s : State) (token : W64) : Option Agent :=
  (List.finRange 4).findSome? fun d => (List.finRange 8).findSome? fun q =>
    (s.dies[d].seqrs[q].cmds.find? fun m => m.token == some token).map fun m => Agent.seq d q m.n

/-- The command of an exchange engine that waits on a token. -/
def exchangeAgent (s : State) (token : W64) : Option Agent :=
  s.exchange.findSome? fun e => (e.2.cmds.find? (copyWaits token)).map fun m => Agent.copy e.1 2 m.n

def agentOf (s : State) (token : W64) : Option Agent :=
  (s.cores.findSome? fun e => coreAgent e.1 e.2 token) |>.or (seqAgent s token) |>.or (exchangeAgent s token)

/-- A copy command changed. -/
def modCopy (s : State) (c : CoreId) (ch : Fin 3) (n : Nat) (f : CopyCmd → CopyCmd) : State :=
  modChan s c ch fun k => { k with cmds := k.cmds.map fun m => if m.n = n then f m else m }

def modFoot (s : State) (c : CoreId) (n : Nat) (f : FootCmd → FootCmd) : State :=
  modCore s c fun k => { k with foot := { k.foot with cmds := k.foot.cmds.map fun m => if m.n = n then f m else m } }

def modSeq (s : State) (die : Fin 4) (q : Fin 8) (n : Nat) (f : SeqCmd → SeqCmd) : State :=
  modDie s die fun d =>
    let x := d.seqrs[q]
    { d with seqrs := d.seqrs.set q { x with cmds := x.cmds.map fun m => if m.n = n then f m else m } }

/-- The command at hand ends with an outcome: it makes no more writes, and its cores go (R371). -/
def endSeq (s : State) (die : Fin 4) (q : Fin 8) (n : Nat) (o : Byte) : State :=
  modSeq (leaveComponent s die q) die q n fun x => { x with
    token := none, gang := none, todo := none, ran := true, outcome := o }

/-- RESUME of a copy: the elements of the 4 MiB before the faulting one are written again, and those before them are done
for good (R349). -/
def resumeCopy (x : CopyCmd) : CopyCmd :=
  match x.phase with
  | .faulted _ e => { x with
      phase := .running
      first := Nat.max x.first ((cdEsz x.words * e - copyWindow) / cdEsz x.words)
      landed := [], held := [], pins := [] }
  | _ => x

/-- SKIP of a copy: the element is left unwritten, and the outcome is 0x10 (R414). -/
def skipCopy (x : CopyCmd) : CopyCmd :=
  match x.phase with
  | .faulted _ e => { x with phase := .running, outcome := 0x10, skipped := setAdd e x.skipped }
  | _ => x

/-- The engine of a read stream fetches the element it faulted on again (R176, R187). -/
def refetch (st : Stream) : Stream :=
  match st.buf.find? fun e => e.fault.isSome with
  | some e => { st with buf := st.buf.takeWhile (fun x => x.idx != e.idx), ahead := e.idx, token := none, stuck := none }
  | none => { st with token := none, stuck := none }

/-- The element that halted a bound read stream stands as zero bytes (R187); a switch may have dropped it from the buffer,
and it is then read so when its turn comes (R194). -/
def zeroFaulting (st : Stream) : Stream :=
  match st.stuck with
  | some i =>
    let fix := fun (x : Elem) => if x.idx = i then { x with data := 0, fault := none } else x
    { st with
      buf := st.buf.map fix, token := none, stuck := none
      zeros := if st.buf.any (fun e => e.idx == i) then st.zeros else setAdd i st.zeros }
  | none => { st with token := none }

/-- RESUME (R414). -/
def resumeAgent (s : State) (m : FaultMsg) : Agent → State
  | .strand c i =>
    let s := if m.source = .readStream then modStream s c m.strm refetch else s
    modStrand s c i fun t => match t.wait with
      | .reply _ _ (some q) =>
        let clear := fun (p : Pending) =>
          { p with
            parts := p.parts.map fun x => { x with got := none, lease := none }
            rejected := false, park := 0, again := true }
        { t with wait := .none, inflight := t.inflight.map fun p => if p.seq = q then clear p else p }
      | _ => { t with wait := .none }
  | .stream c n => modStream s c n fun st => if sdWrite st.desc then { st with token := none, stuck := none } else refetch st
  | .copy c ch n => modCopy s c ch n resumeCopy
  | .foot c n => modFoot s c n fun x => { x with token := none }
  | .seq d q n => modSeq s d q n fun x => { x with token := none }
  | .ticket c i => modTicket s c i fun x => { x with token := none }
  | .store c q w => modCore s c fun k => { k with stores := k.stores.map fun e =>
      if e.seq = q ∧ e.word = w then { e with token := none } else e }
  | .red c q l => modCore s c fun k => { k with reds := k.reds.map fun r =>
      if r.seq = q ∧ r.loc = l then { r with token := none } else r }

/-- SKIP (R414), but for a fetch fault. -/
def skipAgent (s : State) (_m : FaultMsg) : Agent → State
  | .strand c i => modStrand s c i fun t => match t.wait with
      | .reply _ _ (some q) => { t with wait := .none, inflight := t.inflight.filter fun p => p.seq != q }
      | .reply _ len none => { t with wait := .none, pc := t.pc + BitVec.ofNat 64 len }
      | _ => t
  | .stream c n => modStream s c n fun st =>
      if sdWrite st.desc then { st with token := none, stuck := none, buf := st.buf.tail } else zeroFaulting st
  | .copy c ch n => modCopy s c ch n skipCopy
  | .foot c n => finishFoot s c n 0x10
  | .seq d q n => endSeq s d q n 0x10
  | .ticket c i => modTicket s c i fun x => { x with token := none, skipped := setAdd x.waitElem x.skipped }
  | .store c q w => modCore s c fun k => { k with stores := dropStores (fun e => e.seq == q && e.word == w) k.stores }
  | .red c q l => modCore s c fun k => { k with reds := k.reds.filter fun r => ¬ (r.seq = q ∧ r.loc = l) }

/-- What KILL does to an agent before the walk, for SOURCE 3, 4, 5 and a bound read engine (R414). -/
def killAgent (s : State) : Agent → State
  | .stream c n =>
    modStream (unbind s c n) c n fun st => { dropBuffer st with token := none, stuck := none, mode := .stopped }
  | .copy c ch n => finishCopy s c ch n 0x10
  | .foot c n => finishFoot s c n 0x10
  | .seq d q n => endSeq s d q n 0x10
  | .ticket c i => modTicket s c i fun x =>
    { x with token := none, faulted := some (0x10, x.cx.toNat, x.cy.toNat, bits x.desc 95 64) }
  | .strand _ _ | .store _ _ _ | .red _ _ _ => s

/-- Whether an agent still waits when the walk starts. -/
def stillWaits : Agent → Bool
  | .strand _ _ | .store _ _ _ | .red _ _ _ => true
  | _ => false

/-! ## The walk (R415) -/

/-- Where a walk stands: the starting strand while it lives, its bond, and its cluster. -/
structure Walker where
  strand : Option (CoreId × Slot)
  bond : Option Nat
  cluster : Nat
  /-- The agent, while it waits. -/
  agent : Option Agent
  msg : FaultMsg

/-- The policies of the levels above the strand. -/
def walkContup (s : State) (w : Walker) : W64 :=
  match w.strand with
  | some (c, i) => (strandAt s c i).contup
  | none => ((w.bond.bind (mapFind s.bonds)).map fun x => x.contup).getD 0

/-- Retries left of a level above the strand (R416). -/
def walkLeft (s : State) (w : Walker) (l : Nat) : Nat :=
  match w.bond.bind (mapFind s.bonds) with
  | none => 0
  | some x => match l with
    | 1 => mapGet (contRetry x.contup 0) x.leftCourse w.cluster
    | 2 => x.leftBond
    | 3 => x.leftBay
    | _ => x.leftJob

/-- One retry used at a level: of the course, of the bond, or of every bond of the bay or job. -/
def useRetry (s : State) (b : Nat) (cl l : Nat) : State :=
  match mapFind s.bonds b with
  | none => s
  | some x => match l with
    | 1 => modBond s b fun y => { y with
        leftCourse := mapSet cl (mapGet (contRetry y.contup 0) y.leftCourse cl - 1) y.leftCourse }
    | 2 => modBond s b fun y => { y with leftBond := y.leftBond - 1 }
    | 3 => (bayBonds s x b).foldl (fun s e => modBond s e fun y => { y with leftBay := x.leftBay - 1 }) s
    | _ => (jobBonds s x.job).foldl (fun s e => modBond s e fun y => { y with leftJob := x.leftJob - 1 }) s

/-- The unit of a level is killed. -/
def killUnit (s : State) (b cl : Nat) (cause : Byte) (l : Nat) : State :=
  match mapFind s.bonds b with
  | none => s
  | some x => match l with
    | 1 => killCourse s b cl
    | 2 => killBond s b cause
    | 3 => (bayBonds s x b).foldl (fun s e => killBond s e cause) s
    | _ => killJob s x.job cause

/-- The unit of a level is restarted. -/
def restartUnit (s : State) (b cl : Nat) (l : Nat) : State :=
  match mapFind s.bonds b with
  | none => s
  | some x => match l with
    | 1 => restartCourse s b cl
    | 2 => restartUnits s [b] 2
    | 3 => restartUnits s (bayBonds s x b) 3
    | _ => restartUnits s (jobBonds s x.job) 4

/-- The agent answered SKIP at the end of a walk. -/
def ignoreFault (s : State) (w : Walker) : State :=
  match w.agent with
  | some a => skipAgent s w.msg a
  | none => s

/-- The strand level of the walk; none passes the fault up. -/
def walkStrand (s : State) (w : Walker) : Option State :=
  match w.strand with
  | none => none
  | some (c, i) =>
    let t := strandAt s c i
    let left := bits t.contain 11 8
    match bits t.contain 1 0 with
    | 3 => if w.msg.source = .fetch then none else some (ignoreFault s w)
    | 2 => some (killStrand s c i)
    | 1 =>
      if left = 0 then none
      else
        let s := modStrand s c i fun t => { t with contain := putBits t.contain 8 4 (left - 1) }
        some (match w.agent with | some a => resumeAgent s w.msg a | none => s)
    | _ => none

/-- The levels above the strand, from the lowest given. -/
def walkUp (s : State) (w : Walker) (b : Nat) : List Nat → State
  | [] => killUnit s b w.cluster w.msg.kind 4
  | l :: rest =>
    match contPol (walkContup s w) (l - 1) with
    | 3 => if w.msg.source = .fetch then walkUp s w b rest else ignoreFault s w
    | 2 => killUnit s b w.cluster w.msg.kind l
    | 1 =>
      if walkLeft s w l = 0 then walkUp s w b rest
      else restartUnit (useRetry s b w.cluster l) b w.cluster l
    | _ => walkUp s w b rest

/-- CONTAINMENT_WALK (R415) for a fault of a strand: by its number while it lives, else from the core of the agent; where
the walk of a COPY packet starts is log 130. -/
def walk (s : State) (m : FaultMsg) (agent : Option Agent) : State :=
  let here := findUid s m.uid
  let c := match here with | some e => e.1 | none => m.core
  let b := match here with
    | some (c, i) => (strandAt s c i).bond
    | none => (clusterOf s (clusterIdx c)).bond
  let w : Walker := ⟨here, b, clusterIdx c, agent, m⟩
  match walkStrand s w, b with
  | some s', _ => s'
  | none, some b => walkUp s w b [1, 2, 3, 4]
  | none, none => s

/-! ## Replies (R414) -/

inductive Act where | resume | skip | kill
deriving DecidableEq, Repr

/-- The partition of an agent. -/
def agentPart (s : State) : Agent → Nat
  | .strand c _ | .stream c _ | .foot c _ | .ticket c _ | .store c _ _ | .red c _ _ => partOfCore s c
  | .copy c ch n => if ch.val < 2 then partOfCore s c
      else (((chanOf s c ch).cmds.find? fun m => m.n == n).map fun m => m.part).getD 0
  | .seq d q n => ((s.dies[d].seqrs[q].cmds.find? fun m => m.n == n).map fun m => partOfCore s m.core).getD 0

/-- KILL: the agent's own end where R414 gives one, then the walk. -/
def replyKill (s : State) (m : FaultMsg) (a : Agent) : State :=
  walk (killAgent s a) m (if stillWaits a then some a else none)

/-- A reply takes effect. -/
def applyReply (s : State) (m : FaultMsg) (a : Agent) (act : Act) : State :=
  let s := { s with asked := s.asked.filter fun x => x.token != m.token }
  match act with
  | .resume => resumeAgent s m a
  | .skip => if m.source = .fetch then replyKill s m a else skipAgent s m a
  | .kill => replyKill s m a

def actCode : Act → BitVec 2
  | .resume => 0 | .skip => 1 | .kill => 2
def actOf (x : BitVec 2) : Act := if x = 0 then .resume else if x = 1 then .skip else .kill

/-- Whether the cores of a partition are halted (R424). -/
def partHalted (s : State) (p : Nat) : Bool :=
  s.cores.any fun e => e.2.halted && (partOf s p).clusters.contains (clusterIdx e.1)

/-- A reply to a token: no effect unless its agent, in the partition given, waits on it; held while the partition is
halted (R430). -/
def reply (s : State) (part : Option Nat) (token : W64) (act : Act) : State :=
  match s.asked.find? (fun m => m.token == token), agentOf s token with
  | some m, some a =>
    if (match part with | some p => agentPart s a == p | none => true) then
      if partHalted s (agentPart s a) then
        modPart s (agentPart s a) fun p => { p with held := p.held ++ [(token, actCode act)] }
      else applyReply s m a act
    else s
  | _, _ => s

/-- A walk for a fault that no agent waits on, such as a gang's: at once, or after the resumption of a halted partition
(R430). -/
def walkWhenRunning (s : State) (part : Nat) (m : FaultMsg) : State :=
  if partHalted s part then modPart s part fun p => { p with walks := p.walks ++ [(p.job, m)] } else walk s m none

/-- A service strand raises a cause, or ends without replying (R413): it is gone, and the default reply is applied. -/
def dropService (s : State) (c : CoreId) (i : Slot) : State :=
  let t := strandAt s c i
  let s := killStrand s c i
  match t.serving with
  | some m => reply s none m.token .kill
  | none => s

end Sys2Proof.Machine
end

