-- ==== Sys2Proof/Machine/Ops.lean ====
section
/-!
DEFINITION. How an instruction is issued and ends: operands and views (R7, R98 to R100, R138, R170 to R176, R227 to
R229), the order of causes (R81, R407), taking a local trap and returning from one (R26, R27), messages (R409).
-/
namespace Sys2Proof.Machine

/-! ## How the body of an instruction stops -/

inductive Stop where
  /-- Not ready (R100): the strand tries it again from its start. -/
  | wait
  /-- Blocked on something that is not an operand of the instruction. -/
  | block (w : Wait)
  /-- The home of a word withholds it from an operation of the strand at its port (R315). -/
  | park (word : Nat)
  /-- Loads of a word block leave, and the instruction goes on from its start once they are answered (R184, R344). -/
  | loads (ps : List Part)
  /-- A local trap (R26); `wr` says that the cause is one of an access that writes (WR of R296). -/
  | trap (cause : Byte) (tval : W64) (wr : Bool := false)
  /-- A fault message (R296). -/
  | post (m : FaultMsg)

/-- The place of a stop in the order of R407: a smaller number comes first. -/
def stopRank : Stop → Nat
  | .trap c v _ =>
    if c = 0x06 then 0 else if c = 0x03 then 1
    else if c = 0x08 then (if bits v 63 48 = 0 then 4 else 2)
    else if c = 0x0A then 5 else if c = 0x07 then 6 else if c = 0x0D then 7 else 8
  | .post m => if m.kind = 0x10 then 3 else 7
  | .block _ => 3
  | .park _ | .loads _ | .wait => 9

/-- Of two stops, the one that comes first (R407). -/
def firstStop (a b : Option Stop) : Option Stop :=
  match a, b with
  | none, b => b
  | a, none => a
  | some x, some y => if stopRank y < stopRank x then some y else some x

/-! ## Traps and messages -/

/-- The word of an instruction, zero-extended (R404). -/
def instrWord (i : Instr) : W64 := match encode i with | some e => BitVec.ofNat 64 e.bits | none => 0

/-- The strand of a slot waits for the reply to a message it posts (R26, R297); a service strand ends instead (R413). -/
def postAndWait (s : State) (c : CoreId) (i : Slot) (len : Nat) (load : Option Nat) (m : FaultMsg) : State :=
  if (strandAt s c i).kind = .service then dropService s c i
  else
    let token := agentToken s c (slotAgent i)
    modStrand (postFault s (slotAgent i) m) c i fun t => { t with wait := .reply token len load }

/-- TVEC.BASE + cause × 64 (R25, R26). -/
def trapVector (tvec : W64) (cause : Byte) : W64 := (tvec &&& ~~~(0xFFF : W64)) + cause.setWidth 64 * 64

/-- LOCAL_TRAP_ENTRY (R26, R408, R413): the issuing strand raises a cause at an instruction of `len` bytes. -/
def takeTrap (s : State) (len : Nat) (cause : Byte) (tval : W64) (wr : Bool := false) : State :=
  let t := me s
  if t.kind = .service then dropService s s.cur s.slot
  else if cause = 0x0D ∨ ¬ bit t.tvec 0 ∨ bit t.tstat 1 then
    postAndWait s s.cur s.slot len none { faultMsg cause .strand s.cur s.slot tval t.pc t.uid with wr := wr }
  else modMe s fun t => { t with
    tepc := if cause = 0x0C then t.pc + BitVec.ofNat 64 len else t.pc
    tcause := cause.setWidth 64
    tval := tval
    tstat := 2 + boolW t.super
    super := true
    pc := trapVector t.tvec cause }

/-- RETT (R27, R135). -/
def returnFromTrap (s : State) : State :=
  modMe s fun t => { t with pc := t.tepc, super := bit t.tstat 0, tstat := t.tstat &&& ~~~(2 : W64) }

/-! ## Views -/

/-- The physical link of a port name for the issuing strand (R18). -/
def myLink (s : State) (p : Port) : Port := linkOf (me s).orient p

def viewS (s : State) : SReg → List View
  | .g _ => []
  | .s n => [.stream n false]
  | .p p => [.port (myLink s p) false]

def viewV (s : State) : VReg → List View
  | .v _ => []
  | .w n => [.stream n true]
  | .q p => [.port (myLink s p) true]

/-- The operands of an instruction: sources, data that a store moves (whose register poison moves with it, R421),
destinations, and a misalignment of its address (R407). -/
structure Uses where
  srcS : List SReg := []
  srcV : List VReg := []
  movS : List SReg := []
  movV : List VReg := []
  dstS : List SReg := []
  dstV : List VReg := []
  mis : Option Stop := none

/-- Views popped, each once (R99), and views pushed. -/
def popsOf (s : State) (u : Uses) : List View :=
  ((u.srcS ++ u.movS).flatMap (viewS s) ++ (u.srcV ++ u.movV).flatMap (viewV s)).dedup
def pushesOf (s : State) (u : Uses) : List View := u.dstS.flatMap (viewS s) ++ u.dstV.flatMap (viewV s)

/-- Cause 0x06 with its stream and reason (R174). -/
def streamTrap (n : StreamId) (reason : Nat) : Stop := .trap 0x06 (BitVec.ofNat 64 (n.val + 16 * reason))

/-- The state and direction of a view (R171, R173, R185). A view that stands in the wrong direction and is bound too
takes reason 0x2 (log 103). -/
def viewStop (s : State) (push : Bool) : View → Option Stop
  | .stream n vec =>
    let st := (coreOf s s.cur).streams[n]
    if st.mode ≠ .active then some (streamTrap n 1)
    else if sdWrite st.desc ≠ push then some (streamTrap n 2)
    else if st.bound.isSome then some (streamTrap n 4)
    else if push && decide ((pushPlaces s s.cur st vec).1.length < wantOf st vec) then some (streamTrap n 3)
    else none
  | .port l _ =>
    match boundOn (coreOf s s.cur) l (!push) with
    | some n => some (streamTrap n 4)
    | none => none

/-- A link with no core of the issuer's bond beyond it (R229). -/
def linkStop (s : State) (l : Port) : Option Stop :=
  let ok := match neighbour s.cur l with | some c => inBond s (me s).bond c | none => false
  if ok then none else some (.trap 0x08 (BitVec.ofNat 64 (0x100 + portNum l)))

def portStop (s : State) : View → Option Stop
  | .stream _ _ => none
  | .port l _ => linkStop s l

/-- Whether two views pop one queue. -/
def sameQueue : View → View → Bool
  | .stream m _, .stream n _ => m == n
  | .port a _, .port b _ => a == b
  | _, _ => false

/-- Whether a request on its way will pop a view when it completes: until then no other instruction pops it (R11, R99;
log 102). -/
def viewHeld (s : State) (v : View) : Bool :=
  (coreStrands (coreOf s s.cur)).any fun t => t.2.inflight.any fun p => p.pops.any (sameQueue v)

/-- Whether a view holds what a pop requests, or has room for a push (R100, R172, R175, R228). -/
def viewReady (s : State) (push : Bool) (v : View) : Bool :=
  match v with
  | .stream n vec =>
    let st := (coreOf s s.cur).streams[n]
    if push then pushRoom st vec else popReady s s.cur st (wantOf st vec) && !viewHeld s v
  | .port l _ =>
    if push then decide (0 < linkFree s s.cur l) else !(inqOf (coreOf s s.cur) l).isEmpty && !viewHeld s v

/-- A pop committed (R11). -/
def popView (s : State) : View → State
  | .stream n vec => popStream s s.cur n vec
  | .port l _ => popLink s s.cur l

def popAll (s : State) (vs : List View) : State := vs.foldl popView s

/-! ## Registers and operands -/

/-- Registers that a request in flight will write (R11, R23). -/
def pendingG (t : Strand) (i : Fin 24) : Bool :=
  t.inflight.any fun p => (match p.dest with | .scalar (.g j) _ _ => j == i | _ => false)
    || (match p.base with | some (j, _) => j == i | none => false)
def pendingV (t : Strand) (i : Fin 8) : Bool :=
  t.inflight.any fun p => match p.dest with | .vector (.v j) _ _ => j == i | _ => false

def busyS (t : Strand) : SReg → Bool
  | .g i => pendingG t i
  | .s _ | .p _ => false
def busyV (t : Strand) : VReg → Bool
  | .v i => pendingV t i
  | .w _ | .q _ => false

def busy (t : Strand) (u : Uses) : Bool :=
  (u.srcS ++ u.movS ++ u.dstS).any (busyS t) || (u.srcV ++ u.movV ++ u.dstV).any (busyV t)

def getG (s : State) (i : Fin 24) : W64 := (me s).g[i]
def getV (s : State) (i : Fin 8) : W256 := (me s).v[i]
def getM (s : State) (i : Fin 4) : W32 := (me s).m[i]

/-- The oldest entry of an inbound queue. -/
def portHead (s : State) (p : Port) : PortEntry :=
  (inqOf (coreOf s s.cur) (myLink s p)).headD ⟨0, 0, false, none, none⟩

/-- The value of a scalar source (R5, R170, R172). -/
def readS (s : State) : SReg → W64
  | .g i => getG s i
  | .s n => let st := (coreOf s s.cur).streams[n]; scalarOf st (popBytes st (st.buf.take 1) 0)
  | .p p => (portHead s p).data.setWidth 64

/-- The value of a vector source. -/
def readV (s : State) : VReg → W256
  | .v i => getV s i
  | .w n => let st := (coreOf s s.cur).streams[n]; popBytes st (st.buf.take (sdGroup st.desc)) 0
  | .q p => (portHead s p).data

/-- A g register written whole: its poison goes (R421). -/
def setG (s : State) (i : Fin 24) (x : W64) : State :=
  modMe s fun t => { t with g := t.g.set i x, gPoison := putBits t.gPoison i.val 1 0 }

/-- A vector register written in the words that `words` names, whole (R421). -/
def setVWords (s : State) (i : Fin 8) (words : BitVec 4) (x : W256) : State :=
  modMe s fun t => { t with v := t.v.set i x, vPoison := t.vPoison &&& ~~~(words.setWidth 32 <<< (4 * i.val)) }

def setV (s : State) (i : Fin 8) (x : W256) : State := setVWords s i 0xF x

def setM (s : State) (i : Fin 4) (x : W32) : State := modMe s fun t => { t with m := t.m.set i x }

/-- An entry pushed through a port view of the issuing strand (R7, R227, R232); over a seam it keeps its place in issue
order until it is performed (R230, R441). -/
def pushPort (s : State) (p : Port) (x : W256) : State :=
  let l := myLink s p
  if crossesSeam s.cur l then
    pushLink { s with nextSeq := s.nextSeq + 1 } s.cur l
      ⟨x, tagBits (coreOf s s.cur), false, none, some ((me s).uid, s.nextSeq)⟩
  else pushLink s s.cur l ⟨x, tagBits (coreOf s s.cur), false, none, none⟩

/-- A scalar destination written or pushed (R7, R170). -/
def writeS (s : State) (d : SReg) (x : W64) : State :=
  match d with
  | .g i => setG s i x
  | .s n => pushStream s s.cur n false (x.setWidth 256)
  | .p p => pushPort s p (x.setWidth 256)

/-- A vector destination written or pushed whole. -/
def writeV (s : State) (d : VReg) (x : W256) : State :=
  match d with
  | .v i => setV s i x
  | .w n => pushStream s s.cur n true x
  | .q p => pushPort s p x

/-- The predicate's bits (R9). -/
def predMask (s : State) : Pred → W32
  | .always => 0xFFFFFFFF
  | .m1 => getM s 1
  | .m2 => getM s 2
  | .m3 => getM s 3

/-- The bit that decides a scalar instruction (R9). -/
def predOn (s : State) (p : Pred) : Bool := bit (predMask s p) 0

/-! ## Faults of operands -/

/-- The fault that a pop of a stream meets (R176). -/
def popStop (s : State) (n : StreamId) (vec : Bool) : Option Stop :=
  let st := (coreOf s s.cur).streams[n]
  match popFault st (wantOf st vec) with
  | none => none
  | some e =>
    let va := sdAddr st.desc e.idx
    match e.fault with
    | some (.translation r l x) =>
      some (.post { faultMsg 0x10 .readStream s.cur s.slot va 0 (me s).uid with
        reason := r, level := l, entry := x, strm := n, pos := sdPack st.desc e.idx })
    | some .violation => some (.trap 0x08 va)
    | _ => some (.trap 0x0D va)

/-- Poison of a register (R421): TVAL 0. -/
def poisonStop (b : Bool) : Option Stop := if b then some (.trap 0x0D 0) else none

def gPoisoned (s : State) (i : Fin 24) : Bool := bit (me s).gPoison i.val
def vPoisoned (s : State) (i : Fin 8) : BitVec 4 := (me s).vPoison.extractLsb' (4 * i.val) 4

def srcStopS (s : State) : SReg → Option Stop
  | .g i => poisonStop (gPoisoned s i)
  | .s n => popStop s n false
  | .p p => poisonStop (portHead s p).poison

def srcStopV (s : State) : VReg → Option Stop
  | .v i => poisonStop (vPoisoned s i != 0)
  | .w n => popStop s n true
  | .q p => poisonStop (portHead s p).poison

def movStopS (s : State) (r : SReg) : Option Stop :=
  match r with
  | .g _ => none
  | r => srcStopS s r
def movStopV (s : State) (r : VReg) : Option Stop :=
  match r with
  | .v _ => none
  | r => srcStopV s r

/-- The first cause that the sources raise. -/
def operandStop (s : State) (u : Uses) : Option Stop :=
  (u.srcS.map (srcStopS s) ++ u.srcV.map (srcStopV s) ++ u.movS.map (movStopS s) ++ u.movV.map (movStopV s)).foldl
    firstStop none

/-- Register poison that a store moves: of a scalar, or of word j of a vector (R421). -/
def movedPoisonS (s : State) : SReg → Bool
  | .g i => gPoisoned s i
  | .s _ | .p _ => false
def movedPoisonV (s : State) (r : VReg) (j : Nat) : Bool :=
  match r with
  | .v i => bit (vPoisoned s i) j
  | .w _ | .q _ => false

/-! ## Issue -/

def firstOf (s : State) (vs : List View) (f : State → View → Option Stop) : Option Stop := vs.findSome? (f s)

def throwIf (o : Option Stop) : Except Stop Unit := match o with | some x => .error x | none => .ok ()
def waitUnless (b : Bool) : Except Stop Unit := if b then .ok () else .error .wait

/-- What comes before the body: the checks of views, registers that are still to be written, alignment, ports, and the
wait for views (R81, R100, R229, R407). -/
def issueChecks (s : State) (u : Uses) (pops pushes : List View) : Except Stop Unit := do
  throwIf (firstOf s pops (viewStop · false))
  throwIf (firstOf s pushes (viewStop · true))
  waitUnless (!busy (me s) u)
  throwIf u.mis
  throwIf (firstOf s (pops ++ pushes) portStop)
  waitUnless (pops.all (viewReady s false) && pushes.all (viewReady s true))

/-- The body, with the causes of its operands in their place (R407). -/
def withOperands {α : Type} (o : Option Stop) (r : Except Stop α) : Except Stop α :=
  match o, r with
  | none, r => r
  | some x, .ok _ => .error x
  | some x, .error y => match y with
    | .wait => .error .wait
    | y => .error ((firstStop (some y) (some x)).getD x)

/-- The pops of an instruction come with its completion: at once, or with the answer of the request that it has left on
its way (R11, R99). -/
def commitPops (s t : State) (pops : List View) : State :=
  let mine := fun (p : Pending) => !(me s).inflight.contains p
  if pops.isEmpty || !(me t).inflight.any mine then popAll t pops
  else modMe t fun x => { x with inflight := x.inflight.map fun p => if mine p then { p with pops := pops } else p }

/-- An instruction in full: checks, body, and its pops together with its completion (R11). -/
def issueBody (s : State) (u : Uses) (body : State → Except Stop State) : Except Stop State := do
  let pops := popsOf s u
  issueChecks s u pops (pushesOf s u)
  let t ← withOperands (operandStop s u) (body s)
  .ok (commitPops s t pops)

/-- The strand's next attempt is no longer marked as waiting. -/
def ready (s : State) : State := modMe s fun t => { t with wait := .none }

/-- Whether a request loads a word block for the instruction at the PC. -/
def blockLoad (p : Pending) : Bool := p.dest == .block

/-- The word blocks that an instruction has loaded are dropped when it ends without completing. -/
def dropBlocks (s : State) : State := modMe s fun t => { t with inflight := t.inflight.filter fun p => !blockLoad p }

/-- The loads of a word block leave (R184, R344); those of an SO page go one after the other (R308). -/
def sendBlock (s : State) (ps : List Part) : State :=
  let p : Pending := ⟨s.nextSeq, (me s).pc, 0, .load, ps, .block, none, true, none, none, [], false, false,
    ps.any (fun q => q.ord == .so), 0, false⟩
  modMe { s with nextSeq := s.nextSeq + 1 } fun t => { t with wait := .answer, inflight := t.inflight ++ [p] }

/-- What a stop does to the issuing strand. -/
def stopStep (s : State) (len : Nat) : Stop → State
  | .wait => modMe s fun t => { t with wait := .notReady }
  | .block w => modMe s fun t => { t with wait := w }
  | .park w => modMe (parkMiss s (.core s.cur) w) fun t => { t with wait := .withheld w }
  | .loads ps => sendBlock s ps
  | .trap c v wr => takeTrap (dropBlocks s) len c v wr
  | .post m => postAndWait (dropBlocks s) s.cur s.slot len none m

/-- The outcome of an instruction. -/
def conclude (s : State) (len : Nat) (r : Except Stop State) : Host.Outcome State Fault Refusal :=
  match r with
  | .ok t => .next t
  | .error x => .next (stopStep s len x)

/-- The PC past an instruction (R64). -/
def advance (s : State) (len : Nat) : State := modMe s fun t => { t with pc := t.pc + BitVec.ofNat 64 len }

/-- An instruction of `len` bytes whose predicate is on executes its body; one that is off retires (R81, R101). -/
def executeLen (len : Nat) (s : State) (on : Bool) (u : Uses) (body : State → Except Stop State) :
    Host.Outcome State Fault Refusal :=
  let s := ready s
  if on then conclude s len (issueBody s u body) else .next (advance s len)

/-- A 32-bit instruction. -/
def execute (s : State) (on : Bool) (u : Uses) (body : State → Except Stop State) :
    Host.Outcome State Fault Refusal :=
  executeLen 4 s on u body

/-- An instruction that writes results and goes on to the next one. -/
def compute (s : State) (on : Bool) (u : Uses) (body : State → Except Stop State) :
    Host.Outcome State Fault Refusal :=
  execute s on u fun s => (body s).map fun t => advance t 4

/-- A supervisor-only instruction (R81). -/
def privileged (s : State) (i : Instr) (k : State → Host.Outcome State Fault Refusal) :
    Host.Outcome State Fault Refusal :=
  if (me s).super then k s else .next (takeTrap (ready s) 4 0x02 (instrWord i))

/-! ## The strand's accesses -/

/-- Whose access the issuing strand's is (R117, R434). -/
def strandWho (c : CoreId) (t : Strand) : Who :=
  ⟨c, t.super, t.job, t.part, if bit t.dhint 0 then bits t.dhint 2 1 else dieNum c, false⟩

/-- A translation fault of the issuing strand (R296). -/
def translationMsg (s : State) (src : FaultSource) (wr : Bool) (va : W64) (r : BitVec 4) (l : BitVec 2) (x : W64) :
    FaultMsg :=
  { faultMsg 0x10 src s.cur s.slot va (me s).pc (me s).uid with reason := r, wr := wr, level := l, entry := x }

/-- An address checked (R117); a miss is walked at once unless the environment leaves it to a walker (R293). -/
def access (s : State) (use : Use) (va : W64) : Except Stop (Ref × State) :=
  match checkAddr s (strandWho s.cur (me s)) use (!s.lazy) va with
  | .ok r s => .ok (r, s)
  | .violation => .error (.trap 0x08 va (use != .load && use != .fetch))
  | .fault r l x => .error (.post (translationMsg s .strand (use != .load && use != .fetch) va r l x))
  | .await => .error (.block (.walk va false (use != .load && use != .fetch)))

/-- No request of the strand is in flight. -/
def drained (s : State) : Bool := (me s).inflight.isEmpty

/-- The next place in issue order. -/
def takeSeq (s : State) : Nat × State := (s.nextSeq, { s with nextSeq := s.nextSeq + 1 })

/-- An access to an SO page follows the strand's earlier ones: stores, reductions and loads (R128, R308). -/
def soWaits (s : State) (ord : OrdKind) : Bool :=
  ord == .so && ((coreOf s s.cur).stores.any (fun e => e.uid == (me s).uid && e.ord == .so)
    || (coreOf s s.cur).reds.any (fun r => r.uid == (me s).uid && r.ord == .so)
    || (me s).inflight.any fun p => p.parts.any fun q => q.ord == .so && q.got.isNone)

/-- A release of the issuing strand is not performed yet (R130, R302): what it waits for. -/
def releaseWaits (s : State) (sc : Scope) (uo red : Bool) : Bool :=
  outstanding s s.cur (me s).uid s.nextSeq sc uo red

/-- The issuing strand's writes before this place carry the mark of a release (R312). -/
def markMine (s : State) (sc : Scope) (uo : Bool) : State := markRelease s s.cur (me s).uid s.nextSeq sc uo

/-- The instruction blocks until its release is performed (R102, R130). -/
def release (s : State) (sc : Scope) (uo red : Bool) : Except Stop Unit :=
  if releaseWaits s sc uo red then .error (.block (.release sc uo red)) else .ok ()

end Sys2Proof.Machine
end

