-- ==== Sys2Proof/Machine/Flags.lean ====
section
/-!
DEFINITION. The flags and the rounding mode of FCSR (R16, R17, R21, R144).
-/
namespace Sys2Proof.Machine

/-- The enables of FCSR (R16). -/
def fcsrEn (w : W64) : Flags := w.extractLsb' 10 6

def raise (s : State) (fl : Flags) : Except Stop State :=
  if fl &&& fcsrEn (me s).fcsr ≠ 0 then .error (.trap 0x04 (fl.setWidth 64)) else .ok (addFlags s s.cur s.slot fl)

/-- The rounding mode of FCSR (R16). -/
def fcsrRm (w : W64) : RMode :=
  match bits w 2 0 with | 1 => .rtz | 2 => .rup | 3 => .rdn | 4 => .rna | _ => .rne

def myRm (s : State) : RMode := fcsrRm (me s).fcsr
def roundingOf (s : State) : RCode → RMode
  | .fixed m => m
  | .dyn => myRm s

end Sys2Proof.Machine
end

