-- ==== Sys2Proof/Machine/Operands.lean ====
section
/-!
DEFINITION. The memory operands of instructions: effective addresses, loads, stores, atomics and reductions as requests
to their homes (R115 to R128, R147, R284, R302, R306).
-/
namespace Sys2Proof.Machine

/-! ## Addresses -/

/-- The effective address of modes 00 and 01 (R115). -/
def eaOf (m : LMode) (a : W64) (off : BitVec 8) (n : Nat) : W64 :=
  match m with
  | .offset => a + off.signExtend 64 * BitVec.ofNat 64 n
  | .postInc => a

/-- The base register of mode 01 with its new value (R115). -/
def incOf (m : LMode) (i : Fin 24) (a : W64) (off : BitVec 8) (n : Nat) : Option (Fin 24 × W64) :=
  match m with
  | .offset => none
  | .postInc => some (i, a + off.signExtend 64 * BitVec.ofNat 64 n)

/-- Cause 0x03 for an address that is no multiple of n (R115). -/
def misOf (ea : W64) (n : Nat) (wr : Bool := false) : Option Stop :=
  if ea.toNat % n = 0 then none else some (.trap 0x03 ea wr)

def applyInc (s : State) (b : Option (Fin 24 × W64)) : State :=
  match b with
  | some (i, x) => setG s i x
  | none => s

def lsize : LSize → Nat
  | .b | .bu => 1 | .h | .hu => 2 | .w | .wu => 4 | .d => 8
def lsigned : LSize → Bool
  | .b | .h | .w => true
  | .d | .bu | .hu | .wu => false
def ssize : SSize → Nat
  | .b => 1 | .h => 2 | .w => 4 | .d => 8

/-! ## Answers of requests -/

/-- The bytes that the parts of a request returned, assembled. -/
def assemble : List Part → W256
  | [] => 0
  | q :: t =>
    (match q.got with
      | some (w, _) => (subWord w (q.loc % 8) q.n).setWidth 256 <<< (8 * q.pos)
      | none => 0) ||| assemble t

def answered (p : Pending) : Bool := p.parts.all fun q => q.got.isSome

/-- The address of the first poisoned part. -/
def poisonedPart (p : Pending) : Option W64 :=
  (p.parts.find? fun q => match q.got with | some (_, b) => b | none => false).map fun q => q.va

/-- Lanes of width w that a mask enables, from `new`; the others from `old` (R9). -/
def mergeLanes (w : Nat) (mask : W32) (old new : W256) : W256 :=
  lanesOf 256 w (fun i => if bit mask i then lane new w i else lane old w i) (256 / w)

/-- The 8-byte words of a vector whose every lane of width w the mask writes (R421). -/
def wholeWords (w : Nat) (mask : W32) : BitVec 4 :=
  BitVec.ofNat 4 ((List.range 4).foldl (fun n j =>
    if (List.range (64 / w)).all (fun i => bit mask (j * (64 / w) + i)) then n + 2 ^ j else n) 0)

/-- A vector destination written in the lanes the predicate enables; a view gets zero in the others (R9, R138). -/
def writeLanes (s : State) (d : VReg) (w : Nat) (mask : W32) (x : W256) : State :=
  match d with
  | .v i => setVWords s i (wholeWords w mask) (mergeLanes w mask (getV s i) x)
  | d => writeV s d (mergeLanes w mask 0 x)

/-- The flags a FAMO raises; they join FCSR whatever the enables hold (R124). -/
def rmwFlags (p : Pending) : Flags :=
  match p.kind, p.parts with
  | .famo op f v, [q] => match q.got with
    | some (w, _) => (rmwVal (.famo op f v) q.n (subWord w (q.loc % 8) q.n)).2
    | none => 0
  | _, _ => 0

/-- The destination and base of an answered request of the issuing strand (R11, R115, R122). -/
def writeAnswer (s : State) (p : Pending) : State :=
  let x := assemble p.parts
  let s := match p.dest with
    | .scalar d w sg => writeS s d (if sg then sext x w 64 else (x.setWidth w).setWidth 64)
    | .vector d w m => writeLanes s d w m x
    | .nothing | .block => s
  let s := addFlags (applyInc s p.base) s.cur s.slot (rmwFlags p)
  match p.acquire with
  | some sc => markAcquire s s.cur (me s).uid sc
  | none => s

/-! ## Requests of the issuing strand -/

/-- A piece of a request before translation: address, bytes and place in the assembled value. -/
structure Piece where
  va : W64
  n : Nat
  pos : Nat

/-- Every piece checked before anything happens; of several that fail, the cause that comes first (R117, R147, R148,
R407). -/
def checkPieces (s : State) (use : Use) : List Piece → Except Stop (List (Piece × Ref) × State)
  | [] => .ok ([], s)
  | p :: t =>
    match access s use p.va with
    | .ok (r, s) => (match checkPieces s use t with
      | .ok (l, s) => .ok ((p, r) :: l, s)
      | .error y => .error y)
    | .error x => match checkPieces s use t with
      | .ok _ => .error x
      | .error y => .error ((firstStop (some x) (some y)).getD x)

def partOf_ (e : Piece × Ref) : Part := ⟨e.1.va, e.2.loc, e.1.n, e.1.pos, e.2.key, e.2.ord, e.2.lease, none⟩

/-- Whether pieces straddle two pages, slices or striped pieces (R306). -/
def straddles : List Piece → Bool
  | [] => false
  | p :: t => t.any fun q => !samePiece p.va q.va

/-- What a rejected access does to its strand (R299): a load raises cause 0x08; an atomic is reported with SOURCE 6, and
its strand waits for the reply (R327). -/
def rejectionStop (s : State) (p : Pending) : Stop :=
  let va := match p.parts with | q :: _ => q.va | [] => 0
  if writesWord p.kind then
    .post { faultMsg 0x08 .rejection s.cur s.slot va 0 (me s).uid with wr := true }
  else .trap 0x08 va

/-- A request leaves: at once to its homes, or on its way when the environment has it so. Without an answer yet, a
register destination stays pending and the strand goes on; otherwise the strand blocks (R102, R125). -/
def sendRequest (s : State) (p : Pending) (len : Nat) : Except Stop State :=
  let wantBlock := p.blocking || destView p
  let keep := fun (s : State) (p : Pending) =>
    let s := modMe s fun t => { t with inflight := t.inflight ++ [{ p with blocking := wantBlock }] }
    if wantBlock then modMe s fun t => { t with wait := .answer } else advance s len
  if s.lazy then .ok (keep s p)
  else
    let r := performReq s s.cur s.slot (me s).uid p
    if r.1.rejected then .error (rejectionStop s p)
    else if answered r.1 then
      match poisonedPart r.1 with
      | some va => .error (.trap 0x0D va (writesWord p.kind))
      | none => .ok (advance (writeAnswer r.2 r.1) len)
    else .ok (keep r.2 r.1)

/-- A request of the issuing strand with a place in issue order. -/
def requestOf (s : State) (seq : Nat) (kind : ReqKind) (parts : List Part) (d : Dest) (base : Option (Fin 24 × W64))
    (blocking : Bool) (rel acq : Option Scope) (ordered : Bool) : Pending :=
  ⟨seq, (me s).pc, 4, kind, parts, d, base, blocking, rel, acq, [], false, false, ordered, 0, false⟩

/-- A load of pieces into a destination (R115, R120, R147, R148, R284); the order of a gather's elements is log 124. -/
def loadPieces (s : State) (ps : List Piece) (kind : ReqKind) (d : Dest) (base : Option (Fin 24 × W64))
    (blocking : Bool) (acq : Option Scope := none) : Except Stop State := do
  let (l, s) ← checkPieces s .load ps
  waitUnless (!(l.any fun e => soWaits s e.2.ord))
  let (q, s) := takeSeq s
  sendRequest s (requestOf s q kind (l.map partOf_) d base blocking none acq (straddles ps)) 4

/-- A piece of a store: its bytes' value from bit 0, which of its bytes are stored, and whether the data is poisoned. -/
structure Chunk where
  piece : Piece
  val : W64
  mask : BitVec 8
  poison : Bool

/-- The store queue entry of a chunk (R302); `after` orders the second part of a straddling access behind the first
(R306). A release's own write carries its mark (R312). -/
def entryOf (s : State) (seq : Nat) (tag : Option Scope) (after : Option Nat) (c : Chunk) (r : Ref) : StoreEntry where
  seq := seq
  uid := (me s).uid
  slot := s.slot
  pc := (me s).pc
  va := c.piece.va
  word := wordOf r.loc
  mask := byteMask (r.loc % 8) c.piece.n &&& (c.mask <<< (r.loc % 8))
  val := c.val <<< (8 * (r.loc % 8))
  poison := c.poison
  key := r.key
  ord := r.ord
  lease := r.lease
  tag := tag.map fun sc => releaseTag s s.cur s.slot (me s).uid seq (wordOf r.loc) sc
  after := after
  order := match tag with | some sc => ⟨[(s.cur, sc)], []⟩ | none => .none
  token := none

/-- The first entry of a queue that may be performed among those that `ok` names. -/
def readyStore (ok : StoreEntry → Bool) (all : List StoreEntry) : List StoreEntry → List StoreEntry → Option StoreEntry
  | _, [] => none
  | before, e :: t =>
    if ok e && storeReady before all e then some e else readyStore ok all (before ++ [e]) t

/-- Entries of a core's queue performed as long as one is ready. -/
def drainStores (s : State) (c : CoreId) (from_ : Nat) : Nat → State
  | 0 => s
  | n + 1 =>
    match readyStore (fun e => decide (e.seq ≥ from_) && storeFree s c e) (coreOf s c).stores [] (coreOf s c).stores with
    | some e => drainStores (performStore s c e) c from_ n
    | none => s

/-- Stores leave for the outbound queue, and at once for their homes unless the environment delays them (R302). -/
def queueStores (s : State) (es : List StoreEntry) : State :=
  let from_ := (es.map fun e => e.seq).foldl Nat.min s.nextSeq
  let s := modCore s s.cur fun k => { k with stores := k.stores ++ es }
  if s.lazy then s else drainStores s s.cur from_ es.length

/-- Chunks with their references, as entries; a scatter gives each chunk its own place in issue order, and none of its
chunks waits for another (R148, R306). -/
def makeEntries (s : State) (tag : Option Scope) (each : Bool) (first : W64) :
    List (Chunk × Ref) → List StoreEntry × State
  | [] => ([], s)
  | (c, r) :: t =>
    let e := entryOf s s.nextSeq tag (if each || samePiece first c.piece.va then none else some s.nextSeq) c r
    let s' := if each || t.isEmpty then { s with nextSeq := s.nextSeq + 1 } else s
    let r := makeEntries s' tag each first t
    (e :: r.1, r.2)

/-- Stores of chunks, all checked before any byte leaves (R115, R117, R147, R148). -/
def storeChunks (s : State) (cs : List Chunk) (tag : Option Scope) (each : Bool) : Except Stop State := do
  let (l, s) ← checkPieces s .store (cs.map fun c => c.piece)
  waitUnless (!(l.any fun e => soWaits s e.2.ord))
  let first := match cs with | c :: _ => c.piece.va | [] => 0
  let (es, s) := makeEntries s tag each first (cs.zip (l.map fun e => e.2))
  .ok (queueStores s es)

/-- The release of an instruction that is one: it blocks until the release is performed, and then marks the writes it has
not waited for (R102, R130, R312). -/
def releasing (s : State) (rel : Option Scope) : Except Stop State :=
  match rel with
  | some sc => (release s sc false false).map fun _ => markMine s sc false
  | none => .ok s

/-- An atomic of n bytes (R122 to R128). -/
def atomicReq (s : State) (kind : ReqKind) (ea : W64) (n : Nat) (d : Dest) (rel acq : Option Scope) :
    Except Stop State := do
  let (r, s) ← access s .atomic ea
  waitUnless (drained s && !soWaits s r.ord)
  let s ← releasing s rel
  let (q, s) := takeSeq s
  sendRequest s (requestOf s q kind [⟨ea, r.loc, n, 0, r.key, r.ord, r.lease, none⟩] d none true rel acq false) 4

/-- Reductions of the issuing strand that the environment does not delay are performed and acknowledged in turn. -/
def performNow (s : State) (rs : List Reduction) : State :=
  rs.foldl (fun s r =>
    let s := if r.rp then combineShadow s s.cur r else performRed s s.cur r
    match (coreOf s s.cur).reds.find? fun x => x.seq == r.seq && x.loc == r.loc with
    | some x => if x.performed then ackRed s s.cur x else s
    | none => s) s

/-- A return-free reduction or a write with norm leaves, with as many words as it writes; at most 64 instructions' are
outstanding (R125, R390), and one to an SO page follows the strand's earlier accesses to such pages (R128). -/
def sendReductions (s : State) (l : List (RedKind × W64 × Ref × Bool)) (rel : Option Scope) : Except Stop State := do
  let k := coreOf s s.cur
  let t := me s
  waitUnless (decide (((k.reds.filter fun r => r.uid == t.uid).map fun r => r.seq).dedup.length < 64)
    && !(l.any fun e => soWaits s e.2.2.1.ord))
  let s := match rel with | some sc => markMine s sc false | none => s
  let (q, s) := takeSeq s
  let rs := l.map fun (e : RedKind × W64 × Ref × Bool) =>
    (⟨q, t.uid, s.slot, t.pc, e.2.2.1.va, e.2.2.1.loc, e.1, e.2.1, e.2.2.1.key, e.2.2.1.ord, e.2.2.1.lease, e.2.2.2, rel,
      false, false, (match rel with | some sc => ⟨[(s.cur, sc)], []⟩ | none => .none), none⟩ : Reduction)
  let s := modCore s s.cur fun k => { k with reds := k.reds ++ rs }
  .ok (if s.lazy then s else performNow s rs)

/-! ## Operations at a slice port and blocks of words -/

/-- The strand's earlier accesses to these words come first, and every store that it may have read (R284, R303); the home
lets it read them (R315). -/
def portTurn (s : State) (words : List Nat) : Except Stop Unit := do
  waitUnless (drained s && !(words.any fun w =>
    queuedStore s s.cur (me s).uid s.nextSeq w || olderRed s s.cur (me s).uid s.nextSeq w))
  match words.find? fun w => !readable s (.core s.cur) w with
  | some w => .error (.park w)
  | none => .ok ()

/-- n 8-byte loads of the strand at consecutive words (R184, R264, R344), performed together. -/
def loadWords (s : State) (a : W64) : Nat → Nat → Except Stop (List W64 × State)
  | 0, _ => .ok ([], s)
  | n + 1, i => do
    let va := a + BitVec.ofNat 64 (8 * i)
    let (r, s) ← access s .load va
    waitUnless (!soWaits s r.ord && !olderRed s s.cur (me s).uid s.nextSeq (wordOf r.loc)
      && peerTurn s s.cur s.nextSeq r.lease)
    match strandWord s s.cur (me s).uid s.nextSeq (wordOf r.loc) r.key 0xFF with
    | none => .error (.park (wordOf r.loc))
    | some (w, bad) =>
      if bad then .error (.trap 0x0D va)
      else do
        let (l, s) ← loadWords s a n (i + 1)
        .ok (w :: l, s)

/-- Words as a block, the first in the low bits. -/
def blockOf (l : List W64) : W512 := l.foldr (fun w x => (x <<< 64) ||| w.setWidth 512) 0

/-- The loads of a block that the instruction at the PC has on their way. -/
def blockOnWay (s : State) (a : W64) : Option Pending :=
  (me s).inflight.find? fun p => blockLoad p && (p.parts.map fun q => q.va).head? == some a

/-- A 64-byte block at an address that is a multiple of 64: eight loads of the strand, performed at any time between issue
and completion (R184, R344). They are performed together, or leave on their own ways when the environment has it so. -/
def loadBlock (s : State) (a : W64) : Except Stop (W512 × State) :=
  match blockOnWay s a with
  | some p =>
    if p.rejected then .error (rejectionStop s p)
    else if !answered p then .error .wait
    else match poisonedPart p with
      | some va => .error (.trap 0x0D va)
      | none =>
        .ok (blockOf (p.parts.map fun q => match q.got with | some (w, _) => w | none => 0),
          modMe s fun t => { t with inflight := t.inflight.filter fun x => x.seq != p.seq })
  | none => do
    waitUnless (drained s)
    if s.lazy then do
      let (l, s) ← checkPieces s .load ((List.range 8).map fun i => ⟨a + BitVec.ofNat 64 (8 * i), 8, 8 * i⟩)
      waitUnless (!(l.any fun e => soWaits s e.2.ord))
      .error (.loads (l.map partOf_))
    else do
      let (l, s) ← loadWords s a 8 0
      .ok (blockOf l, s)

end Sys2Proof.Machine
end

