-- ==== Sys2Proof/Machine/Int.lean ====
section
/-!
DEFINITION. Register operations, masks, branches and jumps (majors 0x00 to 0x19; R104 to R114, R193).
-/
namespace Sys2Proof.Machine

/-! ## Shapes -/

/-- d ← f(a, b). -/
def op3 (p : Pred) (d a b : SReg) (f : W64 → W64 → W64) (s : State) : Host.Outcome State Fault Refusal :=
  compute s (predOn s p) { srcS := [a, b], dstS := [d] } fun s => .ok (writeS s d (f (readS s a) (readS s b)))

/-- d ← f(a). -/
def op2 (p : Pred) (d a : SReg) (f : W64 → W64) (s : State) : Host.Outcome State Fault Refusal :=
  compute s (predOn s p) { srcS := [a], dstS := [d] } fun s => .ok (writeS s d (f (readS s a)))

/-! ## Results (R104 to R110) -/

/-- A shift amount: b[5:0]. -/
def shamt (b : W64) : Nat := bits b 5 0

def sext13 (i : BitVec 13) : W64 := i.signExtend 64
/-- uval of R67. -/
def uval (i : BitVec 18) : W64 := i.signExtend 64 * 8192

/-- The truth-table operation of R107 and R152 on each bit. -/
def lop3Bits {w : Nat} (table : BitVec 8) (d a b : BitVec w) : BitVec w :=
  let pick := fun (i : Nat) (x y z : BitVec w) => if bit table i then x &&& y &&& z else 0
  pick 0 (~~~b) (~~~a) (~~~d) ||| pick 1 (~~~b) (~~~a) d ||| pick 2 (~~~b) a (~~~d) ||| pick 3 (~~~b) a d
    ||| pick 4 b (~~~a) (~~~d) ||| pick 5 b (~~~a) d ||| pick 6 b a (~~~d) ||| pick 7 b a d

/-- R108. -/
def funnelLeft (a b : W64) (sh : Nat) : W64 := ((a ++ b) <<< sh).extractLsb' 64 64
def funnelRight (a b : W64) (sh : Nat) : W64 := ((a ++ b) >>> sh).extractLsb' 0 64

/-- R109. -/
def mulHigh (a b : W64) : W64 := BitVec.ofInt 64 (a.toInt * b.toInt / 2 ^ 64)
def mulHighU (a b : W64) : W64 := BitVec.ofNat 64 (a.toNat * b.toNat / 2 ^ 64)
def divS (a b : W64) : W64 := if b = 0 then -1 else BitVec.ofInt 64 (a.toInt.tdiv b.toInt)
def divU (a b : W64) : W64 := if b = 0 then -1 else a / b
def remS (a b : W64) : W64 := if b = 0 then a else BitVec.ofInt 64 (a.toInt.tmod b.toInt)
def remU (a b : W64) : W64 := if b = 0 then a else a % b

/-- R110. -/
def countLeading (a : W64) : W64 := BitVec.ofNat 64 (64 - bitLen a.toNat)
def countTrailingFrom (x : Nat) : Nat → Nat
  | 0 => 0
  | n + 1 => if x % 2 = 1 then 0 else 1 + countTrailingFrom (x / 2) n
def countTrailing (a : W64) : W64 := BitVec.ofNat 64 (countTrailingFrom a.toNat 64)
def populationCount (a : W64) : W64 := BitVec.ofNat 64 (popcount 64 a.toNat)
def bitReverse (a : W64) : W64 := lanesOf 64 1 (fun j => lane a 1 (63 - j)) 64
def byteSwap (a : W64) : W64 := lanesOf 64 8 (fun j => lane a 8 (7 - j)) 8

/-! ## Major 0x00 -/

def execAdd (p : Pred) (d a b : SReg) (s : State) : Host.Outcome State Fault Refusal := op3 p d a b (· + ·) s
def execSub (p : Pred) (d a b : SReg) (s : State) : Host.Outcome State Fault Refusal := op3 p d a b (· - ·) s
def execAnd (p : Pred) (d a b : SReg) (s : State) : Host.Outcome State Fault Refusal := op3 p d a b (· &&& ·) s
def execOr (p : Pred) (d a b : SReg) (s : State) : Host.Outcome State Fault Refusal := op3 p d a b (· ||| ·) s
def execXor (p : Pred) (d a b : SReg) (s : State) : Host.Outcome State Fault Refusal := op3 p d a b (· ^^^ ·) s
def execAndn (p : Pred) (d a b : SReg) (s : State) : Host.Outcome State Fault Refusal :=
  op3 p d a b (fun a b => a &&& ~~~b) s
def execOrn (p : Pred) (d a b : SReg) (s : State) : Host.Outcome State Fault Refusal :=
  op3 p d a b (fun a b => a ||| ~~~b) s
def execSll (p : Pred) (d a b : SReg) (s : State) : Host.Outcome State Fault Refusal :=
  op3 p d a b (fun a b => a <<< shamt b) s
def execSrl (p : Pred) (d a b : SReg) (s : State) : Host.Outcome State Fault Refusal :=
  op3 p d a b (fun a b => a >>> shamt b) s
def execSra (p : Pred) (d a b : SReg) (s : State) : Host.Outcome State Fault Refusal :=
  op3 p d a b (fun a b => a.sshiftRight (shamt b)) s
def execRol (p : Pred) (d a b : SReg) (s : State) : Host.Outcome State Fault Refusal :=
  op3 p d a b (fun a b => a.rotateLeft (shamt b)) s
def execRor (p : Pred) (d a b : SReg) (s : State) : Host.Outcome State Fault Refusal :=
  op3 p d a b (fun a b => a.rotateRight (shamt b)) s
def execMin (p : Pred) (d a b : SReg) (s : State) : Host.Outcome State Fault Refusal :=
  op3 p d a b (fun a b => if a.slt b then a else b) s
def execMax (p : Pred) (d a b : SReg) (s : State) : Host.Outcome State Fault Refusal :=
  op3 p d a b (fun a b => if a.slt b then b else a) s
def execMinu (p : Pred) (d a b : SReg) (s : State) : Host.Outcome State Fault Refusal :=
  op3 p d a b (fun a b => if a < b then a else b) s
def execMaxu (p : Pred) (d a b : SReg) (s : State) : Host.Outcome State Fault Refusal :=
  op3 p d a b (fun a b => if a < b then b else a) s
def execSlt (p : Pred) (d a b : SReg) (s : State) : Host.Outcome State Fault Refusal :=
  op3 p d a b (fun a b => boolW (a.slt b)) s
def execSltu (p : Pred) (d a b : SReg) (s : State) : Host.Outcome State Fault Refusal :=
  op3 p d a b (fun a b => boolW (a.ult b)) s
def execSeq (p : Pred) (d a b : SReg) (s : State) : Host.Outcome State Fault Refusal :=
  op3 p d a b (fun a b => boolW (a == b)) s
def execSne (p : Pred) (d a b : SReg) (s : State) : Host.Outcome State Fault Refusal :=
  op3 p d a b (fun a b => boolW (a != b)) s
/-- SEL reads the old d as its condition (R104). -/
def execSel (p : Pred) (d : GReg) (a b : SReg) (s : State) : Host.Outcome State Fault Refusal :=
  compute s (predOn s p) { srcS := [.g d, a, b], dstS := [.g d] } fun s =>
    .ok (setG s d (if getG s d ≠ 0 then readS s a else readS s b))

/-! ## Immediate operations (R105, R106) -/

def execAddi (p : Pred) (d a : SReg) (imm : BitVec 13) (s : State) : Host.Outcome State Fault Refusal :=
  op2 p d a (fun a => a + sext13 imm) s
def execAndi (p : Pred) (d a : SReg) (imm : BitVec 13) (s : State) : Host.Outcome State Fault Refusal :=
  op2 p d a (fun a => a &&& sext13 imm) s
def execOri (p : Pred) (d a : SReg) (imm : BitVec 13) (s : State) : Host.Outcome State Fault Refusal :=
  op2 p d a (fun a => a ||| sext13 imm) s
def execXori (p : Pred) (d a : SReg) (imm : BitVec 13) (s : State) : Host.Outcome State Fault Refusal :=
  op2 p d a (fun a => a ^^^ sext13 imm) s
def execSlli (p : Pred) (d a : SReg) (sh : BitVec 6) (s : State) : Host.Outcome State Fault Refusal :=
  op2 p d a (fun a => a <<< sh.toNat) s
def execSrli (p : Pred) (d a : SReg) (sh : BitVec 6) (s : State) : Host.Outcome State Fault Refusal :=
  op2 p d a (fun a => a >>> sh.toNat) s
def execSrai (p : Pred) (d a : SReg) (sh : BitVec 6) (s : State) : Host.Outcome State Fault Refusal :=
  op2 p d a (fun a => a.sshiftRight sh.toNat) s
def execRoli (p : Pred) (d a : SReg) (sh : BitVec 6) (s : State) : Host.Outcome State Fault Refusal :=
  op2 p d a (fun a => a.rotateLeft sh.toNat) s
def execSlti (p : Pred) (d a : SReg) (imm : BitVec 13) (s : State) : Host.Outcome State Fault Refusal :=
  op2 p d a (fun a => boolW (a.slt (sext13 imm))) s
def execSltiu (p : Pred) (d a : SReg) (imm : BitVec 13) (s : State) : Host.Outcome State Fault Refusal :=
  op2 p d a (fun a => boolW (a.ult (sext13 imm))) s
def execLui (d : SReg) (imm : BitVec 18) (s : State) : Host.Outcome State Fault Refusal :=
  compute s true { dstS := [d] } fun s => .ok (writeS s d (uval imm))
def execAuipc (d : SReg) (imm : BitVec 18) (s : State) : Host.Outcome State Fault Refusal :=
  compute s true { dstS := [d] } fun s => .ok (writeS s d ((me s).pc + uval imm))

/-! ## LOP3 and the funnel shifts (R107, R108) -/

def execLop3 (p : Pred) (d : GReg) (a b : SReg) (table : BitVec 8) (s : State) : Host.Outcome State Fault Refusal :=
  compute s (predOn s p) { srcS := [.g d, a, b], dstS := [.g d] } fun s =>
    .ok (setG s d (lop3Bits table (getG s d) (readS s a) (readS s b)))
def execFshl (p : Pred) (d a b : SReg) (sh : BitVec 6) (s : State) : Host.Outcome State Fault Refusal :=
  op3 p d a b (fun a b => funnelLeft a b sh.toNat) s
def execFshr (p : Pred) (d a b : SReg) (sh : BitVec 6) (s : State) : Host.Outcome State Fault Refusal :=
  op3 p d a b (fun a b => funnelRight a b sh.toNat) s

/-! ## Multiply and divide (R109) -/

def execMul (p : Pred) (d a b : SReg) (s : State) : Host.Outcome State Fault Refusal := op3 p d a b (· * ·) s
def execMulh (p : Pred) (d a b : SReg) (s : State) : Host.Outcome State Fault Refusal := op3 p d a b mulHigh s
def execMulhu (p : Pred) (d a b : SReg) (s : State) : Host.Outcome State Fault Refusal := op3 p d a b mulHighU s
def execDiv (p : Pred) (d a b : SReg) (s : State) : Host.Outcome State Fault Refusal := op3 p d a b divS s
def execDivu (p : Pred) (d a b : SReg) (s : State) : Host.Outcome State Fault Refusal := op3 p d a b divU s
def execRem (p : Pred) (d a b : SReg) (s : State) : Host.Outcome State Fault Refusal := op3 p d a b remS s
def execRemu (p : Pred) (d a b : SReg) (s : State) : Host.Outcome State Fault Refusal := op3 p d a b remU s

/-! ## Bit operations (R110) -/

def execClz (p : Pred) (d a : SReg) (s : State) : Host.Outcome State Fault Refusal := op2 p d a countLeading s
def execCtz (p : Pred) (d a : SReg) (s : State) : Host.Outcome State Fault Refusal := op2 p d a countTrailing s
def execPopc (p : Pred) (d a : SReg) (s : State) : Host.Outcome State Fault Refusal := op2 p d a populationCount s
def execBrev (p : Pred) (d a : SReg) (s : State) : Host.Outcome State Fault Refusal := op2 p d a bitReverse s
def execBswap (p : Pred) (d a : SReg) (s : State) : Host.Outcome State Fault Refusal := op2 p d a byteSwap s
def execSextB (p : Pred) (d a : SReg) (s : State) : Host.Outcome State Fault Refusal := op2 p d a (sext · 8 64) s
def execSextH (p : Pred) (d a : SReg) (s : State) : Host.Outcome State Fault Refusal := op2 p d a (sext · 16 64) s
def execSextW (p : Pred) (d a : SReg) (s : State) : Host.Outcome State Fault Refusal := op2 p d a (sext · 32 64) s
def execZextB (p : Pred) (d a : SReg) (s : State) : Host.Outcome State Fault Refusal := op2 p d a (· &&& 0xFF) s
def execZextH (p : Pred) (d a : SReg) (s : State) : Host.Outcome State Fault Refusal := op2 p d a (· &&& 0xFFFF) s
def execZextW (p : Pred) (d a : SReg) (s : State) : Host.Outcome State Fault Refusal := op2 p d a (· &&& 0xFFFFFFFF) s

/-! ## Mask operations (R111) -/

def execSetm (p : Pred) (d : MReg) (a : SReg) (s : State) : Host.Outcome State Fault Refusal :=
  compute s (predOn s p) { srcS := [a] } fun s => .ok (setM s d ((readS s a).setWidth 32))
def execGetm (p : Pred) (d : SReg) (a : MReg) (s : State) : Host.Outcome State Fault Refusal :=
  compute s (predOn s p) { dstS := [d] } fun s => .ok (writeS s d ((getM s a).setWidth 64))
def execMand (p : Pred) (d a b : MReg) (s : State) : Host.Outcome State Fault Refusal :=
  compute s (predOn s p) {} fun s => .ok (setM s d (getM s a &&& getM s b))
def execMor (p : Pred) (d a b : MReg) (s : State) : Host.Outcome State Fault Refusal :=
  compute s (predOn s p) {} fun s => .ok (setM s d (getM s a ||| getM s b))
def execMnot (p : Pred) (d a : MReg) (s : State) : Host.Outcome State Fault Refusal :=
  compute s (predOn s p) {} fun s => .ok (setM s d (~~~(getM s a)))

/-! ## Branches and jumps (R112, R113, R193) -/

/-- PC ← PC + an offset in halfwords (R67). -/
def jumpBy {w : Nat} (s : State) (off : BitVec w) : State :=
  modMe s fun t => { t with pc := t.pc + off.signExtend 64 * 2 }

def branch (a b : SReg) (off : BitVec 15) (c : W64 → W64 → Bool) (s : State) : Host.Outcome State Fault Refusal :=
  execute s true { srcS := [a, b] } fun s =>
    .ok (if c (readS s a) (readS s b) then jumpBy s off else advance s 4)

def execBeq (a b : SReg) (off : BitVec 15) (s : State) : Host.Outcome State Fault Refusal := branch a b off (· == ·) s
def execBne (a b : SReg) (off : BitVec 15) (s : State) : Host.Outcome State Fault Refusal := branch a b off (· != ·) s
def execBlt (a b : SReg) (off : BitVec 15) (s : State) : Host.Outcome State Fault Refusal :=
  branch a b off (fun x y => x.slt y) s
def execBge (a b : SReg) (off : BitVec 15) (s : State) : Host.Outcome State Fault Refusal :=
  branch a b off (fun x y => !x.slt y) s
def execBltu (a b : SReg) (off : BitVec 15) (s : State) : Host.Outcome State Fault Refusal :=
  branch a b off (fun x y => x.ult y) s
def execBgeu (a b : SReg) (off : BitVec 15) (s : State) : Host.Outcome State Fault Refusal :=
  branch a b off (fun x y => !x.ult y) s
def execJ (off : BitVec 25) (s : State) : Host.Outcome State Fault Refusal :=
  execute s true {} fun s => .ok (jumpBy s off)
def execJal (d : SReg) (off : BitVec 18) (s : State) : Host.Outcome State Fault Refusal :=
  execute s true { dstS := [d] } fun s => .ok (jumpBy (writeS s d ((me s).pc + 4)) off)
/-- JALR: the target from the old a; an odd one raises cause 0x03 (R113). -/
def execJalr (p : Pred) (d : SReg) (a : GReg) (imm : BitVec 13) (s : State) : Host.Outcome State Fault Refusal :=
  let t := getG s a + sext13 imm
  execute s (predOn s p)
    { srcS := [.g a], dstS := [d], mis := if bit t 0 then some (.trap 0x03 t) else none } fun s =>
    .ok (modMe (writeS s d ((me s).pc + 4)) fun x => { x with pc := t })
/-- BEOS (R193). -/
def execBeos (st : StreamId) (off : BitVec 15) (s : State) : Host.Outcome State Fault Refusal :=
  execute s true {} fun s =>
    let x := (coreOf s s.cur).streams[st]
    .ok (if x.mode ≠ .idle && x.endF then jumpBy s off else advance s 4)

end Sys2Proof.Machine
end

