-- ==== Sys2Proof/Machine/LoadStore.lean ====
section
/-!
DEFINITION. Scalar and vector loads and stores, acquire, release, prefetch, presence, stash and norm stores (majors
0x1C to 0x21; R115 to R121, R147, R148, R284, R389, R390).
-/
namespace Sys2Proof.Machine

/-! ## LD and ST (R115) -/

/-- A scalar load from an address. -/
def loadScalar (p : Pred) (d : SReg) (sz : LSize) (bases : List SReg) (ea : W64) (inc : Option (Fin 24 × W64))
    (blocking : Bool) (acq : Option Scope) (s : State) : Host.Outcome State Fault Refusal :=
  let n := lsize sz
  execute s (predOn s p) { srcS := bases, dstS := [d], mis := misOf ea n } fun s =>
    loadPieces s [⟨ea, n, 0⟩] .load (.scalar d (8 * n) (lsigned sz)) inc blocking acq

def execLd (p : Pred) (d : SReg) (a : GReg) (sz : LSize) (m : LMode) (off : BitVec 8) (s : State) :
    Host.Outcome State Fault Refusal :=
  loadScalar p d sz [.g a] (eaOf m (getG s a) off (lsize sz)) (incOf m a (getG s a) off (lsize sz)) false none s
def execLdIndexed (p : Pred) (d : SReg) (a : GReg) (sz : LSize) (b : GReg) (s : State) :
    Host.Outcome State Fault Refusal :=
  loadScalar p d sz [.g a, .g b] (getG s a + getG s b) none false none s

/-- The chunk of a scalar store. -/
def scalarChunk (s : State) (d : SReg) (ea : W64) (n : Nat) : Chunk :=
  ⟨⟨ea, n, 0⟩, readS s d, 0xFF, movedPoisonS s d⟩

/-- A scalar store to an address; `rel` makes it a release (R120). -/
def storeScalar (p : Pred) (d : SReg) (sz : SSize) (bases : List SReg) (ea : W64) (inc : Option (Fin 24 × W64))
    (rel : Option Scope) (s : State) : Host.Outcome State Fault Refusal :=
  let n := ssize sz
  compute s (predOn s p) { srcS := bases, movS := [d], mis := misOf ea n true } fun s => do
    let _ ← checkPieces s .store [⟨ea, n, 0⟩]
    let s ← releasing s rel
    let t ← storeChunks s [scalarChunk s d ea n] rel false
    .ok (applyInc t inc)

def execSt (p : Pred) (d : SReg) (a : GReg) (sz : SSize) (m : LMode) (off : BitVec 8) (s : State) :
    Host.Outcome State Fault Refusal :=
  storeScalar p d sz [.g a] (eaOf m (getG s a) off (ssize sz)) (incOf m a (getG s a) off (ssize sz)) none s
def execStIndexed (p : Pred) (d : SReg) (a : GReg) (sz : SSize) (b : GReg) (s : State) :
    Host.Outcome State Fault Refusal :=
  storeScalar p d sz [.g a, .g b] (getG s a + getG s b) none none s

/-! ## LDA, STL and PREF (R120, R121) -/

/-- The offset of major 0x1E, in units of the access size. -/
def ea5 (a : W64) (off : BitVec 5) (n : Nat) : W64 := a + off.signExtend 64 * BitVec.ofNat 64 n

/-- LDA blocks its strand until the value is there, so that every later access follows it. -/
def execLda (p : Pred) (d : SReg) (a : GReg) (sz : LSize) (sc : Scope) (off : BitVec 5) (s : State) :
    Host.Outcome State Fault Refusal :=
  loadScalar p d sz [.g a] (ea5 (getG s a) off (lsize sz)) none true (some sc) s
def execStl (p : Pred) (d : SReg) (a : GReg) (sz : SSize) (sc : Scope) (off : BitVec 5) (s : State) :
    Host.Outcome State Fault Refusal :=
  storeScalar p d sz [.g a] (ea5 (getG s a) off (ssize sz)) none (some sc) s
/-- PREF warms a translation that it is allowed, and has no other effect (R121). -/
def execPref (p : Pred) (hint : Fin 3) (a : GReg) (off : BitVec 5) (s : State) : Host.Outcome State Fault Refusal :=
  let s := ready s
  let ea := ea5 (getG s a) off 8
  if predOn s p && ea.toNat < 2 ^ 48 then
    match checkAddr s (strandWho s.cur (me s)) (if hint = 1 then .store else .load) true ea with
    | .ok _ t => .next (advance t 4)
    | .violation | .fault _ _ _ | .await => .next (advance s 4)
  else .next (advance s 4)

/-! ## Presence (R283, R284) -/

/-- Cause 0x08 for an address outside the slices. -/
def needSlice (s : State) (ea : W64) (wr : Bool := false) : Except Stop Unit :=
  if isSliceAddr s.cur ea then .ok () else .error (.trap 0x08 ea wr)

/-- The slice words behind 8-byte addresses, checked under R278. -/
def sliceWords (s : State) (use : Use) : List W64 → Except Stop (List Nat)
  | [] => .ok []
  | ea :: t => do
    let (r, _) ← access s use ea
    let l ← sliceWords s use t
    .ok (r.loc :: l)

/-- LDP from an address. -/
def loadPresence (p : Pred) (d : SReg) (bases : List SReg) (ea : W64) (inc : Option (Fin 24 × W64)) (s : State) :
    Host.Outcome State Fault Refusal :=
  execute s (predOn s p) { srcS := bases, dstS := [d], mis := misOf ea 8 } fun s => do
    needSlice s ea
    waitUnless (drained s)
    loadPieces s [⟨ea, 8, 0⟩] .presence (.scalar d 64 false) inc true

def execLdp (p : Pred) (d : SReg) (a : GReg) (m : LMode) (off : BitVec 8) (s : State) :
    Host.Outcome State Fault Refusal :=
  loadPresence p d [.g a] (eaOf m (getG s a) off 8) (incOf m a (getG s a) off 8) s
def execLdpIndexed (p : Pred) (d : SReg) (a b : GReg) (s : State) : Host.Outcome State Fault Refusal :=
  loadPresence p d [.g a, .g b] (getG s a + getG s b) none s

/-- Words written with their presence bits set, as one step of the port (R284). -/
def putPresent (s : State) : List (Nat × W64) → State
  | [] => s
  | (w, v) :: t =>
    let s := setPresent (setTag (putWord s w 0 0xFF v) w none) w
    wakeWord (putPresent s t) w

/-- The port step of STP and VSTP at words of the slice piece that holds ea: cause 0x07 when a bit is set, else words and
bits are written. -/
def storePresent (s : State) (l : List (W64 × W64)) (ea : W64) : Except Stop State := do
  let _ ← access s .store ea
  let ws ← sliceWords s .store (l.map fun e => e.1)
  portTurn s ws
  if ws.any (isPresent s) then .error (.trap 0x07 ea true)
  else .ok (putPresent s (ws.zip (l.map fun e => e.2)))

/-- STP to an address. -/
def storePresence (p : Pred) (d : SReg) (bases : List SReg) (ea : W64) (inc : Option (Fin 24 × W64)) (s : State) :
    Host.Outcome State Fault Refusal :=
  compute s (predOn s p) { srcS := d :: bases, mis := misOf ea 8 true } fun s => do
    needSlice s ea true
    let t ← storePresent s [(ea, readS s d)] ea
    .ok (applyInc t inc)

def execStp (p : Pred) (d : SReg) (a : GReg) (m : LMode) (off : BitVec 8) (s : State) :
    Host.Outcome State Fault Refusal :=
  storePresence p d [.g a] (eaOf m (getG s a) off 8) (incOf m a (getG s a) off 8) s
def execStpIndexed (p : Pred) (d : SReg) (a b : GReg) (s : State) : Host.Outcome State Fault Refusal :=
  storePresence p d [.g a, .g b] (getG s a + getG s b) none s

/-- Bytes from a slice address to the end of the slice, striped window or alias that contains it (R284). -/
def bytesLeft (ea : W64) : Nat :=
  let size := if bit ea 47 && decide (ea.toNat < 0xFFFFFFFFFFFF0000) then 2 ^ 22 else 2 ^ 16
  size - ea.toNat % size

/-- CLRP of k words: it blocks its strand until every bit is clear, each cleared by a step of its own (R284). -/
def clearPresence (p : Pred) (d : SReg) (bases : List SReg) (ea : W64) (inc : Option (Fin 24 × W64)) (s : State) :
    Host.Outcome State Fault Refusal :=
  execute s (predOn s p) { srcS := d :: bases } fun s => do
    let k := (readS s d).toNat
    if k = 0 then .ok (advance s 4)
    else do
      throwIf (misOf ea 8 true)
      needSlice s ea true
      let _ ← access s .store ea
      if 8 * k > bytesLeft ea then .error (.trap 0x08 ea true)
      else do
        let vas := (List.range k).map fun i => ea + BitVec.ofNat 64 (8 * i)
        let ws ← sliceWords s .store vas
        let (q, s) := takeSeq s
        let parts := (vas.zip ws).map fun e => (⟨e.1, e.2, 8, 0, 0, .rc, none, none⟩ : Part)
        sendRequest s (requestOf s q .clear parts .nothing inc true none none false) 4

def execClrp (p : Pred) (d : SReg) (a : GReg) (m : LMode) (off : BitVec 8) (s : State) :
    Host.Outcome State Fault Refusal :=
  clearPresence p d [.g a] (eaOf m (getG s a) off 8) (incOf m a (getG s a) off 8) s
def execClrpIndexed (p : Pred) (d : SReg) (a b : GReg) (s : State) : Host.Outcome State Fault Refusal :=
  clearPresence p d [.g a, .g b] (getG s a + getG s b) none s

/-- The words j = 0 to 3 that the predicate enables. -/
def enabledWords (mask : W32) : List Nat := (List.range 4).filter fun j => bit mask j

/-- VLDP from an address. -/
def loadPresenceV (p : Pred) (d : VReg) (bases : List SReg) (ea : W64) (inc : Option (Fin 24 × W64)) (s : State) :
    Host.Outcome State Fault Refusal :=
  let m := predMask s p
  execute s (!(enabledWords m).isEmpty) { srcS := bases, dstV := [d], mis := misOf ea 32 } fun s => do
    needSlice s ea
    let _ ← access s .load ea
    waitUnless (drained s)
    loadPieces s ((enabledWords m).map fun j => ⟨ea + BitVec.ofNat 64 (8 * j), 8, 8 * j⟩) .presence (.vector d 64 m)
      inc true

def execVldp (p : Pred) (d : VReg) (a : GReg) (m : LMode) (off : BitVec 8) (s : State) :
    Host.Outcome State Fault Refusal :=
  loadPresenceV p d [.g a] (eaOf m (getG s a) off 32) (incOf m a (getG s a) off 32) s
def execVldpIndexed (p : Pred) (d : VReg) (a b : GReg) (s : State) : Host.Outcome State Fault Refusal :=
  loadPresenceV p d [.g a, .g b] (getG s a + getG s b) none s

/-- VSTP to an address. -/
def storePresenceV (p : Pred) (d : VReg) (bases : List SReg) (ea : W64) (inc : Option (Fin 24 × W64)) (s : State) :
    Host.Outcome State Fault Refusal :=
  let m := predMask s p
  compute s (!(enabledWords m).isEmpty) { srcS := bases, srcV := [d], mis := misOf ea 32 true } fun s => do
    needSlice s ea true
    let t ← storePresent s
      ((enabledWords m).map fun j => (ea + BitVec.ofNat 64 (8 * j), lane (readV s d) 64 j)) ea
    .ok (applyInc t inc)

def execVstp (p : Pred) (d : VReg) (a : GReg) (m : LMode) (off : BitVec 8) (s : State) :
    Host.Outcome State Fault Refusal :=
  storePresenceV p d [.g a] (eaOf m (getG s a) off 32) (incOf m a (getG s a) off 32) s
def execVstpIndexed (p : Pred) (d : VReg) (a b : GReg) (s : State) : Host.Outcome State Fault Refusal :=
  storePresenceV p d [.g a, .g b] (getG s a + getG s b) none s

/-! ## VLD and VST (R147) -/

/-- The predicate's bits for the bytes of word j. -/
def wordMask (m : W32) (j : Nat) : BitVec 8 := m.extractLsb' (8 * j) 8

/-- The words that contain an enabled byte. -/
def touchedWords (m : W32) : List Nat := (List.range 4).filter fun j => wordMask m j != 0

/-- Cause 0x08 for an access to the own-slice alias of which a touched word would lie past its end (R280). -/
def pastOwnSlice (ea : W64) (js : List Nat) (wr : Bool := false) : Except Stop Unit :=
  if js.any fun j => decide ((ea + BitVec.ofNat 64 (8 * j)).toNat < ea.toNat) then .error (.trap 0x08 ea wr) else .ok ()

def loadVector (p : Pred) (d : VReg) (bases : List SReg) (ea : W64) (inc : Option (Fin 24 × W64)) (s : State) :
    Host.Outcome State Fault Refusal :=
  let m := predMask s p
  execute s (m != 0) { srcS := bases, dstV := [d], mis := misOf ea 8 } fun s => do
    pastOwnSlice ea (touchedWords m)
    loadPieces s ((touchedWords m).map fun j => ⟨ea + BitVec.ofNat 64 (8 * j), 8, 8 * j⟩) .load (.vector d 8 m) inc false

def execVld (p : Pred) (d : VReg) (a : GReg) (m : LMode) (off : BitVec 8) (s : State) :
    Host.Outcome State Fault Refusal :=
  loadVector p d [.g a] (eaOf m (getG s a) off 32) (incOf m a (getG s a) off 32) s
def execVldIndexed (p : Pred) (d : VReg) (a b : GReg) (s : State) : Host.Outcome State Fault Refusal :=
  loadVector p d [.g a, .g b] (getG s a + getG s b) none s

/-- The chunks of a 32-byte store under a byte mask. -/
def vectorChunks (s : State) (d : VReg) (m : W32) (ea : W64) : List Chunk :=
  (touchedWords m).map fun j =>
    ⟨⟨ea + BitVec.ofNat 64 (8 * j), 8, 8 * j⟩, lane (readV s d) 64 j, wordMask m j, movedPoisonV s d j⟩

def storeVector (p : Pred) (d : VReg) (bases : List SReg) (ea : W64) (inc : Option (Fin 24 × W64)) (s : State) :
    Host.Outcome State Fault Refusal :=
  let m := predMask s p
  compute s (m != 0) { srcS := bases, movV := [d], mis := misOf ea 8 true } fun s => do
    pastOwnSlice ea (touchedWords m) true
    let t ← storeChunks s (vectorChunks s d m ea) none false
    .ok (applyInc t inc)

def execVst (p : Pred) (d : VReg) (a : GReg) (m : LMode) (off : BitVec 8) (s : State) :
    Host.Outcome State Fault Refusal :=
  storeVector p d [.g a] (eaOf m (getG s a) off 32) (incOf m a (getG s a) off 32) s
def execVstIndexed (p : Pred) (d : VReg) (a b : GReg) (s : State) : Host.Outcome State Fault Refusal :=
  storeVector p d [.g a, .g b] (getG s a + getG s b) none s

/-! ## VGATH and VSCAT (R148) -/

def ewBits : EWidth → Nat
  | .b => 8 | .h => 16 | .w => 32 | .d => 64

/-- Bits 0 to n − 1 of a predicate. -/
def lanesOn (m : W32) (n : Nat) : W32 := m &&& BitVec.ofNat 32 (2 ^ n - 1)
def enabledLanes (m : W32) (n : Nat) : List Nat := (List.range n).filter fun i => bit m i

/-- e_i of R148. -/
def gatherAddr (a : W64) (idx : W256) (w i : Nat) : W64 :=
  a + (lane idx w i).signExtend 64 * BitVec.ofNat 64 (w / 8)

/-- The lowest-numbered misaligned address among those of a list. -/
def misAny (n : Nat) (l : List W64) (wr : Bool := false) : Option Stop :=
  (l.find? fun e => e.toNat % n != 0).map fun e => .trap 0x03 e wr

def execVgath (p : Pred) (d : VReg) (a : GReg) (ew : EWidth) (i : VReg) (s : State) :
    Host.Outcome State Fault Refusal :=
  let w := ewBits ew
  let m := lanesOn (predMask s p) (256 / w)
  execute s (m != 0) { srcS := [.g a], srcV := [i], dstV := [d] } fun s => do
    let es := (enabledLanes m (256 / w)).map fun k => (k, gatherAddr (getG s a) (readV s i) w k)
    throwIf (misAny (w / 8) (es.map fun e => e.2))
    loadPieces s (es.map fun e => ⟨e.2, w / 8, w / 8 * e.1⟩) .load (.vector d w m) none false

def execVscat (p : Pred) (d : VReg) (a : GReg) (ew : EWidth) (i : VReg) (s : State) :
    Host.Outcome State Fault Refusal :=
  let w := ewBits ew
  let m := lanesOn (predMask s p) (256 / w)
  compute s (m != 0) { srcS := [.g a], srcV := [i], movV := [d] } fun s => do
    let es := (enabledLanes m (256 / w)).map fun k => (k, gatherAddr (getG s a) (readV s i) w k)
    throwIf (misAny (w / 8) (es.map fun e => e.2) true)
    storeChunks s (es.map fun e =>
      ⟨⟨e.2, w / 8, 0⟩, (lane (readV s d) w e.1).setWidth 64, 0xFF, movedPoisonV s d (e.1 * w / 64)⟩) none true

/-! ## VSTT and STN (R383, R384, R389, R390) -/

/-- VSTT stores the enabled lanes at a and, corner-turned, at b + i × CTPITCH. -/
def execVstt (p : Pred) (d : VReg) (a : GReg) (md : LMode) (b : GReg) (ew : EWidth) (s : State) :
    Host.Outcome State Fault Refusal :=
  let w := ewBits ew
  let m := lanesOn (predMask s p) (256 / w)
  let bytes := w / 8
  let pitch := (me s).ctpitch
  let mis := firstStop (misOf (getG s a) 32 true) (firstStop (misOf (getG s b) bytes true) (misOf pitch bytes true))
  compute s (m != 0) { srcS := [.g a, .g b], movV := [d], mis := mis } fun s => do
    let chunk := fun (k : Nat) (at_ : W64) =>
      (⟨⟨at_, bytes, 0⟩, (lane (readV s d) w k).setWidth 64, 0xFF, movedPoisonV s d (k * w / 64)⟩ : Chunk)
    let ls := enabledLanes m (256 / w)
    let plain := ls.map fun k => chunk k (getG s a + BitVec.ofNat 64 (k * bytes))
    let turned := ls.map fun k => chunk k (getG s b + BitVec.ofNat 64 k * pitch)
    let t ← storeChunks s (plain ++ turned) none true
    match md with
    | .offset => .ok t
    | .postInc => .ok (setG (setG t a (getG s a + 32)) b (getG s b + BitVec.ofNat 64 bytes))

/-- The predicate's bits for the two FP32 lanes of word j. -/
def normLanes (m : W32) (j : Nat) : BitVec 2 := m.extractLsb' (2 * j) 2

/-- STN: the enabled FP32 lanes of each aligned 8-byte word are one write with norm; together they count as one return-free
reduction. -/
def execStn (p : Pred) (d : VReg) (a : GReg) (md : LMode) (off : BitVec 4) (na : Fin 16) (s : State) :
    Host.Outcome State Fault Refusal :=
  let m := lanesOn (predMask s p) 8
  let step := off.signExtend 64 * 32
  let ea := match md with | .offset => getG s a + step | .postInc => getG s a
  compute s (m != 0) { srcS := [.g a], srcV := [d], mis := misOf ea 32 true } fun s => do
    let js := (List.range 4).filter fun j => normLanes m j != 0
    let (l, s) ← checkPieces s .store (js.map fun j => ⟨ea + BitVec.ofNat 64 (8 * j), 8, 0⟩)
    if l.any (fun e => e.2.rp) then .error (.trap 0x08 ea true)
    else do
      let rs := (l.zip js).map fun e => (RedKind.norm na (normLanes m e.2), lane (readV s d) 64 e.2, e.1.2, false)
      let t ← sendReductions s rs none
      .ok (match md with | .offset => t | .postInc => setG t a (getG s a + step))

end Sys2Proof.Machine
end

