-- ==== Sys2Proof/Machine/Sync.lean ====
section
/-!
DEFINITION. Atomics, fences, nest counters, barriers, engine waits and time (majors 0x1A, 0x22 to 0x27; R122 to R131,
R219 to R222, R286, R337, R359 to R362, R447 to R449).
-/
namespace Sys2Proof.Machine

/-! ## Atomics (R122 to R128) -/

/-- The release part of an ORD field, at the instruction's scope (R126). -/
def ordRel (o : Ord) (sc : Scope) : Option Scope :=
  match o with
  | .rel | .acqRel => some sc
  | .none | .acq => Option.none
/-- The acquire part. -/
def ordAcq (o : Ord) (sc : Scope) : Option Scope :=
  match o with
  | .acq | .acqRel => some sc
  | .none | .rel => Option.none

/-- An atomic that returns the old value. It blocks its strand, so later accesses follow it whatever ORD says. -/
def atomic (d : SReg) (srcs : List SReg) (a : GReg) (n : Nat) (signed : Bool) (o : Ord) (sc : Scope)
    (kind : State → ReqKind) (s : State) : Host.Outcome State Fault Refusal :=
  let ea := getG s a
  execute s true { srcS := .g a :: srcs, dstS := [d], mis := misOf ea n true } fun s =>
    atomicReq s (kind s) ea n (.scalar d (8 * n) signed) (ordRel o sc) (ordAcq o sc)

def execAmo (o : Ord) (op : AmoOp) (z : ASize) (sc : Scope) (d : SReg) (a : GReg) (b : SReg) (s : State) :
    Host.Outcome State Fault Refusal :=
  atomic d [b] a (asizeBytes z) true o sc (fun s => .amo op (readS s b)) s
/-- CAS compares with the old d, which it then overwrites (R123). -/
def execCas (o : Ord) (z : ASize) (sc : Scope) (d : GReg) (a : GReg) (b : SReg) (s : State) :
    Host.Outcome State Fault Refusal :=
  atomic (.g d) [.g d, b] a (asizeBytes z) true o sc (fun s => .cas (getG s d) (readS s b)) s
def execCasXchg (o : Ord) (z : ASize) (sc : Scope) (d : GReg) (a : GReg) (b : SReg) (s : State) :
    Host.Outcome State Fault Refusal :=
  atomic (.g d) [b] a (asizeBytes z) true o sc (fun s => .xchg (readS s b)) s
def execFamo (o : Ord) (op : RedOp) (f : AFmt) (sc : Scope) (d : SReg) (a : GReg) (b : SReg) (s : State) :
    Host.Outcome State Fault Refusal :=
  atomic d [b] a (afmtBytes f) false o sc (fun s => .famo op f (readS s b)) s

/-- A return-free reduction: it completes at issue (R125). -/
def reduction (k : RedKind) (rel : Bool) (sc : Scope) (a : GReg) (b : SReg) (s : State) :
    Host.Outcome State Fault Refusal :=
  let ea := getG s a
  compute s true { srcS := [.g a, b], mis := misOf ea (redBytes k) true } fun s => do
    let (r, s) ← access s .red ea
    sendReductions s [(k, readS s b, r, r.rp)] (if rel then some sc else none)

def execRed (rel : Bool) (op : RedOp) (z : ASize) (sc : Scope) (a : GReg) (b : SReg) (s : State) :
    Host.Outcome State Fault Refusal :=
  reduction (.int op z) rel sc a b s
def execFred (rel : Bool) (op : RedOp) (f : AFmt) (sc : Scope) (a : GReg) (b : SReg) (s : State) :
    Host.Outcome State Fault Refusal :=
  reduction (.fp op f) rel sc a b s

/-! ## Fences (R129 to R131) -/

/-- FENCE: the strand's loads are performed in every form; a release part waits for its stores too, RED for every
return-free reduction. -/
def execFence (o : Ord) (sc : Scope) (red uo : Bool) (s : State) : Host.Outcome State Fault Refusal :=
  compute s true {} fun s => do
    waitUnless (drained s)
    match ordRel o sc with
    | some sc => release s sc uo red
    | none => if red then release s .cr false true else .ok ()
    let s := match ordRel o sc with | some sc => markMine s sc uo | none => s
    .ok (match ordAcq o sc with | some sc => markAcquire s s.cur (me s).uid sc | none => s)

/-- IFENCE: from here on the strand's fetches see what its loads see (R131). -/
def execIfence (s : State) : Host.Outcome State Fault Refusal :=
  compute s true {} fun s => do
    waitUnless (drained s)
    .ok (modMe s fun t => { t with ifetch := [] })

/-! ## Objects at a slice port -/

/-- The location of an object at an aligned slice address: cause 0x08 elsewhere (R221, R359). -/
def portObject (s : State) (a : W64) : Except Stop Nat := do
  needSlice s a
  let (r, _) ← access s .load a
  .ok r.loc

/-- The words of an object read at its port, n of them; poison raises cause 0x0D. -/
def portWords (s : State) (a : W64) (loc n : Nat) : Except Stop (List W64) := do
  let ws := (List.range n).map fun j => loc + 8 * j
  portTurn s ws
  match (List.range n).find? fun j => s.poison.contains ((loc + 8 * j) / 8) with
  | some j => .error (.trap 0x0D (a + BitVec.ofNat 64 (8 * j)))
  | none => .ok (ws.map fun w => memWord 64 s.mem w 8)

/-- Words written at a port by a read-modify-write, which keeps their tags (R314). -/
def rmwWords (s : State) (loc : Nat) : List W64 → State
  | [] => s
  | x :: t => rmwWords (wakeWord (putWord s loc 0 0xFF x) loc) (loc + 8) t

/-- Words written at a port. -/
def portWrite (s : State) (loc : Nat) : List W64 → State
  | [] => s
  | x :: t => portWrite (homeWrite s loc 0 0xFF x none) (loc + 8) t

/-! ## Nest counters (R220 to R222) -/

/-- g(d + k). -/
def gPlus (d : GReg) (k : Nat) : GReg := Fin.ofNat 24 (d.val + k)

/-- 1 in place of 0. -/
def atLeast1 (n : Nat) : Nat := if n = 0 then 1 else n

/-- The chunk that ITER claims of a nest whose words are given: start and length; none when nothing is left. -/
def claim (next total w : W64) : Option (Nat × Nat) :=
  if next.toNat < total.toNat then
    let rem := total.toNat - next.toNat
    let c := Nat.max (atLeast1 (bits w 15 0)) (ceilDiv rem (atLeast1 (bits w 19 16) * atLeast1 (bits w 39 24)))
    some (next.toNat, Nat.min c rem)
  else none

/-- The registers that ITER writes for a chunk. -/
def claimRegs (s : State) (d : GReg) (e : W64) (st c : Nat) : State :=
  let e0 := atLeast1 (bits e 31 0)
  let e1 := atLeast1 (bits e 63 32)
  let put := fun s k (x : Nat) => setG s (gPlus d k) (BitVec.ofNat 64 x)
  put (put (put (put (put s 0 st) 1 c) 2 (st % e0)) 3 (st / e0 % e1)) 4 (st / (e0 * e1))

def execIter (p : Pred) (d a : GReg) (off : BitVec 12) (s : State) : Host.Outcome State Fault Refusal :=
  let ea := getG s a
  let ds := (List.range 5).map fun k => SReg.g (gPlus d k)
  execute s (predOn s p) { srcS := [.g a], dstS := ds, mis := misOf ea 32 } fun s => do
    let loc ← portObject s ea
    match ← portWords s ea loc 4 with
    | [next, total, e, w] =>
      match claim next total w with
      | none => .ok (jumpBy s off)
      | some (st, c) => .ok (advance (claimRegs (rmwWords s loc [BitVec.ofNat 64 (st + c)]) d e st c) 4)
    | _ => .ok s

/-- The object that ITERI writes. -/
def nestObject (total e w : W64) (mn : BitVec 12) : List W64 :=
  let e0 := atLeast1 (bits e 31 0)
  let e1 := atLeast1 (bits e 63 32)
  [0, total, BitVec.ofNat 64 (e0 + e1 * 2 ^ 32),
   BitVec.ofNat 64 (atLeast1 mn.toNat + atLeast1 (bits w 3 0) * 2 ^ 16 + atLeast1 (bits w 19 4) * 2 ^ 24)]

def execIteri (p : Pred) (d a : GReg) (mn : BitVec 12) (s : State) : Host.Outcome State Fault Refusal :=
  let ea := getG s a
  let srcs := (List.range 3).map fun k => SReg.g (gPlus d k)
  compute s (predOn s p) { srcS := .g a :: srcs, mis := misOf ea 32 } fun s => do
    let loc ← portObject s ea
    portTurn s ((List.range 4).map fun j => loc + 8 * j)
    .ok (portWrite s loc (nestObject (getG s d) (getG s (gPlus d 1)) (getG s (gPlus d 2)) mn))

/-! ## Barriers (R219) -/

/-- Whether the issuing strand has arrived, or is about to, in the current phase. -/
def hasArrived (s : State) (b : Nat) (l : BarLevel) : Bool :=
  (barOf s b l (clusterIdx s.cur)).arrived.contains (me s).uid || (me s).arriving.any fun e => e.1 == l

/-- The issuing strand arrives in the current phase, once its release is performed, its earlier loads included; the phase is
known at once. -/
def arrive (s : State) (l : BarLevel) (k : W32 → State → State) : Except Stop State :=
  match (me s).bond, (me s).member with
  | some b, true => do
    waitUnless (!hasArrived s b l)
    let ph := (barOf s b l (clusterIdx s.cur)).phase
    let late := releaseWaits s (barScope l) false false
    let (q, s) := takeSeq (markMine s (barScope l) false)
    let s := k ph s
    if late then .ok (modMe s fun t => { t with arriving := t.arriving ++ [(l, q)] })
    else .ok (arriveBarrier s b l (clusterIdx s.cur) (me s).uid)
  | _, _ => .error (.trap 0x08 0)

/-- BAR blocks its strand until the phase completes; the PC moves on then. -/
def execBar (p : Pred) (l : BarLevel) (s : State) : Host.Outcome State Fault Refusal :=
  execute s (predOn s p) {} fun s =>
    arrive s l fun ph s => modMe s fun t => { t with wait := .barrier l ph }
def execArrive (p : Pred) (l : BarLevel) (d : GReg) (s : State) : Host.Outcome State Fault Refusal :=
  execute s (predOn s p) { dstS := [.g d] } fun s =>
    arrive s l fun ph s => advance (setG s d (ph.setWidth 64)) 4

/-! ## Engine contexts (R337) -/

/-- A context that a context word names; `none` stands for the issuing core (SELF). -/
inductive Ctx where
  | copy (c : Option CoreId) (ch : Fin 2)
  | foot (c : Option CoreId)
  | seq (die : Fin 4) (q : Fin 8)
  | exchange (e : Nat)
  | software (tl : Nat)
deriving DecidableEq, Repr

/-- PLACE of a core's context. -/
def ctxPlace (w : W64) : Option (Option CoreId) :=
  let place := w.extractLsb' 16 23
  if bit w 8 then (if place = 0 then some none else none)
  else if bits place 15 8 = 0 ∧ bits place 7 0 ≤ 159 then some (some (coreOfWord place)) else none

/-- The context of a context word; none for a reserved word. -/
def ctxOf (w : W64) : Option Ctx :=
  let idx := bits w 7 4
  if bits w 63 39 ≠ 0 ∨ bits w 15 9 ≠ 0 then none
  else match bits w 3 0 with
    | 0 => if idx > 1 then none else (ctxPlace w).map fun c => .copy c (Fin.ofNat 2 idx)
    | 1 => if idx ≠ 0 then none else (ctxPlace w).map .foot
    | 2 => if idx > 7 ∨ bit w 8 ∨ bits w 38 18 ≠ 0 then none
        else some (.seq (Fin.ofNat 4 (bits w 17 16)) (Fin.ofNat 8 idx))
    | 3 => if bit w 8 ∨ bits w 38 17 ≠ 0 then none else some (.exchange (bits w 16 16 * 16 + idx))
    | 4 => if idx ≠ 0 ∨ bit w 8 ∨ bits w 38 26 ≠ 0 then none else some (.software (bits w 25 16))
    | _ => none

/-- The timeline of a context, as the issuing core or a job sees it; of a software timeline, its counter. -/
def ctxTimeline (s : State) (self : CoreId) (job : Nat) : Ctx → Timeline
  | .copy c ch => (coreOf s (c.getD self)).chans[ch].tl
  | .foot c => (coreOf s (c.getD self)).foot.tl
  | .seq d q => s.dies[d].seqrs[q].tl
  | .exchange e => (chanOf s (exchangeOf ((jobOf s job).part.getD 0) e) 2).tl
  | .software n => { Timeline.zero with counter := mapGet 0 (jobOf s job).timelines n }

/-- Whether the issuing strand may name a context: one of its bond, an exchange engine, or its job's timeline (R360). -/
def ctxMine (s : State) : Ctx → Bool
  | .copy c _ | .foot c => match c with
    | none => true
    | some c => match (me s).bond with
      | some b => inBond s (some b) c
      | none => partitionHolds s (me s).part c
  | .seq d q => match s.dies[d].seqrs[q].bond, (me s).bond with
    | some a, some b => a == b
    | _, _ => false
  | .exchange _ | .software _ => true

/-- The context that a strand names; cause 0x08 otherwise (R360). -/
def ctxCheck (s : State) (w : W64) : Except Stop Ctx :=
  match ctxOf w with
  | some x => if ctxMine s x then .ok x else .error (.trap 0x08 w)
  | none => .error (.trap 0x08 w)

/-- What WAITGE returns of command b (R336, R360). -/
def ctxOutcome (s : State) (x : Ctx) (t : Timeline) (b : W64) : W64 :=
  match x with
  | .software _ => 0
  | _ =>
    if b = 0 then 0
    else if b.toNat + 64 > t.counter.toNat then (mapGet 0 t.outcomes b.toNat : Byte).setWidth 64
    else (Config.staleOutcome s.freeCtr).setWidth 64 + 0x100

def execWaitge (p : Pred) (d a b : GReg) (s : State) : Host.Outcome State Fault Refusal :=
  compute s (predOn s p) { srcS := [.g a, .g b], dstS := [.g d] } fun s => do
    let x ← ctxCheck s (getG s a)
    let t := ctxTimeline s s.cur (me s).job x
    waitUnless (drained s && decide ((getG s b).toNat ≤ t.counter.toNat))
    .ok (setG (markAcquire s s.cur (me s).uid .sy) d (ctxOutcome s x t (getG s b)))

/-- SIGNAL is a release at .PK, whatever the value (R362). -/
def execSignal (p : Pred) (a b : GReg) (s : State) : Host.Outcome State Fault Refusal :=
  compute s (predOn s p) { srcS := [.g a, .g b] } fun s => do
    match ctxOf (getG s a) with
    | some (.software n) =>
      waitUnless (drained s)
      release s .pk false false
      .ok (advanceTimeline (markMine s .pk false) (me s).job n (getG s b))
    | _ => .error (.trap 0x08 (getG s a))

/-! ## Arrival words (R285, R286, R359, R361) -/

/-- The step of R286 on the words of an arrival word. -/
def arrivalWords (w0 w1 : W64) (n : Nat) : List W64 :=
  let target := bits w0 63 32
  let count := (w1.toNat + n) % 2 ^ 64
  if target = 0 then [w0, BitVec.ofNat 64 count]
  else [putBits w0 0 32 (bits w0 31 0 + count / target), BitVec.ofNat 64 (count % target)]

def execArmw (p : Pred) (d a b : GReg) (s : State) : Host.Outcome State Fault Refusal :=
  let ea := getG s a
  compute s (predOn s p) { srcS := [.g a, .g b], dstS := [.g d], mis := misOf ea 16 } fun s => do
    let loc ← portObject s ea
    match ← portWords s ea loc 2 with
    | [w0, w1] =>
      let arm := getG s b
      let l := arrivalWords (putBits w0 32 32 (bits arm 31 0)) (if bit arm 32 then 0 else w1) 0
      .ok (setG (rmwWords s loc l) d (BitVec.ofNat 64 (bits (l.headD 0) 31 0)))
    | _ => .ok s

/-- WAITGEN waits at the port of the arrival word, and is an acquire at the scope the engine's landing released at
(R324, R361). -/
def execWaitgen (p : Pred) (d a b : GReg) (s : State) : Host.Outcome State Fault Refusal :=
  let ea := getG s a
  execute s (predOn s p) { srcS := [.g a, .g b], dstS := [.g d], mis := misOf ea 16 } fun s => do
    let loc ← portObject s ea
    waitUnless (drained s)
    let (q, s) := takeSeq s
    sendRequest s (requestOf s q (.gen ((getG s b).setWidth 32)) [⟨ea, loc, 4, 0, 0, .rc, none, none⟩]
      (.scalar (.g d) 32 false) none true none (some .sy) false) 4

/-! ## Plumb time (R447 to R449) -/

def execTnow (p : Pred) (d : GReg) (s : State) : Host.Outcome State Fault Refusal :=
  compute s (predOn s p) { dstS := [.g d] } fun s => .ok (setG s d (plumbAt s s.cur))
def execTuntil (p : Pred) (d a : GReg) (s : State) : Host.Outcome State Fault Refusal :=
  compute s (predOn s p) { srcS := [.g a], dstS := [.g d] } fun s =>
    if (getG s a).toNat ≤ (plumbAt s s.cur).toNat then .ok (setG s d (plumbAt s s.cur))
    else .error (.block (.tuntil (getG s a)))

end Sys2Proof.Machine
end

