-- ==== Sys2Proof/Machine/GangRun.lean ====
section
/-!
DEFINITION. The gang instructions, MOVK, MOVTK and PPEEK (major 0x32), and the steps of a gang as the environment takes
them (R233, R240 to R266).
-/
namespace Sys2Proof.Machine

/-! ## GANG (R264) -/

/-- The ticket slot that GANG takes: a free one, else the final one taken longest ago (R243). -/
def takeTicket (k : Core) : Option (Fin 4) :=
  match (List.finRange 4).find? fun i => !k.tickets[i].busy with
  | some i => some i
  | none =>
    let age := fun (i : Fin 4) => (k.gangSeq - k.tickets[i].seq).toNat
    ((List.finRange 4).filter fun i => gangFinal k.tickets[i].state).foldl
      (fun o i => match o with | some j => if age i > age j then some i else some j | none => some i) none

/-- The codebook (R249). -/
def bookOf (s : State) (b : GReg) : W256 :=
  BitVec.ofNat 256 (packBits 64 ((List.range 4).map fun i => (getG s (gPlus b i)).toNat))

/-- GANG. SEQ is the counter as it stands before the advance that the same GANG makes (log 48). -/
def execGang (p : Pred) (d a b c : GReg) (s : State) : Host.Outcome State Fault Refusal :=
  let ea := getG s a
  let srcs := (List.range 4).map fun i => SReg.g (gPlus b i)
  compute s (predOn s p) { srcS := .g a :: .g c :: srcs, dstS := [.g d], mis := misOf ea 64 } fun s => do
    needSlice s ea
    let (desc, s) ← loadBlock s ea
    match takeTicket (coreOf s s.cur) with
    | none => .error .wait
    | some i =>
      waitUnless (((coreOf s s.cur).tickets[i]).unsent.isNone)
      let t : Ticket := { Ticket.empty with
        busy := true
        seq := (coreOf s s.cur).gangSeq
        desc := desc
        book := bookOf s b
        tick := getG s c
        state := .claiming
        uid := (me s).uid
        slot := s.slot
        super := (me s).super
        bond := (me s).bond.getD 0 }
      let s := modCore (modTicket s s.cur i fun _ => t) s.cur fun k => { k with gangSeq := k.gangSeq + 1 }
      .ok (setG s d (ticketWord s.cur i t))

/-! ## GWAIT, GSTAT and GTHAW (R265) -/

/-- The ticket that a word names: the core and slot, none when it is stale; cause 0x08 outside the bond (R265). Its reserved
bits are ignored (log 107). -/
def findTicket (s : State) (w : W64) : Except Stop (Option (CoreId × Fin 4)) :=
  let c := coreOfWord w
  let i := Fin.ofNat 4 (bits w 25 24)
  if bits w 15 8 ≠ 0 ∨ ¬ inBond s (me s).bond c then .error (.trap 0x08 w)
  else
    let t := (coreOf s c).tickets[i]
    .ok (if t.busy && t.seq.toNat == bits w 63 32 then some (c, i) else none)

/-- STATE = STALE (R263). -/
def staleStatus : W64 := 7

def execGwait (p : Pred) (d a : GReg) (s : State) : Host.Outcome State Fault Refusal :=
  compute s (predOn s p) { srcS := [.g a], dstS := [.g d] } fun s => do
    match ← findTicket s (getG s a) with
    | none => .ok (setG s d staleStatus)
    | some (c, i) =>
      let t := (coreOf s c).tickets[i]
      waitUnless (gangFinal t.state)
      .ok (setG (modTicket s c i fun t => { t with busy := false }) d (gangStatus t))

def execGstat (p : Pred) (d a : GReg) (s : State) : Host.Outcome State Fault Refusal :=
  compute s (predOn s p) { srcS := [.g a], dstS := [.g d] } fun s => do
    match ← findTicket s (getG s a) with
    | none => .ok (setG s d staleStatus)
    | some (c, i) => .ok (setG s d (gangStatus (coreOf s c).tickets[i]))

def execGthaw (p : Pred) (a : GReg) (s : State) : Host.Outcome State Fault Refusal :=
  compute s (predOn s p) { srcS := [.g a] } fun s => do
    match ← findTicket s (getG s a) with
    | none => .ok s
    | some (c, i) => .ok (modTicket s c i fun t => { t with thawReq := t.thawReq || !gangFinal t.state })

/-! ## MOVK and MOVTK (R266) -/

/-- The k lanes from n on as a vector. -/
def kVector (k : Core) (n : Nat) : W256 := lanesOf 256 32 (fun i => kAt k (n + i)) 8

def execMovk (p : Pred) (d : KReg) (k : BitVec 8) (s : State) : Host.Outcome State Fault Refusal :=
  let n := k.toNat
  match d with
  | .scalar r => compute s (predOn s p) { dstS := [r] } fun s => do
      let x := coreOf s s.cur
      throwIf (poisonStop (kBad x n))
      .ok (writeS s r ((kAt x n).setWidth 64))
  | .double r => compute s (predOn s p) { dstS := [r] } fun s => do
      let x := coreOf s s.cur
      throwIf (poisonStop (kBad x n))
      .ok (writeS s r ((kAt x n).setWidth 64 ||| ((kAt x (n + 1)).setWidth 64 <<< 32)))
  | .vector r =>
    let m := lanesOn (predMask s p) 8
    compute s (m != 0) { dstV := [r] } fun s => do
      let x := coreOf s s.cur
      throwIf (poisonStop ((enabledLanes m 8).any fun i => kBad x (n + i)))
      .ok (writeLanes s r 32 m (kVector x n))

def execMovtk (p : Pred) (k : BitVec 8) (a : KReg) (s : State) : Host.Outcome State Fault Refusal :=
  let n := k.toNat
  match a with
  | .scalar r => compute s (predOn s p) { srcS := [r] } fun s =>
      .ok (modCore s s.cur fun x => kPut x n ((readS s r).setWidth 32))
  | .double r => compute s (predOn s p) { srcS := [r] } fun s =>
      .ok (modCore s s.cur fun x => kPutPair x n (readS s r))
  | .vector r =>
    let m := lanesOn (predMask s p) 8
    compute s (m != 0) { srcV := [r] } fun s =>
      let v := readV s r
      .ok (modCore s s.cur fun x => kPutLanes x ((enabledLanes m 8).map fun i => (n + i, lane v 32 i)))

/-- PPEEK (R233). -/
def execPpeek (p : Pred) (d : GReg) (port : Port) (s : State) : Host.Outcome State Fault Refusal :=
  compute s (predOn s p) { dstS := [.g d] } fun s => do
    let l := myLink s port
    throwIf (linkStop s l)
    .ok (setG s d (BitVec.ofNat 64 ((inqOf (coreOf s s.cur) l).length + 256 * linkFree s s.cur l)))

/-! ## The steps (R253 to R258) -/

/-- GANG_FAULT_THAW (R257); consumed poison starts containment at the issuing strand (R419). -/
def faultThaw (s : State) (c : CoreId) (i : Fin 4) : State :=
  let t := (coreOf s c).tickets[i]
  match t.faulted with
  | none => s
  | some (cause, u, v, n) =>
    if !t.busy || t.state != .frozen then s
    else
      let s := thawGang s c i .fault n cause u v
      if cause = 0x0D then walkWhenRunning s (partOfCore s c) (faultMsg 0x0D .gang c 0 0 0 t.uid) else s

def execGangClaim (c : CoreId) (slot : Fin 4) (cell : Option CoreId) (s : State) : Host.Outcome State Fault Refusal :=
  .next (claimGang s c slot cell)
/-- GANG_TIMED_START (R264, R450). -/
def execGangTimedStart (c : CoreId) (slot : Fin 4) (s : State) : Host.Outcome State Fault Refusal :=
  let t := (coreOf s c).tickets[slot]
  let now := match cellCore t.desc 0 0 with | some k => plumbAt s k | none => 0
  if t.busy && t.state == .frozen && decide (t.tick.toNat ≤ now.toNat) then
    .next (modTicket s c slot fun t => { t with started := true })
  else .next s
def execWsLatchEntry (cell : CoreId) (s : State) : Host.Outcome State Fault Refusal := .next (latchEntry s cell)
def execGangPulse (cell : CoreId) (s : State) : Host.Outcome State Fault Refusal := .next (pulseCell s cell)
def execGangComplete (c : CoreId) (slot : Fin 4) (s : State) : Host.Outcome State Fault Refusal :=
  .next (completeGang s c slot)
def execGangThawRequest (c : CoreId) (slot : Fin 4) (preempt : Bool) (s : State) : Host.Outcome State Fault Refusal :=
  .next (requestThaw s c slot preempt)
def execGangPreemptThaw (c : CoreId) (slot : Fin 4) (s : State) : Host.Outcome State Fault Refusal :=
  .next (preemptThaw s c slot)
def execGangFaultThaw (c : CoreId) (slot : Fin 4) (s : State) : Host.Outcome State Fault Refusal :=
  .next (faultThaw s c slot)

end Sys2Proof.Machine
end

