-- ==== Sys2Proof/Machine/Engine.lean ====
section
/-!
DEFINITION. The accesses of engines: checks, reads and writes at the homes, and how a command stops
(R345, R349, R350, R371).
-/
namespace Sys2Proof.Machine

/-- How an engine's access stops it. -/
inductive EngStop where
  /-- A lease has been asked for (R298). -/
  | await
  /-- The home of a word withholds it (R315). -/
  | park (word : Nat)
  /-- A translation fault (R349). -/
  | fault (wr : Bool) (va : W64) (reason : BitVec 4) (level : BitVec 2) (entry : W64)
  /-- The command fails with a cause (R350). -/
  | fail (cause : Byte)
deriving DecidableEq, Repr

/-- An address of an engine checked; `flash` says that flash pages are within its reach (R350, R472). -/
def engCheck (s : State) (w : Who) (use : Use) (flash : Bool) (va : W64) : Except EngStop (Ref × State) :=
  match checkAddr s w use true va with
  | .ok r s => if nodeOf r.loc == 0xFE && !flash then .error (.fail 0x08) else .ok (r, s)
  | .violation => .error (.fail 0x08)
  | .fault r l x => .error (.fault (use != .load) va r l x)
  | .await => .error .await

/-- n bytes within one aligned 8-byte word, and whether the word is poisoned. -/
def engLoad (s : State) (w : Who) (va : W64) (n : Nat) : Except EngStop ((Nat × Bool) × State) := do
  let (r, s) ← engCheck s w .load false va
  let word := wordOf r.loc
  if !readable s .engine word then .error (.park word)
  else
    let h := homeWord s word r.key
    .ok (((subWord h.1 (r.loc % 8) n).toNat, h.2), s)

/-- Loads of n bytes each. -/
def engLoads (s : State) (w : Who) (n : Nat) : List W64 → Except EngStop (List (Nat × Bool) × State)
  | [] => .ok ([], s)
  | va :: t => do
    let (x, s) ← engLoad s w va n
    let (l, s) ← engLoads s w n t
    .ok (x :: l, s)

/-- A write of n bytes within one aligned 8-byte word: the address, the code and its poison. -/
structure EngWrite where
  va : W64
  n : Nat
  code : Nat
  poison : Bool

/-- A place that takes a write of an engine: part of a poisoned word takes none (R118). -/
def engTarget (s : State) (w : Who) (va : W64) (n : Nat) : Except EngStop (Ref × State) := do
  let (r, s) ← engCheck s w .store false va
  if n < 8 && s.poison.contains (wordOf r.loc / 8) then .error (.fail 0x0D)
  else if epochRevoked s r.loc r.lease then .error (.fail 0x08)
  else if !peerTurn s w.core s.nextSeq r.lease || footHeld s (wordOf r.loc) then .error .await
  else .ok (r, s)

/-- The agent number of a core's tile sequencer commands, its footing queue and its copy channels (R410); an exchange engine's
is log 129. -/
def seqAgentNo : Fin 20 := 19
def footAgentNo : Fin 20 := 18
def copyAgentNo (ch : Fin 3) : Fin 20 := if ch = 1 then 17 else 16

/-- The message of an engine's translation fault (R349, R371): command n of the context `ctx`. -/
def engineMsg (c : CoreId) (slot : Slot) (uid n ctx : Nat) (wr : Bool) (va : W64) (r : BitVec 4) (l : BitVec 2)
    (x : W64) : FaultMsg :=
  { faultMsg 0x10 .engine c slot va 0 uid with
    reason := r, wr := wr, level := l, entry := x, pos := BitVec.ofNat 64 (n % 2 ^ 56 + ctx * 2 ^ 56) }

end Sys2Proof.Machine
end

