-- ==== Sys2Proof/Machine/Copies.lean ====
section
/-!
DEFINITION. CPGO and CPBLK, and the steps of a copy (R343 to R351, R427, R472).
-/
namespace Sys2Proof.Machine

/-! ## Launching (R343 to R346) -/

/-- The strand's CPW0 to CPW7 as a descriptor. -/
def cpwWords (t : Strand) : W512 := t.cpw.toList.foldr (fun w x => (x <<< 64) ||| w.setWidth 512) 0

/-- A copy command of the issuing strand in a channel with fewer than 16: its number and the state. -/
def handCopy (s : State) (ch : Fin 2) (words : W512) (tick : W64) : Except Stop (Nat × State) :=
  let c3 : Fin 3 := ch.castLE (by decide)
  let k := chanOf s s.cur c3
  if k.cmds.length ≥ 16 then .error .wait
  else
    let t := me s
    let n := k.tl.next
    let (q, s) := takeSeq s
    let m : CopyCmd := {
      n := n, words := words, tick := tick, uid := t.uid, core := s.cur, slot := s.slot, super := t.super
      bond := t.bond, part := t.part, job := t.job, seq := q, phase := .sent, first := 0, landed := [], counted := []
      skipped := [], held := [], pins := []
      fetched := []
      outcome := 0, message := none, packet := none }
    .ok (n, modChan s s.cur c3 fun k => { tl := { k.tl with next := n + 1 }, cmds := k.cmds ++ [m] })

def execCpgo (p : Pred) (ch : Fin 2) (d : GReg) (s : State) : Host.Outcome State Fault Refusal :=
  compute s (predOn s p) { dstS := [.g d] } fun s => do
    let (n, s) ← handCopy s ch (cpwWords (me s)) (me s).cptick
    .ok (setG s d (BitVec.ofNat 64 n))

def execCpblk (p : Pred) (ch : Fin 2) (d a b : GReg) (s : State) : Host.Outcome State Fault Refusal :=
  let ea := getG s a
  compute s (predOn s p) { srcS := [.g a, .g b], dstS := [.g d], mis := misOf ea 64 } fun s => do
    let tick := getG s b
    let (words, s) ← loadBlock s ea
    let (n, s) ← handCopy s ch words tick
    .ok (setG s d (BitVec.ofNat 64 n))

/-! ## Whose accesses a copy makes -/

def findCopy (s : State) (c : CoreId) (ch : Fin 3) (n : Nat) : Option CopyCmd :=
  (chanOf s c ch).cmds.find? fun m => m.n == n

def copyWho (m : CopyCmd) : Who := ⟨m.core, m.super, m.job, m.part, dieNum m.core, true⟩

/-- An address of a copy checked; a COPY packet has no own slice. -/
def copyCheck (s : State) (ch : Fin 3) (m : CopyCmd) (use : Use) (va : W64) : Except EngStop (Ref × State) :=
  if ch = 2 ∧ va.toNat ≥ 0xFFFFFFFFFFFF0000 then .error (.fail 0x08) else engCheck s (copyWho m) use true va

/-- An address of a copy with its place: as an element in flight has translated it (R349), else checked now. -/
def copyPlace (s : State) (ch : Fin 3) (m : CopyCmd) (use : Use) (va : W64) : Except EngStop (Ref × State) :=
  match m.pins.find? fun p => p.va == va && p.store == (use == .store) with
  | some p => .ok (⟨va, p.loc, p.key, .rc, false, false, p.lease⟩, s)
  | none => copyCheck s ch m use va

/-- Whether the command's job is on the machine (R424, R427). -/
def copyLive (s : State) (m : CopyCmd) : Bool :=
  let p := partOf s m.part
  p.job == m.job && (p.phase == .running || p.phase == .draining)

/-- The destination address of element e. -/
def cdDest (d : W512) (e : Nat) : W64 := cdDbase d + BitVec.ofNat 64 (cdDstOffset d e)

/-- The core that holds the arrival word. -/
def arrivalCore (d : W512) : CoreId := coreAt (cdAword d / 65536 % 128) (cdAword d / 2 ^ 23)

/-- The failure of a command whose message core, arrival word or slice target lies outside (R341). -/
def copyOutside (s : State) (ch : Fin 3) (m : CopyCmd) : Bool :=
  let d := m.words
  (cdMen d && !inBond s m.bond (coreOfWord (cdMcore d)))
  || (cdAen d && !partitionHolds s m.part (arrivalCore d))
  || (bits d 127 112 == 0xFFFF && (List.range (cdTotal d)).any fun e =>
        (List.range (ceilDiv (cdEsz d) 8)).any fun j =>
          match copyCheck s ch m .store (cdDest d e + BitVec.ofNat 64 (8 * j)) with
          | .error (.fail _) => true
          | _ => false)

/-! ## Acceptance, refusal and start (R345, R346) -/

/-- LATE of a channel's status. -/
def markLate (s : State) (c : CoreId) (ch : Fin 3) : State :=
  modChan s c ch fun k => { k with tl := { k.tl with late := true } }

/-- Plumb time where a channel's engine acts: on the core's die, or, for an exchange engine, on xa or xb (R450, R451). -/
def copyNow (s : State) (c : CoreId) (ch : Fin 3) (m : CopyCmd) : W64 :=
  if ch = 2 then (if c % 32 < 16 then s.plumb[4] else s.plumb[5]) else plumbAt s m.core

/-- Whether an access that happens before the command's launch is not performed yet (R321). -/
def copyWaitsFor (s : State) (m : CopyCmd) : Bool := launchWaits s m.core m.uid m.seq

/-- An accepted command whose tick has come begins, with its first read, if nothing holds that back (R321, R346, R450). -/
def startCopy (s : State) (c : CoreId) (ch : Fin 3) (n : Nat) : State :=
  match findCopy s c ch n with
  | none => s
  | some m =>
    let now := copyNow s c ch m
    if m.phase != .accepted || !copyLive s m || decide (now.toNat < m.tick.toNat) || copyWaitsFor s m then s
    else
      let s := modCopy s c ch n fun x => { x with phase := .running }
      if m.tick.toNat < now.toNat then markLate s c ch else s

/-- A command accepted: it fails, or begins at once, or waits for its tick (R341, R346). -/
def acceptCopy (s : State) (c : CoreId) (ch : Fin 3) (m : CopyCmd) : State :=
  let put := fun s (x : CopyPhase) => modCopy s c ch m.n fun y => { y with phase := x }
  if !cdValid m.words then finishCopy s c ch m.n 0x01
  else if copyOutside s ch m then finishCopy s c ch m.n 0x08
  else if m.tick = 0 then put s .running
  else if m.tick.toNat < (copyNow s c ch m).toNat then markLate (put s .running) c ch
  else startCopy (put s .accepted) c ch m.n

/-- COPY_ACCEPT: the edge engine accepts a command, or refuses it with a hint of 16 to 4,096 cycles. -/
def execCopyAccept (c : CoreId) (ch : Fin 3) (n : Nat) (refuse : Option Nat) (s : State) :
    Host.Outcome State Fault Refusal :=
  .next (match findCopy s c ch n with
  | none => s
  | some m =>
    if m.phase != .sent || !copyLive s m then s
    else match refuse with
      | none => acceptCopy s c ch m
      | some h => if h < 16 ∨ h > 4096 then s
        else modCopy s c ch n fun x => { x with phase := .refused (s.ticks + h) })

/-- COPY_REFUSAL_RETRY. -/
def execCopyRefusalRetry (c : CoreId) (ch : Fin 3) (n : Nat) (s : State) : Host.Outcome State Fault Refusal :=
  .next (match findCopy s c ch n with
  | none => s
  | some m => match m.phase with
    | .refused t => if t ≤ s.ticks then modCopy s c ch n fun x => { x with phase := .sent } else s
    | _ => s)

/-- COPY_TIMED_START (R346): an action that is ready only after its tick begins at once and reports lateness (R450). -/
def execCopyTimedStart (c : CoreId) (ch : Fin 3) (n : Nat) (s : State) : Host.Outcome State Fault Refusal :=
  .next (startCopy s c ch n)

/-! ## One destination word (R345, R347, R350) -/

/-- The address of destination word `word`. -/
def cdWordAddr (d : W512) (word : Nat) : W64 :=
  BitVec.ofNat 64 ((cdDbase d).toNat / 8 * 8) + BitVec.ofNat 64 (8 * word)

/-- The element bytes of a destination word that are not done for good (R349, R427) and that no SKIP has left out (R414). -/
def cdLeft (m : CopyCmd) (word : Nat) : List (Nat × Nat × Nat) :=
  (cdWord m.words word).filter fun x => decide (m.first ≤ x.2.1) && !m.skipped.contains x.2.1

/-- What a landing writes: the word's mask, value and poison. -/
structure Landing where
  mask : BitVec 8
  val : W64
  poison : Bool

/-- A copy's access from its core's die to a location goes through a context of each seam on its way (R442). -/
def copySeams (s : State) (c : CoreId) (ch : Fin 3) (m : CopyCmd) (loc : Nat) : State :=
  if ch = 2 then s else crossSeams s m.core loc (.copy c ch m.n)

/-- The element bytes of a word read from the source, each with its whole source word. -/
def gatherWord (s : State) (c : CoreId) (ch : Fin 3) (m : CopyCmd) :
    List (Nat × Nat × Nat) → Except EngStop (Landing × State)
  | [] => .ok (⟨0, 0, false⟩, s)
  | (i, e, b) :: t => do
    let (r, s) ← copyPlace s ch m .load (cdSource m.words e + BitVec.ofNat 64 b)
    if !readable s .engine (wordOf r.loc) then .error (.park (wordOf r.loc))
    else do
      let h := homeWord s (wordOf r.loc) r.key
      let (x, s) ← gatherWord (copySeams s c ch m r.loc) c ch m t
      .ok (⟨x.mask ||| BitVec.ofNat 8 (2 ^ i), setLane x.val 8 i (byteAt h.1 (r.loc % 8)), x.poison || h.2⟩, s)

/-- The place a word lands in. -/
def landTarget (s : State) (ch : Fin 3) (m : CopyCmd) (word : Nat) (mask : BitVec 8) :
    Except EngStop (Ref × State) := do
  let (r, s) ← copyPlace s ch m .store (cdWordAddr m.words word)
  if mask != 0xFF && s.poison.contains (wordOf r.loc / 8) then .error (.fail 0x0D)
  else if epochRevoked s r.loc r.lease then .error (.fail 0x08)
  else if !peerTurn s m.core s.nextSeq r.lease || footHeld s (wordOf r.loc) then .error .await
  else .ok (r, s)

/-- The words of an element read at one moment, with the places they land in (R342). -/
def gatherUnit (s : State) (c : CoreId) (ch : Fin 3) (m : CopyCmd) :
    List Nat → Except EngStop (List (Nat × Landing × Ref) × State)
  | [] => .ok ([], s)
  | w :: t => do
    let (x, s) ← gatherWord s c ch m (cdLeft m w)
    let (r, s) ← landTarget s ch m w x.mask
    let (l, s) ← gatherUnit s c ch m t
    .ok ((w, x, r) :: l, s)

/-- Bytes that the landing of a word adds to the arrival word: those of its elements, each element once, and those of an
element of several words with the last of them (R347). -/
def landingBytes (m : CopyCmd) (word : Nat) : Nat :=
  if m.counted.contains word then 0
  else if cdEsz m.words ≤ 8 then (cdLeft m word).length
  else if (cdUnit m.words word).all (fun w => w == word || m.landed.contains w) then cdEsz m.words else 0

/-- ARRIVAL_STEP of a landing of n bytes, which the word's port performs (R286, R347): as a write of an engine it removes
the words' tags (R314); poison in the arrival word is a failure. -/
def arrivalStep (s : State) (d : W512) (n : Nat) : Option State :=
  let loc := sliceLoc (arrivalCore d) (cdAword d % 65536)
  if !cdAen d || n == 0 then some s
  else if s.poison.contains (loc / 8) || s.poison.contains (loc / 8 + 1) then none
  else some (portWrite s loc (arrivalWords (memWord 64 s.mem loc 8) (memWord 64 s.mem (loc + 8) 8) n))

/-! ### Elements in flight (R349; log 131) -/

/-- Whether a destination word holds bytes that are still to land. -/
def wordOpen (m : CopyCmd) (word : Nat) : Bool := !m.landed.contains word && !(cdLeft m word).isEmpty

/-- Words of the destination before `word` that are still to land. -/
def openBefore (m : CopyCmd) (word : Nat) : List Nat := (List.range word).filter (wordOpen m)

/-- The addresses that the landing of a word uses: the bytes of its source, and the word (`true`). -/
def wordPlaces (m : CopyCmd) (word : Nat) : List (W64 × Bool) :=
  ((cdLeft m word).map fun x => (cdSource m.words x.2.1 + BitVec.ofNat 64 x.2.2, false)) ++ [(cdWordAddr m.words word, true)]

/-- The translations of some addresses of a copy; none when one of them has none now. -/
def pinAll (s : State) (ch : Fin 3) (m : CopyCmd) : List (W64 × Bool) → Option (List CopyPin)
  | [] => some []
  | (va, st) :: t =>
    match copyPlace s ch m (if st then .store else .load) va, pinAll s ch m t with
    | .ok (r, _), some l => some (⟨va, st, r.loc, r.key, r.lease⟩ :: l)
    | _, _ => none

/-- Whether the word has been read with the rest of its element. -/
def wordHeld (m : CopyCmd) (word : Nat) : Bool := m.held.any fun h => h.word == word

/-- The translations that an open word keeps when a later one lands, so that it meets no fault after that; none for a word
that has none now, or that goes to or comes from a peer, which may still reject it. -/
def wordPins (s : State) (ch : Fin 3) (m : CopyCmd) (word : Nat) : Option (List CopyPin) :=
  if wordHeld m word then (if m.held.all fun h => h.word != word || h.lease.isNone then some [] else none)
  else (pinAll s ch m (wordPlaces m word)).filter fun l => l.all fun p => p.lease.isNone

/-- The translations that the words before one keep. -/
def pinsBefore (s : State) (ch : Fin 3) (m : CopyCmd) (word : Nat) : List CopyPin :=
  (openBefore m word).flatMap fun w => (wordPins s ch m w).getD []

/-- A word has landed. -/
def markLanded (s : State) (ch : Fin 3) (m : CopyCmd) (word : Nat) (y : CopyCmd) : CopyCmd :=
  let new := (pinsBefore s ch m word).filter fun p => !y.pins.contains p
  { y with
    landed := setAdd word y.landed
    held := y.held.filter fun h => h.word != word
    pins := (y.pins ++ new).filter fun p => !(wordPlaces m word).contains (p.va, p.store) }

/-- A word lands: write, presence, and then the arrival step, each byte counted once (R347, R349). -/
def landWord (s : State) (c : CoreId) (ch : Fin 3) (m : CopyCmd) (word home key : Nat) (x : Landing) : State :=
  let mark := markLanded s ch m word
  let s := homeWrite (copySeams s c ch m home) home key x.mask x.val none
  let s := if x.poison then poisonWord s home else s
  let s := if cdPset m.words then wakeWord (setPresent s home) home else s
  let n := landingBytes m word
  let s := modCopy s c ch m.n fun y => { mark y with
    counted := if n = 0 then y.counted else (cdUnit m.words word).foldl (fun l w => setAdd w l) y.counted }
  match arrivalStep s m.words n with
  | some s => s
  | none => finishCopy s c ch m.n 0x0D

/-- A word lands with its element: words that have been read are written; else the element is read, the word written, and
the element's other words held (R305, R342). -/
def landElement (s : State) (c : CoreId) (ch : Fin 3) (m : CopyCmd) (word : Nat) : Except EngStop State :=
  match m.held.find? fun h => h.word == word with
  | some h =>
    if epochRevoked s h.home h.lease then .error (.fail 0x08)
    else if footHeld s h.home then .error .await
    else .ok (landWord s c ch m word h.home h.key ⟨0xFF, h.val, h.poison⟩)
  | none => do
    let (l, s) ← gatherUnit s c ch m (cdUnit m.words word)
    let rest := (l.filter fun y => y.1 != word).map fun y =>
      (⟨y.1, wordOf y.2.2.loc, y.2.2.key, y.2.2.lease, y.2.1.val, y.2.1.poison⟩ : HeldWord)
    let s := modCopy s c ch m.n fun y => { y with held := y.held ++ rest }
    match l.find? fun y => y.1 == word with
    | some (_, x, r) => .ok (landWord s c ch m word (wordOf r.loc) r.key x)
    | none => .ok s

/-! ## The order of landings (R349) -/

/-- The first of some element bytes of a word that meets a fault or is refused, on its source read or on the write of
the word, with its element. -/
def bytesStop (s : State) (c : CoreId) (ch : Fin 3) (m : CopyCmd) (word : Nat) (mask : BitVec 8) :
    List (Nat × Nat × Nat) → Option (EngStop × Nat)
  | [] => none
  | x :: t =>
    match (do
      let (_, s) ← gatherWord s c ch m [x]
      landTarget s ch m word mask) with
    | .error .await | .error (.park _) => none
    | .error e => some (e, x.2.1)
    | .ok (_, s) => bytesStop s c ch m word mask t

/-- Destination words of a copy. -/
def cdWords (d : W512) : Nat := ((cdDbase d).toNat % 8 + cdDstOffset d (cdTotal d - 1) + cdEsz d) / 8 + 1

/-- The position of the first element of a word that is still to land. -/
def openPosition (m : CopyCmd) (word : Nat) : Nat :=
  match cdLeft m word with
  | (_, e, _) :: _ => cdEsz m.words * e
  | [] => 0

/-- The first element of a word that meets a fault or is refused, and how it stops; a word that has been read is refused only
under a revoked lease (R299). -/
def wordStops (s : State) (c : CoreId) (ch : Fin 3) (m : CopyCmd) (word : Nat) : Option (EngStop × Nat) :=
  match m.held.find? fun h => h.word == word with
  | some h => if epochRevoked s h.home h.lease then some (.fail 0x08, openPosition m word / cdEsz m.words) else none
  | none => bytesStop s c ch m word ((cdLeft m word).foldl (fun a x => a ||| BitVec.ofNat 8 (2 ^ x.1)) 0) (cdLeft m word)

/-- How the element or elements that land with a word stop. -/
def unitStops (s : State) (c : CoreId) (ch : Fin 3) (m : CopyCmd) (word : Nat) : Option (EngStop × Nat) :=
  (cdUnit m.words word).findSome? (wordStops s c ch m)

/-- Whether a running command may act on the element at a position, which has bytes in a word: it is at most 4 MiB above
the first element that is not written, and no element before it faults, now or later; what happens before its launch is
performed (R321, R349). -/
def copyTurn (s : State) (c : CoreId) (ch : Fin 3) (m : CopyCmd) (word position : Nat) : Bool :=
  m.phase == .running && copyLive s m && wordOpen m word && !copyWaitsFor s m
  && (openBefore m word).all (fun w => decide (position ≤ openPosition m w + copyWindow)
      && (wordStops s c ch m w).isNone && (wordPins s ch m w).isSome)

/-! ## Flash (R472) -/

/-- The 4 KiB block of an address. -/
def flashBlock (va : W64) : Nat := va.toNat / 4096 * 4096

/-- Whether an address lies in a flash page. -/
def inFlash (s : State) (ch : Fin 3) (m : CopyCmd) (use : Use) (va : W64) : Bool :=
  match copyPlace s ch m use va with
  | .ok (r, _) => nodeOf r.loc == 0xFE
  | .error _ => false

/-- The flash blocks that the element bytes landing with a word come from. -/
def sourceBlocks (s : State) (ch : Fin 3) (m : CopyCmd) (word : Nat) : List Nat :=
  (((cdUnit m.words word).flatMap (cdLeft m)).filterMap fun x =>
    let va := cdSource m.words x.2.1 + BitVec.ofNat 64 x.2.2
    if inFlash s ch m .load va then some (flashBlock va) else none).dedup

/-- The open words of the command that lie in a flash block of its destination. -/
def targetWords (s : State) (ch : Fin 3) (m : CopyCmd) (block : Nat) : List Nat :=
  (List.range (cdWords m.words)).filter fun w => wordOpen m w && flashBlock (cdWordAddr m.words w) == block
    && inFlash s ch m .store (cdWordAddr m.words w)

/-- The open words of the command that a flash block of its source feeds. -/
def fedWords (s : State) (ch : Fin 3) (m : CopyCmd) (block : Nat) : List Nat :=
  (List.range (cdWords m.words)).filter fun w => wordOpen m w && (sourceBlocks s ch m w).contains block

/-- The NVMe command that a word waits for: a Read of a block of its source that has not been read; else, for a word in
flash, the Write of its block, once the sources of all of the block's words have been read. -/
def wordBlock (s : State) (ch : Fin 3) (m : CopyCmd) (word : Nat) : Option (Nat × Bool) :=
  let unread := fun (w : Nat) => (sourceBlocks s ch m w).find? fun b => !m.fetched.contains b
  let va := cdWordAddr m.words word
  match unread word with
  | some b => some (b, false)
  | none =>
    if inFlash s ch m .store va then
      match (targetWords s ch m (flashBlock va)).findSome? unread with
      | some b => some (b, false)
      | none => some (flashBlock va, true)
    else none

/-- Element bytes of the command within a block. -/
def blockBytesOf (m : CopyCmd) (block : Nat) (write : Bool) : Nat :=
  (List.range (cdTotal m.words)).foldl (fun n e =>
    let va := if write then cdDest m.words e else cdSource m.words e
    n + ((List.range (cdEsz m.words)).filter fun b => flashBlock (va + BitVec.ofNat 64 b) == block).length) 0

/-- A word whose flash side is to be moved: the engine issues the NVMe command for its whole block; a copy that splits a
block fails. -/
def flashLanding (s : State) (c : CoreId) (ch : Fin 3) (m : CopyCmd) (e : Nat × Bool) : State :=
  let op : FlashOp := ⟨c, ch, m.n, e.1, e.2⟩
  if blockBytesOf m e.1 e.2 ≠ 4096 then finishCopy s c ch m.n 0x08
  else if s.flash.contains op then s else { s with flash := s.flash ++ [op] }

/-- A word landed if it can be. -/
def landNow (c : CoreId) (ch : Fin 3) (n : Nat) (s : State) (word : Nat) : State :=
  match findCopy s c ch n with
  | none => s
  | some m => match landElement s c ch m word with
    | .ok s => s
    | .error (.park w) => parkMiss s .engine w
    | .error _ => s

/-- A failed block: its destination words are poisoned and count as written (R472). -/
def failWord (c : CoreId) (ch : Fin 3) (n : Nat) (s : State) (word : Nat) : State :=
  match findCopy s c ch n with
  | none => s
  | some m =>
    let mark := markLanded s ch m word
    let s := match copyPlace s ch m .store (cdWordAddr m.words word) with
      | .ok (r, s) => poisonWord s (wordOf r.loc)
      | .error _ => s
    modCopy s c ch n fun y => { mark y with outcome := 0x0D }

/-- NVME_COMPLETION: the transfer of a block is done, or met a media error. -/
def execNvmeCompletion (idx : Nat) (mediaError : Bool) (s : State) : Host.Outcome State Fault Refusal :=
  .next (match s.flash[idx]? with
  | none => s
  | some op =>
    let s : State := { s with flash := s.flash.eraseIdx idx }
    match findCopy s op.core op.ch op.n with
    | none => s
    | some m =>
      if m.phase != .running then s
      else
        let ws := if op.write then targetWords s op.ch m op.block else fedWords s op.ch m op.block
        if (op.write || mediaError) && !ws.all (fun w => copyTurn s op.core op.ch m w (cdPosition m.words w)) then s
        else if mediaError then ws.foldl (failWord op.core op.ch op.n) s
        else if op.write then ws.foldl (landNow op.core op.ch op.n) s
        else modCopy s op.core op.ch op.n fun y => { y with fetched := setAdd op.block y.fetched })

/-! ## The steps of a copy -/

/-- COPY_LANDING (R347). -/
def execCopyLanding (c : CoreId) (ch : Fin 3) (n word : Nat) (s : State) : Host.Outcome State Fault Refusal :=
  .next (match findCopy s c ch n with
  | none => s
  | some m =>
    if wordHeld m word && m.phase == .running && copyLive s m then landNow c ch n s word
    else if !copyTurn s c ch m word (cdPosition m.words word) || (unitStops s c ch m word).isSome then s
    else match wordBlock s ch m word with
      | some e => flashLanding s c ch m e
      | none => landNow c ch n s word)

/-- The bytes that a command has written, and those of the elements that SKIP left out. -/
def copyDone (m : CopyCmd) : Nat :=
  (m.landed.map fun w => (cdLeft m w).length).foldl (· + ·) 0
  + cdEsz m.words * (m.first + (m.skipped.filter fun e => decide (m.first ≤ e)).length)

/-- Whether every element of a running command is written or left out. -/
def copyWhole (m : CopyCmd) : Bool := m.phase == .running && copyDone m == cdEsz m.words * cdTotal m.words

/-- COPY_COMPLETE (R348). -/
def execCopyComplete (c : CoreId) (ch : Fin 3) (n : Nat) (s : State) : Host.Outcome State Fault Refusal :=
  .next (match findCopy s c ch n with
  | none => s
  | some m =>
    if copyWhole m && copyLive s m then finishCopy s c ch n m.outcome else s)

/-- POS[63:56] of a channel's messages (R349). -/
def copyContext (s : State) (ch : Fin 3) : Nat := if ch = 2 then (Config.packetContext s.freeCtr).toNat else ch.val

/-- COPY_FAULT (R349, R350): the first element that faults posts its message; a refused one fails the command. -/
def execCopyFault (c : CoreId) (ch : Fin 3) (n word : Nat) (s : State) : Host.Outcome State Fault Refusal :=
  .next (match findCopy s c ch n with
  | none => s
  | some m =>
    let stop := unitStops s c ch m word
    let position := match stop with | some (_, e) => cdEsz m.words * e | none => 0
    if (!m.held.isEmpty && !wordHeld m word) || !copyTurn s c ch m word position then s
    else match stop with
      | some (.fail o, _) => finishCopy s c ch n o
      | some (.fault wr va r l x, e) =>
        let agent := copyAgentNo ch
        let token := agentToken s m.core agent
        let s := postFault s agent (engineMsg m.core m.slot m.uid n (copyContext s ch) wr va r l x)
        modCopy s c ch n fun y => { y with phase := .faulted token e, pins := [] }
      | _ => s)

end Sys2Proof.Machine
end

