-- ==== Sys2Proof/Machine/System.lean ====
section
/-!
DEFINITION. The CSRs and the system instructions (majors 0x34 and 0x35; R12 to R27, R132 to R135 and the CSR tables of
every chapter), and the CSR writes with an effect of their own (R204, R295, R317, R385, R414, R469).
-/
namespace Sys2Proof.Machine

/-! ## The CSR map -/

/-- How a CSR may be accessed (R14, R133). -/
inductive CsrClass where
  | rw
  | ro
  /-- CSRR, and CSRC with bits of the mask alone. -/
  | clr (mask : W64)
  /-- CSRR, which reads 0, and CSRW. -/
  | wo
  /-- NACTL: CSRR, CSRW and CSRC of bit 8 (R385). -/
  | ctl
  | unassigned
deriving DecidableEq, Repr

def inRange (n lo hi : Nat) : Bool := decide (lo ≤ n) && decide (n ≤ hi)

/-- The CSR numbers of R15, R182, R201, R232, R294, R319, R343, R368, R411, R433, R446 and R469. -/
def csrClass (n : Nat) : CsrClass :=
  if [0x000, 0x001, 0x010, 0x181, 0x200, 0x208, 0x506, 0x508, 0x600, 0x800, 0x801, 0x802, 0xA09, 0xA10, 0xB00,
      0xB80, 0xD80, 0xD81, 0xD82, 0xD84].contains n || inRange n 0x400 0x408 then .rw
  else if [0x008, 0x009, 0x180, 0x182, 0x201, 0x209, 0x210, 0x211, 0x580, 0x581, 0x601, 0x681, 0xD86].contains n
      || inRange n 0x410 0x412 || inRange n 0x500 0x505 || inRange n 0x510 0x52F then .ro
  else if inRange n 0x100 0x103 then .clr 0x40
  else if n = 0x212 then .clr 1
  else if inRange n 0x418 0x41A then .clr 3
  else if n = 0x507 then .clr 0xFD
  else if n = 0x582 then .clr 0xFFFFFFFF
  else if n = 0x380 ∨ n = 0x810 then .clr (BitVec.allOnes 64)
  else if [0x381, 0x680, 0xB01, 0xD85].contains n then .wo
  else if inRange n 0x530 0x53F then .ctl
  else .unassigned

/-- The four accesses. -/
inductive CsrOp where | read | write | set | clear
deriving DecidableEq, Repr

/-- Whether an access may be made at all (R14). -/
def csrAllows (n : Nat) (op : CsrOp) : Bool :=
  match csrClass n, op with
  | .rw, _ => true
  | .ro, .read => true
  | .clr _, .read | .clr _, .clear => true
  | .wo, .read | .wo, .write => true
  | .ctl, .read | .ctl, .write | .ctl, .clear => true
  | _, _ => false

/-! ## Reading -/

/-- The issuing strand's bond. -/
def myBond (s : State) : Option Bond := (me s).bond.bind (mapFind s.bonds)

/-- A per-bond register of the strand's bond. A strand of no bond reads free values in the register's fields, which the mask
names; its reserved bits read 0 (R14). -/
def bondField (s : State) (mask : W64) (f : Bond → W64) : W64 :=
  match myBond s with
  | some b => f b
  | none => Config.noBondCsr s.freeCtr &&& mask

def stateCode : StreamMode → Nat
  | .idle => 0 | .active => 1 | .stopped => 2

/-- SSTATn (R182). -/
def sstatWord (st : Stream) : W64 := BitVec.ofNat 64
  (stateCode st.mode + 4 * st.bound.isSome.toNat + 8 * (st.bound.map portNum).getD 0 + 32 * (sdWrite st.desc).toNat
    + 64 * st.endF.toNat + 128 * (streamFlt st).toNat + 256 * sdEsz st.desc + 2048 * st.owner.val
    + 16384 * st.exh.toNat)

/-- One bit per slot. -/
def slotBits (k : Core) (f : Strand → Bool) : Nat :=
  (List.finRange 8).foldl (fun n i => if f k.slots[i] then n + 2 ^ i.val else n) 0

/-- SLOTMAP (R202). -/
def slotmapWord (k : Core) : W64 := BitVec.ofNat 64
  (slotBits k (·.occ) + 2 ^ 8 * slotBits k (fun t => t.occ && t.wakePend) + 2 ^ 16 * slotBits k (fun t => t.occ && t.member))

/-- PSTAT (R232). -/
def pstatWord (k : Core) : W64 := BitVec.ofNat 64
  ((inqOf k .n).length + 8 * (inqOf k .e).length + 64 * (inqOf k .s).length + 512 * (inqOf k .w).length)

/-- GSLOTS (R232). -/
def gslotsWord (k : Core) : W64 := BitVec.ofNat 64
  ((List.finRange 4).foldl (fun n i =>
    let t := k.tickets[i]
    n + (if t.busy then 2 ^ i.val else 0) + (if t.busy && gangFinal t.state then 2 ^ (4 + i.val) else 0)) 0)

/-- CPST and FQST (R343). -/
def statusWord (t : Timeline) (out : Nat) : W64 := BitVec.ofNat 64
  (t.err.toNat + 2 * t.late.toNat + 256 * t.cause.toNat + 65536 * out)

def copiesOut (c : Channel) : Nat := (c.cmds.filter fun m => m.phase != .finished).length

/-- The strand's sequencer. -/
def mySeqr (s : State) : Option (Fin 4 × Fin 8) := (myBond s).bind fun b => b.seqr

/-- TSEQ (R369). -/
def tseqWord (b : Bond) : W64 :=
  match b.seqr with
  | some (d, q) => BitVec.ofNat 64 (q.val + 8 * d.val + 2 ^ 63)
  | none => 0

/-- TSSTAT (R369). -/
def tsstatWord (s : State) (b : Bond) : W64 :=
  let out := match b.seqr with
    | some (d, q) => s.dies[d].seqrs[q].cmds.length
    | none => 0
  BitVec.ofNat 64 (b.tsErr.toNat + 4 * b.tsFlags.toNat + 256 * b.tsCause.toNat + 65536 * out)

/-- The four dies' accumulators n merged (R385). -/
def normMerged (s : State) (n : Nat) : Int :=
  let p := partOf s (me s).part
  clampInt (qRange 128) ((List.range 4).foldl (fun x d => x + (mapGet 0 p.norms (16 * d + n) : Int)) 0)

/-- BONDCFG and BONDSTAT (R202). -/
def bondcfgWord (b : Bond) : W64 := BitVec.ofNat 64 (b.spc % 16 + 16 * b.dmask.toNat + 65536 * b.size.toNat)
def bondstatWord (b : Bond) : W64 := BitVec.ofNat 64 (b.late.toNat + 2 * b.fanned.toNat)

/-- A rectangle in OWNSET's layout that stays within the package (R213). -/
def rectOk (v : W64) : Bool :=
  decide (bits v 6 0 + bits v 22 16 ≤ 127) && decide (bits v 15 8 + bits v 31 24 ≤ 159)

/-- TREGION (R369): for a strand of no bond a free value that leaves no field reserved. -/
def regionRead (s : State) : W64 :=
  let v := bondField s 0x80000000FF7FFF7F fun b => b.tregion
  if (myBond s).isSome || rectOk v then v else v &&& 0x8000000000000000

/-- The value a read returns. -/
def csrRead (s : State) (n : Nat) : W64 :=
  let t := me s
  let k := coreOf s s.cur
  let cl := clusterOf s (clusterIdx s.cur)
  let job := jobOf s t.job
  match n with
  | 0x000 => t.fcsr
  | 0x001 => t.orient
  | 0x008 => BitVec.ofNat 64 (s.slot.val + 256 * t.super.toNat)
  | 0x009 => BitVec.ofNat 64 (coreY s.cur + 65536 * coreX s.cur + 2 ^ 24 * dieNum s.cur)
  | 0x010 => k.srseed
  | 0x800 => t.tvec
  | 0x801 => t.tepc
  | 0x802 => t.tstat
  | 0x810 => cl.cfu
  | 0x100 => sstatWord k.streams[0]
  | 0x101 => sstatWord k.streams[1]
  | 0x102 => sstatWord k.streams[2]
  | 0x103 => sstatWord k.streams[3]
  | 0x180 => pstatWord k
  | 0x181 => k.ptag
  | 0x182 => gslotsWord k
  | 0x200 => t.sprio
  | 0x201 => slotmapWord k
  | 0x208 => t.contain
  | 0x209 => t.contup
  | 0xA09 => t.contup
  | 0x210 => job.ownset
  | 0xA10 => job.ownset
  | 0x211 => bondField s 0xFFFFFFFF00FF bondcfgWord
  | 0x212 => bondField s 3 bondstatWord
  | 0x380 => k.ordstat
  | 0xB80 => k.smvec
  | 0x408 => t.cptick
  | 0x410 => k.chans[0].tl.counter
  | 0x411 => k.chans[1].tl.counter
  | 0x412 => k.foot.tl.counter
  | 0x418 => statusWord k.chans[0].tl (copiesOut k.chans[0])
  | 0x419 => statusWord k.chans[1].tl (copiesOut k.chans[1])
  | 0x41A => statusWord k.foot.tl k.foot.cmds.length
  | 0x500 => t.logbase
  | 0x501 => t.loglim
  | 0x502 => t.logtop
  | 0x503 => t.stktop
  | 0x504 => BitVec.ofNat 64 (t.recording.toNat + 16 * t.llen.toNat + 256 * t.rbusy.toNat)
  | 0x505 => bondField s 0x800000000000001F tseqWord
  | 0x506 => regionRead s
  | 0x507 => bondField s 0x1FFFFD (tsstatWord s)
  | 0x508 => t.ctpitch
  | 0x580 => (partOf s t.part).swapcnt.setWidth 64
  | 0x581 => BitVec.ofNat 64 t.part
  | 0x582 => k.ecccnt
  | 0x600 => t.dhint
  | 0x601 => BitVec.ofNat 64 (s.dev.sync.toNat + 2 * s.dev.hold.toNat + 65536 * s.dev.perr.toNat)
  | 0x681 => s.dev.node.setWidth 64
  | 0xB00 => job.ptroot
  | 0xD80 => t.tcause
  | 0xD81 => t.tval
  | 0xD82 => cl.fhvec
  | 0xD84 => t.frtok
  | 0xD86 => BitVec.ofNat 64 cl.mailbox.length
  | n =>
    if inRange n 0x400 0x407 then (t.cpw[n - 0x400]?).getD 0
    else if inRange n 0x510 0x51F then BitVec.ofInt 64 (normMerged s (n - 0x510))
    else if inRange n 0x520 0x52F then (t.nalHi[n - 0x520]?).getD 0
    else if inRange n 0x530 0x53F then mapGet 0 (partOf s t.part).nactl (n - 0x530)
    else 0

/-- A read of NALn latches the high half of the merged value (R385). -/
def csrLatch (s : State) (n : Nat) : State :=
  if inRange n 0x510 0x51F then
    let hi := BitVec.ofInt 64 (normMerged s (n - 0x510) / 2 ^ 64)
    modMe s fun t => { t with nalHi := t.nalHi.set (Fin.ofNat 16 (n - 0x510)) hi }
  else s

/-! ## Writing -/

/-- Whether a value leaves no reserved value in any field of a read-write CSR (R14). -/
def csrValid (n : Nat) (v : W64) : Bool :=
  match n with
  | 0x000 => v &&& ~~~(0xFFF7 : W64) == 0 && decide (bits v 2 0 ≤ 4)
  | 0x001 => v &&& ~~~(7 : W64) == 0
  | 0x010 => v != 0
  | 0x800 => bits v 11 1 == 0
  | 0x802 => v &&& ~~~(3 : W64) == 0
  | 0x181 => v &&& ~~~(0x7F : W64) == 0 && (!bit v 6 || (gfmtOf (bits v 5 0)).isSome)
  | 0x200 => v &&& ~~~(1 : W64) == 0
  | 0x208 => v &&& ~~~(0xFF3 : W64) == 0
  | 0xA09 => v &&& ~~~(0x3F3F3F3F : W64) == 0
  | 0xA10 => !bit v 7 && !bit v 23 && bits v 62 37 == 0 && decide (6 ≤ bits v 36 32) && decide (bits v 36 32 ≤ 30)
      && rectOk v
  | 0x506 => !bit v 7 && !bit v 23 && bits v 62 32 == 0 && rectOk v
  | 0x508 => bits v 63 32 == 0
  | 0x600 => bits v 63 3 == 0 && (bit v 0 || bits v 2 1 == 0)
  | 0xB00 => !bit v 10 && bits v 62 48 == 0
  | 0xD80 => bits v 63 8 == 0
  | _ => true

/-- A read-write CSR takes a value. -/
def csrPut (s : State) (n : Nat) (v : W64) : State :=
  let j := (me s).job
  match n with
  | 0x000 => modMe s fun t => { t with fcsr := v }
  | 0x001 => modMe s fun t => { t with orient := v }
  | 0x010 => modCore s s.cur fun k => { k with srseed := v }
  | 0x800 => modMe s fun t => { t with tvec := v }
  | 0x801 => modMe s fun t => { t with tepc := v }
  | 0x802 => modMe s fun t => { t with tstat := v }
  | 0x181 => modCore s s.cur fun k => { k with ptag := v }
  | 0x200 => modMe s fun t => { t with sprio := v }
  | 0x208 => modMe s fun t => { t with contain := putBits (v &&& 0xF3) 8 4 (bits v 7 4) }
  | 0xA09 => modMe s fun t => { t with contup := v }
  | 0xA10 => modJob s j fun x => { x with ownset := v }
  | 0xB80 => modCore s s.cur fun k => { k with smvec := v }
  | 0x408 => modMe s fun t => { t with cptick := v }
  | 0x506 => match (me s).bond with
    | some b => modBond s b fun x => { x with tregion := v }
    | none => s
  | 0x508 => modMe s fun t => { t with ctpitch := v }
  | 0x600 => modMe s fun t => { t with dhint := v }
  | 0xB00 => modJob s j fun x => { x with ptroot := v }
  | 0xD80 => modMe s fun t => { t with tcause := v }
  | 0xD81 => modMe s fun t => { t with tval := v }
  | 0xD82 => modCluster s (clusterIdx s.cur) fun l => { l with fhvec := v }
  | 0xD84 => modMe s fun t => { t with frtok := v }
  | n => if h : n - 0x400 < 8 then modMe s fun t => { t with cpw := t.cpw.set (n - 0x400) v } else s

/-- The bits of a that CSRC clears in a clear-only CSR. -/
def csrClear (s : State) (n : Nat) (a : W64) : State :=
  let tl := fun (t : Timeline) => { t with err := t.err && !bit a 0, late := t.late && !bit a 1 }
  match n with
  | 0x100 => modStream s s.cur 0 fun st => { st with endF := st.endF && !bit a 6 }
  | 0x101 => modStream s s.cur 1 fun st => { st with endF := st.endF && !bit a 6 }
  | 0x102 => modStream s s.cur 2 fun st => { st with endF := st.endF && !bit a 6 }
  | 0x103 => modStream s s.cur 3 fun st => { st with endF := st.endF && !bit a 6 }
  | 0x212 => match (me s).bond with
    | some b => modBond s b fun x => { x with late := x.late && !bit a 0 }
    | none => s
  | 0x380 => modCore s s.cur fun k => { k with ordstat := k.ordstat &&& ~~~a }
  | 0x418 => modChan s s.cur 0 fun c => { c with tl := tl c.tl }
  | 0x419 => modChan s s.cur 1 fun c => { c with tl := tl c.tl }
  | 0x41A => modCore s s.cur fun k => { k with foot := { k.foot with tl := tl k.foot.tl } }
  | 0x507 => match (me s).bond with
    | some b => modBond s b fun x => { x with
        tsErr := x.tsErr && !bit a 0, tsFlags := x.tsFlags &&& ~~~(a.extractLsb' 2 6) }
    | none => s
  | 0x582 => modCore s s.cur fun k => { k with ecccnt := k.ecccnt &&& ~~~a }
  | 0x810 => clearFlags s s.cur a
  | _ => s

/-! ## CSR writes with an effect of their own -/

/-- NACTLn written (R385). -/
def nactlPut (s : State) (n : Nat) (v : W64) : State :=
  modPart s (me s).part fun p => { p with
    nactl := mapSet n (v &&& 0xFF) p.nactl
    norms := (List.range 4).foldl (fun m d => mapErase (16 * d + n) m) p.norms }

/-- HIRQ: a release at .SY, then the MSI-X message (R469). -/
def hirqPut (s : State) (v : W64) : Except Stop State := do
  waitUnless (drained s)
  release s .sy false false
  .ok (sendMsix (markMine s .sy false) (1024 + 8 * (me s).job + bits v 2 0))

/-- What the widening of a pending miss waits for (R317). -/
def widenReady (s : State) (m : Miss) : Bool :=
  match tagOf s m.word with
  | some t => t.id != m.tagId || !outstanding s t.core t.uid t.id m.need false false
  | none => true

/-- A strand whose write of SMREL waits on a token goes on. -/
def passWiden (token : W64) (t : Strand) : Strand :=
  if t.wait = .widen token then { t with wait := .none, pc := t.pc + 4 } else t

/-- A tag takes the needed scope of a miss: the release is reissued at that scope, and the reads that are still outside
send a new message together (R315, R317). -/
def rescopeTag (s : State) (t : Tag) (m : Miss) : State :=
  let s : State := { s with tags := (s.tags.map fun x =>
    if x.word = t.word then { x with scope := m.need } else x).filter fun x => x.scope != .sy }
  let s := markRelease s t.core t.uid t.id m.need false
  let left := m.readers.filter fun r => !inScope m.need t.core r
  if left.isEmpty then s else sendMiss s { t with scope := m.need } left

/-- The widening reaches the home: the tag takes the needed scope, and parked reads try again (R315, R317). -/
def widenTag (s : State) (m : Miss) : State :=
  let s : State := { s with misses := s.misses.filter fun x => x.token != m.token }
  let s := match tagOf s m.word with
    | some t =>
      if t.id = m.tagId then rescopeTag (if m.auto then countMiss s t.core 16 else s) t m else s
    | none => s
  mapStrands (wakeWord s m.word) fun _ t => passWiden m.token t

/-- SMREL: blocks until the widening is done; a token that names no pending miss has no effect (R317). -/
def smrelPut (s : State) (token : W64) : Except Stop State :=
  match s.misses.find? fun m => m.token == token with
  | none => .ok s
  | some m =>
    if widenReady s m && !s.lazy then .ok (widenTag s m)
    else .ok (modMe { s with misses := s.misses.map fun x => if x.token = token then { x with asked := true } else x }
      fun t => { t with wait := .widen token })

/-- Whether a strand's write of SMREL still waits. -/
def widenBlocked (t : Strand) : Bool := match t.wait with | .widen _ => true | _ => false

/-- The TLB entries that a value of TLBINV names (R294). -/
def tlbMatches (asid : Nat) (v : W64) (e : TlbEntry) : Bool :=
  let va := bits v 47 16 * 65536
  e.asid == asid && (bit v 0 || (decide (e.base ≤ va) && decide (va < e.base + e.size)))

/-- Whether an address may have been translated through a matching entry: some page of at most 2 GiB holds both. -/
def mayMatch (v va : W64) : Bool :=
  decide (va.toNat < 2 ^ 48) && (bit v 0 || va.toNat / 2 ^ 31 == bits v 47 16 * 65536 / 2 ^ 31)

/-- Whether a job's translations carry an ASID. -/
def jobAsid (s : State) (j asid : Nat) : Bool := bits (jobOf s j).ptroot 9 0 == asid

/-- An access of an ASID that a matching entry may have translated is not performed yet (R295): of a strand, in a store
queue or on its way, of a footing command, which keeps its translations, or of a copy, which keeps those of the elements in
flight. Every other engine translates an element in the step that performs it. A reduction in a shadow unit is performed
(R320): its merge, whose moments R438 fixes, is not waited for. -/
def translatedLeft (s : State) (asid : Nat) (v : W64) : Bool :=
  let mine := fun (uid : Nat) => match findUid s uid with
    | some (c, i) => jobAsid s (strandAt s c i).job asid
    | none => true
  let copies := fun (x : Channel) => x.cmds.any fun m => jobAsid s m.job asid
    && (!m.held.isEmpty || m.pins.any fun p => mayMatch v p.va)
  (s.cores.any fun e =>
    copies e.2.chans[0] || copies e.2.chans[1]
    || e.2.stores.any (fun w => mayMatch v w.va && mine w.uid)
    || e.2.reds.any (fun r => mayMatch v r.va && mine r.uid)
    || e.2.foot.cmds.any (fun m => jobAsid s m.job asid
        && (m.pages.getD []).any fun p => mayMatch v (BitVec.ofNat 64 (p.1 * 65536)))
    || (coreStrands e.2).any fun t => jobAsid s t.2.job asid
        && t.2.inflight.any fun p => !p.again && p.parts.any fun q => q.got.isNone && mayMatch v q.va)
  || s.exchange.any fun e => copies e.2

/-- The matching entries of every TLB go. -/
def dropTlb (s : State) (asid : Nat) (v : W64) : State :=
  let keep := fun (l : List TlbEntry) => l.filter fun e => !tlbMatches asid v e
  { s with
    cores := s.cores.map fun e => (e.1, { e.2 with itlb := keep e.2.itlb, dtlb := keep e.2.dtlb })
    clusters := s.clusters.map fun e => (e.1, { e.2 with tlb := keep e.2.tlb })
    dies := s.dies.map fun d => { d with tlb := keep d.tlb } }

/-- TLBINV (R295). -/
def tlbinvPut (s : State) (v : W64) : Except Stop State :=
  let asid := bits (jobOf s (me s).job).ptroot 9 0
  if translatedLeft s asid v then .error .wait else .ok (dropTlb s asid v)

/-- FRACT: the reply for the token in FRTOK (R414). -/
def fractPut (s : State) (act : Act) : Except Stop State :=
  let t := me s
  if keystone (clusterIdx s.cur) ≠ s.cur then .error (.trap 0x08 t.frtok)
  else
    let s := match t.serving with
      | some m => if m.token = t.frtok then modMe s fun t => { t with serving := none } else s
      | none => s
    .ok (reply s (some t.part) t.frtok act)

/-- Whether a value may be written to a write-only CSR. -/
def woValid (n : Nat) (v : W64) : Bool :=
  match n with
  | 0x680 => bits v 63 3 == 0
  | 0xB01 => bits v 15 1 == 0 && bits v 63 48 == 0
  | 0xD85 => decide (v.toNat ≤ 2)
  | _ => true

/-- A write to a write-only CSR. -/
def woPut (s : State) (n : Nat) (v : W64) : Except Stop State :=
  match n with
  | 0x381 => smrelPut s v
  | 0x680 => hirqPut s v
  | 0xB01 => tlbinvPut s v
  | 0xD85 => fractPut s (actOf (v.setWidth 2))
  | _ => .ok s

/-- A CSRW, CSRS or CSRC with the value of its source (R14, R132); `w` is the instruction for TVAL. -/
def csrWrite (s : State) (op : CsrOp) (n : Nat) (a w : W64) : Except Stop State :=
  let bad : Except Stop State := .error (.trap 0x01 w)
  match csrClass n, op with
  | .rw, op =>
    let old := csrRead s n
    let v := match op with | .set => old ||| a | .clear => old &&& ~~~a | _ => a
    if csrValid n v then .ok (csrPut s n v) else bad
  | .clr m, _ => if a &&& ~~~m = 0 then .ok (csrClear s n a) else bad
  | .wo, _ => if woValid n a then woPut s n a else bad
  | .ctl, .write => if bits a 63 9 = 0 then .ok (nactlPut s (n - 0x530) a) else bad
  | .ctl, _ =>
    if a &&& ~~~(0x100 : W64) = 0 then
      .ok (modPart s (me s).part fun p => { p with
        nactl := mapSet (n - 0x530) (mapGet 0 p.nactl (n - 0x530) &&& ~~~a) p.nactl })
    else bad
  | _, _ => bad

/-! ## The CSR instructions (R132, R133) -/

/-- The checks of R81 for a CSR instruction. -/
def csrChecked (n : Nat) (op : CsrOp) (i : Instr) (s : State) (k : State → Host.Outcome State Fault Refusal) :
    Host.Outcome State Fault Refusal :=
  if n.testBit 11 && !(me s).super then .next (takeTrap (ready s) 4 0x02 (instrWord i))
  else if csrAllows n op then k s
  else .next (takeTrap (ready s) 4 0x01 (instrWord i))

def execCsrr (d : SReg) (csr : BitVec 12) (s : State) : Host.Outcome State Fault Refusal :=
  let n := csr.toNat
  csrChecked n .read (.csrr d csr) s fun s => compute s true { dstS := [d] } fun s =>
    .ok (writeS (csrLatch s n) d (csrRead s n))

/-- A CSR write ends at once, but for a write of SMREL that still waits (R317) and an END of the strand by its effect. -/
def csrFinish (uid : Nat) (s : State) : State :=
  if widenBlocked (me s) || (me s).uid != uid then s else advance s 4

/-- The three CSR writes. -/
def csrModify (op : CsrOp) (csr : BitVec 12) (a : SReg) (i : Instr) (s : State) : Host.Outcome State Fault Refusal :=
  csrChecked csr.toNat op i s fun s => execute s true { srcS := [a] } fun s =>
    (csrWrite s op csr.toNat (readS s a) (instrWord i)).map (csrFinish (me s).uid)

def execCsrw (csr : BitVec 12) (a : SReg) (s : State) : Host.Outcome State Fault Refusal :=
  csrModify .write csr a (.csrw csr a) s
def execCsrs (csr : BitVec 12) (a : SReg) (s : State) : Host.Outcome State Fault Refusal :=
  csrModify .set csr a (.csrs csr a) s
def execCsrc (csr : BitVec 12) (a : SReg) (s : State) : Host.Outcome State Fault Refusal :=
  csrModify .clear csr a (.csrc csr a) s

/-! ## TRAP, RETT, ECALL and EBREAK (R134, R135) -/

def execTrap (p : Pred) (a : SReg) (n : BitVec 5) (s : State) : Host.Outcome State Fault Refusal :=
  execute s (predOn s p) { srcS := [a] } fun s => .error (.trap (0x20 + n.setWidth 8) (readS s a))
def execRett (p : Pred) (s : State) : Host.Outcome State Fault Refusal :=
  privileged s (.rett p) fun s => execute s (predOn s p) {} fun s =>
    let pc := (me s).tepc
    if bit pc 0 then .error (.trap 0x03 pc) else .ok (returnFromTrap s)
def execEcall (p : Pred) (s : State) : Host.Outcome State Fault Refusal :=
  execute s (predOn s p) {} fun _ => .error (.trap 0x0C 0)
def execEbreak (p : Pred) (s : State) : Host.Outcome State Fault Refusal :=
  execute s (predOn s p) {} fun s => .error (.trap 0x0B (me s).pc)

/-- ILLEGAL_INSTRUCTION (R80): the issuing strand fetched a word that is no instruction. -/
def execIllegalInstruction (w : W64) (s : State) : Host.Outcome State Fault Refusal :=
  .next (takeTrap (ready s) (if bit w 0 then 4 else 2) 0x01 w)

/-! ## The steps that stand for one CSR write of the issuing strand -/

/-- The write of a CSR by the issuing strand, with its value; a user strand makes no write of a supervisor CSR. -/
def csrEvent (n : Nat) (v : W64) (s : State) : Host.Outcome State Fault Refusal :=
  if n.testBit 11 && !(me s).super then .next s
  else execute s true {} fun s =>
    (csrWrite s .write n v (instrWord (.csrw (BitVec.ofNat 12 n) (.g 0)))).map (csrFinish (me s).uid)

def execHirqWrite (v : W64) (s : State) : Host.Outcome State Fault Refusal := csrEvent 0x680 v s
def execNactlWrite (n : Fin 16) (v : W64) (s : State) : Host.Outcome State Fault Refusal := csrEvent (0x530 + n.val) v s
def execNalRead (d : SReg) (n : Fin 16) (s : State) : Host.Outcome State Fault Refusal :=
  compute s true { dstS := [d] } fun s =>
    .ok (writeS (csrLatch s (0x510 + n.val)) d (csrRead s (0x510 + n.val)))
def execTlbinvAll (s : State) : Host.Outcome State Fault Refusal := csrEvent 0xB01 1 s
def execTlbinvVa (va : W64) (s : State) : Host.Outcome State Fault Refusal :=
  csrEvent 0xB01 (va &&& 0x0000FFFFFFFF0000) s
def execContainWrite (v : W64) (s : State) : Host.Outcome State Fault Refusal := csrEvent 0x208 v s
def execSmrelWrite (token : W64) (s : State) : Host.Outcome State Fault Refusal := csrEvent 0x381 token s
def execFractResume (s : State) : Host.Outcome State Fault Refusal := csrEvent 0xD85 0 s
def execFractSkip (s : State) : Host.Outcome State Fault Refusal := csrEvent 0xD85 1 s
def execFractKill (s : State) : Host.Outcome State Fault Refusal := csrEvent 0xD85 2 s

end Sys2Proof.Machine
end

