-- ==== Sys2Proof/Machine/MemSteps.lean ====
section
/-!
DEFINITION. The steps of strands' requests, stores, releases, walks, leases, streams and seams
(R102, R125, R175 to R187, R281, R288, R293, R298, R299, R304, R327, R441, R442).
-/
namespace Sys2Proof.Machine

/-- An action on behalf of the strand of a slot, as the issuing strand; the place of `exec` stays where it was. -/
def asStrand (s : State) (c : CoreId) (i : Slot) (f : State → State) : State :=
  let t := f { s with cur := c, slot := i }
  { t with cur := s.cur, slot := s.slot }

/-! ## Requests (R102, R281, R288) -/

/-- A part of a request performed at its home. -/
def partNow (s : State) (c : CoreId) (slot : Slot) (p : Pending) (part : Nat) : State :=
  let r := performPart s c slot (strandAt s c slot).uid p part
  modStrand r.2 c slot fun t => setPending t r.1

/-- Whether a strand takes a poisoned answer now: not while it waits for a reply already. -/
def takesPoison (t : Strand) : Bool :=
  match t.wait with
  | .none | .notReady | .release _ _ _ | .tuntil _ => true
  | .barrier l _ => t.arriving.any fun e => e.1 == l
  | _ => false

/-- A strand at a BAR whose arrival its loads still hold back is at the BAR again, which it has not issued then (R219). -/
def retractArrival (t : Strand) : Strand :=
  match t.wait with
  | .barrier l _ => { t with arriving := t.arriving.filter fun e => e.1 != l }
  | _ => t

/-- A load that its strand has left fails, with the message given: once the strand is in no wait that withholds delivery, it
waits for the reply. -/
def failLoad (s : State) (p : Pending) (m : FaultMsg) : State :=
  if takesPoison (me s) then postAndWait (modMe s retractArrival) s.cur s.slot p.len (some p.seq) m else s

/-- The views that an answer is written to. -/
def answerViews (s : State) (p : Pending) : List View :=
  match p.dest with
  | .scalar d _ _ => viewS s d
  | .vector d _ _ => viewV s d
  | .nothing | .block => []

/-- A strand that waits for the answer of a request tries its instruction again. -/
def wakeBlock (t : Strand) : Strand := if t.wait = .answer then { t with wait := .none } else t

/-- A request of the issuing strand is taken back. -/
def withdrawReq (s : State) (p : Pending) : State :=
  modMe s fun t => { t with inflight := t.inflight.filter fun x => x.seq != p.seq }

/-- An answered request pops its views and is written to its destination: a blocked strand goes on to the next
instruction (R11, R99, R102). -/
def answerStrand (s : State) (p : Pending) : State :=
  let s := writeAnswer (popAll (withdrawReq s p) p.pops) p
  if p.blocking then modMe s fun t => { t with wait := .none, pc := t.pc + BitVec.ofNat 64 p.len } else s

/-- A request that fails stops its instruction, with none of its pops (R11). -/
def failRequest (s : State) (p : Pending) (x : Stop) : State :=
  stopStep (modMe (withdrawReq s p) fun t => { t with wait := .none }) p.len x

/-- A poisoned answer (R408, R421): the access raises cause 0x0D, at its own instruction. -/
def answerPoison (s : State) (p : Pending) (va : W64) : State :=
  if p.blocking then failRequest s p (.trap 0x0D va (writesWord p.kind))
  else failLoad s p (faultMsg 0x0D .strand s.cur s.slot va p.pc (me s).uid)

/-- A rejected request (R299, R327): a load that its strand waits for raises cause 0x08, one that has left it posts that
cause (log 109), and an atomic is reported with SOURCE 6. -/
def answerRejected (s : State) (p : Pending) : State :=
  if p.blocking then failRequest s p (rejectionStop s p)
  else
    let va := match p.parts with | q :: _ => q.va | [] => 0
    failLoad s p (faultMsg 0x08 .strand s.cur s.slot va p.pc (me s).uid)

/-- What an answered request does to its strand: the state of a destination view is looked at again, since other strands
may have used it (R173). -/
def takeAnswer (s : State) (p : Pending) : State :=
  match poisonedPart p, firstOf s (answerViews s p) (viewStop · true) with
  | some va, _ => answerPoison s p va
  | none, some x => failRequest s p x
  | none, none => if (answerViews s p).all (viewReady s true) then answerStrand s p else s

/-! ## The step of a part (R102, R281, R288, R297) -/

/-- The parts of a load checked and translated anew. -/
def recheckParts (s : State) : List Part → Except Stop (List Part × State)
  | [] => .ok ([], s)
  | q :: t => do
    let (r, s) ← access s .load q.va
    let (l, s) ← recheckParts s t
    .ok ({ q with loc := r.loc, key := r.key, ord := r.ord, lease := r.lease, got := none } :: l, s)

/-- A load that a reply lets run again, from its start with a new walk (R297); another fault posts its own message. -/
def runAgain (s : State) (p : Pending) : State :=
  match recheckParts { s with lazy := false } p.parts with
  | .ok (l, t) =>
    modMe { t with lazy := s.lazy } fun t => setPending t { p with parts := l, again := false }
  | .error (.trap c va _) => failLoad s p (faultMsg c .strand s.cur s.slot va p.pc (me s).uid)
  | .error (.post m) => failLoad s p { m with pc := p.pc }
  | .error _ => s

/-- A request that is performed together with its answer: once its view can take the push, at the moment it does (R173). -/
def partAnswered (s : State) (c : CoreId) (slot : Slot) (p : Pending) (part : Nat) : State :=
  match firstOf s (answerViews s p) (viewStop · true) with
  | some x => failRequest s p x
  | none =>
    if !(answerViews s p).all (viewReady s true) then s
    else
      let s := partNow s c slot p part
      match (me s).inflight.find? fun x => x.seq == p.seq with
      | some x => if x.rejected || !answered x then s else takeAnswer s x
      | none => s

/-- A part of a request performed at its home, if it is on that kind of memory. -/
def stepPart (s : State) (c : CoreId) (slot : Slot) (idx part : Nat) (slice : Bool) : State :=
  let t := strandAt s c slot
  match t.inflight[idx]? with
  | none => s
  | some p => match p.parts[part]? with
    | none => s
    | some q =>
      if !t.occ || isSlice q.loc != slice then s
      else if p.again then asStrand s c slot fun s => runAgain s p
      else if withAnswer p then asStrand s c slot fun s => partAnswered s c slot p part
      else partNow s c slot p part

def execSlicePortRequest (c : CoreId) (slot : Slot) (idx part : Nat) (s : State) : Host.Outcome State Fault Refusal :=
  .next (stepPart s c slot idx part true)
def execStackAccess (c : CoreId) (slot : Slot) (idx part : Nat) (s : State) : Host.Outcome State Fault Refusal :=
  .next (stepPart s c slot idx part false)

/-- LOAD_RESPONSE (R102). -/
def execLoadResponse (c : CoreId) (slot : Slot) (idx : Nat) (s : State) : Host.Outcome State Fault Refusal :=
  .next (
    let t := strandAt s c slot
    match t.inflight[idx]? with
    | none => s
    | some p =>
      if !t.occ || !(answered p || p.rejected) then s
      else asStrand s c slot fun s =>
        if blockLoad p then modMe s wakeBlock
        else if p.rejected then answerRejected s p
        else takeAnswer s p)

/-! ## Stores and releases (R302, R304, R327) -/

/-- Whether an entry of a core's store queue may be performed or rejected now. -/
def storeTurn (s : State) (c : CoreId) (idx : Nat) (e : StoreEntry) : Bool :=
  storeReady ((coreOf s c).stores.take idx) (coreOf s c).stores e && storeFree s c e

/-- STORE_PERFORM (R304). -/
def execStorePerform (c : CoreId) (idx : Nat) (s : State) : Host.Outcome State Fault Refusal :=
  .next (match (coreOf s c).stores[idx]? with
  | none => s
  | some e => if storeTurn s c idx e && !storeRejected s e then performStore s c e else s)

/-- FAULT_ACKNOWLEDGEMENT (R327). -/
def execFaultAcknowledgement (c : CoreId) (idx : Nat) (s : State) : Host.Outcome State Fault Refusal :=
  .next (match (coreOf s c).stores[idx]? with
  | none => s
  | some e => if storeTurn s c idx e && storeRejected s e then rejectStore s c e else s)

/-- Arrivals at barriers whose release is performed (R219). -/
def settleArrivals (s : State) (c : CoreId) (slot : Slot) : State :=
  (strandAt s c slot).arriving.foldl (fun s e =>
    let t := strandAt s c slot
    match t.bond with
    | none => s
    | some b =>
      if outstanding s c t.uid e.2 (barScope e.1) false false then s
      else
        let s := modStrand s c slot fun t => { t with arriving := t.arriving.filter fun x => x != e }
        arriveBarrier s b e.1 (clusterIdx c) t.uid) s

/-- RELEASE_COMPLETE (R102, R130): what the strand waits for has been performed; on a halted core the instruction then
completes where it stands (R425). -/
def execReleaseComplete (c : CoreId) (slot : Slot) (s : State) : Host.Outcome State Fault Refusal :=
  .next (
    if !(strandAt s c slot).occ || (coreOf s c).frozen.isSome then s
    else
      let s := settleArrivals s c slot
      let t := strandAt s c slot
      match t.wait with
      | .release sc uo red =>
        if (coreOf s c).halted || outstanding s c t.uid s.nextSeq sc uo red then s
        else modStrand s c slot fun t => { t with wait := .none }
      | _ => s)

/-! ## Deadlines (R211, R449) -/

/-- A scalar register of a strand written outside an instruction. -/
def putG (t : Strand) (i : Fin 24) (x : W64) : Strand :=
  { t with g := t.g.set i x, gPoison := putBits t.gPoison i.val 1 0 }

/-- A sleeping strand goes on with d ← x. -/
def awake (x : W64) (t : Strand) : Strand :=
  match t.wait with
  | .sleep d _ => { putG t d x with wait := .none, pc := t.pc + 4 }
  | _ => t

/-- SLEEP_DEADLINE. -/
def execSleepDeadline (c : CoreId) (slot : Slot) (s : State) : Host.Outcome State Fault Refusal :=
  .next (
    let t := strandAt s c slot
    match t.wait with
    | .sleep _ a =>
      if t.occ && a != 0 && decide (a.toNat ≤ (plumbAt s c).toNat) && !(coreOf s c).halted then
        modStrand s c slot (awake 1)
      else s
    | _ => s)

/-- TUNTIL_DEADLINE: the strand is ready again. -/
def execTuntilDeadline (c : CoreId) (slot : Slot) (s : State) : Host.Outcome State Fault Refusal :=
  .next (
    let t := strandAt s c slot
    match t.wait with
    | .tuntil a =>
      if t.occ && decide (a.toNat ≤ (plumbAt s c).toNat) then modStrand s c slot fun t => { t with wait := .none } else s
    | _ => s)

/-! ## Walks and leases (R293, R298, R299) -/

/-- What a walk does for a strand that waits: the TLBs are filled, a message is posted, or a lease is awaited. -/
def walkFor (s : State) (c : CoreId) (slot : Slot) (va : W64) (fetch wr : Bool) : State :=
  let t := strandAt s c slot
  let asid := bits (jobOf s t.job).ptroot 9 0
  let go := fun (s : State) => modStrand s c slot fun t => { t with wait := .none }
  let post := fun (r : BitVec 4) (l : BitVec 2) (x : W64) =>
    let m := { faultMsg 0x10 (if fetch then .fetch else .strand) c slot va t.pc t.uid with
      reason := r, level := l, entry := x, wr := wr }
    postAndWait s c slot (if fetch then 0 else 4) none m
  match walkJob s t.job va.toNat with
  | .held => s
  | .stop r l x => post r l x
  | .leaf x size level => match fillOf s asid t.part va.toNat x size with
    | .entry e => go (tlbFill s c fetch false e)
    | .refused => post 3 (BitVec.ofNat 2 level) x
    | .await => s

/-- PAGE_WALK (R293). -/
def execPageWalk (c : CoreId) (slot : Slot) (s : State) : Host.Outcome State Fault Refusal :=
  .next (
    let t := strandAt s c slot
    match t.wait with
    | .walk va fetch wr => if t.occ then walkFor s c slot va fetch wr else s
    | _ => s)

/-- Whether a lease covers some byte of a range of a node's window. -/
def leaseCovers (l : Lease) (node first size : Nat) : Bool :=
  l.node == node && overlaps (l.page * 4096) (Nat.max l.size 4096) first size

/-- LEASE_GRANT (R298): a grant, or the refusal that makes the waiting accesses fault. There is none while a lease on the
page is being recalled (R299), and none under an epoch that the peer has revoked. -/
def execLeaseGrant (node page : Nat) (granted : Bool) (size : Nat) (rd wr : Bool) (epoch : W32) (s : State) :
    Host.Outcome State Fault Refusal :=
  let l : Lease := ⟨node, page, size, rd, wr, epoch, !granted, false⟩
  let old := fun (x : Lease) => leaseCovers x node (page * 4096) (Nat.max size 4096)
  .next (if node = 0 ∨ node ≥ 0xFE ∨ s.leases.any (fun x => old x && x.recalled) ∨ s.revoked.contains (node, epoch)
    then s
    else { s with leases := (s.leases.filter fun x => !old x) ++ [l] })

/-- Whether an access under a lease is on its way: of a strand, a copy or a reduction in a shadow unit (R299). -/
def leaseBusy (s : State) (l : Lease) : Bool :=
  let mine := fun (loc : Nat) (m : LeaseMark) =>
    nodeOf loc == l.node && leaseCovers l l.node (loc % 2 ^ 40) 1
      && (match m with | some x => x.2 == l.epoch | none => false)
  let copies := fun (x : Channel) => x.cmds.any fun m =>
    m.held.any (fun w => mine w.home w.lease) || m.pins.any fun w => mine w.loc w.lease
  (s.cores.any fun e =>
    e.2.stores.any (fun w => mine w.word w.lease) || e.2.reds.any (fun r => mine r.loc r.lease)
    || e.2.chans.toList.any copies
    || (coreStrands e.2).any fun t => t.2.inflight.any fun p =>
      !p.again && p.parts.any fun q => q.got.isNone && mine q.loc q.lease)
  || s.exchange.any (fun e => copies e.2)
  || s.dies.toList.any fun d => d.shadows.any fun u => u.contribs.any fun x => mine u.loc x.lease

/-- The translations of a lease leave every TLB (R299). -/
def dropLeased (s : State) (node page : Nat) : State :=
  let keep := fun (t : List TlbEntry) => t.filter fun e => match e.lease with
    | some l => !(l.node == node && l.page == page)
    | none => true
  { s with
    cores := s.cores.map fun e => (e.1, { e.2 with itlb := keep e.2.itlb, dtlb := keep e.2.dtlb })
    clusters := s.clusters.map fun e => (e.1, { e.2 with tlb := keep e.2.tlb })
    dies := s.dies.map fun d => { d with tlb := keep d.tlb } }

/-- LEASE_RECALL (R299): no new access uses the lease, and its entries go at once; the recall is acknowledged, and the lease
ends, once every access under it is acknowledged. -/
def execLeaseRecall (node page : Nat) (s : State) : Host.Outcome State Fault Refusal :=
  .next (match s.leases.find? fun l => l.node == node && l.page == page with
  | none => s
  | some l =>
    let s := dropLeased s node page
    if leaseBusy s l then
      { s with leases := s.leases.map fun x => if x = l then { x with recalled := true } else x }
    else { s with leases := s.leases.filter fun x => x != l })

/-! ## Streams and seams (R175, R177, R185, R441, R442) -/

def execStreamReadFetch (c : CoreId) (n : StreamId) (s : State) : Host.Outcome State Fault Refusal :=
  .next (streamFetch s c n)
def execStreamWritePerform (c : CoreId) (n : StreamId) (s : State) : Host.Outcome State Fault Refusal :=
  .next (streamPerform s c n)
def execBoundStreamPush (c : CoreId) (n : StreamId) (s : State) : Host.Outcome State Fault Refusal :=
  .next (boundPush s c n)
def execBoundStreamPop (c : CoreId) (n : StreamId) (s : State) : Host.Outcome State Fault Refusal :=
  .next (boundPop s c n)
def execSeamBufferForward (c : CoreId) (link : Port) (s : State) : Host.Outcome State Fault Refusal :=
  .next (seamForward s c link)

/-- SEAM_CONTEXT_TIMEOUT: a context closes after 4,096 idle cycles (R442). -/
def execSeamContextTimeout (c : CoreId) (link : Port) (idx : Nat) (s : State) : Host.Outcome State Fault Refusal :=
  .next (match ((coreOf s c).ctxs[portFin link])[idx]? with
  | none => s
  | some x =>
    if x.last + 4096 ≤ s.ticks then
      modCore s c fun k => { k with ctxs := k.ctxs.set (portFin link) (k.ctxs[portFin link].eraseIdx idx) }
    else s)

/-! ## Widening (R315, R317) -/

/-- TAG_WIDEN: the widening that was asked for reaches the home. -/
def execTagWiden (token : Nat) (s : State) : Host.Outcome State Fault Refusal :=
  .next (match s.misses.find? fun m => m.token.toNat == token with
  | none => s
  | some m => if m.asked && widenReady s m then widenTag s m else s)

end Sys2Proof.Machine
end

