-- ==== Sys2Proof/Machine/Thread.lean ====
section
/-!
DEFINITION. SPAWN, END, YIELD, SLEEP, WAKE, SEND, SENDA, FAN and PRIO (major 0x31; R206 to R218).
-/
namespace Sys2Proof.Machine

/-! ## Targets and the outbound buffer -/

/-- The core that a target word names (R207). -/
def targetOf (s : State) (w : W64) : Except Stop CoreId :=
  let c := if bit w 31 then s.cur else coreOfWord w
  if bits w 15 8 ≠ 0 ∨ bits w 30 23 ≠ 0 ∨ bits w 63 32 ≠ 0 ∨ (¬ bit w 31 ∧ bits w 7 0 > 159)
      ∨ ¬ inBond s (me s).bond c then .error (.trap 0x08 w)
  else .ok c

def isFanStart (m : OutMsg) : Bool := match m.body with | .fanKeystone _ _ => true | _ => false

/-- Whether one of the eight places of the outbound buffer is free; FAN's start message takes none (R209). -/
def outRoom (k : Core) : Bool := decide ((k.outbound.filter fun m => !isFanStart m).length < 8)

/-- A request or message of the issuing strand put into the outbound buffer; it leaves after a release at the narrowest
scope that contains both cores (R215). -/
def sendOut (s : State) (sc : Scope) (b : Body) : State :=
  modCore (markMine s sc false) s.cur fun k => { k with outbound := k.outbound ++ [⟨(me s).uid, s.nextSeq, sc, b⟩] }

/-- An inbound queue entry of the issuing strand's bond. -/
def inMsg (s : State) (start : Start) (size : Nat) : InMsg :=
  let t := me s
  ⟨start, t.bond, t.job, t.part, size, false, false⟩

/-- Cause 0x03 for an odd address (R209, R212). -/
def oddStop (a : W64) : Option Stop := if bit a 0 then some (.trap 0x03 a) else none

/-! ## SPAWN (R208, R209) -/

/-- The registers that a range word names, from the first; none when the word is illegal. -/
def rangeOf (w : W64) : Option (List Nat) :=
  let first := bits w 4 0
  let last := bits w 9 5
  let empty := bit w 10
  if bits w 63 11 ≠ 0 ∨ first > 23 ∨ last > 23 ∨ (first > last ∧ ¬ empty) then none
  else some (if empty then [] else (List.range (last + 1 - first)).map (first + ·))

def gAt (i : Nat) : Fin 24 := Fin.ofNat 24 i

def execSpawn (p : Pred) (d a b : GReg) (s : State) : Host.Outcome State Fault Refusal :=
  compute s (predOn s p) { srcS := [.g d, .g a, .g b], mis := oddStop (getG s a) } fun s => do
    let c ← targetOf s (getG s b)
    match rangeOf (getG s d) with
    | none => .error (.trap 0x01 (getG s d))
    | some rs =>
      waitUnless (!(rs.any fun i => pendingG (me s) (gAt i)))
      throwIf (poisonStop (rs.any fun i => gPoisoned s (gAt i)))
      waitUnless (outRoom (coreOf s s.cur))
      let t := me s
      let uid := s.nextUid
      let s : State := { s with nextUid := uid + 1 }
      let start := Start.spawn (getG s a) (rs.headD 0) (rs.map fun i => getG s (gAt i)) (t.fcsr &&& 0xFC07) t.orient
        t.tvec t.dhint t.super uid
      let s := sendOut s (scopeBetween s.cur c) (.start c (inMsg s start (Nat.max 1 (ceilDiv (8 * rs.length) 64))))
      .ok (match t.bond with | some n => joinBarriers s n c uid | none => s)

/-! ## END, YIELD and PRIO (R210) -/

def execEndStrand (p : Pred) (s : State) : Host.Outcome State Fault Refusal :=
  execute s (predOn s p) {} fun s => do
    waitUnless (drained s)
    .ok (if (me s).kind = .service then dropService s s.cur s.slot else leaveSlot s s.cur s.slot)
def execYield (p : Pred) (s : State) : Host.Outcome State Fault Refusal :=
  compute s (predOn s p) {} fun s => .ok (modMe s fun t => { t with yieldPend := true })
def execPrio (p : Pred) (d a : GReg) (s : State) : Host.Outcome State Fault Refusal :=
  compute s (predOn s p) { srcS := [.g a], dstS := [.g d] } fun s =>
    let new := getG s a
    .ok (modMe (setG s d (boolW (bit (me s).sprio 0))) fun t => { t with sprio := boolW (bit new 0) })

/-! ## SLEEP and WAKE (R211) -/

def execSleep (p : Pred) (d a : GReg) (s : State) : Host.Outcome State Fault Refusal :=
  compute s (predOn s p) { srcS := [.g a], dstS := [.g d] } fun s => do
    waitUnless (drained s)
    if (me s).wakePend then .ok (modMe (setG s d 0) fun t => { t with wakePend := false })
    else if getG s a ≠ 0 && decide ((getG s a).toNat ≤ (plumbAt s s.cur).toNat) then .ok (setG s d 1)
    else .error (.block (.sleep d (getG s a)))

/-- WAKE is no release: it waits for nothing. -/
def execWake (p : Pred) (a b : GReg) (s : State) : Host.Outcome State Fault Refusal :=
  compute s (predOn s p) { srcS := [.g a, .g b] } fun s => do
    let c ← targetOf s (getG s a)
    waitUnless (outRoom (coreOf s s.cur))
    .ok (modCore s s.cur fun k =>
      { k with outbound := k.outbound ++ [⟨(me s).uid, 0, .cr, .wake c (Fin.ofNat 8 (bits (getG s b) 2 0))⟩] })

/-! ## SEND and SENDA (R212 to R214) -/

/-- A message of g(d) to g(d+7) to a core. -/
def postMessage (s : State) (c : CoreId) (d b : GReg) (tag : BitVec 4) : Except Stop State := do
  waitUnless (outRoom (coreOf s s.cur))
  let regs : Vector W64 8 := Vector.ofFn fun i => getG s (gAt (d.val + i.val))
  let start := Start.message (getG s b) regs (xyWord s.cur) (tag.setWidth 64)
  .ok (sendOut s (scopeBetween s.cur c) (.start c (inMsg s start 1)))

/-- The registers that SEND and SENDA read. -/
def sendSources (d a b : GReg) : List SReg :=
  .g a :: .g b :: (List.range 8).map fun i => .g (gAt (d.val + i))

def execSend (p : Pred) (d a b : GReg) (tag : BitVec 4) (s : State) : Host.Outcome State Fault Refusal :=
  compute s (predOn s p) { srcS := sendSources d a b, mis := oddStop (getG s b) } fun s => do
    let c ← targetOf s (getG s a)
    postMessage s c d b tag

/-- The owner core of an address under an owner set (R214). -/
def ownerOf (ownset a : W64) : CoreId :=
  let w := bits ownset 22 16 + 1
  let h := bits ownset 31 24 + 1
  let x : W64 := (a >>> bits ownset 36 32) * 0x9E3779B97F4A7C15
  let i := bits x 63 32 * (w * h) / 2 ^ 32
  coreAt (bits ownset 6 0 + i % w) (bits ownset 15 8 + i / w)

def execSenda (p : Pred) (d a b : GReg) (tag : BitVec 4) (s : State) : Host.Outcome State Fault Refusal :=
  compute s (predOn s p) { srcS := sendSources d a b, mis := oddStop (getG s b) } fun s => do
    let o := (jobOf s (me s).job).ownset
    let c := ownerOf o (getG s a)
    if !bit o 63 || !inBond s (me s).bond c then .error (.trap 0x08 (getG s a))
    else postMessage s c d b tag

/-! ## FAN (R216, R217) -/

/-- The start message of one core with its strands' numbers; they are barrier members from here on (R218). -/
def fanEntryOf (b : Nat) (spc : Nat) (pc arg size tick : W64) (x : State × List (CoreId × InMsg)) (e : CoreId × Nat) :
    State × List (CoreId × InMsg) :=
  let s := x.1
  let uids := (List.range spc).map (s.nextUid + ·)
  let start := Start.fan pc arg (BitVec.ofNat 64 (e.2 * spc)) size tick 0 uids
  (uids.foldl (fun s u => joinBarriers s b e.1 u) { s with nextUid := s.nextUid + spc },
    x.2 ++ [(e.1, inMsg s start 1)])

/-- FAN's start message for the cores of one cluster, on its way to the keystone core that passes it on (R217, R276). -/
def fanCluster (l : List (CoreId × InMsg)) (s : State) (cl : Nat) : State :=
  match l.filter fun e => clusterIdx e.1 == cl with
  | [] => s
  | mine => sendOut s .pk (.fanKeystone (keystone cl) mine)

/-- A strand of bond b that is blocked at BAR stays in the phase that is current, whose number is 0 from FAN on (R218,
R219). -/
def rebaseBarrier (b : Nat) (t : Strand) : Strand :=
  match t.wait with
  | .barrier l _ => if t.bond = some b then { t with wait := .barrier l 0 } else t
  | _ => t

/-- FAN of a start stub of bond b: the phase numbers are 0 (R218), and the stub ends. -/
def fanOut (s : State) (b : Nat) (x : Bond) (dmask : BitVec 4) (pc arg tick : W64) : State :=
  let cs := bondCores x dmask
  let size := x.spc * cs.length
  let s := modBond s b fun y => { y with
    fanned := true, size := BitVec.ofNat 32 size, fanPc := pc, fanArg := arg, fanMask := dmask
    bar := { y.bar with phase := 0 }, courses := y.courses.map fun e => (e.1, { e.2 with phase := 0 }) }
  let r := (cs.zip (List.range cs.length)).foldl (fanEntryOf b x.spc pc arg (BitVec.ofNat 64 size) tick)
    (mapStrands s fun _ t => rebaseBarrier b t, [])
  let s := (bondClusters x).foldl (fanCluster r.2) r.1
  leaveSlot s s.cur s.slot

def execFan (p : Pred) (d a b : GReg) (dmask : BitVec 4) (s : State) : Host.Outcome State Fault Refusal :=
  execute s (predOn s p) { srcS := [.g d, .g a, .g b] } fun s =>
    match (me s).kind, (me s).bond with
    | .stub, some n => match mapFind s.bonds n with
      | none => .error (.trap 0x08 0)
      | some x => do
        if x.fanned then .error (.trap 0x08 0)
        else if dmask &&& ~~~x.dmask ≠ 0 then .error (.trap 0x01 (instrWord (.fan p d a b dmask)))
        else do
          throwIf (oddStop (getG s a))
          .ok (fanOut s n x dmask (getG s a) (getG s b) (getG s d))
    | _, _ => .error (.trap 0x08 0)

end Sys2Proof.Machine
end

