-- ==== Sys2Proof/Machine/Arrive.lean ====
section
/-!
DEFINITION. Messages on their way: the outbound buffer, arrivals at inbound queues, and the strands they start
(R200, R209 to R217, R260, R315, R316, R348).
-/
namespace Sys2Proof.Machine

/-! ## OUTBOUND_SEND (R209, R215) -/

/-- The cores a body goes to, with the slot of a wake, for the order of R211 and R215. -/
def bodyPlaces : Body → List (CoreId × Option Slot)
  | .start d _ | .fanStart d _ => [(d, none)]
  | .fanKeystone _ l => l.map fun e => (e.1, none)
  | .wake d i => [(d, some i)]
  | .completion _ _ | .gangWake _ _ | .fault _ _ | .scopeMiss _ _ => []

/-- Whether two bodies have a place in common. -/
def samePlace (a b : Body) : Bool := (bodyPlaces a).any fun x => (bodyPlaces b).contains x

/-- Whether an earlier request of the same strand to the same place is still to leave. -/
def overtakes (before : List OutMsg) (m : OutMsg) : Bool := before.any fun x => x.uid == m.uid && samePlace x.body m.body

/-- A packet put into the network. -/
def launchPacket (s : State) (c : CoreId) (m : OutMsg) : State :=
  { s with net := s.net ++ [⟨c, m.uid, m.body, 0, false, false, none⟩] }

/-- Finished copy commands of a core whose messages have not left: channel and number. -/
def unsentCopies (k : Core) : List (Fin 2 × CopyCmd) :=
  [(0 : Fin 2), 1].flatMap fun ch => (k.chans[ch].cmds.filter fun m => m.message.isSome).map fun m => (ch, m)

/-- Tickets of a core whose wake messages have not left. -/
def unsentTickets (k : Core) : List (Fin 4) := (List.finRange 4).filter fun i => k.tickets[i].unsent.isSome

/-- A completion message leaves, and its command its place. -/
def sendCompletion (s : State) (c : CoreId) (e : Fin 2 × CopyCmd) : State :=
  match e.2.message with
  | none => s
  | some m => modChan (launchPacket s c m) c (e.1.castLE (by decide)) fun k =>
      { k with cmds := k.cmds.filter fun x => x.n != e.2.n }

/-- A wake message leaves. -/
def sendGangWake (s : State) (c : CoreId) (i : Fin 4) : State :=
  match ((coreOf s c).tickets[i]).unsent with
  | none => s
  | some m => modTicket (launchPacket s c m) c i fun t => { t with unsent := none }

/-- OUTBOUND_SEND: `idx` counts the outbound buffer, then the completion messages, then the wake messages. -/
def sendNext (s : State) (c : CoreId) (idx : Nat) : State :=
  let k := coreOf s c
  let n := k.outbound.length
  let done := unsentCopies k
  match k.outbound[idx]? with
  | some m =>
    if overtakes (k.outbound.take idx) m || outstanding s c m.uid m.seq m.scope false false then s
    else launchPacket (modCore s c fun k => { k with outbound := k.outbound.eraseIdx idx }) c m
  | none => match done[idx - n]? with
    | some e => sendCompletion s c e
    | none => match (unsentTickets k)[idx - n - done.length]? with
      | some i => sendGangWake s c i
      | none => s

def execOutboundSend (c : CoreId) (idx : Nat) (s : State) : Host.Outcome State Fault Refusal :=
  .next (if (coreOf s c).halted then s else sendNext s c idx)

/-! ## Arrivals (R200) -/

/-- Places taken in an inbound queue. -/
def inboundUsed (k : Core) : Nat := (k.inbound.map fun m => m.size).foldl (· + ·) 0

def dropPacket (s : State) (idx : Nat) : State := { s with net := s.net.eraseIdx idx }

/-- Whether an earlier packet of the same strand to the same place is still on its way. -/
def packetWaits (s : State) (idx : Nat) (p : Packet) : Bool :=
  p.uid != 0 && (s.net.take idx).any fun x => x.uid == p.uid && x.src == p.src && samePlace x.body p.body

/-- An entry joins a core's inbound queue, or is refused while the queue is full. -/
def accept (s : State) (idx : Nat) (p : Packet) (dst : CoreId) (m : InMsg) : State :=
  if p.refused || packetWaits s idx p || (coreOf s dst).halted then s
  else if inboundUsed (coreOf s dst) + m.size > 16 then
    { s with net := s.net.set idx { p with refused := true } }
  else
    let s := modCore (dropPacket s idx) dst fun k =>
      { k with inbound := k.inbound ++ [{ m with poison := m.poison || p.poison }] }
    match p.queue with
    | some (q, n) => markDone s q n
    | none => s

/-- The entry of a packet of one class. -/
def spawnEntry : Body → Option (CoreId × InMsg)
  | .start d m => match m.start with | .spawn _ _ _ _ _ _ _ _ _ => some (d, m) | _ => none
  | _ => none
def messageEntry : Body → Option (CoreId × InMsg)
  | .start d m => match m.start with | .message _ _ _ _ => some (d, m) | _ => none
  | _ => none
def fanEntry : Body → Option (CoreId × InMsg)
  | .fanStart d m => some (d, m)
  | _ => none
def completionEntry : Body → Option (CoreId × InMsg)
  | .completion d m => some (d, m)
  | _ => none
def gangWakeEntry : Body → Option (CoreId × InMsg)
  | .gangWake d m => some (d, m)
  | _ => none

/-- The arrival of packet idx, if it is of a class. -/
def arrival (f : Body → Option (CoreId × InMsg)) (idx : Nat) (s : State) : State :=
  match s.net[idx]? with
  | none => s
  | some p => match f p.body with
    | some (d, m) => accept s idx p d m
    | none => s

def execSpawnRequest (idx : Nat) (s : State) : Host.Outcome State Fault Refusal := .next (arrival spawnEntry idx s)
def execMessage (idx : Nat) (s : State) : Host.Outcome State Fault Refusal := .next (arrival messageEntry idx s)

/-- The start message for a cluster is passed on by its keystone core to each of its cores (R217, R276). -/
def passFan (s : State) (idx : Nat) (p : Packet) (l : List (CoreId × InMsg)) : State :=
  let s := dropPacket s idx
  { s with net := s.net ++ l.map fun e =>
    { p with body := .fanStart e.1 { e.2 with poison := e.2.poison || p.poison }, replays := 0, poison := false } }

/-- FAN_START_MESSAGE: at a keystone core it goes on to the cluster's cores, at a core it joins the inbound queue. -/
def execFanStartMessage (idx : Nat) (s : State) : Host.Outcome State Fault Refusal :=
  .next (match s.net[idx]? with
  | none => s
  | some p => match p.body with
    | .fanKeystone d l => if (coreOf s d).halted then s else passFan s idx p l
    | _ => arrival fanEntry idx s)

def execCompletionMessage (idx : Nat) (s : State) : Host.Outcome State Fault Refusal :=
  .next (arrival completionEntry idx s)
def execGangWakeMessage (idx : Nat) (s : State) : Host.Outcome State Fault Refusal := .next (arrival gangWakeEntry idx s)

/-- NETWORK_RETRY: a refused packet is sent again (R200). -/
def execNetworkRetry (idx : Nat) (s : State) : Host.Outcome State Fault Refusal :=
  .next (match s.net[idx]? with
  | none => s
  | some p => { s with net := s.net.set idx { p with refused := false } })

/-- WAKE_DELIVERY (R211). -/
def execWakeDelivery (idx : Nat) (s : State) : Host.Outcome State Fault Refusal :=
  .next (match s.net[idx]? with
  | none => s
  | some p => match p.body with
    | .wake d i =>
      if packetWaits s idx p || (coreOf s d).halted then s
      else
        let t := strandAt s d i
        let s := dropPacket s idx
        if !t.occ then s
        else match t.wait with
          | .sleep _ _ => modStrand s d i (awake 0)
          | _ => modStrand s d i fun t => { t with wakePend := true }
    | _ => s)

/-! ## Scope misses (R315, R316) -/

/-- The handler's message of a pending miss; g8 of a miss whose first reader is no core is log 127. -/
def missMessage (s : State) (c : CoreId) (m : Miss) (t : Tag) : InMsg :=
  let cl := clusterOf s (clusterIdx c)
  let job := match cl.bond.bind (mapFind s.bonds) with | some b => b.job | none => 0
  let w1 := BitVec.ofNat 64 (scopeNum t.scope + 16 * scopeNum m.need + 256 * t.slot.val)
  let coreIn := fun (r : Reader) => match r with | .core c => some c | .engine | .outside => none
  let first : W64 := match m.readers.findSome? coreIn with | some r => xyWord r | none => 0
  ⟨.message ((coreOf s c).smvec &&& ~~~(1 : W64)) (payload [m.token, w1]) first 0, cl.bond, job, cl.part.getD 0, 1,
    true, false⟩

/-- The pending miss and its tag that a scope-miss packet names. -/
def missOf (s : State) (token : W64) : Option (Miss × Tag) :=
  match s.misses.find? fun m => m.token == token with
  | none => none
  | some m => (tagOf s m.word).map fun t => (m, t)

/-- SCOPE_MISS_MESSAGE: it starts the handler that SMVEC names. -/
def execScopeMissMessage (idx : Nat) (s : State) : Host.Outcome State Fault Refusal :=
  .next (match s.net[idx]? with
  | none => s
  | some p => match p.body with
    | .scopeMiss d token =>
      if !bit (coreOf s d).smvec 0 then s
      else match missOf s token with
        | some (m, t) => accept s idx p d (missMessage s d m t)
        | none => dropPacket s idx
    | _ => s)

/-- SCOPE_MISS_AUTO_WIDEN: with SMVEC.EN = 0 the message joins the inbound queue all the same, and the core performs the
widening itself when it is at the head. -/
def execScopeMissAutoWiden (idx : Nat) (s : State) : Host.Outcome State Fault Refusal :=
  .next (match s.net[idx]? with
  | none => s
  | some p => match p.body with
    | .scopeMiss d token =>
      if bit (coreOf s d).smvec 0 then s
      else match missOf s token with
        | some (m, t) => accept s idx p d { missMessage s d m t with start := .widen token }
        | none => dropPacket s idx
    | _ => s)

/-- The core asks for the widening of a miss itself. -/
def askWiden (s : State) (token : W64) : State :=
  { s with misses := s.misses.map fun m => if m.token = token then { m with asked := true, auto := true } else m }

/-! ## Activation of slots (R24, R200, R209, R212, R217) -/

/-- BONDSTAT.LATE (R202). -/
def markBondLate (s : State) (b : Option Nat) : State :=
  match b with
  | some n => modBond s n fun y => { y with late := true }
  | none => s

/-- The head of an inbound queue replaced. -/
def setHead (s : State) (c : CoreId) (l : List InMsg) : State := modCore s c fun k => { k with inbound := l }

/-- The head of a core's inbound queue activates a slot: one strand, or the next strand of a FAN start message; a widening
takes no slot (R316). -/
def activate (s : State) (c : CoreId) (i : Slot) (m : InMsg) (rest : List InMsg) (late : Bool) : State :=
  match m.start with
  | .widen token => askWiden (setHead s c rest) token
  | .message pc regs g8 g9 =>
    let uid := s.nextUid
    let s := setHead { s with nextUid := uid + 1 } c rest
    let s := if m.scopeMiss then countMiss s c 0 else s
    putStrand s c i (startMessage s m uid pc regs g8 g9)
  | .spawn pc first regs fcsr orient tvec dhint sup uid =>
    putStrand (setHead s c rest) c i (startSpawned s m uid pc first regs fcsr orient tvec dhint sup)
  | .fan pc arg first size tick n uids =>
    match uids[n]? with
    | none => setHead s c rest
    | some uid =>
      let m' := { m with start := .fan pc arg first size tick (n + 1) uids }
      let s := setHead s c (if n + 1 < uids.length then m' :: rest else rest)
      let s := if late then markBondLate s m.bond else s
      let t := startFanned s m.bond m.job m.part uid c pc arg (first + BitVec.ofNat 64 n) size
      putStrand s c i { t with gPoison := if m.poison then 0xB else 0 }

/-- Whether a core takes strands from its inbound queue now. -/
def mayActivate (k : Core) : Bool := k.frozen.isNone && !k.halted

/-- SLOT_ACTIVATION: a timed FAN start whose tick has passed is late. -/
def execSlotActivation (c : CoreId) (s : State) : Host.Outcome State Fault Refusal :=
  let k := coreOf s c
  let slot := fun (m : InMsg) => match m.start with
    | .widen _ => some (0 : Slot)
    | .message _ _ _ _ | .spawn _ _ _ _ _ _ _ _ _ | .fan _ _ _ _ _ _ _ => freeSlot k
  .next (match k.inbound, k.inbound.head?.bind slot with
  | m :: rest, some i =>
    if !mayActivate k then s
    else match m.start with
      | .fan _ _ _ _ tick _ _ =>
        let now := plumbAt s c
        if tick = 0 then activate s c i m rest false
        else if tick.toNat < now.toNat then activate s c i m rest true
        else s
      | _ => activate s c i m rest false
  | _, _ => s)

/-- The strands of a timed FAN start that find a slot on its tick. -/
def fanOnTick (c : CoreId) : Nat → State → State
  | 0, s => s
  | n + 1, s =>
    let k := coreOf s c
    match k.inbound, freeSlot k with
    | m :: rest, some i =>
      match m.start with
      | .fan _ _ _ _ tick _ _ =>
        if mayActivate k && tick != 0 && tick == plumbAt s c then fanOnTick c n (activate s c i m rest false) else s
      | _ => s
    | _, _ => s

/-- FAN_TIMED_START (R217, R450). -/
def execFanTimedStart (c : CoreId) (s : State) : Host.Outcome State Fault Refusal := .next (fanOnTick c 8 s)

end Sys2Proof.Machine
end

