-- ==== Sys2Proof/Machine/Faults.lean ====
section
/-!
DEFINITION. The keystone mailbox and the service strand (R409 to R413), soft errors and poison (R420, R421).
-/
namespace Sys2Proof.Machine

/-! ## The mailbox (R296, R409) -/

def sourceCode : FaultSource → Nat
  | .strand => 0 | .fetch => 1 | .readStream => 2 | .writeStream => 3 | .gang => 4 | .engine => 5 | .rejection => 6

/-- The eight payload words of R296. -/
def faultWords (m : FaultMsg) : Vector W64 8 :=
  let w0 := m.kind.toNat + 2 ^ 8 * m.reason.toNat + 2 ^ 12 * sourceCode m.source + 2 ^ 15 * m.wr.toNat
    + 2 ^ 16 * m.level.toNat + 2 ^ 18 * m.slot.val + 2 ^ 21 * m.strm.val
  payload [BitVec.ofNat 64 w0, m.va, xyWord m.core, m.pc, m.pos, m.entry, m.token, 0]

/-- A service strand whose own work faults is killed with the default reply, and its agent ends as a KILL ends it: the
fault is never posted (R413). -/
def dropServiceFault (s : State) (e : CoreId × Slot) (m : FaultMsg) : State :=
  let s := match agentOf s m.token with
    | some a => killAgent s a
    | none => s
  dropService { s with asked := s.asked.filter fun x => x.token != m.token } e.1 e.2

/-- The live service strand that a fault message names. -/
def serviceFault (s : State) (m : FaultMsg) : Option (CoreId × Slot) :=
  (findUid s m.uid).filter fun e => (strandAt s e.1 e.2).kind == .service

/-- FAULT_MESSAGE_ARRIVAL: messages join in order of arrival; a full mailbox of 64 refuses. The message of a live service
strand's agent never enters (R413). -/
def execFaultMessageArrival (idx : Nat) (s : State) : Host.Outcome State Fault Refusal :=
  .next (match s.net[idx]? with
  | none => s
  | some p => match p.body with
    | .fault cl m =>
      let l := clusterOf s cl
      if p.refused then s
      else match serviceFault s m with
      | some e => dropServiceFault (dropPacket s idx) e m
      | none =>
      if l.mailbox.length ≥ 64 then { s with net := s.net.set idx { p with refused := true } }
      else
        modCluster (dropPacket s idx) cl fun l => { l with
          since := if l.mailbox.isEmpty then s.ticks else l.since
          mailbox := l.mailbox ++ [{ m with poison := m.poison || p.poison }] }
    | _ => s)

/-- The head of a mailbox leaves. -/
def popMailbox (s : State) (cl : Nat) : State :=
  modCluster s cl fun l => { l with mailbox := l.mailbox.tail, since := s.ticks }

/-- The default reply KILL is applied to the head of a mailbox (R413). -/
def defaultReply (s : State) (cl : Nat) (m : FaultMsg) : State := reply (popMailbox s cl) none m.token .kill

/-- The service strand that takes a message (R413): the message column of R24 with its own privilege, PC and payload. -/
def serviceStrand (s : State) (cl : Nat) (m : FaultMsg) (uid : Nat) : Strand :=
  let part := (clusterOf s cl).part.getD 0
  let job := (partOf s part).job
  { startBase s none job part uid ((clusterOf s cl).fhvec &&& ~~~(0xFF : W64)) with
    kind := .service
    super := true
    g := regsFrom ((faultWords m).toList ++ [xyWord m.core, 0])
    gPoison := if m.poison then 0x1FF else 0
    tvec := (jobOf s job).cfgTvec
    serving := some m }

/-- SERVICE_STRAND_START: the head starts a service strand in the keystone core's lowest free slot; with FHVEC.EN = 0
the default reply is applied. -/
def execServiceStrandStart (cl : Nat) (s : State) : Host.Outcome State Fault Refusal :=
  let l := clusterOf s cl
  let c := keystone cl
  .next (match l.mailbox with
  | [] => s
  | m :: _ =>
    if (coreOf s c).halted then s
    else if !bit l.fhvec 0 then defaultReply s cl m
    else match freeSlot (coreOf s c) with
      | none => s
      | some i => putStrand { popMailbox s cl with nextUid := s.nextUid + 1 } c i (serviceStrand s cl m s.nextUid))

/-- FAULT_SLOT_TIMEOUT: the head has waited TMO × 1,024 cycles without a free slot. -/
def execFaultSlotTimeout (cl : Nat) (s : State) : Host.Outcome State Fault Refusal :=
  let l := clusterOf s cl
  let c := keystone cl
  let tmo := bits l.fhvec 7 1
  .next (match l.mailbox with
  | [] => s
  | m :: _ =>
    if (coreOf s c).halted then s
    else if !bit l.fhvec 0 then defaultReply s cl m
    else if tmo ≠ 0 ∧ s.ticks ≥ l.since + tmo * 1024 ∧ freeSlot (coreOf s c) = none then defaultReply s cl m
    else s)

/-! ## Soft errors (R412, R420) -/

/-- A 16-bit count one higher, saturating. -/
def satInc (w : W64) (lo : Nat) : W64 := putBits w lo 16 (Nat.min 65535 (bits w (lo + 15) lo + 1))

def countCorrected (s : State) (c : CoreId) : State := modCore s c fun k => { k with ecccnt := satInc k.ecccnt 0 }
def countPoisoned (s : State) (c : CoreId) : State := modCore s c fun k => { k with ecccnt := satInc k.ecccnt 16 }

/-- ECC_CORRECTED. -/
def execEccCorrected (c : CoreId) (s : State) : Host.Outcome State Fault Refusal := .next (countCorrected s c)

/-- An entry of a list changed. -/
def modifyAt {α : Type} (l : List α) (i : Nat) (f : α → α) : List α :=
  match l[i]? with
  | some x => l.set i (f x)
  | none => l

/-- The poison of one entry of a port queue. -/
def poisonEntry (l : List PortEntry) (i : Nat) : List PortEntry := modifyAt l i fun e => { e with poison := true }

/-- A g register of an occupied slot poisoned. -/
def poisonG (t : Strand) (r : Fin 24) : Strand := if t.occ then { t with gPoison := putBits t.gPoison r.val 1 1 } else t
def poisonV (t : Strand) (r : Fin 8) (word : Fin 4) : Strand :=
  if t.occ then { t with vPoison := putBits t.vPoison (4 * r.val + word.val) 1 1 } else t

/-- A message with its data poisoned. -/
def poisonBody : Body → Body
  | .start d m => .start d { m with poison := true }
  | .fanKeystone d l => .fanKeystone d (l.map fun e => (e.1, { e.2 with poison := true }))
  | .fanStart d m => .fanStart d { m with poison := true }
  | .completion d m => .completion d { m with poison := true }
  | .gangWake d m => .gangWake d { m with poison := true }
  | .fault cl m => .fault cl { m with poison := true }
  | .wake d i => .wake d i
  | .scopeMiss d t => .scopeMiss d t

/-! ### The shadow store (R426) -/

/-- What lies at an offset of a core's shadow store: a register of a slot, a pair of k lanes, a word of a stream, an entry
of 36 or 80 bytes of a queue, or control state. -/
inductive ShadowItem where
  | g (i : Slot) (r : Fin 24)
  | v (i : Slot) (r : Fin 8) (word : Fin 4)
  | k (pair : Fin 128)
  | slot (i : Slot) (word : Fin 8)
  | stream (n : Fin 4) (word : Fin 10)
  | port (link : Port) (idx : Nat)
  | inbound (idx : Nat)
  | seam (nth idx : Nat)
  | control
deriving DecidableEq, Repr

/-- The layout of R426: slots, accumulators, per-slot state, streams, port queues, inbound queue, per-core state, seam
buffers. -/
def shadowItem (off : Nat) : ShadowItem :=
  if off < 0xE00 then
    let r := off % 448
    if r < 192 then .g (Fin.ofNat 8 (off / 448)) (Fin.ofNat 24 (r / 8))
    else .v (Fin.ofNat 8 (off / 448)) (Fin.ofNat 8 ((r - 192) / 32)) (Fin.ofNat 4 ((r - 192) % 32 / 8))
  else if off < 0x1200 then .k (Fin.ofNat 128 ((off - 0xE00) / 8))
  else if off < 0x1400 then .slot (Fin.ofNat 8 ((off - 0x1200) / 64)) (Fin.ofNat 8 ((off - 0x1200) % 64 / 8))
  else if off < 0x1540 then .stream (Fin.ofNat 4 ((off - 0x1400) / 80)) (Fin.ofNat 10 ((off - 0x1400) % 80 / 8))
  else if off < 0x1780 then .port (portOf ((off - 0x1540) / 144)) ((off - 0x1540) % 144 / 36)
  else if off < 0x1C80 then .inbound ((off - 0x1780) / 80)
  else if off < 0x1E00 then .control
  else if off < 0x1F20 then .seam ((off - 0x1E00) / 144) ((off - 0x1E00) % 144 / 36)
  else .control

/-- The word of a core's shadow store at an offset, for what R426 lays out: the registers of its slots, its accumulators,
PC, FCSR, TVEC, TEPC, TVAL and m0 to m3, and the descriptor and position of each stream. Of the rest the rule gives the place
and not the packing (log 118). -/
def shadowWord (k : Core) (off : Nat) : Option W64 :=
  match shadowItem off with
  | .g i r => some k.slots[i].g[r]
  | .v i r w => some (k.slots[i].v[r].extractLsb' (64 * w.val) 64)
  | .k p => some (k.k[2 * p.val + 1]'(by omega) ++ k.k[2 * p.val]'(by omega))
  | .slot i w => let t := k.slots[i]
    [t.pc, t.fcsr, t.tvec, t.tepc, t.tval, t.m[1] ++ t.m[0], t.m[3] ++ t.m[2]][w.val]?
  | .stream n w =>
    if w.val < 8 then some (k.streams[n].desc.extractLsb' (64 * w.val) 64)
    else if w.val = 8 then some (BitVec.ofNat 64 k.streams[n].pos) else none
  | .port _ _ | .inbound _ | .seam _ _ | .control => none

/-- The links of a core that cross a seam, as its shadow store lists them. -/
def storedSeams (c : CoreId) : List Port := [Port.n, .e, .s, .w].filter (crossesSeam c)

/-- A saved core with the data at an offset poisoned; none where control state lies, or nothing. -/
def poisonShadow (c : CoreId) (off : Nat) (k : Core) : Option Core :=
  match shadowItem off with
  | .g i r => some { k with slots := k.slots.set i (poisonG k.slots[i] r) }
  | .v i r w => some { k with slots := k.slots.set i (poisonV k.slots[i] r w) }
  | .k p => some { k with kPoison := putBits k.kPoison p.val 1 1 }
  | .port l i => some (setInq k l (poisonEntry (inqOf k l) i))
  | .inbound i => some { k with inbound := modifyAt k.inbound i fun m => { m with poison := true } }
  | .seam n i => ((storedSeams c)[n]?).map fun l => setSeam k l (poisonEntry (seamOf k l) i)
  | .slot _ _ | .stream _ _ | .control => none

/-- A saved context with the word at an offset of a core's shadow store poisoned (R420, R426): the register or entry that
lies there, or a word of control state, which the restore finds (R422; log 118). -/
def strikeSaved (c : CoreId) (off : Nat) (x : Saved) : Saved :=
  match mapFind x.cores c with
  | none => x
  | some k => match poisonShadow c off k with
    | some k => { x with cores := mapSet c k x.cores }
    | none => { x with struck := if x.struck.contains (c, off) then x.struck else x.struck ++ [(c, off)] }

/-- An uncorrectable error in the shadow store of a core, under the context of a job that is not on the cores (R420). -/
def strikeShadow (s : State) (part job : Nat) (c : CoreId) (off : Nat) : State :=
  if 0x2000 ≤ off ∨ ¬ (partOf s part).saved.any (fun x => x.job == job && (mapFind x.cores c).isSome) then s
  else modPart (countPoisoned s c) part fun p => { p with
    saved := p.saved.map fun x => if x.job = job then strikeSaved c (off / 8 * 8) x else x }

/-- The answer of a part of a request poisoned on its way. -/
def poisonAnswer (idx part : Nat) (t : Strand) : Strand :=
  { t with inflight := modifyAt t.inflight idx fun p => { p with
      parts := modifyAt p.parts part fun q => { q with got := q.got.map fun x => (x.1, true) } } }

/-- What an uncorrectable error does where it strikes (R420): the word, register word or entry is poisoned, a command
whose words are lost fails with cause 0x0D, a cache line or TLB entry is dropped. -/
def strikeAt (s : State) : ErrSite → State
  | .memWord loc =>
    if nodeOf loc ≠ 0 ∨ loc ≥ 2 ^ 50 then s
    else if isSlice loc then countPoisoned (poisonWord s (wordOf loc)) (sliceCore loc)
    else poisonWord s (wordOf loc)
  | .gWord c i r => countPoisoned (modStrand s c i fun t => poisonG t r) c
  | .vWord c i r w => countPoisoned (modStrand s c i fun t => poisonV t r w) c
  | .kWord c p => countPoisoned (modCore s c fun k => { k with kPoison := putBits k.kPoison p.val 1 1 }) c
  | .portEntry c l i => countPoisoned (modCore s c fun k => setInq k l (poisonEntry (inqOf k l) i)) c
  | .seamEntry c l i => countPoisoned (modCore s c fun k => setSeam k l (poisonEntry (seamOf k l) i)) c
  | .inboundEntry c i =>
    countPoisoned (modCore s c fun k => { k with inbound := modifyAt k.inbound i fun m => { m with poison := true } }) c
  | .outboundEntry c i =>
    countPoisoned (modCore s c fun k => { k with
      outbound := modifyAt k.outbound i fun m => { m with body := poisonBody m.body } }) c
  | .storeEntry c i =>
    countPoisoned (modCore s c fun k => { k with stores := modifyAt k.stores i fun e => { e with poison := true } }) c
  | .streamEntry c n i =>
    countPoisoned (modStream s c n fun st => { st with
      buf := modifyAt st.buf i fun e => { e with fault := some (e.fault.getD .poison) } }) c
  | .mailboxEntry cl i =>
    countPoisoned (modCluster s cl fun l => { l with
      mailbox := modifyAt l.mailbox i fun m => { m with poison := true } }) (keystone cl)
  | .copyCommand c ch n => match findCopy s c ch n with
    | some m => if m.phase = .finished then s else finishCopy s c ch n 0x0D
    | none => s
  | .footCommand c n => finishFoot s c n 0x0D
  | .seqCommand d q n => endSeq s d q n 0x0D
  | .shadowWord p j c off => strikeShadow s p j c off
  | .shadowUnit d i => modDie s d fun x => { x with
      shadows := modifyAt x.shadows i fun u => { u with poison := true } }
  | .answer c i idx part => countPoisoned (modStrand s c i (poisonAnswer idx part)) c
  | .reduction c i =>
    countPoisoned (modCore s c fun k => { k with reds := modifyAt k.reds i fun r => { r with poison := true } }) c
  | .copyWord c ch n word => modCopy s c ch n fun m => { m with
      held := m.held.map fun h => if h.word = word then { h with poison := true } else h }
  | .icacheLine c => modCore s c fun k => { k with slots := k.slots.map fun t => { t with ifetch := [] } }
  | .coreTlb c i => modCore s c fun k =>
      if i < k.itlb.length then { k with itlb := k.itlb.eraseIdx i }
      else { k with dtlb := k.dtlb.eraseIdx (i - k.itlb.length) }
  | .clusterTlb cl i => modCluster s cl fun l => { l with tlb := l.tlb.eraseIdx i }
  | .dieTlb d i => modDie s d fun x => { x with tlb := x.tlb.eraseIdx i }

/-- UNCORRECTABLE_ERROR. -/
def execUncorrectableError (site : ErrSite) (s : State) : Host.Outcome State Fault Refusal := .next (strikeAt s site)

/-- The core whose link a packet comes in over. -/
def packetCore : Body → CoreId
  | .start d _ | .fanKeystone d _ | .fanStart d _ | .completion d _ | .gangWake d _ | .wake d _ | .scopeMiss d _ => d
  | .fault cl _ => keystone cl

/-- LINK_REPLAY: a flit that fails its check is sent again; once sixteen replays have failed it is delivered poisoned. -/
def execLinkReplay (idx : Nat) (s : State) : Host.Outcome State Fault Refusal :=
  .next (match s.net[idx]? with
  | none => s
  | some p =>
    if p.poison then s
    else if p.replays < 16 then { s with net := s.net.set idx { p with replays := p.replays + 1 } }
    else countPoisoned { s with net := s.net.set idx { p with poison := true } } (packetCore p.body))

end Sys2Proof.Machine
end

