-- ==== Sys2Proof/Machine/Foot.lean ====
section
/-!
DEFINITION. Footing units: FTGO, the optimiser commands and the reductions performed at a stack (R352 to R356, R358).
-/
namespace Sys2Proof.Machine

/-! ## The optimiser block (R353, R354) -/

def obW (d : W512) : W64 := d.extractLsb' 0 64
def obG (d : W512) : W64 := d.extractLsb' 64 64
def obM (d : W512) : W64 := d.extractLsb' 128 64
def obV (d : W512) : W64 := d.extractLsb' 192 64
def obN (d : W512) : Nat := bits d 287 256
def obAdam (d : W512) : Bool := bit d 288
def obGbf (d : W512) : Bool := bit d 289
def obZg (d : W512) : Bool := bit d 290
def obLr (d : W512) : Nat := bits d 351 320
def obB1 (d : W512) : Nat := bits d 383 352
def obB2 (d : W512) : Nat := bits d 415 384
def obEps (d : W512) : Nat := bits d 447 416
def obWd (d : W512) : Nat := bits d 479 448
def obClip (d : W512) : Nat := bits d 511 480

/-- Bytes of a gradient. -/
def obGs (d : W512) : Nat := if obGbf d then 2 else 4

/-- The ranges in use: base, element bytes, and whether elements are written. -/
def obRanges (d : W512) : List (Nat × Nat × Bool) :=
  [((obW d).toNat, 4, true), ((obG d).toNat, obGs d, obZg d), ((obM d).toNat, 4, true)]
  ++ (if obAdam d then [((obV d).toNat, 4, true)] else [])

/-- Whether no two ranges of a list overlap. -/
def apart (n : Nat) : List (Nat × Nat × Bool) → Bool
  | [] => true
  | x :: t => t.all (fun y => !overlaps x.1 (n * x.2.1) y.1 (n * y.2.1)) && apart n t

/-- R354. -/
def obValid (d : W512) : Bool :=
  bits d 319 291 == 0 && decide (1 ≤ obN d) && decide (obN d ≤ 2 ^ 28)
  && (obW d).toNat % 4 == 0 && (obM d).toNat % 4 == 0 && (obV d).toNat % 4 == 0 && (obG d).toNat % obGs d == 0
  && (obRanges d).all (fun x => decide (x.1 < 2 ^ 48)) && apart (obN d) (obRanges d)
  && (obAdam d || (obV d == 0 && obB2 d == 0 && obEps d == 0))

/-! ## One element (R355) -/

/-- RoundTo(FP32, x, RNE) of an exact value, as a datum; optimiser commands raise no flag. -/
def obRound (x : Num) : Num := readFp fmtFp32 (roundTo fmtFp32 .rne x).1
def obTimes (a b : Num) : Num := (mulNum a b).1
/-- The exact sum of a list. -/
def obSum (l : List Num) : Num := (sumNum .rne l).1
def obNum (x : Nat) : Num := readFp fmtFp32 x
/-- 1 − x, rounded. -/
def obRest (x : Nat) : Num := obRound (obSum [obNum 0x3F800000, negNum (obNum x)])
def obCode (x : Num) : Nat := (roundTo fmtFp32 .rne x).1

/-- New codes of W, M and V of an element. -/
structure Updated where
  w : Nat
  m : Nat
  v : Nat

def obUpdate (d : W512) (g w m v : Nat) : Updated :=
  let x := readFp (if obGbf d then fmtBf16 else fmtFp32) g
  let g := obRound (obTimes x (obNum (obClip d)))
  let b1 := obNum (obB1 d)
  let m' := if obAdam d then obRound (obSum [obTimes b1 (obNum m), obTimes (obRest (obB1 d)) g])
    else obRound (obSum [obTimes b1 (obNum m), g])
  let v' := obRound (obSum [obTimes (obNum (obB2 d)) (obNum v), obTimes (obTimes (obRest (obB2 d)) g) g])
  let u := if obAdam d then
      let root := obRound (sqrtNum v').1
      obRound (divNum m' (obRound (obSum [root, obNum (obEps d)]))).1
    else m'
  let wn := obNum w
  let w' := obRound (obSum [wn, negNum (obTimes (obNum (obWd d)) wn), negNum (obTimes (obNum (obLr d)) u)])
  ⟨obCode w', obCode m', obCode v'⟩

/-! ## FTGO (R358) -/

def execFtgo (p : Pred) (d a : GReg) (s : State) : Host.Outcome State Fault Refusal :=
  let ea := getG s a
  compute s (predOn s p) { srcS := [.g a], dstS := [.g d], mis := misOf ea 64 } fun s => do
    let (words, s) ← loadBlock s ea
    let k := (coreOf s s.cur).foot
    waitUnless (decide (k.cmds.length < 16))
    let t := me s
    let n := k.tl.next
    let (q, s) := takeSeq s
    let m : FootCmd := {
      n := n, words := words, uid := t.uid, slot := s.slot, super := t.super, bond := t.bond, part := t.part
      job := t.job, seq := q, pages := none, pieces := [], puts := [], outcome := 0, token := none }
    let s := modCore s s.cur fun x => { x with foot :=
      { tl := { x.foot.tl with next := n + 1 }, cmds := x.foot.cmds ++ [m] } }
    .ok (setG s d (BitVec.ofNat 64 n))

/-! ## Translation of the ranges (R354) -/

def footWho (c : CoreId) (m : FootCmd) : Who := ⟨c, m.super, m.job, m.part, dieNum c, true⟩

/-- The 64 KiB pages of a range. -/
def rangePages (n : Nat) (x : Nat × Nat × Bool) : List (Nat × Bool) :=
  let first := x.1 / 65536
  let last := (x.1 + n * x.2.1 - 1) / 65536
  (List.range (last + 1 - first)).map fun i => (first + i, x.2.2)

/-- The first byte of the page that a translated address of an engine lies in (R289). -/
def pageOrigin (s : State) (w : Who) (va : Nat) : Nat :=
  match tlbLookup s w.core false true (bits (jobOf s w.job).ptroot 9 0) va with
  | some t => t.origin
  | none => va / 65536 * 65536

/-- 64 KiB as the footing units take it: translated, in local memory and no reduction page; with the page it lies in. -/
def footPage (s : State) (w : Who) (page : Nat) (use : Use) : Except EngStop ((Nat × Nat × Nat) × State) := do
  if page ≥ 2 ^ 32 then .error (.fail 0x08)
  else
    let (r, s) ← engCheck s w use false (BitVec.ofNat 64 (page * 65536))
    if r.rp || r.peer then .error (.fail 0x08) else .ok ((r.loc, r.key, pageOrigin s w (page * 65536)), s)

/-- Every page translated: for reading, or for reading and writing where its elements are updated. -/
def footPages (s : State) (w : Who) : List (Nat × Bool) → Except EngStop (Map (Nat × Nat × Nat) × State)
  | [] => .ok ([], s)
  | (page, write) :: t => do
    let (r, s) ← footPage s w page (if write then .atomic else .load)
    let (l, s) ← footPages s w t
    .ok (mapSet page r l, s)

/-! ## Pieces (R356) -/

/-- The elements at which a range enters another page, whatever its size (R289). -/
def pageStarts (pages : Map (Nat × Nat × Nat)) (n : Nat) (x : Nat × Nat × Bool) : List Nat :=
  let first := x.1 / 65536
  let enters := fun (j : Nat) => (mapGet (0, 0, 0) pages (first + j + 1)).2.2 == 65536 * (first + j + 1)
  ((List.range ((x.1 + n * x.2.1 - 1) / 65536 - first)).filter enters).map fun j =>
    (65536 * (first + j + 1) - x.1) / x.2.1

/-- The first elements of the pieces, rising: a piece ends where some range enters another page. -/
def pieceStarts (pages : Map (Nat × Nat × Nat)) (d : W512) : List Nat :=
  ((obRanges d).flatMap (pageStarts pages (obN d))).foldl (fun l e => setAdd e l) [0]

/-- The first element of piece k and the one after its last. -/
def pieceSpan (pages : Map (Nat × Nat × Nat)) (d : W512) (k : Nat) : Option (Nat × Nat) :=
  let l := pieceStarts pages d
  (l[k]?).map fun e => (e, (l[k + 1]?).getD (obN d))

/-- An element's code at a place: whether its word is poisoned. -/
def footRead (s : State) (pages : Map (Nat × Nat × Nat)) (va n : Nat) : Nat × Bool :=
  let r := footPlace pages va
  let h := homeWord s (wordOf r.1) r.2
  ((subWord h.1 (r.1 % 8) n).toNat, h.2)

/-- The new values of one element; poison in any of its inputs poisons its W, M and V (R355). -/
def elemPuts (s : State) (d : W512) (pages : Map (Nat × Nat × Nat)) (e : Nat) : List FootPut :=
  let wa := (obW d).toNat + 4 * e
  let ga := (obG d).toNat + obGs d * e
  let ma := (obM d).toNat + 4 * e
  let va := (obV d).toNat + 4 * e
  let w := footRead s pages wa 4
  let g := footRead s pages ga (obGs d)
  let m := footRead s pages ma 4
  let v := if obAdam d then footRead s pages va 4 else (0, false)
  let bad := w.2 || g.2 || m.2 || v.2
  let u := obUpdate d g.1 w.1 m.1 v.1
  [⟨wa, 4, u.w, bad⟩, ⟨ma, 4, u.m, bad⟩] ++ (if obAdam d then [⟨va, 4, u.v, bad⟩] else [])
  ++ (if obZg d then [⟨ga, obGs d, 0, false⟩] else [])

/-- Whether every element of the ranges written that lies in a word has its new value. -/
def wordComplete (d : W512) (puts : List FootPut) (word : Nat) : Bool :=
  (obRanges d).all fun x => !x.2.2 ||
    (List.range 8).all fun i =>
      let va := 8 * word + i
      decide (va < x.1) || decide (x.1 + obN d * x.2.1 ≤ va) || (va - x.1) % x.2.1 != 0
        || puts.any fun y => y.va == va

/-- One aligned word written once, with the new values of every element in it (R356). -/
def putFootWord (pages : Map (Nat × Nat × Nat)) (l : List FootPut) (s : State) (word : Nat) : State :=
  let mine := l.filter fun x => x.va / 8 == word
  let r := footPlace pages (8 * word)
  let mask := mine.foldl (fun k x => k ||| byteMask (x.va % 8) x.n) 0
  let val := mine.foldl (fun k x => k ||| (BitVec.ofNat 64 x.code <<< (8 * (x.va % 8)))) 0
  let s := homeWrite s r.1 r.2 mask val none
  if mine.any fun x => x.poison then poisonWord s r.1 else s

/-- A word of an element that its home withholds (R315). -/
def footWithheld (s : State) (d : W512) (pages : Map (Nat × Nat × Nat)) (e : Nat) : Option Nat :=
  ((obRanges d).map fun x => wordOf (footPlace pages (x.1 + x.2.1 * e)).1).find? fun w => !tagReadable s .engine w

/-- The next element of piece k read and computed: its lines are held from here until its words are written (R288). -/
def computeElem (s : State) (c : CoreId) (m : FootCmd) (pages : Map (Nat × Nat × Nat)) (k : Nat) : State :=
  match pieceSpan pages m.words k with
  | none => s
  | some (first, last) =>
    let done := mapGet 0 m.pieces k
    let e := first + done
    if last ≤ e then s
    else match footWithheld s m.words pages e with
      | some w => parkMiss s .engine w
      | none =>
        let l := elemPuts s m.words pages e
        modFoot s c m.n fun y => { y with
          pieces := mapSet k (done + 1) y.pieces
          puts := y.puts ++ l
          outcome := if l.any (fun x => x.poison) then 0x0D else y.outcome }

/-- One move of piece k: a word all of whose elements are computed is written, or the next element is computed. What waited
for a line goes on when nothing of it is held any more (R288). -/
def performPiece (s : State) (c : CoreId) (m : FootCmd) (pages : Map (Nat × Nat × Nat)) (k : Nat) : State :=
  match (m.puts.map fun x => x.va / 8).find? (wordComplete m.words m.puts) with
  | some word =>
    let s := modFoot s c m.n fun y => { y with puts := y.puts.filter fun x => x.va / 8 != word }
    wakeLine (putFootWord pages m.puts s word) (footPlace pages (8 * word)).1
  | none => computeElem s c m pages k

/-- Whether every element is computed and written. -/
def footPerformed (m : FootCmd) : Bool :=
  m.pages.isSome && m.puts.isEmpty && m.pieces.foldl (fun n e => n + e.2) 0 == obN m.words

/-- The first thing a command does: its checks, then the translation of every page (R354). -/
def startFoot (s : State) (c : CoreId) (m : FootCmd) : State :=
  if !obValid m.words then finishFoot s c m.n 0x01
  else match footPages s (footWho c m) ((obRanges m.words).flatMap (rangePages (obN m.words))) with
    | .ok (l, s) => modFoot s c m.n fun y => { y with pages := some l }
    | .error .await => s
    | .error (.park w) => parkMiss s .engine w
    | .error (.fail o) => finishFoot s c m.n o
    | .error (.fault wr va r l x) =>
      let token := agentToken s c footAgentNo
      let s := postFault s footAgentNo (engineMsg c m.slot m.uid m.n 2 wr va r l x)
      modFoot s c m.n fun y => { y with token := some token }

def findFoot (s : State) (c : CoreId) (n : Nat) : Option FootCmd := (coreOf s c).foot.cmds.find? fun m => m.n == n

/-- Whether another command that has begun has a page of this one: its lines are held first (R288; log 137). -/
def footBehind (s : State) (c : CoreId) (m : FootCmd) : Bool :=
  let mine := (m.pages.getD []).map fun p => p.2.1
  m.pieces.isEmpty && s.cores.any fun e => e.2.foot.cmds.any fun x =>
    !(e.1 == c && x.n == m.n) && !x.pieces.isEmpty && (x.pages.getD []).any fun p => mine.contains p.2.1

/-- Whether a footing command may go on (R321, R427). -/
def footReady (s : State) (c : CoreId) (m : FootCmd) : Bool :=
  let p := partOf s m.part
  m.token.isNone && p.job == m.job && (p.phase == .running || p.phase == .draining)
  && !launchWaits s c m.uid m.seq && !footBehind s c m

/-- OPTIMISER_PIECE (R356): the translation of the ranges, then the pieces in whatever order, each in ascending element
order; one step computes one element or writes one word. -/
def execOptimiserPiece (c : CoreId) (n piece : Nat) (s : State) : Host.Outcome State Fault Refusal :=
  .next (match findFoot s c n with
  | none => s
  | some m =>
    if !footReady s c m then s
    else match m.pages with
      | none => startFoot s c m
      | some l => performPiece s c m l piece)

/-- OPTIMISER_COMPLETE (R356): every piece is performed. -/
def execOptimiserComplete (c : CoreId) (n : Nat) (s : State) : Host.Outcome State Fault Refusal :=
  .next (match findFoot s c n with
  | none => s
  | some m =>
    if footReady s c m && footPerformed m then finishFoot s c n m.outcome else s)

/-! ## Reductions on their way (R125, R352, R436) -/

/-- FOOTING_ATOMIC: a return-free reduction to a stack is performed there by its footing unit. -/
def execFootingAtomic (c : CoreId) (idx : Nat) (s : State) : Host.Outcome State Fault Refusal :=
  .next (match (coreOf s c).reds[idx]? with
  | none => s
  | some r => if r.performed || r.rp || isSlice r.loc then s else performRed s c r)

/-- SHADOW_COMBINE: a reduction to a reduction page combines into its die's shadow unit. -/
def execShadowCombine (c : CoreId) (idx : Nat) (s : State) : Host.Outcome State Fault Refusal :=
  .next (match (coreOf s c).reds[idx]? with
  | none => s
  | some r => if r.performed || !r.rp then s else combineShadow s c r)

/-- REDUCTION_ACK: the acknowledgement of a performed reduction; one to a slice is performed at its port first. -/
def execReductionAck (c : CoreId) (idx : Nat) (s : State) : Host.Outcome State Fault Refusal :=
  .next (match (coreOf s c).reds[idx]? with
  | none => s
  | some r =>
    if r.performed then ackRed s c r
    else if r.rp || !isSlice r.loc then s
    else
      let s := performRed s c r
      match (coreOf s c).reds[idx]? with
      | some x => if x.performed then ackRed s c x else s
      | none => s)

/-- SHADOW_MERGE (R437, R438). -/
def execShadowMerge (die : Fin 4) (idx : Nat) (s : State) : Host.Outcome State Fault Refusal :=
  .next (match (s.dies[die]).shadows[idx]? with
  | none => s
  | some u => if mergeDue s u && shadowFree s die u then mergeUnits s die u else s)

/-- SHADOW_CAPACITY_MERGE: a die whose units would pass a limit merges its oldest one (R438). -/
def execShadowCapacityMerge (die : Fin 4) (s : State) : Host.Outcome State Fault Refusal :=
  .next (match (s.dies[die]).shadows with
  | [] => s
  | u :: _ => if capacityDue s die && shadowFree s die u then mergeUnits s die u else s)

end Sys2Proof.Machine
end

