-- ==== Sys2Proof/Machine/Work.lean ====
section
/-!
DEFINITION. The scheduler (R223 to R225), the placement of a launch (R461, R466, R467) and the completion of a bond
(R197, R198).
-/
namespace Sys2Proof.Machine

/-! ## Dependences (R337, R465) -/

/-- The dependences of a packet: context word and n. -/
def packetDeps (p : QPacket) : List (W64 × W64) :=
  [(pktWord p 2, pktWord p 3), (pktWord p 4, pktWord p 5)].take (pktNdep p)

/-- A counter has reached n. -/
def depMet (s : State) (job : Nat) (d : W64 × W64) : Bool :=
  match ctxOf d.1 with
  | some x => decide (d.2.toNat ≤ (ctxTimeline s 0 job x).counter.toNat)
  | none => false

def depsMet (s : State) (job : Nat) (p : QPacket) : Bool := (packetDeps p).all (depMet s job)

/-! ## Fields of a LAUNCH (R466) -/

def launchCx (p : QPacket) : Nat := bits (pktWord p 8) 3 0
def launchCy (p : QPacket) : Nat := bits (pktWord p 8) 8 4
def launchW (p : QPacket) : Nat := bits (pktWord p 8) 12 9 + 1
def launchH (p : QPacket) : Nat := bits (pktWord p 8) 17 13 + 1
def launchAny (p : QPacket) : Bool := bit (pktWord p 8) 18
def launchSpc (p : QPacket) : Nat := bits (pktWord p 8) 22 19
def launchDmask (p : QPacket) : BitVec 4 := (pktWord p 8).extractLsb' 23 4
def launchBay (p : QPacket) : Nat := bits (pktWord p 11) 15 0

/-- Clusters of a rectangle, in index order. -/
def rectClusters (cx cy w h : Nat) : List Nat :=
  (List.range h).flatMap fun j => (List.range w).map fun i => (cy + j) * 16 + (cx + i)

/-- Whether a launch may stand with its north-west cluster at (cx, cy) of its partition (R432, R468). -/
def rectAllowed (p : Partition) (k : QPacket) (cx cy : Nat) : Bool :=
  (launchAny k || (cx == launchCx k && cy == launchCy k))
  && decide (cx + launchW k ≤ 16) && decide (cy + launchH k ≤ 20)
  && (rectClusters cx cy (launchW k) (launchH k)).all fun cl =>
      p.clusters.contains cl && bit (launchDmask k) (clusterDie cl).val

/-- The places a launch may take. -/
def launchPlaces (p : Partition) (k : QPacket) : List (Nat × Nat) :=
  ((List.range 20).flatMap fun cy => (List.range 16).map fun cx => (cx, cy)).filter fun e => rectAllowed p k e.1 e.2

/-- Whether the clusters of a place are free, and a slot for the stub on its cornerstone core. -/
def placeFree (s : State) (k : QPacket) (e : Nat × Nat) : Bool :=
  (rectClusters e.1 e.2 (launchW k) (launchH k)).all (fun cl => (clusterOf s cl).bond.isNone)
  && (freeSlot (coreOf s (keystone (e.2 * 16 + e.1)))).isSome

/-! ## Effective priority (R223, R224) -/

/-- A unit's own priority with the levels it has gained by waiting, up to 3. -/
def ownPrio (u : WorkUnit) : Nat := Nat.min 3 (pktPrio u.packet + u.aged)

/-- Whether a packet's completion advances software timeline n (R464). -/
def pktAdvances (p : QPacket) (n : Nat) : Bool := bit (pktWord p 0) 18 && bits (pktWord p 0) 17 8 == n

/-- Whether a unit is declared to advance the counter of a dependence: its packet does, or the SIGNAL packet that its
queue holds behind it. -/
def advances (s : State) (u : WorkUnit) (w : W64) : Bool :=
  match ctxOf w with
  | some (.software n) => pktAdvances u.packet n || (match (queueOf s u.queue).hand with
      | some p => pktType p == 3 && pktAdvances p n
      | none => false)
  | _ => false

/-- The effective priority of a queued unit; a resident unit has no unmet dependence. -/
def effPrio (s : State) (units : List WorkUnit) : Nat → WorkUnit → Nat
  | 0, u => ownPrio u
  | n + 1, u =>
    units.foldl (fun m v =>
      if v.job == u.job && (packetDeps v.packet).any (fun d => !depMet s v.job d && advances s u d.1) then
        Nat.max m (effPrio s units n v)
      else m) (ownPrio u)

/-- Whether unit v comes before unit u in the scheduler's order (R225). -/
def before (s : State) (units : List WorkUnit) (v u : WorkUnit) : Bool :=
  let a := effPrio s units units.length v
  let b := effPrio s units units.length u
  decide (b < a) || (a == b && decide (v.arrival < u.arrival))

/-- Plumb time where the scheduler works: on the I/O die whose host port is in use (R224, R459; log 136). -/
def schedulerTime (s : State) : Nat := (if s.dev.primaryDown then s.plumb[5] else s.plumb[4]).toNat

/-- PRIORITY_AGING: a unit gains a level after each 2^20 ticks of plumb time with its dependences met (R224). -/
def execPriorityAging (part idx : Nat) (s : State) : Host.Outcome State Fault Refusal :=
  .next (match (partOf s part).units[idx]? with
  | none => s
  | some u => match u.metAt with
    | none => s
    | some t =>
      if u.aged < 3 ∧ t + 2 ^ 20 * (u.aged + 1) ≤ schedulerTime s then
        modPart s part fun p => { p with units := p.units.set idx { u with aged := u.aged + 1 } }
      else s)

/-- Plumb time when the dependences of each queued unit were first met (R224). -/
def noteMet (s : State) : State :=
  let mark := fun (u : WorkUnit) =>
    if u.metAt.isNone && depsMet s u.job u.packet then { u with metAt := some (schedulerTime s) } else u
  { s with parts := s.parts.map fun e => (e.1, { e.2 with units := e.2.units.map mark }) }

/-! ## Placement (R416, R461, R466, R467) -/

/-- What the configuration record loads on the clusters and cores of a bond (R461), as it stands at the placement, with no
further check (log 123). -/
def loadConfig (s : State) (j : Nat) (clusters : List Nat) : State :=
  let x := jobOf s j
  let s := if jobBonds s j = [] then modJob s j fun y => { y with ptroot := x.cfgPtroot } else s
  clusters.foldl (fun s cl =>
    let s := modCluster s cl fun l => { l with fhvec := x.cfgFhvec }
    (clusterCores cl).foldl (fun s c =>
      if (coreOf s c).smvec = x.cfgSmvec then s else modCore s c fun k => { k with smvec := x.cfgSmvec }) s) s

/-- The retries that a newly placed bond starts with (R204, R416): of the bond, of its bay and of its job, which share
the counters of the bonds of theirs that are resident. -/
def firstRetries (s : State) (u : WorkUnit) : Nat × Nat × Nat :=
  match u.left with
  | some l => l
  | none =>
    let w := pktWord u.packet 9
    let bay := launchBay u.packet
    let mate := s.bonds.find? fun e => e.2.job == u.job && bay != 0 && e.2.bay == bay
    let same := s.bonds.find? fun e => e.2.job == u.job
    (contRetry w 1, (mate.map fun e => e.2.leftBay).getD (contRetry w 2),
      (same.map fun e => e.2.leftJob).getD (contRetry w 3))

/-- The bond that a unit becomes. -/
def newBond (s : State) (part : Nat) (u : WorkUnit) (cx cy : Nat) : Bond :=
  let k := u.packet
  let left := firstRetries s u
  { job := u.job, part := part, cx := cx, cy := cy, cw := launchW k, ch := launchH k, spc := launchSpc k
    dmask := launchDmask k, size := BitVec.ofNat 32 (launchSpc k * (64 * launchW k * launchH k))
    fanned := false, late := false, contup := pktWord k 9, bay := launchBay k
    fanPc := 0, fanArg := 0, fanMask := 0, bar := emptyBarrier, courses := [], seqr := none
    tregion := 0, tsErr := false, tsFlags := 0, tsCause := 0
    leftCourse := [], leftBond := left.1, leftBay := left.2.1, leftJob := left.2.2
    queue := u.queue, packetNo := u.packetNo, packet := k }

/-- The start stub (R467): the FAN column of R24, but no barrier member. -/
def stubStrand (s : State) (b : Nat) (x : Bond) (c : CoreId) (uid : Nat) : Strand :=
  { startFanned s (some b) x.job x.part uid c (pktWord x.packet 6) (pktWord x.packet 7) 0 (x.size.setWidth 64) with
    kind := .stub
    member := false }

/-- A unit placed with its north-west cluster at (cx, cy). -/
def placeUnit (s : State) (part : Nat) (u : WorkUnit) (cx cy : Nat) : State :=
  let x := newBond s part u cx cy
  let cls := rectClusters cx cy x.cw x.ch
  let s := loadConfig s u.job cls
  let b := s.nextBond
  let s := modJob { s with nextBond := b + 1, bonds := mapSet b x s.bonds } u.job fun y =>
    { y with ownset := pktWord u.packet 10 }
  let s := cls.foldl (fun s cl => modCluster s cl fun l => { l with bond := some b }) s
  let c := keystone (cy * 16 + cx)
  match freeSlot (coreOf s c) with
  | none => s
  | some i => putStrand { s with nextUid := s.nextUid + 1 } c i (stubStrand s b x c s.nextUid)

/-- SCHEDULER_PLACE: the unit is the first, in order of effective priority and arrival, that fits. -/
def execSchedulerPlace (part idx cx cy : Nat) (s : State) : Host.Outcome State Fault Refusal :=
  let p := partOf s part
  let fits := fun (u : WorkUnit) =>
    depsMet s u.job u.packet && (launchPlaces p u.packet).any (placeFree s u.packet)
  .next (match p.units[idx]? with
  | none => s
  | some u =>
    if p.phase != .running || !depsMet s u.job u.packet || !rectAllowed p u.packet cx cy
        || !placeFree s u.packet (cx, cy) || p.units.any (fun v => before s p.units v u && fits v) then s
    else placeUnit (modPart s part fun p => { p with units := p.units.eraseIdx idx }) part u cx cy)

/-! ## BOND_COMPLETION (R197, R198) -/

/-- Whether a core of a bond still has work of the bond. -/
def coreBusy (k : Core) (b : Nat) : Bool :=
  (coreStrands k).any (fun t => t.2.bond == some b)
  || !k.inbound.isEmpty || !k.outbound.isEmpty || !k.stores.isEmpty || !k.reds.isEmpty
  || k.streams.toList.any (fun st => st.mode == .active && sdWrite st.desc && !st.buf.isEmpty)
  || k.chans.toList.any (fun x => x.cmds.any fun m => m.bond == some b)
  || k.foot.cmds.any (fun m => m.bond == some b)
  || k.tickets.toList.any fun t => t.bond == b && ((t.busy && !gangFinal t.state) || t.unsent.isSome)

/-- A packet that will start a strand on a core of a cluster test, or wake one. -/
def headsFor (inCluster : Nat → Bool) (x : Body) : Bool :=
  startsOn inCluster x || (match x with | .scopeMiss d _ => inCluster (clusterIdx d) | _ => false)

/-- Whether everything that a bond waits for before it completes is done. -/
def bondIdle (s : State) (b : Nat) (x : Bond) : Bool :=
  let inside := fun cl => (bondClusters x).contains cl
  !(s.cores.any fun e => inside (clusterIdx e.1) && coreBusy e.2 b)
  && !(s.net.any fun p => headsFor inside p.body)
  && (match x.seqr with
      | some (d, q) => s.dies[d].seqrs[q].cmds.isEmpty
      | none => true)
  && s.dies.toList.all fun d => d.shadows.all fun u =>
      !(u.contribs.any fun y => y.bond == some b) || unitFree s u

/-- The release at .SY: shadow units with a contribution of the bond merge, and the tags of its cores go (R302). -/
def releaseBond (s : State) (b : Nat) (x : Bond) : State :=
  let s := ((allUnits s).filter fun e => e.2.contribs.any fun y => y.bond == some b).foldl
    (fun s e => mergeUnits s e.1 e.2) s
  dropTags s fun t => (bondClusters x).contains (clusterIdx t.core)

/-- BOND_COMPLETION: the sequencer and the clusters are free again, and the LAUNCH packet's work is done. -/
def execBondCompletion (b : Nat) (s : State) : Host.Outcome State Fault Refusal :=
  .next (match mapFind s.bonds b with
  | none => s
  | some x =>
    if !bondIdle s b x then s
    else
      let s := freeClusters (releaseSeqr (releaseBond s b x) x) x
      markDone { s with bonds := mapErase b s.bonds } x.queue x.packetNo)

end Sys2Proof.Machine
end

