-- ==== Sys2Proof/Machine/Queues.lean ====
section
/-!
DEFINITION. Command queues and their packets (R461 to R468), the host's registers (R460, R462).
-/
namespace Sys2Proof.Machine

/-! ## Packets (R464, R466, R468) -/

/-- Whether a context is one of a partition: of a core in it, or a tile sequencer that no bond of another partition held
last; the exchange engines' contexts and the software timelines that a packet names are its own job's (R337). -/
def ctxIn (s : State) (part : Nat) : Ctx → Bool
  | .copy c _ | .foot c => match c with | some c => partitionHolds s part c | none => false
  | .seq d q => (s.dies[d].seqrs[q].part).all (· == part)
  | .exchange _ | .software _ => true

/-- A context word of a packet names a context of its partition, and no issuing core (R337). -/
def depValid (s : State) (part : Nat) (w : W64) : Bool := (ctxOf w).any (ctxIn s part)

/-- An OWNSET value that a LAUNCH may carry (R213): one that is not VALID leaves its granule open. -/
def ownsetValid (w : W64) : Bool :=
  csrValid 0xA10 w || (!bit w 63 && !bit w 7 && !bit w 23 && bits w 62 37 == 0 && rectOk w)

/-- The words of a packet from i on that its type does not use. -/
def zeroFrom (p : QPacket) (i : Nat) : Bool := (List.range (16 - i)).all fun k => pktWord p (i + k) == 0

/-- Reserved bits of the body (R464, R466). -/
def bodyValid (p : QPacket) : Bool :=
  match pktType p with
  | 0 => bits (pktWord p 8) 63 27 == 0 && decide (1 ≤ launchSpc p) && decide (launchSpc p ≤ 8)
      && csrValid 0xA09 (pktWord p 9) && ownsetValid (pktWord p 10) && bits (pktWord p 11) 63 16 == 0 && zeroFrom p 12
  | 1 => true
  | 2 => zeroFrom p 15
  | _ => zeroFrom p 6

/-- Whether a packet is valid (R468). -/
def packetValid (s : State) (part : Nat) (p : QPacket) : Bool :=
  decide (pktType p ≤ 5) && decide (pktNdep p ≤ 2) && bits (pktWord p 0) 63 24 == 0
  && (packetDeps p).all (fun d => depValid s part d.1) && bodyValid p

/-! ## The fetcher (R462, R463) -/

def queueEn (x : Queue) : Bool := bit x.qcfg 63
/-- Packets of the ring; LOG has four bits, and 0 stands for 16. -/
def ringSize (x : Queue) : Nat := let l := bits x.qcfg 3 0; 2 ^ (if l = 0 then 16 else l)

/-- The partition of a queue's job, while that job is on it and runs. -/
def queuePart (s : State) (x : Queue) : Option Nat :=
  match (jobOf s (queueJob x)).part with
  | some p => if (partOf s p).phase = .running ∧ (partOf s p).job = queueJob x then some p else none
  | none => none

/-- The key under which the host reaches a word: that of the line's last write, while its binding is in force (R473). -/
def hostKey (s : State) (word : Nat) : Nat :=
  let j := mapGet 0 s.lineKey (word / 128)
  if s.keyInst.any fun e => e.2 == j then j else 0

/-- Where the packet at POS lies. -/
def ringLoc (x : Queue) : Nat := bits x.qbase 47 0 / 4096 * 4096 + 128 * x.pos

/-- The sixteen words of the packet at POS. -/
def readPacket (s : State) (x : Queue) : QPacket :=
  let w := fun i => (homeWord s (ringLoc x + 8 * i) (hostKey s (ringLoc x + 8 * i))).1
  ⟨(List.range 16).foldr (fun i a => (a <<< 64) ||| (w i).setWidth 1024) 0, x.pos⟩

/-- The fetcher reads at POS when it has no packet in hand: it takes the packet, stops the queue on an invalid one, or
finds the ring empty. -/
def fetchPacket (s : State) (q : Nat) : State :=
  let x := queueOf s q
  match queuePart s x with
  | none => s
  | some part =>
    let p := readPacket s x
    if !x.run || !queueEn x || x.hand.isSome then s
    else if bit (pktWord p 0) 0 != x.phase then modQueue s q fun y => { y with polled := s.ticks }
    else
      let next := (x.pos + 1) % ringSize x
      let s := modQueue s q fun y => { y with
        pos := next, phase := if next = 0 then !y.phase else y.phase, hand := some p }
      if packetValid s part p then s else failPacket s q 0x01 p.index

/-- The packet in hand of one type, when its queue may dispatch it. -/
def inHand (s : State) (q ty : Nat) : Option (QPacket × Nat) :=
  let x := queueOf s q
  match x.hand, queuePart s x with
  | some p, some part => if x.run ∧ pktType p = ty then some (p, part) else none
  | _, _ => none

/-- The packet in hand is dispatched or handed on; a queue whose EN is clear stops here, another reads on. -/
def passHand (s : State) (q : Nat) (p : QPacket) (done : Bool) : State :=
  let s := modQueue s q fun x => { x with
    hand := none, taken := x.taken ++ [⟨x.next, queueJob x, p, done⟩], next := x.next + 1, run := queueEn x }
  fetchPacket s q

/-! ## LAUNCH (R461, R465, R468) -/

/-- R287: a valid local PA. -/
def paValid (pa : Nat) : Bool := decide (pa < 12 * 2 ^ 36) && decide (pa % 2 ^ 36 < 48 * 2 ^ 30)

/-- Whether a job's configuration record can start its strands (R461). -/
def configValid (x : Job) : Bool :=
  csrValid 0xB00 x.cfgPtroot && csrValid 0x800 x.cfgTvec && paValid (bits x.cfgPtroot 47 11 * 2048)

/-- LAUNCH: handed to the scheduler at once, or the queue stops. -/
def execLaunch (q : Nat) (s : State) : Host.Outcome State Fault Refusal :=
  .next (match inHand s q 0 with
  | none => s
  | some (p, part) =>
    let x := queueOf s q
    if !configValid (jobOf s (queueJob x)) then failPacket s q 0x01 p.index
    else if launchPlaces (partOf s part) p = [] then failPacket s q 0x08 p.index
    else
      let u : WorkUnit := ⟨p, q, x.next, queueJob x, none, 0, s.nextSeq, none⟩
      let s := modPart { s with nextSeq := s.nextSeq + 1 } part fun y => { y with units := y.units ++ [u] }
      passHand s q p false)

/-! ## The other packets (R465, R466) -/

/-- ACTIVE: a message to the owner of the data address (R214). Nothing checks the handler address; bit 0 of an odd one is
cleared (log 97). -/
def execActive (q : Nat) (s : State) : Host.Outcome State Fault Refusal :=
  .next (match inHand s q 1 with
  | none => s
  | some (p, part) =>
    let x := queueOf s q
    let j := queueJob x
    if !depsMet s j p then s
    else
      let o := (jobOf s j).ownset
      let c := ownerOf o (pktWord p 6)
      let b := (clusterOf s (clusterIdx c)).bond
      let mine := match b.bind (mapFind s.bonds) with | some y => y.job == j | none => false
      if !bit o 63 || !mine then failPacket s q 0x08 p.index
      else
        let regs : Vector W64 8 := Vector.ofFn fun i => pktWord p (8 + i.val)
        let m : InMsg := ⟨.message (pktWord p 7 &&& ~~~(1 : W64)) regs 0x00800000
          (BitVec.ofNat 64 (bits (pktWord p 0) 23 20)), b, j, part, 1, false, false⟩
        passHand { s with net := s.net ++ [⟨c, 0, .start c m, 0, false, false, some (q, x.next)⟩] } q p false)

/-- The context of a queue's exchange engine: q mod 16 of the I/O die whose host port is in use (R451, R459). -/
def packetEngine (s : State) (part q : Nat) : Nat := exchangeOf part (q % 16 + (if s.dev.primaryDown then 16 else 0))

/-- The command of a COPY packet. -/
def packetCopy (s : State) (part q n k : Nat) (p : QPacket) : CopyCmd := {
  n := k, words := (p.words >>> (64 * 6)).setWidth 512, tick := pktWord p 14, uid := 0
  core := keystone ((partOf s part).clusters.foldl Nat.min 319), slot := 0, super := false, bond := none, part := part
  job := queueJob (queueOf s q), seq := 0, phase := .sent, first := 0, landed := [], counted := [], skipped := []
  held := [], pins := [], fetched := []
  outcome := 0, message := none, packet := some (q, n) }

/-- COPY: a command of an exchange engine with a free place. -/
def execCopy (q : Nat) (s : State) : Host.Outcome State Fault Refusal :=
  .next (match inHand s q 2 with
  | none => s
  | some (p, part) =>
    let x := queueOf s q
    let e := packetEngine s part q
    let k := chanOf s e 2
    if !depsMet s (queueJob x) p || decide (k.cmds.length ≥ 16) then s
    else
      let m := packetCopy s part q x.next k.tl.next p
      let s := modChan s e 2 fun k => { tl := { k.tl with next := k.tl.next + 1 }, cmds := k.cmds ++ [m] }
      passHand s q p false)

/-- A packet with no effect but its completion, dispatched once its dependences are met and, where it waits for them,
every earlier packet has completed. -/
def dispatchPlain (q ty : Nat) (alone : Bool) (s : State) : State :=
  match inHand s q ty with
  | none => s
  | some (p, _) =>
    let x := queueOf s q
    if !depsMet s (queueJob x) p || (alone && !x.taken.isEmpty) then s else passHand s q p true

/-- SIGNAL_PACKET. -/
def execSignalPacket (q : Nat) (s : State) : Host.Outcome State Fault Refusal := .next (dispatchPlain q 3 true s)
/-- WAIT. -/
def execWait (q : Nat) (s : State) : Host.Outcome State Fault Refusal := .next (dispatchPlain q 4 false s)
/-- FENCE_PACKET: every earlier packet has completed, and with it its writes are performed. -/
def execFencePacket (q : Nat) (s : State) : Host.Outcome State Fault Refusal := .next (dispatchPlain q 5 true s)

/-- A packet completes (R468): the timeline advances, then the MSI-X message is sent. -/
def completePacket (q : Nat) (s : State) (t : Taken) : State :=
  let w := pktWord t.packet 0
  let s := if bit w 18 then advanceTimeline s t.job (bits w 17 8) (pktWord t.packet 1) else s
  let s := if bit w 19 then sendMsix s q else s
  modQueue s q fun x => { x with taken := x.taken.filter fun y => y.n != t.n }

/-- PACKET_COMPLETE. -/
def execPacketComplete (q n : Nat) (s : State) : Host.Outcome State Fault Refusal :=
  .next (match (queueOf s q).taken.find? fun t => t.n == n && t.done with
  | none => s
  | some t => completePacket q s t)

/-! ## The host's writes (R460 to R463) -/

/-- QDB_WRITE. -/
def execQdbWrite (q : Nat) (s : State) : Host.Outcome State Fault Refusal := .next (fetchPacket s q)

/-- QUEUE_POLL_TIMEOUT. -/
def execQueuePollTimeout (q : Nat) (s : State) : Host.Outcome State Fault Refusal :=
  .next (if (queueOf s q).polled + 65536 ≤ s.ticks then fetchPacket s q else s)

/-- Whether a job has work anywhere: an enabled queue, or a unit resident, queued or saved. -/
def jobActive (s : State) (j : Nat) : Bool :=
  s.queues.any (fun e => queueJob e.2 == j && queueEn e.2)
  || s.bonds.any (fun e => e.2.job == j)
  || s.parts.any fun e => e.2.units.any (fun u => u.job == j) || e.2.saved.any fun x => x.job == j

/-- A job is launched when the first of its queues is enabled: its timelines start at 0 (R337). -/
def launchJob (s : State) (j : Nat) : State :=
  if jobActive s j then s else modJob s j fun x => { x with timelines := [], killed := false }

/-- QCFG_WRITE: setting EN clears POS and sets PHASE; clearing it stops the queue once the packet in hand has been
dispatched; the other fields take a value only while EN = 0. -/
def execQcfgWrite (q : Nat) (v : W64) (s : State) : Host.Outcome State Fault Refusal :=
  let x := queueOf s q
  .next (
    if queueEn x then
      if bit v 63 then s
      else modQueue s q fun y => { y with qcfg := putBits y.qcfg 63 1 0, run := y.hand.isSome }
    else
      let w := v &&& 0x80000000000003FF
      if bit v 63 then
        fetchPacket (modQueue (launchJob s (bits v 9 4)) q fun y => { y with
          qcfg := w, pos := 0, phase := true, run := true }) q
      else modQueue s q fun y => { y with qcfg := w })

/-- JOB_CONFIG_WRITE: effective only while the job has no resident bond and no enabled queue (R461). -/
def execJobConfigWrite (j : Nat) (ptroot fhvec smvec tvec : W64) (s : State) : Host.Outcome State Fault Refusal :=
  .next (
    if s.bonds.any (fun e => e.2.job == j) || s.queues.any (fun e => queueJob e.2 == j && queueEn e.2) then s
    else modJob s j fun x => { x with cfgPtroot := ptroot, cfgFhvec := fhvec, cfgSmvec := smvec, cfgTvec := tvec })

end Sys2Proof.Machine
end

