-- ==== Sys2Proof/Machine/Partition.lean ====
section
/-!
DEFINITION. Partitions: assignment (R423), halt and save (R424 to R427, R430), restore (R428), teardown (R474), and
control-state errors that kill a job (R422).
-/
namespace Sys2Proof.Machine

/-! ## Whose core it is -/

def partCores (s : State) (part : Nat) : List CoreId :=
  (s.cores.map fun e => e.1).filter fun c => (partOf s part).clusters.contains (clusterIdx c)

def holdsCore (s : State) (part : Nat) (c : CoreId) : Bool := (partOf s part).clusters.contains (clusterIdx c)

/-- A packet bound for a core or mailbox of a partition. -/
def packetFor (s : State) (part : Nat) (p : Packet) : Bool := holdsCore s part (packetCore p.body)

/-! ## PARTITION_ASSIGN (R423, R471) -/

/-- The stacks that a range of physical addresses reaches (R287). -/
def rangeStacks (base size : Nat) : List Nat :=
  (List.range ((base + size - 1) / 2 ^ 36 + 1)).filter fun k =>
    decide (base / 2 ^ 36 ≤ k) && overlaps base size (k * 2 ^ 36) (48 * 2 ^ 30)

/-- Whether a window of up to 2^40 bytes begins and ends in a partition's stack memory and reaches no other's (R471). -/
def windowOk (memStacks : List Nat) (base size : Nat) : Bool :=
  decide (0 < size) && decide (size ≤ 2 ^ 40) && paValid base && paValid (base + size - 1)
  && (rangeStacks base size).all memStacks.contains

/-- Whether a partition can have what is assigned: it is free, and no other partition holds any of it. -/
def assignable (s : State) (part : Nat) (clusters memStacks keys : List Nat) (window : Option (Nat × Nat)) : Bool :=
  let others := (s.parts.filter fun e => e.1 != part).map fun e => e.2
  decide (part < 320) && s.dev.ready && (partOf s part).phase == .free && !clusters.isEmpty
  && clusters.all (fun x => decide (x < 320) && !others.any fun p => p.clusters.contains x)
  && memStacks.all (fun x => decide (x < 12) && !others.any fun p => p.memStacks.contains x)
  && keys.all (fun x => decide (x < 1024) && !others.any fun p => p.keys.contains x)
  && window.all fun w => windowOk memStacks w.1 w.2

/-- Each key assigned is a binding of its own (R473). -/
def bindKeys (s : State) (keys : List Nat) : State :=
  keys.foldl (fun s k => { s with keyInst := mapSet k s.nextSeq s.keyInst, nextSeq := s.nextSeq + 1 }) s

/-- Measurement register i extended (R476). -/
def extendMeasure (s : State) (i : Fin 8) (v : Nat) : State :=
  { s with dev := { s.dev with measures := s.dev.measures.set i (Config.extend s.dev.measures[i] v) } }

/-- Numbers below 2^48 as one number, told apart from every other list of them. -/
def numberOf (l : List Nat) : Nat := l.foldl (fun n x => n * 2 ^ 48 + x) 1

/-- A partition's layout as the number that is measured (R476; log 114). -/
def layoutNumber (part : Nat) (clusters memStacks keys : List Nat) (window : Option (Nat × Nat)) : Nat :=
  numberOf ([part, clusters.length] ++ clusters ++ [memStacks.length] ++ memStacks ++ [keys.length] ++ keys
    ++ (match window with | some (base, size) => [base, size] | none => []))

def execPartitionAssign (part : Nat) (clusters memStacks keys : List Nat) (window : Option (Nat × Nat)) (s : State) :
    Host.Outcome State Fault Refusal :=
  .next (if !assignable s part clusters memStacks keys window then s
    else
      let s := modPart s part fun _ => { Partition.free with
        phase := .saved, job := 64, clusters := clusters.foldl (fun l x => setAdd x l) [], memStacks := memStacks
        keys := keys, window := window }
      let s := clusters.foldl (fun s cl => modCluster s cl fun l => { l with part := some part }) s
      extendMeasure (bindKeys s keys) 2 (layoutNumber part clusters memStacks keys window))

/-! ## The halt (R424, R425) -/

/-- TIME_SLICE_EXPIRY: the switch of a running partition begins: its queues take nothing further, and the scheduler
places nothing. -/
def execTimeSliceExpiry (part : Nat) (s : State) : Host.Outcome State Fault Refusal :=
  .next (if (partOf s part).phase = .running then modPart s part fun p => { p with phase := .draining } else s)

/-- Whether a numbered exchange context belongs to a partition. -/
def exchangeFor (part c : Nat) : Bool := c / 32 == part

/-- Whether every action of the packets that a partition's queues have dispatched is done (R430): a COPY may be checkpointed
(R452), but not between its last landing and its advance of the timeline. -/
def queuesQuiet (s : State) (part : Nat) : Bool :=
  !(s.queues.any fun e => queueJob e.2 == (partOf s part).job && (jobOf s (queueJob e.2)).part == some part
    && e.2.taken.any fun t => t.done || (pktType t.packet != 0 && pktType t.packet != 2))
  && !(s.exchange.any fun e => exchangeFor part e.1 && e.2.cmds.any copyWhole)

/-- Whether the halt request has reached the cores. -/
def halting (s : State) (part : Nat) : Bool := (partCores s part).any fun c => (coreOf s c).halted

/-- A tile sequencer's component gang is pre-empted at the pulse it has reached, and its cores thaw (R261, R427). -/
def preemptComponent (s : State) (die : Fin 4) (q : Fin 8) : State :=
  let leave := fun (m : SeqCmd) => { m with gang := m.gang.map fun g => { g with placed := false } }
  modDie (leaveComponent s die q) die fun d =>
    { d with seqrs := d.seqrs.set q { d.seqrs[q] with cmds := d.seqrs[q].cmds.map leave } }

/-- The halt request: every core stops issue, every gang that is not final is to thaw, and the component gangs of tile
sequencer commands are pre-empted (R427). -/
def haltCores (s : State) (part : Nat) : State :=
  let s := (s.bonds.filter fun e => e.2.part == part).foldl (fun s e => match e.2.seqr with
    | some (d, q) => preemptComponent s d q
    | none => s) s
  ((partOf s part).clusters.flatMap clusterCores).foldl (fun s c => modCore s c fun k => { k with halted := true }) s

/-- Whether a request in flight keeps a core from being saved: one that is neither withdrawn nor held at its home. -/
def requestOpen (p : Pending) : Bool :=
  !blockLoad p && (answered p || p.rejected || (match p.kind with
    | .presence | .gen _ => false
    | .clear => true
    | .load | .amo _ _ | .cas _ _ | .xchg _ | .famo _ _ _ => p.park == 0))

/-- Whether a strand has a rejected write that waits for its reply (R327). -/
def writeRejected (k : Core) (uid : Nat) : Bool :=
  k.stores.any (fun e => e.uid == uid && e.token.isSome) || k.reds.any fun r => r.uid == uid && r.token.isSome

/-- Whether an instruction of a strand has issued and is still to complete on what its release waits for (R425). -/
def releaseOpen (k : Core) (t : Strand) : Bool :=
  (!t.arriving.isEmpty || (match t.wait with | .release _ _ _ => true | _ => false)) && !writeRejected k t.uid

/-- Whether a core still has something to drain (R194, R424). -/
def coreDraining (k : Core) : Bool :=
  (coreStrands k).any (fun t => t.2.inflight.any requestOpen || releaseOpen k t.2)
  || k.stores.any (fun e => e.token.isNone) || k.reds.any (fun r => r.token.isNone)
  || k.tickets.toList.any (fun t => t.busy && !gangFinal t.state) || k.frozen.isSome || k.claimed.isSome
  || k.streams.toList.any fun st => sdWrite st.desc && !st.buf.isEmpty && st.token.isNone

/-- Whether every gang of a halted partition is final and every component of a tile sequencer has left its cores: step 3 of
R424 is done. -/
def gangsThawed (s : State) (part : Nat) : Bool :=
  (partCores s part).all fun c =>
    let k := coreOf s c
    k.frozen.isNone && k.claimed.isNone && !k.tickets.toList.any fun t => t.busy && !gangFinal t.state

/-- Whether the drain of a halted partition is done: steps 3 and 4 of R424. -/
def drainDone (s : State) (part : Nat) : Bool :=
  !(partCores s part).any (fun c => coreDraining (coreOf s c))
  && !(s.flash.any fun f => if f.ch = 2 then exchangeFor part f.core else holdsCore s part f.core)
  && s.dies.toList.all (fun d => !d.shadows.any fun u => u.part == part)
  && !(s.net.any fun p => packetFor s part p && !p.refused && (match p.body with | .fault _ _ => true | _ => false))
  && queuesQuiet s part

/-- A strand as it is saved (R425): what it had not issued, or waits for at a word, is withdrawn and runs again. -/
def saveStrand (t : Strand) : Strand :=
  let t := { t with inflight := t.inflight.filter fun p => !blockLoad p }
  match t.wait with
  | .notReady | .walk _ _ _ | .withheld _ | .widen _ | .tuntil _ => { t with wait := .none }
  | .answer => { t with wait := .none, inflight := t.inflight.filter fun p => !p.blocking }
  | .none | .barrier _ _ | .sleep _ _ | .reply _ _ _ | .release _ _ _ => t

/-- The position f of a copy: below it every element is written or left out. -/
def copyPosition (m : CopyCmd) : Nat :=
  ((List.range (cdWords m.words)).filter (wordOpen m)).foldl (fun n w => Nat.min n (openPosition m w))
    (cdEsz m.words * cdTotal m.words)

/-- A running copy records its position f: what lies below it is done for good, and what the copy wrote above f is read and
written again (R427). -/
def saveCopy (m : CopyCmd) : CopyCmd :=
  match m.phase with
  | .running | .faulted _ _ =>
    { m with first := copyPosition m / cdEsz m.words, landed := [], held := [], pins := [] }
  | .sent | .refused _ | .accepted | .finished => m

def saveChannel (x : Channel) : Channel := { x with cmds := x.cmds.map saveCopy }

/-- A core as it is saved (R194, R426, R427). -/
def saveCore (k : Core) : Core :=
  { k with
    slots := k.slots.map saveStrand
    streams := k.streams.map fun st => if sdWrite st.desc || st.token.isSome then st else dropBuffer st
    chans := k.chans.map saveChannel }

/-- What stays with the hardware of a core when a context leaves it or enters. -/
def swapCore (hw ctx : Core) : Core :=
  { ctx with
    ecccnt := hw.ecccnt
    itlb := hw.itlb
    dtlb := hw.dtlb
    agentSeq := hw.agentSeq
    last0 := hw.last0
    last1 := hw.last1
    run := hw.run }

/-- The entries that bound read streams of a partition's cores have placed are withdrawn (R186, R194). -/
def withdrawAll (s : State) (part : Nat) : State :=
  (partCores s part).foldl (fun s c => (List.finRange 4).foldl (fun s n => withdraw s c n) s) s

/-- The context of a partition's job. -/
def savedContext (s : State) (part : Nat) : Saved :=
  let p := partOf s part
  { job := p.job
    cores := (s.cores.filter fun e => holdsCore s part e.1).map fun e => (e.1, saveCore e.2)
    clusters := s.clusters.filter fun e => p.clusters.contains e.1
    bonds := s.bonds.filter fun e => e.2.part == part
    norms := p.norms
    nactl := p.nactl
    queue := p.units
    net := s.net.filter (packetFor s part)
    exchange := (s.exchange.filter fun e => exchangeFor part e.1).map fun e => (e.1, saveChannel e.2)
    struck := [] }

/-- The cores of a partition hold no context: their slots are free. -/
def emptyCores (s : State) (part : Nat) : State :=
  { s with
    cores := s.cores.map fun e =>
      if holdsCore s part e.1 then (e.1, { swapCore e.2 Core.reset with halted := true }) else e
    clusters := s.clusters.map fun e =>
      if (partOf s part).clusters.contains e.1 then
        (e.1, { e.2 with fhvec := 0, mailbox := [], since := 0, bond := none }) else e
    bonds := s.bonds.filter fun e => e.2.part != part
    net := s.net.filter fun p => !packetFor s part p
    exchange := s.exchange.filter fun e => !exchangeFor part e.1 }

/-- The save (R424, steps 5 and 6). -/
def savePartition (s : State) (part : Nat) : State :=
  let s := withdrawAll s part
  let x := savedContext s part
  modPart (emptyCores s part) part fun p => { p with
    phase := .saved
    drain := false
    norms := []
    nactl := []
    units := []
    saved := p.saved.filter (fun y => y.job != x.job) ++ [x] }

/-- The next step of R424 for a partition whose switch or teardown has begun, up to the end of step 4; `done` follows. -/
def haltStep (s : State) (part : Nat) (done : State → State) : State :=
  if !halting s part then (if queuesQuiet s part then haltCores s part else s)
  else if !(partOf s part).drain then
    (if gangsThawed s part then modPart s part fun p => { p with drain := true } else s)
  else if drainDone s part then done s else s

/-- PARTITION_HALT: the halt request once the queues have stopped at a packet boundary, the drain once every gang is final,
the save once all has drained. -/
def execPartitionHalt (part : Nat) (s : State) : Host.Outcome State Fault Refusal :=
  .next (if (partOf s part).phase != .draining then s else haltStep s part fun s => savePartition s part)

/-- A move of a slice's word to stack memory or back, while no job of the partition is on its cores: the partition manager
does so for each job's declared slice footprint, between the save and the restore (R424; log 87). -/
def moveSlice (s : State) (part loc pa : Nat) (out : Bool) : State :=
  let p := partOf s part
  let key := mapGet 0 s.keyInst (p.keys.headD 1024)
  if p.phase != .saved || loc % 8 != 0 || pa % 8 != 0 || !isSlice loc || !holdsCore s part (sliceCore loc)
      || !paValid pa || !p.memStacks.contains (pa / 2 ^ 36) then s
  else
    let (src, dst) := if out then (loc, pa) else (pa, loc)
    let h := homeWord s src key
    let s := homeWrite s dst key 0xFF h.1 none
    if h.2 then poisonWord s dst else s

/-! ## The restore (R428, R430) -/

/-- A core that resumes with its context. -/
def restoreCore (s : State) (e : CoreId × Core) : State :=
  modCore s e.1 fun hw => { swapCore hw e.2 with halted := false }

/-- Requests that waited at their homes are tried again. -/
def retryParked (s : State) (cs : List CoreId) : State :=
  (cs.flatMap fun c => (coreStrands (coreOf s c)).flatMap fun t =>
      t.2.inflight.filterMap fun p => if p.park = 0 then none else some (c, t.1, p.seq)).foldl
    (fun s x => retryReq s x.1 x.2.1 x.2.2) s

/-- Replies held for agents of the job take effect, and so do the walks that were due (R430). -/
def applyHeld (s : State) (part : Nat) : State :=
  let p := partOf s part
  let mine := p.held.filter fun x => (agentOf s x.1).isSome
  let s := modPart s part fun q => { q with
    held := p.held.filter fun x => (agentOf s x.1).isNone
    walks := p.walks.filter fun x => x.1 != p.job }
  let s := mine.foldl (fun s x => reply s (some part) x.1 (actOf x.2)) s
  (p.walks.filter fun x => x.1 == p.job).foldl (fun s x => walk s x.2 none) s

/-- The saved context of a job in a partition; a job that has none starts with empty cores. -/
def contextFor (s : State) (part job : Nat) : Saved :=
  ((partOf s part).saved.find? fun y => y.job == job).getD ⟨job, [], [], [], [], [], [], [], [], []⟩

/-- A context enters the partition that held none. -/
def restoreContext (s : State) (part job : Nat) (x : Saved) : State :=
  let s := modJob s job fun j => { j with part := some part }
  let s := modPart s part fun p => { p with
    phase := .running, job := job, swapcnt := p.swapcnt + 1, units := x.queue, norms := x.norms, nactl := x.nactl
    saved := p.saved.filter fun y => y.job != job }
  let s := (partCores s part).foldl (fun s c => modCore s c fun k => { k with halted := false }) s
  let s := x.cores.foldl restoreCore s
  let s := x.clusters.foldl (fun s e => modCluster s e.1 fun l => { l with
    fhvec := e.2.fhvec, mailbox := e.2.mailbox, since := s.ticks, bond := e.2.bond }) s
  let s : State := { s with
    bonds := x.bonds.foldl (fun m e => mapSet e.1 e.2 m) s.bonds
    net := s.net ++ x.net
    exchange := x.exchange.foldl (fun m e => mapSet e.1 e.2 m) s.exchange }
  let s := applyHeld (retryParked s (x.cores.map fun e => e.1)) part
  (s.queues.filter fun e => queueJob e.2 == job).foldl (fun s e => fetchPacket s e.1) s

/-- The incoming job resumes with its context. A word of control state that comes back from the shadow store poisoned
kills the job (R422; log 118). -/
def restorePartition (s : State) (part job : Nat) : State :=
  let x := contextFor s part job
  let t := restoreContext s part job x
  if x.struck.isEmpty then t else killJob t job 0x0D

/-- PARTITION_RESTORE: the cores resume together and SWAPCNT advances. -/
def execPartitionRestore (part job : Nat) (s : State) : Host.Outcome State Fault Refusal :=
  let j := jobOf s job
  .next (if (partOf s part).phase != .saved || decide (job ≥ 64) || j.killed || !(j.part == none || j.part == some part)
    then s else restorePartition s part job)

/-! ## PARTITION_TEARDOWN (R474) -/

/-- The bytes, poison and presence bits of a partition's slices are zero. -/
def zeroSlices (s : State) (part : Nat) : State :=
  let mine := fun (loc : Nat) => isSlice loc && holdsCore s part (sliceCore loc)
  { s with
    mem := s.mem.filter fun e => !mine e.1
    poison := s.poison.filter fun w => !mine (8 * w)
    present := s.present.filter fun w => !mine (8 * w)
    tags := s.tags.filter fun t => !mine t.word
    misses := s.misses.filter fun m => !mine m.word }

/-- Whether any TLB still holds an entry under a lease. -/
def leaseUsed (s : State) (l : Lease) : Bool :=
  let has := fun (t : List TlbEntry) => t.any fun e => e.lease == some l
  s.cores.any (fun e => has e.2.itlb || has e.2.dtlb) || s.clusters.any (fun e => has e.2.tlb)
  || s.dies.toList.any fun d => has d.tlb

/-- The TLB entries filled for a partition go, and the leases that no entry uses. -/
def dropPartTlb (s : State) (part : Nat) : State :=
  let keep := fun (t : List TlbEntry) => t.filter fun e => e.part != part
  let s : State := { s with
    cores := s.cores.map fun e => (e.1, { e.2 with itlb := keep e.2.itlb, dtlb := keep e.2.dtlb })
    clusters := s.clusters.map fun e => (e.1, { e.2 with tlb := keep e.2.tlb })
    dies := s.dies.map fun d => { d with tlb := keep d.tlb } }
  { s with leases := s.leases.filter (leaseUsed s), exports := s.exports.filter fun e => e.part != part }

/-- The tile sequencers that a partition's bonds held last have their counters at 0 again (R335, R474). -/
def zeroSeqrs (s : State) (part : Nat) : State :=
  let zero := fun (x : Sequencer) => if x.part = some part then ⟨x.bond, Timeline.zero, [], none⟩ else x
  { s with dies := s.dies.map fun d => { d with seqrs := d.seqrs.map zero } }

/-- The packets that a job's queues have taken complete: its COPY commands are cancelled, and nothing else of them is left
(R468). -/
def completeJob (s : State) (part j : Nat) : State :=
  let copies := (s.exchange.filter fun e => exchangeFor part e.1).flatMap fun e => (e.2.cmds.filter fun m =>
    m.job == j && m.phase != .finished).map fun m => (e.1, m.n)
  let s := copies.foldl (fun s e => finishCopy s e.1 2 e.2 0x11) s
  (s.queues.flatMap fun e => e.2.taken.map fun t => (e.1, t)).foldl
    (fun s e => if e.2.job = j then completePacket e.1 s e.2 else s) s

/-- Steps 1 to 4 of R474 on a partition whose cores are halted and drained, or hold no context. -/
def tearDown (s : State) (part : Nat) : State :=
  let jobs := (s.jobs.filter fun e => e.2.part == some part).map fun e => e.1
  let s := jobs.foldl (fun s j => completeJob (killJob s j (Config.teardownCause s.freeCtr)) part j) s
  let s := dropTags s fun t => holdsCore s part t.core
  let s := zeroSeqrs (dropPartTlb (zeroSlices s part) part) part
  let s : State := { s with
    cores := s.cores.map fun e => if holdsCore s part e.1 then (e.1, swapCore e.2 Core.reset) else e
    clusters := s.clusters.filter fun e => !(partOf s part).clusters.contains e.1
    net := s.net.filter fun p => !packetFor s part p
    exchange := s.exchange.filter fun e => !exchangeFor part e.1
    keyInst := s.keyInst.filter fun e => !(partOf s part).keys.contains e.1
    asked := s.asked.filter fun m => !holdsCore s part m.core }
  let s := jobs.foldl (fun s j => modJob s j fun x => { x with timelines := [], part := none }) s
  { s with parts := mapErase part s.parts }

/-- PARTITION_TEARDOWN: the queues stop and the cores halt as in R424, then the rest in one step. -/
def execPartitionTeardown (part : Nat) (s : State) : Host.Outcome State Fault Refusal :=
  .next (match (partOf s part).phase with
  | .free => s
  | .running => modPart s part fun p => { p with phase := .draining }
  | .draining => haltStep s part fun s => tearDown s part
  | .saved => tearDown s part)

end Sys2Proof.Machine
end

