-- ==== Sys2Proof/Machine/Device.lean ====
section
/-!
DEFINITION. Plumb time (R444 to R446), the host's and the peers' accesses (R459, R460, R470, R471), firmware, security,
power, bring-up and reset (R422, R475 to R479).
-/
namespace Sys2Proof.Machine

/-! ## Plumb time (R217, R444, R445, R446) -/

/-- Timed FAN starts whose tick has come on their core's die. -/
def startFans (s : State) : State :=
  ((s.cores.filter fun e => !e.2.inbound.isEmpty).map fun e => e.1).foldl (fun s c => fanOnTick c 8 s) s

/-- Copy commands that wait for a tick: channel and number. -/
def timedCopies (s : State) : List (CoreId × Fin 3 × Nat) :=
  let wait := fun (c : CoreId) (ch : Fin 3) (x : Channel) =>
    (x.cmds.filter fun m => m.phase == .accepted).map fun m => (c, ch, m.n)
  s.cores.flatMap (fun e => wait e.1 0 e.2.chans[0] ++ wait e.1 1 e.2.chans[1])
  ++ s.exchange.flatMap fun e => wait e.1 2 e.2

/-- Timed copies whose tick has come begin (R346, R450). -/
def startCopies (s : State) : State := (timedCopies s).foldl (fun s e => startCopy s e.1 e.2.1 e.2.2) s

/-- Each copy of plumb time moved on, and what starts on its tick. -/
def advancePlumb (s : State) (by_ : Fin 6 → Nat) : State :=
  startCopies (startFans { s with plumb := Vector.ofFn fun i => s.plumb[i] + BitVec.ofNat 64 (by_ i) })

/-- The flags raised in the cycle that ends are no longer told apart (R21). -/
def forgetRaised (s : State) : State :=
  { s with clusters := s.clusters.map fun e => (e.1, { e.2 with raised := [] }) }

/-- One tick: every copy advances by 1. -/
def tick (s : State) : State :=
  closeCtxs (forgetRaised (noteMet (advancePlumb { s with ticks := s.ticks + 1 } fun _ => 1)))

/-- Whether all copies agree within 1 after they move by the given amounts (R444). -/
def plumbAgrees (s : State) (by_ : Fin 6 → Nat) : Bool :=
  (List.finRange 6).all fun i => (List.finRange 6).all fun j =>
    decide (s.plumb[i].toNat + by_ i ≤ s.plumb[j].toNat + by_ j + 1)

/-- PTP_MESSAGE: a copy withholds one advance or adds one, at most once in 10,000 ticks. -/
def execPtpMessage (slow fast : BitVec 6) (err : W32) (s : State) : Host.Outcome State Fault Refusal :=
  let by_ : Fin 6 → Nat := fun i =>
    (if slow != 0 && !bit slow i.val then 1 else 0) + (if bit fast i.val then 1 else 0)
  let moved : Fin 6 → Bool := fun i => bit slow i.val || bit fast i.val
  let rested := (List.finRange 6).all fun i => !moved i || s.slewed[i] == 0 || decide (s.slewed[i] + 9999 ≤ s.ticks)
  .next (
    if slow &&& fast ≠ 0 ∨ ¬ rested ∨ ¬ plumbAgrees s by_ then s
    else
      let s : State := { s with
        ticks := if slow = 0 then s.ticks else s.ticks + 1
        slewed := Vector.ofFn fun i => if moved i then s.ticks + 1 else s.slewed[i]
        dev := { s.dev with sync := true, hold := false, perr := err } }
      noteMet (advancePlumb s by_))

/-- SYNCHRONISATION_LOST (R446). -/
def execSynchronisationLost (s : State) : Host.Outcome State Fault Refusal :=
  .next (if s.dev.sync then { s with dev := { s.dev with sync := false, hold := true } } else s)

/-! ## Bring-up (R479) -/

/-- What a reset leaves: everything outside the device, and the model's own counter and choices. -/
def lostState (s : State) : State :=
  { State.reset with
    turns := s.turns
    freeCtr := s.freeCtr
    mem := s.mem.filter fun e => nodeOf e.1 != 0
    dev := { Device.reset with
      powered := s.dev.powered
      ready := false
      recovery := s.dev.recovery
      image := s.dev.image
      fuses := s.dev.fuses
      alarm := s.dev.alarm
      shut := s.dev.shut
      node := s.dev.node } }

/-- Steps 3 to 8 of R479; in recovery the device goes no further. -/
def bringUp (s : State) : State :=
  let s := lostState s
  if s.dev.recovery || s.dev.alarm.isSome || s.dev.shut || !s.dev.powered then s
  else
    let s := extendMeasure (extendMeasure s 0 s.dev.image) 1 (Config.configuration s.freeCtr)
    { s with dev := { s.dev with ready := true } }

/-- DEVICE_RESET. -/
def execDeviceReset (s : State) : Host.Outcome State Fault Refusal := .next (bringUp s)

/-- POWER_ON: a power cycle ends an alarm and a shutdown. -/
def execPowerOn (s : State) : Host.Outcome State Fault Refusal :=
  .next (bringUp { s with dev := { s.dev with powered := true, shut := false, alarm := none } })

/-- FIRMWARE_IMAGE (R475): accepted with a valid signature and a security version of at least the 64 fuses' count. -/
def execFirmwareImage (image version : Nat) (s : State) : Host.Outcome State Fault Refusal :=
  .next (
    if !s.dev.powered || s.dev.alarm.isSome then s
    else if Config.imageSigned image && decide (s.dev.fuses ≤ version) && decide (version ≤ 64) then
      bringUp { s with dev := { s.dev with image := image, fuses := version, recovery := false } }
    else lostState { s with dev := { s.dev with recovery := true } })

/-- ATTESTATION_REQUEST (R476). -/
def execAttestationRequest (nonce : Nat) (s : State) : Host.Outcome State Fault Refusal :=
  .next { s with dev := { s.dev with report := some (nonce, Config.signReport nonce s.dev.measures) } }

/-- SECURITY_ALARM (R477): the keys go, and the device is held in reset; what the stacks hold stays, unreadable. -/
def execSecurityAlarm (cause : AlarmCause) (s : State) : Host.Outcome State Fault Refusal :=
  .next (
    if !s.dev.powered || s.dev.alarm.isSome then s
    else { lostState { s with dev := { s.dev with alarm := some cause } } with
      mem := s.mem.filter fun e => !isSlice e.1
      lineKey := s.lineKey })

/-- THERMAL_THROTTLE and THERMAL_SHUTDOWN (R478). -/
def execThermalThrottle (s : State) : Host.Outcome State Fault Refusal :=
  .next { s with dev := { s.dev with throttled := true } }
def execThermalShutdown (s : State) : Host.Outcome State Fault Refusal :=
  .next (lostState { s with dev := { s.dev with powered := false, shut := true } })

/-- POWER_LIMIT_SET (R478). -/
def execPowerLimitSet (watts : Nat) (s : State) : Host.Outcome State Fault Refusal :=
  .next (if 800 ≤ watts ∧ watts ≤ 2000 then { s with dev := { s.dev with powerLimit := watts } } else s)

/-- PRIMARY_PORT_DOWN (R459). -/
def execPrimaryPortDown (down : Bool) (s : State) : Host.Outcome State Fault Refusal :=
  .next { s with dev := { s.dev with primaryDown := down } }

/-- CONTROL_STATE_ERROR (R422). -/
def execControlStateError (owner : ErrOwner) (s : State) : Host.Outcome State Fault Refusal :=
  .next (match owner with
  | .job j => killJob s j 0x0D
  | .unknown => bringUp s)

/-! ## The host (R459, R460, R462) -/

/-- HOST_REGISTER_WRITE. -/
def execHostRegisterWrite (r : HostReg) (v : W64) (s : State) : Host.Outcome State Fault Refusal :=
  .next (match r with
  | .qbase q => if queueEn (queueOf s q) then s else modQueue s q fun x => { x with qbase := v }
  | .qstat q => modQueue s q fun x => { x with err := x.err && !bit v 1, bkill := x.bkill && !bit v 32 }
  | .resetDevice => bringUp s)

/-- A write of 8 bytes at an offset of BAR0 (R460 to R462): of a queue's register, or of a word of a job's configuration
record; the spec gives no offsets within the device block. -/
def bar0Write (off : Nat) (v : W64) (s : State) : Host.Outcome State Fault Refusal :=
  if 0x100000 ≤ off ∧ off < 0x110000 then
    let q := (off - 0x100000) / 64
    match (off - 0x100000) % 64 with
    | 0 => execHostRegisterWrite (.qbase q) v s
    | 8 => execQcfgWrite q v s
    | 24 => execHostRegisterWrite (.qstat q) v s
    | 32 => execQdbWrite q s
    | _ => .next s
  else if 0x300000 ≤ off ∧ off < 0x301000 then
    let j := (off - 0x300000) / 64
    let x := jobOf s j
    match (off - 0x300000) % 64 with
    | 0 => execJobConfigWrite j v x.cfgFhvec x.cfgSmvec x.cfgTvec s
    | 8 => execJobConfigWrite j x.cfgPtroot v x.cfgSmvec x.cfgTvec s
    | 16 => execJobConfigWrite j x.cfgPtroot x.cfgFhvec v x.cfgTvec s
    | 24 => execJobConfigWrite j x.cfgPtroot x.cfgFhvec x.cfgSmvec v s
    | _ => .next s
  else .next s

/-- The registers of a queue as the host reads them (R462). -/
def queueRead (x : Queue) : Nat → Option W64
  | 0 => some x.qbase
  | 8 => some x.qcfg
  | 16 => some (BitVec.ofNat 64 (x.pos + (if x.phase then 65536 else 0)))
  | 24 => some (boolW x.run + 2 * boolW x.err + (x.cause.setWidth 64 <<< 8) + (x.epos.setWidth 64 <<< 16)
      + (boolW x.bkill <<< 32) + (x.bcause.setWidth 64 <<< 40) + (x.bpos.setWidth 64 <<< 48))
  | _ => none

/-- What the host reads at an offset of BAR0 (R460 to R462): the identity, a queue's registers, the view of a software
timeline, a job's configuration record. -/
def bar0Read (s : State) (off : Nat) : Option W64 :=
  if off = 0 then some Config.identity
  else if 0x100000 ≤ off ∧ off < 0x110000 then
    queueRead (queueOf s ((off - 0x100000) / 64)) ((off - 0x100000) % 64)
  else if 0x200000 ≤ off ∧ off < 0x280000 ∧ off % 8 = 0 then
    let i := (off - 0x200000) / 8
    some (mapGet 0 (jobOf s (i / 1024)).timelines (i % 1024))
  else if 0x300000 ≤ off ∧ off < 0x301000 then
    let x := jobOf s ((off - 0x300000) / 64)
    match (off - 0x300000) % 64 with
    | 0 => some x.cfgPtroot
    | 8 => some x.cfgFhvec
    | 16 => some x.cfgSmvec
    | 24 => some x.cfgTvec
    | _ => if off % 8 = 0 then some 0 else none
  else none

/-- A word read or written from outside the package: a read of a word that its tag withholds waits there (R302, R315), and an
access to a line that a footing unit holds comes after it (R288). -/
def outsideAccess (s : State) (word key : Nat) (write : Option W64) : State :=
  if footHeld s word then s
  else match write with
  | some v => homeWrite s word key 0xFF v none
  | none => if readable s .outside word then s else parkMiss s .outside word

/-- HOST_MEMORY_ACCESS: 8 bytes through the CXL.mem window. -/
def execHostMemoryAccess (pa : Nat) (write : Option W64) (s : State) : Host.Outcome State Fault Refusal :=
  .next (if paValid pa ∧ pa % 8 = 0 then outsideAccess s pa (hostKey s pa) write else s)

/-! ## Peers (R470, R471) -/

/-- Whether a lease that this device has granted covers 8 bytes at an offset of a partition's window for a peer's access under
an epoch (R298, R299). -/
def exported (s : State) (part : Nat) (peer : Lessee) (off : Nat) (write : Bool) : Bool :=
  s.exports.any fun x => x.part == part && x.node == peer.node && x.epoch == peer.epoch && (if write then x.wr else x.rd)
    && decide (x.first ≤ off) && decide (off + 8 ≤ x.first + x.size)

/-- PEER_ACCESS: under a lease of the exporting partition and its key, within its window; any other is rejected. -/
def execPeerAccess (part : Nat) (peer : Lessee) (off : Nat) (write : Option W64) (s : State) :
    Host.Outcome State Fault Refusal :=
  let p := partOf s part
  let node := peer.node
  .next (match p.window with
  | none => s
  | some (base, size) =>
    if off % 8 ≠ 0 ∨ base % 8 ≠ 0 ∨ off + 8 > size ∨ ¬ paValid (base + off) ∨ node = 0 ∨ node ≥ 0xFE
        ∨ node = s.dev.node.toNat ∨ nodeDown s node ∨ ¬ exported s part peer off write.isSome then s
    else outsideAccess s (base + off) (mapGet 0 s.keyInst (p.keys.headD 1024)) write)

/-- The firmware grants a peer a lease on bytes of an exported window, each epoch once, or ends one (R298, R299, R471). -/
def exportLease (s : State) (x : Export) (on : Bool) : State :=
  if !on then { s with exports := s.exports.filter fun y => y != x }
  else match (partOf s x.part).window with
    | some (_, size) =>
      if x.first + x.size ≤ size ∧ 1 ≤ x.node ∧ x.node < 0xFE then { s with exports := s.exports ++ [x] } else s
    | none => s

/-- The firmware assigns the device a node number 1 to 0xFD (R471). -/
def assignNode (s : State) (n : Byte) : State :=
  if n = 0 ∨ n.toNat ≥ 0xFE then s else { s with dev := { s.dev with node := n } }

/-- A path that has carried nothing yet. -/
def freshPath : Path := ⟨0, 0, false⟩

/-- USTIS_FRAME: an arriving frame is acknowledged, counts once, and shows that the path is up. -/
def execUstisFrame (node seq : Nat) (s : State) : Host.Outcome State Fault Refusal :=
  let x := mapGet freshPath s.paths node
  .next (if node = 0 ∨ node ≥ 0xFE then s
    else { s with paths := mapSet node ⟨if seq = x.rx then x.rx + 1 else x.rx, 0, false⟩ s.paths })

/-- USTIS_RETRANSMIT_TIMEOUT: the frame is sent again; once seven retransmissions have failed the peer is unreachable. -/
def execUstisRetransmitTimeout (node : Nat) (s : State) : Host.Outcome State Fault Refusal :=
  let x := mapGet freshPath s.paths node
  .next (if node = 0 ∨ node ≥ 0xFE then s
    else if x.retries < 7 then { s with paths := mapSet node { x with retries := x.retries + 1 } s.paths }
    else { s with paths := mapSet node { x with down := true } s.paths })

end Sys2Proof.Machine
end

