-- ==== Sys2Proof/Machine/Est.lean ====
section
/-!
DEFINITION. The estimates VEXP2, VLOG2, VRCP, VRSQ and VTANH (R158): each exact function value rounded once to nearest
even. The irrational values are enclosed between two integers over 2^w, and w doubles until both ends round alike.
-/
namespace Sys2Proof.Machine

/-- Bounds, below and above, of a real number in units of 2^(−w). -/
abbrev Encl := Nat × Nat

/-- Σ over j < k of z^(2j+1) ÷ (2j+1) for z = a ÷ b ≤ 1/3, from below: `p` is the running power. -/
def atanhLow (a b w : Nat) : Nat → Nat → Nat → Nat
  | 0, _, _ => 0
  | k + 1, j, p => p / (2 * j + 1) + atanhLow a b w k (j + 1) (p * a / b * a / b)

/-- The same from above, with the tail bounded by the next power. -/
def atanhHigh (a b w : Nat) : Nat → Nat → Nat → Nat
  | 0, _, p => 2 * p + 1
  | k + 1, j, p => p / (2 * j + 1) + 1 + atanhHigh a b w k (j + 1) (p * (a * a) / (b * b) + 1)

/-- 2 × atanh(a ÷ b) = ln((b + a) ÷ (b − a)). -/
def lnRatio (a b w : Nat) : Encl :=
  let p := 2 ^ w * a
  (2 * atanhLow a b w (w / 3 + 2) 0 (p / b), 2 * atanhHigh a b w (w / 3 + 2) 0 (p / b + 1))

/-- ln 2. -/
def ln2Encl (w : Nat) : Encl := lnRatio 1 3 w

/-- Σ over j < k of y^j ÷ j! from below and above, for 0 ≤ y < 1 in units of 2^(−w). -/
def expLow (y w : Nat) : Nat → Nat → Nat → Nat
  | 0, _, _ => 0
  | k + 1, j, t => t + expLow y w k (j + 1) (t * y / (2 ^ w * (j + 1)))
def expHigh (y w : Nat) : Nat → Nat → Nat → Nat
  | 0, _, t => 2 * t + 2
  | k + 1, j, t => t + expHigh y w k (j + 1) (t * y / (2 ^ w * (j + 1)) + 1)

/-- e^y for y between the bounds, below 1. -/
def expEncl (y : Encl) (w : Nat) : Encl :=
  (expLow y.1 w (w / 2 + 4) 0 (2 ^ w), expHigh y.2 w (w / 2 + 4) 0 (2 ^ w))

/-- n × 2^e in units of 2^(−w), below and above. -/
def fixEncl (n : Nat) (e : Int) (w : Nat) : Encl :=
  let r := scaleDown n e (-(w : Int)) false
  (r.1, if r.2 = .zero then r.1 else r.1 + 1)

/-- 2^x for x = ± n × 2^e not an integer, |x| < 2^12: the bounds and the exponent of their unit. -/
def exp2Encl (neg : Bool) (n : Nat) (e : Int) (w : Nat) : Encl × Int :=
  let x := fixEncl n e w
  let one := 2 ^ w
  -- x = k + f with 0 ≤ f < 1
  let k : Int := if neg then -((x.1 / one : Nat) : Int) - 1 else ((x.1 / one : Nat) : Int)
  let f : Encl := if neg then ((x.1 / one + 1) * one - x.2, (x.1 / one + 1) * one - x.1)
    else (x.1 % one, x.2 - x.1 / one * one)
  let l := ln2Encl w
  let y : Encl := (f.1 * l.1 / one, f.2 * l.2 / one + 1)
  (expEncl y w, k - w)

/-- log₂ of n × 2^e, not a power of two: sign, bounds and exponent of the unit. -/
def log2Encl (n : Nat) (e : Int) (w : Nat) : Bool × Encl × Int :=
  let b := bitLen n
  -- n × 2^e = m × 2^k with 1 ≤ m < 2, m = n ÷ 2^(b−1)
  let k : Int := e + (b : Int) - 1
  let d := 2 ^ (b - 1)
  let lm := lnRatio (n - d) (n + d) w
  let l := ln2Encl w
  let one := 2 ^ w
  let q : Encl := (lm.1 * one / l.2, lm.2 * one / l.1 + 1)
  if 0 ≤ k then (false, (k.toNat * one + q.1, k.toNat * one + q.2), -(w : Int))
  else (true, (k.natAbs * one - q.2, k.natAbs * one - q.1), -(w : Int))

/-- tanh of n × 2^e, between 2^(−14) and 32: 1 − 2 ÷ (e^(2x) + 1). -/
def tanhEncl (n : Nat) (e : Int) (w : Nat) : Encl × Int :=
  let one := 2 ^ w
  let x := fixEncl n (e + 1) w
  let l := ln2Encl w
  let j := x.1 / l.2
  let r : Encl := (x.1 - j * l.2, x.2 - j * l.1)
  let ex := expEncl r w
  let d : Encl := (ex.1 * 2 ^ j + one, ex.2 * 2 ^ j + one)
  ((one - (2 * one * one / d.1 + 1), one - 2 * one * one / d.2), -(w : Int))

/-- The common rounding of every value strictly between the bounds, with doubling precision. -/
def roundEncl (f : Fmt) (g : Nat → Bool × Encl × Int) : Nat → Nat → Nat × Flags
  | 0, w => let r := g w; roundFin f .rne r.1 r.2.1.1 r.2.2 true
  | k + 1, w =>
    let r := g w
    let a := roundFin f .rne r.1 r.2.1.1 r.2.2 true
    let b := roundFin f .rne r.1 (r.2.1.2 - 1) r.2.2 true
    if a = b then a else roundEncl f g k (2 * w)

/-- Whether n × 2^e is an integer. -/
def isInteger (n : Nat) (e : Int) : Bool := decide (0 ≤ e) || n % 2 ^ e.natAbs == 0

def estExp2 (f : Fmt) (a : Num) : Nat × Flags :=
  match a with
  | .nan _ => finishFp f .rne (nanOf [a])
  | .inf s => if s then (0, 0) else infCode f false
  | .fin s n e _ =>
    if n = 0 then roundFin f .rne false 1 0 false
    else if (bitLen n : Int) + e > 12 then
      -- |x| ≥ 2^12 is beyond every lane format's range
      (if s then roundFin f .rne false 1 (-8192) true else roundFin f .rne false 1 8192 true)
    else if isInteger n e then
      let k := (scaleDown n e 0 false).1
      roundFin f .rne false 1 (signInt s k) false
    else roundEncl f (fun w => let r := exp2Encl s n e w; (false, r.1, r.2)) 5 128

/-- The exponent k of n × 2^e = 2^k, if it is a power of two. -/
def powerOfTwo (n : Nat) (e : Int) : Option Int :=
  let b := bitLen n
  if n = 2 ^ (b - 1) then some (e + (b : Int) - 1) else none

def estLog2 (f : Fmt) (a : Num) : Nat × Flags :=
  match a with
  | .nan _ => finishFp f .rne (nanOf [a])
  | .inf s => if s then (canonNaN f, fNV) else infCode f false
  | .fin s n e _ =>
    if n = 0 then ((infCode f true).1, fDZ)
    else if s then (canonNaN f, fNV)
    else match powerOfTwo n e with
      | some k => roundTo f .rne (intNum k)
      | none => roundEncl f (log2Encl n e) 5 128

/-- VRCP: 1 ÷ x (R158). -/
def estRcp (f : Fmt) (a : Num) : Nat × Flags := finishFp f .rne (divNum (.fin false 1 0 false) a)

/-- VRSQ: 1 ÷ √x (R158). -/
def estRsq (f : Fmt) (a : Num) : Nat × Flags :=
  match a with
  | .nan _ => finishFp f .rne (nanOf [a])
  | .inf s => if s then (canonNaN f, fNV) else (0, 0)
  | .fin s n e _ =>
    if n = 0 then ((infCode f s).1, fDZ)
    else if s then (canonNaN f, fNV)
    else
      -- √(2^k ÷ n) with k + e even and k far above n's length
      let k : Nat := let b := 300 + bitLen n; if ((b : Int) + e) % 2 = 0 then b else b + 1
      let r := isqrt (2 ^ k / n)
      roundFin f .rne false r (-((k : Int) + e) / 2) (r * r * n != 2 ^ k)

def estTanh (f : Fmt) (a : Num) : Nat × Flags :=
  match a with
  | .nan _ => finishFp f .rne (nanOf [a])
  | .inf s => roundFin f .rne s 1 0 false
  | .fin s n e _ =>
    if n = 0 then (signCode f s 0, 0)
    else if (bitLen n : Int) + e ≤ -14 then
      -- x − x³/3 < tanh x < x: just below x
      roundFin f .rne s (n * 8 - 1) (e - 3) true
    else if (bitLen n : Int) + e > 5 then roundFin f .rne s (2 ^ 40 - 1) (-40) true
    else roundEncl f (fun w => let r := tanhEncl n e w; (s, r.1, r.2)) 5 128

/-- The estimates by name. -/
inductive EstOp where | exp2 | log2 | rcp | rsq | tanh
deriving DecidableEq, Repr

def estimate (op : EstOp) (f : Fmt) (x : Nat) : Nat × Flags :=
  let a := readFp f x
  match op with
  | .exp2 => estExp2 f a | .log2 => estLog2 f a | .rcp => estRcp f a | .rsq => estRsq f a | .tanh => estTanh f a

end Sys2Proof.Machine
end

