-- ==== Sys2Proof/Machine/Float.lean ====
section
/-!
DEFINITION. Scalar floating point, scalar conversions and fixed point (majors 0x28 to 0x2A and 0x2F; R136 to R146,
R164).
-/
namespace Sys2Proof.Machine

/-! ## Operands and results (R136) -/

/-- The code in the low bits of a register. -/
def lowBits (x : W64) (w : Nat) : Nat := x.toNat % 2 ^ w

/-- A result with its flags: the flags first, then the destination (R11, R17). -/
def writeFlagged (s : State) (d : SReg) (x : W64) (fl : Flags) : Except Stop State := do
  let s ← raise s fl
  .ok (writeS s d x)

/-- d ← f(a, b) on codes of width w, zero-extended. -/
def fp2 (p : Pred) (w : Nat) (d a b : SReg) (f : RMode → Nat → Nat → Nat × Flags) (s : State) :
    Host.Outcome State Fault Refusal :=
  compute s (predOn s p) { srcS := [a, b], dstS := [d] } fun s =>
    let r := f (myRm s) (lowBits (readS s a) w) (lowBits (readS s b) w)
    writeFlagged s d (BitVec.ofNat 64 r.1) r.2

/-- d ← f(a) on a code of width w, zero-extended. -/
def fp1 (p : Pred) (w : Nat) (d a : SReg) (f : State → Nat → Nat × Flags) (s : State) :
    Host.Outcome State Fault Refusal :=
  compute s (predOn s p) { srcS := [a], dstS := [d] } fun s =>
    let r := f s (lowBits (readS s a) w)
    writeFlagged s d (BitVec.ofNat 64 r.1) r.2

/-! ## Major 0x28 (R140 to R142) -/

def execFadd (p : Pred) (f : FFmt) (d a b : SReg) (s : State) : Host.Outcome State Fault Refusal :=
  fp2 p f.width d a b (fpAdd (ffmt f)) s
def execFsub (p : Pred) (f : FFmt) (d a b : SReg) (s : State) : Host.Outcome State Fault Refusal :=
  fp2 p f.width d a b (fpSub (ffmt f)) s
def execFmul (p : Pred) (f : FFmt) (d a b : SReg) (s : State) : Host.Outcome State Fault Refusal :=
  fp2 p f.width d a b (fpMul (ffmt f)) s
def execFdiv (p : Pred) (f : FFmt) (d a b : SReg) (s : State) : Host.Outcome State Fault Refusal :=
  fp2 p f.width d a b (fpDiv (ffmt f)) s
def execFsqrt (p : Pred) (f : FFmt) (d a : SReg) (s : State) : Host.Outcome State Fault Refusal :=
  fp1 p f.width d a (fun s x => fpSqrt (ffmt f) (myRm s) x) s
def execFmin (p : Pred) (f : FFmt) (d a b : SReg) (s : State) : Host.Outcome State Fault Refusal :=
  fp2 p f.width d a b (fun _ => fpMin (ffmt f)) s
def execFmax (p : Pred) (f : FFmt) (d a b : SReg) (s : State) : Host.Outcome State Fault Refusal :=
  fp2 p f.width d a b (fun _ => fpMax (ffmt f)) s
def execFsgn (p : Pred) (f : FFmt) (d a b : SReg) (s : State) : Host.Outcome State Fault Refusal :=
  fp2 p f.width d a b (fun _ => fpSgn (ffmt f)) s
def execFcmp (p : Pred) (f : FFmt) (d a b : SReg) (s : State) : Host.Outcome State Fault Refusal :=
  fp2 p f.width d a b (fun _ => fpCmp (ffmt f)) s
def execFclass (p : Pred) (f : FFmt) (d a : SReg) (s : State) : Host.Outcome State Fault Refusal :=
  fp1 p f.width d a (fun _ x => (fpClass (ffmt f) x, 0)) s

/-! ## Major 0x29 (R143) -/

def fmaFmt : FmaFmt → FFmt
  | .fp64 => .fp64 | .fp32 => .fp32

def fp3 (p : Pred) (f : FmaFmt) (d a b c : SReg) (g : Fmt → RMode → Nat → Nat → Nat → Nat × Flags) (s : State) :
    Host.Outcome State Fault Refusal :=
  let w := (fmaFmt f).width
  compute s (predOn s p) { srcS := [a, b, c], dstS := [d] } fun s =>
    let r := g (ffmt (fmaFmt f)) (myRm s) (lowBits (readS s a) w) (lowBits (readS s b) w) (lowBits (readS s c) w)
    writeFlagged s d (BitVec.ofNat 64 r.1) r.2

def execFma (p : Pred) (f : FmaFmt) (d a b c : SReg) (s : State) : Host.Outcome State Fault Refusal :=
  fp3 p f d a b c fpFma s
def execFms (p : Pred) (f : FmaFmt) (d a b c : SReg) (s : State) : Host.Outcome State Fault Refusal :=
  fp3 p f d a b c fpFms s
def execFnma (p : Pred) (f : FmaFmt) (d a b c : SReg) (s : State) : Host.Outcome State Fault Refusal :=
  fp3 p f d a b c fpFnma s

/-! ## Stochastic rounding (R46 to R48) -/

/-- n draws from a generator: the drawn bits in order, and the state after them. -/
def draws : Nat → W64 → List Nat × W64
  | 0, x => ([], x)
  | n + 1, x => let y := srStep x; let r := draws n y; (bits y 15 0 :: r.1, r.2)

/-- The issuing core's generator set (R46). -/
def setSeed (s : State) (x : W64) : State := modCore s s.cur fun k => { k with srseed := x }

/-- A datum converted under .SR or under FCSR.RM (R52). -/
def convertFp (f : Fmt) (rm : RMode) (sr : Option Nat) (x : Num) : Nat × Flags :=
  match sr with
  | some d => roundSr f d x
  | none => roundTo f rm x

/-! ## Major 0x2A (R144 to R146) -/

/-- A conversion between floating-point formats, narrowing stochastically when `sr` is set. -/
def fconvert (p : Pred) (sr : Bool) (dst src : Fmt) (w : Nat) (d a : SReg) (s : State) :
    Host.Outcome State Fault Refusal :=
  compute s (predOn s p) { srcS := [a], dstS := [d] } fun s => do
    let x := readFp src (lowBits (readS s a) w)
    let q := draws 1 (coreOf s s.cur).srseed
    let r := convertFp dst (myRm s) (if sr then some (q.1.headD 0) else none) x
    let t ← writeFlagged s d (BitVec.ofNat 64 r.1) r.2
    .ok (if sr then setSeed t q.2 else t)

def execFcvt (p : Pred) (sr : Bool) (dst src : FFmt) (d a : SReg) (s : State) : Host.Outcome State Fault Refusal :=
  fconvert p sr (ffmt dst) (ffmt src) src.width d a s
def execFcvtWideToB8 (p : Pred) (sr : Bool) (src : FFmt) (dst : B8) (d a : SReg) (s : State) :
    Host.Outcome State Fault Refusal :=
  fconvert p sr (fmtB8 dst) (ffmt src) src.width d a s
def execFcvtB8ToWide (p : Pred) (dst : FFmt) (src : B8) (d a : SReg) (s : State) :
    Host.Outcome State Fault Refusal :=
  fconvert p false (ffmt dst) (fmtB8 src) 8 d a s
/-- FCVTI: a signed result is sign-extended, an N result zero-extended (R136). -/
def execFcvti (p : Pred) (src : FFmt) (dst : IFmt) (r : RCode) (d a : SReg) (s : State) :
    Host.Outcome State Fault Refusal :=
  compute s (predOn s p) { srcS := [a], dstS := [d] } fun s =>
    let y := numToInt (roundingOf s r) (ifmtRange dst) (readFp (ffmt src) (lowBits (readS s a) src.width))
    writeFlagged s d (BitVec.ofInt 64 y.1) y.2
def execIcvtf (p : Pred) (dst : FFmt) (src : IFmt) (r : RCode) (d a : SReg) (s : State) :
    Host.Outcome State Fault Refusal :=
  fp1 p 64 d a (fun s x => roundTo (ffmt dst) (roundingOf s r) (intNum (ifmtRead src x))) s
def execFrnd (p : Pred) (f : FFmt) (r : RCode) (d a : SReg) (s : State) : Host.Outcome State Fault Refusal :=
  fp1 p f.width d a (fun s x => fpRound (ffmt f) (roundingOf s r) x) s

/-! ## Fixed point (R164) -/

/-- A Q result is sign-extended (R136). -/
def q2 (p : Pred) (w : Nat) (d : GReg) (a : SReg) (f : RMode → Int → Int → Int × Flags) (s : State) :
    Host.Outcome State Fault Refusal :=
  compute s (predOn s p) { srcS := [.g d, a], dstS := [.g d] } fun s =>
    let r := f (myRm s) (qRead w (getG s d).toNat) (qRead w (readS s a).toNat)
    writeFlagged s (.g d) (BitVec.ofInt 64 r.1) r.2

def execQmul (p : Pred) (w : QWid) (f : BitVec 6) (d : GReg) (a : SReg) (s : State) :
    Host.Outcome State Fault Refusal :=
  q2 p w.bits d a (qMul w.bits f.toNat) s
def execQdiv (p : Pred) (w : QWid) (f : BitVec 6) (d : GReg) (a : SReg) (s : State) :
    Host.Outcome State Fault Refusal :=
  q2 p w.bits d a (qDiv w.bits f.toNat) s
def execQsqrt (p : Pred) (w : QWid) (f : BitVec 6) (d a : SReg) (s : State) : Host.Outcome State Fault Refusal :=
  compute s (predOn s p) { srcS := [a], dstS := [d] } fun s =>
    let r := qSqrt w.bits f.toNat (myRm s) (qRead w.bits (readS s a).toNat)
    writeFlagged s d (BitVec.ofInt 64 r.1) r.2

end Sys2Proof.Machine
end

