-- ==== Sys2Proof/Machine/StreamOps.lean ====
section
/-!
DEFINITION. The stream instructions (major 0x30; R183 to R192).
-/
namespace Sys2Proof.Machine

def streamOf (s : State) (n : StreamId) : Stream := (coreOf s s.cur).streams[n]

/-- Elements of a write stream that were pushed and are not performed. -/
def pushedLeft (st : Stream) : Bool := sdWrite st.desc && !st.buf.isEmpty

/-- No request on its way is still to pop the stream (R11; log 102). -/
def streamFree (s : State) (n : StreamId) : Bool := !viewHeld s (.stream n false)

/-- A stream as SCFG leaves it (R184). -/
def configured (s : State) (d : W512) : Stream :=
  { Stream.idle with mode := .active, desc := d, owner := s.slot, ownerUid := (me s).uid }

/-- SCFG: the unbinding takes effect at once; while pushed elements are left, the instruction has not issued and begins
again (R184). -/
def execScfg (p : Pred) (st : StreamId) (a : GReg) (s : State) : Host.Outcome State Fault Refusal :=
  execute s (predOn s p) { srcS := [.g a], mis := misOf (getG s a) 64 } fun s => do
    let (d, s) ← loadBlock s (getG s a)
    match sdInvalid d with
    | some r => .error (streamTrap st r)
    | none => do
      waitUnless (streamFree s st)
      if !pushedLeft (streamOf s st) then
        .ok (advance (modStream (unbind s s.cur st) s.cur st fun _ => configured s d) 4)
      else if (streamOf s st).bound.isSome then .ok (unbind s s.cur st)
      else .error .wait

/-- SBIND (R185, R186). -/
def execSbind (p : Pred) (st : StreamId) (port : Option Port) (s : State) : Host.Outcome State Fault Refusal :=
  compute s (predOn s p) {} fun s => do
    waitUnless (streamFree s st)
    match port with
    | none => .ok (unbind s s.cur st)
    | some q =>
      let x := streamOf s st
      let l := myLink s q
      if x.mode ≠ .active ∨ x.bound.isSome ∨ (boundOn (coreOf s s.cur) l (sdWrite x.desc)).isSome then
        .error (streamTrap st 7)
      else .ok (modStream s s.cur st fun x => { x with bound := some l })

/-- SPOS (R188). -/
def execSpos (p : Pred) (d : GReg) (st : StreamId) (s : State) : Host.Outcome State Fault Refusal :=
  compute s (predOn s p) { dstS := [.g d] } fun s =>
    let x := streamOf s st
    .ok (setG s d (if x.mode = .idle ∨ x.exh then 0 else sdPack x.desc x.pos))

/-- The buffer and any fault of a read stream dropped, its queue entries withdrawn (R186, R189 to R191). -/
def dropRead (s : State) (st : StreamId) : State :=
  if sdWrite (streamOf s st).desc then s
  else modStream (withdraw s s.cur st) s.cur st fun x => { dropBuffer x with token := none, stuck := none, zeros := [] }

/-- SSTOP (R189). -/
def execSstop (p : Pred) (st : StreamId) (s : State) : Host.Outcome State Fault Refusal :=
  compute s (predOn s p) {} fun s => do
    waitUnless (streamFree s st)
    if (streamOf s st).mode = .idle then .ok s
    else .ok (modStream (dropRead (unbind s s.cur st) st) s.cur st fun x => { x with mode := .stopped })

/-- Whether every index of a packed position is within its count (R190). -/
def placeOk (d : W512) (a : W64) : Bool :=
  (List.range 4).all fun k => decide (bits a (16 * k + 15) (16 * k) < sdCnt d k)

/-- SREW (R190). -/
def execSrew (p : Pred) (st : StreamId) (a : GReg) (s : State) : Host.Outcome State Fault Refusal :=
  compute s (predOn s p) { srcS := [.g a] } fun s => do
    waitUnless (streamFree s st)
    let x := streamOf s st
    if x.mode = .idle then .error (streamTrap st 1)
    else if !placeOk x.desc (getG s a) then .error (streamTrap st 8)
    else
      let t := sdPlace x.desc (getG s a)
      .ok (modStream (dropRead s st) s.cur st fun x =>
        { x with pos := t, ahead := t, endF := false, exh := false, mode := .active })

/-- SFLUSH (R191). -/
def execSflush (p : Pred) (st : StreamId) (s : State) : Host.Outcome State Fault Refusal :=
  compute s (predOn s p) {} fun s => do
    waitUnless (drained s && streamFree s st && !pushedLeft (streamOf s st))
    .ok (if (streamOf s st).mode = .idle then s else dropRead s st)

/-- SSKIP (R192). With n = 0 on a stream that it cannot pass over it raises the cause all the same (log 104). -/
def execSskip (p : Pred) (st : StreamId) (a : GReg) (s : State) : Host.Outcome State Fault Refusal :=
  compute s (predOn s p) { srcS := [.g a] } fun s => do
    waitUnless (streamFree s st)
    let x := streamOf s st
    if x.mode ≠ .active then .error (streamTrap st 1)
    else if x.bound.isSome then .error (streamTrap st 9)
    else if getG s a = 0 then .ok s
    else .ok (modStream s s.cur st fun x => skipElems s s.cur x (getG s a).toNat)

end Sys2Proof.Machine
end

