-- ==== Sys2Proof/Machine/TileMath.lean ====
section
/-!
DEFINITION. Tensor descriptors, the shapes of tile operations and the values they and their adjoints compute
(R364, R365, R372 to R375).
-/
namespace Sys2Proof.Machine

/-! ## Tensor descriptors (R364, R365) -/

def tdBase (d : W512) : W64 := d.extractLsb' 0 64
def tdGbase (d : W512) : W64 := d.extractLsb' 64 64
def tdSave (d : W512) : Bool := bit d 134
def tdParam (d : W512) : Bool := bit d 135
def tdNsel (d : W512) : Nat := bits d 139 136
def tdRows (d : W512) : Nat := bits d 159 144 + 1
def tdCols (d : W512) : Nat := bits d 175 160 + 1
def tdPitch (d : W512) : Nat := bits d 207 176
def tdGpitch (d : W512) : Nat := bits d 239 208
def tdSplain (d : W512) : W64 := d.extractLsb' 256 64
def tdSturn (d : W512) : W64 := d.extractLsb' 320 64
def tdExt (d : W512) : W64 := d.extractLsb' 384 64

/-- FP32, BF16, FP16 or binary8. -/
def tdFmt (d : W512) : Option GFmt :=
  match gfmtOf (bits d 133 128) with
  | some (.fp .fp64) => none
  | some (.fp f) => some (.fp f)
  | some (.b8 v) => some (.b8 v)
  | _ => none

/-- The format of a valid descriptor. -/
def tdCoding (d : W512) : Fmt :=
  match tdFmt d with
  | some (.fp f) => ffmt f
  | some (.b8 v) => fmtB8 v
  | _ => fmtFp32

/-- Element size in bytes. -/
def tdEs (d : W512) : Nat := match tdFmt d with | some f => gfmtBits f / 8 | none => 1

/-- R365; `stashed` says that SPLAIN and STURN may be set, `ext` that EXT may. -/
def tdValid (d : W512) (stashed ext : Bool) : Bool :=
  let es := tdEs d
  (tdFmt d).isSome && bits d 143 140 == 0 && bits d 255 240 == 0 && bits d 511 448 == 0
  && (tdParam d || tdNsel d == 0)
  && (stashed || (tdSplain d == 0 && tdSturn d == 0)) && (ext || tdExt d == 0)
  && (tdBase d).toNat % es == 0 && tdPitch d % es == 0 && decide (tdPitch d ≥ tdCols d * es)
  && (tdGbase d == 0 || ((tdGbase d).toNat % 4 == 0 && tdGpitch d % 4 == 0 && decide (tdGpitch d ≥ 4 * tdCols d)))
  && (!tdParam d || tdGbase d != 0)

/-- Addresses of the elements of a tensor of the given size, row by row. -/
def gridAddrs (base : W64) (rows cols pitch es : Nat) : List W64 :=
  (List.range rows).flatMap fun i => (List.range cols).map fun j => base + BitVec.ofNat 64 (i * pitch + j * es)

def tdAddrs (d : W512) : List W64 := gridAddrs (tdBase d) (tdRows d) (tdCols d) (tdPitch d) (tdEs d)
def tdGradAddrs (d : W512) : List W64 := gridAddrs (tdGbase d) (tdRows d) (tdCols d) (tdGpitch d) 4

/-- PITCH = (CM1 + 1)·es. -/
def tdDense (d : W512) : Bool := tdPitch d == tdCols d * tdEs d

/-! ## Tile opcodes (R372) -/

def opTmm : Nat := 0
def opTadd : Nat := 1
def opTmul : Nat := 2
def opTscale : Nat := 3
def opTact : Nat := 4
def opTsum : Nat := 5
def opTsoft : Nat := 6
def opTnorm : Nat := 7
def opTlay : Nat := 8
def opTcopy : Nat := 9

/-- The slots an operation uses: X 0, Y 1, Z 2. -/
def topSlots (op : Nat) : List Nat := if op ≤ 2 then [0, 1, 2] else [0, 2]

/-- X, Y and Z of a list of descriptors or addresses, in slot order; a missing Y is X. -/
def slotX {α : Type} (z : α) (l : List α) : α := l.headD z
def slotZ {α : Type} (z : α) (l : List α) : α := l.getLastD z
def slotY {α : Type} (z : α) (l : List α) : α := (l.drop 1).headD z

/-- FN of TACT (R372). -/
def actFn (b : W64) : Nat := bits b 2 0

/-- Whether the parameter has no reserved bit set. -/
def paramOk (op : Nat) (b : W64) : Bool :=
  match op with
  | 0 => bits b 63 3 == 0
  | 3 | 7 => bits b 63 32 == 0
  | 4 => bits b 63 3 == 0 && decide (actFn b ≤ 4)
  | 5 => bits b 63 1 == 0
  | 8 => bits b 63 33 == 0
  | 1 | 2 | 6 | 9 => b == 0
  | _ => false

/-- TLAY's map as a copy descriptor: the mapping word b, EXT of X, dense pitches (R374). -/
def layMap (b : W64) (x : W512) : W512 :=
  let esz := if tdEs x = 1 then 0 else if tdEs x = 2 then 1 else 2
  b.setWidth 512 <<< 128 ||| ((tdExt x).setWidth 512 <<< 192) ||| (BitVec.ofNat 512 esz <<< 412)

/-- The source element of destination element e. -/
def laySource (m : W512) (e : Nat) : Nat := (cdSource m e).toNat / cdEsz m

/-- The shapes of R372. -/
def shapesOk (op : Nat) (b : W64) (x y z : W512) : Bool :=
  let r := tdRows
  let c := tdCols
  let same := r z == r x && c z == c x
  match op with
  | 0 =>
    let m := if bit b 0 then c x else r x
    let k := if bit b 0 then r x else c x
    let k' := if bit b 1 then c y else r y
    let n := if bit b 1 then r y else c y
    k == k' && r z == m && c z == n
    && (match tdFmt x, tdFmt y with | some f, some g => (pairOf f g).isSome | _, _ => false)
  | 1 | 2 => same && c y == c x && (r y == r x || r y == 1)
  | 5 => if bit b 0 then r z == 1 && c z == c x else r z == r x && c z == 1
  | 8 =>
    let m := layMap b x
    tdDense x && tdDense z && tdEs x == tdEs z && r x * c x == r z * c z
    && permOk m && decide (cdSb m ≤ cdDims m) && decide (cdDb m ≤ cdDims m) && cdTotal m == r x * c x
  | _ => same

/-- Whether slot k is one whose value the adjoint needs (R375). -/
def slotNeeded (op : Nat) (b : W64) (k : Nat) : Bool :=
  match op with
  | 0 | 2 => k != 2
  | 4 => if actFn b ≤ 2 then k == 0 else decide (actFn b ≤ 4) && k == 2
  | 6 => k == 2
  | 7 => k == 0
  | _ => false

/-! ## One FP32 step (R373) -/

/-- Rounded to FP32. -/
def r32 (x : NumF) : NumF := let y := finishFp fmtFp32 .rne x; (readFp fmtFp32 y.1, y.2)
def ev (x : Num) : NumF := (x, 0)
def with2 (f : Num → Num → NumF) (a b : NumF) : NumF := let r := f a.1 b.1; (r.1, a.2 ||| b.2 ||| r.2)
def mulE (a b : NumF) : NumF := with2 mulNum a b
def addE (a b : NumF) : NumF := with2 (addNum .rne) a b
def divE (a b : NumF) : NumF := with2 divNum a b
def negE (a : NumF) : NumF := (negNum a.1, a.2)
def mul32 (a b : NumF) : NumF := r32 (mulE a b)
def add32 (a b : NumF) : NumF := r32 (addE a b)
def sub32 (a b : NumF) : NumF := add32 a (negE b)
def div32 (a b : NumF) : NumF := r32 (divE a b)
def sqrt32 (a : NumF) : NumF := let r := sqrtNum a.1; r32 (r.1, a.2 ||| r.2)
/-- a·b + c, rounded once. -/
def fma32 (a b c : NumF) : NumF := let r := fmaNum .rne a.1 b.1 c.1; r32 (r.1, a.2 ||| b.2 ||| c.2 ||| r.2)
/-- An FP32 constant. -/
def const32 (x : Nat) : NumF := ev (readFp fmtFp32 x)
def zero32 : NumF := const32 0
def one32 : NumF := const32 0x3F800000
def half32 : NumF := const32 0x3F000000
/-- The count of a row as a datum. -/
def count32 (n : Nat) : NumF := ev (intNum n)

/-- An estimate of a datum already in FP32. -/
def est32 (f : Fmt → Num → Nat × Flags) (a : NumF) : NumF :=
  let r := f fmtFp32 a.1
  (readFp fmtFp32 r.1, a.2 ||| r.2)
def expF (x : NumF) : NumF := est32 estExp2 (mul32 x (const32 0x3FB8AA3B))
def tanhF (x : NumF) : NumF := est32 estTanh x

/-- Σ over a list, from +0. -/
def sum32 (l : List NumF) : NumF := l.foldl add32 zero32
/-- The chain acc ← a·b + acc. -/
def chain32 (acc : NumF) (l : List (NumF × NumF)) : NumF := l.foldl (fun x e => fma32 e.1 e.2 x) acc

/-- A product of K terms in the parts of a split (R62): the first from `start`, the others from +0, added up in FP32.
A split that does not cut K is the whole. -/
def splitChain (split : List Nat) (start : NumF) (l : List (NumF × NumF)) : NumF :=
  if split.foldl (· + ·) 0 = l.length ∧ !split.contains 0 then
    match split with
    | [] => start
    | n :: rest =>
      (rest.foldl (fun (e : NumF × List (NumF × NumF)) k =>
        (add32 e.1 (chain32 zero32 (e.2.take k)), e.2.drop k)) (chain32 start (l.take n), l.drop n)).1
  else chain32 start l

/-! ## Tensors of values -/

structure Grid where
  rows : Nat
  cols : Nat
  vals : List NumF

def gridAt (g : Grid) (i j : Nat) : NumF := g.vals.getD (i * g.cols + j) zero32
def gridRow (g : Grid) (i : Nat) : List NumF := (List.range g.cols).map (gridAt g i)
def gridCol (g : Grid) (j : Nat) : List NumF := (List.range g.rows).map fun i => gridAt g i j
def turned (g : Grid) : Grid := ⟨g.cols, g.rows, (List.range g.cols).flatMap (gridCol g)⟩
/-- op(X) of R372. -/
def turnIf (b : Bool) (g : Grid) : Grid := if b then turned g else g
def gridOf (rows cols : Nat) (f : Nat → Nat → NumF) : Grid :=
  ⟨rows, cols, (List.range rows).flatMap fun i => (List.range cols).map (f i)⟩

/-- A·B, each element from `start` (R57, R62). -/
def matMul (split : List Nat) (a b : Grid) (start : Nat → Nat → NumF) : Grid :=
  gridOf a.rows b.cols fun i j => splitChain split (start i j) ((gridRow a i).zip (gridCol b j))

/-- y(0, j) of a broadcast Y, else y(i, j). -/
def bcastAt (x y : Grid) (i j : Nat) : NumF := if y.rows = x.rows then gridAt y i j else gridAt y 0 j

/-! ## Activation functions (R374, R375) -/

/-- x > 0. -/
def positive (x : NumF) : Bool := !isNaN x.1 && !isNeg x.1 && !isZero x.1
def reluOf (test x : NumF) : NumF :=
  if positive test then x else (zero32.1, test.2 ||| flagIf (isSig test.1) fNV)

def geluK : NumF := const32 0x3D372713
def geluC : NumF := const32 0x3F4C422A
def geluT (x : NumF) : NumF := tanhF (mul32 geluC (fma32 geluK (mul32 (mul32 x x) x) x))
def geluH (x : NumF) : NumF := add32 one32 (geluT x)
def gelu (x : NumF) : NumF := mul32 (mul32 half32 x) (geluH x)
def geluSlope (x : NumF) : NumF :=
  let t := geluT x
  let h := add32 one32 t
  let xx := mul32 x x
  let u := fma32 (negE t) t one32
  let w := fma32 (mul32 (const32 0x40400000) geluK) xx one32
  fma32 half32 h (mul32 (mul32 (mul32 (mul32 half32 x) u) geluC) w)

def sigmoid (x : NumF) : NumF := div32 one32 (add32 one32 (expF (negE x)))
def siluSlope (x : NumF) : NumF :=
  let g := sigmoid x
  fma32 (mul32 x g) (sub32 one32 g) g

/-- The value of TACT before its last rounding; ReLU's is exact. -/
def actValue (fn : Nat) (x : NumF) : NumF :=
  match fn with
  | 0 => reluOf x x
  | 1 => gelu x
  | 2 => mul32 x (sigmoid x)
  | 3 => tanhF x
  | _ => expF x

/-- The contribution of TACT to gX, from gZ and the operand it needs. -/
def actGrad (fn : Nat) (g v : NumF) : NumF :=
  match fn with
  | 0 => reluOf v (g.1, g.2 ||| v.2)
  | 1 => mul32 g (geluSlope v)
  | 2 => mul32 g (siluSlope v)
  | 3 => mul32 g (fma32 (negE v) v one32)
  | _ => mul32 g v

/-! ## Rows (R374) -/

/-- The greatest of a row. -/
def rowMax (l : List NumF) : NumF :=
  match l with
  | [] => zero32
  | x :: t => t.foldl (with2 maxNum) x

def softRow (l : List NumF) : List NumF :=
  let m := rowMax l
  let es := l.map fun x => expF (sub32 x m)
  let t := sum32 es
  es.map fun e => divE e t

/-- r of TNORM. -/
def normRoot (eps : NumF) (l : List NumF) : NumF :=
  let q := chain32 zero32 (l.map fun x => (x, x))
  sqrt32 (add32 (div32 q (count32 l.length)) eps)
def normRow (eps : NumF) (l : List NumF) : List NumF := let r := normRoot eps l; l.map fun x => divE x r

/-! ## Results (R374) -/

/-- Bits [31:0] of the parameter as FP32. -/
def param32 (b : W64) : NumF := const32 (bits b 31 0)

/-- Values of Z before the last rounding, row by row; `z` is the widened old Z. TLAY and TCOPY move elements in their
order (R374). -/
def tileValues (op : Nat) (b : W64) (split : List Nat) (x y z : Grid) : List NumF :=
  match op with
  | 0 => (matMul split (turnIf (bit b 0) x) (turnIf (bit b 1) y)
      (fun i j => if bit b 2 then gridAt z i j else zero32)).vals
  | 1 => (gridOf x.rows x.cols fun i j => addE (gridAt x i j) (bcastAt x y i j)).vals
  | 2 => (gridOf x.rows x.cols fun i j => mulE (gridAt x i j) (bcastAt x y i j)).vals
  | 3 => x.vals.map (mulE (param32 b))
  | 4 => x.vals.map (actValue (actFn b))
  | 5 => if bit b 0 then (List.range x.cols).map fun j => sum32 (gridCol x j)
      else (List.range x.rows).map fun i => sum32 (gridRow x i)
  | 6 => (List.range x.rows).flatMap fun i => softRow (gridRow x i)
  | 7 => (List.range x.rows).flatMap fun i => normRow (param32 b) (gridRow x i)
  | _ => x.vals

/-! ## Adjoints (R375) -/

/-- The contribution to gX: `x`, `y`, `z` are the operand values it needs, `g` is gZ, `m` TLAY's map. -/
def gradX (op : Nat) (b : W64) (split : List Nat) (m : W512) (rows cols : Nat) (x y z g : Grid) : Grid :=
  match op with
  | 0 =>
    let ga := matMul split g (turned (turnIf (bit b 1) y)) fun _ _ => zero32
    turnIf (bit b 0) ga
  | 2 => gridOf rows cols fun i j => mul32 (gridAt g i j) (bcastAt g y i j)
  | 3 => gridOf rows cols fun i j => mul32 (param32 b) (gridAt g i j)
  | 4 => gridOf rows cols fun i j => actGrad (actFn b) (gridAt g i j) (gridAt (if actFn b ≤ 2 then x else z) i j)
  | 5 => gridOf rows cols fun i j => r32 (if bit b 0 then gridAt g 0 j else gridAt g i 0)
  | 6 => ⟨rows, cols, (List.range rows).flatMap fun i =>
      let d := chain32 zero32 ((gridRow g i).zip (gridRow z i))
      (List.range cols).map fun j => mul32 (gridAt z i j) (sub32 (gridAt g i j) d)⟩
  | 7 => ⟨rows, cols, (List.range rows).flatMap fun i =>
      let r := normRoot (param32 b) (gridRow x i)
      let zs := (gridRow x i).map fun v => div32 v r
      let d := chain32 zero32 ((gridRow g i).zip zs)
      ((gridRow g i).zip zs).map fun e =>
        div32 (sub32 e.1 (div32 (mul32 e.2 d) (count32 cols))) r⟩
  | 8 =>
    let place := fun k => (List.range (rows * cols)).find? fun e => laySource m e == k
    ⟨rows, cols, (List.range (rows * cols)).map fun k => r32 (g.vals.getD ((place k).getD 0) zero32)⟩
  | _ => gridOf rows cols fun i j => r32 (gridAt g i j)

/-- The contribution to gY. -/
def gradY (op : Nat) (b : W64) (split : List Nat) (rows cols : Nat) (x g : Grid) : Grid :=
  let wide := rows == g.rows
  match op with
  | 0 =>
    let gb := matMul split (turned (turnIf (bit b 0) x)) g fun _ _ => zero32
    turnIf (bit b 1) gb
  | 2 => if wide then gridOf rows cols fun i j => mul32 (gridAt g i j) (gridAt x i j)
      else gridOf 1 cols fun _ j => chain32 zero32 ((gridCol g j).zip (gridCol x j))
  | _ => if wide then gridOf rows cols fun i j => r32 (gridAt g i j)
      else gridOf 1 cols fun _ j => sum32 (gridCol g j)

end Sys2Proof.Machine
end

