-- ==== Sys2Proof/Machine/Tile.lean ====
section
/-!
DEFINITION. TOP, the recording instructions and REVERSE (major 0x33; R366, R378 to R381, R386 to R388).
-/
namespace Sys2Proof.Machine

/-! ## The bond's sequencer (R366) -/

/-- The lowest-numbered sequencer of a die that no bond holds. -/
def spareSeqr (s : State) (die : Fin 4) : Option (Fin 8) :=
  (List.finRange 8).find? fun q => let x := s.dies[die].seqrs[q]; x.bond.isNone && x.cmds.isEmpty

/-- The sequencer of the issuing strand's bond, which receives one if it has none; not ready while all are held. -/
def takeSeqr (s : State) : Except Stop ((Fin 4 × Fin 8) × State) :=
  match (me s).bond with
  | none => .error .wait
  | some b => match mapFind s.bonds b with
    | none => .error .wait
    | some x => match x.seqr with
      | some e => .ok (e, s)
      | none =>
        let die := dieOf s.cur
        match spareSeqr s die with
        | none => .error .wait
        | some q =>
          let s := modDie s die fun d => { d with seqrs := d.seqrs.set q { d.seqrs[q] with
            bond := some b, part := some (me s).part } }
          .ok ((die, q), modBond s b fun y => { y with seqr := some (die, q) })

/-- A command handed to a sequencer with fewer than 16 (R366, R386): its number and the state. -/
def handSeq (s : State) (e : Fin 4 × Fin 8) (op : SeqOp) : Except Stop (Nat × State) :=
  let x := s.dies[e.1].seqrs[e.2]
  if x.cmds.length ≥ 16 then .error .wait
  else
    let n := x.tl.next
    let (q, s) := takeSeq s
    let m : SeqCmd := {
      n := n, op := op, core := s.cur, uid := (me s).uid, slot := s.slot, super := (me s).super, seq := q
      region := none, gang := none, todo := none, ran := false, flags := 0, outcome := 0, token := none }
    let x := { x with tl := { x.tl with next := n + 1 }, cmds := x.cmds ++ [m] }
    .ok (n, modDie s e.1 fun d => { d with seqrs := d.seqrs.set e.2 x })

/-! ## Records (R378 to R380) -/

/-- The header of a record: opcode, references, length of the previous record, mark number, PARAM and SEQ. -/
def recordHeader (op nsl : Nat) (plen : BitVec 4) (mark : W32) (param seq : W64) : W512 :=
  BitVec.ofNat 512 (op + 2 ^ 6 * nsl + 2 ^ 8 * plen.toNat + 2 ^ 32 * mark.toNat)
  ||| (param.setWidth 512 <<< 64) ||| (seq.setWidth 512 <<< 128)

/-- A multiple of 64, rounded up. -/
def roundUp64 (n : Nat) : Nat := ceilDiv n 64 * 64

/-- Whether slot k with descriptor d receives stash copies (R380). -/
def stashed (op : Nat) (b : W64) (k : Nat) (d : W512) : Bool :=
  tdSave d && slotNeeded op b k && tdValid d false (op == opTlay && k == 0)

/-- Stash addresses of the slots from X on, placed downward from `top`, and the lowest one in use (R380). -/
def placeStash (op : Nat) (b : W64) (top : W64) : List (Nat × W512) → List (W64 × W64) × W64
  | [] => ([], top)
  | (k, d) :: t =>
    if stashed op b k d then
      let size := BitVec.ofNat 64 (roundUp64 (tdRows d * tdCols d * tdEs d))
      let plain := top - size
      let turn := plain - size
      let r := placeStash op b (if op = opTmm then turn else plain) t
      ((plain, if op = opTmm then turn else 0) :: r.1, r.2)
    else let r := placeStash op b top t; ((0, 0) :: r.1, r.2)

/-- Bytes of the stash copies. -/
def stashBytes (op : Nat) (b : W64) : List (Nat × W512) → Nat
  | [] => 0
  | (k, d) :: t =>
    (if stashed op b k d then roundUp64 (tdRows d * tdCols d * tdEs d) * (if op = opTmm then 2 else 1) else 0)
    + stashBytes op b t

/-- Slot k's descriptor with its stash addresses filled in (R379): 0 in a slot that would receive copies and is not valid
(R380); a slot that receives none stays as TOP read it (log 113). -/
def recordRef (op : Nat) (b : W64) (k : Nat) (d : W512) (e : W64 × W64) : W512 :=
  if tdSave d && slotNeeded op b k then putBits (putBits d 256 64 e.1.toNat) 320 64 e.2.toNat else d

/-- R378: cause 0x0A for a record of r bytes with s bytes of stash that does not fit. -/
def roomStop (t : Strand) (r stash : Nat) : Option Stop :=
  if (t.logtop.toNat : Int) + r ≤ (t.stktop.toNat : Int) - stash then none
  else some (.trap 0x0A (BitVec.ofNat 64 (r + stash)))

/-- 64-byte blocks as stores of the strand from an address on. -/
def blockChunks (a : W64) (l : List W512) : List Chunk :=
  (l.zip (List.range l.length)).flatMap fun e => (List.range 8).map fun i =>
    ⟨⟨a + BitVec.ofNat 64 (64 * e.2 + 8 * i), 8, 0⟩, e.1.extractLsb' (64 * i) 64, 0xFF, false⟩

/-- A record written at LOGTOP, which moves past it. -/
def appendRecord (s : State) (l : List W512) : Except Stop State := do
  let s ← storeChunks s (blockChunks (me s).logtop l) none true
  .ok (modMe s fun t => { t with
    logtop := t.logtop + BitVec.ofNat 64 (64 * l.length), llen := BitVec.ofNat 4 l.length })

/-- The part of TOP that records it (R386): stash addresses by slot and the state. -/
def recordTop (s : State) (op : Nat) (b : W64) (ds : List W512) (n : Nat) : Except Stop (List (W64 × W64) × State) := do
  let t := me s
  let slots := (topSlots op).zip ds
  let r := 64 * (1 + ds.length)
  waitUnless (!t.rbusy)
  throwIf (roomStop t r (stashBytes op b slots))
  let p := placeStash op b t.stktop slots
  let head := recordHeader op ds.length t.llen 0 b (BitVec.ofNat 64 n)
  let s ← appendRecord s (head :: (slots.zip p.1).map fun e => recordRef op b e.1.1 e.1.2 e.2)
  .ok (p.1, modMe s fun t => { t with stktop := p.2 })

/-- The descriptors of the slots from an address on. -/
def loadSlots (s : State) (a : W64) : List Nat → Except Stop (List W512 × State)
  | [] => .ok ([], s)
  | k :: t => do
    let (d, s) ← loadBlock s (a + BitVec.ofNat 64 (64 * k))
    let (l, s) ← loadSlots s a t
    .ok (d :: l, s)

/-! ## TOP (R386) -/

/-- What TOP does with operation op. -/
def tileOperation (op : Nat) (p : Pred) (d a b : GReg) (s : State) : Host.Outcome State Fault Refusal :=
  let ea := getG s a
  compute s (predOn s p) { srcS := [.g a, .g b], dstS := [.g d], mis := misOf ea 64 } fun s => do
    let par := getG s b
    let (ds, s) ← loadSlots s ea (topSlots op)
    let (e, s) ← takeSeqr s
    let (stash, s) ← if (me s).recording then recordTop s op par ds (s.dies[e.1].seqrs[e.2]).tl.next
      else .ok (ds.map fun _ => (0, 0), s)
    let (n, s) ← handSeq s e (.tile op par ds stash)
    .ok (setG s d (BitVec.ofNat 64 n))

def execTopTmm (p : Pred) (d a b : GReg) (s : State) : Host.Outcome State Fault Refusal := tileOperation opTmm p d a b s
def execTopTadd (p : Pred) (d a b : GReg) (s : State) : Host.Outcome State Fault Refusal := tileOperation opTadd p d a b s
def execTopTmul (p : Pred) (d a b : GReg) (s : State) : Host.Outcome State Fault Refusal := tileOperation opTmul p d a b s
def execTopTscale (p : Pred) (d a b : GReg) (s : State) : Host.Outcome State Fault Refusal :=
  tileOperation opTscale p d a b s
def execTopTact (p : Pred) (d a b : GReg) (s : State) : Host.Outcome State Fault Refusal := tileOperation opTact p d a b s
def execTopTsum (p : Pred) (d a b : GReg) (s : State) : Host.Outcome State Fault Refusal := tileOperation opTsum p d a b s
def execTopTsoft (p : Pred) (d a b : GReg) (s : State) : Host.Outcome State Fault Refusal := tileOperation opTsoft p d a b s
def execTopTnorm (p : Pred) (d a b : GReg) (s : State) : Host.Outcome State Fault Refusal := tileOperation opTnorm p d a b s
def execTopTlay (p : Pred) (d a b : GReg) (s : State) : Host.Outcome State Fault Refusal := tileOperation opTlay p d a b s
def execTopTcopy (p : Pred) (d a b : GReg) (s : State) : Host.Outcome State Fault Refusal := tileOperation opTcopy p d a b s

/-! ## RECON, RECOFF and RECMARK (R387) -/

/-- The operand checks of RECON, in their order. -/
def reconStop (a b : W64) : Option Stop :=
  if a = 0 ∧ b = 0 then none
  else if a.toNat % 64 ≠ 0 then some (.trap 0x03 a)
  else if b.toNat % 64 ≠ 0 then some (.trap 0x03 b)
  else if a.toNat ≥ b.toNat then some (.trap 0x0A a)
  else none

def execRecon (p : Pred) (a b : GReg) (s : State) : Host.Outcome State Fault Refusal :=
  compute s (predOn s p) { srcS := [.g a, .g b] } fun s => do
    let lo := getG s a
    let hi := getG s b
    waitUnless (!(me s).rbusy)
    throwIf (reconStop lo hi)
    if lo = 0 ∧ hi = 0 then .ok (modMe s fun t => { t with recording := true })
    else .ok (modMe s fun t => { t with
      logbase := lo, logtop := lo, loglim := hi, stktop := hi, llen := 0, recording := true })

def execRecoff (p : Pred) (s : State) : Host.Outcome State Fault Refusal :=
  compute s (predOn s p) {} fun s => .ok (modMe s fun t => { t with recording := false })

/-- The opcode of a mark record. -/
def opMark : Nat := 31

def execRecmark (p : Pred) (a : GReg) (s : State) : Host.Outcome State Fault Refusal :=
  compute s (predOn s p) { srcS := [.g a] } fun s => do
    let t := me s
    waitUnless (!t.rbusy)
    if !t.recording then .ok s
    else do
      throwIf (roomStop t 64 0)
      appendRecord s [recordHeader opMark 0 t.llen ((getG s a).setWidth 32) t.stktop 0]

/-! ## REVERSE (R381, R388) -/

/-- Fields of a header's first word. -/
def headOp (w : W64) : Nat := bits w 4 0
def headNsl (w : W64) : Nat := bits w 7 6
def headPlen (w : W64) : Nat := bits w 11 8
def headMark (w : W64) : W32 := w.extractLsb' 32 32

/-- Where a walk of the log ends: the mark's address, its PLEN and its PARAM, or nothing. -/
abbrev Found := Option (W64 × Nat × W64)

/-- R381: headers walked backward from h; the records of the stretch, last first, and where the walk ends. -/
def walkLog (base : W64) (m : W32) : Nat → State → W64 → Except Stop (List W64 × Found × State)
  | 0, s, _ => .ok ([], none, s)
  | n + 1, s, h =>
    if h.toNat < base.toNat then .ok ([], none, s)
    else do
      let (l, s) ← loadWords s h 1 0
      let w := l.headD 0
      if headOp w = opMark ∧ headMark w = m then do
        let (l, s) ← loadWords s h 1 1
        .ok ([], some (h, headPlen w, l.headD 0), s)
      else if headPlen w = 0 then .ok ([h], none, s)
      else do
        let (l, f, s) ← walkLog base m n s (h - BitVec.ofNat 64 (64 * headPlen w))
        .ok (h :: l, f, s)

/-- The recording state after the walk. -/
def rewind (t : Strand) : Found → Strand
  | some (h, plen, param) => { t with logtop := h, stktop := param, llen := BitVec.ofNat 4 plen, rbusy := true }
  | none => { t with logtop := t.logbase, stktop := t.loglim, llen := 0, rbusy := true }

def execReverse (p : Pred) (d a : GReg) (s : State) : Host.Outcome State Fault Refusal :=
  compute s (predOn s p) { srcS := [.g a], dstS := [.g d] } fun s => do
    let t := me s
    if t.recording then .error (.trap 0x01 (instrWord (.reverse p d a)))
    else do
      waitUnless (!t.rbusy && drained s)
      let room := (t.logtop.toNat - t.logbase.toNat) / 64 + 1
      let (l, f, s) ← if t.llen = 0 then .ok ([], none, s)
        else walkLog t.logbase ((getG s a).setWidth 32) room s (t.logtop - BitVec.ofNat 64 (64 * t.llen.toNat))
      let (e, s) ← takeSeqr s
      let (n, s) ← handSeq s e (.reverse l)
      .ok (setG (modMe s fun t => rewind t f) d (BitVec.ofNat 64 n))

end Sys2Proof.Machine
end

