-- ==== Sys2Proof/Machine/TileRun.lean ====
section
/-!
DEFINITION. What the tile sequencer does with its commands: SEQ_COMMAND with the adjoints, and SEQ_COMMAND_COMPLETE
(R366 to R377, R382).
-/
namespace Sys2Proof.Machine

/-! ## The tile region (R367) -/

def regionCores (w : W64) : List CoreId :=
  (List.range (bits w 31 24 + 1)).flatMap fun j => (List.range (bits w 22 16 + 1)).map fun i =>
    coreAt (bits w 6 0 + i) (bits w 15 8 + j)

/-- TREGION is valid and lies in the bond. -/
def regionOk (s : State) (b : Nat) (w : W64) : Bool :=
  bit w 63 && decide (bits w 6 0 + bits w 22 16 ≤ 127) && decide (bits w 15 8 + bits w 31 24 ≤ 159)
  && (regionCores w).all fun c => inBond s (some b) c

/-- What a command leaves in the staging bytes and accumulators of its region. -/
def leaveStaging (s : State) (w : W64) (staged : List (Nat × Byte)) (accs : List (Nat × W32)) : State :=
  let cs := regionCores w
  let s := staged.foldl (fun s e =>
    let c := e.1 / 65536
    if cs.contains c && decide (e.1 % 65536 ≥ 0x8000) then
      let loc := sliceLoc c (e.1 % 65536)
      homeWrite s (wordOf loc) 0 (byteMask (loc % 8) 1) (BitVec.ofNat 64 e.2.toNat <<< (8 * (loc % 8))) none
    else s) s
  accs.foldl (fun s e =>
    if cs.contains (e.1 / 256) then modCore s (e.1 / 256) fun k =>
      if h : e.1 % 256 < 256 then { k with k := k.k.set (e.1 % 256) e.2 } else k
    else s) s

/-! ## Reading and writing tensors -/

/-- Codes of a tensor; poison that arithmetic consumes fails the command (R421). -/
def readGrid (s : State) (w : Who) (f : Fmt) (es rows cols : Nat) (addrs : List W64) :
    Except EngStop (Grid × State) := do
  let (l, s) ← engLoads s w es addrs
  if l.any fun e => e.2 then .error (.fail 0x0D)
  else .ok (⟨rows, cols, l.map fun e => ev (readFp f e.1)⟩, s)

/-- The values of a tensor in place. -/
def readTensor (s : State) (w : Who) (d : W512) : Except EngStop (Grid × State) :=
  readGrid s w (tdCoding d) (tdEs d) (tdRows d) (tdCols d) (tdAddrs d)

def emptyGrid : Grid := ⟨0, 0, []⟩
def readIf (on : Bool) (s : State) (w : Who) (d : W512) : Except EngStop (Grid × State) :=
  if on then readTensor s w d else .ok (emptyGrid, s)

/-- Whether an operation moves bits (R374). -/
def moves (op : Nat) (x z : W512) : Bool := op == opTlay || (op == opTcopy && tdFmt x == tdFmt z)

/-- The stash copies of a slot: its elements' codes in their plain and their corner-turned places (R376, R380). -/
def stashWrites (d : W512) (e : W64 × W64) (codes : List (Nat × Bool)) : List EngWrite :=
  let es := tdEs d
  let put := fun (addrs : List W64) => (addrs.zip codes).map fun x => (⟨x.1, es, x.2.1, x.2.2⟩ : EngWrite)
  let turnAddrs := (List.range (tdRows d)).flatMap fun i => (List.range (tdCols d)).map fun j =>
    e.2 + BitVec.ofNat 64 (j * (tdRows d * es) + i * es)
  (if e.1 = 0 then [] else put (gridAddrs e.1 (tdRows d) (tdCols d) (tdCols d * es) es))
  ++ (if e.2 = 0 then [] else put turnAddrs)

/-- The element codes of a slot for its stash copy; none where it has no copy. -/
def stashCodes (s : State) (w : Who) (d : W512) (e : W64 × W64) : Except EngStop (List (Nat × Bool) × State) :=
  if e.1 = 0 then .ok ([], s) else engLoads s w (tdEs d) (tdAddrs d)

/-! ## Forward commands (R372, R374) -/

/-- Whether a command's descriptors, shapes and parameter are in order (R372); in a record, a slot that receives copies holds
their addresses, and no other does (R380). -/
def commandOk (op : Nat) (b : W64) (ds : List W512) (inRecord : Bool) : Bool :=
  let x := slotX 0 ds
  let y := slotY 0 ds
  let z := slotZ 0 ds
  let okSlot := fun k (d : W512) =>
    tdValid d inRecord (op == opTlay && k == 0)
    && (!inRecord || (if tdSave d && slotNeeded op b k then tdSplain d != 0 && (op != opTmm || tdSturn d != 0)
        else tdSplain d == 0 && tdSturn d == 0))
  decide (op ≤ 9) && ds.length == (topSlots op).length && ((topSlots op).zip ds).all (fun e => okSlot e.1 e.2)
  && paramOk op b && shapesOk op b x y z

/-- The codes of Z with the flags raised: computed, or moved with their poison. -/
def tileCodes (s : State) (w : Who) (op : Nat) (b : W64) (split : List Nat) (x y z : W512) :
    Except EngStop ((List (Nat × Bool) × Flags) × State) := do
  if moves op x z then
    let (l, s) ← engLoads s w (tdEs x) (tdAddrs x)
    let m := layMap b x
    let at_ := fun e => if op = opTlay then laySource m e else e
    .ok (((List.range l.length).map fun e => l.getD (at_ e) (0, false), 0), s)
  else
    let (gx, s) ← readTensor s w x
    let (gy, s) ← readIf (decide (op ≤ 2)) s w y
    let (gz, s) ← readIf (op == opTmm && bit b 2) s w z
    let r := (tileValues op b split gx gy gz).map fun v => finishFp (tdCoding z) .rne v
    .ok ((r.map fun e => (e.1, false), r.foldl (fun f e => f ||| e.2) 0), s)

/-- The writes of a forward command: Z, then the stash copies of X, Y and Z. -/
def tileWrites (s : State) (w : Who) (op : Nat) (b : W64) (split : List Nat) (ds : List W512)
    (stash : List (W64 × W64)) : Except EngStop ((List EngWrite × Flags) × State) := do
  let x := slotX 0 ds
  let y := slotY 0 ds
  let z := slotZ 0 ds
  let three := decide (op ≤ 2)
  let ((codes, fl), s) ← tileCodes s w op b split x y z
  let sx := slotX (0, 0) stash
  let sy := if three then slotY (0, 0) stash else (0, 0)
  let sz := slotZ (0, 0) stash
  let (cx, s) ← stashCodes s w x sx
  let (cy, s) ← stashCodes s w y sy
  let zs := ((tdAddrs z).zip codes).map fun e => (⟨e.1, tdEs z, e.2.1, e.2.2⟩ : EngWrite)
  .ok ((zs ++ stashWrites x sx cx ++ stashWrites y sy cy ++ stashWrites z sz codes, fl), s)

/-- A plain write as one that the command still has to make. -/
def plainPut (x : EngWrite) : SeqPut := ⟨0, x.va, x.n, x.code, x.poison, none, false⟩

/-- A forward command's operands are read and its writes are known. -/
def startTile (s : State) (w : Who) (op : Nat) (b : W64) (split : List Nat) (ds : List W512) (stash : List (W64 × W64)) :
    Except EngStop ((List SeqPut × Flags) × State) := do
  let ((ws, fl), s) ← tileWrites s w op b split ds stash
  .ok ((ws.map plainPut, fl), s)

/-! ## Adjoints (R375 to R377) -/

/-- An operand of an adjoint: its stash copy, corner-turned where the adjoint needs the transpose, or in place (R376). -/
def readOperand (on : Bool) (s : State) (w : Who) (d : W512) (turn : Bool) : Except EngStop (Grid × State) :=
  let es := tdEs d
  let rows := tdRows d
  let cols := tdCols d
  if !on then .ok (emptyGrid, s)
  else if tdSplain d = 0 then readTensor s w d
  else if turn && tdSturn d != 0 then
    readGrid s w (tdCoding d) es rows cols ((List.range rows).flatMap fun i => (List.range cols).map fun j =>
      tdSturn d + BitVec.ofNat 64 (j * (rows * es) + i * es))
  else readGrid s w (tdCoding d) es rows cols (gridAddrs (tdSplain d) rows cols (cols * es) es)

/-- The accumulator of a tensor's gradient writes. -/
def tdNorm (d : W512) : Option (Fin 16) := if tdParam d then some (Fin.ofNat 16 (tdNsel d)) else none

/-- +0 over every element of a gradient. -/
def clearPuts (d : W512) : List SeqPut := (tdGradAddrs d).map fun va => ⟨0, va, 4, 0, false, tdNorm d, false⟩

/-- g ← RoundTo(FP32, g + c, RNE) for every element of a gradient, with the flags of the contributions; nothing where the
tensor has no gradient. -/
def addPuts (phase : Nat) (d : W512) (c : Unit → Grid) : List SeqPut × Flags :=
  if tdGbase d = 0 then ([], 0)
  else
    let l := ((tdGradAddrs d).zip (c ()).vals).map fun e => (e.1, finishFp fmtFp32 .rne e.2)
    (l.map fun e => ⟨phase, e.1, 4, e.2.1, false, tdNorm d, true⟩, l.foldl (fun f e => f ||| e.2.2) 0)

/-- The adjoint of a record with its descriptors: gZ and the operands are read, and the writes of steps 2 to 4 of R377 are
known but for the values they add to. -/
def startAdjoint (s : State) (w : Who) (op : Nat) (b : W64) (ds : List W512) (splitA splitB : List Nat) :
    Except EngStop ((List SeqPut × Flags) × State) := do
  let x := slotX 0 ds
  let y := slotY 0 ds
  let z := slotZ 0 ds
  let three := decide (op ≤ 2)
  let toX := tdGbase x != 0
  let toY := three && tdGbase y != 0
  -- what each contribution needs
  let needX := slotNeeded op b 0 && (if three then toY else toX)
  let needY := slotNeeded op b 1 && three && toX
  let needZ := slotNeeded op b 2 && toX
  let (gx, s) ← readOperand needX s w x (op == opTmm && !bit b 0)
  let (gy, s) ← readOperand needY s w y (op == opTmm && !bit b 1)
  let (gz, s) ← readOperand needZ s w z false
  let (g, s) ← readGrid s w fmtFp32 4 (tdRows z) (tdCols z) (tdGradAddrs z)
  let first := if op = opTmm ∧ bit b 2 then [] else clearPuts z
  let (px, fx) := addPuts 1 x fun _ => gradX op b splitA (layMap b x) (tdRows x) (tdCols x) gx gy gz g
  let (py, fy) := if three then addPuts 2 y fun _ => gradY op b splitB (tdRows y) (tdCols y) gx g else ([], 0)
  .ok ((first ++ px ++ py, fx ||| fy), s)

/-- The 64-byte block at an address as an engine reads it. -/
def engBlock (s : State) (w : Who) (a : W64) : Except EngStop (W512 × State) := do
  let (l, s) ← engLoads s w 8 ((List.range 8).map fun i => a + BitVec.ofNat 64 (8 * i))
  if l.any fun e => e.2 then .error (.fail 0x0D)
  else .ok (l.foldr (fun e x => (x <<< 64) ||| BitVec.ofNat 512 e.1) 0, s)

def engBlocks (s : State) (w : Who) : List W64 → Except EngStop (List W512 × State)
  | [] => .ok ([], s)
  | a :: t => do
    let (d, s) ← engBlock s w a
    let (l, s) ← engBlocks s w t
    .ok (d :: l, s)

/-- ADJOINT_RUN (R377) starts for the record at an address; a mark, or a record whose Z has no gradient, writes nothing
(R381). -/
def startRecord (s : State) (w : Who) (h : W64) (splitA splitB : List Nat) :
    Except EngStop ((List SeqPut × Flags) × State) := do
  let (head, s) ← engBlock s w h
  let w0 : W64 := head.extractLsb' 0 64
  if headOp w0 = opMark then .ok (([], 0), s)
  else do
    let b : W64 := head.extractLsb' 64 64
    let refs := (List.range (headNsl w0)).map fun i => h + BitVec.ofNat 64 (64 * (i + 1))
    let (ds, s) ← engBlocks s w refs
    if !commandOk (headOp w0) b ds true then .error (.fail 0x01)
    else if tdGbase (slotZ 0 ds) = 0 then .ok (([], 0), s)
    else startAdjoint s w (headOp w0) b ds splitA splitB

/-! ## The writes of a command, one by one (R371, R377, R383) -/

/-- The aligned word of an address. -/
def wordVa (va : W64) : W64 := va &&& ~~~(7 : W64)

/-- The bytes that some writes of one word cover. -/
def putsMask (l : List SeqPut) : BitVec 8 := l.foldl (fun k x => k ||| byteMask (x.va.toNat % 8) x.n) 0

/-- The word after some writes of it, in their order, with the flags of those that add to the FP32 value there. -/
def putsWord (old : W64) (l : List SeqPut) : W64 × Flags :=
  l.foldl (fun (acc : W64 × Flags) x =>
    let at_ := x.va.toNat % 8
    let c := if x.add then
        finishFp fmtFp32 .rne (addE (ev (readFp fmtFp32 (subWord acc.1 at_ 4).toNat)) (ev (readFp fmtFp32 x.code)))
      else (x.code, 0)
    ((List.range x.n).foldl (fun y i => setLane y 8 (at_ + i) (BitVec.ofNat 8 (c.1 / 2 ^ (8 * i)))) acc.1, acc.2 ||| c.2))
    (old, 0)

/-- The writes of one aligned word made together, of which x is the first (R305): plain, or with norm. -/
def seqPut (s : State) (w : Who) (x : SeqPut) (l : List SeqPut) : Except EngStop (Flags × State) := do
  let mask := putsMask l
  let (r, s) ← engTarget s w x.va (if mask = 0xFF then 8 else 4)
  if x.norm.isSome && r.rp then .error (.fail 0x08)
  else do
    let (old, s) ← if l.any fun y => y.add then engLoad s w (wordVa x.va) 8 else .ok ((0, false), s)
    if old.2 then .error (.fail 0x0D)
    else
      let c := putsWord (BitVec.ofNat 64 old.1) l
      let word := wordOf r.loc
      match x.norm with
      | some n =>
        let lanes : BitVec 2 := (if mask &&& 0x0F = 0 then 0 else 1) ||| (if mask &&& 0xF0 = 0 then 0 else 2)
        .ok (c.2, normWrite s w.part w.copyDie n.val word r.key lanes c.1)
      | none =>
        let s := homeWrite s word r.key mask c.1 none
        .ok (c.2, if l.any fun y => y.poison then poisonWord s word else s)

/-- Whether a write may be made now, of those left: the steps of R377 follow one another. -/
def putTurn (l : List SeqPut) (x : SeqPut) : Bool := l.all fun y => decide (x.phase ≤ y.phase)

/-- Whether two writes are made together: of one step of R377, to one aligned word (R305). -/
def sameWord (x y : SeqPut) : Bool := x.phase == y.phase && x.va.toNat / 8 == y.va.toNat / 8

/-! ## SEQ_COMMAND (R366, R367, R371) -/

/-- Whose accesses a sequencer's command makes. -/
def seqWho (s : State) (die : Fin 4) (b : Nat) (m : SeqCmd) : Who :=
  let x := mapFind s.bonds b
  ⟨m.core, m.super, (x.map fun y => y.job).getD 0, (x.map fun y => y.part).getD 0, die.val, true⟩

/-- A command stops (R371): a fault posts its message and the command waits on its token. -/
def stopSeq (s : State) (die : Fin 4) (q : Fin 8) (m : SeqCmd) : EngStop → State
  | .await => s
  | .park w => parkMiss s .engine w
  | .fault wr va r l x =>
    let token := agentToken s m.core seqAgentNo
    let s := postFault s seqAgentNo (engineMsg m.core m.slot m.uid m.n 3 wr va r l x)
    modSeq s die q m.n fun y => { y with token := some token }
  | .fail c => endSeq s die q m.n c

/-- The operands of the operation, or of the next record of a reversal, are read: the writes follow. -/
def beginSeq (s : State) (die : Fin 4) (q : Fin 8) (b : Nat) (m : SeqCmd) (splits : List (List Nat)) : State :=
  let w := seqWho s die b m
  let r := match m.op with
    | .tile op par ds stash => startTile s w op par (splits.headD []) ds stash
    | .reverse l => startRecord s w (l.headD 0) (splits.getD 0 []) (splits.getD 1 [])
  match r with
  | .error e => stopSeq s die q m e
  | .ok ((l, fl), s) => modSeq s die q m.n fun y => { y with todo := some l, flags := y.flags ||| fl }

/-- Write i of those left is made, with the others of its step to the same word. -/
def putSeq (die : Fin 4) (q : Fin 8) (b n : Nat) (s : State) (i : Nat) : State :=
  match (s.dies[die].seqrs[q].cmds.find? fun m => m.n == n) with
  | none => s
  | some m =>
    let l := m.todo.getD []
    match l[i]? with
    | none => s
    | some x =>
      if m.ran || m.token.isSome || !putTurn l x then s
      else match seqPut s (seqWho s die b m) x (l.filter (sameWord x)) with
        | .error e => stopSeq s die q m e
        | .ok (fl, s) => modSeq s die q n fun y => { y with
            todo := some (l.filter fun z => !sameWord x z), flags := y.flags ||| fl }

/-- The operation, or the record in hand, has made its writes: the next record follows. -/
def nextSeq (s : State) (die : Fin 4) (q : Fin 8) (m : SeqCmd) : State :=
  match m.op with
  | .tile _ _ _ _ => endSeq s die q m.n 0
  | .reverse l => modSeq s die q m.n fun y => { y with op := .reverse l.tail, todo := none }

/-! ### Component gangs (R241, R261, R367; log 66) -/

/-- The descriptor with which a pre-empted gang goes on at its pulse (R261). -/
def resumeDesc (g : SeqGang) : W512 := putBits (putBits g.desc 96 32 g.pulse) 35 1 1

/-- Whether a component gang with a descriptor can stand in a region under R241, for a command that a core has issued. -/
def componentFits (s : State) (b : Nat) (c : CoreId) (region : W64) (d : W512) : Bool :=
  (claimReason s c { Ticket.empty with desc := d, bond := b }).isNone
  && (gangCores d).all fun k => match k with | some k => (regionCores region).contains k | none => false

/-- A component gang is placed: it waits while a core of its rectangle is frozen or claimed, and freezes them together. -/
def placeComponent (s : State) (die : Fin 4) (q : Fin 8) (b : Nat) (m : SeqCmd) (region : W64) (d : W512) : State :=
  let cs := (gangCores d).filterMap id
  let again := match m.gang with | some g => !g.placed && d == resumeDesc g | none => true
  if !again || !componentFits s b m.core region d
      || cs.any (fun c => (coreOf s c).frozen.isSome || (coreOf s c).claimed.isSome) then s
  else
    modSeq (cs.foldl (fun s c => modCore s c fun k => freezeCore k (.sequencer die q)) s) die q m.n fun y =>
      { y with gang := some ⟨d, gdStart d, true⟩ }

/-- The pulses of the placed component gang that are still to come; none without one. -/
def pulsesLeft (m : SeqCmd) : Option Nat :=
  match m.gang with
  | some g => if g.placed then some (gdK g.desc - g.pulse) else none
  | none => none

/-- What a command does next: a component gang placed, one pulse of it, its thaw after the last one, or the operands read and
writes made, beside it (copies) or as its epilogue. -/
def stepSeq (s : State) (die : Fin 4) (q : Fin 8) (b : Nat) (m : SeqCmd) (region : W64) (splits : List (List Nat))
    (act : SeqAct) : State :=
  match act with
  | .place d => placeComponent s die q b m region d
  | .pulse => if (pulsesLeft m).any (0 < ·) then
      modSeq s die q m.n fun y => { y with gang := y.gang.map fun g => { g with pulse := g.pulse + 1 } } else s
  | .thaw => if pulsesLeft m = some 0 then
      modSeq (leaveComponent s die q) die q m.n fun y => { y with gang := none } else s
  | .write puts =>
    if m.gang.isSome && pulsesLeft m != some 0 then s
    else match m.todo with
      | none => beginSeq s die q b m splits
      | some [] => if m.gang.isSome then s else nextSeq s die q m
      | some _ => puts.foldl (putSeq die q b m.n) s

/-- The command at a sequencer's head, while its partition runs and everything before it is performed (R321, R366). -/
def seqReady (s : State) (die : Fin 4) (q : Fin 8) : Option (Nat × SeqCmd) :=
  let x := s.dies[die].seqrs[q]
  match x.bond, x.cmds with
  | some b, m :: _ =>
    let ph := (partOf s (partOfCore s m.core)).phase
    if m.ran || m.token.isSome || (mapFind s.bonds b).isNone || ph == .draining || ph == .saved
        || launchWaits s m.core m.uid m.seq then none
    else some (b, m)
  | _, _ => none

/-- SEQ_COMMAND: the checks of R372, then of R367 (log 135), come before anything is read; a reversal of no record is done at
once (R388). TREGION is that of the step which begins the command (log 135). -/
def execSeqCommand (die : Fin 4) (q : Fin 8) (splits : List (List Nat)) (staged : List (Nat × Byte))
    (accs : List (Nat × W32)) (act : SeqAct) (s : State) : Host.Outcome State Fault Refusal :=
  .next (match seqReady s die q with
  | none => s
  | some (b, m) =>
    let region := m.region.getD (((mapFind s.bonds b).map fun x => x.tregion).getD 0)
    let m := { m with region := some region }
    let run := if regionOk s b region then
        stepSeq (leaveStaging (modSeq s die q m.n fun _ => m) region staged accs) die q b m region splits act
      else endSeq s die q m.n 0x08
    match m.op with
    | .reverse [] => endSeq s die q m.n 0
    | .tile op par ds _ => if commandOk op par ds false then run else endSeq s die q m.n 0x01
    | .reverse _ => run)

/-- SEQ_COMMAND_COMPLETE (R366, R370): the command at the head has run, and its bond is on the machine. -/
def execSeqCommandComplete (die : Fin 4) (q : Fin 8) (s : State) : Host.Outcome State Fault Refusal :=
  .next (match (s.dies[die].seqrs[q]).bond.bind (mapFind s.bonds), (s.dies[die].seqrs[q]).cmds with
  | some _, m :: _ => if m.ran then finishSeq s die q m.n m.outcome else s
  | _, _ => s)

end Sys2Proof.Machine
end

