-- ==== Sys2Proof/Machine/Vector.lean ====
section
/-!
DEFINITION. Vector lane operations, VFMA and VDOT, vector conversions and the compressed lane forms (majors 0x2B to
0x2E and the 16-bit forms; R137 to R139, R149 to R163, R165).
-/
namespace Sys2Proof.Machine

/-! ## Lanes -/

/-- Lane i of width w as a code. -/
def laneNat (x : W256) (w i : Nat) : Nat := (lane x w i).toNat

/-- The vector with the given codes in the given lanes, zero elsewhere. -/
def packLanes (w : Nat) : List (Nat × Nat) → W256
  | [] => 0
  | (i, x) :: t => packLanes w t ||| BitVec.ofNat 256 (x % 2 ^ w * 2 ^ (i * w))

/-- The lanes a predicate enables in a format (R9). -/
def activeLanes (s : State) (p : Pred) (w : Nat) : W32 := lanesOn (predMask s p) (256 / w)

/-- The union of flags (R139). -/
def unionFlags (l : List (Nat × Nat × Flags)) : Flags := l.foldl (fun f e => f ||| e.2.2) 0

/-- Written lanes with their codes and flags: the flags first, then the lanes (R11, R17, R139). -/
def writeResults (s : State) (d : VReg) (w : Nat) (l : List (Nat × Nat × Flags)) : Except Stop State := do
  let s ← raise s (unionFlags l)
  let mask := BitVec.ofNat 32 (l.foldl (fun m e => m + 2 ^ e.1) 0)
  .ok (writeLanes s d w mask (packLanes w (l.map fun e => (e.1, e.2.1))))

/-- A lane operation: each enabled lane of d gets a code, computed from the sources as they stand at issue. -/
def laneOp (len : Nat) (p : Pred) (f : LFmt) (d : VReg) (u : Uses) (g : State → Nat → Nat × Flags) (s : State) :
    Host.Outcome State Fault Refusal :=
  let m := activeLanes s p f.width
  executeLen len s (m != 0) { u with dstV := [d] } fun s => do
    let t ← writeResults s d f.width ((enabledLanes m f.lanes).map fun i => let r := g s i; (i, r.1, r.2))
    .ok (advance t len)

/-- d_i ← f(a_i, b_i). -/
def lane2 (len : Nat) (p : Pred) (f : LFmt) (d a b : VReg) (g : RMode → Nat → Nat → Nat × Flags) (s : State) :
    Host.Outcome State Fault Refusal :=
  laneOp len p f d { srcV := [a, b] }
    (fun s i => g (myRm s) (laneNat (readV s a) f.width i) (laneNat (readV s b) f.width i)) s

/-- d_i ← f(a_i). -/
def lane1 (len : Nat) (p : Pred) (f : LFmt) (d a : VReg) (g : Nat → Nat × Flags) (s : State) :
    Host.Outcome State Fault Refusal :=
  laneOp len p f d { srcV := [a] } (fun s i => g (laneNat (readV s a) f.width i)) s

/-- A pop by an instruction that is off in every lane: it raises nothing, and a fault recorded on an element that it passes
over is dropped (R81, R138; log 98). -/
def popOff (s : State) (v : View) : State :=
  match v with
  | .stream n vec =>
    let st := (coreOf s s.cur).streams[n]
    if (popFault st (wantOf st vec)).isSome then modStream s s.cur n fun st => skipElems s s.cur st (wantOf st vec)
    else popView s v
  | .port _ _ => popView s v

/-- The views among an instruction's sources that may be popped at all. -/
def poppable (s : State) (u : Uses) : List View :=
  (popsOf s u).filter fun v => (viewStop s false v).isNone && (portStop s v).isNone

/-- An instruction with .P that is off in every lane pops its source views and has no other effect (R138); since it raises
no cause (R81), a view that may not be popped is left alone (log 98). -/
def withP (p : Pred) (w : Nat) (dotP : Bool) (u : Uses) (k : State → Host.Outcome State Fault Refusal) (s : State) :
    Host.Outcome State Fault Refusal :=
  if activeLanes s p w = 0 && dotP then
    compute s true {} fun s => do
      waitUnless ((poppable s u).all (viewReady s false))
      .ok ((poppable s u).foldl popOff s)
  else k s

/-! ## Arithmetic (R151) -/

/-- An operation on integers of w bits, or on the codes of a floating-point format. -/
def arith (f : LFmt) (int : Int → Int → Int) (fp : Fmt → RMode → Nat → Nat → Nat × Flags)
    (rm : RMode) (a b : Nat) : Nat × Flags :=
  match laneFmt f with
  | none => (intCode f.width (int (qRead f.width a) (qRead f.width b)), 0)
  | some x => fp x rm a b

def addLane (f : LFmt) : RMode → Nat → Nat → Nat × Flags := arith f (· + ·) fpAdd
def subLane (f : LFmt) : RMode → Nat → Nat → Nat × Flags := arith f (· - ·) fpSub
def mulLane (f : LFmt) : RMode → Nat → Nat → Nat × Flags := arith f (· * ·) fpMul
def minLane (f : LFmt) : RMode → Nat → Nat → Nat × Flags := arith f min fun x _ => fpMin x
def maxLane (f : LFmt) : RMode → Nat → Nat → Nat × Flags := arith f max fun x _ => fpMax x

def absLane (f : LFmt) (a : Nat) : Nat × Flags :=
  match laneFmt f with
  | none => (intCode f.width (qRead f.width a).natAbs, 0)
  | some x => fpSetSign x false a
def negLane (f : LFmt) (a : Nat) : Nat × Flags :=
  match laneFmt f with
  | none => (intCode f.width (-qRead f.width a), 0)
  | some x => fpSetSign x (!isNeg (readFp x a)) a

/-- The high w bits of the signed product. -/
def mulHighLane (f : LFmt) (_ : RMode) (a b : Nat) : Nat × Flags :=
  (intCode f.width (qRead f.width a * qRead f.width b / 2 ^ f.width), 0)

def bitLane (g : Nat → Nat → Nat) (_ : RMode) (a b : Nat) : Nat × Flags := (g a b, 0)

/-- R152: an amount of w or more gives 0, or w copies of the sign. -/
def shlLane (f : LFmt) (_ : RMode) (a b : Nat) : Nat × Flags :=
  (if b ≥ f.width then 0 else a * 2 ^ b % 2 ^ f.width, 0)
def shrLane (f : LFmt) (_ : RMode) (a b : Nat) : Nat × Flags := (if b ≥ f.width then 0 else a / 2 ^ b, 0)
def sraLane (f : LFmt) (_ : RMode) (a b : Nat) : Nat × Flags :=
  (intCode f.width (qRead f.width a / 2 ^ Nat.min b f.width), 0)

def execVadd (p : Pred) (f : LFmt) (d a b : VReg) (s : State) : Host.Outcome State Fault Refusal :=
  lane2 4 p f d a b (addLane f) s
def execVsub (p : Pred) (f : LFmt) (d a b : VReg) (s : State) : Host.Outcome State Fault Refusal :=
  lane2 4 p f d a b (subLane f) s
def execVmul (p : Pred) (f : LFmt) (d a b : VReg) (s : State) : Host.Outcome State Fault Refusal :=
  lane2 4 p f d a b (mulLane f) s
def execVmulh (p : Pred) (f : LFmt) (d a b : VReg) (s : State) : Host.Outcome State Fault Refusal :=
  lane2 4 p f d a b (mulHighLane f) s
def execVmin (p : Pred) (f : LFmt) (d a b : VReg) (s : State) : Host.Outcome State Fault Refusal :=
  lane2 4 p f d a b (minLane f) s
def execVmax (p : Pred) (f : LFmt) (d a b : VReg) (s : State) : Host.Outcome State Fault Refusal :=
  lane2 4 p f d a b (maxLane f) s
def execVabs (p : Pred) (f : LFmt) (dotP : Bool) (d a : VReg) (s : State) : Host.Outcome State Fault Refusal :=
  withP p f.width dotP { srcV := [a] } (lane1 4 p f d a (absLane f)) s
def execVneg (p : Pred) (f : LFmt) (dotP : Bool) (d a : VReg) (s : State) : Host.Outcome State Fault Refusal :=
  withP p f.width dotP { srcV := [a] } (lane1 4 p f d a (negLane f)) s
def execVand (p : Pred) (f : LFmt) (d a b : VReg) (s : State) : Host.Outcome State Fault Refusal :=
  lane2 4 p f d a b (bitLane (· &&& ·)) s
def execVor (p : Pred) (f : LFmt) (d a b : VReg) (s : State) : Host.Outcome State Fault Refusal :=
  lane2 4 p f d a b (bitLane (· ||| ·)) s
def execVxor (p : Pred) (f : LFmt) (d a b : VReg) (s : State) : Host.Outcome State Fault Refusal :=
  lane2 4 p f d a b (bitLane (· ^^^ ·)) s
def execVshl (p : Pred) (f : LFmt) (d a b : VReg) (s : State) : Host.Outcome State Fault Refusal :=
  lane2 4 p f d a b (shlLane f) s
def execVshr (p : Pred) (f : LFmt) (d a b : VReg) (s : State) : Host.Outcome State Fault Refusal :=
  lane2 4 p f d a b (shrLane f) s
def execVsra (p : Pred) (f : LFmt) (d a b : VReg) (s : State) : Host.Outcome State Fault Refusal :=
  lane2 4 p f d a b (sraLane f) s

/-! ## Comparison and selection (R153, R154) -/

def condInt (cc : VCond) (w : Nat) (a b : Nat) : Bool :=
  let x := qRead w a
  let y := qRead w b
  match cc with
  | .eq => a == b | .ne => a != b | .lt => decide (x < y) | .le => decide (x ≤ y)
  | .ltu => decide (a < b) | .leu => decide (a ≤ b) | .un => false

/-- A floating-point condition with its flags. -/
def condFp (cc : VCond) (f : Fmt) (a b : Nat) : Bool × Flags :=
  let r := fpCmp f a b
  (match cc with
    | .eq => r.1 == 2 | .ne => r.1 != 2 | .lt => r.1 == 1 | .le => r.1 == 1 || r.1 == 2
    | .un => r.1 == 8 | .ltu | .leu => false, r.2)

def condLane (cc : VCond) (f : LFmt) (a b : Nat) : Bool × Flags :=
  match laneFmt f with
  | none => (condInt cc f.width a b, 0)
  | some x => condFp cc x a b

def execVcmp (p : Pred) (cc : VCond) (f : LFmt) (d : MReg) (a b : VReg) (s : State) :
    Host.Outcome State Fault Refusal :=
  let m := activeLanes s p f.width
  compute s (m != 0) { srcV := [a, b] } fun s => do
    let rs := (enabledLanes m f.lanes).map fun i =>
      let r := condLane cc f (laneNat (readV s a) f.width i) (laneNat (readV s b) f.width i)
      (i, if r.1 then 1 else 0, r.2)
    let t ← raise s (unionFlags rs)
    let new := rs.foldl (fun x e => x + e.2.1 * 2 ^ e.1) 0
    .ok (setM t d (BitVec.ofNat 32 new ||| (lanesOn (getM s d) f.lanes &&& ~~~m)))

def execVsel (p : Pred) (f : LFmt) (d a b : VReg) (s : State) : Host.Outcome State Fault Refusal :=
  laneOp 4 p f d { srcV := [a, b] }
    (fun s i => (laneNat (if bit (getM s 0) i then readV s a else readV s b) f.width i, 0)) s

/-- min(max(d_i, a_i), b_i). -/
def clampLane (f : LFmt) (rm : RMode) (d a b : Nat) : Nat × Flags :=
  let x := maxLane f rm d a
  let y := minLane f rm x.1 b
  (y.1, x.2 ||| y.2)

def execVclamp (p : Pred) (f : LFmt) (d : Fin 8) (a b : VReg) (s : State) : Host.Outcome State Fault Refusal :=
  laneOp 4 p f (.v d) { srcV := [.v d, a, b] } (fun s i => clampLane f (myRm s) (laneNat (getV s d) f.width i)
    (laneNat (readV s a) f.width i) (laneNat (readV s b) f.width i)) s

/-! ## Moving lanes (R155) -/

def execVmov (p : Pred) (f : LFmt) (dotP : Bool) (d a : VReg) (s : State) : Host.Outcome State Fault Refusal :=
  withP p f.width dotP { srcV := [a] } (lane1 4 p f d a fun x => (x, 0)) s

/-- Every written lane of d gets lane j of a. -/
def broadcast (len : Nat) (p : Pred) (f : LFmt) (d a : VReg) (j : Nat) (s : State) :
    Host.Outcome State Fault Refusal :=
  laneOp len p f d { srcV := [a] } (fun s _ => (laneNat (readV s a) f.width j, 0)) s

def execVbcast (p : Pred) (f : LFmt) (d a : VReg) (j : BitVec 5) (s : State) : Host.Outcome State Fault Refusal :=
  broadcast 4 p f d a j.toNat s
def execVshuf (p : Pred) (f : LFmt) (d a b : VReg) (s : State) : Host.Outcome State Fault Refusal :=
  laneOp 4 p f d { srcV := [a, b] }
    (fun s i => (laneNat (readV s a) f.width (laneNat (readV s b) f.width i % f.lanes), 0)) s
def execVrot (p : Pred) (f : LFmt) (d a : VReg) (k : BitVec 5) (s : State) : Host.Outcome State Fault Refusal :=
  laneOp 4 p f d { srcV := [a] } (fun s i => (laneNat (readV s a) f.width ((i + k.toNat) % f.lanes), 0)) s

/-- VINS is decided by predicate bit j. -/
def execVins (p : Pred) (f : LFmt) (d : Fin 8) (a : SReg) (j : BitVec 5) (s : State) :
    Host.Outcome State Fault Refusal :=
  compute s (bit (predMask s p) j.toNat) { srcS := [a], srcV := [.v d], dstV := [.v d] } fun s =>
    .ok (writeLanes s (.v d) f.width (BitVec.ofNat 32 (2 ^ j.toNat))
      (packLanes f.width [(j.toNat, lowBits (readS s a) f.width)]))

def execVext (p : Pred) (f : LFmt) (d : SReg) (a : VReg) (j : BitVec 5) (s : State) :
    Host.Outcome State Fault Refusal :=
  compute s (predOn s p) { srcV := [a], dstS := [d] } fun s =>
    let x := laneNat (readV s a) f.width j.toNat
    .ok (writeS s d (if f.isInt then BitVec.ofInt 64 (qRead f.width x) else BitVec.ofNat 64 x))

def execViota (p : Pred) (f : LFmt) (dotP : Bool) (d : VReg) (a : SReg) (s : State) :
    Host.Outcome State Fault Refusal :=
  withP p f.width dotP { srcS := [a] }
    (laneOp 4 p f d { srcS := [a] } fun s i => (((readS s a).toNat + i) % 2 ^ f.width, 0)) s

/-! ## VRED, VLUT, estimates, VLOP3 (R152, R156 to R158) -/

/-- One level of the pairwise tree of R60: a pair with one lane absent passes the other (R156). -/
def treeLevel (g : Nat → Nat → Nat × Flags) : List (Option Nat) → List (Option Nat) × Flags
  | x :: y :: t =>
    let r := treeLevel g t
    match x, y with
    | some a, some b => let z := g a b; (some z.1 :: r.1, z.2 ||| r.2)
    | some a, none => (some a :: r.1, r.2)
    | none, y => (y :: r.1, r.2)
  | [x] => ([x], 0)
  | [] => ([], 0)

/-- `n` levels of the tree. -/
def tree (g : Nat → Nat → Nat × Flags) : Nat → List (Option Nat) → Nat × Flags
  | 0, l => ((l.headD none).getD 0, 0)
  | n + 1, l => let r := treeLevel g l; let q := tree g n r.1; (q.1, r.2 ||| q.2)

def redLane (op : RedOp) (f : LFmt) : RMode → Nat → Nat → Nat × Flags :=
  match op with
  | .add => addLane f | .min => minLane f | .max => maxLane f

/-- The result of VRED: a NaN is canonical, with NV for a signalling one, even where one lane alone takes part (R49,
R50). -/
def redResult (f : LFmt) (x : Nat) : Nat × Flags :=
  match laneFmt f with
  | none => (x, 0)
  | some g => match readFp g x with
    | .nan sg => (canonNaN g, flagIf sg fNV)
    | _ => (x, 0)

def reduceLanes (p : Pred) (op : RedOp) (f : LFmt) (d a : VReg) (s : State) : Host.Outcome State Fault Refusal :=
  let m := activeLanes s p f.width
  compute s (m != 0) { srcV := [a], dstV := [d] } fun s => do
    let l := (List.range f.lanes).map fun i => if bit m i then some (laneNat (readV s a) f.width i) else none
    let r := tree (redLane op f (myRm s)) 5 l
    let x := redResult f r.1
    let t ← raise s (r.2 ||| x.2)
    .ok (writeV t d (BitVec.ofNat 256 x.1))

def execVred (p : Pred) (op : RedOp) (f : LFmt) (dotP : Bool) (d a : VReg) (s : State) :
    Host.Outcome State Fault Refusal :=
  withP p f.width dotP { srcV := [a] } (reduceLanes p op f d a) s

def execVlut (p : Pred) (f : LFmt) (d a b : VReg) (s : State) : Host.Outcome State Fault Refusal :=
  laneOp 4 p f d { srcV := [a, b] } (fun s i => (laneNat (readV s b) f.width (laneNat (readV s a) 4 i), 0)) s

/-- An estimate of each lane (R158). -/
def estimateLanes (op : EstOp) (p : Pred) (f : LFmt) (dotP : Bool) (d a : VReg) (s : State) :
    Host.Outcome State Fault Refusal :=
  withP p f.width dotP { srcV := [a] }
    (lane1 4 p f d a fun x => match laneFmt f with | some g => estimate op g x | none => (x, 0)) s

def execVexp2 (p : Pred) (f : LFmt) (dotP : Bool) (d a : VReg) (s : State) : Host.Outcome State Fault Refusal :=
  estimateLanes .exp2 p f dotP d a s
def execVlog2 (p : Pred) (f : LFmt) (dotP : Bool) (d a : VReg) (s : State) : Host.Outcome State Fault Refusal :=
  estimateLanes .log2 p f dotP d a s
def execVrcp (p : Pred) (f : LFmt) (dotP : Bool) (d a : VReg) (s : State) : Host.Outcome State Fault Refusal :=
  estimateLanes .rcp p f dotP d a s
def execVrsq (p : Pred) (f : LFmt) (dotP : Bool) (d a : VReg) (s : State) : Host.Outcome State Fault Refusal :=
  estimateLanes .rsq p f dotP d a s
def execVtanh (p : Pred) (f : LFmt) (dotP : Bool) (d a : VReg) (s : State) : Host.Outcome State Fault Refusal :=
  estimateLanes .tanh p f dotP d a s

def execVlop3 (p : Pred) (d : Fin 8) (a b : VReg) (table : BitVec 8) (s : State) :
    Host.Outcome State Fault Refusal :=
  let m := predMask s p
  compute s (m != 0) { srcV := [.v d, a, b], dstV := [.v d] } fun s =>
    .ok (writeLanes s (.v d) 8 m (lop3Bits table (getV s d) (readV s a) (readV s b)))

/-! ## VFMA, VFMS and VDOT (R159) -/

def lane3 (p : Pred) (f : FFmt) (lf : LFmt) (d a b c : VReg) (g : Fmt → RMode → Nat → Nat → Nat → Nat × Flags)
    (s : State) : Host.Outcome State Fault Refusal :=
  let w := f.width
  laneOp 4 p lf d { srcV := [a, b, c] } (fun s i =>
    g (ffmt f) (myRm s) (laneNat (readV s a) w i) (laneNat (readV s b) w i) (laneNat (readV s c) w i)) s

def vfmaFmt : VfmaFmt → FFmt × LFmt
  | .fp64 => (.fp64, .fp64) | .fp32 => (.fp32, .fp32) | .bf16 => (.bf16, .bf16) | .fp16 => (.fp16, .fp16)

def execVfma (p : Pred) (f : VfmaFmt) (d a b c : VReg) (s : State) : Host.Outcome State Fault Refusal :=
  lane3 p (vfmaFmt f).1 (vfmaFmt f).2 d a b c fpFma s
def execVfms (p : Pred) (f : FmaFmt) (d a b c : VReg) (s : State) : Host.Outcome State Fault Refusal :=
  lane3 p (fmaFmt f) (match f with | .fp64 => .fp64 | .fp32 => .fp32) d a b c fpFms s

/-- Lane i of VDOT. -/
def dotLane (f : DotFmt) (rm : RMode) (a b c : W256) (i : Nat) : Nat × Flags :=
  match f with
  | .bf16 =>
    let pair := fun j => (readFp fmtBf16 (laneNat a 16 j), readFp fmtBf16 (laneNat b 16 j))
    finishFp fmtFp32 rm (dotNum rm [pair (2 * i), pair (2 * i + 1)] (readFp fmtFp32 (laneNat c 32 i)))
  | .i8 =>
    let term := fun j => qRead 8 (laneNat a 8 (4 * i + j)) * qRead 8 (laneNat b 8 (4 * i + j))
    (intCode 32 (qRead 32 (laneNat c 32 i) + term 0 + term 1 + term 2 + term 3), 0)

def execVdot (p : Pred) (f : DotFmt) (d a b c : VReg) (s : State) : Host.Outcome State Fault Refusal :=
  laneOp 4 p .fp32 d { srcV := [a, b, c] }
    (fun s i => dotLane f (myRm s) (readV s a) (readV s b) (readV s c) i) s

/-! ## Conversions (R160 to R163) -/

/-- The conversions of an instruction: width ws to width wd, the draws of `.SR` in lane order, one per written lane. -/
def convertLanes (p : Pred) (sr : Bool) (ws wd part : Nat) (d : VReg) (srcs : List VReg)
    (g : State → Nat → Nat → Option Nat → Nat × Flags) (s : State) : Host.Outcome State Fault Refusal :=
  let n := 256 / Nat.max ws wd
  let m := lanesOn (predMask s p) n
  compute s (m != 0) { srcV := srcs, dstV := [d] } fun s => do
    let js := enabledLanes m n
    let q := draws js.length (coreOf s s.cur).srseed
    let rs := (js.zip q.1).map fun e =>
      let src := if ws < wd then part * n + e.1 else e.1
      let r := g s src e.1 (if sr then some e.2 else none)
      (if wd < ws then part * n + e.1 else e.1, r.1, r.2)
    let t ← writeResults s d wd rs
    .ok (if sr then setSeed t q.2 else t)

/-- VCVT of one lane's code. -/
def vcvtLane (k : VcvtKind) (rm : RMode) (sr : Option Nat) (x : Nat) : Nat × Flags :=
  match k with
  | .ff dst src => convertFp (ffmt dst) rm sr (readFp (ffmt src) x)
  | .fi src dst => let y := numToInt rm (ifmtRange dst) (readFp (ffmt src) x); (intCode dst.width y.1, y.2)
  | .intF dst src => roundTo (ffmt dst) rm (intNum (ifmtRead src x))

/-- Source and destination widths of a kind. -/
def vcvtWidths : VcvtKind → Nat × Nat
  | .ff dst src => (src.width, dst.width)
  | .fi src dst => (src.width, dst.width)
  | .intF dst src => (src.width, dst.width)

def execVcvt (p : Pred) (sr : Bool) (k : VcvtKind) (part : BitVec 3) (d a : VReg) (s : State) :
    Host.Outcome State Fault Refusal :=
  let w := vcvtWidths k
  convertLanes p sr w.1 w.2 part.toNat d [a]
    (fun s i _ r => vcvtLane k (myRm s) r (laneNat (readV s a) w.1 i)) s

/-- A quotient delivered in a VNARROW destination (R53): a division by zero raises DZ alone, but for R35. -/
def narrowTo (dst : NarrowDst) (rm : RMode) (sr : Option Nat) (q : NumF) : Nat × Flags :=
  let toFp := fun (f : Fmt) (uns : Bool) =>
    let r := convertFp f rm sr q.1
    (r.1, if q.2 &&& fDZ ≠ 0 then fDZ ||| flagIf (uns && isNeg q.1) fNV else q.2 ||| r.2)
  let toInt := fun (f : IFmt) =>
    let r := match sr with
      | some x => numToIntSr x (ifmtRange f) q.1
      | none => numToInt rm (ifmtRange f) q.1
    (intCode f.width r.1, if q.2 &&& fDZ ≠ 0 then fDZ else q.2 ||| r.2)
  match dst with
  | .b8 v => toFp (fmtB8 v) v.uns
  | .bf16 => toFp fmtBf16 false
  | .fp16 => toFp fmtFp16 false
  | .i8 => toInt .i8 | .i16 => toInt .i16 | .n8 => toInt .n8 | .n16 => toInt .n16

def execVnarrow (p : Pred) (sr : Bool) (dst : NarrowDst) (part : BitVec 3) (d a : VReg) (s : State) :
    Host.Outcome State Fault Refusal :=
  convertLanes p sr 32 dst.width part.toNat d [a, .v 0] (fun s i _ r =>
    narrowTo dst (myRm s) r
      (divNum (readFp fmtFp32 (laneNat (readV s a) 32 i)) (readFp fmtFp32 (laneNat (getV s 0) 32 i)))) s

def widenFmt : WidenDst → Fmt
  | .fp32 => fmtFp32 | .bf16 => fmtBf16 | .fp16 => fmtFp16

/-- A VWIDEN source element (R163). -/
def widenSrc (f : WidenSrc) (x : Nat) : Num :=
  match f with
  | .b8 v => readFp (fmtB8 v) x
  | .i8 => intNum (ifmtRead .i8 x) | .n8 => intNum (ifmtRead .n8 x)
  | .i16 => intNum (ifmtRead .i16 x) | .n16 => intNum (ifmtRead .n16 x)
  | .i4 => intNum (qRead 4 x)

def execVwiden (p : Pred) (dst : WidenDst) (src : WidenSrc) (part : BitVec 3) (d a : VReg) (s : State) :
    Host.Outcome State Fault Refusal :=
  convertLanes p false src.width dst.width part.toNat d [a, .v 0] (fun s i j _ =>
    finishFp (widenFmt dst) (myRm s) (mulNum (widenSrc src (laneNat (readV s a) src.width i))
      (readFp (widenFmt dst) (laneNat (getV s 0) dst.width j)))) s

/-! ## Compressed lane forms (R84, R165) -/

def execCVadd (f : LFmt) (d b : VReg) (s : State) : Host.Outcome State Fault Refusal :=
  lane2 2 .always f d d b (addLane f) s
def execCVsub (f : LFmt) (d b : VReg) (s : State) : Host.Outcome State Fault Refusal :=
  lane2 2 .always f d d b (subLane f) s
def execCVmul (f : LFmt) (d b : VReg) (s : State) : Host.Outcome State Fault Refusal :=
  lane2 2 .always f d d b (mulLane f) s
def execCVmin (f : LFmt) (d b : VReg) (s : State) : Host.Outcome State Fault Refusal :=
  lane2 2 .always f d d b (minLane f) s
def execCVmax (f : LFmt) (d b : VReg) (s : State) : Host.Outcome State Fault Refusal :=
  lane2 2 .always f d d b (maxLane f) s
def execCVand (f : LFmt) (d b : VReg) (s : State) : Host.Outcome State Fault Refusal :=
  lane2 2 .always f d d b (bitLane (· &&& ·)) s
def execCVor (f : LFmt) (d b : VReg) (s : State) : Host.Outcome State Fault Refusal :=
  lane2 2 .always f d d b (bitLane (· ||| ·)) s
def execCVxor (f : LFmt) (d b : VReg) (s : State) : Host.Outcome State Fault Refusal :=
  lane2 2 .always f d d b (bitLane (· ^^^ ·)) s
def execCVmov (f : LFmt) (d b : VReg) (s : State) : Host.Outcome State Fault Refusal :=
  lane1 2 .always f d b (fun x => (x, 0)) s
def execCVshl (f : LFmt) (d b : VReg) (s : State) : Host.Outcome State Fault Refusal :=
  lane2 2 .always f d d b (shlLane f) s
def execCVshr (f : LFmt) (d b : VReg) (s : State) : Host.Outcome State Fault Refusal :=
  lane2 2 .always f d d b (shrLane f) s
def execCVsra (f : LFmt) (d b : VReg) (s : State) : Host.Outcome State Fault Refusal :=
  lane2 2 .always f d d b (sraLane f) s
def execCVabs (f : LFmt) (d b : VReg) (s : State) : Host.Outcome State Fault Refusal :=
  lane1 2 .always f d b (absLane f) s
def execCVneg (f : LFmt) (d b : VReg) (s : State) : Host.Outcome State Fault Refusal :=
  lane1 2 .always f d b (negLane f) s
/-- vd + vb × v0, exact before its one rounding. -/
def macLane (f : LFmt) (rm : RMode) (d b v0 : Nat) : Nat × Flags :=
  match laneFmt f with
  | none => (intCode f.width (qRead f.width d + qRead f.width b * qRead f.width v0), 0)
  | some x => fpFma x rm b v0 d
def execCVmac (f : LFmt) (d b : VReg) (s : State) : Host.Outcome State Fault Refusal :=
  laneOp 2 .always f d { srcV := [d, b, .v 0] } (fun s i => macLane f (myRm s) (laneNat (readV s d) f.width i)
    (laneNat (readV s b) f.width i) (laneNat (getV s 0) f.width i)) s
def execCVbcast (f : LFmt) (d b : VReg) (s : State) : Host.Outcome State Fault Refusal :=
  broadcast 2 .always f d b 0 s

end Sys2Proof.Machine
end

