-- ==== Sys2Proof/Machine/Dispatch.lean ====
section
/-!
DEFINITION. The meaning of every instruction and event: one arm per constructor.
-/
namespace Sys2Proof.Machine

def exec (i : Instr) (s : State) : Host.Outcome State Fault Refusal :=
  match i with
  | .add p d a b => Sys2Proof.Machine.execAdd p d a b s
  | .sub p d a b => Sys2Proof.Machine.execSub p d a b s
  | .and p d a b => Sys2Proof.Machine.execAnd p d a b s
  | .or p d a b => Sys2Proof.Machine.execOr p d a b s
  | .xor p d a b => Sys2Proof.Machine.execXor p d a b s
  | .andn p d a b => Sys2Proof.Machine.execAndn p d a b s
  | .orn p d a b => Sys2Proof.Machine.execOrn p d a b s
  | .sll p d a b => Sys2Proof.Machine.execSll p d a b s
  | .srl p d a b => Sys2Proof.Machine.execSrl p d a b s
  | .sra p d a b => Sys2Proof.Machine.execSra p d a b s
  | .rol p d a b => Sys2Proof.Machine.execRol p d a b s
  | .ror p d a b => Sys2Proof.Machine.execRor p d a b s
  | .min p d a b => Sys2Proof.Machine.execMin p d a b s
  | .max p d a b => Sys2Proof.Machine.execMax p d a b s
  | .minu p d a b => Sys2Proof.Machine.execMinu p d a b s
  | .maxu p d a b => Sys2Proof.Machine.execMaxu p d a b s
  | .slt p d a b => Sys2Proof.Machine.execSlt p d a b s
  | .sltu p d a b => Sys2Proof.Machine.execSltu p d a b s
  | .seq p d a b => Sys2Proof.Machine.execSeq p d a b s
  | .sne p d a b => Sys2Proof.Machine.execSne p d a b s
  | .sel p d a b => Sys2Proof.Machine.execSel p d a b s
  | .addi p d a imm => Sys2Proof.Machine.execAddi p d a imm s
  | .andi p d a imm => Sys2Proof.Machine.execAndi p d a imm s
  | .ori p d a imm => Sys2Proof.Machine.execOri p d a imm s
  | .xori p d a imm => Sys2Proof.Machine.execXori p d a imm s
  | .slli p d a sh => Sys2Proof.Machine.execSlli p d a sh s
  | .srli p d a sh => Sys2Proof.Machine.execSrli p d a sh s
  | .srai p d a sh => Sys2Proof.Machine.execSrai p d a sh s
  | .roli p d a sh => Sys2Proof.Machine.execRoli p d a sh s
  | .slti p d a imm => Sys2Proof.Machine.execSlti p d a imm s
  | .sltiu p d a imm => Sys2Proof.Machine.execSltiu p d a imm s
  | .lui d imm => Sys2Proof.Machine.execLui d imm s
  | .auipc d imm => Sys2Proof.Machine.execAuipc d imm s
  | .lop3 p d a b table => Sys2Proof.Machine.execLop3 p d a b table s
  | .fshl p d a b sh => Sys2Proof.Machine.execFshl p d a b sh s
  | .fshr p d a b sh => Sys2Proof.Machine.execFshr p d a b sh s
  | .mul p d a b => Sys2Proof.Machine.execMul p d a b s
  | .mulh p d a b => Sys2Proof.Machine.execMulh p d a b s
  | .mulhu p d a b => Sys2Proof.Machine.execMulhu p d a b s
  | .div p d a b => Sys2Proof.Machine.execDiv p d a b s
  | .divu p d a b => Sys2Proof.Machine.execDivu p d a b s
  | .rem p d a b => Sys2Proof.Machine.execRem p d a b s
  | .remu p d a b => Sys2Proof.Machine.execRemu p d a b s
  | .clz p d a => Sys2Proof.Machine.execClz p d a s
  | .ctz p d a => Sys2Proof.Machine.execCtz p d a s
  | .popc p d a => Sys2Proof.Machine.execPopc p d a s
  | .brev p d a => Sys2Proof.Machine.execBrev p d a s
  | .bswap p d a => Sys2Proof.Machine.execBswap p d a s
  | .sextB p d a => Sys2Proof.Machine.execSextB p d a s
  | .sextH p d a => Sys2Proof.Machine.execSextH p d a s
  | .sextW p d a => Sys2Proof.Machine.execSextW p d a s
  | .zextB p d a => Sys2Proof.Machine.execZextB p d a s
  | .zextH p d a => Sys2Proof.Machine.execZextH p d a s
  | .zextW p d a => Sys2Proof.Machine.execZextW p d a s
  | .setm p d a => Sys2Proof.Machine.execSetm p d a s
  | .getm p d a => Sys2Proof.Machine.execGetm p d a s
  | .mand p d a b => Sys2Proof.Machine.execMand p d a b s
  | .mor p d a b => Sys2Proof.Machine.execMor p d a b s
  | .mnot p d a => Sys2Proof.Machine.execMnot p d a s
  | .beq a b off => Sys2Proof.Machine.execBeq a b off s
  | .bne a b off => Sys2Proof.Machine.execBne a b off s
  | .blt a b off => Sys2Proof.Machine.execBlt a b off s
  | .bge a b off => Sys2Proof.Machine.execBge a b off s
  | .bltu a b off => Sys2Proof.Machine.execBltu a b off s
  | .bgeu a b off => Sys2Proof.Machine.execBgeu a b off s
  | .j off => Sys2Proof.Machine.execJ off s
  | .jal d off => Sys2Proof.Machine.execJal d off s
  | .jalr p d a imm => Sys2Proof.Machine.execJalr p d a imm s
  | .beos st off => Sys2Proof.Machine.execBeos st off s
  | .iter p d a off => Sys2Proof.Machine.execIter p d a off s
  | .iteri p d a mn => Sys2Proof.Machine.execIteri p d a mn s
  | .ld p d a sz m off => Sys2Proof.Machine.execLd p d a sz m off s
  | .ldIndexed p d a sz b => Sys2Proof.Machine.execLdIndexed p d a sz b s
  | .st p d a sz m off => Sys2Proof.Machine.execSt p d a sz m off s
  | .stIndexed p d a sz b => Sys2Proof.Machine.execStIndexed p d a sz b s
  | .lda p d a sz sc off => Sys2Proof.Machine.execLda p d a sz sc off s
  | .stl p d a sz sc off => Sys2Proof.Machine.execStl p d a sz sc off s
  | .pref p hint a off => Sys2Proof.Machine.execPref p hint a off s
  | .ldp p d a m off => Sys2Proof.Machine.execLdp p d a m off s
  | .ldpIndexed p d a b => Sys2Proof.Machine.execLdpIndexed p d a b s
  | .stp p d a m off => Sys2Proof.Machine.execStp p d a m off s
  | .stpIndexed p d a b => Sys2Proof.Machine.execStpIndexed p d a b s
  | .clrp p d a m off => Sys2Proof.Machine.execClrp p d a m off s
  | .clrpIndexed p d a b => Sys2Proof.Machine.execClrpIndexed p d a b s
  | .vldp p d a m off => Sys2Proof.Machine.execVldp p d a m off s
  | .vldpIndexed p d a b => Sys2Proof.Machine.execVldpIndexed p d a b s
  | .vstp p d a m off => Sys2Proof.Machine.execVstp p d a m off s
  | .vstpIndexed p d a b => Sys2Proof.Machine.execVstpIndexed p d a b s
  | .vld p d a m off => Sys2Proof.Machine.execVld p d a m off s
  | .vldIndexed p d a b => Sys2Proof.Machine.execVldIndexed p d a b s
  | .vst p d a m off => Sys2Proof.Machine.execVst p d a m off s
  | .vstIndexed p d a b => Sys2Proof.Machine.execVstIndexed p d a b s
  | .vgath p d a ew idx => Sys2Proof.Machine.execVgath p d a ew idx s
  | .vscat p d a ew idx => Sys2Proof.Machine.execVscat p d a ew idx s
  | .vstt p d a m b ew => Sys2Proof.Machine.execVstt p d a m b ew s
  | .stn p d a m off na => Sys2Proof.Machine.execStn p d a m off na s
  | .amo o op z sc d a b => Sys2Proof.Machine.execAmo o op z sc d a b s
  | .cas o z sc d a b => Sys2Proof.Machine.execCas o z sc d a b s
  | .casXchg o z sc d a b => Sys2Proof.Machine.execCasXchg o z sc d a b s
  | .famo o op f sc d a b => Sys2Proof.Machine.execFamo o op f sc d a b s
  | .red rel op z sc a b => Sys2Proof.Machine.execRed rel op z sc a b s
  | .fred rel op f sc a b => Sys2Proof.Machine.execFred rel op f sc a b s
  | .fence o sc red uo => Sys2Proof.Machine.execFence o sc red uo s
  | .ifence => Sys2Proof.Machine.execIfence s
  | .waitge p d a b => Sys2Proof.Machine.execWaitge p d a b s
  | .waitgen p d a b => Sys2Proof.Machine.execWaitgen p d a b s
  | .signal p a b => Sys2Proof.Machine.execSignal p a b s
  | .bar p l => Sys2Proof.Machine.execBar p l s
  | .arrive p l d => Sys2Proof.Machine.execArrive p l d s
  | .tnow p d => Sys2Proof.Machine.execTnow p d s
  | .tuntil p d a => Sys2Proof.Machine.execTuntil p d a s
  | .fadd p f d a b => Sys2Proof.Machine.execFadd p f d a b s
  | .fsub p f d a b => Sys2Proof.Machine.execFsub p f d a b s
  | .fmul p f d a b => Sys2Proof.Machine.execFmul p f d a b s
  | .fdiv p f d a b => Sys2Proof.Machine.execFdiv p f d a b s
  | .fsqrt p f d a => Sys2Proof.Machine.execFsqrt p f d a s
  | .fmin p f d a b => Sys2Proof.Machine.execFmin p f d a b s
  | .fmax p f d a b => Sys2Proof.Machine.execFmax p f d a b s
  | .fsgn p f d a b => Sys2Proof.Machine.execFsgn p f d a b s
  | .fcmp p f d a b => Sys2Proof.Machine.execFcmp p f d a b s
  | .fclass p f d a => Sys2Proof.Machine.execFclass p f d a s
  | .fma p f d a b c => Sys2Proof.Machine.execFma p f d a b c s
  | .fms p f d a b c => Sys2Proof.Machine.execFms p f d a b c s
  | .fnma p f d a b c => Sys2Proof.Machine.execFnma p f d a b c s
  | .fcvt p sr dst src d a => Sys2Proof.Machine.execFcvt p sr dst src d a s
  | .fcvtWideToB8 p sr src dst d a => Sys2Proof.Machine.execFcvtWideToB8 p sr src dst d a s
  | .fcvtB8ToWide p dst src d a => Sys2Proof.Machine.execFcvtB8ToWide p dst src d a s
  | .fcvti p src dst r d a => Sys2Proof.Machine.execFcvti p src dst r d a s
  | .icvtf p dst src r d a => Sys2Proof.Machine.execIcvtf p dst src r d a s
  | .frnd p f r d a => Sys2Proof.Machine.execFrnd p f r d a s
  | .vadd p f d a b => Sys2Proof.Machine.execVadd p f d a b s
  | .vsub p f d a b => Sys2Proof.Machine.execVsub p f d a b s
  | .vmul p f d a b => Sys2Proof.Machine.execVmul p f d a b s
  | .vmulh p f d a b => Sys2Proof.Machine.execVmulh p f d a b s
  | .vmin p f d a b => Sys2Proof.Machine.execVmin p f d a b s
  | .vmax p f d a b => Sys2Proof.Machine.execVmax p f d a b s
  | .vabs p f dotP d a => Sys2Proof.Machine.execVabs p f dotP d a s
  | .vneg p f dotP d a => Sys2Proof.Machine.execVneg p f dotP d a s
  | .vand p f d a b => Sys2Proof.Machine.execVand p f d a b s
  | .vor p f d a b => Sys2Proof.Machine.execVor p f d a b s
  | .vxor p f d a b => Sys2Proof.Machine.execVxor p f d a b s
  | .vshl p f d a b => Sys2Proof.Machine.execVshl p f d a b s
  | .vshr p f d a b => Sys2Proof.Machine.execVshr p f d a b s
  | .vsra p f d a b => Sys2Proof.Machine.execVsra p f d a b s
  | .vcmp p cc f d a b => Sys2Proof.Machine.execVcmp p cc f d a b s
  | .vsel p f d a b => Sys2Proof.Machine.execVsel p f d a b s
  | .vclamp p f d a b => Sys2Proof.Machine.execVclamp p f d a b s
  | .vmov p f dotP d a => Sys2Proof.Machine.execVmov p f dotP d a s
  | .vbcast p f d a j => Sys2Proof.Machine.execVbcast p f d a j s
  | .vshuf p f d a b => Sys2Proof.Machine.execVshuf p f d a b s
  | .vrot p f d a k => Sys2Proof.Machine.execVrot p f d a k s
  | .vred p op f dotP d a => Sys2Proof.Machine.execVred p op f dotP d a s
  | .vins p f d a j => Sys2Proof.Machine.execVins p f d a j s
  | .vext p f d a j => Sys2Proof.Machine.execVext p f d a j s
  | .viota p f dotP d a => Sys2Proof.Machine.execViota p f dotP d a s
  | .vlut p f d a b => Sys2Proof.Machine.execVlut p f d a b s
  | .vexp2 p f dotP d a => Sys2Proof.Machine.execVexp2 p f dotP d a s
  | .vlog2 p f dotP d a => Sys2Proof.Machine.execVlog2 p f dotP d a s
  | .vrcp p f dotP d a => Sys2Proof.Machine.execVrcp p f dotP d a s
  | .vrsq p f dotP d a => Sys2Proof.Machine.execVrsq p f dotP d a s
  | .vtanh p f dotP d a => Sys2Proof.Machine.execVtanh p f dotP d a s
  | .vlop3 p d a b table => Sys2Proof.Machine.execVlop3 p d a b table s
  | .vfma p f d a b c => Sys2Proof.Machine.execVfma p f d a b c s
  | .vfms p f d a b c => Sys2Proof.Machine.execVfms p f d a b c s
  | .vdot p f d a b c => Sys2Proof.Machine.execVdot p f d a b c s
  | .vcvt p sr k part d a => Sys2Proof.Machine.execVcvt p sr k part d a s
  | .vnarrow p sr dst part d a => Sys2Proof.Machine.execVnarrow p sr dst part d a s
  | .vwiden p dst src part d a => Sys2Proof.Machine.execVwiden p dst src part d a s
  | .qmul p w f d a => Sys2Proof.Machine.execQmul p w f d a s
  | .qdiv p w f d a => Sys2Proof.Machine.execQdiv p w f d a s
  | .qsqrt p w f d a => Sys2Proof.Machine.execQsqrt p w f d a s
  | .cVadd f d b => Sys2Proof.Machine.execCVadd f d b s
  | .cVsub f d b => Sys2Proof.Machine.execCVsub f d b s
  | .cVmul f d b => Sys2Proof.Machine.execCVmul f d b s
  | .cVmin f d b => Sys2Proof.Machine.execCVmin f d b s
  | .cVmax f d b => Sys2Proof.Machine.execCVmax f d b s
  | .cVand f d b => Sys2Proof.Machine.execCVand f d b s
  | .cVor f d b => Sys2Proof.Machine.execCVor f d b s
  | .cVxor f d b => Sys2Proof.Machine.execCVxor f d b s
  | .cVmov f d b => Sys2Proof.Machine.execCVmov f d b s
  | .cVshl f d b => Sys2Proof.Machine.execCVshl f d b s
  | .cVshr f d b => Sys2Proof.Machine.execCVshr f d b s
  | .cVsra f d b => Sys2Proof.Machine.execCVsra f d b s
  | .cVabs f d b => Sys2Proof.Machine.execCVabs f d b s
  | .cVneg f d b => Sys2Proof.Machine.execCVneg f d b s
  | .cVmac f d b => Sys2Proof.Machine.execCVmac f d b s
  | .cVbcast f d b => Sys2Proof.Machine.execCVbcast f d b s
  | .scfg p st a => Sys2Proof.Machine.execScfg p st a s
  | .sbind p st port => Sys2Proof.Machine.execSbind p st port s
  | .spos p d st => Sys2Proof.Machine.execSpos p d st s
  | .sstop p st => Sys2Proof.Machine.execSstop p st s
  | .srew p st a => Sys2Proof.Machine.execSrew p st a s
  | .sflush p st => Sys2Proof.Machine.execSflush p st s
  | .sskip p st a => Sys2Proof.Machine.execSskip p st a s
  | .spawn p d a b => Sys2Proof.Machine.execSpawn p d a b s
  | .endStrand p => Sys2Proof.Machine.execEndStrand p s
  | .yield p => Sys2Proof.Machine.execYield p s
  | .sleep p d a => Sys2Proof.Machine.execSleep p d a s
  | .wake p a b => Sys2Proof.Machine.execWake p a b s
  | .send p d a b tag => Sys2Proof.Machine.execSend p d a b tag s
  | .senda p d a b tag => Sys2Proof.Machine.execSenda p d a b tag s
  | .fan p d a b dmask => Sys2Proof.Machine.execFan p d a b dmask s
  | .prio p d a => Sys2Proof.Machine.execPrio p d a s
  | .gang p d a b c => Sys2Proof.Machine.execGang p d a b c s
  | .gwait p d a => Sys2Proof.Machine.execGwait p d a s
  | .gstat p d a => Sys2Proof.Machine.execGstat p d a s
  | .gthaw p a => Sys2Proof.Machine.execGthaw p a s
  | .movk p d k => Sys2Proof.Machine.execMovk p d k s
  | .movtk p k a => Sys2Proof.Machine.execMovtk p k a s
  | .ppeek p d port => Sys2Proof.Machine.execPpeek p d port s
  | .topTmm p d a b => Sys2Proof.Machine.execTopTmm p d a b s
  | .topTadd p d a b => Sys2Proof.Machine.execTopTadd p d a b s
  | .topTmul p d a b => Sys2Proof.Machine.execTopTmul p d a b s
  | .topTscale p d a b => Sys2Proof.Machine.execTopTscale p d a b s
  | .topTact p d a b => Sys2Proof.Machine.execTopTact p d a b s
  | .topTsum p d a b => Sys2Proof.Machine.execTopTsum p d a b s
  | .topTsoft p d a b => Sys2Proof.Machine.execTopTsoft p d a b s
  | .topTnorm p d a b => Sys2Proof.Machine.execTopTnorm p d a b s
  | .topTlay p d a b => Sys2Proof.Machine.execTopTlay p d a b s
  | .topTcopy p d a b => Sys2Proof.Machine.execTopTcopy p d a b s
  | .recon p a b => Sys2Proof.Machine.execRecon p a b s
  | .recoff p => Sys2Proof.Machine.execRecoff p s
  | .recmark p a => Sys2Proof.Machine.execRecmark p a s
  | .reverse p d a => Sys2Proof.Machine.execReverse p d a s
  | .cpgo p ch d => Sys2Proof.Machine.execCpgo p ch d s
  | .cpblk p ch d a b => Sys2Proof.Machine.execCpblk p ch d a b s
  | .ftgo p d a => Sys2Proof.Machine.execFtgo p d a s
  | .armw p d a b => Sys2Proof.Machine.execArmw p d a b s
  | .csrr d csr => Sys2Proof.Machine.execCsrr d csr s
  | .csrw csr a => Sys2Proof.Machine.execCsrw csr a s
  | .csrs csr a => Sys2Proof.Machine.execCsrs csr a s
  | .csrc csr a => Sys2Proof.Machine.execCsrc csr a s
  | .trap p a n => Sys2Proof.Machine.execTrap p a n s
  | .rett p => Sys2Proof.Machine.execRett p s
  | .ecall p => Sys2Proof.Machine.execEcall p s
  | .ebreak p => Sys2Proof.Machine.execEbreak p s
  | .illegalInstruction w => Sys2Proof.Machine.execIllegalInstruction w s
  | .loadResponse c slot idx => Sys2Proof.Machine.execLoadResponse c slot idx s
  | .storePerform c idx => Sys2Proof.Machine.execStorePerform c idx s
  | .reductionAck c idx => Sys2Proof.Machine.execReductionAck c idx s
  | .releaseComplete c slot => Sys2Proof.Machine.execReleaseComplete c slot s
  | .faultAcknowledgement c idx => Sys2Proof.Machine.execFaultAcknowledgement c idx s
  | .slicePortRequest c slot idx part => Sys2Proof.Machine.execSlicePortRequest c slot idx part s
  | .stackAccess c slot idx part => Sys2Proof.Machine.execStackAccess c slot idx part s
  | .networkRetry idx => Sys2Proof.Machine.execNetworkRetry idx s
  | .spawnRequest idx => Sys2Proof.Machine.execSpawnRequest idx s
  | .message idx => Sys2Proof.Machine.execMessage idx s
  | .fanStartMessage idx => Sys2Proof.Machine.execFanStartMessage idx s
  | .wakeDelivery idx => Sys2Proof.Machine.execWakeDelivery idx s
  | .completionMessage idx => Sys2Proof.Machine.execCompletionMessage idx s
  | .gangWakeMessage idx => Sys2Proof.Machine.execGangWakeMessage idx s
  | .scopeMissMessage idx => Sys2Proof.Machine.execScopeMissMessage idx s
  | .scopeMissAutoWiden idx => Sys2Proof.Machine.execScopeMissAutoWiden idx s
  | .tagWiden token => Sys2Proof.Machine.execTagWiden token s
  | .slotActivation c => Sys2Proof.Machine.execSlotActivation c s
  | .outboundSend c idx => Sys2Proof.Machine.execOutboundSend c idx s
  | .sleepDeadline c slot => Sys2Proof.Machine.execSleepDeadline c slot s
  | .fanTimedStart c => Sys2Proof.Machine.execFanTimedStart c s
  | .bondCompletion b => Sys2Proof.Machine.execBondCompletion b s
  | .schedulerPlace part idx cx cy => Sys2Proof.Machine.execSchedulerPlace part idx cx cy s
  | .priorityAging part idx => Sys2Proof.Machine.execPriorityAging part idx s
  | .streamReadFetch c n => Sys2Proof.Machine.execStreamReadFetch c n s
  | .streamWritePerform c n => Sys2Proof.Machine.execStreamWritePerform c n s
  | .boundStreamPush c n => Sys2Proof.Machine.execBoundStreamPush c n s
  | .boundStreamPop c n => Sys2Proof.Machine.execBoundStreamPop c n s
  | .gangClaim c slot cell => Sys2Proof.Machine.execGangClaim c slot cell s
  | .gangTimedStart c slot => Sys2Proof.Machine.execGangTimedStart c slot s
  | .wsLatchEntry cell => Sys2Proof.Machine.execWsLatchEntry cell s
  | .gangPulse cell => Sys2Proof.Machine.execGangPulse cell s
  | .gangComplete c slot => Sys2Proof.Machine.execGangComplete c slot s
  | .gangThawRequest c slot preempt => Sys2Proof.Machine.execGangThawRequest c slot preempt s
  | .gangPreemptThaw c slot => Sys2Proof.Machine.execGangPreemptThaw c slot s
  | .gangFaultThaw c slot => Sys2Proof.Machine.execGangFaultThaw c slot s
  | .seamBufferForward c link => Sys2Proof.Machine.execSeamBufferForward c link s
  | .seamContextTimeout c link idx => Sys2Proof.Machine.execSeamContextTimeout c link idx s
  | .pageWalk c slot => Sys2Proof.Machine.execPageWalk c slot s
  | .leaseGrant node page granted size rd wr epoch => Sys2Proof.Machine.execLeaseGrant node page granted size rd wr epoch s
  | .leaseRecall node page => Sys2Proof.Machine.execLeaseRecall node page s
  | .peerAccess part peer off write => Sys2Proof.Machine.execPeerAccess part peer off write s
  | .smrelWrite token => Sys2Proof.Machine.execSmrelWrite token s
  | .copyAccept c ch n refuse => Sys2Proof.Machine.execCopyAccept c ch n refuse s
  | .copyRefusalRetry c ch n => Sys2Proof.Machine.execCopyRefusalRetry c ch n s
  | .copyTimedStart c ch n => Sys2Proof.Machine.execCopyTimedStart c ch n s
  | .copyLanding c ch n word => Sys2Proof.Machine.execCopyLanding c ch n word s
  | .copyComplete c ch n => Sys2Proof.Machine.execCopyComplete c ch n s
  | .copyFault c ch n word => Sys2Proof.Machine.execCopyFault c ch n word s
  | .footingAtomic c idx => Sys2Proof.Machine.execFootingAtomic c idx s
  | .optimiserPiece c n piece => Sys2Proof.Machine.execOptimiserPiece c n piece s
  | .optimiserComplete c n => Sys2Proof.Machine.execOptimiserComplete c n s
  | .seqCommand die q splits staged accs puts => Sys2Proof.Machine.execSeqCommand die q splits staged accs puts s
  | .seqCommandComplete die q => Sys2Proof.Machine.execSeqCommandComplete die q s
  | .faultMessageArrival idx => Sys2Proof.Machine.execFaultMessageArrival idx s
  | .serviceStrandStart cl => Sys2Proof.Machine.execServiceStrandStart cl s
  | .faultSlotTimeout cl => Sys2Proof.Machine.execFaultSlotTimeout cl s
  | .fractResume => Sys2Proof.Machine.execFractResume s
  | .fractSkip => Sys2Proof.Machine.execFractSkip s
  | .fractKill => Sys2Proof.Machine.execFractKill s
  | .eccCorrected c => Sys2Proof.Machine.execEccCorrected c s
  | .uncorrectableError site => Sys2Proof.Machine.execUncorrectableError site s
  | .linkReplay idx => Sys2Proof.Machine.execLinkReplay idx s
  | .controlStateError owner => Sys2Proof.Machine.execControlStateError owner s
  | .timeSliceExpiry part => Sys2Proof.Machine.execTimeSliceExpiry part s
  | .partitionHalt part => Sys2Proof.Machine.execPartitionHalt part s
  | .partitionRestore part job => Sys2Proof.Machine.execPartitionRestore part job s
  | .partitionAssign part clusters memStacks keys window => Sys2Proof.Machine.execPartitionAssign part clusters memStacks keys window s
  | .partitionTeardown part => Sys2Proof.Machine.execPartitionTeardown part s
  | .shadowCombine c idx => Sys2Proof.Machine.execShadowCombine c idx s
  | .shadowMerge die idx => Sys2Proof.Machine.execShadowMerge die idx s
  | .shadowCapacityMerge die => Sys2Proof.Machine.execShadowCapacityMerge die s
  | .ptpMessage slow fast err => Sys2Proof.Machine.execPtpMessage slow fast err s
  | .tuntilDeadline c slot => Sys2Proof.Machine.execTuntilDeadline c slot s
  | .qdbWrite q => Sys2Proof.Machine.execQdbWrite q s
  | .qcfgWrite q v => Sys2Proof.Machine.execQcfgWrite q v s
  | .hostRegisterWrite r v => Sys2Proof.Machine.execHostRegisterWrite r v s
  | .jobConfigWrite j ptroot fhvec smvec tvec => Sys2Proof.Machine.execJobConfigWrite j ptroot fhvec smvec tvec s
  | .queuePollTimeout q => Sys2Proof.Machine.execQueuePollTimeout q s
  | .launch q => Sys2Proof.Machine.execLaunch q s
  | .active q => Sys2Proof.Machine.execActive q s
  | .copy q => Sys2Proof.Machine.execCopy q s
  | .signalPacket q => Sys2Proof.Machine.execSignalPacket q s
  | .wait q => Sys2Proof.Machine.execWait q s
  | .fencePacket q => Sys2Proof.Machine.execFencePacket q s
  | .packetComplete q n => Sys2Proof.Machine.execPacketComplete q n s
  | .hostMemoryAccess pa write => Sys2Proof.Machine.execHostMemoryAccess pa write s
  | .ustisFrame node seq => Sys2Proof.Machine.execUstisFrame node seq s
  | .ustisRetransmitTimeout node => Sys2Proof.Machine.execUstisRetransmitTimeout node s
  | .nvmeCompletion idx mediaError => Sys2Proof.Machine.execNvmeCompletion idx mediaError s
  | .hirqWrite v => Sys2Proof.Machine.execHirqWrite v s
  | .nactlWrite n v => Sys2Proof.Machine.execNactlWrite n v s
  | .nalRead d n => Sys2Proof.Machine.execNalRead d n s
  | .tlbinvAll => Sys2Proof.Machine.execTlbinvAll s
  | .tlbinvVa va => Sys2Proof.Machine.execTlbinvVa va s
  | .containWrite v => Sys2Proof.Machine.execContainWrite v s
  | .deviceReset => Sys2Proof.Machine.execDeviceReset s
  | .powerOn => Sys2Proof.Machine.execPowerOn s
  | .firmwareImage image version => Sys2Proof.Machine.execFirmwareImage image version s
  | .attestationRequest nonce => Sys2Proof.Machine.execAttestationRequest nonce s
  | .securityAlarm cause => Sys2Proof.Machine.execSecurityAlarm cause s
  | .thermalThrottle => Sys2Proof.Machine.execThermalThrottle s
  | .thermalShutdown => Sys2Proof.Machine.execThermalShutdown s
  | .powerLimitSet watts => Sys2Proof.Machine.execPowerLimitSet watts s
  | .synchronisationLost => Sys2Proof.Machine.execSynchronisationLost s
  | .primaryPortDown down => Sys2Proof.Machine.execPrimaryPortDown down s

end Sys2Proof.Machine
end

