-- ==== Sys2Proof/Machine/Issue.lean ====
section
/-!
DEFINITION. Fetch (R63, R64, R81, R131) and the choice of the strand that issues (R205).
-/
namespace Sys2Proof.Machine

/-! ## Fetch -/

/-- A halfword that a fetch reads at a location: in a lazy issue, bytes that the strand has fetched before stay as they
were until its IFENCE (R131). -/
def fetchedHalf (t : Strand) (lazy_ : Bool) (loc : Nat) (w : W64) : Nat :=
  let now := fun (i : Nat) => byteAt w ((loc + i) % 8)
  let seen := fun (i : Nat) =>
    if lazy_ && t.ifetch.any (fun e => e.1 == loc + i) then memGet t.ifetch (loc + i) else now i
  (seen 0).toNat + 256 * (seen 1).toNat

/-- The bytes of a halfword kept for the strand's later fetches. -/
def keepFetched (s : State) (loc h : Nat) : State :=
  if s.lazy then modMe s fun t => { t with
    ifetch := memSet (loc + 1) (BitVec.ofNat 8 (h / 256)) (memSet loc (BitVec.ofNat 8 h) t.ifetch) }
  else s

/-- Whose access a fetch of the issuing strand is: of a replicated page it reads the copy of the fetching core's die
(R434). -/
def fetchWho (s : State) : Who := { strandWho s.cur (me s) with copyDie := dieNum s.cur }

/-- The halfword at an address, or how its fetch stops (R64, R117). -/
def fetchHalf (s : State) (va : W64) : Except Stop (Nat × State) :=
  match checkAddr s (fetchWho s) .fetch (!s.lazy) va with
  | .violation => .error (.trap 0x08 va)
  | .fault r l x => .error (.post (translationMsg s .fetch false va r l x))
  | .await => .error (.block (.walk va true false))
  | .ok r s => match strandWord s s.cur (me s).uid s.nextSeq (wordOf r.loc) r.key (byteMask (r.loc % 8) 2) with
    | none => .error (.park (wordOf r.loc))
    | some (w, bad) =>
      if bad then .error (.trap 0x0D va)
      else
        let h := fetchedHalf (me s) s.lazy r.loc w
        .ok (h, keepFetched s r.loc h)

/-- The instruction at the PC as a number with its length in bytes; a fetch that stops, with the length known so far. -/
def fetchWord (s : State) : Except (Stop × Nat) ((Nat × Nat) × State) :=
  match fetchHalf s (me s).pc with
  | .error x => .error (x, 2)
  | .ok (h, s) =>
    if instrLength h = 2 then .ok ((h, 2), s)
    else match fetchHalf s ((me s).pc + 2) with
      | .error x => .error (x, 4)
      | .ok (h2, s) => .ok ((h + 65536 * h2, 4), s)

/-- The issuing strand fetches, decodes and executes one instruction; a word that is no instruction raises cause 0x01
(R80, R81). -/
def attempt (s : State) : Host.Outcome State Fault Refusal :=
  match fetchWord s with
  | .error (x, len) => .next (stopStep s len x)
  | .ok ((w, len), s) => match decode (leBytes len w) with
    | .ok (i, _) => exec i s
    | .error _ => exec (.illegalInstruction (BitVec.ofNat 64 w)) s

/-! ## The choice (R205) -/

/-- Whether a strand may be tried. -/
def mayTry (t : Strand) : Bool := t.occ && (t.wait == .none || t.wait == .notReady)

/-- Whether an attempt found the instruction ready (R23, R100). -/
def issued (c : CoreId) (i : Slot) (uid : Nat) : Host.Outcome State Fault Refusal → Bool
  | .next t => !((strandAt t c i).occ && (strandAt t c i).uid == uid && (strandAt t c i).wait == .notReady)
  | _ => true

/-- The eligible slots of a core, with what each would do. -/
def eligible (s : State) (c : CoreId) (lazy_ : Bool) : List (Slot × Host.Outcome State Fault Refusal) :=
  ((coreStrands (coreOf s c)).filter fun e => mayTry e.2).filterMap fun e =>
    let r := attempt { s with cur := c, slot := e.1, lazy := lazy_ }
    if issued c e.1 e.2.uid r then some (e.1, r) else none

/-- The first of some slots after a given one, in slot order, wrapping. -/
def nextSlot (l : List Slot) (last : Slot) : Option Slot :=
  ((List.range 8).map fun k => Fin.ofNat 8 (last.val + 1 + k)).find? fun i => l.contains i

/-- SPRIO.CLASS of a slot. -/
def classOf (s : State) (c : CoreId) (i : Slot) : Bool := bit (strandAt s c i).sprio 0

/-- The choice of R205: the slot, its class, and the slot whose pending YIELD is cleared. -/
def choose (s : State) (c : CoreId) (l : List Slot) : Option (Slot × Bool × Option Slot) :=
  let k := coreOf s c
  let high := l.filter fun i => classOf s c i
  let low := l.filter fun i => !classOf s c i
  let cls := if low = [] then true else if high = [] then false else decide (k.run < 15)
  let mine := if cls then high else low
  match nextSlot mine (if cls then k.last1 else k.last0) with
  | none => none
  | some i =>
    if (strandAt s c i).yieldPend && decide (1 < mine.length) then
      match nextSlot mine i with
      | some j => some (j, cls, some i)
      | none => some (i, cls, none)
    else some (i, cls, none)

/-- The counters after a choice, and the YIELD that it clears. -/
def noteIssue (s : State) (c : CoreId) (i : Slot) (cls : Bool) (lowReady : Bool) (yielded : Option Slot) : State :=
  let s := match yielded with
    | some j => modStrand s c j fun t => { t with yieldPend := false }
    | none => s
  modCore s c fun k => { k with
    last0 := if cls then k.last0 else i
    last1 := if cls then i else k.last1
    run := if cls && lowReady then k.run + 1 else 0 }

/-- Whether an instruction that had issued waits for its release alone, and the release is performed. -/
def mayComplete (s : State) (c : CoreId) (t : Strand) : Bool :=
  match t.wait with
  | .release sc uo red => !outstanding s c t.uid s.nextSeq sc uo red
  | _ => false

/-- A halted core issues nothing; a fence, STL or atomic that had issued completes before the save (R424, R425). -/
def completeIssued (c : CoreId) (lazy_ : Bool) (s : State) : Host.Outcome State Fault Refusal :=
  match (coreStrands (coreOf s c)).find? fun e => mayComplete s c e.2 with
  | some (i, _) => attempt { modStrand s c i (fun t => { t with wait := .none }) with cur := c, slot := i, lazy := lazy_ }
  | none => .next s

/-- One cycle of a core's issue, which the flags raised in that cycle are told apart by (R21; log 122): the chosen
strand issues one instruction; a frozen or halted core, or one with no eligible strand, is idle. -/
def issueOn (c : CoreId) (lazy_ : Bool) (s : State) : Host.Outcome State Fault Refusal :=
  let s := openRaised s c
  if (coreOf s c).frozen.isSome then .next s
  else if (coreOf s c).halted then completeIssued c lazy_ s
  else
    let l := eligible s c lazy_
    let slots := l.map fun e => e.1
    match choose s c slots with
    | none => .next s
    | some (i, cls, yielded) =>
      match l.find? fun e => e.1 == i with
      | some (_, .next t) => .next (closeRaised (noteIssue t c i cls (slots.any fun j => !classOf s c j) yielded) c)
      | some (_, r) => r
      | none => .next s

end Sys2Proof.Machine
end

