-- ==== Sys2Proof/Machine/Auto.lean ====
section
/-!
DEFINITION. The part's own steps that are due in a state, for the cycle that passes when the environment names no
other turn. The environment may have each of them at any other time; the choices they leave open are made here as
plainly as can be: nothing is refused, nothing fails, no product is cut, no staging byte changes.
-/
namespace Sys2Proof.Machine

/-- n − 1 down to 0. -/
def below (n : Nat) : List Nat := (List.range n).reverse

/-- A step of the part. -/
abbrev Move := State → Host.Outcome State Fault Refusal

/-- Steps of one strand. -/
def strandEvents (c : CoreId) (i : Slot) (t : Strand) : List Move :=
  (match t.wait with
    | .walk _ _ _ => [execPageWalk c i]
    | .sleep _ _ => [execSleepDeadline c i]
    | .tuntil _ => [execTuntilDeadline c i]
    | _ => [])
  ++ (below t.inflight.length).flatMap (fun idx =>
      (List.range (match t.inflight[idx]? with | some p => p.parts.length | none => 0)).flatMap (fun j =>
        [execSlicePortRequest c i idx j, execStackAccess c i idx j])
      ++ [execLoadResponse c i idx])
  ++ (if t.arriving.isEmpty && (match t.wait with | .release _ _ _ => false | _ => true) then []
      else [execReleaseComplete c i])

/-- Steps of one stream; a write stream performs what it holds in any state (R189). -/
def streamEvents (c : CoreId) (n : StreamId) (st : Stream) : List Move :=
  if sdWrite st.desc then
    List.replicate (Nat.min st.buf.length 8) (execStreamWritePerform c n)
    ++ (if st.mode == .active && st.bound.isSome then [execBoundStreamPop c n, execStreamWritePerform c n] else [])
  else if st.mode ≠ .active then []
  else List.replicate 8 (execStreamReadFetch c n) ++ (if st.bound.isSome then [execBoundStreamPush c n] else [])

/-- Steps of one gang ticket. -/
def ticketEvents (c : CoreId) (i : Fin 4) (t : Ticket) : List Move :=
  if !t.busy || gangFinal t.state then []
  else [execGangThawRequest c i true, execGangThawRequest c i false, execGangClaim c i none, execGangTimedStart c i,
    execGangFaultThaw c i, execGangPreemptThaw c i, execGangComplete c i]

/-- Steps of one copy command: acceptance, then the first word that has not landed. -/
def copyEvents (c : CoreId) (ch : Fin 3) (m : CopyCmd) : List Move :=
  match m.phase with
  | .sent => [execCopyAccept c ch m.n none]
  | .refused _ => [execCopyRefusalRetry c ch m.n]
  | .accepted => [execCopyTimedStart c ch m.n]
  | .running =>
    match (List.range (cdWords m.words)).find? (wordOpen m) with
    | some w => [execCopyFault c ch m.n w, execCopyLanding c ch m.n w]
    | none => [execCopyComplete c ch m.n]
  | .faulted _ _ | .finished => []

/-- Steps of one core but for its strands' instructions. -/
def coreEvents (c : CoreId) (k : Core) : List Move :=
  (coreStrands k).flatMap (fun e => strandEvents c e.1 e.2)
  ++ (below k.stores.length).flatMap (fun i => [execStorePerform c i, execFaultAcknowledgement c i])
  ++ (below k.reds.length).flatMap (fun i => [execFootingAtomic c i, execShadowCombine c i, execReductionAck c i])
  ++ (List.finRange 4).flatMap (fun n => streamEvents c n k.streams[n])
  ++ [Port.n, .e, .s, .w].filterMap (fun l => if (seamOf k l).isEmpty then none else some (execSeamBufferForward c l))
  ++ [Port.n, .e, .s, .w].flatMap (fun l =>
      (below (k.ctxs[portFin l]).length).map fun i => execSeamContextTimeout c l i)
  ++ (if k.frozen.isSome then [execWsLatchEntry c, execGangPulse c] else [])
  ++ (List.finRange 4).flatMap (fun i => ticketEvents c i k.tickets[i])
  ++ (k.chans[0]).cmds.flatMap (copyEvents c 0) ++ (k.chans[1]).cmds.flatMap (copyEvents c 1)
  ++ (k.foot.cmds.take 1).flatMap (fun m =>
      (List.range (match m.pages with | some l => (pieceStarts l m.words).length | none => 1)).map
        (fun j => execOptimiserPiece c m.n j)
      ++ [execOptimiserComplete c m.n])
  ++ (below (k.outbound.length + (unsentCopies k).length + (unsentTickets k).length)).map (fun i => execOutboundSend c i)
  ++ (if k.inbound.isEmpty then [] else execFanTimedStart c :: List.replicate 8 (execSlotActivation c))

/-- Arrivals of one packet. -/
def packetEvents (idx : Nat) (p : Packet) : List Move :=
  (if p.refused then [execNetworkRetry idx] else [])
  ++ (match p.body with
    | .start _ m => match m.start with
      | .spawn _ _ _ _ _ _ _ _ _ => [execSpawnRequest idx]
      | _ => [execMessage idx]
    | .fanKeystone _ _ | .fanStart _ _ => [execFanStartMessage idx]
    | .completion _ _ => [execCompletionMessage idx]
    | .gangWake _ _ => [execGangWakeMessage idx]
    | .wake _ _ => [execWakeDelivery idx]
    | .fault _ _ => [execFaultMessageArrival idx]
    | .scopeMiss _ _ => [execScopeMissMessage idx, execScopeMissAutoWiden idx])

/-- Steps of one die. -/
def dieEvents (d : Fin 4) (x : Die) : List Move :=
  (List.finRange 8).flatMap (fun q =>
    match (x.seqrs[q]).cmds with
    | [] => []
    | m :: _ => [execSeqCommand d q [] [] [] (.write (List.replicate (m.todo.getD []).length 0)), execSeqCommandComplete d q])
  ++ (below x.shadows.length).map (fun i => execShadowMerge d i) ++ [execShadowCapacityMerge d]

/-- Steps of one partition. -/
def partEvents (s : State) (part : Nat) (p : Partition) : List Move :=
  (match p.phase with
    | .draining => [execPartitionHalt part]
    | .running => (List.range p.units.length).flatMap fun i => execPriorityAging part i :: (match p.units[i]? with
        | some u => (((launchPlaces p u.packet).filter fun e => placeFree s u.packet e).take 1).map fun e =>
            execSchedulerPlace part i e.1 e.2
        | none => [])
    | .free | .saved => [])

/-- Steps of one queue. -/
def queueEvents (q : Nat) (x : Queue) : List Move :=
  x.taken.filterMap (fun t => if t.done then some (execPacketComplete q t.n) else none)
  ++ (match x.hand with
    | some p => (match pktType p with
      | 0 => [execLaunch q] | 1 => [execActive q] | 2 => [execCopy q] | 3 => [execSignalPacket q] | 4 => [execWait q]
      | _ => [execFencePacket q])
    | none => if x.run then [execQueuePollTimeout q] else [])

/-- Everything that is due. -/
def dueEvents (s : State) : List Move :=
  s.queues.flatMap (fun e => queueEvents e.1 e.2)
  ++ s.parts.flatMap (fun e => partEvents s e.1 e.2)
  ++ (below s.net.length).flatMap (fun i => match s.net[i]? with | some p => packetEvents i p | none => [])
  ++ s.misses.map (fun m => execTagWiden m.token.toNat)
  ++ (s.leases.filter fun l => l.recalled).map (fun l => execLeaseRecall l.node l.page)
  ++ s.clusters.flatMap (fun e =>
    if e.2.mailbox.isEmpty then [] else [execServiceStrandStart e.1, execFaultSlotTimeout e.1])
  ++ s.cores.flatMap (fun e => coreEvents e.1 e.2)
  ++ s.exchange.flatMap (fun e => e.2.cmds.flatMap (copyEvents e.1 2))
  ++ (List.finRange 4).flatMap (fun d => dieEvents d s.dies[d])
  ++ s.bonds.map (fun e => execBondCompletion e.1)

/-- One step of the part; a step that could not be performed leaves the state as it was. -/
def perform (s : State) (f : Move) : State :=
  match f s with
  | .next t => t
  | .fault _ | .refused _ => s

/-- The due steps, in turn. -/
def settle (s : State) : State := (dueEvents s).foldl perform s

/-- Every core that has strands issues once, in the order of the cores (R205). -/
def issueAll (s : State) : List CoreId → Host.Outcome State Fault Refusal
  | [] => .next s
  | c :: t => match issueOn c false s with
    | .next s => issueAll s t
    | .fault r => .fault r
    | .refused r => .refused r

/-- One cycle of the package: the due steps, one instruction on every core with strands, and a tick of plumb time. -/
def cycle (s : State) : Host.Outcome State Fault Refusal :=
  let s := settle s
  match issueAll s ((s.cores.filter fun e => !(coreStrands e.2).isEmpty).map fun e => e.1) with
  | .next s => .next (tick s)
  | .fault r => .fault r
  | .refused r => .refused r

end Sys2Proof.Machine
end

