-- ==== Sys2Proof/Machine/Turns.lean ====
section
/-!
DEFINITION. What each turn of the environment does, and how a program is placed for the next step.
-/
namespace Sys2Proof.Machine

/-! ## Turns -/

/-- The rows that come about within an instruction of a strand, and so are no turn of their own. -/
def withinInstr : Instr → Bool
  | .illegalInstruction _ | .hirqWrite _ | .nactlWrite _ _ | .nalRead _ _ | .tlbinvAll | .tlbinvVa _
  | .containWrite _ | .smrelWrite _ | .fractResume | .fractSkip | .fractKill => true
  | _ => false

/-- A step of the part or of the world outside it. -/
def isEvent (i : Instr) : Bool := (encode i).isNone && !withinInstr i

/-- What still happens while the device is held, shut down or in recovery (R475, R477, R478). -/
def deviceEvent : Instr → Bool
  | .deviceReset | .powerOn | .firmwareImage _ _ | .attestationRequest _ | .securityAlarm _ | .thermalShutdown
  | .powerLimitSet _ | .primaryPortDown _ | .hostRegisterWrite .resetDevice _ => true
  | _ => false

/-- An entry of a list of TLB entries dropped. -/
def dropAt (l : List TlbEntry) (i : Nat) : List TlbEntry := l.eraseIdx i

/-- A byte of the host's, a peer's or flash's own memory changed from outside. -/
def outsideByte (s : State) (loc : Nat) (b : Byte) : State :=
  if nodeOf loc = 0 then s else { s with mem := memSet loc b s.mem }

/-- The epochs of a node's leases on a page, which the node rejects from now on (R299). -/
def revoke (s : State) (node page : Nat) : State :=
  let gone := (s.leases.filter fun l => l.node == node && l.page == page).map fun l => (node, l.epoch)
  { s with revoked := s.revoked ++ gone.filter fun x => !s.revoked.contains x }

/-- Whether the package has the units that a turn names. -/
def turnExists : Turn → Bool
  | .event i => unitsExist i
  | .issue c _ | .dropItlb c _ | .dropDtlb c _ => coreExists c
  | .dropCluster cl _ => clusterExists cl
  | .tick | .dropDie _ _ | .outside _ _ | .hostWrite _ _ | .assignNode _ => true
  | .exportLease x _ => partExists x.part
  | .moveSlice p _ _ _ => partExists p
  | .revoke n _ => nodeExists n

/-- What a turn does. -/
def takeTurn (t : Turn) (s : State) : Host.Outcome State Fault Refusal :=
  match t with
  | .event i =>
    if isEvent i && (s.dev.ready || deviceEvent i) then exec i s else .next s
  | .issue c lazy_ => if s.dev.ready then issueOn c lazy_ s else .next s
  | .tick => .next (if s.dev.ready then tick s else s)
  | .dropItlb c i => .next (modCore s c fun k => { k with itlb := dropAt k.itlb i })
  | .dropDtlb c i => .next (modCore s c fun k => { k with dtlb := dropAt k.dtlb i })
  | .dropCluster cl i => .next (modCluster s cl fun l => { l with tlb := dropAt l.tlb i })
  | .dropDie d i => .next (modDie s d fun x => { x with tlb := dropAt x.tlb i })
  | .outside loc b => .next (outsideByte s loc b)
  | .revoke node page => .next (revoke s node page)
  | .hostWrite off v => if s.dev.ready then bar0Write off v s else .next s
  | .exportLease x on => .next (if s.dev.ready then exportLease s x on else s)
  | .assignNode n => .next (assignNode s n)
  | .moveSlice part loc pa out => .next (moveSlice s part loc pa out)

/-- One turn; one that names a unit the package does not have is no event of this part. -/
def turn (t : Turn) (s : State) : Host.Outcome State Fault Refusal :=
  if turnExists t then takeTurn t s else .fault .noSuchUnit

/-! ## A program for the next step -/

/-- Bytes stored from a location on. -/
def storeBytes (m : List Host.Cell) (loc : Nat) : List Byte → List Host.Cell
  | [] => m
  | b :: t => storeBytes (memSet loc b m) (loc + 1) t

/-- The first byte of a core's own slice (R22). -/
def ownSlice : W64 := 0xFFFFFFFFFFFF0000

/-- Core (0, 0) with one strand, in slot 0, whose PC is the first byte of the core's slice, and the bytes there; the
next turn is that core's issue. -/
def placeProgram (s : State) (bytes : List Byte) : State :=
  let t : Strand := { Strand.free with occ := true, uid := s.nextUid, pc := ownSlice }
  let s := modCore s 0 fun k => { k with
    slots := (Vector.replicate 8 Strand.free).set 0 t
    stores := []
    frozen := none
    halted := false }
  { s with
    turns := [.issue 0 false]
    nextUid := s.nextUid + 1
    mem := storeBytes s.mem (sliceLoc 0 0) bytes
    poison := s.poison.filter fun w => w != sliceLoc 0 0 / 8
    tags := s.tags.filter fun t => t.word != sliceLoc 0 0
    dev := { s.dev with ready := true } }

end Sys2Proof.Machine
end

