-- ==== Sys2Proof/Machine/Step.lean ====
section
/-!
DEFINITION. One step of the model: the environment's next turn, or a cycle of the package when it names none.
-/
namespace Sys2Proof.Machine

/-- One step. Every step advances the counter of the free values. -/
def step (s : State) : Host.Outcome State Fault Refusal :=
  let s : State := { s with freeCtr := s.freeCtr + 1 }
  match s.turns with
  | [] => if s.dev.ready then cycle s else .next s
  | t :: rest => turn t { s with turns := rest }

/-- The state with an instruction stored where the next step fetches: bits above `nbits` are zero, up to 32. -/
def State.withFetchWord (s : State) (nbits w : Nat) : State := placeProgram s (leBytes 4 (w % 2 ^ nbits))

end Sys2Proof.Machine
end

