-- ==== Sys2Proof/Safety.lean ====
section
/-!
DEFINITION. The terms in which statements speak of a run: when an instruction's operands are at hand, the state in which
it retires, and what a frame says.
-/
namespace Sys2Proof.Machine

/-- The outcome of a step of this machine. -/
abbrev Answer := Host.Outcome State Fault Refusal

/-- One step that stops neither with a fault nor with a refusal. -/
def Goes (s : State) : Prop := ∃ t, step s = .next t

/-- The generator of no core is in the reserved state 0: neither on the machine nor in a saved context (R46, R426). -/
def SeedsLegal (s : State) : Prop :=
  (∀ e ∈ s.cores, e.2.srseed ≠ 0) ∧ ∀ p ∈ s.parts, ∀ x ∈ p.2.saved, ∀ e ∈ x.cores, e.2.srseed ≠ 0

/-- What a core holds for messages and commands fits its places: 8 in the outbound buffer besides FAN's start message, 16 in
the inbound queue, 16 commands of a channel and of the footing unit (R200, R209, R345, R358). -/
def CoreQueuesFit (k : Core) : Prop :=
  (k.outbound.filter fun m => !isFanStart m).length ≤ 8 ∧ inboundUsed k ≤ 16 ∧
  (∀ ch : Fin 2, (k.chans[ch]).cmds.length ≤ 16) ∧ k.foot.cmds.length ≤ 16

/-- The message and command queues of the machine, and of every saved context, hold no more than their places; a mailbox has
64 (R409), a timeline of an exchange engine or a sequencer 16 commands (R366). -/
def QueuesFit (s : State) : Prop :=
  (∀ e ∈ s.cores, CoreQueuesFit e.2) ∧ (∀ e ∈ s.clusters, e.2.mailbox.length ≤ 64) ∧
  (∀ e ∈ s.exchange, e.2.cmds.length ≤ 16) ∧ (∀ (d : Fin 4) (q : Fin 8), (s.dies[d].seqrs[q]).cmds.length ≤ 16) ∧
  ∀ p ∈ s.parts, ∀ x ∈ p.2.saved, (∀ e ∈ x.cores, CoreQueuesFit e.2) ∧ (∀ e ∈ x.clusters, e.2.mailbox.length ≤ 64) ∧
    ∀ e ∈ x.exchange, e.2.cmds.length ≤ 16

/-- Every port queue and every seam buffer of a core holds at most four entries (R227, R441). -/
def PortsFit (k : Core) : Prop := ∀ l : Fin 4, (k.inq[l]).length ≤ 4 ∧ (k.seam[l]).length ≤ 4

/-- The port queues and seam buffers of the machine, and of every saved context, hold at most four entries each. -/
def PortQueuesFit (s : State) : Prop :=
  (∀ e ∈ s.cores, PortsFit e.2) ∧ ∀ p ∈ s.parts, ∀ x ∈ p.2.saved, ∀ e ∈ x.cores, PortsFit e.2

/-- Nothing about the operands keeps the instruction from executing: every check of its views, registers, alignment and
ports passes, each view holds what is popped or has room for what is pushed (R81, R100, R407), and no source is poisoned
or faulted (R176, R421). -/
def Operable (s : State) (u : Uses) : Prop :=
  issueChecks s u (popsOf s u) (pushesOf s u) = .ok () ∧ operandStop s u = none

/-- The state after an instruction whose results are in `t` goes on to the next one: the PC advances by 4 bytes and the
views it read are popped (R11, R64). -/
def retired (s t : State) (u : Uses) : State := popAll (advance t 4) (popsOf s u)

/-- The state with one more access in issue order. -/
def issuedOne (t : State) : State := { t with nextSeq := t.nextSeq + 1 }

/-- Nothing that the strand or its core has on the way holds a piece of an access back: no earlier load or reduction of
the strand to the word (R303), no earlier access of the core to the peer page (R470), and its lease stands (R299). -/
def Unhindered (t : State) (e : Piece × Ref) : Prop :=
  olderRead t t.cur (me t).uid t.nextSeq (wordOf e.2.loc) = false ∧
  olderRed t t.cur (me t).uid t.nextSeq (wordOf e.2.loc) = false ∧
  peerTurn t t.cur t.nextSeq e.2.lease = true ∧ epochRevoked t e.2.loc e.2.lease = false

/-- The home of a piece of a load lets the strand read it, unpoisoned, and the piece's place in x holds what the strand
reads there: the home's bytes under those that the core's store queue holds before the load (R302, R304). -/
def Serves (t : State) (x : W256) (e : Piece × Ref) : Prop :=
  ∃ w, strandWord t t.cur (me t).uid t.nextSeq (wordOf e.2.loc) e.2.key (byteMask (e.2.loc % 8) e.1.n) = some (w, false) ∧
    x.extractLsb' (8 * e.1.pos) (8 * e.1.n) = w.extractLsb' (8 * (e.2.loc % 8)) (8 * e.1.n)

/-- The pieces of a load pass the checks of R117, which leave t; nothing keeps the load from its home, and its answer is
x. The environment does not delay the request. -/
def LoadServed (r t : State) (ps : List Piece) (x : W256) : Prop :=
  t.lazy = false ∧ ∃ l, checkPieces r .load ps = .ok (l, t) ∧ ∀ e ∈ l, soWaits t e.2.ord = false ∧ Unhindered t e ∧ Serves t x e

/-- The same for LDP and VLDP, which in addition find the presence bit of every word set, with no access of the strand
in flight (R283, R284). -/
def PresenceServed (r t : State) (ps : List Piece) (x : W256) : Prop :=
  drained r = true ∧ t.lazy = false ∧ ∃ l, checkPieces r .load ps = .ok (l, t) ∧
    ∀ e ∈ l, soWaits t e.2.ord = false ∧ Unhindered t e ∧ Serves t x e ∧ isPresent t (wordOf e.2.loc) = true

/-- The pieces of a store pass the checks of R117, which leave t, at references l; nothing orders it behind an SO store. -/
def StoreAllowed (r t : State) (ps : List Piece) (l : List (Piece × Ref)) : Prop :=
  checkPieces r .store ps = .ok (l, t) ∧ ∀ e ∈ l, soWaits t e.2.ord = false

/-- The address of byte 0 of word j at ea. -/
def wordAddr (ea : W64) (j : Nat) : W64 := ea + BitVec.ofNat 64 (8 * j)

/-- How an instruction of `len` bytes ends that raises the flags fl and writes its results as `k` does: a flag whose
enable is set raises cause 0x04 with the flags in TVAL and nothing is written; otherwise the flags join FCSR and CFU and
the instruction retires (R11, R16, R17, R21). -/
def flaggedAnswer (r : State) (len : Nat) (u : Uses) (fl : Flags) (k : State → State) : Answer :=
  if fl &&& fcsrEn (me r).fcsr = 0 then
    .next (popAll (advance (k (addFlags r r.cur r.slot fl)) len) (popsOf r u))
  else .next (takeTrap (dropBlocks r) len 0x04 (fl.setWidth 64))

/-- What a vector instruction does that computes `g j` for each of its n lanes j that the mask enables and writes it to
lane `place j` of width w of d: every lane so named gets its code, no other lane is written, the flags are the union of
the lanes' flags, and `after` is what it writes besides (R9, R11, R139). -/
def LanesBecome (i : Instr) (s : State) (len : Nat) (mask : W32) (n w : Nat) (place : Nat → Nat) (d : VReg) (u : Uses)
    (g : Nat → Nat × Flags) (after : State → State) : Prop :=
  let on (j : Nat) : Prop := j < n ∧ mask.getLsbD j = true
  (∃ j, on j) → Operable (ready s) u →
  ∀ (fl : Flags) (dm : W32) (x : W256),
    (∀ k, fl.getLsbD k = true ↔ ∃ j, on j ∧ (g j).2.getLsbD k = true) →
    (∀ k, dm.getLsbD k = true ↔ ∃ j, on j ∧ place j = k) →
    (∀ j, on j → lane x w (place j) = BitVec.ofNat w (g j).1) →
    exec i s = flaggedAnswer (ready s) len u fl fun t => after (writeLanes t d w dm x)

/-- The g register that a scalar destination names, if it is one. -/
def gOf : SReg → List (Fin 24)
  | .g i => [i]
  | .s _ | .p _ => []

/-- The v register that a vector destination names, if it is one. -/
def vOf : VReg → List (Fin 8)
  | .v i => [i]
  | .w _ | .q _ => []

/-- From s to t an instruction of the issuing strand with operands u writes at most the registers named and their poison,
its mask registers named, FCSR's flags and those of its cluster's CFU, the PC, what its views pop and push, with the place
in issue order that a push over a seam takes, and, where `sr` holds, SRSEED of its core. -/
def WritesAtMost (s t : State) (u : Uses) (sr : Bool) (gs : List (Fin 24)) (vs : List (Fin 8)) (ms : List (Fin 4)) :
    Prop :=
  let views := popsOf (ready s) u ++ pushesOf (ready s) u
  let own := clusterIdx s.cur
  t = { s with nextSeq := t.nextSeq, cores := t.cores, clusters := t.clusters } ∧
  (∀ cl, cl ≠ own → clusterOf t cl = clusterOf s cl) ∧
  clusterOf t own = { clusterOf s own with cfu := (clusterOf t own).cfu, raised := (clusterOf t own).raised } ∧
  (∀ c i, (c, i) ≠ (s.cur, s.slot) → strandAt t c i = strandAt s c i) ∧
  (∀ c, coreOf t c = { coreOf s c with
      slots := (coreOf t c).slots, streams := (coreOf t c).streams, inq := (coreOf t c).inq, seam := (coreOf t c).seam
      srseed := (coreOf t c).srseed } ∧
    (c ≠ s.cur ∨ sr = false → (coreOf t c).srseed = (coreOf s c).srseed)) ∧
  ((∀ l b, View.port l b ∉ views) →
    t.nextSeq = s.nextSeq ∧ ∀ c, (coreOf t c).inq = (coreOf s c).inq ∧ (coreOf t c).seam = (coreOf s c).seam ∧
      ∀ n, (c = s.cur → ∀ b, View.stream n b ∉ views) → (coreOf t c).streams[n] = (coreOf s c).streams[n]) ∧
  (∀ i, i ∉ gs → (me t).g[i] = (me s).g[i] ∧ (me t).gPoison.getLsbD i.val = (me s).gPoison.getLsbD i.val) ∧
  (∀ i, i ∉ vs → (me t).v[i] = (me s).v[i] ∧
    ∀ j, j < 4 → (me t).vPoison.getLsbD (4 * i.val + j) = (me s).vPoison.getLsbD (4 * i.val + j)) ∧
  (∀ i, i ∉ ms → (me t).m[i] = (me s).m[i]) ∧ (me t).fcsr &&& ~~~0x3F0 = (me s).fcsr &&& ~~~0x3F0 ∧
  me t = { me s with
    g := (me t).g, v := (me t).v, m := (me t).m, gPoison := (me t).gPoison, vPoison := (me t).vPoison
    fcsr := (me t).fcsr, pc := (me t).pc, wait := (me t).wait }

/-- An instruction of `len` bytes took the trap of an enabled flag (R16). -/
def FlagTrapped (s t : State) (len : Nat) : Prop :=
  ∃ fl : Flags, fl &&& fcsrEn (me s).fcsr ≠ 0 ∧ t = takeTrap (dropBlocks (ready s)) len 0x04 (fl.setWidth 64)

/-- The predicate of an instruction that acts as a whole: a scalar operation, access or command (R9, R101). -/
def wholePredicate : Instr → Option Pred
  | .add p _ _ _ | .sub p _ _ _ | .and p _ _ _ | .or p _ _ _ | .xor p _ _ _ | .andn p _ _ _ | .orn p _ _ _
  | .sll p _ _ _ | .srl p _ _ _ | .sra p _ _ _ | .rol p _ _ _ | .ror p _ _ _ | .min p _ _ _ | .max p _ _ _
  | .minu p _ _ _ | .maxu p _ _ _ | .slt p _ _ _ | .sltu p _ _ _ | .seq p _ _ _ | .sne p _ _ _ | .sel p _ _ _
  | .addi p _ _ _ | .andi p _ _ _ | .ori p _ _ _ | .xori p _ _ _ | .slli p _ _ _ | .srli p _ _ _ | .srai p _ _ _
  | .roli p _ _ _ | .slti p _ _ _ | .sltiu p _ _ _ | .lop3 p _ _ _ _ | .fshl p _ _ _ _ | .fshr p _ _ _ _
  | .mul p _ _ _ | .mulh p _ _ _ | .mulhu p _ _ _ | .div p _ _ _ | .divu p _ _ _ | .rem p _ _ _ | .remu p _ _ _
  | .clz p _ _ | .ctz p _ _ | .popc p _ _ | .brev p _ _ | .bswap p _ _ | .sextB p _ _ | .sextH p _ _ | .sextW p _ _
  | .zextB p _ _ | .zextH p _ _ | .zextW p _ _ | .setm p _ _ | .getm p _ _ | .mand p _ _ _ | .mor p _ _ _
  | .mnot p _ _ | .jalr p _ _ _ | .iter p _ _ _ | .iteri p _ _ _ | .ld p _ _ _ _ _ | .ldIndexed p _ _ _ _
  | .st p _ _ _ _ _ | .stIndexed p _ _ _ _ | .lda p _ _ _ _ _ | .stl p _ _ _ _ _ | .ldp p _ _ _ _
  | .ldpIndexed p _ _ _ | .stp p _ _ _ _ | .stpIndexed p _ _ _ | .clrp p _ _ _ _ | .clrpIndexed p _ _ _
  | .waitge p _ _ _ | .waitgen p _ _ _ | .signal p _ _ | .bar p _ | .arrive p _ _ | .tnow p _ | .tuntil p _ _
  | .fadd p _ _ _ _ | .fsub p _ _ _ _ | .fmul p _ _ _ _ | .fdiv p _ _ _ _ | .fsqrt p _ _ _ | .fmin p _ _ _ _
  | .fmax p _ _ _ _ | .fsgn p _ _ _ _ | .fcmp p _ _ _ _ | .fclass p _ _ _ | .fma p _ _ _ _ _ | .fms p _ _ _ _ _
  | .fnma p _ _ _ _ _ | .fcvt p _ _ _ _ _ | .fcvtWideToB8 p _ _ _ _ _ | .fcvtB8ToWide p _ _ _ _ | .fcvti p _ _ _ _ _
  | .icvtf p _ _ _ _ _ | .frnd p _ _ _ _ | .vext p _ _ _ _ | .qmul p _ _ _ _ | .qdiv p _ _ _ _ | .qsqrt p _ _ _ _
  | .scfg p _ _ | .sbind p _ _ | .spos p _ _ | .sstop p _ | .srew p _ _ | .sflush p _ | .sskip p _ _ | .spawn p _ _ _
  | .endStrand p | .yield p | .sleep p _ _ | .wake p _ _ | .send p _ _ _ _ | .senda p _ _ _ _ | .fan p _ _ _ _
  | .prio p _ _ | .gang p _ _ _ _ | .gwait p _ _ | .gstat p _ _ | .gthaw p _ | .ppeek p _ _ | .topTmm p _ _ _
  | .topTadd p _ _ _ | .topTmul p _ _ _ | .topTscale p _ _ _ | .topTact p _ _ _ | .topTsum p _ _ _
  | .topTsoft p _ _ _ | .topTnorm p _ _ _ | .topTlay p _ _ _ | .topTcopy p _ _ _ | .recon p _ _ | .recoff p
  | .recmark p _ | .reverse p _ _ | .cpgo p _ _ | .cpblk p _ _ _ _ | .ftgo p _ _ | .armw p _ _ _ | .trap p _ _
  | .ecall p | .ebreak p => some p
  | _ => none

end Sys2Proof.Machine
end

