-- ==== Sys2Proof/Certificates/Slice0/Obligations.lean ====
section
/-!
DEFINITION. The statements about the model, from the numbered rules of spec/: what each instruction and each step does when
its conditions hold, what it leaves alone, the encoding, and what every step keeps.
-/
set_option Elab.async false
open Sys2Proof Sys2Proof.Machine

/-! ## Integer operations, masks, branches and jumps -/

/-- R104: what the members of major 0x00 write, in the registers and through the views alike, when the predicate is on
and the operands are at hand; then the instruction retires. R104, R107: SEL and LOP3 read the old d as a source and
replace it; bit j of LOP3's result is the bit of the table that the index b[j]·4 + a[j]·2 + d[j] names. R105: the
immediate operations, their 13-bit immediate sign-extended; the shift-immediate members shift by SH. -/
def Obligations.IntegerOperations : Prop :=
  (∀ (p : Pred) (d a b : SReg) (s : State), predOn s p = true →
     Operable (ready s) { srcS := [a, b], dstS := [d] } →
     let r := ready s
     let x := readS r a
     let y := readS r b
     let n := y.toNat % 64
     let put (v : W64) : Answer := .next (retired r (writeS r d v) { srcS := [a, b], dstS := [d] })
     exec (.add p d a b) s = put (x + y) ∧
     exec (.sub p d a b) s = put (x - y) ∧
     exec (.and p d a b) s = put (x &&& y) ∧
     exec (.or p d a b) s = put (x ||| y) ∧
     exec (.xor p d a b) s = put (x ^^^ y) ∧
     exec (.andn p d a b) s = put (x &&& ~~~y) ∧
     exec (.orn p d a b) s = put (x ||| ~~~y) ∧
     exec (.sll p d a b) s = put (x <<< n) ∧
     exec (.srl p d a b) s = put (x >>> n) ∧
     exec (.sra p d a b) s = put (x.sshiftRight n) ∧
     exec (.rol p d a b) s = put ((x <<< n) ||| (x >>> (64 - n))) ∧
     exec (.ror p d a b) s = put ((x >>> n) ||| (x <<< (64 - n))) ∧
     exec (.min p d a b) s = put (BitVec.ofInt 64 (Min.min x.toInt y.toInt)) ∧
     exec (.max p d a b) s = put (BitVec.ofInt 64 (Max.max x.toInt y.toInt)) ∧
     exec (.minu p d a b) s = put (BitVec.ofNat 64 (Min.min x.toNat y.toNat)) ∧
     exec (.maxu p d a b) s = put (BitVec.ofNat 64 (Max.max x.toNat y.toNat)) ∧
     exec (.slt p d a b) s = put (if x.toInt < y.toInt then 1 else 0) ∧
     exec (.sltu p d a b) s = put (if x.toNat < y.toNat then 1 else 0) ∧
     exec (.seq p d a b) s = put (if x = y then 1 else 0) ∧
     exec (.sne p d a b) s = put (if x = y then 0 else 1)) ∧
  (∀ (p : Pred) (d : GReg) (a b : SReg) (table : BitVec 8) (s : State), predOn s p = true →
     Operable (ready s) { srcS := [.g d, a, b], dstS := [.g d] } →
     let r := ready s
     let c := getG r d
     let x := readS r a
     let y := readS r b
     let put (v : W64) : Answer := .next (retired r (setG r d v) { srcS := [.g d, a, b], dstS := [.g d] })
     exec (.sel p d a b) s = put (if c = 0 then y else x) ∧
     ∃ v : W64, exec (.lop3 p d a b table) s = put v ∧
       ∀ j : Nat, j < 64 →
         v.getLsbD j = table.getLsbD (4 * (y.getLsbD j).toNat + 2 * (x.getLsbD j).toNat + (c.getLsbD j).toNat)) ∧
  (∀ (p : Pred) (d a : SReg) (imm : BitVec 13) (sh : BitVec 6) (s : State), predOn s p = true →
     Operable (ready s) { srcS := [a], dstS := [d] } →
     let r := ready s
     let x := readS r a
     let i := imm.signExtend 64
     let n := sh.toNat
     let put (v : W64) : Answer := .next (retired r (writeS r d v) { srcS := [a], dstS := [d] })
     exec (.addi p d a imm) s = put (x + i) ∧
     exec (.andi p d a imm) s = put (x &&& i) ∧
     exec (.ori p d a imm) s = put (x ||| i) ∧
     exec (.xori p d a imm) s = put (x ^^^ i) ∧
     exec (.slti p d a imm) s = put (if x.toInt < i.toInt then 1 else 0) ∧
     exec (.sltiu p d a imm) s = put (if x.toNat < i.toNat then 1 else 0) ∧
     exec (.slli p d a sh) s = put (x <<< n) ∧
     exec (.srli p d a sh) s = put (x >>> n) ∧
     exec (.srai p d a sh) s = put (x.sshiftRight n) ∧
     exec (.roli p d a sh) s = put ((x <<< n) ||| (x >>> (64 - n))))

/-- R108, R109: the funnel shifts on the 128-bit value with a above b, the multiply and the divide members, with the
results for b = 0 and for the quotient that overflows. R109: the one quotient that overflows gives −2⁶³ with remainder
0, and b = 0 gives the divisions −1 and the remainders a: what DIV, DIVU, REM and REMU write in these corners, for every
destination. -/
def Obligations.MultiplyDivideAndFunnelShifts : Prop :=
  (∀ (p : Pred) (d a b : SReg) (sh : BitVec 6) (s : State), predOn s p = true →
     Operable (ready s) { srcS := [a, b], dstS := [d] } →
     let r := ready s
     let x := readS r a
     let y := readS r b
     let wide := x.toNat * 2 ^ 64 + y.toNat
     let put (v : W64) : Answer := .next (retired r (writeS r d v) { srcS := [a, b], dstS := [d] })
     exec (.fshl p d a b sh) s = put (BitVec.ofNat 64 (wide * 2 ^ sh.toNat / 2 ^ 64)) ∧
     exec (.fshr p d a b sh) s = put (BitVec.ofNat 64 (wide / 2 ^ sh.toNat)) ∧
     exec (.mul p d a b) s = put (BitVec.ofInt 64 (x.toInt * y.toInt)) ∧
     exec (.mulh p d a b) s = put (BitVec.ofInt 64 ((x.toInt * y.toInt) / 2 ^ 64)) ∧
     exec (.mulhu p d a b) s = put (BitVec.ofNat 64 ((x.toNat * y.toNat) / 2 ^ 64)) ∧
     exec (.div p d a b) s =
       put (if y = 0 then 0xFFFFFFFFFFFFFFFF else BitVec.ofInt 64 (x.toInt.tdiv y.toInt)) ∧
     exec (.divu p d a b) s =
       put (if y = 0 then 0xFFFFFFFFFFFFFFFF else BitVec.ofNat 64 (x.toNat / y.toNat)) ∧
     exec (.rem p d a b) s = put (if y = 0 then x else BitVec.ofInt 64 (x.toInt.tmod y.toInt)) ∧
     exec (.remu p d a b) s = put (if y = 0 then x else BitVec.ofNat 64 (x.toNat % y.toNat))) ∧
  (∀ (p : Pred) (d a b : SReg) (s : State), predOn s p = true →
     Operable (ready s) { srcS := [a, b], dstS := [d] } →
     let r := ready s
     let put (v : W64) : Answer := .next (retired r (writeS r d v) { srcS := [a, b], dstS := [d] })
     (readS r a = 0x8000000000000000 → readS r b = 0xFFFFFFFFFFFFFFFF →
       exec (.div p d a b) s = put 0x8000000000000000 ∧ exec (.rem p d a b) s = put 0) ∧
     (readS r b = 0 →
       exec (.div p d a b) s = put 0xFFFFFFFFFFFFFFFF ∧ exec (.divu p d a b) s = put 0xFFFFFFFFFFFFFFFF ∧
       exec (.rem p d a b) s = put (readS r a) ∧ exec (.remu p d a b) s = put (readS r a)))

/-- R110: the bit operations. CLZ and CTZ are said by the bits they count, POPC by the number of positions set, BREV and
BSWAP bit by bit. R106, R111: LUI, AUIPC and the mask operations. A mask operation writes all 32 bits of its mask. -/
def Obligations.BitAndMaskOperations : Prop :=
  (∀ (p : Pred) (d a : SReg) (s : State), predOn s p = true →
     Operable (ready s) { srcS := [a], dstS := [d] } →
     let r := ready s
     let x := readS r a
     let put (v : W64) : Answer := .next (retired r (writeS r d v) { srcS := [a], dstS := [d] })
     (∃ n : Nat, n ≤ 64 ∧ exec (.clz p d a) s = put (BitVec.ofNat 64 n) ∧
       (∀ j : Nat, 64 - n ≤ j → x.getLsbD j = false) ∧ (n < 64 → x.getLsbD (63 - n) = true)) ∧
     (∃ n : Nat, n ≤ 64 ∧ exec (.ctz p d a) s = put (BitVec.ofNat 64 n) ∧
       (∀ j : Nat, j < n → x.getLsbD j = false) ∧ (n < 64 → x.getLsbD n = true)) ∧
     exec (.popc p d a) s = put (BitVec.ofNat 64 ((List.range 64).filter fun j => x.getLsbD j).length) ∧
     (∃ v : W64, exec (.brev p d a) s = put v ∧ ∀ j : Nat, j < 64 → v.getLsbD j = x.getLsbD (63 - j)) ∧
     (∃ v : W64, exec (.bswap p d a) s = put v ∧
       ∀ j k : Nat, j < 8 → k < 8 → v.getLsbD (8 * j + k) = x.getLsbD (8 * (7 - j) + k)) ∧
     exec (.sextB p d a) s = put ((x.setWidth 8).signExtend 64) ∧
     exec (.sextH p d a) s = put ((x.setWidth 16).signExtend 64) ∧
     exec (.sextW p d a) s = put ((x.setWidth 32).signExtend 64) ∧
     exec (.zextB p d a) s = put ((x.setWidth 8).setWidth 64) ∧
     exec (.zextH p d a) s = put ((x.setWidth 16).setWidth 64) ∧
     exec (.zextW p d a) s = put ((x.setWidth 32).setWidth 64)) ∧
  (∀ (p : Pred) (d a : SReg) (e f h : MReg) (imm : BitVec 18) (s : State),
     let r := ready s
     let u := imm.signExtend 64 * 8192
     (Operable r { dstS := [d] } →
       exec (.lui d imm) s = .next (retired r (writeS r d u) { dstS := [d] }) ∧
       exec (.auipc d imm) s = .next (retired r (writeS r d ((me r).pc + u)) { dstS := [d] }) ∧
       (predOn s p = true →
         exec (.getm p d f) s = .next (retired r (writeS r d ((getM r f).setWidth 64)) { dstS := [d] }))) ∧
     (Operable r { srcS := [a] } → predOn s p = true →
       exec (.setm p e a) s = .next (retired r (setM r e ((readS r a).setWidth 32)) { srcS := [a] })) ∧
     (predOn s p = true →
       exec (.mand p e f h) s = .next (advance (setM r e (getM r f &&& getM r h)) 4) ∧
       exec (.mor p e f h) s = .next (advance (setM r e (getM r f ||| getM r h)) 4) ∧
       exec (.mnot p e f) s = .next (advance (setM r e (~~~ getM r f)) 4)))

/-- R112: the conditional branches compare a with b; one that holds adds its sign-extended offset in halfwords to its
own address, one that does not goes on to the next word. Both pop the views read. R112, R113, R193: J, JAL, JALR to an
even target, and BEOS, which takes its branch when the stream is not idle and its END is set. JAL and JALR write PC + 4,
JALR from the a that it had before. R113: a JALR whose target is odd raises cause 0x03 with the target in TVAL: the
strand takes that trap from the state before the instruction, so d is neither written nor pushed. -/
def Obligations.ControlTransfers : Prop :=
  (∀ (a b : SReg) (off : BitVec 15) (s : State), Operable (ready s) { srcS := [a, b] } →
     let r := ready s
     let x := readS r a
     let y := readS r b
     let go (c : Bool) : Answer := .next (popAll (modMe r fun t =>
       { t with pc := t.pc + (if c then off.signExtend 64 * 2 else 4) }) (popsOf r { srcS := [a, b] }))
     exec (.beq a b off) s = go (decide (x = y)) ∧
     exec (.bne a b off) s = go (decide (x ≠ y)) ∧
     exec (.blt a b off) s = go (decide (x.toInt < y.toInt)) ∧
     exec (.bge a b off) s = go (decide (y.toInt ≤ x.toInt)) ∧
     exec (.bltu a b off) s = go (decide (x.toNat < y.toNat)) ∧
     exec (.bgeu a b off) s = go (decide (y.toNat ≤ x.toNat))) ∧
  (∀ (p : Pred) (d : SReg) (a : GReg) (imm : BitVec 13) (joff : BitVec 25) (uoff : BitVec 18) (boff : BitVec 15)
     (n : StreamId) (s : State),
     let r := ready s
     let pc := (me r).pc
     let target := getG s a + imm.signExtend 64
     let st := (coreOf s s.cur).streams[n]
     let goTo (t : State) (q : W64) : State := modMe t fun x => { x with pc := q }
     exec (.j joff) s = .next (goTo r (pc + joff.signExtend 64 * 2)) ∧
     (Operable r { dstS := [d] } →
       exec (.jal d uoff) s = .next (goTo (writeS r d (pc + 4)) (pc + uoff.signExtend 64 * 2))) ∧
     (target.getLsbD 0 = false → predOn s p = true → Operable r { srcS := [.g a], dstS := [d] } →
       exec (.jalr p d a imm) s = .next (goTo (writeS r d (pc + 4)) target)) ∧
     exec (.beos n boff) s = .next (goTo r
       (if st.mode ≠ .idle ∧ st.endF = true then pc + boff.signExtend 64 * 2 else pc + 4))) ∧
  (∀ (p : Pred) (d : SReg) (a : GReg) (imm : BitVec 13) (s : State),
     let q := getG s a + imm.signExtend 64
     predOn s p = true → q.getLsbD 0 = true → Operable (ready s) { srcS := [.g a], dstS := [d] } →
       exec (.jalr p d a imm) s = .next (takeTrap (ready s) 4 0x03 q))

/-! ## Loads, stores and presence -/

/-- R115, R120: what LD and LDA leave when the address passes the checks and its home answers with x: d holds the n
bytes, sign-extended for B, H and W and zero-extended otherwise, mode 01 then replaces the base, and the PC advances.
LDA is an acquire besides: writes released to its scope that are still on their way happen before what follows, whatever
value it reads (R312 as log 101 reads it). R147, R148: what VLD and VGATH leave when every touched word or enabled
element passes the checks and its home answers with its place in x: the enabled byte lanes, or lanes of the element
width, come from x and the others stay. R121: PREF has no effect on visible state whatever its address: the PC advances,
and at most a translation is kept. Memory, and every strand of every core but for the PC and the readiness of the
issuing one, stay as they were. -/
def Obligations.Loads : Prop :=
  (∀ (p : Pred) (d : SReg) (a b : GReg) (sz : LSize) (off : BitVec 8) (off5 : BitVec 5) (sc : Scope)
     (s t : State) (x : W256),
     let r := ready s
     let n := lsize sz
     let v : W64 := if lsigned sz then (x.setWidth (8 * n)).signExtend 64 else (x.setWidth (8 * n)).setWidth 64
     let eaOff := getG s a + off.signExtend 64 * BitVec.ofNat 64 n
     let eaAcq := getG s a + off5.signExtend 64 * BitVec.ofNat 64 n
     let eaIdx := getG s a + getG s b
     let got := writeS (issuedOne t) d v
     predOn s p = true →
     (eaOff.toNat % n = 0 → Operable r { srcS := [.g a], dstS := [d] } → LoadServed r t [⟨eaOff, n, 0⟩] x →
       exec (.ld p d a sz .offset off) s = .next (advance got 4)) ∧
     ((getG s a).toNat % n = 0 → Operable r { srcS := [.g a], dstS := [d] } → LoadServed r t [⟨getG s a, n, 0⟩] x →
       exec (.ld p d a sz .postInc off) s = .next (advance (setG got a eaOff) 4)) ∧
     (eaIdx.toNat % n = 0 → Operable r { srcS := [.g a, .g b], dstS := [d] } → LoadServed r t [⟨eaIdx, n, 0⟩] x →
       exec (.ldIndexed p d a sz b) s = .next (advance got 4)) ∧
     (eaAcq.toNat % n = 0 → Operable r { srcS := [.g a], dstS := [d] } → LoadServed r t [⟨eaAcq, n, 0⟩] x →
       exec (.lda p d a sz sc off5) s = .next (advance (markAcquire got got.cur (me got).uid sc) 4))) ∧
  (∀ (p : Pred) (d i : VReg) (a b : GReg) (ew : EWidth) (off : BitVec 8) (s t : State) (x : W256),
     let r := ready s
     let m := predMask s p
     let words := (List.range 4).filter fun j => m.extractLsb' (8 * j) 8 ≠ 0
     let pieces (ea : W64) : List Piece := words.map fun j => ⟨wordAddr ea j, 8, 8 * j⟩
     let inSlice (ea : W64) : Prop := ∀ j ∈ words, ea.toNat ≤ (wordAddr ea j).toNat
     let eaOff := getG s a + off.signExtend 64 * 32
     let eaIdx := getG s a + getG s b
     let got := writeLanes (issuedOne t) d 8 m x
     let w := ewBits ew
     let on := (List.range (256 / w)).filter fun k => m.getLsbD k
     let element (k : Nat) : W64 :=
       getG r a + ((readV r i).extractLsb' (k * w) w).signExtend 64 * BitVec.ofNat 64 (w / 8)
     (m ≠ 0 →
       (eaOff.toNat % 8 = 0 → inSlice eaOff → Operable r { srcS := [.g a], dstV := [d] } →
         LoadServed r t (pieces eaOff) x → exec (.vld p d a .offset off) s = .next (advance got 4)) ∧
       ((getG s a).toNat % 8 = 0 → inSlice (getG s a) → Operable r { srcS := [.g a], dstV := [d] } →
         LoadServed r t (pieces (getG s a)) x →
         exec (.vld p d a .postInc off) s = .next (advance (setG got a eaOff) 4)) ∧
       (eaIdx.toNat % 8 = 0 → inSlice eaIdx → Operable r { srcS := [.g a, .g b], dstV := [d] } →
         LoadServed r t (pieces eaIdx) x → exec (.vldIndexed p d a b) s = .next (advance got 4))) ∧
     (on ≠ [] → (∀ k ∈ on, (element k).toNat % (w / 8) = 0) → Operable r { srcS := [.g a], srcV := [i], dstV := [d] } →
       LoadServed r t (on.map fun k => ⟨element k, w / 8, w / 8 * k⟩) x →
       exec (.vgath p d a ew i) s = .next (popAll
         (advance (writeLanes (issuedOne t) d w (lanesOn m (256 / w)) x) 4) (popsOf r { srcS := [.g a], srcV := [i] })))) ∧
  (∀ (p : Pred) (hint : Fin 3) (a : GReg) (off : BitVec 5) (s : State),
     ∃ t, exec (.pref p hint a off) s = .next t ∧ t.mem = s.mem ∧
       me t = { me s with pc := (me s).pc + 4, wait := .none } ∧
       ∀ c i, (c, i) ≠ (s.cur, s.slot) → strandAt t c i = strandAt s c i)

/-- R115, R120, R302: a scalar store that passes the checks leaves as one entry of the core's outbound store queue that
names the bytes it stores, its value and, for STL, the release tag; mode 01 replaces the base. STL executes once its
release is performed, and the writes on their way that come before it, and its own, take its mark (R312, by log 101).
R147, R148, R389: the vector stores leave one entry of the store queue per touched word (VST) or enabled element (VSCAT,
and VSTT, which stores each element at its place after a and corner-turned at b + lane × CTPITCH). R383, R384, R390: STN
sends one write with norm for each aligned word that holds an enabled FP32 lane, together one of the strand's at most 64
reductions, when no page is a reduction page; where the environment does not delay them their homes then perform them.
Mode 01 then advances the base. -/
def Obligations.Stores : Prop :=
  (∀ (p : Pred) (d : SReg) (a b : GReg) (sz : SSize) (off : BitVec 8) (off5 : BitVec 5) (sc : Scope) (s t : State)
     (ref : Ref) (q : List (Piece × Ref) × State),
     let r := ready s
     let n := ssize sz
     let eaOff := getG s a + off.signExtend 64 * BitVec.ofNat 64 n
     let eaRel := getG s a + off5.signExtend 64 * BitVec.ofNat 64 n
     let eaIdx := getG s a + getG s b
     let entry (ea : W64) (tag : Option Scope) : StoreEntry :=
       { seq := t.nextSeq, uid := (me t).uid, slot := t.slot, pc := (me t).pc, va := ea, word := ref.loc / 8 * 8,
         mask := byteMask (ref.loc % 8) n &&& (0xFF <<< (ref.loc % 8)),
         val := readS r d <<< (8 * (ref.loc % 8)), poison := movedPoisonS r d, key := ref.key, ord := ref.ord,
         lease := ref.lease
         tag := tag.map fun q => ⟨ref.loc / 8 * 8, q, t.cur, t.slot, (me t).uid, bondOfUid t t.cur (me t).uid, t.nextSeq⟩
         after := none, order := (match tag with | some q => ⟨[(t.cur, q)], []⟩ | none => .none), token := none }
     let sent (ea : W64) (tag : Option Scope) : State := queueStores (issuedOne t) [entry ea tag]
     let use (l : List GReg) : Uses := { srcS := l.map .g, movS := [d] }
     predOn s p = true →
     (eaOff.toNat % n = 0 → Operable r (use [a]) → StoreAllowed r t [⟨eaOff, n, 0⟩] [(⟨eaOff, n, 0⟩, ref)] →
       exec (.st p d a sz .offset off) s = .next (retired r (sent eaOff none) (use [a]))) ∧
     ((getG s a).toNat % n = 0 → Operable r (use [a]) → StoreAllowed r t [⟨getG s a, n, 0⟩] [(⟨getG s a, n, 0⟩, ref)] →
       exec (.st p d a sz .postInc off) s = .next (retired r (setG (sent (getG s a) none) a eaOff) (use [a]))) ∧
     (eaIdx.toNat % n = 0 → Operable r (use [a, b]) → StoreAllowed r t [⟨eaIdx, n, 0⟩] [(⟨eaIdx, n, 0⟩, ref)] →
       exec (.stIndexed p d a sz b) s = .next (retired r (sent eaIdx none) (use [a, b]))) ∧
     (eaRel.toNat % n = 0 → Operable r (use [a]) → checkPieces r .store [⟨eaRel, n, 0⟩] = .ok q →
       outstanding r r.cur (me r).uid r.nextSeq sc false false = false →
       StoreAllowed (markMine r sc false) t [⟨eaRel, n, 0⟩] [(⟨eaRel, n, 0⟩, ref)] →
       exec (.stl p d a sz sc off5) s = .next (retired r (sent eaRel (some sc)) (use [a])))) ∧
  (∀ (p : Pred) (d i : VReg) (a b : GReg) (ew : EWidth) (off : BitVec 8) (s t : State) (l : List (Piece × Ref)),
     let r := ready s
     let m := predMask s p
     let words := (List.range 4).filter fun j => m.extractLsb' (8 * j) 8 ≠ 0
     let chunks (ea : W64) : List Chunk := words.map fun j =>
       ⟨⟨wordAddr ea j, 8, 8 * j⟩, (readV r d).extractLsb' (64 * j) 64, m.extractLsb' (8 * j) 8, movedPoisonV r d j⟩
     let inSlice (ea : W64) : Prop := ∀ j ∈ words, ea.toNat ≤ (wordAddr ea j).toNat
     let sent (cs : List Chunk) (each : Bool) (first : W64) : State :=
       let made := makeEntries t none each first (cs.zip (l.map fun e => e.2))
       queueStores made.2 made.1
     let allowed (cs : List Chunk) : Prop := StoreAllowed r t (cs.map fun c => c.piece) l
     let eaOff := getG s a + off.signExtend 64 * 32
     let eaIdx := getG s a + getG s b
     let use (rs : List GReg) : Uses := { srcS := rs.map .g, movV := [d] }
     let w := ewBits ew
     let on := (List.range (256 / w)).filter fun k => m.getLsbD k
     let lanePiece (k : Nat) (ea : W64) : Chunk :=
       ⟨⟨ea, w / 8, 0⟩, ((readV r d).extractLsb' (k * w) w).setWidth 64, 0xFF, movedPoisonV r d (k * w / 64)⟩
     let element (k : Nat) : W64 :=
       getG r a + ((readV r i).extractLsb' (k * w) w).signExtend 64 * BitVec.ofNat 64 (w / 8)
     let scattered := on.map fun k => lanePiece k (element k)
     let turned := (on.map fun k => lanePiece k (getG r a + BitVec.ofNat 64 (k * (w / 8)))) ++
       on.map fun k => lanePiece k (getG r b + BitVec.ofNat 64 k * (me r).ctpitch)
     let first (cs : List Chunk) : W64 := (cs.head?.map fun c => c.piece.va).getD 0
     (m ≠ 0 →
       (eaOff.toNat % 8 = 0 → inSlice eaOff → Operable r (use [a]) → allowed (chunks eaOff) →
         exec (.vst p d a .offset off) s =
           .next (retired r (sent (chunks eaOff) false (first (chunks eaOff))) (use [a]))) ∧
       ((getG s a).toNat % 8 = 0 → inSlice (getG s a) → Operable r (use [a]) → allowed (chunks (getG s a)) →
         exec (.vst p d a .postInc off) s =
           .next (retired r (setG (sent (chunks (getG s a)) false (first (chunks (getG s a)))) a eaOff) (use [a]))) ∧
       (eaIdx.toNat % 8 = 0 → inSlice eaIdx → Operable r (use [a, b]) → allowed (chunks eaIdx) →
         exec (.vstIndexed p d a b) s =
           .next (retired r (sent (chunks eaIdx) false (first (chunks eaIdx))) (use [a, b])))) ∧
     (on ≠ [] →
       ((∀ k ∈ on, (element k).toNat % (w / 8) = 0) → Operable r { srcS := [.g a], srcV := [i], movV := [d] } →
         allowed scattered →
         exec (.vscat p d a ew i) s =
           .next (retired r (sent scattered true (first scattered)) { srcS := [.g a], srcV := [i], movV := [d] })) ∧
       ((getG s a).toNat % 32 = 0 → (getG s b).toNat % (w / 8) = 0 → (me s).ctpitch.toNat % (w / 8) = 0 →
         Operable r (use [a, b]) → allowed turned →
         exec (.vstt p d a .offset b ew) s = .next (retired r (sent turned true (first turned)) (use [a, b])) ∧
         exec (.vstt p d a .postInc b ew) s =
           .next (retired r (setG (setG (sent turned true (first turned)) a (getG r a + 32)) b
             (getG r b + BitVec.ofNat 64 (w / 8))) (use [a, b]))))) ∧
  (∀ (p : Pred) (d : VReg) (a : GReg) (off : BitVec 4) (na : Fin 16) (s t : State) (l : List (Piece × Ref)),
     let r := ready s
     let m := predMask s p
     let lanes (j : Nat) : BitVec 2 := (m.extractLsb' 0 8).extractLsb' (2 * j) 2
     let on := (List.range 4).filter fun j => lanes j ≠ 0
     let us : Uses := { srcS := [.g a], srcV := [d] }
     let pieces (ea : W64) : List Piece := on.map fun j => ⟨wordAddr ea j, 8, 0⟩
     let reds : List Reduction := (l.zip on).map fun e => ⟨t.nextSeq, (me t).uid, t.slot, (me t).pc, e.1.2.va, e.1.2.loc,
       .norm na (lanes e.2), lane (readV t d) 64 e.2, e.1.2.key, e.1.2.ord, e.1.2.lease, false, none, false, false, .none,
       none⟩
     let sent := modCore (issuedOne t) t.cur fun c => { c with reds := c.reds ++ reds }
     let done := if t.lazy then sent else performNow sent reds
     let eaOff := getG s a + off.signExtend 64 * 32
     let allowed (ea : W64) : Prop := ea.toNat % 32 = 0 ∧ checkPieces r .store (pieces ea) = .ok (l, t) ∧
       (∀ e ∈ l, e.2.rp = false ∧ soWaits t e.2.ord = false) ∧
       (((coreOf t t.cur).reds.filter fun q => q.uid == (me t).uid).map fun q => q.seq).dedup.length < 64
     on ≠ [] → Operable r us →
     (allowed eaOff → exec (.stn p d a .offset off na) s = .next (retired r done us)) ∧
     (allowed (getG s a) → exec (.stn p d a .postInc off na) s = .next (retired r (setG done a eaOff) us)))

/-- R115, R120, R284: a scalar load, store, acquire, release or presence access at an address that is no multiple of its
size (8 for the presence accesses, 32 for VLDP and VSTP) raises cause 0x03 with the address in TVAL before any check of
the address: nothing is loaded, stored, pushed or popped, and the base stays. A CLRP of no word checks nothing. R122,
R147, R148, R389, R390: a VLD or VST that is not a multiple of 8 bytes, a VGATH or VSCAT with an enabled element that is
no multiple of its size, a VSTT or STN whose base is no multiple of 32, and an atomic or a return-free reduction whose
address is no multiple of its size, raise cause 0x03 with that address in TVAL (VGATH and VSCAT: of the lowest-numbered
such element). -/
def Obligations.MisalignedAccessesTrap : Prop :=
  (∀ (p : Pred) (d : SReg) (e : VReg) (a b : GReg) (lz : LSize) (sz : SSize) (sc : Scope) (off : BitVec 8)
     (off5 : BitVec 5) (s : State),
     let r := ready s
     let trap (wr : Bool) (ea : W64) : Answer := .next (takeTrap (dropBlocks r) 4 0x03 ea wr)
     let at_ (n : Nat) : W64 := getG s a + off.signExtend 64 * BitVec.ofNat 64 n
     let near (n : Nat) : W64 := getG s a + off5.signExtend 64 * BitVec.ofNat 64 n
     let base := getG s a
     let sum := getG s a + getG s b
     let three (n : Nat) (wr : Bool) (i j k : Instr) : Prop :=
       ((at_ n).toNat % n ≠ 0 → exec i s = trap wr (at_ n)) ∧ (base.toNat % n ≠ 0 → exec j s = trap wr base) ∧
       (sum.toNat % n ≠ 0 → exec k s = trap wr sum)
     (predOn s p = true →
       (let n := lsize lz
        Operable r { srcS := [.g a], dstS := [d] } → Operable r { srcS := [.g a, .g b], dstS := [d] } →
          three n false (.ld p d a lz .offset off) (.ld p d a lz .postInc off) (.ldIndexed p d a lz b) ∧
          ((near n).toNat % n ≠ 0 → exec (.lda p d a lz sc off5) s = trap false (near n)) ∧
          three 8 false (.ldp p d a .offset off) (.ldp p d a .postInc off) (.ldpIndexed p d a b)) ∧
       (let n := ssize sz
        Operable r { srcS := [.g a], movS := [d] } → Operable r { srcS := [.g a, .g b], movS := [d] } →
          three n true (.st p d a sz .offset off) (.st p d a sz .postInc off) (.stIndexed p d a sz b) ∧
          ((near n).toNat % n ≠ 0 → exec (.stl p d a sz sc off5) s = trap true (near n))) ∧
       (Operable r { srcS := [d, .g a] } → Operable r { srcS := [d, .g a, .g b] } →
          three 8 true (.stp p d a .offset off) (.stp p d a .postInc off) (.stpIndexed p d a b) ∧
          (readS r d ≠ 0 → three 8 true (.clrp p d a .offset off) (.clrp p d a .postInc off) (.clrpIndexed p d a b)))) ∧
     ((∃ j < 4, (predMask s p).getLsbD j = true) →
       (Operable r { srcS := [.g a], dstV := [e] } → Operable r { srcS := [.g a, .g b], dstV := [e] } →
          three 32 false (.vldp p e a .offset off) (.vldp p e a .postInc off) (.vldpIndexed p e a b)) ∧
       (Operable r { srcS := [.g a], srcV := [e] } → Operable r { srcS := [.g a, .g b], srcV := [e] } →
          three 32 true (.vstp p e a .offset off) (.vstp p e a .postInc off) (.vstpIndexed p e a b)))) ∧
  (∀ (p : Pred) (d i : VReg) (x : SReg) (g a b : GReg) (y : SReg) (ew : EWidth) (o : Ord) (op : AmoOp) (rop : RedOp)
     (z : ASize) (f : AFmt) (sc : Scope) (rel : Bool) (md : LMode) (na : Fin 16) (off : BitVec 8) (off4 : BitVec 4)
     (s : State),
     let r := ready s
     let m := predMask s p
     let trap (wr : Bool) (ea : W64) : Answer := .next (takeTrap (dropBlocks r) 4 0x03 ea wr)
     let eaOff := getG s a + off.signExtend 64 * 32
     let base := getG s a
     let sum := getG s a + getG s b
     let w := ewBits ew
     let on := (List.range (256 / w)).filter fun k => m.getLsbD k
     let element (k : Nat) : W64 :=
       getG r a + ((readV r i).extractLsb' (k * w) w).signExtend 64 * BitVec.ofNat 64 (w / 8)
     let firstBad (k : Nat) : Prop := k ∈ on ∧ (element k).toNat % (w / 8) ≠ 0 ∧
       ∀ j ∈ on, j < k → (element j).toNat % (w / 8) = 0
     let norm := match md with | .offset => getG s a + off4.signExtend 64 * 32 | .postInc => base
     let three (wr : Bool) (i j k : Instr) : Prop :=
       (eaOff.toNat % 8 ≠ 0 → exec i s = trap wr eaOff) ∧ (base.toNat % 8 ≠ 0 → exec j s = trap wr base) ∧
       (sum.toNat % 8 ≠ 0 → exec k s = trap wr sum)
     (m ≠ 0 →
       (Operable r { srcS := [.g a], dstV := [d] } → Operable r { srcS := [.g a, .g b], dstV := [d] } →
         three false (.vld p d a .offset off) (.vld p d a .postInc off) (.vldIndexed p d a b)) ∧
       (Operable r { srcS := [.g a], movV := [d] } → Operable r { srcS := [.g a, .g b], movV := [d] } →
         three true (.vst p d a .offset off) (.vst p d a .postInc off) (.vstIndexed p d a b))) ∧
     (∀ k, firstBad k →
       (Operable r { srcS := [.g a], srcV := [i], dstV := [d] } → exec (.vgath p d a ew i) s = trap false (element k)) ∧
       (Operable r { srcS := [.g a], srcV := [i], movV := [d] } → exec (.vscat p d a ew i) s = trap true (element k))) ∧
     (on ≠ [] → Operable r { srcS := [.g a, .g b], movV := [d] } → base.toNat % 32 ≠ 0 →
       exec (.vstt p d a md b ew) s = trap true base) ∧
     ((∃ j < 8, m.getLsbD j = true) → Operable r { srcS := [.g a], srcV := [d] } → norm.toNat % 32 ≠ 0 →
       exec (.stn p d a md off4 na) s = trap true norm) ∧
     (base.toNat % asizeBytes z ≠ 0 →
       (Operable r { srcS := [.g a, y], dstS := [x] } → exec (.amo o op z sc x a y) s = trap true base) ∧
       (Operable r { srcS := [.g a, .g g, y], dstS := [.g g] } → exec (.cas o z sc g a y) s = trap true base) ∧
       (Operable r { srcS := [.g a, y], dstS := [.g g] } → exec (.casXchg o z sc g a y) s = trap true base) ∧
       (Operable r { srcS := [.g a, y] } → exec (.red rel rop z sc a y) s = trap true base)) ∧
     (base.toNat % afmtBytes f ≠ 0 →
       (Operable r { srcS := [.g a, y], dstS := [x] } → exec (.famo o rop f sc x a y) s = trap true base) ∧
       (Operable r { srcS := [.g a, y] } → exec (.fred rel rop f sc a y) s = trap true base)))

/-- The frame of the scalar stores, at a home whose line the page's key reads and where no request waits: when ST in
each mode or STL has executed, every byte of memory but the n bytes that the translated address names reads as before;
and where nothing holds the store back and the home accepts it, those bytes are the low bytes of the data operand (R115,
R120, R302). Memory is in its canonical form, which every step keeps. The frame of the vector stores: when VST in each
mode, VSCAT or VSTT has executed, every byte of memory that none of its words, elements or corner-turned elements names
under the predicate reads as before (R147, R148, R389); where nothing holds the stores back and the homes accept them, a
byte that one names, and none after it, is that of its word or lane. Every home lies in one key and has no request
waiting. -/
def Obligations.ScalarStoreFrame : Prop :=
  (∀ (p : Pred) (d : SReg) (a b : GReg) (sz : SSize) (sc : Scope) (off : BitVec 8) (off5 : BitVec 5) (s t u : State)
     (ref : Ref) (q : List (Piece × Ref) × State),
     let r := ready s
     let n := ssize sz
     let eaOff := getG s a + off.signExtend 64 * BitVec.ofNat 64 n
     let eaRel := getG s a + off5.signExtend 64 * BitVec.ofNat 64 n
     let eaIdx := getG s a + getG s b
     let word := ref.loc / 8 * 8
     let now : Prop := t.lazy = false ∧ (coreOf t t.cur).stores = [] ∧ Unhindered t (⟨0, n, 0⟩, ref) ∧
       t.poison.contains (word / 8) = false ∧ footHeld t word = false
     let framed (m : State) (ea : W64) (rs : List GReg) (i : Instr) : Prop :=
       ea.toNat % n = 0 → Operable r { srcS := rs.map .g, movS := [d] } →
       StoreAllowed m t [⟨ea, n, 0⟩] [(⟨ea, n, 0⟩, ref)] → exec i s = .next u →
         t.mem = s.mem ∧ (∀ loc, ¬ (ref.loc ≤ loc ∧ loc < ref.loc + n) → memGet u.mem loc = memGet s.mem loc) ∧
         (now → ∀ loc, ref.loc ≤ loc → loc < ref.loc + n →
           memGet u.mem loc = BitVec.ofNat 8 ((readS r d).toNat / 2 ^ (8 * (loc - ref.loc))))
     predOn s p = true → Memory.wf s.mem = true → ref.loc % 8 + n ≤ 8 →
     (∀ e ∈ (coreOf t t.cur).stores, e.seq < t.nextSeq) → keyFits t word ref.key = true → parkedOn t word = [] →
     framed r eaOff [a] (.st p d a sz .offset off) ∧ framed r (getG s a) [a] (.st p d a sz .postInc off) ∧
     framed r eaIdx [a, b] (.stIndexed p d a sz b) ∧
     (checkPieces r .store [⟨eaRel, n, 0⟩] = .ok q → outstanding r r.cur (me r).uid r.nextSeq sc false false = false →
       framed (markMine r sc false) eaRel [a] (.stl p d a sz sc off5))) ∧
  (∀ (p : Pred) (d i : VReg) (a b : GReg) (ew : EWidth) (md : LMode) (off : BitVec 8) (s t u : State)
     (l : List (Piece × Ref)) (key : Nat),
     let r := ready s
     let m := predMask s p
     let words := (List.range 4).filter fun j => m.extractLsb' (8 * j) 8 ≠ 0
     let eaOff := getG s a + off.signExtend 64 * 32
     let eaIdx := getG s a + getG s b
     let use (rs : List GReg) : Uses := { srcS := rs.map .g, movV := [d] }
     let aligned (ea : W64) : Prop := ea.toNat % 8 = 0 ∧ ∀ j ∈ words, ea.toNat ≤ (wordAddr ea j).toNat
     let whole (ea : W64) : List (Piece × BitVec 8 × W64) :=
       words.map fun j => (⟨wordAddr ea j, 8, 8 * j⟩, m.extractLsb' (8 * j) 8, (readV r d).extractLsb' (64 * j) 64)
     let w := ewBits ew
     let on := (List.range (256 / w)).filter fun k => m.getLsbD k
     let element (k : Nat) : W64 :=
       getG r a + ((readV r i).extractLsb' (k * w) w).signExtend 64 * BitVec.ofNat 64 (w / 8)
     let lanes (f : Nat → W64) : List (Piece × BitVec 8 × W64) :=
       on.map fun k => (⟨f k, w / 8, 0⟩, 0xFF, ((readV r d).extractLsb' (k * w) w).setWidth 64)
     let turned := lanes (fun k => getG r a + BitVec.ofNat 64 (k * (w / 8))) ++
       lanes fun k => getG r b + BitVec.ofNat 64 k * (me r).ctpitch
     let names (c : (Piece × BitVec 8 × W64) × (Piece × Ref)) (loc : Nat) : Prop :=
       c.2.2.loc ≤ loc ∧ loc < c.2.2.loc + c.1.1.n ∧ c.1.2.1.getLsbD (loc - c.2.2.loc) = true
     let now : Prop := t.lazy = false ∧ (coreOf t t.cur).stores = [] ∧
       ∀ e ∈ l, Unhindered t e ∧ t.poison.contains (e.2.loc / 8) = false ∧ footHeld t (e.2.loc / 8 * 8) = false
     let framed (us : Uses) (cs : List (Piece × BitVec 8 × W64)) (op : Instr) : Prop :=
       Operable r us → StoreAllowed r t (cs.map fun c => c.1) l → exec op s = .next u →
         t.mem = s.mem ∧ ∀ loc, ((∀ c ∈ cs.zip l, ¬ names c loc) → memGet u.mem loc = memGet s.mem loc) ∧
           (now → ∀ before c after, cs.zip l = before ++ c :: after → names c loc → (∀ x ∈ after, ¬ names x loc) →
             memGet u.mem loc = c.1.2.2.extractLsb' (8 * (loc - c.2.2.loc)) 8)
     Memory.wf s.mem = true → (∀ e ∈ (coreOf t t.cur).stores, e.seq < t.nextSeq) →
     (∀ e ∈ l, e.2.loc % 8 + e.1.n ≤ 8 ∧ e.2.key = key ∧ keyFits t (e.2.loc / 8 * 8) key = true ∧
       parkedOn t (e.2.loc / 8 * 8) = []) →
     (m ≠ 0 →
       (aligned eaOff → framed (use [a]) (whole eaOff) (.vst p d a .offset off)) ∧
       (aligned (getG s a) → framed (use [a]) (whole (getG s a)) (.vst p d a .postInc off)) ∧
       (aligned eaIdx → framed (use [a, b]) (whole eaIdx) (.vstIndexed p d a b))) ∧
     (on ≠ [] →
       ((∀ k ∈ on, (element k).toNat % (w / 8) = 0) →
         framed { srcS := [.g a], srcV := [i], movV := [d] } (lanes element) (.vscat p d a ew i)) ∧
       ((getG s a).toNat % 32 = 0 → (getG s b).toNat % (w / 8) = 0 → (me s).ctpitch.toNat % (w / 8) = 0 →
         framed (use [a, b]) turned (.vstt p d a md b ew))))

/-- R283, R284: LDP and VLDP on words that are present. R284: STP and VSTP on words whose presence bits are clear write
them and set the bits as one step of the port, and requests that wait on the words are then served; with a bit set they
raise cause 0x07 and write nothing. R284: CLRP of k consecutive words, k being what d holds: at a port where nothing
earlier of the strand is on its way to the words and the environment does not delay it, each bit is cleared in turn, the
base is replaced in mode 01 and the strand goes on. k = 0 changes nothing, not even the base. -/
def Obligations.PresenceOperations : Prop :=
  (∀ (p : Pred) (d : SReg) (e : VReg) (a b : GReg) (off : BitVec 8) (s t : State) (x : W256)
     (q : Ref × State),
     let r := ready s
     let eaOff := getG s a + off.signExtend 64 * 8
     let eaIdx := getG s a + getG s b
     let eaVec := getG s a + off.signExtend 64 * 32
     let got := writeS (issuedOne t) d (x.setWidth 64)
     let m := predMask s p
     let words := (List.range 4).filter fun j => m.getLsbD j
     let pieces (ea : W64) : List Piece := words.map fun j => ⟨wordAddr ea j, 8, 8 * j⟩
     let gotV := writeLanes (issuedOne t) e 64 m x
     let one (ea : W64) : Prop := ea.toNat % 8 = 0 ∧ isSliceAddr r.cur ea = true ∧ PresenceServed r t [⟨ea, 8, 0⟩] x
     let four (ea : W64) : Prop := ea.toNat % 32 = 0 ∧ isSliceAddr r.cur ea = true ∧ access r .load ea = .ok q ∧
       PresenceServed r t (pieces ea) x
     (predOn s p = true → Operable r { srcS := [.g a], dstS := [d] } →
       (one eaOff → exec (.ldp p d a .offset off) s = .next (advance got 4)) ∧
       (one (getG s a) → exec (.ldp p d a .postInc off) s = .next (advance (setG got a eaOff) 4))) ∧
     (predOn s p = true → Operable r { srcS := [.g a, .g b], dstS := [d] } → one eaIdx →
       exec (.ldpIndexed p d a b) s = .next (advance got 4)) ∧
     (words ≠ [] → Operable r { srcS := [.g a], dstV := [e] } →
       (four eaVec → exec (.vldp p e a .offset off) s = .next (advance gotV 4)) ∧
       (four (getG s a) → exec (.vldp p e a .postInc off) s = .next (advance (setG gotV a eaVec) 4))) ∧
     (words ≠ [] → Operable r { srcS := [.g a, .g b], dstV := [e] } → four eaIdx →
       exec (.vldpIndexed p e a b) s = .next (advance gotV 4))) ∧
  (∀ (p : Pred) (d : SReg) (e : VReg) (a b : GReg) (off : BitVec 8) (s : State) (ws : List Nat) (q : Ref × State),
     let r := ready s
     let m := predMask s p
     let words := (List.range 4).filter fun j => m.getLsbD j
     let turn (ea : W64) (as : List W64) : Prop := isSliceAddr r.cur ea = true ∧ access r .store ea = .ok q ∧
       sliceWords r .store as = .ok ws ∧ portTurn r ws = .ok ()
     let free : Prop := ∀ w ∈ ws, isPresent r w = false
     let eaOff := getG s a + off.signExtend 64 * 8
     let eaIdx := getG s a + getG s b
     let eaVec := getG s a + off.signExtend 64 * 32
     let one := putPresent r (ws.zip [readS r d])
     let four := putPresent r (ws.zip (words.map fun j => (readV r e).extractLsb' (j * 64) 64))
     let use (rs : List GReg) : Uses := { srcS := d :: rs.map .g }
     let useV (rs : List GReg) : Uses := { srcS := rs.map .g, srcV := [e] }
     (predOn s p = true → Operable r (use [a]) → eaOff.toNat % 8 = 0 → turn eaOff [eaOff] →
       (free → exec (.stp p d a .offset off) s = .next (retired r one (use [a]))) ∧
       (¬ free → exec (.stp p d a .offset off) s = .next (takeTrap (dropBlocks r) 4 0x07 eaOff true))) ∧
     (predOn s p = true → Operable r (use [a]) → (getG s a).toNat % 8 = 0 → turn (getG s a) [getG s a] →
       (free → exec (.stp p d a .postInc off) s = .next (retired r (setG one a eaOff) (use [a]))) ∧
       (¬ free → exec (.stp p d a .postInc off) s = .next (takeTrap (dropBlocks r) 4 0x07 (getG s a) true))) ∧
     (predOn s p = true → Operable r (use [a, b]) → eaIdx.toNat % 8 = 0 → turn eaIdx [eaIdx] →
       (free → exec (.stpIndexed p d a b) s = .next (retired r one (use [a, b]))) ∧
       (¬ free → exec (.stpIndexed p d a b) s = .next (takeTrap (dropBlocks r) 4 0x07 eaIdx true))) ∧
     (words ≠ [] → Operable r (useV [a]) →
       (eaVec.toNat % 32 = 0 → turn eaVec (words.map (wordAddr eaVec)) →
         (free → exec (.vstp p e a .offset off) s = .next (retired r four (useV [a]))) ∧
         (¬ free → exec (.vstp p e a .offset off) s = .next (takeTrap (dropBlocks r) 4 0x07 eaVec true))) ∧
       ((getG s a).toNat % 32 = 0 → turn (getG s a) (words.map (wordAddr (getG s a))) →
         (free → exec (.vstp p e a .postInc off) s = .next (retired r (setG four a eaVec) (useV [a]))) ∧
         (¬ free → exec (.vstp p e a .postInc off) s = .next (takeTrap (dropBlocks r) 4 0x07 (getG s a) true)))) ∧
     (words ≠ [] → Operable r (useV [a, b]) → eaIdx.toNat % 32 = 0 → turn eaIdx (words.map (wordAddr eaIdx)) →
       (free → exec (.vstpIndexed p e a b) s = .next (retired r four (useV [a, b]))) ∧
       (¬ free → exec (.vstpIndexed p e a b) s = .next (takeTrap (dropBlocks r) 4 0x07 eaIdx true)))) ∧
  (∀ (p : Pred) (d : SReg) (a b : GReg) (off : BitVec 8) (s : State) (ws : List Nat) (q : Ref × State),
     let r := ready s
     let k := (readS r d).toNat
     let eaOff := getG s a + off.signExtend 64 * 8
     let eaIdx := getG s a + getG s b
     let use (rs : List GReg) : Uses := { srcS := d :: rs.map .g }
     let fits (ea : W64) : Prop := ea.toNat % 8 = 0 ∧ isSliceAddr r.cur ea = true ∧ access r .store ea = .ok q ∧
       8 * k ≤ bytesLeft ea ∧ sliceWords r .store ((List.range k).map (wordAddr ea)) = .ok ws ∧ r.lazy = false ∧
       ∀ w ∈ ws, w % 8 = 0 ∧ olderRead r r.cur (me r).uid r.nextSeq w = false ∧
         olderRed r r.cur (me r).uid r.nextSeq w = false ∧
         ∀ e ∈ (coreOf r r.cur).stores, e.uid = (me r).uid → e.word ≠ w
     let cleared := ws.foldl clearPresent (issuedOne r)
     predOn s p = true →
     (Operable r (use [a]) → k = 0 → exec (.clrp p d a .postInc off) s = .next (retired r r (use [a]))) ∧
     (Operable r (use [a]) → k ≠ 0 → fits eaOff →
       exec (.clrp p d a .offset off) s = .next (retired r cleared (use [a]))) ∧
     (Operable r (use [a]) → k ≠ 0 → fits (getG s a) →
       exec (.clrp p d a .postInc off) s = .next (retired r (setG cleared a eaOff) (use [a]))) ∧
     (Operable r (use [a, b]) → k ≠ 0 → fits eaIdx →
       exec (.clrpIndexed p d a b) s = .next (retired r cleared (use [a, b]))))

/-! ## Atomics, fences, counters, barriers and time -/

/-- R122 to R126: AMO, CAS, CAS.XCHG and FAMO at a home that lets the strand operate and is not poisoned. d receives the
old value, sign-extended (FAMO: zero-extended); the new value is written in the same step, a release leaves its tag, and
FAMO's flags join FCSR. CAS writes only where the old value equals the old d. A release marks the writes before it that
are still on their way, and an acquire takes the marks that reach it, whatever value it reads (R312, by log 101). R125:
RED and FRED complete at issue: the reduction becomes outstanding at its core (at most 64 for a strand), the PC
advances, and nothing is written to a register. In a step the environment does not delay, its home then performs it. A
release marks the writes before it that are still on their way, and carries its own mark (R312, by log 101). -/
def Obligations.AtomicsAndReductions : Prop :=
  (∀ (o : Ord) (op : AmoOp) (fop : RedOp) (f : AFmt) (z : ASize) (sc : Scope) (d : SReg) (e a : GReg) (b : SReg)
     (s t : State) (ref : Ref),
     let r := ready s
     let ea := getG s a
     let releases : Bool := match o with | .rel | .acqRel => true | .none | .acq => false
     let acquires : Bool := match o with | .acq | .acqRel => true | .none | .rel => false
     let marked := if releases then markMine t sc false else t
     let u := issuedOne marked
     let word := ref.loc / 8 * 8
     let home := homeWord u word ref.key
     let free : Prop := access r .atomic ea = .ok (ref, t) ∧ t.lazy = false ∧ drained t = true ∧
       soWaits t ref.ord = false ∧ (releases = true → outstanding t t.cur (me t).uid t.nextSeq sc false false = false) ∧
       Unhindered marked (⟨ea, 8, 0⟩, ref) ∧ queuedStore marked t.cur (me t).uid t.nextSeq word = false ∧
       readable u (.core t.cur) word = true ∧ home.2 = false
     let tagged (x : State) : State := if releases then
       setTag x word (some ⟨word, sc, t.cur, t.slot, (me t).uid, bondOfUid x t.cur (me t).uid, t.nextSeq⟩) else x
     let ordered (x : State) : State := if acquires then markAcquire x x.cur (me x).uid sc else x
     let written (n : Nat) (v : W64) : State := tagged (putBytes u ref.loc ref.key n v)
     let n := asizeBytes z
     let old : BitVec (8 * n) := home.1.extractLsb' (8 * (ref.loc % 8)) (8 * n)
     let y : BitVec (8 * n) := (readS r b).setWidth (8 * n)
     let new : BitVec (8 * n) := match op with
       | .add => old + y | .and => old &&& y | .or => old ||| y | .xor => old ^^^ y
       | .min => if old.toInt < y.toInt then old else y | .max => if old.toInt < y.toInt then y else old
       | .minu => if old.toNat < y.toNat then old else y | .maxu => if old.toNat < y.toNat then y else old
     let nf := afmtBytes f
     let oldf : BitVec (8 * nf) := home.1.extractLsb' (8 * (ref.loc % 8)) (8 * nf)
     let sum := redFp fop f oldf.toNat ((readS r b).toNat % 2 ^ (8 * nf))
     let done (d : SReg) (v : W64) (x : State) (us : Uses) : Answer :=
       .next (popAll (advance (ordered (writeS x d v)) 4) (popsOf r us))
     free →
     (ea.toNat % n = 0 → Operable r { srcS := [.g a, b], dstS := [d] } →
       exec (.amo o op z sc d a b) s =
         done d (old.signExtend 64) (written n (new.setWidth 64)) { srcS := [.g a, b], dstS := [d] }) ∧
     (ea.toNat % n = 0 → Operable r { srcS := [.g a, .g e, b], dstS := [.g e] } →
       exec (.cas o z sc e a b) s =
         done (.g e) (old.signExtend 64) (if old = (getG r e).setWidth (8 * n) then written n (readS r b) else u)
           { srcS := [.g a, .g e, b], dstS := [.g e] }) ∧
     (ea.toNat % n = 0 → Operable r { srcS := [.g a, b], dstS := [.g e] } →
       exec (.casXchg o z sc e a b) s =
         done (.g e) (old.signExtend 64) (written n (readS r b)) { srcS := [.g a, b], dstS := [.g e] }) ∧
     (ea.toNat % nf = 0 → Operable r { srcS := [.g a, b], dstS := [d] } →
       exec (.famo o fop f sc d a b) s = .next (popAll (advance
         (let x := writeS (written nf (BitVec.ofNat 64 sum.1)) d (oldf.setWidth 64)
          ordered (addFlags x x.cur x.slot sum.2)) 4) (popsOf r { srcS := [.g a, b], dstS := [d] })))) ∧
  (∀ (rel : Bool) (op : RedOp) (f : AFmt) (z : ASize) (sc : Scope) (a : GReg) (b : SReg) (s t : State) (ref : Ref),
     let r := ready s
     let ea := getG s a
     let us : Uses := { srcS := [.g a, b] }
     let u := issuedOne (if rel then markMine t sc false else t)
     let red (k : RedKind) : Reduction := ⟨t.nextSeq, (me t).uid, t.slot, (me t).pc, ref.va, ref.loc, k, readS t b, ref.key,
       ref.ord, ref.lease, ref.rp, if rel then some sc else none, false, false,
       if rel then ⟨[(t.cur, sc)], []⟩ else .none, none⟩
     let sent (k : RedKind) : State := modCore u u.cur fun c => { c with reds := c.reds ++ [red k] }
     let done (k : RedKind) : State := if u.lazy then sent k else performNow (sent k) [red k]
     Operable r us → access r .red ea = .ok (ref, t) → soWaits t ref.ord = false →
     (((coreOf t t.cur).reds.filter fun q => q.uid == (me t).uid).map fun q => q.seq).dedup.length < 64 →
     (ea.toNat % asizeBytes z = 0 → exec (.red rel op z sc a b) s =
       .next (retired r (done (.int op z)) us)) ∧
     (ea.toNat % afmtBytes f = 0 → exec (.fred rel op f sc a b) s =
       .next (retired r (done (.fp op f)) us)))

/-- R129, R130: a FENCE whose strand has no load in flight executes at once when what its release part and its RED form
cover has been performed: the PC advances, and the writes still on their way take the mark of its release and give that
of its acquire (R312, by log 101). Otherwise the strand waits for the release at the fence's scope. R131: IFENCE makes
the strand's later fetches see what its loads see: no byte fetched before is kept. R219: BAR and ARRIVE of a member
which has not arrived in the current phase. ARRIVE writes the phase number and goes on; BAR waits for the phase. Either
arrives at once when its release is performed, the strand's own loads among what it covers, and otherwise as soon as it
is; the writes before it take its mark (R312, by log 101). R447 to R449: TNOW writes plumb time at the core's die.
TUNTIL whose deadline has passed does the same; before it the strand waits for the deadline with d unwritten. -/
def Obligations.FencesBarriersAndTime : Prop :=
  (∀ (o : Ord) (sc : Scope) (red uo : Bool) (s : State), wellFormed (.fence o sc red uo) = true →
     let r := ready s
     let releases : Bool := match o with | .rel | .acqRel => true | .none | .acq => false
     let at_ : Scope := if releases then sc else .cr
     let uo' := releases && uo
     let acquires : Bool := match o with | .acq | .acqRel => true | .none | .rel => false
     let marked := if releases then markMine r sc uo else r
     let ordered := if acquires then markAcquire marked marked.cur (me marked).uid sc else marked
     drained r = true →
     ((releases = true ∨ red = true) → outstanding r r.cur (me r).uid r.nextSeq at_ uo' red = true →
       exec (.fence o sc red uo) s = .next (modMe r fun t => { t with wait := .release at_ uo' red })) ∧
     ((releases = true ∨ red = true → outstanding r r.cur (me r).uid r.nextSeq at_ uo' red = false) →
       exec (.fence o sc red uo) s = .next (advance ordered 4))) ∧
  (∀ s : State, drained (ready s) = true →
     ∃ t, exec .ifence s = .next t ∧ me t = { me s with pc := (me s).pc + 4, wait := .none, ifetch := [] }) ∧
  (∀ (p : Pred) (l : BarLevel) (d : GReg) (b : Nat) (s : State),
     let r := ready s
     let phase := (barOf r b l (clusterIdx r.cur)).phase
     let sc : Scope := match l with | .course => .cl | .bond => .pk
     let u := issuedOne (markMine r sc false)
     let late := outstanding r r.cur (me r).uid r.nextSeq sc false false
     let enter (x : State) : State :=
       if late then modMe x fun t => { t with arriving := t.arriving ++ [(l, r.nextSeq)] }
       else arriveBarrier x b l (clusterIdx x.cur) (me x).uid
     predOn s p = true → (me r).bond = some b → (me r).member = true → hasArrived r b l = false →
     exec (.bar p l) s = .next (enter (modMe u fun t => { t with wait := .barrier l phase })) ∧
     (Operable r { dstS := [.g d] } →
       exec (.arrive p l d) s = .next (enter (advance (setG u d (phase.setWidth 64)) 4)))) ∧
  (∀ (p : Pred) (d a : GReg) (s : State),
     let r := ready s
     let now : W64 := s.plumb[dieNum s.cur]?.getD 0
     predOn s p = true →
     (Operable r { dstS := [.g d] } → exec (.tnow p d) s = .next (advance (setG r d now) 4)) ∧
     (Operable r { srcS := [.g a], dstS := [.g d] } →
       ((getG r a).toNat ≤ now.toNat → exec (.tuntil p d a) s = .next (advance (setG r d now) 4)) ∧
       (now.toNat < (getG r a).toNat →
         exec (.tuntil p d a) s = .next (modMe r fun t => { t with wait := .tuntil (getG r a) }))))

/-- R220, R221: ITER on a nest counter at a slice port whose words are read in one turn of the port. With NEXT below
TOTAL it claims max(MIN, ⌈rem ÷ (FACTOR × PARTS)⌉) iterations, at most rem, adds them to NEXT and writes the start, the
length and the three indices of the start to d to d+4; with nothing left it takes its branch. ITERI writes the object.
That ITER keeps a release tag on the object's words, as ARMW does on an arrival word's (R359), and ITERI removes it, is
log 39. R285, R286, R359, R361: ARMW sets TARGET (and zeroes COUNT where b asks for it), performs the arrival step with
0 and writes the resulting GEN. WAITGEN reads its arrival word at the port, where nothing of the core that comes first
is on its way: it writes GEN once GEN has passed b by serial comparison, and is an acquire (R324); before, it waits
there for an answer, with d and the PC as they were. What that acquire orders is log 101. -/
def Obligations.NestCountersAndArrivalWords : Prop :=
  (∀ (p : Pred) (d a : GReg) (off mn : BitVec 12) (s : State) (loc : Nat) (next total e w : W64),
     let r := ready s
     let ea := getG s a
     let ds := (List.range 5).map fun k => SReg.g (gPlus d k)
     let field (x : W64) (lo n : Nat) : Nat := let v := x.toNat / 2 ^ lo % 2 ^ n; if v = 0 then 1 else v
     let left := total.toNat - next.toNat
     let part := field w 16 4 * field w 24 16
     let len := Nat.min (Nat.max (field w 0 16) ((left + part - 1) / part)) left
     let e0 := field e 0 32
     let e1 := field e 32 32
     let st := next.toNat
     let put (x : State) (k v : Nat) : State := setG x (gPlus d k) (BitVec.ofNat 64 v)
     predOn s p = true → ea.toNat % 32 = 0 → portObject r ea = .ok loc →
     (Operable r { srcS := [.g a], dstS := ds } → portWords r ea loc 4 = .ok [next, total, e, w] →
       (next.toNat < total.toNat → exec (.iter p d a off) s = .next (advance
         (put (put (put (put (put (rmwWords r loc [BitVec.ofNat 64 (st + len)]) 0 st) 1 len) 2 (st % e0)) 3
           (st / e0 % e1)) 4 (st / (e0 * e1))) 4)) ∧
       (total.toNat ≤ next.toNat → exec (.iter p d a off) s =
         .next (modMe r fun t => { t with pc := t.pc + off.signExtend 64 * 2 }))) ∧
     (Operable r { srcS := .g a :: (List.range 3).map fun k => SReg.g (gPlus d k) } →
       portTurn r ((List.range 4).map fun j => loc + 8 * j) = .ok () →
       let x := getG r (gPlus d 1)
       let y := getG r (gPlus d 2)
       exec (.iteri p d a mn) s = .next (advance (portWrite r loc [0, getG r d,
         BitVec.ofNat 64 (field x 0 32 + field x 32 32 * 2 ^ 32),
         BitVec.ofNat 64 ((if mn.toNat = 0 then 1 else mn.toNat) + field y 0 4 * 2 ^ 16 + field y 4 16 * 2 ^ 24)]) 4))) ∧
  (∀ (p : Pred) (d a b : GReg) (s : State) (loc : Nat) (w0 w1 : W64),
     let r := ready s
     let ea := getG s a
     let arm := getG r b
     let target := arm.toNat % 2 ^ 32
     let count := if arm.getLsbD 32 then 0 else w1.toNat
     let gen := w0.toNat % 2 ^ 32
     let gen' := if target = 0 then gen else (gen + count / target) % 2 ^ 32
     let count' := if target = 0 then count else count % target
     let ahead := (w0.setWidth 32 - arm.setWidth 32 : W32).toNat
     let u := setG (issuedOne r) d ((w0.setWidth 32).setWidth 64)
     predOn s p = true → ea.toNat % 16 = 0 → portObject r ea = .ok loc →
     Operable r { srcS := [.g a, .g b], dstS := [.g d] } →
     (portWords r ea loc 2 = .ok [w0, w1] → exec (.armw p d a b) s = .next (advance
       (setG (rmwWords r loc [BitVec.ofNat 64 (target * 2 ^ 32 + gen'), BitVec.ofNat 64 count']) d
         (BitVec.ofNat 64 gen')) 4)) ∧
     (loc % 8 = 0 → drained r = true → r.lazy = false → homeWord r loc 0 = (w0, false) →
       Unhindered r (⟨ea, 4, 0⟩, ⟨ea, loc, 0, .rc, false, false, none⟩) → queuedStore r r.cur (me r).uid r.nextSeq loc = false →
       readable r (.core r.cur) loc = true →
       (1 ≤ ahead ∧ ahead < 2 ^ 31 →
         exec (.waitgen p d a b) s = .next (advance (markAcquire u u.cur (me u).uid .sy) 4)) ∧
       (¬ (1 ≤ ahead ∧ ahead < 2 ^ 31) → ∃ v, exec (.waitgen p d a b) s = .next v ∧ (me v).wait = .answer ∧
         (me v).pc = (me s).pc ∧ (me v).g = (me s).g ∧ v.mem = s.mem)))

/-- R336, R337, R360, R362: WAITGE on a context the strand may name, whose counter has reached b, writes the outcome of
command b and is an acquire (R324); below b the strand is not ready, and the next selection tries again. SIGNAL raises a
software timeline of its job to b once its release at .PK is performed, and never lowers it. The marks that WAITGE takes
and SIGNAL leaves are log 101. -/
def Obligations.TimelineWaitAndSignal : Prop :=
  ∀ (p : Pred) (d a b : GReg) (s : State) (x : Ctx) (n : Nat),
    let r := ready s
    let counter := (ctxTimeline r r.cur (me r).job x).counter
    let taken := markAcquire r r.cur (me r).uid .sy
    predOn s p = true → drained r = true →
    (Operable r { srcS := [.g a, .g b], dstS := [.g d] } → ctxCheck r (getG r a) = .ok x →
      ((getG r b).toNat ≤ counter.toNat → exec (.waitge p d a b) s =
        .next (advance (setG taken d (ctxOutcome r x (ctxTimeline r r.cur (me r).job x) (getG r b))) 4)) ∧
      (counter.toNat < (getG r b).toNat →
        exec (.waitge p d a b) s = .next (modMe r fun t => { t with wait := .notReady }))) ∧
    (Operable r { srcS := [.g a, .g b] } → ctxOf (getG r a) = some (.software n) →
      outstanding r r.cur (me r).uid r.nextSeq .pk false false = false →
      exec (.signal p a b) s = .next (advance (modJob (markMine r .pk false) (me r).job fun j => { j with
        timelines := mapSet n (BitVec.ofNat 64 (Nat.max (mapGet 0 j.timelines n).toNat (getG r b).toNat))
          j.timelines }) 4))

/-! ## Floating point, vectors and fixed point -/

/-- R140 to R143: the scalar floating-point operations on the low bits of their sources, rounded once from the exact
value under FCSR.RM where they round, with their flags. R144 to R146, R46, R47: the scalar conversions. A conversion
with .SR rounds with the low 16 bits of the next value of the core's generator, and leaves that value in SRSEED. -/
def Obligations.ScalarFloatingPoint : Prop :=
  (∀ (p : Pred) (f : FFmt) (h : FmaFmt) (d a b c : SReg) (s : State), predOn s p = true →
     let r := ready s
     let rm := fcsrRm (me s).fcsr
     let low (x : SReg) (w : Nat) : Nat := (readS r x).toNat % 2 ^ w
     let exact (f : FFmt) (x : NumF) : Nat × Flags := let y := roundTo (ffmt f) rm x.1; (y.1, x.2 ||| y.2)
     let num (f : FFmt) (x : SReg) : Machine.Num := readFp (ffmt f) (low x f.width)
     let done (u : Uses) (x : Nat × Flags) : Answer := flaggedAnswer r 4 u x.2 fun t => writeS t d (BitVec.ofNat 64 x.1)
     let u1 : Uses := { srcS := [a], dstS := [d] }
     let u2 : Uses := { srcS := [a, b], dstS := [d] }
     let u3 : Uses := { srcS := [a, b, c], dstS := [d] }
     let g : FFmt := match h with | .fp64 => .fp64 | .fp32 => .fp32
     (Operable r u2 →
       exec (.fadd p f d a b) s = done u2 (exact f (addNum rm (num f a) (num f b))) ∧
       exec (.fsub p f d a b) s = done u2 (exact f (addNum rm (num f a) (negNum (num f b)))) ∧
       exec (.fmul p f d a b) s = done u2 (exact f (mulNum (num f a) (num f b))) ∧
       exec (.fdiv p f d a b) s = done u2 (exact f (divNum (num f a) (num f b))) ∧
       exec (.fmin p f d a b) s = done u2 (fpMin (ffmt f) (low a f.width) (low b f.width)) ∧
       exec (.fmax p f d a b) s = done u2 (fpMax (ffmt f) (low a f.width) (low b f.width)) ∧
       exec (.fsgn p f d a b) s = done u2 (fpSgn (ffmt f) (low a f.width) (low b f.width)) ∧
       exec (.fcmp p f d a b) s = done u2 (fpCmp (ffmt f) (low a f.width) (low b f.width))) ∧
     (Operable r u1 →
       exec (.fsqrt p f d a) s = done u1 (exact f (sqrtNum (num f a))) ∧
       exec (.fclass p f d a) s = done u1 (fpClass (ffmt f) (low a f.width), 0)) ∧
     (Operable r u3 →
       exec (.fma p h d a b c) s = done u3 (exact g (fmaNum rm (num g a) (num g b) (num g c))) ∧
       exec (.fms p h d a b c) s = done u3 (exact g (fmaNum rm (num g a) (num g b) (negNum (num g c)))) ∧
       exec (.fnma p h d a b c) s = done u3 (exact g (fmaNum rm (negNum (num g a)) (num g b) (num g c))))) ∧
  (∀ (p : Pred) (sr : Bool) (f src : FFmt) (b8 : B8) (i : IFmt) (rc : RCode) (d a : SReg) (s : State),
     predOn s p = true →
     let r := ready s
     let u : Uses := { srcS := [a], dstS := [d] }
     let rm := fcsrRm (me s).fcsr
     let rmOf : RMode := match rc with | .fixed m => m | .dyn => rm
     let low (w : Nat) : Nat := (readS r a).toNat % 2 ^ w
     let next := srStep (coreOf s s.cur).srseed
     let conv (dst : Fmt) (x : Machine.Num) : Answer :=
       let y := if sr then roundSr dst (next.toNat % 65536) x else roundTo dst rm x
       flaggedAnswer r 4 u y.2 fun t =>
         let t' := writeS t d (BitVec.ofNat 64 y.1)
         if sr then modCore t' t'.cur fun k => { k with srseed := next } else t'
     let done (x : Nat × Flags) : Answer := flaggedAnswer r 4 u x.2 fun t => writeS t d (BitVec.ofNat 64 x.1)
     Operable r u →
     exec (.fcvt p sr f src d a) s = conv (ffmt f) (readFp (ffmt src) (low src.width)) ∧
     exec (.fcvtWideToB8 p sr src b8 d a) s = conv (fmtB8 b8) (readFp (ffmt src) (low src.width)) ∧
     exec (.fcvtB8ToWide p f b8 d a) s = done (roundTo (ffmt f) rm (readFp (fmtB8 b8) (low 8))) ∧
     (let y := numToInt rmOf (ifmtRange i) (readFp (ffmt src) (low src.width))
      exec (.fcvti p src i rc d a) s = flaggedAnswer r 4 u y.2 fun t => writeS t d (BitVec.ofInt 64 y.1)) ∧
     exec (.icvtf p f i rc d a) s = done (roundTo (ffmt f) rmOf (intNum (ifmtRead i (low 64)))) ∧
     exec (.frnd p f rc d a) s = done (fpRound (ffmt f) rmOf (low f.width)))

/-- R43, R44: every code of every floating-point format that is no NaN names a value that rounds to that same code,
exactly and without a flag, in every rounding mode. R49, R50: in every format, binary8 among them, an operation on a NaN
delivers the canonical NaN of its destination's format, and raises NV exactly when an operand is a signalling NaN:
addition, subtraction, multiplication, division, square root, minimum, maximum, the sign operations, rounding to an
integral value, the fused operations and the conversions between floating-point formats. A fused 0 × ∞ with a NaN raises
NV whatever that NaN is (R143). A comparison with a NaN is unordered (R141), and a conversion of one to an integer gives
0 with NV (R52). A sum, minimum or maximum of lanes is canonical when a lane that takes part is a NaN, and raises NV
when one is signalling, a lone lane's NaN too (the model's reading, log 31). -/
def Obligations.RoundingAndNaNOperands : Prop :=
  (∀ (rm : RMode) (f : FFmt) (b : B8) (x : Nat),
     (x < 2 ^ f.width → isNaN (readFp (ffmt f) x) = false → roundTo (ffmt f) rm (readFp (ffmt f) x) = (x, 0)) ∧
     (x < 256 → isNaN (readFp (fmtB8 b) x) = false → roundTo (fmtB8 b) rm (readFp (fmtB8 b) x) = (x, 0))) ∧
  (∀ (rm : RMode) (f : FFmt) (e : B8) (k dst : Fmt) (range : Int × Int) (draw x y z : Nat),
     (k = ffmt f ∨ k = fmtB8 e) → dst ∈ [fmtFp64, fmtFp32, fmtFp16, fmtBf16, fmtB8 e] →
     let a := readFp k x
     let b := readFp k y
     let c := readFp k z
     let out (sig : Bool) : Nat × Flags := (canonNaN k, if sig then 1 else 0)
     let all : Bool := isSig a || isSig b || isSig c
     (isNaN a = true ∨ isNaN b = true → let o := out (isSig a || isSig b)
       fpAdd k rm x y = o ∧ fpSub k rm x y = o ∧ fpMul k rm x y = o ∧ fpDiv k rm x y = o ∧ fpMin k x y = o ∧
       fpMax k x y = o ∧ fpCmp k x y = (8, if isSig a || isSig b then 1 else 0) ∧
       fpFma k rm x y z = out all ∧ fpFms k rm x y z = out all ∧ fpFnma k rm x y z = out all) ∧
     (isNaN a = false → isNaN b = false → isNaN c = true →
       let o := out (isSig c || isNaN (mulNum a b).1)
       fpFma k rm x y z = o ∧ fpFms k rm x y z = o ∧ fpFnma k rm x y z = o) ∧
     (isNaN a = true → let o := out (isSig a)
       fpSqrt k rm x = o ∧ fpSetSign k true x = o ∧ fpSetSign k false x = o ∧ fpRound k rm x = o ∧
       fpSgn k x y = out (isSig a || isSig b) ∧
       roundTo dst rm a = (canonNaN dst, if isSig a then 1 else 0) ∧
       roundSr dst draw a = (canonNaN dst, if isSig a then 1 else 0) ∧
       numToInt rm range a = (0, 1) ∧ numToIntSr draw range a = (0, 1)) ∧
     (∀ (op : RedOp) (g : LFmt) (l : List (Option Nat)) (v : Nat), laneFmt g = some k → l.length ≤ 32 → some v ∈ l →
       let q := tree (redLane op g rm) 5 l
       let w := redResult g q.1
       (isNaN (readFp k v) = true → w.1 = canonNaN k) ∧
       (isSig (readFp k v) = true → (q.2 ||| w.2).getLsbD 0 = true)))

/-- R151, R152, R165: the two-source lane operations and their compressed forms, whose first source is d. Integer lanes
wrap; a shift by the width or more gives 0, or copies of the sign. R151, R154, R155, R157, R158, R165: the one-source
lane operations, the selection and clamping of lanes (R154), the moves of lanes and VIOTA, with their compressed forms.
-/
def Obligations.VectorLaneOperations : Prop :=
  (∀ (p : Pred) (f : LFmt) (d a b : VReg) (s : State),
     let r := ready s
     let rm := fcsrRm (me s).fcsr
     let w := f.width
     let m := predMask s p
     let A (v : VReg) (j : Nat) : BitVec f.width := lane (readV r v) f.width j
     let both (int : BitVec f.width → BitVec f.width → BitVec f.width) (fp : Fmt → Nat → Nat → Nat × Flags)
         (x y : VReg) (j : Nat) : Nat × Flags :=
       match laneFmt f with
       | none => ((int (A x j) (A y j)).toNat, 0)
       | some k => fp k (A x j).toNat (A y j).toNat
     let plain (g : BitVec f.width → BitVec f.width → BitVec f.width) (x y : VReg) (j : Nat) : Nat × Flags :=
       ((g (A x j) (A y j)).toNat, 0)
     let u : Uses := { srcV := [a, b], dstV := [d] }
     let uc : Uses := { srcV := [d, b], dstV := [d] }
     let is (i : Instr) (g : Nat → Nat × Flags) : Prop := LanesBecome i s 4 m f.lanes w id d u g id
     let isC (i : Instr) (g : Nat → Nat × Flags) : Prop := LanesBecome i s 2 0xFFFFFFFF f.lanes w id d uc g id
     let add := both (· + ·) fun k => fpAdd k rm
     let sub := both (· - ·) fun k => fpSub k rm
     let mul := both (· * ·) fun k => fpMul k rm
     let mn := both (fun x y => if x.toInt ≤ y.toInt then x else y) fpMin
     let mx := both (fun x y => if x.toInt ≤ y.toInt then y else x) fpMax
     let shl := plain fun x y => if w ≤ y.toNat then 0 else x <<< y.toNat
     let shr := plain fun x y => if w ≤ y.toNat then 0 else x >>> y.toNat
     let sra := plain fun x y => x.sshiftRight (Nat.min y.toNat w)
     is (.vadd p f d a b) (add a b) ∧ isC (.cVadd f d b) (add d b) ∧
     is (.vsub p f d a b) (sub a b) ∧ isC (.cVsub f d b) (sub d b) ∧
     is (.vmul p f d a b) (mul a b) ∧ isC (.cVmul f d b) (mul d b) ∧
     is (.vmulh p f d a b) (plain (fun x y => BitVec.ofInt f.width (x.toInt * y.toInt / 2 ^ f.width)) a b) ∧
     is (.vmin p f d a b) (mn a b) ∧ isC (.cVmin f d b) (mn d b) ∧
     is (.vmax p f d a b) (mx a b) ∧ isC (.cVmax f d b) (mx d b) ∧
     is (.vand p f d a b) (plain (· &&& ·) a b) ∧ isC (.cVand f d b) (plain (· &&& ·) d b) ∧
     is (.vor p f d a b) (plain (· ||| ·) a b) ∧ isC (.cVor f d b) (plain (· ||| ·) d b) ∧
     is (.vxor p f d a b) (plain (· ^^^ ·) a b) ∧ isC (.cVxor f d b) (plain (· ^^^ ·) d b) ∧
     is (.vshl p f d a b) (shl a b) ∧ isC (.cVshl f d b) (shl d b) ∧
     is (.vshr p f d a b) (shr a b) ∧ isC (.cVshr f d b) (shr d b) ∧
     is (.vsra p f d a b) (sra a b) ∧ isC (.cVsra f d b) (sra d b)) ∧
  (∀ (p : Pred) (f : LFmt) (dotP : Bool) (d a b : VReg) (x : SReg) (k : BitVec 5) (s : State),
     let r := ready s
     let rm := fcsrRm (me s).fcsr
     let w := f.width
     let m := predMask s p
     let A (v : VReg) (j : Nat) : BitVec f.width := lane (readV r v) f.width j
     let one (int : BitVec f.width → BitVec f.width) (fp : Fmt → Nat → Nat × Flags) (v : VReg) (j : Nat) : Nat × Flags :=
       match laneFmt f with | none => ((int (A v j)).toNat, 0) | some q => fp q (A v j).toNat
     let copy (v : VReg) (j : Nat) : Nat × Flags := ((A v j).toNat, 0)
     let is (l : List VReg) (i : Instr) (g : Nat → Nat × Flags) : Prop :=
       LanesBecome i s 4 m f.lanes w id d { srcV := l, dstV := [d] } g id
     let isC (l : List VReg) (i : Instr) (g : Nat → Nat × Flags) : Prop :=
       LanesBecome i s 2 0xFFFFFFFF f.lanes w id d { srcV := l, dstV := [d] } g id
     let absolute := one (fun y => BitVec.ofInt f.width y.toInt.natAbs) fun q y => fpSetSign q false y
     let negated := one (fun y => -y) fun q y => fpSetSign q (!isNeg (readFp q y)) y
     let est (o : EstOp) : Nat → Nat × Flags := one id (fun q y => estimate o q y) a
     is [a] (.vabs p f dotP d a) (absolute a) ∧ isC [b] (.cVabs f d b) (absolute b) ∧
     is [a] (.vneg p f dotP d a) (negated a) ∧ isC [b] (.cVneg f d b) (negated b) ∧
     is [a] (.vmov p f dotP d a) (copy a) ∧ isC [b] (.cVmov f d b) (copy b) ∧
     is [a] (.vbcast p f d a k) (fun _ => copy a k.toNat) ∧ isC [b] (.cVbcast f d b) (fun _ => copy b 0) ∧
     is [a, b] (.vsel p f d a b) (fun j => if (getM s 0).getLsbD j then copy a j else copy b j) ∧
     is [a, b] (.vshuf p f d a b) (fun j => copy a ((A b j).toNat % f.lanes)) ∧
     is [a] (.vrot p f d a k) (fun j => copy a ((j + k.toNat) % f.lanes)) ∧
     is [a, b] (.vlut p f d a b) (fun j => copy b (lane (readV r a) 4 j).toNat) ∧
     LanesBecome (.viota p f dotP d x) s 4 m f.lanes w id d { srcS := [x], dstV := [d] }
       (fun j => (((readS r x).toNat + j) % 2 ^ w, 0)) id ∧
     is [a] (.vexp2 p f dotP d a) (est .exp2) ∧ is [a] (.vlog2 p f dotP d a) (est .log2) ∧
     is [a] (.vrcp p f dotP d a) (est .rcp) ∧ is [a] (.vrsq p f dotP d a) (est .rsq) ∧
     is [a] (.vtanh p f dotP d a) (est .tanh) ∧
     (let fp (y : Nat × Flags) (z : Nat × Flags) : Nat × Flags := (z.1, y.2 ||| z.2)
      let clamp (v : Fin 8) (j : Nat) : Nat × Flags := match laneFmt f with
        | none =>
          let t : BitVec f.width := if (A (.v v) j).toInt ≤ (A a j).toInt then A a j else A (.v v) j
          ((if t.toInt ≤ (A b j).toInt then t else A b j).toNat, 0)
        | some q => let t := fpMax q (A (.v v) j).toNat (A a j).toNat; fp t (fpMin q t.1 (A b j).toNat)
      ∀ v : Fin 8, LanesBecome (.vclamp p f v a b) s 4 m f.lanes w id (.v v) { srcV := [.v v, a, b], dstV := [.v v] }
        (clamp v) id) ∧
     (let mac (j : Nat) : Nat × Flags := match laneFmt f with
        | none => ((A d j + A b j * A (.v 0) j).toNat, 0)
        | some q => fpFma q rm (A b j).toNat (A (.v 0) j).toNat (A d j).toNat
      isC [d, b, .v 0] (.cVmac f d b) mac))

/-- R153, R156, R155, R152: VCMP, VRED, VINS, VEXT and VLOP3. VCMP keeps the mask bits of lanes it does not compare and
clears those above its lanes; VRED combines the enabled lanes in the pairwise tree of R60 and delivers a NaN in
canonical form, with NV for a signalling one, even where one lane alone takes part (R49, R50; that these rules hold of a
lone lane is the model's reading, log 31). R159: the fused lane operations; VDOT's lanes are sums of products with the
lane of c, exact before the rounding of BF16 products and wrapping for I8. -/
def Obligations.VectorComparesReductionsAndFusedOperations : Prop :=
  (∀ (p : Pred) (cc : VCond) (op : RedOp) (f : LFmt) (dotP : Bool) (e : MReg) (d a b : VReg) (v : Fin 8) (x y : SReg)
     (k : BitVec 5) (table : BitVec 8) (s : State),
     let r := ready s
     let m := lanesOn (predMask s p) f.lanes
     let A (v : VReg) (j : Nat) : BitVec f.width := lane (readV r v) f.width j
     let cond (j : Nat) : Bool × Flags := condLane cc f (A a j).toNat (A b j).toNat
     let ua : Uses := { srcV := [a], dstV := [d] }
     let comb : RMode → Nat → Nat → Nat × Flags := match op with | .add => addLane f | .min => minLane f | .max => maxLane f
     let q := tree (comb (fcsrRm (me s).fcsr)) 5
       ((List.range f.lanes).map fun i => if m.getLsbD i then some (A a i).toNat else none)
     let z := redResult f q.1
     (m ≠ 0 → Operable r { srcV := [a, b] } → ∀ (fl : Flags) (n : W32),
       (∀ i, fl.getLsbD i = true ↔ ∃ j, j < f.lanes ∧ m.getLsbD j = true ∧ (cond j).2.getLsbD i = true) →
       (∀ j, n.getLsbD j = (decide (j < f.lanes) && (if m.getLsbD j then (cond j).1 else (getM s e).getLsbD j))) →
       exec (.vcmp p cc f e a b) s = flaggedAnswer r 4 { srcV := [a, b] } fl fun t => setM t e n) ∧
     (m ≠ 0 → Operable r ua →
       exec (.vred p op f dotP d a) s = flaggedAnswer r 4 ua (q.2 ||| z.2) fun t => writeV t d (BitVec.ofNat 256 z.1)) ∧
     (Operable r { srcS := [x], srcV := [.v v], dstV := [.v v] } → (predMask s p).getLsbD k.toNat = true →
       k.toNat < f.lanes → exec (.vins p f v x k) s = .next (retired r
         (writeLanes r (.v v) f.width (BitVec.ofNat 32 (2 ^ k.toNat))
           (((readS r x).setWidth f.width).setWidth 256 <<< (k.toNat * f.width)))
         { srcS := [x], srcV := [.v v], dstV := [.v v] })) ∧
     (Operable r { srcV := [a], dstS := [y] } → predOn s p = true →
       exec (.vext p f y a k) s = .next (retired r
         (writeS r y (if f.isInt then (A a k.toNat).signExtend 64 else (A a k.toNat).setWidth 64))
         { srcV := [a], dstS := [y] })) ∧
     (predMask s p ≠ 0 → Operable r { srcV := [.v v, a, b], dstV := [.v v] } → ∃ t : W256,
       (∀ j, j < 256 → t.getLsbD j = table.getLsbD (4 * ((readV r b).getLsbD j).toNat + 2 * ((readV r a).getLsbD j).toNat
         + ((getV r v).getLsbD j).toNat)) ∧
       exec (.vlop3 p v a b table) s = .next (retired r (writeLanes r (.v v) 8 (predMask s p) t)
         { srcV := [.v v, a, b], dstV := [.v v] }))) ∧
  (∀ (p : Pred) (f : VfmaFmt) (h : FmaFmt) (d a b c : VReg) (s : State),
     let r := ready s
     let rm := fcsrRm (me s).fcsr
     let m := predMask s p
     let u : Uses := { srcV := [a, b, c], dstV := [d] }
     let k : FFmt := match f with | .fp64 => .fp64 | .fp32 => .fp32 | .bf16 => .bf16 | .fp16 => .fp16
     let g : FFmt := match h with | .fp64 => .fp64 | .fp32 => .fp32
     let L (w : Nat) (v : VReg) (j : Nat) : Nat := (lane (readV r v) w j).toNat
     LanesBecome (.vfma p f d a b c) s 4 m (256 / k.width) k.width id d u
       (fun j => fpFma (ffmt k) rm (L k.width a j) (L k.width b j) (L k.width c j)) id ∧
     LanesBecome (.vfms p h d a b c) s 4 m (256 / g.width) g.width id d u
       (fun j => fpFms (ffmt g) rm (L g.width a j) (L g.width b j) (L g.width c j)) id ∧
     LanesBecome (.vdot p .bf16 d a b c) s 4 m 8 32 id d u (fun j =>
       let q (i : Nat) : Machine.Num × Machine.Num := (readFp fmtBf16 (L 16 a i), readFp fmtBf16 (L 16 b i))
       finishFp fmtFp32 rm (dotNum rm [q (2 * j), q (2 * j + 1)] (readFp fmtFp32 (L 32 c j)))) id ∧
     LanesBecome (.vdot p .i8 d a b c) s 4 m 8 32 id d u (fun j =>
       let q (i : Nat) : Int := (lane (readV r a) 8 (4 * j + i)).toInt * (lane (readV r b) 8 (4 * j + i)).toInt
       ((BitVec.ofInt 32 ((lane (readV r c) 32 j).toInt + q 0 + q 1 + q 2 + q 3)).toNat, 0)) id)

/-- R160 to R163: the vector conversions. With PART they read, or write, the part of the wider vector that it names;
under .SR the written lanes draw from the core's generator in lane order, and SRSEED keeps the state after the last
draw. -/
def Obligations.VectorConversions : Prop :=
  ∀ (p : Pred) (sr : Bool) (k : VcvtKind) (nd : NarrowDst) (wd : WidenDst) (ws : WidenSrc) (part : BitVec 3)
    (d a : VReg) (s : State),
    let r := ready s
    let rm := fcsrRm (me s).fcsr
    let m := predMask s p
    let seed := (coreOf s s.cur).srseed
    let below (j : Nat) : Nat := ((List.range j).filter fun i => m.getLsbD i).length
    let drawn (n j : Nat) : Option Nat := if sr then some ((draws (below n) seed).1.getD (below j) 0) else none
    let seeded (n : Nat) (t : State) : State :=
      if sr then modCore t t.cur fun c => { c with srseed := (draws (below n) seed).2 } else t
    let wide (w v : Nat) : Nat := 256 / Nat.max w v
    let src (w v j : Nat) : Nat := if w < v then part.toNat * wide w v + j else j
    let dst (w v j : Nat) : Nat := if v < w then part.toNat * wide w v + j else j
    let L (w : Nat) (v : VReg) (j : Nat) : Nat := (lane (readV r v) w j).toNat
    (let w := (vcvtWidths k).1
     let v := (vcvtWidths k).2
     let n := wide w v
     partOk w v part = true →
     LanesBecome (.vcvt p sr k part d a) s 4 m n v (dst w v) d { srcV := [a], dstV := [d] }
       (fun j => vcvtLane k rm (drawn n j) (L w a (src w v j))) (seeded n)) ∧
    (let v := nd.width
     let n := wide 32 v
     partOk 32 v part = true →
     LanesBecome (.vnarrow p sr nd part d a) s 4 m n v (dst 32 v) d { srcV := [a, .v 0], dstV := [d] }
       (fun j => narrowTo nd rm (drawn n j)
         (divNum (readFp fmtFp32 (L 32 a (src 32 v j))) (readFp fmtFp32 (L 32 (.v 0) (src 32 v j))))) (seeded n)) ∧
    (let w := ws.width
     let v := wd.width
     partOk w v part = true →
     LanesBecome (.vwiden p wd ws part d a) s 4 m (wide w v) v (dst w v) d { srcV := [a, .v 0], dstV := [d] }
       (fun j => finishFp (widenFmt wd) rm (mulNum (widenSrc ws (L w a (src w v j)))
         (readFp (widenFmt wd) (L v (.v 0) j)))) id)

/-- R41, R42, R164: the fixed-point operations: QMUL rounds the product divided by 2^F, QDIV divides d by a, a zero
divisor giving the extreme of d's sign with DZ, QSQRT of a negative value gives 0 with NV; a result outside the range is
clamped with SAT. -/
def Obligations.FixedPoint : Prop :=
  ∀ (p : Pred) (w : QWid) (f : BitVec 6) (d : GReg) (e a : SReg) (s : State), predOn s p = true →
    let r := ready s
    let rm := fcsrRm (me s).fcsr
    let q (x : W64) : Int := (x.setWidth w.bits).toInt
    let hi : Int := 2 ^ (w.bits - 1) - 1
    let lo : Int := -2 ^ (w.bits - 1)
    let sat (x : Int × Bool) : Int × Flags := qSat w.bits x
    let y := q (getG r d)
    let x := q (readS r a)
    let u2 : Uses := { srcS := [.g d, a], dstS := [.g d] }
    let u1 : Uses := { srcS := [a], dstS := [e] }
    let done (u : Uses) (o : SReg) (z : Int × Flags) : Answer :=
      flaggedAnswer r 4 u z.2 fun t => writeS t o (BitVec.ofInt 64 z.1)
    (Operable r u2 →
      exec (.qmul p w f d a) s = done u2 (.g d) (sat (roundDiv rm (y * x) (2 ^ f.toNat))) ∧
      (x = 0 → exec (.qdiv p w f d a) s = done u2 (.g d) (if 0 < y then hi else if y < 0 then lo else 0, 2)) ∧
      (0 < x → exec (.qdiv p w f d a) s = done u2 (.g d) (sat (roundDiv rm (y * 2 ^ f.toNat) x.natAbs))) ∧
      (x < 0 → exec (.qdiv p w f d a) s = done u2 (.g d) (sat (roundDiv rm (-(y * 2 ^ f.toNat)) x.natAbs)))) ∧
    (Operable r u1 →
      (x < 0 → exec (.qsqrt p w f e a) s = done u1 e (0, 1)) ∧
      (0 ≤ x → exec (.qsqrt p w f e a) s = done u1 e (sat (roundSqrt rm (x.natAbs * 2 ^ f.toNat)))))

/-! ## Streams and strands -/

/-- R168, R188, R190: the position that SPOS packs names, at every place of the traversal, the place that SREW rewinds
to, and SREW accepts it; the element there lies at BASE plus each index times its stride. -/
def Obligations.StreamPositionsRoundTrip : Prop :=
  ∀ (d : W512) (t : Nat), t < sdTotal d →
    sdPlace d (sdPack d t) = t ∧ placeOk d (sdPack d t) = true ∧
    ∃ i j k l : Nat, i < sdCnt d 0 ∧ j < sdCnt d 1 ∧ k < sdCnt d 2 ∧ l < sdCnt d 3 ∧
      t = i + sdCnt d 0 * (j + sdCnt d 1 * (k + sdCnt d 2 * l)) ∧
      sdPack d t = BitVec.ofNat 64 (i + j * 2 ^ 16 + k * 2 ^ 32 + l * 2 ^ 48) ∧
      sdAddr d t = d.extractLsb' 0 64 + BitVec.ofNat 64 i * d.extractLsb' 192 64 +
        BitVec.ofNat 64 j * d.extractLsb' 256 64 + BitVec.ofNat 64 k * d.extractLsb' 320 64 +
        BitVec.ofNat 64 l * d.extractLsb' 384 64

/-- R184 to R192: what the stream instructions do when they execute, with no pop of the stream on its way. SCFG makes
the stream active at place 0 with the descriptor's 64 bytes, owned by its strand, once elements pushed to the old stream
have left; while they are left it unbinds the stream at once and begins again. SBIND binds an active, unbound stream to
a free link, or unbinds it; SPOS reads the position; SSTOP stops a stream that is not idle; SREW rewinds; SFLUSH drops
the buffer of a read stream; SSKIP passes over delivered elements. R174, R185, R190, R192: the stream instructions raise
cause 0x06 with the stream and the reason in TVAL: SREW and SSKIP of a stream that is not configured or active (SSKIP of
no element too, log 104), SREW to a place outside the traversal, SSKIP of a bound stream, SBIND of a stream that is not
active or is bound, or to a link direction that another stream holds, and SCFG with a descriptor that R169 calls
invalid, or misaligned and else valid (that order is log 103). -/
def Obligations.StreamInstructions : Prop :=
  (∀ (p : Pred) (n : StreamId) (q : Port) (d a : GReg) (s t : State) (desc : W512),
     let r := ready s
     let st := (coreOf s s.cur).streams[n]
     let put (x : State) (f : Stream → Stream) : State := modStream x x.cur n f
     let l := linkOf (me s).orient q
     let dropped : State := if sdWrite st.desc then r else
       put (withdraw r r.cur n) fun x => { dropBuffer x with token := none, stuck := none, zeros := [] }
     predOn s p = true →
     ((getG s a).toNat % 64 = 0 → Operable r { srcS := [.g a] } → loadBlock r (getG r a) = .ok (desc, t) →
       sdInvalid desc = none → streamFree t n = true →
       (pushedLeft (streamOf t n) = false → exec (.scfg p n a) s = .next (advance (put (unbind t t.cur n) fun _ =>
         { mode := .active, desc := desc, pos := 0, ahead := 0, endF := false, exh := false, bound := none, buf := [],
           owner := (unbind t t.cur n).slot, ownerUid := (me (unbind t t.cur n)).uid, skips := [], stuck := none,
           zeros := [], token := none }) 4)) ∧
       (pushedLeft (streamOf t n) = true → (streamOf t n).bound ≠ none →
         exec (.scfg p n a) s = .next (unbind t t.cur n))) ∧
     (Operable r { dstS := [.g d] } → exec (.spos p d n) s =
       .next (advance (setG r d (if st.mode = .idle ∨ st.exh = true then 0 else sdPack st.desc st.pos)) 4)) ∧
     (streamFree r n = true →
     exec (.sbind p n none) s = .next (advance (unbind r r.cur n) 4) ∧
     (st.mode = .active → st.bound = none → boundOn (coreOf s s.cur) l (sdWrite st.desc) = none →
       exec (.sbind p n (some q)) s = .next (advance (put r fun x => { x with bound := some l }) 4)) ∧
     (st.mode = .idle → exec (.sstop p n) s = .next (advance r 4)) ∧
     (st.mode ≠ .idle → ∃ u, exec (.sstop p n) s = .next u ∧ (streamOf u n).mode = .stopped ∧
       (streamOf u n).bound = none ∧ me u = { me r with pc := (me r).pc + 4 }) ∧
     (Operable r { srcS := [.g a] } → st.mode ≠ .idle → placeOk st.desc (getG r a) = true →
       exec (.srew p n a) s = .next (advance (put dropped fun x => { x with
         pos := sdPlace st.desc (getG r a), ahead := sdPlace st.desc (getG r a), endF := false, exh := false,
         mode := .active }) 4)) ∧
     (drained r = true → pushedLeft st = false →
       exec (.sflush p n) s = .next (advance (if st.mode = .idle then r else dropped) 4)) ∧
     (Operable r { srcS := [.g a] } → st.mode = .active → st.bound = none →
       exec (.sskip p n a) s = .next (advance (if getG r a = 0 then r else
         put r fun x => skipElems r r.cur x (getG r a).toNat) 4)))) ∧
  (∀ (p : Pred) (n : StreamId) (q : Port) (a : GReg) (s t : State) (desc : W512),
     let r := ready s
     let st := (coreOf s s.cur).streams[n]
     let trap (reason : Nat) : Answer := .next (takeTrap (dropBlocks r) 4 0x06 (BitVec.ofNat 64 (n.val + 16 * reason)))
     predOn s p = true → streamFree r n = true → Operable r { srcS := [.g a] } →
     (st.mode = .idle → exec (.srew p n a) s = trap 1) ∧
     (st.mode ≠ .idle → placeOk st.desc (getG r a) = false → exec (.srew p n a) s = trap 8) ∧
     (st.mode ≠ .active → exec (.sskip p n a) s = trap 1) ∧
     (st.mode = .active → st.bound ≠ none → exec (.sskip p n a) s = trap 9) ∧
     (st.mode ≠ .active ∨ st.bound ≠ none ∨ boundOn (coreOf s s.cur) (linkOf (me s).orient q) (sdWrite st.desc) ≠ none →
       exec (.sbind p n (some q)) s = trap 7) ∧
     ((getG s a).toNat % 64 = 0 → loadBlock r (getG r a) = .ok (desc, t) →
       let field (hi lo : Nat) : Nat := desc.toNat / 2 ^ lo % 2 ^ (hi + 1 - lo)
       let size := match field 66 64 with | 0 => 1 | 1 => 2 | 2 => 4 | _ => 8
       let invalid : Prop := field 79 74 ≠ 0 ∨ field 127 112 ≠ 0 ∨ field 511 448 ≠ 0 ∨ 4 < field 66 64 ∨
         (field 68 68 = 1 ∧ (field 67 67 = 1 ∨ 3 ≤ field 66 64)) ∨ (field 69 69 = 1 ∧ field 63 48 ≠ 0xFFFF) ∨
         (field 70 70 = 1 ∧ field 95 80 % 4 ≠ 0) ∨ (field 71 71 = 0 ∧ field 73 72 ≠ 0)
       (invalid → exec (.scfg p n a) s = trap 5) ∧
       (¬ invalid → (field 63 0 % size ≠ 0 ∨
           ∃ k < 4, field (143 + 16 * k) (128 + 16 * k) ≠ 0 ∧ field (255 + 64 * k) (192 + 64 * k) % size ≠ 0) →
         exec (.scfg p n a) s = trap 6)))

/-- R207 to R215: SPAWN, SEND, SENDA and WAKE put their request into the core's outbound buffer when the target word
names a core of the bond and a place is free; they wait for no part of the release that their message leaves after, and
the writes before them take its mark (R312, by log 101). A spawned strand copies FCSR without flags, ORIENT, TVEC, DHINT
and the privilege; a message carries g(d) to g(d+7), the sender's place and the tag. R216 to R218: FAN of a start stub
whose bond has not fanned, on dies of the bond's mask, takes the phase numbers of the bond's barriers to 0, hands the
start messages of the bond's cores on those dies to the outbound buffer, one for each cluster's keystone core (R276),
records what a restart needs, and ends the stub; a second FAN, and one of a strand that is no stub, raises cause 0x08.
-/
def Obligations.RequestsAndStarts : Prop :=
  (∀ (p : Pred) (d a b : GReg) (tag : BitVec 4) (s : State) (c : CoreId) (rs : List Nat),
     let r := ready s
     let t := me s
     let queued (x : State) (sc : Scope) (body : Body) : State :=
       modCore (markMine x sc false) x.cur fun k => { k with outbound := k.outbound ++ [⟨t.uid, x.nextSeq, sc, body⟩] }
     let msg (st : Start) (size : Nat) : InMsg := ⟨st, t.bond, t.job, t.part, size, false, false⟩
     let regs : Vector W64 8 := Vector.ofFn fun i => getG r (gAt (d.val + i.val))
     let message : Start := .message (getG r b) regs (BitVec.ofNat 64 (s.cur % 128 * 65536 + s.cur / 128)) (tag.setWidth 64)
     let sender : Uses := { srcS := .g a :: .g b :: (List.range 8).map fun i => .g (gAt (d.val + i)) }
     let near := scopeBetween s.cur c
     let own := (jobOf s t.job).ownset
     predOn s p = true → outRoom (coreOf s s.cur) = true →
     (Operable r { srcS := [.g d, .g a, .g b] } → (getG s a).getLsbD 0 = false → targetOf r (getG r b) = .ok c →
       rangeOf (getG r d) = some rs → (∀ i ∈ rs, pendingG (me r) (gAt i) = false ∧ gPoisoned r (gAt i) = false) →
       let spawned := queued { r with nextUid := s.nextUid + 1 } near (.start c (msg
         (.spawn (getG r a) (rs.headD 0) (rs.map fun i => getG r (gAt i)) (t.fcsr &&& 0xFC07) t.orient t.tvec t.dhint
           t.super s.nextUid) (Nat.max 1 (ceilDiv (8 * rs.length) 64))))
       exec (.spawn p d a b) s = .next (advance (match t.bond with
         | some n => joinBarriers spawned n c s.nextUid | none => spawned) 4)) ∧
     (Operable r sender → (getG s b).getLsbD 0 = false →
       (targetOf r (getG r a) = .ok c →
         exec (.send p d a b tag) s = .next (advance (queued r near (.start c (msg message 1))) 4)) ∧
       (own.getLsbD 63 = true → ownerOf own (getG r a) = c → inBond r t.bond c = true →
         exec (.senda p d a b tag) s = .next (advance (queued r near (.start c (msg message 1))) 4))) ∧
     (Operable r { srcS := [.g a, .g b] } → targetOf r (getG r a) = .ok c →
       exec (.wake p a b) s = .next (advance (modCore r r.cur fun k => { k with
         outbound := k.outbound ++ [⟨t.uid, 0, .cr, .wake c (Fin.ofNat 8 ((getG r b).toNat % 8))⟩] }) 4))) ∧
  (∀ (p : Pred) (d a b : GReg) (dmask : BitVec 4) (s : State) (n : Nat) (x : Bond),
     let r := ready s
     let cs := bondCores x dmask
     let size := x.spc * cs.length
     let noted := modBond r n fun y =>
       { y with fanned := true, size := BitVec.ofNat 32 size, fanPc := getG r a, fanArg := getG r b, fanMask := dmask
                bar := { y.bar with phase := 0 }, courses := y.courses.map fun e => (e.1, { e.2 with phase := 0 }) }
     let made := (cs.zip (List.range cs.length)).foldl
       (fanEntryOf n x.spc (getG r a) (getG r b) (BitVec.ofNat 64 size) (getG r d)) (noted, [])
     let sent := (bondClusters x).foldl (fanCluster made.2) made.1
     let trap : Answer := .next (takeTrap (dropBlocks r) 4 0x08 0)
     predOn s p = true → Operable r { srcS := [.g d, .g a, .g b] } →
     ((me s).kind = .stub → (me s).bond = some n → mapFind s.bonds n = some x →
       (x.fanned = false → dmask &&& ~~~x.dmask = 0 → (getG r a).getLsbD 0 = false →
         exec (.fan p d a b dmask) s = .next (leaveSlot sent sent.cur sent.slot)) ∧
       (x.fanned = true → exec (.fan p d a b dmask) s = trap)) ∧
     ((me s).kind ≠ .stub → exec (.fan p d a b dmask) s = trap))

/-- R210, R211: END frees the slot; YIELD marks the strand; PRIO exchanges the class; SLEEP consumes a pending wake at
once with d = 0, ends at once with d = 1 when its deadline has passed, and otherwise waits with d unwritten. R197, R199,
R210: END of a strand that is no service strand leaves its slot FREE, with every register of the slot zero, and leaves
every other slot's registers as they were. -/
def Obligations.StrandControl : Prop :=
  (∀ (p : Pred) (d a : GReg) (s : State),
     let r := ready s
     let now : W64 := s.plumb[dieNum s.cur]?.getD 0
     let dl := getG r a
     let us : Uses := { srcS := [.g a], dstS := [.g d] }
     predOn s p = true →
     (drained r = true → exec (.endStrand p) s =
       .next (if (me s).kind = .service then dropService r r.cur r.slot else leaveSlot r r.cur r.slot)) ∧
     (exec (.yield p) s = .next (advance (modMe r fun t => { t with yieldPend := true }) 4)) ∧
     (Operable r us → exec (.prio p d a) s = .next (advance (modMe (setG r d (if (me s).sprio.getLsbD 0 then 1 else 0))
       fun t => { t with sprio := if dl.getLsbD 0 then 1 else 0 }) 4)) ∧
     (Operable r us → drained r = true →
       ((me s).wakePend = true → exec (.sleep p d a) s =
         .next (advance (modMe (setG r d 0) fun t => { t with wakePend := false }) 4)) ∧
       ((me s).wakePend = false → dl ≠ 0 → dl.toNat ≤ now.toNat →
         exec (.sleep p d a) s = .next (advance (setG r d 1) 4)) ∧
       ((me s).wakePend = false → (dl = 0 ∨ now.toNat < dl.toNat) →
         exec (.sleep p d a) s = .next (modMe r fun t => { t with wait := .sleep d dl })))) ∧
  (∀ (p : Pred) (s : State), predOn s p = true → drained (ready s) = true → (me s).kind ≠ .service →
     ∃ t, exec (.endStrand p) s = .next t ∧ strandAt t s.cur s.slot = Strand.free ∧
       ∀ c i, (c, i) ≠ (s.cur, s.slot) → (strandAt t c i).g = (strandAt s c i).g ∧
         (strandAt t c i).v = (strandAt s c i).v ∧ (strandAt t c i).m = (strandAt s c i).m)

/-! ## Gangs, engines and the record -/

/-- R240, R243, R263 to R265: GANG reads its descriptor, codebook and tick into the ticket slot it takes, with SEQ the
core's counter before it advances (log 48), the gang then claims its rectangle, and d names the ticket. GWAIT returns
the status of a final ticket and frees its slot; GSTAT reads a status; GTHAW asks a gang that is not final to thaw; a
ticket that is gone reads as STALE. R233, R266: MOVK reads one accumulator lane, a pair, or the enabled lanes of a
vector of eight; of a poisoned lane it raises cause 0x0D with TVAL 0 (R421; logs 24 and 25). MOVTK writes them, all
others unchanged; PPEEK reads how many entries a queue holds and how many a push would find free. -/
def Obligations.GangAndAccumulatorInstructions : Prop :=
  (∀ (p : Pred) (d a b c : GReg) (s t : State) (desc : W512) (i : Fin 4) (o : CoreId) (k : Fin 4),
     let r := ready s
     let srcs := (List.range 4).map fun j => SReg.g (gPlus b j)
     let us : Uses := { srcS := .g a :: .g c :: srcs, dstS := [.g d] }
     let ua : Uses := { srcS := [.g a], dstS := [.g d] }
     let seq := (coreOf t t.cur).gangSeq
     let ticket : Ticket := { Ticket.empty with
       busy := true, seq := seq, desc := desc, book := bookOf t b, tick := getG t c, state := .claiming, uid := (me t).uid,
       slot := t.slot, super := (me t).super, bond := (me t).bond.getD 0 }
     let held := (coreOf s o).tickets[k]
     let final : Prop := held.state ∈ [GangState.done, .preempted, .thawed, .fault, .refused]
     predOn s p = true →
     (Operable r us → (getG s a).toNat % 64 = 0 → isSliceAddr r.cur (getG s a) = true →
       loadBlock r (getG s a) = .ok (desc, t) → takeTicket (coreOf t t.cur) = some i →
       ((coreOf t t.cur).tickets[i]).unsent = none →
       exec (.gang p d a b c) s = .next (advance (setG
         (modCore (modTicket t t.cur i fun _ => ticket) t.cur fun x => { x with gangSeq := x.gangSeq + 1 }) d
         (ticketWord t.cur i ticket)) 4)) ∧
     (findTicket r (getG r a) = .ok (some (o, k)) →
       (Operable r ua → final → exec (.gwait p d a) s =
         .next (advance (setG (modTicket r o k fun x => { x with busy := false }) d (gangStatus held)) 4)) ∧
       (Operable r ua → held.state ∈ [GangState.claiming, .frozen] → exec (.gwait p d a) s =
         .next (modMe r fun x => { x with wait := .notReady })) ∧
       (Operable r ua → exec (.gstat p d a) s = .next (advance (setG r d (gangStatus held)) 4)) ∧
       (Operable r { srcS := [.g a] } → held.state ∈ [GangState.claiming, .frozen] →
         exec (.gthaw p a) s = .next (advance (modTicket r o k fun x => { x with thawReq := true }) 4))) ∧
     (findTicket r (getG r a) = .ok none →
       (Operable r ua → exec (.gwait p d a) s = .next (advance (setG r d 7) 4) ∧
         exec (.gstat p d a) s = .next (advance (setG r d 7) 4)) ∧
       (Operable r { srcS := [.g a] } → exec (.gthaw p a) s = .next (advance r 4)))) ∧
  (∀ (p : Pred) (x : SReg) (v : VReg) (d : GReg) (port : Port) (k : BitVec 8) (s : State),
     let r := ready s
     let c := coreOf r r.cur
     let n := k.toNat
     let K (i : Nat) : W32 := kAt c i
     let m := lanesOn (predMask s p) 8
     let on := enabledLanes m 8
     let l := linkOf (me s).orient port
     (predOn s p = true →
       (Operable r { dstS := [x] } →
         (kBad c n = false → exec (.movk p (.scalar x) k) s =
           .next (retired r (writeS r x ((K n).setWidth 64)) { dstS := [x] }) ∧
           exec (.movk p (.double x) k) s =
           .next (retired r (writeS r x ((K n).setWidth 64 ||| ((K (n + 1)).setWidth 64 <<< 32))) { dstS := [x] })) ∧
         (kBad c n = true → exec (.movk p (.scalar x) k) s = .next (takeTrap (dropBlocks r) 4 0x0D 0))) ∧
       (Operable r { srcS := [x] } →
         exec (.movtk p k (.scalar x)) s = .next (retired r
           (modCore r r.cur fun q => kPut q n ((readS r x).setWidth 32)) { srcS := [x] }) ∧
         exec (.movtk p k (.double x)) s = .next (retired r
           (modCore r r.cur fun q => kPutPair q n (readS r x)) { srcS := [x] })) ∧
       (Operable r { dstS := [.g d] } → linkStop r l = none → exec (.ppeek p d port) s = .next (advance
         (setG r d (BitVec.ofNat 64 ((inqOf c l).length + 256 * linkFree r r.cur l))) 4))) ∧
     (m ≠ 0 →
       (Operable r { dstV := [v] } → (∀ i ∈ on, kBad c (n + i) = false) →
         ∀ y : W256, (∀ i ∈ on, lane y 32 i = K (n + i)) →
         exec (.movk p (.vector v) k) s = .next (retired r (writeLanes r v 32 m y) { dstV := [v] })) ∧
       (Operable r { srcV := [v] } → exec (.movtk p k (.vector v)) s = .next (retired r
         (modCore r r.cur fun q => kPutLanes q (on.map fun i => (n + i, lane (readV r v) 32 i))) { srcV := [v] }))))

/-- R343, R344, R357, R358: CPGO, CPBLK and FTGO hand a command to the core's channel or footing queue, which takes the
next number of its timeline, and write that number to d; with 16 commands outstanding they are not ready. R366, R378 to
R381, R386 to R388: TOP of each tile operation, and REVERSE, hand a command to the bond's sequencer, which takes the
next number, and write it to d; TOP first records the operation while the strand records. The slots TOP reads, the
records REVERSE walks and the sequencer are those of the premises. -/
def Obligations.EngineAndTileCommandsAreQueued : Prop :=
  (∀ (p : Pred) (ch : Fin 2) (d a b : GReg) (s t : State) (words : W512),
     let r := ready s
     let cmd (x : State) (w : W512) (tick : W64) (n : Nat) : CopyCmd :=
       { n := n, words := w, tick := tick, uid := (me x).uid, core := x.cur, slot := x.slot, super := (me x).super,
         bond := (me x).bond, part := (me x).part, job := (me x).job, seq := x.nextSeq, phase := .sent, first := 0,
         landed := [], counted := [], skipped := [], held := [], pins := [], fetched := [], outcome := 0, message := none, packet := none }
     let handed (x : State) (w : W512) (tick : W64) : State :=
       let n := ((coreOf x x.cur).chans[ch]).tl.next
       let more (q : Channel) : Channel := ⟨{ q.tl with next := n + 1 }, q.cmds ++ [cmd x w tick n]⟩
       setG (modCore (issuedOne x) x.cur fun q => { q with chans := q.chans.set ch (more q.chans[ch]) }) d
         (BitVec.ofNat 64 n)
     let foot := (coreOf t t.cur).foot
     let order : FootCmd := { n := foot.tl.next, words := words, uid := (me t).uid, slot := t.slot, super := (me t).super,
                              bond := (me t).bond, part := (me t).part, job := (me t).job, seq := t.nextSeq, pages := none,
                              pieces := [], puts := [], outcome := 0, token := none }
     let more (q : FootQueue) : FootQueue := ⟨{ q.tl with next := foot.tl.next + 1 }, q.cmds ++ [order]⟩
     let regs : W512 := cpwWords (me s)
     predOn s p = true →
     (Operable r { dstS := [.g d] } →
       (((coreOf s s.cur).chans[ch]).cmds.length < 16 →
         exec (.cpgo p ch d) s = .next (advance (handed r regs (me s).cptick) 4)) ∧
       (16 ≤ ((coreOf s s.cur).chans[ch]).cmds.length →
         exec (.cpgo p ch d) s = .next (modMe r fun x => { x with wait := .notReady }))) ∧
     ((getG s a).toNat % 64 = 0 → loadBlock r (getG s a) = .ok (words, t) →
       (Operable r { srcS := [.g a, .g b], dstS := [.g d] } → ((coreOf t t.cur).chans[ch]).cmds.length < 16 →
         exec (.cpblk p ch d a b) s = .next (advance (handed t words (getG r b)) 4)) ∧
       (Operable r { srcS := [.g a], dstS := [.g d] } → foot.cmds.length < 16 →
         exec (.ftgo p d a) s = .next (advance (setG (modCore (issuedOne t) t.cur fun q => { q with foot := more q.foot }) d
           (BitVec.ofNat 64 foot.tl.next)) 4)))) ∧
  (∀ (p : Pred) (d a b : GReg) (s : State) (ds : List W512) (s1 s2 s3 : State) (e : Fin 4 × Fin 8)
     (stash : List (W64 × W64)) (l : List W64) (f : Option (W64 × Nat × W64)),
     let r := ready s
     let cmd (x : State) (op : SeqOp) (n : Nat) : SeqCmd :=
       { n := n, op := op, core := x.cur, uid := (me x).uid, slot := x.slot, super := (me x).super, seq := x.nextSeq,
         region := none, gang := none, todo := none, ran := false, flags := 0, outcome := 0, token := none }
     let unit (x : State) : Sequencer := x.dies[e.1].seqrs[e.2]
     let handed (x : State) (op : SeqOp) : State :=
       let q := unit x
       let q' : Sequencer := { q with tl := { q.tl with next := q.tl.next + 1 }, cmds := q.cmds ++ [cmd x op q.tl.next] }
       modDie (issuedOne x) e.1 fun y => { y with seqrs := y.seqrs.set e.2 q' }
     let top (op : Nat) (i : Instr) : Prop :=
       loadSlots r (getG s a) (topSlots op) = .ok (ds, s1) → takeSeqr s1 = .ok (e, s2) →
       (if (me s2).recording then recordTop s2 op (getG r b) ds (unit s2).tl.next
         else .ok (ds.map fun _ => (0, 0), s2)) = .ok (stash, s3) → (unit s3).cmds.length < 16 →
       exec i s = .next (advance (setG (handed s3 (.tile op (getG r b) ds stash)) d
         (BitVec.ofNat 64 (unit s3).tl.next)) 4)
     let room := ((me r).logtop.toNat - (me r).logbase.toNat) / 64 + 1
     let walk : Except Stop (List W64 × Option (W64 × Nat × W64) × State) :=
       if (me r).llen = 0 then .ok ([], none, r)
       else walkLog (me r).logbase ((getG r a).setWidth 32) room r
         ((me r).logtop - BitVec.ofNat 64 (64 * (me r).llen.toNat))
     predOn s p = true →
     (Operable r { srcS := [.g a, .g b], dstS := [.g d] } → (getG s a).toNat % 64 = 0 →
       top opTmm (.topTmm p d a b) ∧ top opTadd (.topTadd p d a b) ∧ top opTmul (.topTmul p d a b) ∧
       top opTscale (.topTscale p d a b) ∧ top opTact (.topTact p d a b) ∧ top opTsum (.topTsum p d a b) ∧
       top opTsoft (.topTsoft p d a b) ∧ top opTnorm (.topTnorm p d a b) ∧ top opTlay (.topTlay p d a b) ∧
       top opTcopy (.topTcopy p d a b)) ∧
     (Operable r { srcS := [.g a], dstS := [.g d] } → (me r).recording = false → (me r).rbusy = false →
       drained r = true → walk = .ok (l, f, s1) → takeSeqr s1 = .ok (e, s2) → (unit s2).cmds.length < 16 →
       exec (.reverse p d a) s = .next (advance (setG
         (modMe (handed s2 (.reverse l)) fun t => rewind t f) d (BitVec.ofNat 64 (unit s2).tl.next)) 4)))

/-- R387: RECON starts a record between two aligned addresses, or resumes with both 0; RECOFF stops recording; RECMARK
adds a mark record of 64 bytes with the strand's STKTOP while recording, and does nothing otherwise. -/
def Obligations.RecordingInstructions : Prop :=
  ∀ (p : Pred) (a b : GReg) (s t : State),
    let r := ready s
    let lo := getG r a
    let hi := getG r b
    let x := me r
    predOn s p = true →
    (Operable r { srcS := [.g a, .g b] } → x.rbusy = false →
      (lo = 0 → hi = 0 → exec (.recon p a b) s = .next (advance (modMe r fun t => { t with recording := true }) 4)) ∧
      (lo.toNat % 64 = 0 → hi.toNat % 64 = 0 → lo.toNat < hi.toNat → exec (.recon p a b) s =
        .next (advance (modMe r fun t => { t with logbase := lo, logtop := lo, loglim := hi, stktop := hi, llen := 0, recording := true }) 4))) ∧
    (exec (.recoff p) s = .next (advance (modMe r fun t => { t with recording := false }) 4)) ∧
    (Operable r { srcS := [.g a] } → x.rbusy = false →
      (x.recording = false → exec (.recmark p a) s = .next (advance r 4)) ∧
      (x.recording = true → x.logtop.toNat + 64 ≤ x.stktop.toNat →
        storeChunks r (blockChunks x.logtop [recordHeader 31 0 x.llen (lo.setWidth 32) x.stktop 0]) none true = .ok t →
        exec (.recmark p a) s = .next (advance
          (modMe t fun y => { y with logtop := y.logtop + 64, llen := 1 }) 4)))

/-! ## CSRs, traps and privilege -/

/-- R14, R132, R133: CSRR delivers the value of a readable CSR; CSRW, CSRS and CSRC give a read-write CSR the source,
its OR and its AND NOT with the old value, where that leaves no reserved value; CSRC clears bits of a clear-only CSR.
R204, R295, R314, R315, R317, R385, R411, R414, R469: the CSR writes with an effect of their own. HIRQ sends the MSI-X
vector of its job, with the mark of its release on the writes before it (log 101); NACTL sets E and zeroes the
accumulator on every die; NAL reads the merged accumulator and latches its high half for NAH of the same number; TLBINV
drops matching entries; CONTAIN's bits [11:8] follow its bits [7:4] (R204); FRACT of a keystone's supervisor strand
replies to the message of FRTOK. SMREL of a token that names no miss does nothing; of a pending miss whose widening
waits for nothing, it ends the miss, gives the tag of the missed word the needed scope, lets what waits for the word try
again and goes on; of any other it blocks the strand until the widening is done; SMAUTO counts at the widening (log 40).
-/
def Obligations.CsrInstructions : Prop :=
  (∀ (d a : SReg) (csr : BitVec 12) (mask : W64) (s : State),
     let r := ready s
     let n := csr.toNat
     let x := readS r a
     let old := csrRead r n
     let privilegeOk : Prop := csr.getLsbD 11 = true → (me s).super = true
     let put (t : State) : Answer := .next (retired r t { srcS := [a] })
     privilegeOk →
     (Operable r { dstS := [d] } → csrAllows n .read = true →
       exec (.csrr d csr) s = .next (retired r (writeS (csrLatch r n) d old) { dstS := [d] })) ∧
     (Operable r { srcS := [a] } → csrClass n = .rw →
       (csrValid n x = true → exec (.csrw csr a) s = put (csrPut r n x)) ∧
       (csrValid n (old ||| x) = true → exec (.csrs csr a) s = put (csrPut r n (old ||| x))) ∧
       (csrValid n (old &&& ~~~x) = true → exec (.csrc csr a) s = put (csrPut r n (old &&& ~~~x))) ∧
       (csrValid n x = false → exec (.csrw csr a) s = .next (takeTrap (dropBlocks r) 4 0x01 (instrWord (.csrw csr a))))) ∧
     (Operable r { srcS := [a] } → csrClass n = .clr mask → x &&& ~~~mask = 0 →
       exec (.csrc csr a) s = put (csrClear r n x))) ∧
  (∀ (v : W64) (n : Fin 16) (d : SReg) (va token : W64) (m : Miss) (s : State),
     let r := ready s
     let t := me s
     let asid := (jobOf s t.job).ptroot.toNat % 1024
     let merged := normMerged r n.val
     let marked := markMine r .sy false
     let fract (act : Act) : State := csrFinish (me r).uid (reply (match (me r).serving with
       | some m => if m.token = t.frtok then modMe r fun x => { x with serving := none } else r
       | none => r) (some t.part) t.frtok act)
     let ended : State := { r with misses := r.misses.filter fun x => x.token != token }
     let rescoped : State := match tagOf ended m.word with
       | some g => if g.id = m.tagId then rescopeTag (if m.auto then countMiss ended g.core 16 else ended) g m else ended
       | none => ended
     let widened := mapStrands (wakeWord rescoped m.word) fun _ x => passWiden token x
     (v.toNat < 8 → drained r = true → outstanding r r.cur (me r).uid r.nextSeq .sy false false = false →
       exec (.hirqWrite v) s = .next (advance { marked with
         dev := { marked.dev with msix := (1024 + 8 * t.job + v.toNat) :: marked.dev.msix } } 4)) ∧
     (v.toNat < 512 → exec (.nactlWrite n v) s = .next (advance (modPart r t.part fun p => { p with
       nactl := mapSet n.val (v &&& 0xFF) p.nactl
       norms := (List.range 4).foldl (fun m k => mapErase (16 * k + n.val) m) p.norms }) 4)) ∧
     (Operable r { dstS := [d] } → exec (.nalRead d n) s = .next (retired r (writeS
       (modMe r fun x => { x with nalHi := x.nalHi.set n (BitVec.ofInt 64 (merged / 2 ^ 64)) }) d (BitVec.ofInt 64 merged))
       { dstS := [d] })) ∧
     (t.super = true → translatedLeft r asid 1 = false →
       exec .tlbinvAll s = .next (advance (dropTlb r asid 1) 4)) ∧
     (t.super = true → translatedLeft r asid (va &&& 0x0000FFFFFFFF0000) = false →
       exec (.tlbinvVa va) s = .next (advance (dropTlb r asid (va &&& 0x0000FFFFFFFF0000)) 4)) ∧
     (v &&& ~~~(0xFF3 : W64) = 0 → exec (.containWrite v) s = .next (advance (modMe r fun x =>
       { x with contain := (v &&& 0xF3) ||| ((v &&& 0xF0) <<< 4) }) 4)) ∧
     ((∀ m ∈ s.misses, m.token ≠ token) → exec (.smrelWrite token) s = .next (advance r 4)) ∧
     (s.misses.find? (fun x => x.token == token) = some m →
       (widenReady r m = true → s.lazy = false →
         exec (.smrelWrite token) s = .next (csrFinish (me r).uid widened) ∧
         ∀ g, tagOf s m.word = some g → g.id = m.tagId → m.need ≠ .sy → parkedOn s m.word = [] →
           (∀ q ∈ m.readers, inScope m.need g.core q = true) →
           tagOf widened m.word = some { g with scope := m.need } ∧
           exec (.smrelWrite token) s = .next (advance widened 4)) ∧
       (widenReady r m = false ∨ s.lazy = true → exec (.smrelWrite token) s = .next (modMe
         { r with misses := r.misses.map fun x => if x.token = token then { x with asked := true } else x }
         fun x => { x with wait := .widen token }))) ∧
     (t.super = true → keystone (clusterIdx s.cur) = s.cur →
       exec .fractResume s = .next (fract .resume) ∧ exec .fractSkip s = .next (fract .skip) ∧
       exec .fractKill s = .next (fract .kill)))

/-- R12, R14: a read-write CSR, once a valid value is written, reads as that value, and the write changes no register of
the file, no mask, no PC and no byte of memory. TREGION is the bond's, so its strand belongs to one. -/
def Obligations.CsrWriteThenRead : Prop :=
  ∀ (n : Nat) (v : W64) (s : State),
    (n ∈ [0x000, 0x001, 0x010, 0x181, 0x200, 0x408, 0x508, 0x600, 0x800, 0x801, 0x802, 0xA09, 0xA10, 0xB00, 0xB80, 0xD80,
      0xD81, 0xD82, 0xD84] ∨ (0x400 ≤ n ∧ n ≤ 0x407) ∨ (n = 0x506 ∧ ∃ b x, (me s).bond = some b ∧ mapFind s.bonds b = some x)) →
    csrValid n v = true →
    let t := csrPut s n v
    csrRead t n = v ∧ (me t).g = (me s).g ∧ (me t).v = (me s).v ∧ (me t).m = (me s).m ∧ (me t).pc = (me s).pc ∧
      t.mem = s.mem

/-- R81, R13, R14, R27: a user strand that names a CSR with bit 11 set, or executes RETT, raises cause 0x02 with the
instruction's word in TVAL, whatever the operands hold; a user strand that names an unassigned CSR below 0x800 raises
cause 0x01. -/
def Obligations.PrivilegeTraps : Prop :=
  ∀ (p : Pred) (d : SReg) (csr : BitVec 12) (s : State), (me s).super = false →
    let trap (c : Byte) (i : Instr) : Answer := .next (takeTrap (ready s) 4 c (instrWord i))
    (csr.getLsbD 11 = true →
      exec (.csrr d csr) s = trap 0x02 (.csrr d csr) ∧ exec (.csrw csr d) s = trap 0x02 (.csrw csr d) ∧
      exec (.csrs csr d) s = trap 0x02 (.csrs csr d) ∧ exec (.csrc csr d) s = trap 0x02 (.csrc csr d)) ∧
    exec (.rett p) s = trap 0x02 (.rett p) ∧
    (csr.getLsbD 11 = false → csrClass csr.toNat = .unassigned →
      exec (.csrr d csr) s = trap 0x01 (.csrr d csr) ∧ exec (.csrw csr d) s = trap 0x01 (.csrw csr d) ∧
      exec (.csrs csr d) s = trap 0x01 (.csrs csr d) ∧ exec (.csrc csr d) s = trap 0x01 (.csrc csr d))

/-- R26, R408: entry of a local trap with cause c when TVEC.EN is 1 and TSTAT.INTRAP is 0: TEPC, TCAUSE, TVAL, TSTAT,
the privilege and the PC become what the rule says, and nothing else of the machine changes. Cause 0x0D always takes the
other path; a service strand, whose faults no strand handles (R413), is not spoken of here. R26, R410: without an
enabled vector, or inside a trap handler, a local trap posts a fault message with the cause, the PC and TVAL to the
mailbox of the strand's cluster and the strand, which is no service strand, waits for the reply that carries the
message's TOKEN; its registers and PC stay as they were. R27, R80, R81, R134, R135: RETT returns to TEPC with the
privilege of TSTAT.PP and INTRAP cleared, whatever INTRAP was; it raises cause 0x02 at user privilege and 0x03 to an odd
TEPC. TRAP, ECALL and EBREAK raise causes 0x20 + n, 0x0C and 0x0B; a word that is no instruction (R80) raises 0x01 with
the word in TVAL. That TRAP of a view leaves its element where it is follows from R11 in the model's reading (log 28).
-/
def Obligations.TrapsAndReturn : Prop :=
  (∀ (s : State) (len : Nat) (c : Byte) (v : W64), (me s).kind ≠ .service → c ≠ 0x0D →
     (me s).tvec.getLsbD 0 = true → (me s).tstat.getLsbD 1 = false →
     takeTrap s len c v = modMe s fun t => { t with
       tepc := if c = 0x0C then t.pc + BitVec.ofNat 64 len else t.pc
       tcause := c.setWidth 64
       tval := v
       tstat := if t.super then 3 else 2
       super := true
       pc := t.tvec / 4096 * 4096 + c.setWidth 64 * 64 }) ∧
  (∀ (s : State) (len : Nat) (c : Byte) (v : W64), (me s).kind ≠ .service →
     ((me s).tvec.getLsbD 0 = false ∨ (me s).tstat.getLsbD 1 = true ∨ c = 0x0D) →
     ∃ m : FaultMsg, m.kind = c ∧ m.source = .strand ∧ m.va = v ∧ m.pc = (me s).pc ∧ m.core = s.cur ∧ m.slot = s.slot ∧
       me (takeTrap s len c v) = { me s with wait := .reply m.token len none } ∧
       (takeTrap s len c v).asked = s.asked ++ [m] ∧ (takeTrap s len c v).mem = s.mem ∧
       ∃ k : Packet, (takeTrap s len c v).net = s.net ++ [k] ∧ k.body = .fault (clusterIdx s.cur) m) ∧
  (∀ (p : Pred) (a : SReg) (n : BitVec 5) (w : W64) (s : State),
     let r := ready s
     exec (.illegalInstruction w) s = .next (takeTrap r (if w.getLsbD 0 then 4 else 2) 0x01 w) ∧
     ((me s).super = false → exec (.rett p) s = .next (takeTrap r 4 0x02 (instrWord (.rett p)))) ∧
     (predOn s p = true →
       ((me s).super = true → (me s).tepc.getLsbD 0 = true →
         exec (.rett p) s = .next (takeTrap (dropBlocks r) 4 0x03 (me s).tepc)) ∧
       ((me s).super = true → (me s).tepc.getLsbD 0 = false → exec (.rett p) s = .next (modMe r fun t =>
         { t with pc := t.tepc, super := t.tstat.getLsbD 0, tstat := t.tstat &&& 0xFFFFFFFFFFFFFFFD })) ∧
       (Operable r { srcS := [a] } →
         exec (.trap p a n) s = .next (takeTrap (dropBlocks r) 4 (BitVec.ofNat 8 (0x20 + n.toNat)) (readS r a))) ∧
       exec (.ecall p) s = .next (takeTrap (dropBlocks r) 4 0x0C 0) ∧
       exec (.ebreak p) s = .next (takeTrap (dropBlocks r) 4 0x0B (me s).pc)))

/-! ## Steps of the part besides instructions -/

/-- R102, R130, R211, R281, R288, R297, R303, R306, R449, R470: a load's part whose turn it is, under no revoked lease,
is performed at its slice port or its stack, and then holds what the strand reads there; a load that a RESUME lets run
again is translated anew first (R297); an answered request whose views can take it pops what it read, and is written to
its destination; a strand goes on once its release is performed, a sleeping strand with d = 1 at its deadline, and
TUNTIL at its own. -/
def Obligations.RequestEvents : Prop :=
  ∀ (c : CoreId) (slot : Slot) (idx part : Nat) (p : Pending) (q : Part) (w : W64 × Bool) (sc : Scope) (uo red : Bool)
    (d : Fin 24) (a : W64) (l : List Part) (s u : State),
    let t := strandAt s c slot
    let there : State := { s with cur := c, slot := slot }
    t.occ = true →
    (t.inflight[idx]? = some p → p.parts[part]? = some q → p.again = true →
      recheckParts { there with lazy := false } p.parts = .ok (l, u) →
      exec (if isSlice q.loc then .slicePortRequest c slot idx part else .stackAccess c slot idx part) s =
        .next { modMe { u with lazy := s.lazy } (fun t => setPending t { p with parts := l, again := false }) with
          cur := s.cur, slot := s.slot }) ∧
    (t.inflight[idx]? = some p → p.parts[part]? = some q → q.got = none → p.rejected = false → p.again = false →
      p.kind = .load →
      partTurn s c t.uid p part q = true → epochRevoked s q.loc q.lease = false →
      strandWord s c t.uid p.seq (wordOf q.loc) q.key (partMask q) = some w →
      exec (if isSlice q.loc then .slicePortRequest c slot idx part else .stackAccess c slot idx part) s =
        .next (modStrand s c slot fun t =>
          setPending t { p with parts := p.parts.set part { q with got := some w }, park := 0 })) ∧
    (t.inflight[idx]? = some p → blockLoad p = false → p.rejected = false → answered p = true → poisonedPart p = none →
      firstOf there (answerViews there p) (viewStop · true) = none →
      (answerViews there p).all (viewReady there true) = true →
      exec (.loadResponse c slot idx) s = .next { answerStrand there p with cur := s.cur, slot := s.slot }) ∧
    ((coreOf s c).frozen = none → (coreOf s c).halted = false → t.arriving = [] → t.wait = .release sc uo red →
      outstanding s c t.uid s.nextSeq sc uo red = false →
      exec (.releaseComplete c slot) s = .next (modStrand s c slot fun t => { t with wait := .none })) ∧
    ((coreOf s c).halted = false → t.wait = .sleep d a → a ≠ 0 → a.toNat ≤ (plumbAt s c).toNat →
      exec (.sleepDeadline c slot) s =
        .next (modStrand s c slot fun t => { putG t d 1 with wait := .none, pc := t.pc + 4 })) ∧
    (t.wait = .tuntil a → a.toNat ≤ (plumbAt s c).toNat →
      exec (.tuntilDeadline c slot) s = .next (modStrand s c slot fun t => { t with wait := .none }))

/-- R302, R304, R327: an entry of a store queue whose turn it is leaves the queue and writes its bytes and its tag at
its home, or is rejected, kept and reported. R125, R352, R383, R436 to R438, R487: a return-free reduction or a write
with norm is performed at its target, a stack or a slice, as one read-modify-write, or combines into its die's shadow
unit, and its acknowledgement frees its record; shadow units merge when they are due, and the oldest when a reduction
would take its die beyond a limit, each with the units that its merge must follow (log 112); a reduction to a peer page
under a revoked epoch is rejected (R299). R315: a widening that was asked for takes effect. -/
def Obligations.StoreAndReductionEvents : Prop :=
  ∀ (c : CoreId) (idx token : Nat) (e : StoreEntry) (r : Reduction) (m : Miss) (die : Fin 4) (u : ShadowUnit)
    (us : List ShadowUnit) (s : State),
    let done (x : State) : State := modCore x c fun k => setRed k { r with performed := true }
    let word := wordOf r.loc
    let old := subWord (homeWord s word r.key).1 (r.loc % 8) (redBytes r.kind)
    let written : State := match r.kind, r.release with
      | .norm n lanes, _ => normWrite s (partOfCore s c) (dieNum c) n.val word r.key lanes r.val
      | k, none => putBytes s r.loc r.key (redBytes k) (redVal k old r.val)
      | k, some sc => wakeWord (setTag (putBytes s r.loc r.key (redBytes k) (redVal k old r.val)) word
          (some (releaseTag s c r.slot r.uid r.seq word sc))) word
    let shadows := s.dies[dieOf c].shadows
    let mark : Contribution := ⟨c, r.slot, r.uid, r.seq, r.va, r.release, bondOfUid s c r.uid, r.lease, r.order⟩
    let home := homeWord s (wordOf u.loc) u.key
    let merged : State := (mergeGroup s die u).foldl (fun s e => mergeShadow s e.1 e.2) s
    let alone : Prop := mergeGroup s die u = [(die, u)] → home.2 = false → unitRevoked s u = false → u.poison = false →
      merged = modDie (putBytes s u.loc u.key (redBytes u.kind)
        (redVal u.kind (subWord home.1 (u.loc % 8) (redBytes u.kind)) u.val)) die fun d =>
          { d with shadows := d.shadows.filter fun x => ¬ (x.loc = u.loc ∧ x.kind = u.kind) }
    alone ∧
    ((coreOf s c).stores[idx]? = some e → storeTurn s c idx e = true →
      (storeRejected s e = false →
        let gone := modCore s c fun k => { k with stores := dropStores (fun x => x.seq == e.seq && x.word == e.word) k.stores }
        let put := putWord gone e.word e.key e.mask e.val
        exec (.storePerform c idx) s =
          .next (wakeWord (setTag (if e.poison then poisonWord put e.word else put) e.word e.tag) e.word)) ∧
      (storeRejected s e = true → exec (.faultAcknowledgement c idx) s = .next (rejectStore s c e))) ∧
    ((coreOf s c).reds[idx]? = some r →
      (r.performed = true → exec (.reductionAck c idx) s = .next (modCore s c fun k =>
        { k with reds := k.reds.filter fun x => ¬ (x.seq = r.seq ∧ x.loc = r.loc) })) ∧
      (r.performed = false → r.rp = false → redReady s c r = true → r.poison = false →
        s.poison.contains (word / 8) = false → epochRevoked s r.loc r.lease = false →
        (isSlice r.loc = false → exec (.footingAtomic c idx) s = .next (done written)) ∧
        (isSlice r.loc = true → ∀ x, (coreOf (done written) c).reds[idx]? = some x → x.performed = true →
          exec (.reductionAck c idx) s = .next (ackRed (done written) c x))) ∧
      (r.performed = false → r.rp = true → r.token = none → epochRevoked s r.loc r.lease = true →
        exec (.shadowCombine c idx) s = .next (rejectRed s c r)) ∧
      (r.performed = false → r.rp = true → r.token = none → epochRevoked s r.loc r.lease = false →
        (∀ sc, r.release = some sc → outstanding s c r.uid r.seq sc false false = false) →
        beyondLimit s.dies[dieOf c] r.uid r.loc r.kind = false →
        ((∀ x ∈ shadows, overlaps x.loc (redBytes x.kind) r.loc (redBytes r.kind) = false) →
          exec (.shadowCombine c idx) s = .next (done (modDie s (dieOf c) fun d => { d with
            shadows := d.shadows ++ [⟨r.loc, r.key, r.kind, r.val, r.poison, [mark], partOfCore s c⟩] }))) ∧
        (otherUnits s.dies[dieOf c] r = [] → (∃ x ∈ shadows, x.loc = r.loc ∧ x.kind = r.kind) →
          exec (.shadowCombine c idx) s = .next (done (modDie s (dieOf c) fun d => { d with
            shadows := d.shadows.map fun x => if x.loc = r.loc ∧ x.kind = r.kind then { x with
              val := redVal x.kind x.val r.val, poison := x.poison || r.poison, contribs := x.contribs ++ [mark] }
              else x }))))) ∧
    (s.dies[die].shadows[idx]? = some u → mergeDue s u = true → shadowFree s die u = true →
      exec (.shadowMerge die idx) s = .next merged) ∧
    (s.dies[die].shadows = u :: us → capacityDue s die = true → shadowFree s die u = true →
      exec (.shadowCapacityMerge die) s = .next merged) ∧
    (s.misses.find? (fun x => x.token.toNat == token) = some m → m.asked = true → widenReady s m = true →
      exec (.tagWiden token) s = .next (widenTag s m))

/-- R293, R298, R299: a walk that finds a leaf of local memory, or of a peer page on which a lease has been granted,
fills the TLBs and lets its strand go on; one whose entry lies in a line that a footing unit holds waits (R288); one
that stops, or whose lease was refused, posts a message; a grant is held as a lease from the bytes it names; a recall
takes the lease's entries out of every TLB at once, and the lease goes when no access under it is on its way, and serves
no new access until then. R459, R470 to R472: a peer's access under a lease that this device has granted it, and the
host's, reach local memory as writes of whole words, or as reads that change nothing, unless the home withholds the
word, where a read waits, or a footing unit holds its line, where both come later (R288); they use the first key of the
partition, and the key of the line's last write (log 94); an arriving frame counts once and shows the path up, and after
seven retransmissions the peer is unreachable; a finished NVMe Write whose words may land (R349) lands the words of its
block, a finished Read marks its block as read, and a media error poisons the words that the block holds or feeds (log
59). -/
def Obligations.TranslationAndOutsideEvents : Prop :=
  (∀ (c : CoreId) (slot : Slot) (va x : W64) (fetch wr rd granted : Bool) (size level node page : Nat) (reason : BitVec 4)
     (lvl : BitVec 2) (epoch : W32) (l : Lease) (s : State),
     let t := strandAt s c slot
     let asid := bits (jobOf s t.job).ptroot 9 0
     let msg : FaultMsg := { faultMsg 0x10 (if fetch then .fetch else .strand) c slot va t.pc t.uid with
       reason := reason, level := lvl, entry := x, wr := wr }
     let post (m : FaultMsg) : State := postAndWait s c slot (if fetch then 0 else 4) none m
     let filled (lease : Option Lease) : State :=
       modStrand (tlbFill s c fetch false (leafEntry asid t.part va.toNat x size lease)) c slot fun t =>
         { t with wait := .none }
     let at_ := leaseAt s (pteNode x) (bits x 39 12 * 4096 + va.toNat % size)
     (t.occ = true → t.wait = .walk va fetch wr →
       (walkJob s t.job va.toNat = .leaf x size level →
         (needsLease x = false → exec (.pageWalk c slot) s = .next (filled none)) ∧
         (needsLease x = true → at_ = some l →
           (l.refused = false → exec (.pageWalk c slot) s = .next (filled (some l))) ∧
           (l.refused = true → reason = 3 → lvl = BitVec.ofNat 2 level →
             exec (.pageWalk c slot) s = .next (post msg)))) ∧
       (walkJob s t.job va.toNat = .stop reason lvl x → exec (.pageWalk c slot) s = .next (post msg)) ∧
       (walkJob s t.job va.toNat = .held → exec (.pageWalk c slot) s = .next s)) ∧
     (0 < node → node < 0xFE → s.revoked.contains (node, epoch) = false →
       (∀ y ∈ s.leases, leaseCovers y node (page * 4096) (Nat.max size 4096) = true → y.recalled = false) →
       let others := s.leases.filter fun y => !leaseCovers y node (page * 4096) (Nat.max size 4096)
       exec (.leaseGrant node page granted size rd wr epoch) s =
         .next { s with leases := others ++ [⟨node, page, size, rd, wr, epoch, !granted, false⟩] }) ∧
     (s.leases.find? (fun y => y.node == node && y.page == page) = some l →
       ∃ u, exec (.leaseRecall node page) s = .next u ∧ u.mem = s.mem ∧
         (∀ k, ∀ y ∈ (coreOf u k).itlb ++ (coreOf u k).dtlb, ∀ z, y.lease = some z → ¬ (z.node = node ∧ z.page = page)) ∧
         (leaseBusy (dropLeased s node page) l = false → u.leases = s.leases.filter fun y => y != l) ∧
         (leaseBusy (dropLeased s node page) l = true →
           u.leases = s.leases.map fun y => if y = l then { y with recalled := true } else y))) ∧
  (∀ (part node off pa seq idx base size : Nat) (v : W64) (epoch : W32) (op : FlashOp) (m : CopyCmd) (s : State),
     let p := partOf s part
     let x := mapGet ⟨0, 0, false⟩ s.paths node
     let key := mapGet 0 s.keyInst (p.keys.headD 1024)
     let s' : State := { s with flash := s.flash.eraseIdx idx }
     (p.window = some (base, size) → off % 8 = 0 → base % 8 = 0 → off + 8 ≤ size → paValid (base + off) = true →
       0 < node → node < 0xFE → node ≠ s.dev.node.toNat → nodeDown s node = false →
       (exported s part ⟨node, epoch⟩ off true = true → footHeld s (base + off) = false →
         exec (.peerAccess part ⟨node, epoch⟩ off (some v)) s = .next (homeWrite s (base + off) key 0xFF v none)) ∧
       (footHeld s (base + off) = true → exec (.peerAccess part ⟨node, epoch⟩ off (some v)) s = .next s ∧
         exec (.peerAccess part ⟨node, epoch⟩ off none) s = .next s) ∧
       (exported s part ⟨node, epoch⟩ off false = true →
         (readable s .outside (base + off) = true → exec (.peerAccess part ⟨node, epoch⟩ off none) s = .next s) ∧
         (tagReadable s .outside (base + off) = false → footHeld s (base + off) = false →
           exec (.peerAccess part ⟨node, epoch⟩ off none) s = .next (parkMiss s .outside (base + off))))) ∧
     (paValid pa = true → pa % 8 = 0 →
       (footHeld s pa = true → exec (.hostMemoryAccess pa (some v)) s = .next s ∧
         exec (.hostMemoryAccess pa none) s = .next s) ∧
       (footHeld s pa = false →
         exec (.hostMemoryAccess pa (some v)) s = .next (homeWrite s pa (hostKey s pa) 0xFF v none) ∧
         (tagReadable s .outside pa = true → exec (.hostMemoryAccess pa none) s = .next s) ∧
         (tagReadable s .outside pa = false → exec (.hostMemoryAccess pa none) s = .next (parkMiss s .outside pa)))) ∧
     (0 < node → node < 0xFE →
       exec (.ustisFrame node seq) s =
         .next { s with paths := mapSet node ⟨if seq = x.rx then x.rx + 1 else x.rx, 0, false⟩ s.paths } ∧
       (x.retries < 7 → exec (.ustisRetransmitTimeout node) s =
         .next { s with paths := mapSet node { x with retries := x.retries + 1 } s.paths }) ∧
       (7 ≤ x.retries → exec (.ustisRetransmitTimeout node) s =
         .next { s with paths := mapSet node { x with down := true } s.paths })) ∧
     (s.flash[idx]? = some op → findCopy s' op.core op.ch op.n = some m → m.phase = .running →
       (op.write = true →
         let ws := targetWords s' op.ch m op.block
         (∀ w ∈ ws, copyTurn s' op.core op.ch m w (cdPosition m.words w) = true) →
         exec (.nvmeCompletion idx false) s = .next (ws.foldl (landNow op.core op.ch op.n) s') ∧
         exec (.nvmeCompletion idx true) s = .next (ws.foldl (failWord op.core op.ch op.n) s')) ∧
       (op.write = false →
         exec (.nvmeCompletion idx false) s = .next (modCopy s' op.core op.ch op.n fun y => { y with
           fetched := setAdd op.block y.fetched }) ∧
         ((∀ w ∈ fedWords s' op.ch m op.block, copyTurn s' op.core op.ch m w (cdPosition m.words w) = true) →
           exec (.nvmeCompletion idx true) s =
             .next ((fedWords s' op.ch m op.block).foldl (failWord op.core op.ch op.n) s')))))

/-- R200, R209, R211, R212, R217, R316: a packet that its core's inbound queue has room for joins it, a scope-miss
message of a core with SMVEC.EN = 0 too, and one that finds less is marked refused until the network interface sends it
again, while its sender's place is free (log 44); a keystone core passes FAN's start message on to the cores of its
cluster; a wake ends the sleep of its strand or stays pending, and is dropped at a free slot. R209, R215: a request
leaves the outbound buffer once what its strand issued before it is performed. R24, R200, R217, R316: the head of the
inbound queue starts a strand in the lowest free slot, or asks for the widening of a miss without one; a timed FAN start
begins on its tick. R420: a flit that fails its check is sent again, and after sixteen replays its packet is poisoned
and counted at its receiver (log 72). -/
def Obligations.ArrivalAndMessageEvents : Prop :=
  (∀ (idx : Nat) (p : Packet) (d : CoreId) (m : InMsg) (i : Slot) (token : W64) (x : Miss) (g : Tag) (r : Fin 24)
     (a : W64) (l : List (CoreId × InMsg)) (s : State),
     let gone : State := { s with net := s.net.eraseIdx idx }
     let joins (y : InMsg) : State :=
       modCore gone d fun k => { k with inbound := k.inbound ++ [{ y with poison := y.poison || p.poison }] }
     let refused : State := { s with net := s.net.set idx { p with refused := true } }
     let fits (y : InMsg) : Prop := inboundUsed (coreOf s d) + y.size ≤ 16
     s.net[idx]? = some p →
     (exec (.networkRetry idx) s = .next { s with net := s.net.set idx { p with refused := false } }) ∧
     (packetWaits s idx p = false → (coreOf s d).halted = false →
       (p.refused = false → p.queue = none →
         (∀ ev : Instr, (ev, p.body) ∈ [(Instr.fanStartMessage idx, Body.fanStart d m),
             (.completionMessage idx, .completion d m), (.gangWakeMessage idx, .gangWake d m)] ∨
             (ev = .message idx ∧ p.body = .start d m ∧ ∃ pc gs g8 g9, m.start = .message pc gs g8 g9) ∨
             (ev = .spawnRequest idx ∧ p.body = .start d m ∧
               ∃ pc f gs fc o tv dh su uid, m.start = .spawn pc f gs fc o tv dh su uid) →
           (fits m → exec ev s = .next (joins m)) ∧ (¬ fits m → exec ev s = .next refused)) ∧
         (p.body = .scopeMiss d token → missOf s token = some (x, g) →
           let y := missMessage s d x g
           let auto : InMsg := { y with start := .widen token }
           (bit (coreOf s d).smvec 0 = true →
             (fits y → exec (.scopeMissMessage idx) s = .next (joins y)) ∧
             (¬ fits y → exec (.scopeMissMessage idx) s = .next refused)) ∧
           (bit (coreOf s d).smvec 0 = false →
             (fits y → exec (.scopeMissAutoWiden idx) s = .next (joins auto)) ∧
             (¬ fits y → exec (.scopeMissAutoWiden idx) s = .next refused)))) ∧
       (p.body = .fanKeystone d l → exec (.fanStartMessage idx) s = .next { gone with net := gone.net ++ l.map fun e =>
         { p with body := .fanStart e.1 { e.2 with poison := e.2.poison || p.poison }, replays := 0, poison := false } }) ∧
       (p.body = .wake d i →
         ((strandAt s d i).occ = false → exec (.wakeDelivery idx) s = .next gone) ∧
         ((strandAt s d i).occ = true → (strandAt s d i).wait = .sleep r a → exec (.wakeDelivery idx) s =
           .next (modStrand gone d i fun t => { putG t r 0 with wait := .none, pc := t.pc + 4 })) ∧
         ((strandAt s d i).occ = true → (∀ r a, (strandAt s d i).wait ≠ .sleep r a) → exec (.wakeDelivery idx) s =
           .next (modStrand gone d i fun t => { t with wakePend := true }))))) ∧
  (∀ (c : CoreId) (idx : Nat) (o : OutMsg) (m : InMsg) (rest : List InMsg) (i : Slot) (p : Packet) (pc g8 g9 : W64)
     (regs : Vector W64 8) (first n : Nat) (vals : List W64) (fc ori tv dh arg from_ size tick : W64) (su : Bool)
     (uid : Nat) (uids : List Nat) (token : W64) (s : State),
     let headed (x : State) : State := modCore x c fun k => { k with inbound := rest }
     ((coreOf s c).halted = false → (coreOf s c).outbound[idx]? = some o →
       overtakes ((coreOf s c).outbound.take idx) o = false → outstanding s c o.uid o.seq o.scope false false = false →
       let left := modCore s c fun k => { k with outbound := k.outbound.eraseIdx idx }
       exec (.outboundSend c idx) s =
         .next { left with net := left.net ++ [⟨c, o.uid, o.body, 0, false, false, none⟩] }) ∧
     ((coreOf s c).inbound = m :: rest → (coreOf s c).frozen = none → (coreOf s c).halted = false →
       m.start = .widen token →
       exec (.slotActivation c) s = .next { headed s with
         misses := s.misses.map fun y => if y.token = token then { y with asked := true, auto := true } else y }) ∧
     ((coreOf s c).inbound = m :: rest → freeSlot (coreOf s c) = some i → (coreOf s c).frozen = none →
       (coreOf s c).halted = false →
       (m.start = .message pc regs g8 g9 → m.scopeMiss = false →
         let x := headed { s with nextUid := s.nextUid + 1 }
         exec (.slotActivation c) s = .next (putStrand x c i (startMessage x m s.nextUid pc regs g8 g9))) ∧
       (m.start = .spawn pc first vals fc ori tv dh su uid →
         exec (.slotActivation c) s =
           .next (putStrand (headed s) c i (startSpawned s m uid pc first vals fc ori tv dh su))) ∧
       (m.start = .fan pc arg from_ size tick n uids →
         (tick = 0 → exec (.slotActivation c) s = .next (activate s c i m rest false)) ∧
         (tick ≠ 0 → tick.toNat < (plumbAt s c).toNat →
           exec (.slotActivation c) s = .next (activate s c i m rest true)) ∧
         (tick ≠ 0 → (plumbAt s c).toNat < tick.toNat → exec (.slotActivation c) s = .next s) ∧
         (tick ≠ 0 → tick = plumbAt s c →
           exec (.fanTimedStart c) s = .next (fanOnTick c 7 (activate s c i m rest false))))) ∧
     (s.net[idx]? = some p → p.poison = false →
       (p.replays < 16 →
         exec (.linkReplay idx) s = .next { s with net := s.net.set idx { p with replays := p.replays + 1 } }) ∧
       (16 ≤ p.replays → exec (.linkReplay idx) s =
         .next (countPoisoned { s with net := s.net.set idx { p with poison := true } } (packetCore p.body)))))

/-- R175 to R178, R185 to R187, R441, R442: a read engine puts the next element, its fault, or zero bytes where SKIP
passed over it, into its buffer; a write engine performs its oldest element, in any state of the stream (R189), or posts
a message; a bound stream passes a group to its link, posts a message for an element that faults, or takes an entry from
its link; a seam buffer passes its oldest entry on; a write or push over a seam opens its context or uses it (logs 55,
110), and an idle context closes after 4,096 ticks. -/
def Obligations.StreamEvents : Prop :=
  ∀ (c k : CoreId) (n : StreamId) (l : Port) (idx off len : Nat) (v : W256) (f : ElemFault) (e last : Elem) (t : List Elem)
    (ref : Ref) (en : PortEntry) (es : List PortEntry) (x : SeamCtx) (s u : State),
    let core := coreOf s c
    let st := core.streams[n]
    let r := nextOf s c st st.ahead
    let fetched (y : State) (z : Elem) : State :=
      modStream y c n fun st => { st with skips := r.1, ahead := r.2 + 1, buf := st.buf ++ [z] }
    let read := readElem s c n (streamWho s c st) (sdPres st.desc) (sdAddr st.desc r.2) (elemChunks (sdSize st.desc))
    let checked := checkElem s c (streamWho s c st) (sdAddr st.desc e.idx) (elemChunks (sdSize st.desc))
    (mayFetch s c n st = true → r.2 < sdTotal st.desc →
      (st.zeros.contains r.2 = true → exec (.streamReadFetch c n) s = .next (fetched s ⟨r.2, true, 0, none⟩)) ∧
      (st.zeros.contains r.2 = false →
        (read = (.data v, u) → exec (.streamReadFetch c n) s = .next (fetched u ⟨r.2, true, v, none⟩)) ∧
        (read = (.fault f, u) → exec (.streamReadFetch c n) s = .next (fetched u ⟨r.2, true, 0, some f⟩)))) ∧
    (sdWrite st.desc = true → st.token = none → st.buf = e :: t → (st.bound = none ∨ core.frozen = none ∨ e.first = false) →
      (checked = .ok ([(off, len, ref)], u) → e.fault = none → sdPres st.desc = false →
        exec (.streamWritePerform c n) s = .next (wakeWord (setTag (putBytes
          (crossSeams (modStream u c n fun st => { st with buf := t }) c ref.loc (.stream c n)) ref.loc ref.key len
          ((e.data >>> (8 * off)).setWidth 64)) (wordOf ref.loc) none) (wordOf ref.loc))) ∧
      (checked = .error (some f) →
        exec (.streamWritePerform c n) s =
          .next (streamPost s c n e.idx (streamMsg c n st .writeStream e.idx f)))) ∧
    (st.bound = some l → st.mode = .active → st.token = none → core.frozen = none →
      (sdWrite st.desc = false → popReady s c st (sdGroup st.desc) = true → popFault st (sdGroup st.desc) = none →
        (st.buf.take (sdGroup st.desc)).getLast? = some last → linkFree s c l ≠ 0 →
        let nx := nextPlace s.mem c st.desc (2 * sdTotal st.desc + 2) st.skips (last.idx + 1)
        exec (.boundStreamPush c n) s = .next (modStream (pushLink
          (if crossesSeam c l then useCtx s c l (.stream c n) else s) c l
          ⟨popBytes st (st.buf.take (sdGroup st.desc)) 0, tagBits core, false, some (c, n, nx.2), none⟩) c n
          fun st => { st with buf := st.buf.drop (sdGroup st.desc), skips := nx.1 })) ∧
      (sdWrite st.desc = false → popReady s c st (sdGroup st.desc) = true → popFault st (sdGroup st.desc) = some e →
        e.fault = some f →
        exec (.boundStreamPush c n) s = .next (streamPost s c n e.idx (streamMsg c n st .readStream e.idx f))) ∧
      (sdWrite st.desc = true → inqOf core l = en :: es → (pushPlaces s c st true).1 ≠ [] → pushRoom st true = true →
        let ps := pushPlaces s c st true
        exec (.boundStreamPop c n) s = .next (modStream (popLink s c l) c n fun st =>
          let y := setPlace st ps.2.1 ps.2.2
          { y with buf := y.buf ++ cutElems y en.data (if en.poison then some .poison else none) ps.1 0 }))) ∧
    (seamOf core l = en :: es → neighbour c l = some k → (inqOf (coreOf s k) (opposite l)).length < 4 →
      exec (.seamBufferForward c l) s = .next (modCore (modCore s c fun y => setSeam y l es) k fun y =>
        setInq y (opposite l) (inqOf y (opposite l) ++ [en]))) ∧
    (core.ctxs[portFin l][idx]? = some x → x.last + 4096 ≤ s.ticks →
      exec (.seamContextTimeout c l idx) s = .next (modCore s c fun y =>
        { y with ctxs := y.ctxs.set (portFin l) (y.ctxs[portFin l].eraseIdx idx) }))

/-- R241 to R259, R262, R264, R450: a gang whose claim every core accepts freezes, its cells at PSTART with their zero
points; a timed gang starts on its tick; a weight entry is passed on or kept. An RS, WS or solver cell with its inputs
and room on both sides pops them, computes, passes them on with their tags (log 49) and counts its pulse; block scales
follow a pulse at a boundary; poison, a bad scale and an activation of another shape fault the gang at that pulse, and
it thaws as FAULT, with the walk of R419 for poison. A complete gang drains and thaws as DONE; a thaw request fixes the
pulse at which a gang stops. A thaw writes the ticket, merges the flags, frees the cores, empties their operand queues
and holds the wake message (logs 50, 51). -/
def Obligations.GangEvents : Prop :=
  ∀ (c k : CoreId) (i : Fin 4) (p q : PairShape) (x : CellAt) (fb fa : GFmt) (e a b : PortEntry) (n u v : Nat)
    (cause : Byte) (sa sb sc : Nat × Bool) (s scaled done : State),
    let t := (coreOf s c).tickets[i]
    let d := t.desc
    let cs := (gangCores d).filterMap id
    let claimed := claimCores s c i d cs
    let now : W64 := match cellCore d 0 0 with | some o => plumbAt claimed o | none => 0
    let tick := ((coreOf claimed c).tickets[i]).tick
    let thawed (y : State) (st : GangState) (n : Nat) (why : Byte) (gu gv : Nat) : State :=
      let g := (coreOf y c).tickets[i]
      let fin : Ticket := { g with
        state := st, pulse := BitVec.ofNat 32 n, cause := why, cx := BitVec.ofNat 6 gu, cy := BitVec.ofNat 6 gv
        zpiv := gangZpiv g, token := none, cells := [] }
      let live := strandAt y c g.slot
      let flagged := if live.occ = true ∧ live.uid = g.uid then addFlags y c g.slot (gangFlags g)
        else raiseFlags y c (gangFlags g)
      let freed : State := { flagged with cores := flagged.cores.map fun e => (e.1, { e.2 with
        frozen := if e.2.frozen = some (.gang c i) then none else e.2.frozen
        claimed := if e.2.claimed = some (c, i) then none else e.2.claimed }) }
      modTicket (clearEdges freed g.desc) c i fun _ => { fin with unsent := gangWakeOut y c i fin }
    let fault (y : State) (why : Byte) : State :=
      modTicket y x.owner x.slot fun g => { g with faulted := g.faulted.or (some (why, x.u, x.v, x.cell.pulse)) }
    let pulsed (y : State) (lanes : List (Nat × W32)) (fl : Flags) (zp : Bool) : State :=
      modCell (modCore y k fun z => kPutLanes z lanes) x k fun z =>
        { z with pulse := z.pulse + 1, flags := z.flags ||| fl, zpiv := zp }
    let la := linkA x.d
    let lb := linkB x.d
    let right := decide (x.u + 1 < gdW x.d)
    let down := decide (x.v + 1 < gdH x.d)
    let bad := (cellLanes x.d x.p).any (kBad (coreOf s k))
    (t.busy = true → t.state = .claiming → claimReason s c t = none → gdValid d = some p →
      ((coreOf claimed c).tickets[i]).state = .claiming → (∀ o ∈ cs, (coreOf claimed o).claimed = some (c, i)) →
      (∀ o ∈ cs, ∃ z, readZp claimed o d p = .ok z) →
      exec (.gangClaim c i none) s = .next (modTicket (freezeCells claimed c i d p cs) c i fun y => { y with
        state := .frozen, started := decide (tick.toNat ≤ now.toNat)
        late := tick != 0 && decide (tick.toNat < now.toNat) })) ∧
    (t.busy = true → t.state = .frozen → cellCore d 0 0 = some k → t.tick.toNat ≤ (plumbAt s k).toNat →
      exec (.gangTimedStart c i) s = .next (modTicket s c i fun y => { y with started := true })) ∧
    (cellAt s k = some x →
      (gdBfmt x.d = some fb → linkHead s k lb = some e → latchDone x = false → x.t.stop = none →
        (e.poison = true → exec (.wsLatchEntry k) s = .next (fault s 0x0D)) ∧
        (e.poison = false → x.cell.latched < latchAhead x fb → linkFree s k (opposite lb) ≠ 0 →
          exec (.wsLatchEntry k) s = .next (modCell (pushLink (popLink s k lb) k (opposite lb)
            { e with src := none }) x k fun y => { y with latched := y.latched + 1 })) ∧
        (e.poison = false → latchAhead x fb ≤ x.cell.latched →
          exec (.wsLatchEntry k) s = .next (modCell (modCore (popLink s k lb) k fun y => kPutLanes y
            ((List.range 8).map fun j => (128 + 8 * (x.cell.latched - latchAhead x fb) + j, lane e.data 32 j)))
            x k fun y => { y with latched := y.latched + 1 }))) ∧
      (mayPulse s k x = true → gdMode x.d = .rs → gdBfmt x.d = some fb → gdAfmt x.d = some fa →
        linkHead s k la = some a → linkHead s k lb = some b → roomFor s k right (opposite la) = true →
        roomFor s k down (opposite lb) = true →
        let r := pulseRs (coreOf s k) x.d x.p fa fb x.t.book x.cell.zp a.data.toNat b.data.toNat
        let s1 := popLink (popLink s k la) k lb
        let s2 := forward s1 k right (opposite la) (lowData a (x.p.rm * gfmtBits fa)) a.tag
        let s3 := forward s2 k down (opposite lb) (lowData b (x.p.cn * gfmtBits fb)) b.tag
        let s4 := pulsed s3 r.1 r.2 false
        let scale := boundary (coreOf s4 k) x.p sa.1 sb.1
        let fits := (List.range x.p.rm).all (fun j => scaleOk (word32 sa.1 j)) &&
          (List.range x.p.cn).all fun j => scaleOk (word32 sb.1 j)
        (boundaryScales s x k = .error n → exec (.gangPulse k) s = .next (parkMiss s (.core k) n)) ∧
        ((a.poison = true ∨ b.poison = true ∨ bad = true) → (∃ z, boundaryScales s x k = .ok z) →
          exec (.gangPulse k) s = .next (fault s 0x0D)) ∧
        (a.poison = false → b.poison = false → bad = false →
          (boundaryScales s x k = .ok none → exec (.gangPulse k) s = .next s4) ∧
          (boundaryScales s x k = .ok (some (sa, sb)) →
            ((sa.2 = true ∨ sb.2 = true) → exec (.gangPulse k) s = .next (fault s4 0x0D)) ∧
            (sa.2 = false → sb.2 = false → fits = false → exec (.gangPulse k) s = .next (fault s4 0x09)) ∧
            (sa.2 = false → sb.2 = false → fits = true →
              exec (.gangPulse k) s = .next (modCell (modCore s4 k fun y => kPutLanes y scale.1) x k fun y =>
                { y with flags := y.flags ||| scale.2 }))))) ∧
      (mayPulse s k x = true → gdMode x.d = .ws → gdBfmt x.d = some fb → linkHead s k la = some a →
        roomFor s k right (opposite la) = true → linkFree s k (opposite lb) ≠ 0 →
        let entry := x.v == 0 && !gdPin x.d
        let sums : Option PortEntry := if entry then none else some b
        (entry = true ∨ linkHead s k lb = some b) →
        (wsScales s x k = .error n → exec (.gangPulse k) s = .next (parkMiss s (.core k) n)) ∧
        (wsScales s x k = .ok sc →
          (activationFmt x a = none → exec (.gangPulse k) s = .next (fault s 0x01)) ∧
          (activationFmt x a = some fa →
            (pairOf fa fb = none → exec (.gangPulse k) s = .next (fault s 0x01)) ∧
            (pairOf fa fb = some q →
              let weights := (List.range (ceilDiv (blockBytes q fb) 4)).any fun j => kBad (coreOf s k) (128 + j)
              let dirty := a.poison || (sums.map fun y => y.poison).getD false || sc.2 || weights
              let r := pulseWs (coreOf s k) q fa fb x.t.book x.cell.zp a.data.toNat
                ((sums.map fun y => y.data.toNat).getD 0)
              let last := gdScen x.d && x.v + 1 == gdH x.d
              let out := if last then (r.1.zip (List.range q.cn)).map fun y => scaleAcc q.acc y.1 (word32 sc.1 y.2)
                else r.1.map fun y => (y, 0)
              let acc := if last then AccFmt.fp32 else q.acc
              let s1 := popLink s k la
              let s2 := if entry then s1 else popLink s1 k lb
              let s3 := forward s2 k right (opposite la) (lowData a (q.rm * gfmtBits fa)) a.tag
              let s4 := pushLink s3 k (opposite lb) (outEntry (packBits (8 * accBytes acc) (out.map fun y => y.1)) 0)
              ((q.rm ≠ x.p.rm ∨ q.cn ≠ x.p.cn) → exec (.gangPulse k) s = .next (fault s 0x01)) ∧
              (q.rm = x.p.rm → q.cn = x.p.cn → dirty = true → exec (.gangPulse k) s = .next (fault s 0x0D)) ∧
              (q.rm = x.p.rm → q.cn = x.p.cn → dirty = false → exec (.gangPulse k) s =
                .next (modCell (pulsed s4
                  ((out.zip (List.range q.cn)).flatMap fun y => accLanes acc y.2 y.1.1)
                  (out.foldl (fun f y => f ||| y.2) r.2) false) x k fun y =>
                    { y with scales := if last then some (BitVec.ofNat 256 sc.1) else y.scales })))))) ∧
      (mayPulse s k x = true → gdMode x.d = .giv → linkHead s k lb = some b → roomFor s k right (opposite la) = true →
        let w := gdQw x.d
        let g := givR (coreOf s k) w
        let y := qRead w b.data.toNat
        (x.u = x.v →
          let r := givBoundary w (gdQf x.d) g y
          ((b.poison = true ∨ bad = true) → exec (.gangPulse k) s = .next (fault s 0x0D)) ∧
          (b.poison = false → bad = false → exec (.gangPulse k) s =
            .next (pulsed (forward (popLink s k lb) k right (opposite la) (qWord r.2.1 + 2 ^ 64 * qWord r.2.2.1) 0)
              (givLanes w r.1) r.2.2.2.1 r.2.2.2.2))) ∧
        (x.u ≠ x.v → linkHead s k la = some a → roomFor s k down (opposite lb) = true →
          let r := givInternal w (gdQf x.d) g y (qRead w a.data.toNat) (qRead w (a.data.toNat / 2 ^ 64))
          ((b.poison = true ∨ a.poison = true ∨ bad = true) → exec (.gangPulse k) s = .next (fault s 0x0D)) ∧
          (b.poison = false → a.poison = false → bad = false →
            exec (.gangPulse k) s = .next (pulsed (forward (forward (popLink (popLink s k la) k lb) k right
              (opposite la) (lowData a 128) 0) k down (opposite lb) (qWord r.2.1) 0) (givLanes w r.1) r.2.2 false))))) ∧
    (t.busy = true → t.state = .frozen →
      (t.faulted = none →
        (gdValid d = some p → t.token = none → t.stop = none → completes d = true →
          (∀ y ∈ partCells t, gdK d ≤ y.pulse) →
          (if gangWrites d p = [] then (s, true) else readScales s c i d p t.cells) = (scaled, true) →
          epilogue scaled c i p t.waitElem ((gangWrites d p).drop t.waitElem) = (done, true) →
          exec (.gangComplete c i) s = .next (thawed done .done (gdK d) 0 0 0)) ∧
        (t.stop = some n → gangDrained s t n = true →
          exec (.gangPreemptThaw c i) s = .next (thawed s (if t.preempt then .preempted else .thawed) n 0 0 0))) ∧
      (t.thawReq = true → entryPulse t < gdK d →
        exec (.gangThawRequest c i false) s = .next (modTicket s c i fun y => { y with
          stop := y.stop.or (some (entryPulse t)) })) ∧
      (t.faulted = some (cause, u, v, n) →
        let ended := thawed s .fault n cause u v
        (cause ≠ 0x0D → exec (.gangFaultThaw c i) s = .next ended) ∧
        (cause = 0x0D → exec (.gangFaultThaw c i) s =
          .next (walkWhenRunning ended (partOfCore ended c) (faultMsg 0x0D .gang c 0 0 0 t.uid))))) ∧
    (∀ z ∈ gangCells d, cellCore d z.1 z.2 = some k →
      inqOf (coreOf (clearEdges s d) k) (linkA d) = [] ∧ inqOf (coreOf (clearEdges s d) k) (linkB d) = [])

/-- R299, R341, R345 to R350, R450, R472: a valid copy command is accepted and begins, or waits for its tick, or begins
late (log 60); a refused one is sent again when its hint has passed. A word that may land is gathered from the sources
with the rest of its element, of up to 32 bytes, and written whole to its place, one word a step (log 56); then its
presence bit, its poison and the arrival word follow, through contexts of the seams on the way (logs 55, 110), while the
open words before it keep their translations (log 131); one read with its element is written as it was read, and not
under a revoked lease. A slice destination is checked whole at acceptance (log 58). A word whose flash block is to be
moved first has its NVMe command issued, unless the copy splits the block. A command all of whose bytes are written
completes with its outcome, its counter, and its message where it has a core to go to (log 128); an element that faults
posts a message, and a refused one fails the command. -/
def Obligations.CopyEvents : Prop :=
  ∀ (c : CoreId) (ch : Fin 3) (n word e h o b : Nat) (m : CopyCmd) (x : Landing) (r : Ref) (va pte : W64) (wr : Bool)
    (reason : BitVec 4) (lvl : BitVec 2) (k : HeldWord) (l : List (Nat × Landing × Ref)) (fl : Byte) (s u : State),
    let now (y : State) (ph : CopyPhase) : State := modCopy y c ch n fun z => { z with phase := ph }
    let agent := copyAgentNo ch
    let time := copyNow s c ch m
    let d := m.words
    let finished (y : State) (why : Byte) : State :=
      match (chanOf y c ch).cmds.find? fun z => z.n == n with
      | none => y
      | some z =>
        let post := cdMen z.words && cdMessageOk z.words && inBond y z.bond (coreOfWord (cdMcore z.words))
        let regs := payload [BitVec.ofNat 64 n, why.setWidth 64, BitVec.ofNat 64 (ch.val * 16) + (xyWord c <<< 16)]
        let out : OutMsg := ⟨0, 0, .cr, .completion (coreOfWord (cdMcore z.words))
          ⟨.message (cdHandler z.words) regs (xyWord c) (cdMtag z.words), z.bond, z.job, z.part, 1, false, false⟩⟩
        let fin : CopyCmd := { z with
          phase := .finished, outcome := why, held := [], pins := [], message := if post then some out else none }
        let kept (q : List CopyCmd) : List CopyCmd :=
          if post then q.map (fun w => if w.n = n then fin else w) else q.filter fun w => w.n != n
        let gone := modChan y c ch fun q => { tl := tlFinish q.tl n why, cmds := kept q.cmds }
        match z.packet with
        | some (q, i) => markDone gone q i
        | none => gone
    let landed (y : State) (home key : Nat) (x : Landing) : State :=
      let put := homeWrite (if ch = 2 then y else crossSeams y m.core home (.copy c ch m.n)) home key x.mask x.val none
      let marked := if x.poison then poisonWord put home else put
      let present := if cdPset d then wakeWord (setPresent marked home) home else marked
      let bytes := landingBytes m word
      let pins := pinsBefore y ch m word
      let counted := modCopy present c ch n fun z => { z with
        landed := setAdd word z.landed
        held := z.held.filter fun w => w.word != word
        pins := (z.pins ++ pins.filter fun w => !z.pins.contains w).filter fun w =>
          !(wordPlaces m word).contains (w.va, w.store)
        counted := if bytes = 0 then z.counted else (cdUnit d word).foldl (fun q w => setAdd w q) z.counted }
      let loc := sliceLoc (arrivalCore d) (cdAword d % 65536)
      if cdAen d = false ∨ bytes = 0 then counted
      else if counted.poison.contains (loc / 8) ∨ counted.poison.contains (loc / 8 + 1) then finished counted 0x0D
      else portWrite counted loc
        (arrivalWords (memWord 64 counted.mem loc 8) (memWord 64 counted.mem (loc + 8) 8) bytes)
    findCopy s c ch n = some m →
    (m.phase = .sent → copyLive s m = true →
      (16 ≤ h → h ≤ 4096 → exec (.copyAccept c ch n (some h)) s = .next (now s (.refused (s.ticks + h)))) ∧
      (cdValid d = false → exec (.copyAccept c ch n none) s = .next (finished s 0x01)) ∧
      (cdValid d = true → copyOutside s ch m = true → exec (.copyAccept c ch n none) s = .next (finished s 0x08)) ∧
      (cdValid d = true → copyOutside s ch m = false →
        (m.tick = 0 → exec (.copyAccept c ch n none) s = .next (now s .running)) ∧
        (m.tick ≠ 0 → time.toNat < m.tick.toNat → exec (.copyAccept c ch n none) s = .next (now s .accepted)) ∧
        (m.tick ≠ 0 → m.tick = time → launchWaits s m.core m.uid m.seq = false →
          exec (.copyAccept c ch n none) s = .next (now (now s .accepted) .running)) ∧
        (m.tick ≠ 0 → m.tick.toNat < time.toNat →
          exec (.copyAccept c ch n none) s = .next (markLate (now s .running) c ch)))) ∧
    (m.phase = .refused o → o ≤ s.ticks → exec (.copyRefusalRetry c ch n) s = .next (now s .sent)) ∧
    (m.phase = .accepted → copyLive s m = true → launchWaits s m.core m.uid m.seq = false →
      (m.tick = time → exec (.copyTimedStart c ch n) s = .next (now s .running)) ∧
      (m.tick.toNat < time.toNat → exec (.copyTimedStart c ch n) s = .next (markLate (now s .running) c ch))) ∧
    (m.held.find? (fun y => y.word == word) = some k → m.phase = .running → copyLive s m = true →
      epochRevoked s k.home k.lease = false → footHeld s k.home = false →
      exec (.copyLanding c ch n word) s = .next (landed s k.home k.key ⟨0xFF, k.val, k.poison⟩)) ∧
    (wordHeld m word = false → copyTurn s c ch m word (cdPosition d word) = true → unitStops s c ch m word = none →
      (wordBlock s ch m word = none → gatherUnit s c ch m (cdUnit d word) = .ok (l, u) →
        l.find? (fun y => y.1 == word) = some (word, x, r) →
        let kept := modCopy u c ch n fun y => { y with held := y.held ++ (l.filter fun z => z.1 != word).map fun z =>
          (⟨z.1, wordOf z.2.2.loc, z.2.2.key, z.2.2.lease, z.2.1.val, z.2.1.poison⟩ : HeldWord) }
        exec (.copyLanding c ch n word) s = .next (landed kept (wordOf r.loc) r.key x)) ∧
      (wordBlock s ch m word = some (b, wr) →
        (blockBytesOf m b wr = 4096 → s.flash.contains ⟨c, ch, n, b, wr⟩ = false →
          exec (.copyLanding c ch n word) s = .next { s with flash := s.flash ++ [⟨c, ch, n, b, wr⟩] }) ∧
        (blockBytesOf m b wr ≠ 4096 → exec (.copyLanding c ch n word) s = .next (finished s 0x08)))) ∧
    ((m.held = [] ∨ wordHeld m word = true) → copyTurn s c ch m word (cdEsz d * e) = true →
      (unitStops s c ch m word = some (.fail fl, e) →
        exec (.copyFault c ch n word) s = .next (finished s fl)) ∧
      (unitStops s c ch m word = some (.fault wr va reason lvl pte, e) →
        exec (.copyFault c ch n word) s = .next (modCopy (postFault s agent (engineMsg m.core m.slot m.uid n
          (copyContext s ch) wr va reason lvl pte)) c ch n fun y => { y with
            phase := .faulted (agentToken s m.core agent) e, pins := [] }))) ∧
    (m.phase = .running → copyLive s m = true → copyDone m = cdEsz d * cdTotal d →
      exec (.copyComplete c ch n) s = .next (finished s m.outcome))

/-- R288, R354 to R356: an optimiser command that may go on has the pages of its ranges translated, or ends with outcome
0x01 when its block is invalid; a piece, which ends where a range enters another page, computes its elements in
ascending order, one a step, and a word is written once, when every element in it is computed, one a step (log 116), and
then lets what waited for its line go on (log 137); poison gives outcome 0x0D (log 63); when every element is performed
the command completes. R366, R367, R370 to R372, R381: a sequencer checks the command at its head, then its region,
which it keeps from the step that begins the command (log 135), places and pulses component gangs in it (log 66), reads
the operands of a tile operation or of a record, makes each of the writes, an aligned word at a time (log 117), ends the
operation or goes on to the next record, and completes the command once it has run: its counter, TSSTAT, the flags in
CFU, and RBUSY after a reversal. -/
def Obligations.EngineEvents : Prop :=
  ∀ (c : CoreId) (n piece b op word first last i : Nat) (m : FootCmd) (l : Map (Nat × Nat × Nat)) (die : Fin 4)
    (q : Fin 8) (k : SeqCmd) (ks : List SeqCmd) (x : Bond) (par h : W64) (records : List W64) (ds : List W512)
    (stash : List (W64 × W64)) (splits : List (List Nat)) (staged : List (Nat × Byte)) (accs : List (Nat × W32))
    (puts : List Nat) (w : SeqPut) (left : List SeqPut) (fl : Flags) (o : Byte) (g : SeqGang) (gd : W512) (act : SeqAct)
    (s t : State),
    let held (y : FootCmd) : List Nat := match y.pages with
      | some p => y.puts.map fun z => (footPlace p z.va).1 / 128 * 128
      | none => []
    let footed (o : Byte) : State :=
      (((coreOf s c).foot.cmds.filter fun y => y.n == n).flatMap held).dedup.foldl wakeLine
        (modCore s c fun y => { y with foot :=
          { tl := tlFinish y.foot.tl n o, cmds := y.foot.cmds.filter fun z => z.n != n } })
    let region := k.region.getD x.tregion
    let k' : SeqCmd := { k with region := some region }
    let begun (staged : List (Nat × Byte)) (accs : List (Nat × W32)) : State :=
      leaveStaging (modSeq s die q k.n fun _ => k') region staged accs
    let s0 := begun [] []
    let run (act : SeqAct) : Instr := .seqCommand die q splits [] [] act
    let free (y : State) : State := { y with cores := y.cores.map fun e => (e.1, { e.2 with
      frozen := if e.2.frozen = some (.sequencer die q) then none else e.2.frozen }) }
    let left_ (y : State) : State := match k.gang with
      | some g => if g.placed then clearEdges (free y) g.desc else free y
      | none => free y
    let ended (y : State) (o : Byte) : State := modSeq (left_ y) die q k.n fun z => { z with
      token := none, gang := none, todo := none, ran := true, outcome := o }
    let reads (y : State) := match k.op with
      | .tile op par ds stash => startTile y (seqWho y die b k') op par (splits.headD []) ds stash
      | .reverse hs => startRecord y (seqWho y die b k') (hs.headD 0) (splits.getD 0 []) (splits.getD 1 [])
    (findFoot s c n = some m → footReady s c m = true →
      (m.pages = none → obValid m.words = false → exec (.optimiserPiece c n piece) s = .next (footed 0x01)) ∧
      (m.pages = none → obValid m.words = true →
        footPages s (footWho c m) ((obRanges m.words).flatMap (rangePages (obN m.words))) = .ok (l, t) →
        exec (.optimiserPiece c n piece) s = .next (modFoot t c n fun y => { y with pages := some l })) ∧
      (m.pages = some l →
        let done := mapGet 0 m.pieces piece
        let new := elemPuts s m.words l (first + done)
        let ready := (m.puts.map fun y => y.va / 8).find? (wordComplete m.words m.puts)
        (ready = some word →
          exec (.optimiserPiece c n piece) s = .next (wakeLine (putFootWord l m.puts (modFoot s c n fun y => { y with
            puts := y.puts.filter fun z => z.va / 8 != word }) word) (footPlace l (8 * word)).1)) ∧
        (ready = none → pieceSpan l m.words piece = some (first, last) → first + done < last →
          (footWithheld s m.words l (first + done) = none →
            exec (.optimiserPiece c n piece) s = .next (modFoot s c n fun y => { y with
              pieces := mapSet piece (done + 1) y.pieces
              puts := y.puts ++ new
              outcome := if new.any (fun z => z.poison) then 0x0D else y.outcome })) ∧
          (footWithheld s m.words l (first + done) = some word →
            exec (.optimiserPiece c n piece) s = .next (parkMiss s .engine word))) ∧
        (footPerformed m = true → exec (.optimiserComplete c n) s = .next (footed m.outcome)))) ∧
    (seqReady s die q = some (b, k) → mapFind s.bonds b = some x → s.dies[die].seqrs[q].cmds = k :: ks →
      (k.op = .reverse [] → exec (.seqCommand die q splits staged accs act) s = .next (ended s 0)) ∧
      (k.op = .tile op par ds stash → commandOk op par ds false = false →
        exec (.seqCommand die q splits staged accs act) s = .next (ended s 0x01)) ∧
      ((k.op = .tile op par ds stash ∧ commandOk op par ds false = true) ∨ k.op = .reverse (h :: records) →
        (regionOk s b region = false → exec (.seqCommand die q splits staged accs act) s = .next (ended s 0x08)) ∧
        (regionOk s b region = true →
          (k.gang = none → componentFits s0 b k.core region gd = true →
            (∀ y ∈ (gangCores gd).filterMap id, (coreOf s0 y).frozen = none ∧ (coreOf s0 y).claimed = none) →
            exec (run (.place gd)) s = .next (modSeq (((gangCores gd).filterMap id).foldl (fun y c =>
              modCore y c fun z => freezeCore z (.sequencer die q)) s0) die q k.n fun y => { y with
                gang := some ⟨gd, gdStart gd, true⟩ })) ∧
          (k.gang = some g → g.placed = true →
            (g.pulse < gdK g.desc → exec (run .pulse) s = .next (modSeq s0 die q k.n fun y => { y with
              gang := y.gang.map fun z => { z with pulse := z.pulse + 1 } })) ∧
            (gdK g.desc ≤ g.pulse → exec (run .thaw) s = .next (modSeq (left_ s0) die q k.n fun y => { y with
              gang := none }))) ∧
          ((k.gang = none ∨ pulsesLeft k = some 0) →
            (k.todo = none → reads (begun staged accs) = .ok ((left, fl), t) →
              exec (.seqCommand die q splits staged accs (.write puts)) s = .next (modSeq t die q k.n fun y => { y with
                todo := some left, flags := y.flags ||| fl })) ∧
            (k.todo = none → reads s0 = .error (.fail o) → exec (run (.write puts)) s = .next (ended s0 o)) ∧
            (k.todo = some left → left[i]? = some w → putTurn left w = true →
              seqPut s0 (seqWho s0 die b k') w (left.filter (sameWord w)) = .ok (fl, t) →
              exec (run (.write [i])) s = .next (modSeq t die q k.n fun y => { y with
                todo := some (left.filter fun z => !sameWord w z), flags := y.flags ||| fl }))) ∧
          (k.gang = none → k.todo = some [] →
            (k.op = .tile op par ds stash → exec (run (.write puts)) s = .next (ended s0 0)) ∧
            (k.op = .reverse (h :: records) → exec (run (.write puts)) s = .next (modSeq s0 die q k.n fun y => { y with
              op := .reverse records, todo := none })))))) ∧
    (s.dies[die].seqrs[q].bond = some b → mapFind s.bonds b = some x → s.dies[die].seqrs[q].cmds = k :: ks →
      k.ran = true →
      let y := modDie (left_ s) die fun d => { d with seqrs := d.seqrs.set q { d.seqrs[q] with
        tl := tlFinish d.seqrs[q].tl k.n k.outcome, cmds := d.seqrs[q].cmds.filter fun z => z.n != k.n } }
      let z := raiseFlags (modBond y b fun v => { v with
        tsErr := v.tsErr || k.outcome != 0
        tsFlags := v.tsFlags ||| k.flags
        tsCause := if k.outcome = 0 then v.tsCause else k.outcome }) k.core k.flags
      (k.op = .tile op par ds stash → exec (.seqCommandComplete die q) s = .next z) ∧
      (k.op = .reverse records → exec (.seqCommandComplete die q) s =
        .next (mapStrands z fun _ v => if v.uid = k.uid then { v with rbusy := false } else v)))

/-- R409 to R413: a fault message joins its cluster's mailbox, which refuses a 65th; that of a live service strand's
agent never enters, and ends the strand with the default reply when it arrives (log 71); with FHVEC.EN = 1 its head
starts a service strand in the keystone core's lowest free slot, and without a handler, or when no slot came free in
time, the default reply is applied. R420: a corrected error is counted; an uncorrectable one poisons the word, register
word, entry, answer or unit that it strikes and is counted at its core, fails a command whose words it struck with cause
0x0D, and drops a cache line or a TLB entry; one in the shadow store poisons the saved register or entry, or marks a
word of control state for the restore (log 118). R422: an error in control state kills the job, or resets the device. -/
def Obligations.FaultEvents : Prop :=
  ∀ (idx cl loc j part n : Nat) (p : Packet) (m : FaultMsg) (ms : List FaultMsg) (c : CoreId) (i : Slot) (r : Fin 24)
    (v : Fin 8) (w : Fin 4) (pair : Fin 128) (l : Port) (strm : StreamId) (ch : Fin 3) (die : Fin 4) (q : Fin 8)
    (en : PortEntry) (im : InMsg) (om : OutMsg) (se : StoreEntry) (el : Elem) (rd : Reduction) (su : ShadowUnit)
    (cp : CopyCmd) (pe : Pending) (pt : Part) (x : Saved) (k : Core) (sv : List Saved) (s : State),
    let box := clusterOf s cl
    let core := coreOf s c
    let poisoned : State := { s with poison := setAdd (wordOf loc / 8) s.poison }
    let counted (y : State) (c : CoreId) : State := modCore y c fun k => { k with ecccnt := satInc k.ecccnt 16 }
    let struck (site : ErrSite) (y : State) : Prop := exec (.uncorrectableError site) s = .next y
    (s.net[idx]? = some p → p.body = .fault cl m → p.refused = false → serviceFault s m = some (c, i) →
      let ended := match agentOf { s with net := s.net.eraseIdx idx } m.token with
        | some a => killAgent { s with net := s.net.eraseIdx idx } a
        | none => { s with net := s.net.eraseIdx idx }
      exec (.faultMessageArrival idx) s =
        .next (dropService { ended with asked := ended.asked.filter fun y => y.token != m.token } c i)) ∧
    (s.net[idx]? = some p → p.body = .fault cl m → p.refused = false → serviceFault s m = none →
      (box.mailbox.length < 64 → exec (.faultMessageArrival idx) s =
        .next (modCluster { s with net := s.net.eraseIdx idx } cl fun b => { b with
          since := if b.mailbox.isEmpty then s.ticks else b.since
          mailbox := b.mailbox ++ [{ m with poison := m.poison || p.poison }] })) ∧
      (64 ≤ box.mailbox.length → exec (.faultMessageArrival idx) s =
        .next { s with net := s.net.set idx { p with refused := true } })) ∧
    (box.mailbox = m :: ms → (coreOf s (keystone cl)).halted = false →
      let popped := modCluster s cl fun b => { b with mailbox := ms, since := s.ticks }
      (bit box.fhvec 0 = true → freeSlot (coreOf s (keystone cl)) = some i → exec (.serviceStrandStart cl) s =
        .next (putStrand { popped with nextUid := s.nextUid + 1 } (keystone cl) i (serviceStrand s cl m s.nextUid))) ∧
      (bit box.fhvec 0 = true → bits box.fhvec 7 1 ≠ 0 → box.since + bits box.fhvec 7 1 * 1024 ≤ s.ticks →
        freeSlot (coreOf s (keystone cl)) = none →
        exec (.faultSlotTimeout cl) s = .next (reply popped none m.token .kill)) ∧
      (bit box.fhvec 0 = false → exec (.serviceStrandStart cl) s = .next (reply popped none m.token .kill))) ∧
    (exec (.eccCorrected c) s = .next (modCore s c fun k => { k with ecccnt := satInc k.ecccnt 0 })) ∧
    (nodeOf loc = 0 → loc < 2 ^ 50 →
      (isSlice loc = false → struck (.memWord loc) poisoned) ∧
      (isSlice loc = true → struck (.memWord loc) (counted poisoned (sliceCore loc)))) ∧
    ((strandAt s c i).occ = true →
      struck (.gWord c i r) (counted (modStrand s c i fun t => { t with gPoison := putBits t.gPoison r.val 1 1 }) c) ∧
      struck (.vWord c i v w) (counted (modStrand s c i fun t => { t with
        vPoison := putBits t.vPoison (4 * v.val + w.val) 1 1 }) c)) ∧
    (struck (.kWord c pair) (counted (modCore s c fun k => { k with kPoison := putBits k.kPoison pair.val 1 1 }) c)) ∧
    ((inqOf core l)[idx]? = some en → struck (.portEntry c l idx)
      (counted (modCore s c fun k => setInq k l ((inqOf k l).set idx { en with poison := true })) c)) ∧
    ((seamOf core l)[idx]? = some en → struck (.seamEntry c l idx)
      (counted (modCore s c fun k => setSeam k l ((seamOf k l).set idx { en with poison := true })) c)) ∧
    (core.inbound[idx]? = some im → struck (.inboundEntry c idx)
      (counted (modCore s c fun k => { k with inbound := k.inbound.set idx { im with poison := true } }) c)) ∧
    (core.outbound[idx]? = some om → struck (.outboundEntry c idx)
      (counted (modCore s c fun k => { k with outbound := k.outbound.set idx { om with body := poisonBody om.body } }) c)) ∧
    (core.stores[idx]? = some se → struck (.storeEntry c idx)
      (counted (modCore s c fun k => { k with stores := k.stores.set idx { se with poison := true } }) c)) ∧
    (core.reds[idx]? = some rd → struck (.reduction c idx)
      (counted (modCore s c fun k => { k with reds := k.reds.set idx { rd with poison := true } }) c)) ∧
    ((core.streams[strm]).buf[idx]? = some el → el.fault = none → struck (.streamEntry c strm idx)
      (counted (modStream s c strm fun st => { st with buf := st.buf.set idx { el with fault := some .poison } }) c)) ∧
    (box.mailbox[idx]? = some m → struck (.mailboxEntry cl idx) (counted (modCluster s cl fun b => { b with
      mailbox := b.mailbox.set idx { m with poison := true } }) (keystone cl))) ∧
    ((strandAt s c i).inflight[idx]? = some pe → pe.parts[n]? = some pt → struck (.answer c i idx n)
      (counted (modStrand s c i fun t => { t with inflight := t.inflight.set idx { pe with
        parts := pe.parts.set n { pt with got := pt.got.map fun y => (y.1, true) } } }) c)) ∧
    (s.dies[die].shadows[idx]? = some su → struck (.shadowUnit die idx) (modDie s die fun d => { d with
      shadows := d.shadows.set idx { su with poison := true } })) ∧
    (findCopy s c ch n = some cp → cp.phase ≠ .finished → struck (.copyCommand c ch n) (finishCopy s c ch n 0x0D)) ∧
    (struck (.footCommand c n) (finishFoot s c n 0x0D)) ∧
    (struck (.seqCommand die q n) (endSeq s die q n 0x0D)) ∧
    (struck (.copyWord c ch n loc) (modCopy s c ch n fun y => { y with
      held := y.held.map fun z => if z.word = loc then { z with poison := true } else z })) ∧
    (struck (.icacheLine c) (modCore s c fun k => { k with slots := k.slots.map fun t => { t with ifetch := [] } })) ∧
    ((idx < core.itlb.length →
        struck (.coreTlb c idx) (modCore s c fun k => { k with itlb := k.itlb.eraseIdx idx })) ∧
      (core.itlb.length ≤ idx → struck (.coreTlb c idx)
        (modCore s c fun k => { k with dtlb := k.dtlb.eraseIdx (idx - k.itlb.length) })) ∧
      struck (.clusterTlb cl idx) (modCluster s cl fun b => { b with tlb := b.tlb.eraseIdx idx }) ∧
      struck (.dieTlb die idx) (modDie s die fun d => { d with tlb := d.tlb.eraseIdx idx })) ∧
    ((partOf s part).saved = x :: sv → x.job = j → (∀ y ∈ sv, y.job ≠ j) → mapFind x.cores c = some k → loc < 0x2000 →
      let saved (y : Saved) : State := modPart (counted s c) part fun p => { p with saved := y :: sv }
      (shadowItem (loc / 8 * 8) = .g i r → (k.slots[i]).occ = true → struck (.shadowWord part j c loc)
        (saved { x with cores := mapSet c { k with slots := k.slots.set i { k.slots[i] with
          gPoison := putBits (k.slots[i]).gPoison r.val 1 1 } } x.cores })) ∧
      (shadowItem (loc / 8 * 8) = .control → (c, loc / 8 * 8) ∉ x.struck → struck (.shadowWord part j c loc)
        (saved { x with struck := x.struck ++ [(c, loc / 8 * 8)] }))) ∧
    (exec (.controlStateError (.job j)) s = .next (killJob s j 0x0D)) ∧
    (exec (.controlStateError .unknown) s = .next (bringUp s))

/-- R197, R198, R223 to R225, R302, R318: a bond with nothing left to do merges the shadow units that it added to and
drops its cores' tags, as its release at system scope, frees its sequencer and its clusters, and its LAUNCH packet's
work is done; the scheduler places a unit that is first in its order and fits. R416, R461, R466, R467: a placed unit is
a bond of the packet's fields on its clusters, with FHVEC and SMVEC of the job, PTROOT where it is the job's first (log
123), OWNSET of the packet, and its start stub in the cornerstone core's lowest free slot. R224: a unit whose
dependences have been met for 2^20 ticks of plumb time (log 136) gains a level of priority, up to three times. -/
def Obligations.SchedulerEvents : Prop :=
  ∀ (b part idx cx cy at_ : Nat) (x : Bond) (u : WorkUnit) (i : Slot) (s : State),
    let p := partOf s part
    (mapFind s.bonds b = some x → bondIdle s b x = true →
      let merged := ((allUnits s).filter fun e => e.2.contribs.any fun y => y.bond == some b).foldl
        (fun s e => mergeUnits s e.1 e.2) s
      let bare := (merged.tags.filter fun t => (bondClusters x).contains (clusterIdx t.core)).foldl
        (fun s t => wakeWord (setTag s t.word none) t.word) merged
      let idle := match x.seqr with
        | some (die, q) => modDie bare die fun d => { d with seqrs := d.seqrs.set q { d.seqrs[q] with bond := none } }
        | none => bare
      let freed := (bondClusters x).foldl (fun s cl => modCluster s cl fun l => { l with bond := none }) idle
      exec (.bondCompletion b) s = .next (modQueue { freed with bonds := mapErase b freed.bonds } x.queue fun q => { q with
        taken := q.taken.map fun t => if t.n = x.packetNo then { t with done := true } else t })) ∧
    (p.units[idx]? = some u → p.phase = .running → depsMet s u.job u.packet = true →
      rectAllowed p u.packet cx cy = true → placeFree s u.packet (cx, cy) = true →
      freeSlot (coreOf s (keystone (cy * 16 + cx))) = some i →
      (∀ v ∈ p.units, before s p.units v u = true → depsMet s v.job v.packet = true →
        ∀ e ∈ launchPlaces p v.packet, placeFree s v.packet e = false) →
      ∃ t y, exec (.schedulerPlace part idx cx cy) s = .next t ∧ mapFind t.bonds s.nextBond = some y ∧
        t.nextBond = s.nextBond + 1 ∧ (partOf t part).units = p.units.eraseIdx idx ∧ t.mem = s.mem ∧
        y.job = u.job ∧ y.part = part ∧ y.cx = cx ∧ y.cy = cy ∧ y.cw = launchW u.packet ∧ y.ch = launchH u.packet ∧
        y.spc = launchSpc u.packet ∧ y.dmask = launchDmask u.packet ∧ y.fanned = false ∧ y.packet = u.packet ∧
        y.contup = pktWord u.packet 9 ∧ y.bay = launchBay u.packet ∧ y.queue = u.queue ∧ y.packetNo = u.packetNo ∧
        (∀ cl ∈ rectClusters cx cy y.cw y.ch, (clusterOf t cl).bond = some s.nextBond ∧
          (clusterOf t cl).fhvec = (jobOf s u.job).cfgFhvec) ∧
        (∀ cl ∈ rectClusters cx cy y.cw y.ch, ∀ c ∈ clusterCores cl,
          (coreOf t c).smvec = (jobOf s u.job).cfgSmvec) ∧
        (jobOf t u.job).ownset = pktWord u.packet 10 ∧
        (jobOf t u.job).ptroot = (if jobBonds s u.job = [] then (jobOf s u.job).cfgPtroot else (jobOf s u.job).ptroot) ∧
        let stub := strandAt t (keystone (cy * 16 + cx)) i
        stub.occ = true ∧ stub.kind = .stub ∧ stub.member = false ∧ stub.bond = some s.nextBond ∧
          stub.pc = pktWord u.packet 6 &&& ~~~(1 : W64) ∧ stub.g[0] = pktWord u.packet 7 ∧ stub.g[1] = 0) ∧
    (p.units[idx]? = some u → u.metAt = some at_ → u.aged < 3 → at_ + 2 ^ 20 * (u.aged + 1) ≤ schedulerTime s →
      exec (.priorityAging part idx) s =
        .next (modPart s part fun p => { p with units := p.units.set idx { u with aged := u.aged + 1 } }))

/-- R413 to R418, R430: a reply takes effect on the agent that waits on its token, and is held while the agent's
partition is halted: RESUME lets it run again, a copy from 4 MiB before its element (log 131) and a load with a new
walk; SKIP passes it over, and counts as KILL for a fetch; KILL ends it and walks up from the strand. The walk follows
CONTAIN and CONTUP level by level, up to the job. A killed strand's slot is free, its rejected writes and open releases
go and its other writes stay (log 132); a killed bond leaves its cores with empty queues, idle streams and zero
accumulators, its clusters free, its sequencer free and its packet done with the cause in the queue's bond fields; a
killed job is marked, has no queued unit and no saved context, and its queues stop (log 133). A bond that restarts is
queued again, with the retries that it has left. -/
def Obligations.ContainmentEvents : Prop :=
  ∀ (c : CoreId) (i : Slot) (l n len b j q uid : Nat) (ch : Fin 3) (token : W64) (act : Act) (part : Option Nat)
    (m : FaultMsg) (a : Agent) (x : Bond) (u : WorkUnit) (w : Option Nat) (left : Option (Nat × Nat × Nat)) (why : Byte)
    (s : State),
    let asked : State := { s with asked := s.asked.filter fun y => y.token != m.token }
    let mine := match part with | some p => agentPart s a = p | none => True
    let killed (y : State) : State := walk (killAgent y a) m (if stillWaits a then some a else none)
    let t := strandAt s c i
    (s.asked.find? (fun y => y.token == token) = some m → agentOf s token = some a → mine →
      (partHalted s (agentPart s a) = true → reply s part token act = modPart s (agentPart s a) fun p => { p with
        held := p.held ++ [(token, actCode act)] }) ∧
      (partHalted s (agentPart s a) = false →
        (act = .resume → reply s part token act = resumeAgent asked m a) ∧
        (act = .skip → m.source ≠ .fetch → reply s part token act = skipAgent asked m a) ∧
        (act = .skip → m.source = .fetch → reply s part token act = killed asked) ∧
        (act = .kill → reply s part token act = killed asked))) ∧
    (t.wait = .reply token len w →
      (m.source ≠ .readStream → w = none → resumeAgent s m (.strand c i) = modStrand s c i fun y => { y with
        wait := .none }) ∧
      (m.source ≠ .readStream → w = some q → resumeAgent s m (.strand c i) = modStrand s c i fun y => { y with
        wait := .none
        inflight := y.inflight.map fun p => if p.seq = q then { p with
          parts := p.parts.map fun z => { z with got := none, lease := none }
          rejected := false, park := 0, again := true } else p }) ∧
      (w = none → skipAgent s m (.strand c i) = modStrand s c i fun y => { y with
        wait := .none, pc := y.pc + BitVec.ofNat 64 len }) ∧
      (w = some q → skipAgent s m (.strand c i) = modStrand s c i fun y => { y with
        wait := .none, inflight := y.inflight.filter fun p => p.seq != q })) ∧
    (resumeAgent s m (.copy c ch n) = modCopy s c ch n fun y => match y.phase with
      | .faulted _ e => { y with
          phase := .running, landed := [], held := [], pins := []
          first := Nat.max y.first ((cdEsz y.words * e - 4194304) / cdEsz y.words) }
      | _ => y) ∧
    (skipAgent s m (.copy c ch n) = modCopy s c ch n fun y => match y.phase with
      | .faulted _ e => { y with phase := .running, outcome := 0x10, skipped := setAdd e y.skipped }
      | _ => y) ∧
    (findUid s m.uid = some (c, i) → t.bond = some b →
      let pol := bits t.contain 1 0
      let tries := bits t.contain 11 8
      let up (k : Nat) : Nat := contPol t.contup (k - 1)
      let rest (k : Nat) : Nat := walkLeft s ⟨some (c, i), some b, clusterIdx c, some a, m⟩ k
      let passes (k : Nat) : Prop := up k = 0 ∨ (up k = 1 ∧ rest k = 0)
      (pol = 2 → walk s m (some a) = killStrand s c i) ∧
      (pol = 3 → m.source ≠ .fetch → walk s m (some a) = skipAgent s m a) ∧
      (pol = 1 → tries ≠ 0 → walk s m (some a) =
        resumeAgent (modStrand s c i fun y => { y with contain := putBits y.contain 8 4 (tries - 1) }) m a) ∧
      ((pol = 0 ∨ (pol = 1 ∧ tries = 0)) → 1 ≤ l → l ≤ 4 → (∀ k, 1 ≤ k → k < l → passes k) →
        (up l = 2 → walk s m (some a) = killUnit s b (clusterIdx c) m.kind l) ∧
        (up l = 3 → m.source ≠ .fetch → walk s m (some a) = skipAgent s m a) ∧
        (up l = 1 → rest l ≠ 0 → walk s m (some a) =
          restartUnit (useRetry s b (clusterIdx c) l) b (clusterIdx c) l) ∧
        (l = 4 → passes 4 → walk s m (some a) = killUnit s b (clusterIdx c) m.kind 4))) ∧
    (mapFind s.bonds b = some x →
      killUnit s b n why 1 = killPart s b (· == n) false ∧ killUnit s b n why 2 = killBond s b why ∧
      killUnit s b n why 3 = (bayBonds s x b).foldl (fun y e => killBond y e why) s ∧
      killUnit s b n why 4 = killJob s x.job why ∧
      let dead := killBond s b why
      mapFind dead.bonds b = none ∧ (queueOf dead x.queue).bkill = true ∧ (queueOf dead x.queue).bcause = why ∧
      (queueOf dead x.queue).bpos = BitVec.ofNat 16 x.packet.index ∧
      (∀ y ∈ (queueOf dead x.queue).taken, y.n = x.packetNo → y.done = true) ∧
      (∀ cl ∈ bondClusters x, (clusterOf dead cl).bond = none) ∧
      (∀ k : CoreId, clusterIdx k ∈ bondClusters x →
        (coreOf dead k).inq = Vector.replicate 4 [] ∧ (coreOf dead k).seam = Vector.replicate 4 [] ∧
        (coreOf dead k).inbound = [] ∧ (coreOf dead k).outbound = [] ∧ (coreOf dead k).k = Vector.replicate 256 0 ∧
        (coreOf dead k).streams = Vector.replicate 4 Stream.idle ∧ (coreOf dead k).frozen = none ∧
        (coreOf dead k).claimed = none ∧ ∀ ch : Fin 2, ∀ y ∈ ((coreOf dead k).chans[ch]).cmds, y.phase ≠ .finished) ∧
      (∀ y ∈ dead.net, startsOn (fun cl => (bondClusters x).contains cl) y.body = false) ∧
      (u = ⟨x.packet, x.queue, x.packetNo, x.job, none, 0, s.nextSeq, left⟩ →
        requeueBond s b left = modPart { stopBond s b with nextSeq := s.nextSeq + 1 } x.part fun p => { p with
          units := p.units ++ [u] })) ∧
    (let gone := modCore (leaveSlot s c i) c fun k => { k with
       stores := (dropStores (fun e => e.uid == t.uid && e.token.isSome) k.stores).map fun e =>
         if e.uid = t.uid then { e with tag := none } else e
       reds := k.reds.filter fun r => ¬ (r.uid = t.uid ∧ (r.token.isSome ∨ (r.release.isSome ∧ r.performed = false))) }
     killStrand s c i = (gone.tags.filter fun y => y.uid == t.uid).foldl
       (fun s y => wakeWord (setTag s y.word none) y.word) gone) ∧
    (let dead := killJob s j why
     (jobOf dead j).killed = true ∧ (∀ p ∈ dead.parts, (∀ y ∈ p.2.units, y.job ≠ j) ∧ (∀ y ∈ p.2.saved, y.job ≠ j) ∧
       ∀ y ∈ p.2.walks, y.1 ≠ j) ∧ ∀ q, queueJob (queueOf dead q) = j → (queueOf dead q).run = false)

/-- R461 to R468: a doorbell, or the poll after 65,536 ticks, lets an idle queue read at POS; setting EN restarts a
queue at POS 0 with PHASE 1, and starts the job that has nothing at work (log 82), and the other fields change only
while EN is 0; the configuration record changes only while the job has no bond and no enabled queue; a packet in hand
whose dependences are met is handed on as its type says, a COPY to the exchange engine beside the port in use (log 83),
an ACTIVE with bit 0 of its address cleared (log 97); a packet completes by advancing its timeline and then sending its
message. -/
def Obligations.QueueEvents : Prop :=
  ∀ (q n j part : Nat) (v a b d e : W64) (p : QPacket) (t : Taken) (y : Bond) (s : State),
    let x := queueOf s q
    let ctl := chanOf s (packetEngine s part q) 2
    let own := ownerOf (jobOf s (queueJob x)).ownset (pktWord p 6)
    (exec (.qdbWrite q) s = .next (fetchPacket s q)) ∧
    (x.polled + 65536 ≤ s.ticks → exec (.queuePollTimeout q) s = .next (fetchPacket s q)) ∧
    (bit x.qcfg 63 = false →
      (bit v 63 = true → exec (.qcfgWrite q v) s =
        .next (fetchPacket (modQueue (launchJob s (bits v 9 4)) q fun y => { y with
          qcfg := v &&& 0x80000000000003FF, pos := 0, phase := true, run := true }) q)) ∧
      (bit v 63 = false → exec (.qcfgWrite q v) s =
        .next (modQueue s q fun y => { y with qcfg := v &&& 0x80000000000003FF })) ∧
      (exec (.hostRegisterWrite (.qbase q) v) s = .next (modQueue s q fun y => { y with qbase := v }))) ∧
    (bit x.qcfg 63 = true → bit v 63 = false → exec (.qcfgWrite q v) s =
      .next (modQueue s q fun y => { y with qcfg := putBits y.qcfg 63 1 0, run := y.hand.isSome })) ∧
    (exec (.hostRegisterWrite (.qstat q) v) s =
      .next (modQueue s q fun y => { y with err := y.err && !bit v 1, bkill := y.bkill && !bit v 32 })) ∧
    ((∀ z ∈ s.bonds, z.2.job ≠ j) → (∀ z ∈ s.queues, queueJob z.2 = j → queueEn z.2 = false) →
      exec (.jobConfigWrite j a b d e) s =
        .next (modJob s j fun z => { z with cfgPtroot := a, cfgFhvec := b, cfgSmvec := d, cfgTvec := e })) ∧
    (inHand s q 0 = some (p, part) → configValid (jobOf s (queueJob x)) = true → launchPlaces (partOf s part) p ≠ [] →
      exec (.launch q) s = .next (passHand (modPart { s with nextSeq := s.nextSeq + 1 } part fun z => { z with
        units := z.units ++ [⟨p, q, x.next, queueJob x, none, 0, s.nextSeq, none⟩] }) q p false)) ∧
    (inHand s q 1 = some (p, part) → depsMet s (queueJob x) p = true → bit (jobOf s (queueJob x)).ownset 63 = true →
      (clusterOf s (clusterIdx own)).bond = some n → mapFind s.bonds n = some y → y.job = queueJob x →
      let m : InMsg := ⟨.message (pktWord p 7 &&& ~~~(1 : W64)) (Vector.ofFn fun i => pktWord p (8 + i.val)) 0x00800000
        (BitVec.ofNat 64 (bits (pktWord p 0) 23 20)), some n, queueJob x, part, 1, false, false⟩
      exec (.active q) s = .next (passHand
        { s with net := s.net ++ [⟨own, 0, .start own m, 0, false, false, some (q, x.next)⟩] } q p false)) ∧
    (inHand s q 2 = some (p, part) → depsMet s (queueJob x) p = true → ctl.cmds.length < 16 →
      exec (.copy q) s = .next (passHand (modChan s (packetEngine s part q) 2 fun z =>
        { tl := { z.tl with next := z.tl.next + 1 }
          cmds := z.cmds ++ [packetCopy s part q x.next z.tl.next p] }) q p false)) ∧
    (inHand s q 3 = some (p, part) → depsMet s (queueJob x) p = true → x.taken = [] →
      exec (.signalPacket q) s = .next (passHand s q p true)) ∧
    (inHand s q 4 = some (p, part) → depsMet s (queueJob x) p = true →
      exec (.wait q) s = .next (passHand s q p true)) ∧
    (inHand s q 5 = some (p, part) → depsMet s (queueJob x) p = true → x.taken = [] →
      exec (.fencePacket q) s = .next (passHand s q p true)) ∧
    (x.taken.find? (fun z => z.n == n && z.done) = some t →
      let w := pktWord t.packet 0
      let counted := if bit w 18 then advanceTimeline s t.job (bits w 17 8) (pktWord t.packet 1) else s
      let sent := if bit w 19 then sendMsix counted q else counted
      exec (.packetComplete q n) s =
        .next (modQueue sent q fun z => { z with taken := z.taken.filter fun k => k.n != n }))

/-- R423 to R428, R474: a free partition takes clusters, stacks and keys that no other holds, and stands saved with no
job (log 88); the end of a time slice stops its queues, the halt request reaches its cores when their packets are done
(log 84), the drain begins once every gang is final, and its job is saved once all has drained; a saved job whose
partition is free resumes, and so does a job that has not run yet (log 88); a teardown halts, drains and then clears
(log 90). What is measured of a partition's layout is log 114. -/
def Obligations.PartitionEvents : Prop :=
  ∀ (part job : Nat) (clusters memStacks keys : List Nat) (window : Option (Nat × Nat)) (s : State),
    let p := partOf s part
    let owner := (jobOf s job).part
    let stopping : State := modPart s part fun p => { p with phase := .draining }
    (assignable s part clusters memStacks keys window = true →
      let held := modPart s part fun _ => { Partition.free with
        phase := .saved, job := 64, clusters := clusters.foldl (fun l x => setAdd x l) [], memStacks := memStacks
        keys := keys, window := window }
      exec (.partitionAssign part clusters memStacks keys window) s = .next (extendMeasure (bindKeys
        (clusters.foldl (fun s cl => modCluster s cl fun l => { l with part := some part }) held) keys) 2
        (layoutNumber part clusters memStacks keys window))) ∧
    (p.phase = .running → exec (.timeSliceExpiry part) s = .next stopping ∧
      exec (.partitionTeardown part) s = .next stopping) ∧
    (p.phase = .draining →
      (halting s part = false → queuesQuiet s part = true →
        exec (.partitionHalt part) s = .next (haltCores s part) ∧
        exec (.partitionTeardown part) s = .next (haltCores s part)) ∧
      (halting s part = true → p.drain = false → gangsThawed s part = true →
        exec (.partitionHalt part) s = .next (modPart s part fun p => { p with drain := true }) ∧
        exec (.partitionTeardown part) s = .next (modPart s part fun p => { p with drain := true })) ∧
      (halting s part = true → p.drain = true → drainDone s part = true →
        exec (.partitionHalt part) s = .next (savePartition s part) ∧
        exec (.partitionTeardown part) s = .next (tearDown s part))) ∧
    (p.phase = .saved → exec (.partitionTeardown part) s = .next (tearDown s part)) ∧
    (p.phase = .saved → job < 64 → (jobOf s job).killed = false → (owner = none ∨ owner = some part) →
      exec (.partitionRestore part job) s = .next (restorePartition s part job))

/-- R423 to R428, R430, R474, R479: a save keeps, in one record of the job, the context of the partition's cores (the
registers, PC and flags of every strand, with what had not issued withdrawn, the accumulators, tickets, timelines and
queues, each running copy at its position), its bonds, units and packets, and leaves its cores empty and memory as it
was. A restore of a context that no error struck (log 118), with no reply, walk, parked request or queue waiting for it,
puts that context on the cores, which keep their TLBs and error counts, and starts them; SWAPCNT advances. A teardown
zeroes the partition's slices and cores, ends its keys and the timelines of its jobs, and frees it (log 90); bring-up
zeroes memory, plumb time and everything outside the device block. -/
def Obligations.ContextEvents : Prop :=
  ∀ (part job : Nat) (c : CoreId) (k : Core) (s : State),
    let p := partOf s part
    let kept := savePartition s part
    let y := withdrawAll s part
    let x := contextFor s part job
    let back := restorePartition s part job
    let jobs := (s.jobs.filter fun e => e.2.part == some part).map fun e => e.1
    let bare := dropTags (jobs.foldl (fun s j =>
      completeJob (killJob s j (Config.teardownCause s.freeCtr)) part j) s) fun t =>
        holdsCore (jobs.foldl (fun s j => completeJob (killJob s j (Config.teardownCause s.freeCtr)) part j) s) part t.core
    let free := tearDown s part
    let up := bringUp s
    let inPart (s : State) (loc : Nat) : Bool := isSlice loc && holdsCore s part (sliceCore loc)
    (kept.mem = s.mem ∧ (partOf kept part).phase = .saved ∧ (partOf kept part).units = [] ∧
      (∃ v ∈ (partOf kept part).saved, v.job = p.job ∧ v.queue = p.units ∧ v.norms = p.norms ∧ v.nactl = p.nactl ∧
        v.bonds = s.bonds.filter (fun e => e.2.part == part) ∧ v.net = s.net.filter (packetFor s part) ∧ v.struck = [] ∧
        (holdsCore s part c = true → mapFind y.cores c = some k → ∃ w, mapFind v.cores c = some w ∧ w.k = k.k ∧
          w.inq = k.inq ∧ w.inbound = k.inbound ∧ w.outbound = k.outbound ∧ w.tickets = k.tickets ∧ w.srseed = k.srseed ∧
          (∀ i : Fin 8, w.slots[i] = { k.slots[i] with inflight := (w.slots[i]).inflight, wait := (w.slots[i]).wait } ∧
            ∀ q ∈ (w.slots[i]).inflight, q ∈ (k.slots[i]).inflight) ∧
          ∀ ch : Fin 2, (w.chans[ch]).tl = (k.chans[ch]).tl ∧
            (w.chans[ch]).cmds = (k.chans[ch]).cmds.map fun m => match m.phase with
              | .running | .faulted _ _ => { m with
                  first := copyPosition m / cdEsz m.words, landed := [], held := [], pins := [] }
              | _ => m)) ∧
      (holdsCore s part c = true → (∀ i, strandAt kept c i = Strand.free) ∧ (coreOf kept c).inbound = [] ∧
        (coreOf kept c).outbound = [] ∧ (coreOf kept c).inq = Vector.replicate 4 [] ∧
        (coreOf kept c).ecccnt = (coreOf s c).ecccnt)) ∧
    (x.struck = [] → p.held = [] → p.walks = [] → (∀ e ∈ s.queues, queueJob e.2 ≠ job) →
      (∀ e ∈ x.cores, ∀ t ∈ coreStrands e.2, ∀ q ∈ t.2.inflight, q.park = 0) → (x.cores.map fun e => e.1).Nodup →
      back.mem = s.mem ∧ back.net = s.net ++ x.net ∧ (jobOf back job).part = some part ∧
      (partOf back part).phase = .running ∧ (partOf back part).job = job ∧ (partOf back part).units = x.queue ∧
      (partOf back part).norms = x.norms ∧ (partOf back part).nactl = x.nactl ∧
      (partOf back part).swapcnt = p.swapcnt + 1 ∧ (∀ v ∈ (partOf back part).saved, v.job ≠ job) ∧
      (mapFind x.cores c = some k → coreOf back c = { k with
        ecccnt := (coreOf s c).ecccnt, itlb := (coreOf s c).itlb, dtlb := (coreOf s c).dtlb
        agentSeq := (coreOf s c).agentSeq, last0 := (coreOf s c).last0, last1 := (coreOf s c).last1
        run := (coreOf s c).run, halted := false })) ∧
    (partOf free part = Partition.free ∧ free.mem = bare.mem.filter (fun e => !inPart bare e.1) ∧
      free.present = bare.present.filter (fun v => !inPart bare (8 * v)) ∧
      free.net = bare.net.filter (fun v => !packetFor bare part v) ∧
      (∀ j ∈ jobs, (jobOf free j).timelines = [] ∧ (jobOf free j).part = none) ∧
      (∀ v ∈ (partOf bare part).keys, mapFind free.keyInst v = none) ∧
      (holdsCore bare part c = true → (∀ i, strandAt free c i = Strand.free) ∧
        (coreOf free c).k = Vector.replicate 256 0 ∧ (coreOf free c).chans = Core.reset.chans ∧
        (coreOf free c).inbound = [] ∧ (coreOf free c).stores = [] ∧ (coreOf free c).ecccnt = (coreOf bare c).ecccnt)) ∧
    (up.mem = s.mem.filter (fun e => nodeOf e.1 != 0) ∧ up.cores = [] ∧ up.clusters = [] ∧ up.bonds = [] ∧ up.net = [] ∧
      up.parts = [] ∧ up.jobs = [] ∧ up.queues = [] ∧ up.poison = [] ∧ up.tags = [] ∧ up.keyInst = [] ∧
      up.leases = [] ∧ (∀ i : Fin 6, up.plumb[i] = 0) ∧ up.dev.fuses = s.dev.fuses ∧ up.dev.image = s.dev.image ∧
      up.turns = s.turns ∧
      up.dev.ready = (!s.dev.recovery && s.dev.alarm.isNone && !s.dev.shut && s.dev.powered))

/-- R444 to R446, R459, R475 to R479: what the device block does. A reset or power-on brings the device up again, with
memory zero and plumb time 0, unless it is in recovery, alarmed or shut down; firmware with a valid signature (log 22)
and a version from the fuses' count to 64 (log 91) is taken and burns them, and any other leaves the device in recovery;
an alarm takes the keys and holds the device; the power limit stays between 800 and 2000 W; throttling sets a flag (log
96); a synchronisation message lets copies of plumb time that agree within a tick slew by one (log 92). -/
def Obligations.DeviceEvents : Prop :=
  ∀ (image version nonce watts : Nat) (cause : AlarmCause) (down : Bool) (slow fast : BitVec 6) (err : W32) (v : W64)
    (s : State),
    let moves (i : Fin 6) : Bool := bit slow i.val || bit fast i.val
    let by_ (i : Fin 6) : Nat := (if slow != 0 && !bit slow i.val then 1 else 0) + (if bit fast i.val then 1 else 0)
    (exec .deviceReset s = .next (bringUp s) ∧ exec (.hostRegisterWrite .resetDevice v) s = .next (bringUp s) ∧
      exec .powerOn s = .next (bringUp { s with dev := { s.dev with powered := true, shut := false, alarm := none } })) ∧
    (s.dev.powered = true → s.dev.alarm = none →
      exec (.firmwareImage image version) s =
        .next (if Config.imageSigned image = true ∧ s.dev.fuses ≤ version ∧ version ≤ 64 then
          bringUp { s with dev := { s.dev with image := image, fuses := version, recovery := false } }
        else lostState { s with dev := { s.dev with recovery := true } }) ∧
      (∃ t, exec (.securityAlarm cause) s = .next t ∧ t.dev.alarm = some cause ∧ t.dev.ready = false ∧ t.keyInst = [] ∧
        t.cores = [] ∧ ∀ e ∈ t.mem, isSlice e.1 = false)) ∧
    (exec (.attestationRequest nonce) s =
      .next { s with dev := { s.dev with report := some (nonce, Config.signReport nonce s.dev.measures) } }) ∧
    (exec .thermalThrottle s = .next { s with dev := { s.dev with throttled := true } }) ∧
    (exec .thermalShutdown s = .next (lostState { s with dev := { s.dev with powered := false, shut := true } })) ∧
    (exec (.powerLimitSet watts) s =
      .next (if 800 ≤ watts ∧ watts ≤ 2000 then { s with dev := { s.dev with powerLimit := watts } } else s)) ∧
    (exec (.primaryPortDown down) s = .next { s with dev := { s.dev with primaryDown := down } }) ∧
    (s.dev.sync = true →
      exec .synchronisationLost s = .next { s with dev := { s.dev with sync := false, hold := true } }) ∧
    (slow &&& fast = 0 → plumbAgrees s by_ = true →
      (∀ i, moves i = true → s.slewed[i] = 0 ∨ s.slewed[i] + 9999 ≤ s.ticks) →
      exec (.ptpMessage slow fast err) s = .next (noteMet (advancePlumb { s with
        ticks := if slow = 0 then s.ticks else s.ticks + 1
        slewed := Vector.ofFn fun i => if moves i then s.ticks + 1 else s.slewed[i]
        dev := { s.dev with sync := true, hold := false, perr := err } } by_)))

/-! ## Encoding, steps, frames and the whole machine -/

/-- R66 to R84, R92: what a few words decode to, each written out from the fields of its format. -/
def Obligations.InstructionWords : Prop :=
  ∀ e ∈ ([(0x00290601, .add .always (.g 3) (.g 4) (.g 5)), (0x20077061, .sbind .always 0 (some .e)),
      (0x6C2940EB, .csrw 0xD85 (.g 5)), (0x6C00086B, .csrr (.g 4) 0xD80)] : List (Nat × Instr)),
    decode (leBytes 4 e.1) = .ok (e.2, [])

/-- R63 to R86: every well-formed instruction decodes from the bytes that encode it, with every operand at every value,
whatever follows them. -/
def Obligations.EncodedInstructionsDecode : Prop :=
  ∀ (i : Instr) (e : Encoded) (rest : List Byte), encode i = some e → wellFormed i = true →
    decode (leBytes (e.nbits / 8) e.bits ++ rest) = .ok (i, rest)

/-- R80: no two byte strings decode to one instruction, and no bit of an accepted word goes unread: what the decoder
reads encodes to the very bytes it was read from. -/
def Obligations.DecodedBytesReencode : Prop :=
  ∀ (bs rest : List Byte) (i : Instr), decode bs = .ok (i, rest) →
    wellFormed i = true ∧ ∃ e, encode i = some e ∧ bs = leBytes (e.nbits / 8) e.bits ++ rest

/-- R63, R64, R205: a fetch reads one halfword at the PC through the core's own store queue (log 5), and a second when
bit 0 of the first is 1; the strand that the core's choice names among those whose attempt finds them ready (log 6), in
the turn that the environment gives the core (log 1), executes the instruction that these bytes decode to, and the
core's counters note the choice. -/
def Obligations.StepRunsTheDecodedInstruction : Prop :=
  ∀ (c : CoreId) (lz cls : Bool) (i : Slot) (y : Option Slot) (rest : List Turn) (op : Instr) (more : List Byte)
    (w h h2 len : Nat) (s t u v : State) (ref ref2 : Ref) (x x2 : W64),
    (fetchWord s = .ok ((w, len), t) → decode (leBytes len w) = .ok (op, more) → attempt s = exec op t) ∧
    (s.lazy = false → checkAddr s (fetchWho s) .fetch true (me s).pc = .ok ref t →
      strandWord t t.cur (me t).uid t.nextSeq (wordOf ref.loc) ref.key (byteMask (ref.loc % 8) 2) = some (x, false) →
      h = (byteAt x (ref.loc % 8)).toNat + 256 * (byteAt x ((ref.loc + 1) % 8)).toNat → t.lazy = false →
      (h % 2 = 0 → fetchWord s = .ok ((h, 2), t)) ∧
      (h % 2 = 1 → checkAddr t (fetchWho t) .fetch true ((me t).pc + 2) = .ok ref2 u →
        strandWord u u.cur (me u).uid u.nextSeq (wordOf ref2.loc) ref2.key (byteMask (ref2.loc % 8) 2) =
          some (x2, false) →
        h2 = (byteAt x2 (ref2.loc % 8)).toNat + 256 * (byteAt x2 ((ref2.loc + 1) % 8)).toNat → u.lazy = false →
        fetchWord s = .ok ((h + 65536 * h2, 4), u))) ∧
    (let r := openRaised { s with freeCtr := s.freeCtr + 1, turns := rest } c
     let slots := (eligible r c lz).map fun e => e.1
     s.turns = .issue c lz :: rest → coreExists c = true → s.dev.ready = true → (coreOf s c).frozen = none →
     (coreOf s c).halted = false → choose r c slots = some (i, cls, y) →
     attempt { r with cur := c, slot := i, lazy := lz } = .next v →
     step s = .next (closeRaised (noteIssue v c i cls (slots.any fun j => !classOf r c j) y) c))

/-- R9, R101: an instruction that acts as a whole and whose predicate is off has no effect but to let the PC advance by
its 4 bytes: nothing is popped, pushed, accessed, trapped or transferred. R81, R138, R147, R148, R284, R390: a vector
instruction that is off in every lane it could act on retires with no effect: nothing is popped, pushed, written,
accessed or trapped. One with .P pops each of its source views that may be popped, once, and has no other effect; while
such a view is not ready, neither is the instruction. That a view which may not be popped is left alone is the model's
reading (log 98). -/
def Obligations.PredicatedOff : Prop :=
  (∀ (i : Instr) (p : Pred) (s : State), wholePredicate i = some p → predOn s p = false →
     exec i s = .next (advance (ready s) 4)) ∧
  (∀ (p : Pred) (f : LFmt) (vf : VfmaFmt) (h : FmaFmt) (df : DotFmt) (cc : VCond) (op : RedOp) (sr : Bool) (k : VcvtKind)
     (nd : NarrowDst) (wd : WidenDst) (ws : WidenSrc) (part : BitVec 3) (ew : EWidth) (md : LMode) (e : Fin 8) (m : MReg)
     (d a b c : VReg) (x : SReg) (g g2 : GReg) (j : BitVec 5) (t8 : BitVec 8) (off : BitVec 8) (off4 : BitVec 4)
     (na : Fin 16) (s : State),
     let r := ready s
     let off_ (n : Nat) : Prop := ∀ j, j < n → (predMask s p).getLsbD j = false
     let still (l : List Instr) : Prop := ∀ i ∈ l, exec i s = .next (advance r 4)
     let wide (w v : Nat) : Nat := 256 / Nat.max w v
     let popped (u : Uses) (l : List Instr) : Prop :=
       let views := poppable r u
       (views.all (viewReady r false) = true → ∀ i ∈ l, exec i s = .next (advance (views.foldl popOff r) 4)) ∧
       (views.all (viewReady r false) = false → ∀ i ∈ l, exec i s = .next (modMe r fun t => { t with wait := .notReady }))
     (off_ f.lanes →
       still [.vadd p f d a b, .vsub p f d a b, .vmul p f d a b, .vmulh p f d a b, .vmin p f d a b, .vmax p f d a b,
         .vand p f d a b, .vor p f d a b, .vxor p f d a b, .vshl p f d a b, .vshr p f d a b, .vsra p f d a b,
         .vsel p f d a b, .vshuf p f d a b, .vclamp p f e a b, .vbcast p f d a j, .vrot p f d a j, .vlut p f d a b,
         .vcmp p cc f m a b, .vabs p f false d a, .vneg p f false d a, .vmov p f false d a, .vexp2 p f false d a,
         .vlog2 p f false d a, .vrcp p f false d a, .vrsq p f false d a, .vtanh p f false d a, .viota p f false d x,
         .vred p op f false d a] ∧
       popped { srcV := [a] } [.vabs p f true d a, .vneg p f true d a, .vmov p f true d a, .vexp2 p f true d a,
         .vlog2 p f true d a, .vrcp p f true d a, .vrsq p f true d a, .vtanh p f true d a, .vred p op f true d a] ∧
       popped { srcS := [x] } [.viota p f true d x]) ∧
     ((predMask s p).getLsbD j.toNat = false → still [.vins p f e x j]) ∧
     (predMask s p = 0 → still [.vlop3 p e a b t8, .vld p d g md off, .vldIndexed p d g g2, .vst p d g md off,
       .vstIndexed p d g g2]) ∧
     (off_ (match vf with | .fp64 => 4 | .fp32 => 8 | .bf16 | .fp16 => 16) → still [.vfma p vf d a b c]) ∧
     (off_ (match h with | .fp64 => 4 | .fp32 => 8) → still [.vfms p h d a b c]) ∧
     (off_ (wide (vcvtWidths k).1 (vcvtWidths k).2) → still [.vcvt p sr k part d a]) ∧
     (off_ (wide 32 nd.width) → still [.vnarrow p sr nd part d a]) ∧
     (off_ (wide ws.width wd.width) → still [.vwiden p wd ws part d a]) ∧
     (off_ (256 / ewBits ew) → still [.vgath p d g ew a, .vscat p d g ew a, .vstt p d g md g2 ew]) ∧
     (off_ 8 → still [.vdot p df d a b c, .stn p d g md off4 na, .movk p (.vector d) t8, .movtk p t8 (.vector d)]) ∧
     (off_ 4 → still [.vldp p d g md off, .vldpIndexed p d g g2, .vstp p d g md off, .vstpIndexed p d g g2]))

/-- The frame of the integer and floating-point register operations: nothing but the destination, the PC, the views they
pop or push and, for floating point, FCSR's flags and those of its cluster's CFU changes, and for a conversion with .SR
the core's SRSEED (R11, R16, R21, R46, R104 to R111, R140 to R146). A floating-point operation that raises a flag whose
enable is set takes the trap of cause 0x04 in place of that. -/
def Obligations.ScalarRegisterFrame : Prop :=
  ∀ (p : Pred) (f f2 : FFmt) (fm : FmaFmt) (b8 : B8) (sr : Bool) (it : IFmt) (rc : RCode) (d a b c : SReg) (g : GReg)
    (k k1 k2 : MReg) (m : BitVec 13) (n : BitVec 6) (t8 : BitVec 8) (up : BitVec 18) (i : Instr) (s t : State),
    let u1 : Uses := { srcS := [a], dstS := [d] }
    let u2 : Uses := { srcS := [a, b], dstS := [d] }
    let u3 : Uses := { srcS := [a, b, c], dstS := [d] }
    let only (u : Uses) (gs : List (Fin 24)) (ms : List (Fin 4)) : Prop :=
      WritesAtMost s t u false gs [] ms ∧ (me t).fcsr = (me s).fcsr ∧ t.clusters = s.clusters
    let fp (u : Uses) (sr : Bool) : Prop := WritesAtMost s t u sr (gOf d) [] [] ∨ FlagTrapped s t 4
    let um (l : List SReg) : Uses := { dstS := l }
    predOn s p = true → exec i s = .next t →
    (Operable (ready s) u2 → i ∈ ([.add p d a b, .sub p d a b, .and p d a b, .or p d a b, .xor p d a b, .andn p d a b,
        .orn p d a b, .sll p d a b, .srl p d a b, .sra p d a b, .rol p d a b, .ror p d a b, .min p d a b, .max p d a b,
        .minu p d a b, .maxu p d a b, .slt p d a b, .sltu p d a b, .seq p d a b, .sne p d a b, .mul p d a b,
        .mulh p d a b, .mulhu p d a b, .div p d a b, .divu p d a b, .rem p d a b, .remu p d a b, .fshl p d a b n,
        .fshr p d a b n] : List Instr) → only u2 (gOf d) []) ∧
    (Operable (ready s) u1 → i ∈ ([.addi p d a m, .andi p d a m, .ori p d a m, .xori p d a m, .slti p d a m,
        .sltiu p d a m, .slli p d a n, .srli p d a n, .srai p d a n, .roli p d a n, .clz p d a, .ctz p d a, .popc p d a,
        .brev p d a, .bswap p d a, .sextB p d a, .sextH p d a, .sextW p d a, .zextB p d a, .zextH p d a, .zextW p d a] :
        List Instr) → only u1 (gOf d) []) ∧
    (Operable (ready s) { srcS := [.g g, a, b], dstS := [.g g] } →
      i ∈ ([.sel p g a b, .lop3 p g a b t8] : List Instr) → only { srcS := [a, b] } [g] []) ∧
    (Operable (ready s) (um [d]) → i ∈ ([.lui d up, .auipc d up, .getm p d k] : List Instr) → only (um [d]) (gOf d) []) ∧
    (Operable (ready s) { srcS := [a] } → i = .setm p k a → only { srcS := [a] } [] [k]) ∧
    (i ∈ ([.mand p k k1 k2, .mor p k k1 k2, .mnot p k k1] : List Instr) → only (um []) [] [k]) ∧
    (Operable (ready s) u2 → i ∈ ([.fadd p f d a b, .fsub p f d a b, .fmul p f d a b, .fdiv p f d a b, .fmin p f d a b,
        .fmax p f d a b, .fsgn p f d a b, .fcmp p f d a b] : List Instr) → fp u2 false) ∧
    (Operable (ready s) u1 →
      (i ∈ ([.fsqrt p f d a, .fclass p f d a, .fcvtB8ToWide p f b8 d a, .fcvti p f it rc d a, .icvtf p f it rc d a,
        .frnd p f rc d a] : List Instr) → fp u1 false) ∧
      (i ∈ ([.fcvt p sr f f2 d a, .fcvtWideToB8 p sr f b8 d a] : List Instr) → fp u1 sr)) ∧
    (Operable (ready s) u3 → i ∈ ([.fma p fm d a b c, .fms p fm d a b c, .fnma p fm d a b c] : List Instr) → fp u3 false)

/-- The frame of the vector operations: nothing but the enabled lanes of the destination, the PC, the views they pop or
push and the flags of FCSR and CFU changes, and for a conversion with .SR the core's SRSEED; no lane changes that the
predicate does not enable, or, in a conversion, that it does not write to. VRED writes every lane (R9, R11, R21, R46,
R149 to R163, R165). An operation that raises a flag whose enable is set takes the trap of cause 0x04 in place of that
(R16). -/
def Obligations.VectorRegisterFrame : Prop :=
  ∀ (p : Pred) (f : LFmt) (vf : VfmaFmt) (h : FmaFmt) (df : DotFmt) (op : RedOp) (dotP sr : Bool) (ck : VcvtKind)
    (nd : NarrowDst) (wd : WidenDst) (ws : WidenSrc) (part : BitVec 3) (d a b c : VReg) (e : Fin 8) (x y : SReg)
    (cc : VCond) (m : MReg) (k : BitVec 5) (t8 : BitVec 8) (i : Instr) (s t : State),
    let r := ready s
    let u1 : Uses := { srcV := [a], dstV := [d] }
    let u2 : Uses := { srcV := [a, b], dstV := [d] }
    let u3 : Uses := { srcV := [a, b, c], dstV := [d] }
    let ue : Uses := { srcV := [.v e, a, b], dstV := [.v e] }
    let ux : Uses := { srcS := [x], dstV := [d] }
    let ui : Uses := { srcS := [x], srcV := [.v e], dstV := [.v e] }
    let uy : Uses := { srcV := [a], dstS := [y] }
    let un : Uses := { srcV := [a, .v 0], dstV := [d] }
    let ud : Uses := { srcV := [d, b], dstV := [d] }
    let ub : Uses := { srcV := [b], dstV := [d] }
    let um : Uses := { srcV := [d, b, .v 0], dstV := [d] }
    let uc : Uses := { srcV := [a, b] }
    let kept (w : Nat) : Prop := ∀ (z : Fin 8) (j : Nat), j < 256 / w → (predMask s p).getLsbD j = false →
      lane (me t).v[z] w j = lane (me s).v[z] w j
    let converted (w v : Nat) : Prop := ∀ (z : Fin 8) (q : Nat), q < 256 / v →
      (∀ j, j < 256 / Nat.max w v → (predMask s p).getLsbD j = true →
        (if v < w then part.toNat * (256 / Nat.max w v) + j else j) ≠ q) → lane (me t).v[z] v q = lane (me s).v[z] v q
    let upto (u : Uses) (l : List (Fin 8)) (also : Prop) : Prop :=
      Operable r u → (WritesAtMost s t u false [] l [] ∧ also) ∨ FlagTrapped s t 4
    let short (u : Uses) : Prop := Operable r u → WritesAtMost s t u false [] (vOf d) [] ∨ FlagTrapped s t 2
    (∃ j, j < f.lanes ∧ (predMask s p).getLsbD j = true) → exec i s = .next t →
    (i ∈ ([.vadd p f d a b, .vsub p f d a b, .vmul p f d a b, .vmulh p f d a b, .vmin p f d a b,
        .vmax p f d a b, .vand p f d a b, .vor p f d a b, .vxor p f d a b, .vshl p f d a b, .vshr p f d a b,
        .vsra p f d a b, .vsel p f d a b, .vshuf p f d a b, .vlut p f d a b] : List Instr) →
      upto u2 (vOf d) (kept f.width)) ∧
    (i ∈ ([.vabs p f dotP d a, .vneg p f dotP d a, .vmov p f dotP d a, .vbcast p f d a k, .vrot p f d a k,
        .vexp2 p f dotP d a, .vlog2 p f dotP d a, .vrcp p f dotP d a, .vrsq p f dotP d a, .vtanh p f dotP d a] :
        List Instr) → upto u1 (vOf d) (kept f.width)) ∧
    (i = .viota p f dotP d x → upto ux (vOf d) (kept f.width)) ∧
    (i = .vclamp p f e a b → upto ue [e] (kept f.width)) ∧
    (i = .vlop3 p e a b t8 → upto ue [e] (kept 8)) ∧
    (i = .vins p f e x k → upto ui [e]
      (∀ j, j < f.lanes → j ≠ k.toNat → lane (me t).v[e] f.width j = lane (me s).v[e] f.width j)) ∧
    (Operable r uy → i = .vext p f y a k → WritesAtMost s t uy false (gOf y) [] []) ∧
    (i = .vred p op f dotP d a → upto u1 (vOf d) True) ∧
    (i = .vfma p vf d a b c → upto u3 (vOf d) (kept (match vf with | .fp64 => 64 | .fp32 => 32 | .bf16 | .fp16 => 16))) ∧
    (i = .vfms p h d a b c → upto u3 (vOf d) (kept (match h with | .fp64 => 64 | .fp32 => 32))) ∧
    (i = .vdot p df d a b c → upto u3 (vOf d) (kept 32)) ∧
    (Operable r u1 → i = .vcvt p sr ck part d a → (WritesAtMost s t u1 sr [] (vOf d) [] ∧
      converted (vcvtWidths ck).1 (vcvtWidths ck).2) ∨ FlagTrapped s t 4) ∧
    (Operable r un → i = .vnarrow p sr nd part d a → (WritesAtMost s t un sr [] (vOf d) [] ∧ converted 32 nd.width) ∨
      FlagTrapped s t 4) ∧
    (i = .vwiden p wd ws part d a → upto un (vOf d) (converted ws.width wd.width)) ∧
    (i ∈ ([.cVadd f d b, .cVsub f d b, .cVmul f d b, .cVmin f d b, .cVmax f d b, .cVand f d b, .cVor f d b, .cVxor f d b,
        .cVshl f d b, .cVshr f d b, .cVsra f d b] : List Instr) → short ud) ∧
    (i ∈ ([.cVmov f d b, .cVabs f d b, .cVneg f d b, .cVbcast f d b] : List Instr) → short ub) ∧
    (i = .cVmac f d b → short um) ∧
    (Operable r uc → i = .vcmp p cc f m a b → WritesAtMost s t uc false [] [] [m] ∨ FlagTrapped s t 4)

/-- R479, and what R46 gives, of the state that the model takes for the reset state, which is that after step 8 of R479
(log 10): every byte reads 0 and no word is poisoned or present, plumb time is 0 everywhere, every strand slot is free,
every accumulator lane is zero (log 11), SRSEED holds its reset value, no partition holds a cluster and no bond, packet
or lease exists. -/
def Obligations.ResetState : Prop :=
  let s := State.reset
  (∀ k, memGet s.mem k = 0) ∧ s.poison = [] ∧ s.present = [] ∧ s.tags = [] ∧ s.net = [] ∧ s.leases = [] ∧
  s.bonds = [] ∧ s.dev.ready = true ∧ (∀ i : Fin 6, s.plumb[i] = 0) ∧
  (∀ c i, (strandAt s c i).occ = false) ∧ (∀ c (n : Fin 256), (coreOf s c).k[n] = 0) ∧
  (∀ c, (coreOf s c).srseed = 0x5A17C3E90B64D2F1) ∧ SeedsLegal s ∧ (∀ p, (partOf s p).clusters = []) ∧
  (∀ q, queueEn (queueOf s q) = false)

/-- Memory in canonical form (R2, R277): a byte written is read back and no other byte changes, a masked word write
changes just the bytes its mask names, the form is kept, and two memories that read alike are one. -/
def Obligations.MemoryReadsBack : Prop :=
  ∀ (m n : List Host.Cell) (loc k i : Nat) (b : Byte) (mask : BitVec 8) (v : W64),
    Memory.wf m = true → Memory.wf n = true →
    (memGet (memSet loc b m) k = if k = loc then b else memGet m k) ∧ Memory.wf (memSet loc b m) = true ∧
    Memory.wf (memPut m loc mask v 8) = true ∧
    (i < 8 → memGet (memPut m loc mask v 8) (loc + i) =
      if mask.getLsbD i then v.extractLsb' (8 * i) 8 else memGet m (loc + i)) ∧
    (i < 8 → (memWord 64 m loc 8).extractLsb' (8 * i) 8 = memGet m (loc + i)) ∧
    (k < loc ∨ loc + 8 ≤ k → memGet (memPut m loc mask v 8) k = memGet m k) ∧
    ((∀ j, memGet m j = memGet n j) → m = n)

/-- After reset, memory is in canonical form, no generator is in the reserved state 0, and every queue is within its
places: what the steps then keep. -/
def Obligations.InvariantsHoldAfterReset : Prop :=
  Memory.wf State.reset.mem = true ∧ SeedsLegal State.reset ∧ QueuesFit State.reset ∧ PortQueuesFit State.reset

/-- Every step, whatever the environment's turn, keeps memory in canonical form. -/
def Obligations.MemoryStaysCanonical : Prop :=
  ∀ s t : State, Memory.wf s.mem = true → step s = .next t → Memory.wf t.mem = true

/-- R46: SRSEED, whose value 0 is reserved, never becomes 0: every step, whatever the environment's turn, keeps the
generator of every core, and of every core of a saved context, at another value. -/
def Obligations.SeedsStayLegal : Prop :=
  ∀ s t : State, SeedsLegal s → step s = .next t → SeedsLegal t

/-- R200, R209, R345, R358, R366, R409: every step, whatever the environment's turn, keeps the outbound buffers within 8
places, the inbound queues within 16, the mailboxes within 64, and the commands of each channel, footing unit, exchange
engine and sequencer within 16, on the machine and in saved contexts. That strands which a restart starts again wait
without an entry of the inbound queue is the model's choice (log 138). -/
def Obligations.MessageQueuesStayBounded : Prop :=
  ∀ s t : State, QueuesFit s → step s = .next t → QueuesFit t

/-- R227, R228, R441: every step, whatever the environment's turn, keeps each port queue and each seam buffer within
four entries, on the machine and in saved contexts. -/
def Obligations.PortQueuesStayBounded : Prop :=
  ∀ s t : State, PortQueuesFit s → step s = .next t → PortQueuesFit t

/-- R11, R80, R81: no instruction and no step of the part ends a run: each answers a next state in every state; a step
of the part whose conditions do not hold leaves the state unchanged (log 8), a step refuses nothing, and it faults only
on a turn that names a unit the package does not have (log 8). -/
def Obligations.NothingEndsARun : Prop :=
  (∀ (i : Instr) (s : State), ∃ t, exec i s = .next t) ∧
  (∀ (s : State) (r : Refusal), step s ≠ .refused r) ∧
  (∀ (s : State) (f : Fault), step s = .fault f → ∃ t rest, s.turns = t :: rest ∧ turnExists t = false)
end

