-- ==== Sys2Proof/Laws/State.lean ====
section
/-!
SUPPORT. What each change of a record of the state leaves alone, field by field, and what it is read back as.
-/
set_option Elab.async false
namespace Sys2Proof.Machine

/-! ## Fields that a change of one record leaves alone -/

section
variable (s : State) (c : CoreId) (k : Core)
@[simp] theorem setCore_turns : (setCore s c k).turns = s.turns := rfl
@[simp] theorem setCore_cur : (setCore s c k).cur = s.cur := rfl
@[simp] theorem setCore_slot : (setCore s c k).slot = s.slot := rfl
@[simp] theorem setCore_lazy : (setCore s c k).lazy = s.lazy := rfl
@[simp] theorem setCore_nextUid : (setCore s c k).nextUid = s.nextUid := rfl
@[simp] theorem setCore_nextSeq : (setCore s c k).nextSeq = s.nextSeq := rfl
@[simp] theorem setCore_freeCtr : (setCore s c k).freeCtr = s.freeCtr := rfl
@[simp] theorem setCore_mem : (setCore s c k).mem = s.mem := rfl
@[simp] theorem setCore_poison : (setCore s c k).poison = s.poison := rfl
@[simp] theorem setCore_present : (setCore s c k).present = s.present := rfl
@[simp] theorem setCore_lineKey : (setCore s c k).lineKey = s.lineKey := rfl
@[simp] theorem setCore_keyInst : (setCore s c k).keyInst = s.keyInst := rfl
@[simp] theorem setCore_tags : (setCore s c k).tags = s.tags := rfl
@[simp] theorem setCore_misses : (setCore s c k).misses = s.misses := rfl
@[simp] theorem setCore_asked : (setCore s c k).asked = s.asked := rfl
@[simp] theorem setCore_clusters : (setCore s c k).clusters = s.clusters := rfl
@[simp] theorem setCore_dies : (setCore s c k).dies = s.dies := rfl
@[simp] theorem setCore_bonds : (setCore s c k).bonds = s.bonds := rfl
@[simp] theorem setCore_nextBond : (setCore s c k).nextBond = s.nextBond := rfl
@[simp] theorem setCore_jobs : (setCore s c k).jobs = s.jobs := rfl
@[simp] theorem setCore_parts : (setCore s c k).parts = s.parts := rfl
@[simp] theorem setCore_queues : (setCore s c k).queues = s.queues := rfl
@[simp] theorem setCore_net : (setCore s c k).net = s.net := rfl
@[simp] theorem setCore_exchange : (setCore s c k).exchange = s.exchange := rfl
@[simp] theorem setCore_leases : (setCore s c k).leases = s.leases := rfl
@[simp] theorem setCore_exports : (setCore s c k).exports = s.exports := rfl
@[simp] theorem setCore_revoked : (setCore s c k).revoked = s.revoked := rfl
@[simp] theorem setCore_paths : (setCore s c k).paths = s.paths := rfl
@[simp] theorem setCore_flash : (setCore s c k).flash = s.flash := rfl
@[simp] theorem setCore_plumb : (setCore s c k).plumb = s.plumb := rfl
@[simp] theorem setCore_slewed : (setCore s c k).slewed = s.slewed := rfl
@[simp] theorem setCore_ticks : (setCore s c k).ticks = s.ticks := rfl
@[simp] theorem setCore_dev : (setCore s c k).dev = s.dev := rfl
end

section
variable (s : State) (c : CoreId) (f : Core → Core)
@[simp] theorem modCore_turns : (modCore s c f).turns = s.turns := rfl
@[simp] theorem modCore_cur : (modCore s c f).cur = s.cur := rfl
@[simp] theorem modCore_slot : (modCore s c f).slot = s.slot := rfl
@[simp] theorem modCore_lazy : (modCore s c f).lazy = s.lazy := rfl
@[simp] theorem modCore_nextUid : (modCore s c f).nextUid = s.nextUid := rfl
@[simp] theorem modCore_nextSeq : (modCore s c f).nextSeq = s.nextSeq := rfl
@[simp] theorem modCore_freeCtr : (modCore s c f).freeCtr = s.freeCtr := rfl
@[simp] theorem modCore_mem : (modCore s c f).mem = s.mem := rfl
@[simp] theorem modCore_poison : (modCore s c f).poison = s.poison := rfl
@[simp] theorem modCore_present : (modCore s c f).present = s.present := rfl
@[simp] theorem modCore_lineKey : (modCore s c f).lineKey = s.lineKey := rfl
@[simp] theorem modCore_keyInst : (modCore s c f).keyInst = s.keyInst := rfl
@[simp] theorem modCore_tags : (modCore s c f).tags = s.tags := rfl
@[simp] theorem modCore_misses : (modCore s c f).misses = s.misses := rfl
@[simp] theorem modCore_asked : (modCore s c f).asked = s.asked := rfl
@[simp] theorem modCore_clusters : (modCore s c f).clusters = s.clusters := rfl
@[simp] theorem modCore_dies : (modCore s c f).dies = s.dies := rfl
@[simp] theorem modCore_bonds : (modCore s c f).bonds = s.bonds := rfl
@[simp] theorem modCore_nextBond : (modCore s c f).nextBond = s.nextBond := rfl
@[simp] theorem modCore_jobs : (modCore s c f).jobs = s.jobs := rfl
@[simp] theorem modCore_parts : (modCore s c f).parts = s.parts := rfl
@[simp] theorem modCore_queues : (modCore s c f).queues = s.queues := rfl
@[simp] theorem modCore_net : (modCore s c f).net = s.net := rfl
@[simp] theorem modCore_exchange : (modCore s c f).exchange = s.exchange := rfl
@[simp] theorem modCore_leases : (modCore s c f).leases = s.leases := rfl
@[simp] theorem modCore_exports : (modCore s c f).exports = s.exports := rfl
@[simp] theorem modCore_revoked : (modCore s c f).revoked = s.revoked := rfl
@[simp] theorem modCore_paths : (modCore s c f).paths = s.paths := rfl
@[simp] theorem modCore_flash : (modCore s c f).flash = s.flash := rfl
@[simp] theorem modCore_plumb : (modCore s c f).plumb = s.plumb := rfl
@[simp] theorem modCore_slewed : (modCore s c f).slewed = s.slewed := rfl
@[simp] theorem modCore_ticks : (modCore s c f).ticks = s.ticks := rfl
@[simp] theorem modCore_dev : (modCore s c f).dev = s.dev := rfl
end

section
variable (s : State) (c : CoreId) (i : Slot) (f : Strand → Strand)
@[simp] theorem modStrand_turns : (modStrand s c i f).turns = s.turns := rfl
@[simp] theorem modStrand_cur : (modStrand s c i f).cur = s.cur := rfl
@[simp] theorem modStrand_slot : (modStrand s c i f).slot = s.slot := rfl
@[simp] theorem modStrand_lazy : (modStrand s c i f).lazy = s.lazy := rfl
@[simp] theorem modStrand_nextUid : (modStrand s c i f).nextUid = s.nextUid := rfl
@[simp] theorem modStrand_nextSeq : (modStrand s c i f).nextSeq = s.nextSeq := rfl
@[simp] theorem modStrand_freeCtr : (modStrand s c i f).freeCtr = s.freeCtr := rfl
@[simp] theorem modStrand_mem : (modStrand s c i f).mem = s.mem := rfl
@[simp] theorem modStrand_poison : (modStrand s c i f).poison = s.poison := rfl
@[simp] theorem modStrand_present : (modStrand s c i f).present = s.present := rfl
@[simp] theorem modStrand_lineKey : (modStrand s c i f).lineKey = s.lineKey := rfl
@[simp] theorem modStrand_keyInst : (modStrand s c i f).keyInst = s.keyInst := rfl
@[simp] theorem modStrand_tags : (modStrand s c i f).tags = s.tags := rfl
@[simp] theorem modStrand_misses : (modStrand s c i f).misses = s.misses := rfl
@[simp] theorem modStrand_asked : (modStrand s c i f).asked = s.asked := rfl
@[simp] theorem modStrand_clusters : (modStrand s c i f).clusters = s.clusters := rfl
@[simp] theorem modStrand_dies : (modStrand s c i f).dies = s.dies := rfl
@[simp] theorem modStrand_bonds : (modStrand s c i f).bonds = s.bonds := rfl
@[simp] theorem modStrand_nextBond : (modStrand s c i f).nextBond = s.nextBond := rfl
@[simp] theorem modStrand_jobs : (modStrand s c i f).jobs = s.jobs := rfl
@[simp] theorem modStrand_parts : (modStrand s c i f).parts = s.parts := rfl
@[simp] theorem modStrand_queues : (modStrand s c i f).queues = s.queues := rfl
@[simp] theorem modStrand_net : (modStrand s c i f).net = s.net := rfl
@[simp] theorem modStrand_exchange : (modStrand s c i f).exchange = s.exchange := rfl
@[simp] theorem modStrand_leases : (modStrand s c i f).leases = s.leases := rfl
@[simp] theorem modStrand_exports : (modStrand s c i f).exports = s.exports := rfl
@[simp] theorem modStrand_revoked : (modStrand s c i f).revoked = s.revoked := rfl
@[simp] theorem modStrand_paths : (modStrand s c i f).paths = s.paths := rfl
@[simp] theorem modStrand_flash : (modStrand s c i f).flash = s.flash := rfl
@[simp] theorem modStrand_plumb : (modStrand s c i f).plumb = s.plumb := rfl
@[simp] theorem modStrand_slewed : (modStrand s c i f).slewed = s.slewed := rfl
@[simp] theorem modStrand_ticks : (modStrand s c i f).ticks = s.ticks := rfl
@[simp] theorem modStrand_dev : (modStrand s c i f).dev = s.dev := rfl
end

section
variable (s : State) (f : Strand → Strand)
@[simp] theorem modMe_turns : (modMe s f).turns = s.turns := rfl
@[simp] theorem modMe_cur : (modMe s f).cur = s.cur := rfl
@[simp] theorem modMe_slot : (modMe s f).slot = s.slot := rfl
@[simp] theorem modMe_lazy : (modMe s f).lazy = s.lazy := rfl
@[simp] theorem modMe_nextUid : (modMe s f).nextUid = s.nextUid := rfl
@[simp] theorem modMe_nextSeq : (modMe s f).nextSeq = s.nextSeq := rfl
@[simp] theorem modMe_freeCtr : (modMe s f).freeCtr = s.freeCtr := rfl
@[simp] theorem modMe_mem : (modMe s f).mem = s.mem := rfl
@[simp] theorem modMe_poison : (modMe s f).poison = s.poison := rfl
@[simp] theorem modMe_present : (modMe s f).present = s.present := rfl
@[simp] theorem modMe_lineKey : (modMe s f).lineKey = s.lineKey := rfl
@[simp] theorem modMe_keyInst : (modMe s f).keyInst = s.keyInst := rfl
@[simp] theorem modMe_tags : (modMe s f).tags = s.tags := rfl
@[simp] theorem modMe_misses : (modMe s f).misses = s.misses := rfl
@[simp] theorem modMe_asked : (modMe s f).asked = s.asked := rfl
@[simp] theorem modMe_clusters : (modMe s f).clusters = s.clusters := rfl
@[simp] theorem modMe_dies : (modMe s f).dies = s.dies := rfl
@[simp] theorem modMe_bonds : (modMe s f).bonds = s.bonds := rfl
@[simp] theorem modMe_nextBond : (modMe s f).nextBond = s.nextBond := rfl
@[simp] theorem modMe_jobs : (modMe s f).jobs = s.jobs := rfl
@[simp] theorem modMe_parts : (modMe s f).parts = s.parts := rfl
@[simp] theorem modMe_queues : (modMe s f).queues = s.queues := rfl
@[simp] theorem modMe_net : (modMe s f).net = s.net := rfl
@[simp] theorem modMe_exchange : (modMe s f).exchange = s.exchange := rfl
@[simp] theorem modMe_leases : (modMe s f).leases = s.leases := rfl
@[simp] theorem modMe_exports : (modMe s f).exports = s.exports := rfl
@[simp] theorem modMe_revoked : (modMe s f).revoked = s.revoked := rfl
@[simp] theorem modMe_paths : (modMe s f).paths = s.paths := rfl
@[simp] theorem modMe_flash : (modMe s f).flash = s.flash := rfl
@[simp] theorem modMe_plumb : (modMe s f).plumb = s.plumb := rfl
@[simp] theorem modMe_slewed : (modMe s f).slewed = s.slewed := rfl
@[simp] theorem modMe_ticks : (modMe s f).ticks = s.ticks := rfl
@[simp] theorem modMe_dev : (modMe s f).dev = s.dev := rfl
end

section
variable (s : State) (c : CoreId) (n : StreamId) (f : Stream → Stream)
@[simp] theorem modStream_turns : (modStream s c n f).turns = s.turns := rfl
@[simp] theorem modStream_cur : (modStream s c n f).cur = s.cur := rfl
@[simp] theorem modStream_slot : (modStream s c n f).slot = s.slot := rfl
@[simp] theorem modStream_lazy : (modStream s c n f).lazy = s.lazy := rfl
@[simp] theorem modStream_nextUid : (modStream s c n f).nextUid = s.nextUid := rfl
@[simp] theorem modStream_nextSeq : (modStream s c n f).nextSeq = s.nextSeq := rfl
@[simp] theorem modStream_freeCtr : (modStream s c n f).freeCtr = s.freeCtr := rfl
@[simp] theorem modStream_mem : (modStream s c n f).mem = s.mem := rfl
@[simp] theorem modStream_poison : (modStream s c n f).poison = s.poison := rfl
@[simp] theorem modStream_present : (modStream s c n f).present = s.present := rfl
@[simp] theorem modStream_lineKey : (modStream s c n f).lineKey = s.lineKey := rfl
@[simp] theorem modStream_keyInst : (modStream s c n f).keyInst = s.keyInst := rfl
@[simp] theorem modStream_tags : (modStream s c n f).tags = s.tags := rfl
@[simp] theorem modStream_misses : (modStream s c n f).misses = s.misses := rfl
@[simp] theorem modStream_asked : (modStream s c n f).asked = s.asked := rfl
@[simp] theorem modStream_clusters : (modStream s c n f).clusters = s.clusters := rfl
@[simp] theorem modStream_dies : (modStream s c n f).dies = s.dies := rfl
@[simp] theorem modStream_bonds : (modStream s c n f).bonds = s.bonds := rfl
@[simp] theorem modStream_nextBond : (modStream s c n f).nextBond = s.nextBond := rfl
@[simp] theorem modStream_jobs : (modStream s c n f).jobs = s.jobs := rfl
@[simp] theorem modStream_parts : (modStream s c n f).parts = s.parts := rfl
@[simp] theorem modStream_queues : (modStream s c n f).queues = s.queues := rfl
@[simp] theorem modStream_net : (modStream s c n f).net = s.net := rfl
@[simp] theorem modStream_exchange : (modStream s c n f).exchange = s.exchange := rfl
@[simp] theorem modStream_leases : (modStream s c n f).leases = s.leases := rfl
@[simp] theorem modStream_exports : (modStream s c n f).exports = s.exports := rfl
@[simp] theorem modStream_revoked : (modStream s c n f).revoked = s.revoked := rfl
@[simp] theorem modStream_paths : (modStream s c n f).paths = s.paths := rfl
@[simp] theorem modStream_flash : (modStream s c n f).flash = s.flash := rfl
@[simp] theorem modStream_plumb : (modStream s c n f).plumb = s.plumb := rfl
@[simp] theorem modStream_slewed : (modStream s c n f).slewed = s.slewed := rfl
@[simp] theorem modStream_ticks : (modStream s c n f).ticks = s.ticks := rfl
@[simp] theorem modStream_dev : (modStream s c n f).dev = s.dev := rfl
end

section
variable (s : State) (c : CoreId) (i : Fin 4) (f : Ticket → Ticket)
@[simp] theorem modTicket_turns : (modTicket s c i f).turns = s.turns := rfl
@[simp] theorem modTicket_cur : (modTicket s c i f).cur = s.cur := rfl
@[simp] theorem modTicket_slot : (modTicket s c i f).slot = s.slot := rfl
@[simp] theorem modTicket_lazy : (modTicket s c i f).lazy = s.lazy := rfl
@[simp] theorem modTicket_nextUid : (modTicket s c i f).nextUid = s.nextUid := rfl
@[simp] theorem modTicket_nextSeq : (modTicket s c i f).nextSeq = s.nextSeq := rfl
@[simp] theorem modTicket_freeCtr : (modTicket s c i f).freeCtr = s.freeCtr := rfl
@[simp] theorem modTicket_mem : (modTicket s c i f).mem = s.mem := rfl
@[simp] theorem modTicket_poison : (modTicket s c i f).poison = s.poison := rfl
@[simp] theorem modTicket_present : (modTicket s c i f).present = s.present := rfl
@[simp] theorem modTicket_lineKey : (modTicket s c i f).lineKey = s.lineKey := rfl
@[simp] theorem modTicket_keyInst : (modTicket s c i f).keyInst = s.keyInst := rfl
@[simp] theorem modTicket_tags : (modTicket s c i f).tags = s.tags := rfl
@[simp] theorem modTicket_misses : (modTicket s c i f).misses = s.misses := rfl
@[simp] theorem modTicket_asked : (modTicket s c i f).asked = s.asked := rfl
@[simp] theorem modTicket_clusters : (modTicket s c i f).clusters = s.clusters := rfl
@[simp] theorem modTicket_dies : (modTicket s c i f).dies = s.dies := rfl
@[simp] theorem modTicket_bonds : (modTicket s c i f).bonds = s.bonds := rfl
@[simp] theorem modTicket_nextBond : (modTicket s c i f).nextBond = s.nextBond := rfl
@[simp] theorem modTicket_jobs : (modTicket s c i f).jobs = s.jobs := rfl
@[simp] theorem modTicket_parts : (modTicket s c i f).parts = s.parts := rfl
@[simp] theorem modTicket_queues : (modTicket s c i f).queues = s.queues := rfl
@[simp] theorem modTicket_net : (modTicket s c i f).net = s.net := rfl
@[simp] theorem modTicket_exchange : (modTicket s c i f).exchange = s.exchange := rfl
@[simp] theorem modTicket_leases : (modTicket s c i f).leases = s.leases := rfl
@[simp] theorem modTicket_exports : (modTicket s c i f).exports = s.exports := rfl
@[simp] theorem modTicket_revoked : (modTicket s c i f).revoked = s.revoked := rfl
@[simp] theorem modTicket_paths : (modTicket s c i f).paths = s.paths := rfl
@[simp] theorem modTicket_flash : (modTicket s c i f).flash = s.flash := rfl
@[simp] theorem modTicket_plumb : (modTicket s c i f).plumb = s.plumb := rfl
@[simp] theorem modTicket_slewed : (modTicket s c i f).slewed = s.slewed := rfl
@[simp] theorem modTicket_ticks : (modTicket s c i f).ticks = s.ticks := rfl
@[simp] theorem modTicket_dev : (modTicket s c i f).dev = s.dev := rfl
end

section
variable (s : State) (c : Nat) (f : Cluster → Cluster)
@[simp] theorem modCluster_turns : (modCluster s c f).turns = s.turns := rfl
@[simp] theorem modCluster_cur : (modCluster s c f).cur = s.cur := rfl
@[simp] theorem modCluster_slot : (modCluster s c f).slot = s.slot := rfl
@[simp] theorem modCluster_lazy : (modCluster s c f).lazy = s.lazy := rfl
@[simp] theorem modCluster_nextUid : (modCluster s c f).nextUid = s.nextUid := rfl
@[simp] theorem modCluster_nextSeq : (modCluster s c f).nextSeq = s.nextSeq := rfl
@[simp] theorem modCluster_freeCtr : (modCluster s c f).freeCtr = s.freeCtr := rfl
@[simp] theorem modCluster_mem : (modCluster s c f).mem = s.mem := rfl
@[simp] theorem modCluster_poison : (modCluster s c f).poison = s.poison := rfl
@[simp] theorem modCluster_present : (modCluster s c f).present = s.present := rfl
@[simp] theorem modCluster_lineKey : (modCluster s c f).lineKey = s.lineKey := rfl
@[simp] theorem modCluster_keyInst : (modCluster s c f).keyInst = s.keyInst := rfl
@[simp] theorem modCluster_tags : (modCluster s c f).tags = s.tags := rfl
@[simp] theorem modCluster_misses : (modCluster s c f).misses = s.misses := rfl
@[simp] theorem modCluster_asked : (modCluster s c f).asked = s.asked := rfl
@[simp] theorem modCluster_cores : (modCluster s c f).cores = s.cores := rfl
@[simp] theorem modCluster_dies : (modCluster s c f).dies = s.dies := rfl
@[simp] theorem modCluster_bonds : (modCluster s c f).bonds = s.bonds := rfl
@[simp] theorem modCluster_nextBond : (modCluster s c f).nextBond = s.nextBond := rfl
@[simp] theorem modCluster_jobs : (modCluster s c f).jobs = s.jobs := rfl
@[simp] theorem modCluster_parts : (modCluster s c f).parts = s.parts := rfl
@[simp] theorem modCluster_queues : (modCluster s c f).queues = s.queues := rfl
@[simp] theorem modCluster_net : (modCluster s c f).net = s.net := rfl
@[simp] theorem modCluster_exchange : (modCluster s c f).exchange = s.exchange := rfl
@[simp] theorem modCluster_leases : (modCluster s c f).leases = s.leases := rfl
@[simp] theorem modCluster_exports : (modCluster s c f).exports = s.exports := rfl
@[simp] theorem modCluster_revoked : (modCluster s c f).revoked = s.revoked := rfl
@[simp] theorem modCluster_paths : (modCluster s c f).paths = s.paths := rfl
@[simp] theorem modCluster_flash : (modCluster s c f).flash = s.flash := rfl
@[simp] theorem modCluster_plumb : (modCluster s c f).plumb = s.plumb := rfl
@[simp] theorem modCluster_slewed : (modCluster s c f).slewed = s.slewed := rfl
@[simp] theorem modCluster_ticks : (modCluster s c f).ticks = s.ticks := rfl
@[simp] theorem modCluster_dev : (modCluster s c f).dev = s.dev := rfl
end

section
variable (s : State) (j : Nat) (f : Job → Job)
@[simp] theorem modJob_turns : (modJob s j f).turns = s.turns := rfl
@[simp] theorem modJob_cur : (modJob s j f).cur = s.cur := rfl
@[simp] theorem modJob_slot : (modJob s j f).slot = s.slot := rfl
@[simp] theorem modJob_lazy : (modJob s j f).lazy = s.lazy := rfl
@[simp] theorem modJob_nextUid : (modJob s j f).nextUid = s.nextUid := rfl
@[simp] theorem modJob_nextSeq : (modJob s j f).nextSeq = s.nextSeq := rfl
@[simp] theorem modJob_freeCtr : (modJob s j f).freeCtr = s.freeCtr := rfl
@[simp] theorem modJob_mem : (modJob s j f).mem = s.mem := rfl
@[simp] theorem modJob_poison : (modJob s j f).poison = s.poison := rfl
@[simp] theorem modJob_present : (modJob s j f).present = s.present := rfl
@[simp] theorem modJob_lineKey : (modJob s j f).lineKey = s.lineKey := rfl
@[simp] theorem modJob_keyInst : (modJob s j f).keyInst = s.keyInst := rfl
@[simp] theorem modJob_tags : (modJob s j f).tags = s.tags := rfl
@[simp] theorem modJob_misses : (modJob s j f).misses = s.misses := rfl
@[simp] theorem modJob_asked : (modJob s j f).asked = s.asked := rfl
@[simp] theorem modJob_cores : (modJob s j f).cores = s.cores := rfl
@[simp] theorem modJob_clusters : (modJob s j f).clusters = s.clusters := rfl
@[simp] theorem modJob_dies : (modJob s j f).dies = s.dies := rfl
@[simp] theorem modJob_bonds : (modJob s j f).bonds = s.bonds := rfl
@[simp] theorem modJob_nextBond : (modJob s j f).nextBond = s.nextBond := rfl
@[simp] theorem modJob_parts : (modJob s j f).parts = s.parts := rfl
@[simp] theorem modJob_queues : (modJob s j f).queues = s.queues := rfl
@[simp] theorem modJob_net : (modJob s j f).net = s.net := rfl
@[simp] theorem modJob_exchange : (modJob s j f).exchange = s.exchange := rfl
@[simp] theorem modJob_leases : (modJob s j f).leases = s.leases := rfl
@[simp] theorem modJob_exports : (modJob s j f).exports = s.exports := rfl
@[simp] theorem modJob_revoked : (modJob s j f).revoked = s.revoked := rfl
@[simp] theorem modJob_paths : (modJob s j f).paths = s.paths := rfl
@[simp] theorem modJob_flash : (modJob s j f).flash = s.flash := rfl
@[simp] theorem modJob_plumb : (modJob s j f).plumb = s.plumb := rfl
@[simp] theorem modJob_slewed : (modJob s j f).slewed = s.slewed := rfl
@[simp] theorem modJob_ticks : (modJob s j f).ticks = s.ticks := rfl
@[simp] theorem modJob_dev : (modJob s j f).dev = s.dev := rfl
end

section
variable (s : State) (q : Nat) (f : Queue → Queue)
@[simp] theorem modQueue_turns : (modQueue s q f).turns = s.turns := rfl
@[simp] theorem modQueue_cur : (modQueue s q f).cur = s.cur := rfl
@[simp] theorem modQueue_slot : (modQueue s q f).slot = s.slot := rfl
@[simp] theorem modQueue_lazy : (modQueue s q f).lazy = s.lazy := rfl
@[simp] theorem modQueue_nextUid : (modQueue s q f).nextUid = s.nextUid := rfl
@[simp] theorem modQueue_nextSeq : (modQueue s q f).nextSeq = s.nextSeq := rfl
@[simp] theorem modQueue_freeCtr : (modQueue s q f).freeCtr = s.freeCtr := rfl
@[simp] theorem modQueue_mem : (modQueue s q f).mem = s.mem := rfl
@[simp] theorem modQueue_poison : (modQueue s q f).poison = s.poison := rfl
@[simp] theorem modQueue_present : (modQueue s q f).present = s.present := rfl
@[simp] theorem modQueue_lineKey : (modQueue s q f).lineKey = s.lineKey := rfl
@[simp] theorem modQueue_keyInst : (modQueue s q f).keyInst = s.keyInst := rfl
@[simp] theorem modQueue_tags : (modQueue s q f).tags = s.tags := rfl
@[simp] theorem modQueue_misses : (modQueue s q f).misses = s.misses := rfl
@[simp] theorem modQueue_asked : (modQueue s q f).asked = s.asked := rfl
@[simp] theorem modQueue_cores : (modQueue s q f).cores = s.cores := rfl
@[simp] theorem modQueue_clusters : (modQueue s q f).clusters = s.clusters := rfl
@[simp] theorem modQueue_dies : (modQueue s q f).dies = s.dies := rfl
@[simp] theorem modQueue_bonds : (modQueue s q f).bonds = s.bonds := rfl
@[simp] theorem modQueue_nextBond : (modQueue s q f).nextBond = s.nextBond := rfl
@[simp] theorem modQueue_jobs : (modQueue s q f).jobs = s.jobs := rfl
@[simp] theorem modQueue_parts : (modQueue s q f).parts = s.parts := rfl
@[simp] theorem modQueue_net : (modQueue s q f).net = s.net := rfl
@[simp] theorem modQueue_exchange : (modQueue s q f).exchange = s.exchange := rfl
@[simp] theorem modQueue_leases : (modQueue s q f).leases = s.leases := rfl
@[simp] theorem modQueue_exports : (modQueue s q f).exports = s.exports := rfl
@[simp] theorem modQueue_revoked : (modQueue s q f).revoked = s.revoked := rfl
@[simp] theorem modQueue_paths : (modQueue s q f).paths = s.paths := rfl
@[simp] theorem modQueue_flash : (modQueue s q f).flash = s.flash := rfl
@[simp] theorem modQueue_plumb : (modQueue s q f).plumb = s.plumb := rfl
@[simp] theorem modQueue_slewed : (modQueue s q f).slewed = s.slewed := rfl
@[simp] theorem modQueue_ticks : (modQueue s q f).ticks = s.ticks := rfl
@[simp] theorem modQueue_dev : (modQueue s q f).dev = s.dev := rfl
end

section
variable (s : State) (p : Nat) (f : Partition → Partition)
@[simp] theorem modPart_turns : (modPart s p f).turns = s.turns := rfl
@[simp] theorem modPart_cur : (modPart s p f).cur = s.cur := rfl
@[simp] theorem modPart_slot : (modPart s p f).slot = s.slot := rfl
@[simp] theorem modPart_lazy : (modPart s p f).lazy = s.lazy := rfl
@[simp] theorem modPart_nextUid : (modPart s p f).nextUid = s.nextUid := rfl
@[simp] theorem modPart_nextSeq : (modPart s p f).nextSeq = s.nextSeq := rfl
@[simp] theorem modPart_freeCtr : (modPart s p f).freeCtr = s.freeCtr := rfl
@[simp] theorem modPart_mem : (modPart s p f).mem = s.mem := rfl
@[simp] theorem modPart_poison : (modPart s p f).poison = s.poison := rfl
@[simp] theorem modPart_present : (modPart s p f).present = s.present := rfl
@[simp] theorem modPart_lineKey : (modPart s p f).lineKey = s.lineKey := rfl
@[simp] theorem modPart_keyInst : (modPart s p f).keyInst = s.keyInst := rfl
@[simp] theorem modPart_tags : (modPart s p f).tags = s.tags := rfl
@[simp] theorem modPart_misses : (modPart s p f).misses = s.misses := rfl
@[simp] theorem modPart_asked : (modPart s p f).asked = s.asked := rfl
@[simp] theorem modPart_cores : (modPart s p f).cores = s.cores := rfl
@[simp] theorem modPart_clusters : (modPart s p f).clusters = s.clusters := rfl
@[simp] theorem modPart_dies : (modPart s p f).dies = s.dies := rfl
@[simp] theorem modPart_bonds : (modPart s p f).bonds = s.bonds := rfl
@[simp] theorem modPart_nextBond : (modPart s p f).nextBond = s.nextBond := rfl
@[simp] theorem modPart_jobs : (modPart s p f).jobs = s.jobs := rfl
@[simp] theorem modPart_queues : (modPart s p f).queues = s.queues := rfl
@[simp] theorem modPart_net : (modPart s p f).net = s.net := rfl
@[simp] theorem modPart_exchange : (modPart s p f).exchange = s.exchange := rfl
@[simp] theorem modPart_leases : (modPart s p f).leases = s.leases := rfl
@[simp] theorem modPart_exports : (modPart s p f).exports = s.exports := rfl
@[simp] theorem modPart_revoked : (modPart s p f).revoked = s.revoked := rfl
@[simp] theorem modPart_paths : (modPart s p f).paths = s.paths := rfl
@[simp] theorem modPart_flash : (modPart s p f).flash = s.flash := rfl
@[simp] theorem modPart_plumb : (modPart s p f).plumb = s.plumb := rfl
@[simp] theorem modPart_slewed : (modPart s p f).slewed = s.slewed := rfl
@[simp] theorem modPart_ticks : (modPart s p f).ticks = s.ticks := rfl
@[simp] theorem modPart_dev : (modPart s p f).dev = s.dev := rfl
end

section
variable (s : State) (d : Fin 4) (f : Die → Die)
@[simp] theorem modDie_turns : (modDie s d f).turns = s.turns := rfl
@[simp] theorem modDie_cur : (modDie s d f).cur = s.cur := rfl
@[simp] theorem modDie_slot : (modDie s d f).slot = s.slot := rfl
@[simp] theorem modDie_lazy : (modDie s d f).lazy = s.lazy := rfl
@[simp] theorem modDie_nextUid : (modDie s d f).nextUid = s.nextUid := rfl
@[simp] theorem modDie_nextSeq : (modDie s d f).nextSeq = s.nextSeq := rfl
@[simp] theorem modDie_freeCtr : (modDie s d f).freeCtr = s.freeCtr := rfl
@[simp] theorem modDie_mem : (modDie s d f).mem = s.mem := rfl
@[simp] theorem modDie_poison : (modDie s d f).poison = s.poison := rfl
@[simp] theorem modDie_present : (modDie s d f).present = s.present := rfl
@[simp] theorem modDie_lineKey : (modDie s d f).lineKey = s.lineKey := rfl
@[simp] theorem modDie_keyInst : (modDie s d f).keyInst = s.keyInst := rfl
@[simp] theorem modDie_tags : (modDie s d f).tags = s.tags := rfl
@[simp] theorem modDie_misses : (modDie s d f).misses = s.misses := rfl
@[simp] theorem modDie_asked : (modDie s d f).asked = s.asked := rfl
@[simp] theorem modDie_cores : (modDie s d f).cores = s.cores := rfl
@[simp] theorem modDie_clusters : (modDie s d f).clusters = s.clusters := rfl
@[simp] theorem modDie_bonds : (modDie s d f).bonds = s.bonds := rfl
@[simp] theorem modDie_nextBond : (modDie s d f).nextBond = s.nextBond := rfl
@[simp] theorem modDie_jobs : (modDie s d f).jobs = s.jobs := rfl
@[simp] theorem modDie_parts : (modDie s d f).parts = s.parts := rfl
@[simp] theorem modDie_queues : (modDie s d f).queues = s.queues := rfl
@[simp] theorem modDie_net : (modDie s d f).net = s.net := rfl
@[simp] theorem modDie_exchange : (modDie s d f).exchange = s.exchange := rfl
@[simp] theorem modDie_leases : (modDie s d f).leases = s.leases := rfl
@[simp] theorem modDie_exports : (modDie s d f).exports = s.exports := rfl
@[simp] theorem modDie_revoked : (modDie s d f).revoked = s.revoked := rfl
@[simp] theorem modDie_paths : (modDie s d f).paths = s.paths := rfl
@[simp] theorem modDie_flash : (modDie s d f).flash = s.flash := rfl
@[simp] theorem modDie_plumb : (modDie s d f).plumb = s.plumb := rfl
@[simp] theorem modDie_slewed : (modDie s d f).slewed = s.slewed := rfl
@[simp] theorem modDie_ticks : (modDie s d f).ticks = s.ticks := rfl
@[simp] theorem modDie_dev : (modDie s d f).dev = s.dev := rfl
end

/-! ## Maps and sets of numbers -/

@[simp] theorem mapGet_mapSet_self {α : Type} (d : α) (k : Nat) (v : α) (m : Map α) : mapGet d (mapSet k v m) k = v := by
  induction m with
  | nil => simp [mapSet, mapGet]
  | cons e t ih =>
    obtain ⟨a, w⟩ := e
    simp only [mapSet]
    split
    · simp [mapGet]
    · split
      · simp [mapGet]
      · simp [mapGet, ih, Ne.symm ‹¬ k = a›]

theorem mapGet_mapSet_ne {α : Type} (d : α) {j k : Nat} (v : α) (m : Map α) (h : j ≠ k) :
    mapGet d (mapSet k v m) j = mapGet d m j := by
  induction m with
  | nil => simp [mapSet, mapGet, h.symm]
  | cons e t ih =>
    obtain ⟨a, w⟩ := e
    simp only [mapSet]
    split
    · simp [mapGet, h.symm]
    · split
      · subst a; simp [mapGet, h.symm]
      · simp [mapGet, ih]

theorem mapGet_mapSet {α : Type} (d : α) (j k : Nat) (v : α) (m : Map α) :
    mapGet d (mapSet k v m) j = if j = k then v else mapGet d m j := by
  split
  · subst j; simp
  · exact mapGet_mapSet_ne d v m ‹_›

@[simp] theorem mapFind_mapSet_self {α : Type} (k : Nat) (v : α) (m : Map α) : mapFind (mapSet k v m) k = some v := by
  induction m with
  | nil => simp [mapSet, mapFind]
  | cons e t ih =>
    obtain ⟨a, w⟩ := e
    simp only [mapSet]
    split
    · simp [mapFind]
    · split
      · simp [mapFind]
      · simp [mapFind, ih, Ne.symm ‹¬ k = a›]

theorem mapFind_mapSet_ne {α : Type} {j k : Nat} (v : α) (m : Map α) (h : j ≠ k) :
    mapFind (mapSet k v m) j = mapFind m j := by
  induction m with
  | nil => simp [mapSet, mapFind, h.symm]
  | cons e t ih =>
    obtain ⟨a, w⟩ := e
    simp only [mapSet]
    split
    · simp [mapFind, h.symm]
    · split
      · subst a; simp [mapFind, h.symm]
      · simp [mapFind, ih]

theorem mem_setAdd {k x : Nat} {l : List Nat} : x ∈ setAdd k l ↔ x = k ∨ x ∈ l := by
  induction l with
  | nil => simp [setAdd]
  | cons a t ih =>
    simp only [setAdd]
    split
    · simp
    · split
      · subst a; simp
      · simp only [List.mem_cons, ih]; tauto

theorem mem_setDel {k x : Nat} {l : List Nat} : x ∈ setDel k l ↔ x ∈ l ∧ x ≠ k := by simp [setDel]

/-! ## What a changed record reads as -/

section
variable (s : State)

@[simp] theorem coreOf_setCore_self (c : CoreId) (k : Core) : coreOf (setCore s c k) c = k := by simp [coreOf, setCore]
theorem coreOf_setCore_ne {c d : CoreId} (k : Core) (h : d ≠ c) : coreOf (setCore s c k) d = coreOf s d :=
  mapGet_mapSet_ne _ _ _ h
@[simp] theorem coreOf_modCore_self (c : CoreId) (f : Core → Core) : coreOf (modCore s c f) c = f (coreOf s c) :=
  coreOf_setCore_self ..
theorem coreOf_modCore_ne {c d : CoreId} (f : Core → Core) (h : d ≠ c) : coreOf (modCore s c f) d = coreOf s d :=
  coreOf_setCore_ne s _ h
@[simp] theorem coreOf_modStrand_self (c : CoreId) (i : Slot) (f : Strand → Strand) :
    coreOf (modStrand s c i f) c = { coreOf s c with slots := (coreOf s c).slots.set i (f (coreOf s c).slots[i]) } :=
  coreOf_modCore_self ..
theorem coreOf_modStrand_ne {c d : CoreId} (i : Slot) (f : Strand → Strand) (h : d ≠ c) :
    coreOf (modStrand s c i f) d = coreOf s d := coreOf_modCore_ne s _ h
@[simp] theorem coreOf_modCluster (c : CoreId) (cl : Nat) (f : Cluster → Cluster) :
    coreOf (modCluster s cl f) c = coreOf s c := rfl

@[simp] theorem strandAt_modStrand_self (c : CoreId) (i : Slot) (f : Strand → Strand) :
    strandAt (modStrand s c i f) c i = f (strandAt s c i) := by simp [strandAt]
theorem strandAt_modStrand_ne {c d : CoreId} {i j : Slot} (f : Strand → Strand) (h : (d, j) ≠ (c, i)) :
    strandAt (modStrand s c i f) d j = strandAt s d j := by
  by_cases hc : d = c
  · subst d
    have hj : i.val ≠ j.val := fun e => h (by rw [Fin.ext e])
    simp [strandAt, hj]
  · simp [strandAt, coreOf_modStrand_ne s i f hc]
@[simp] theorem me_modMe (f : Strand → Strand) : me (modMe s f) = f (me s) := strandAt_modStrand_self ..
@[simp] theorem setCore_setCore (c : CoreId) (j k : Core) : setCore (setCore s c j) c k = setCore s c k := by
  have h (m : Map Core) : mapSet c k (mapSet c j m) = mapSet c k m := by
    induction m with
    | nil => simp [mapSet]
    | cons e t ih =>
      obtain ⟨x, w⟩ := e
      by_cases h1 : c < x
      · simp [mapSet, h1]
      · by_cases h2 : c = x
        · subst c; simp [mapSet]
        · simp [mapSet, h1, h2, ih]
  simp [setCore, h]
@[simp] theorem modCore_modCore (c : CoreId) (f g : Core → Core) :
    modCore (modCore s c f) c g = modCore s c fun k => g (f k) := by
  show setCore (setCore s c _) c (g (coreOf (modCore s c f) c)) = _
  rw [setCore_setCore, coreOf_modCore_self]; rfl
@[simp] theorem modMe_modMe (f g : Strand → Strand) : modMe (modMe s f) g = modMe s fun t => g (f t) := by
  simp only [modMe, modStrand, modCore_cur, modCore_slot, modCore_modCore]
  simp

@[simp] theorem clusterOf_modCluster_self (c : Nat) (f : Cluster → Cluster) :
    clusterOf (modCluster s c f) c = f (clusterOf s c) := by simp [clusterOf, modCluster]
@[simp] theorem jobOf_modJob_self (j : Nat) (f : Job → Job) : jobOf (modJob s j f) j = f (jobOf s j) := by
  simp [jobOf, modJob]
@[simp] theorem queueOf_modQueue_self (q : Nat) (f : Queue → Queue) : queueOf (modQueue s q f) q = f (queueOf s q) := by
  simp [queueOf, modQueue]
@[simp] theorem partOf_modPart_self (p : Nat) (f : Partition → Partition) : partOf (modPart s p f) p = f (partOf s p) := by
  simp [partOf, modPart]

@[simp] theorem me_ready : me (ready s) = { me s with wait := .none } := me_modMe ..
@[simp] theorem me_advance (n : Nat) : me (advance s n) = { me s with pc := (me s).pc + BitVec.ofNat 64 n } := me_modMe ..
@[simp] theorem me_modCluster (cl : Nat) (f : Cluster → Cluster) : me (modCluster s cl f) = me s := rfl
@[simp] theorem me_setG (i : Fin 24) (x : W64) :
    me (setG s i x) = { me s with g := (me s).g.set i x, gPoison := putBits (me s).gPoison i.val 1 0 } := me_modMe ..
@[simp] theorem me_setM (i : Fin 4) (x : W32) : me (setM s i x) = { me s with m := (me s).m.set i x } := me_modMe ..
@[simp] theorem getG_ready (i : Fin 24) : getG (ready s) i = getG s i := by simp [getG]
@[simp] theorem getV_ready (i : Fin 8) : getV (ready s) i = getV s i := by simp [getV]
@[simp] theorem getM_ready (i : Fin 4) : getM (ready s) i = getM s i := by simp [getM]
@[simp] theorem getG_setG_self (i : Fin 24) (x : W64) : getG (setG s i x) i = x := by simp [getG]
theorem getG_setG_ne {i j : Fin 24} (x : W64) (h : j ≠ i) : getG (setG s i x) j = getG s j := by
  have : i.val ≠ j.val := fun e => h (Fin.ext e.symm)
  simp [getG, this]
end

end Sys2Proof.Machine
end

