-- ==== Sys2Proof/Laws/Issue.lean ====
section
/-! SUPPORT. What the shared operations of issue do: one lemma per operation. -/
set_option Elab.async false
namespace Sys2Proof.Machine

variable {s t : State} {u : Uses} {on : Bool} {body : State → Except Stop State}

/-! ## Requests in flight -/

/-- A change of a core outside its strands leaves the issuing strand as it is. -/
theorem me_modCore (c : CoreId) (f : Core → Core) (hf : ∀ k, (f k).slots = k.slots) : me (modCore s c f) = me s := by
  show (coreOf (modCore s c f) s.cur).slots[s.slot] = (coreOf s s.cur).slots[s.slot]
  by_cases h : s.cur = c
  · rw [h, coreOf_modCore_self]; simp [hf]
  · rw [coreOf_modCore_ne s f h]

@[simp] theorem me_modStream (c : CoreId) (n : StreamId) (f : Stream → Stream) : me (modStream s c n f) = me s :=
  me_modCore c _ fun _ => rfl

@[simp] theorem me_pushLink (c : CoreId) (l : Port) (e : PortEntry) : me (pushLink s c l e) = me s := by
  unfold pushLink
  split
  · exact me_modCore c _ fun _ => rfl
  · split
    · exact me_modCore _ _ fun _ => rfl
    · rfl

@[simp] theorem me_pushPort (p : Port) (x : W256) : me (pushPort s p x) = me s := by
  unfold pushPort; dsimp only; split
  · exact me_pushLink (s := { s with nextSeq := s.nextSeq + 1 }) ..
  · exact me_pushLink ..

@[simp] theorem addFlags_inflight (fl : Flags) : (me (addFlags s s.cur s.slot fl)).inflight = (me s).inflight := by
  unfold addFlags; split
  · rfl
  · show (me (modCluster (modMe s _) _ _)).inflight = _
    rw [me_modCluster, me_modMe]

/-- A result written leaves the requests in flight. -/
@[simp] theorem writeS_inflight (d : SReg) (x : W64) : (me (writeS s d x)).inflight = (me s).inflight := by
  cases d <;> simp [writeS, pushStream]

@[simp] theorem setVWords_inflight (i : Fin 8) (words : BitVec 4) (x : W256) :
    (me (setVWords s i words x)).inflight = (me s).inflight := by simp [setVWords]

@[simp] theorem writeV_inflight (d : VReg) (x : W256) : (me (writeV s d x)).inflight = (me s).inflight := by
  cases d <;> simp [writeV, setV, pushStream]

@[simp] theorem writeLanes_inflight (d : VReg) (w : Nat) (mask : W32) (x : W256) :
    (me (writeLanes s d w mask x)).inflight = (me s).inflight := by
  cases d <;> simp [writeLanes]

/-- An instruction that leaves no new request pops its views at once (R11). -/
theorem commitPops_now (pops : List View) (h : (me t).inflight ⊆ (me s).inflight) :
    commitPops s t pops = popAll t pops := by
  unfold commitPops
  have : (me t).inflight.any (fun p => !(me s).inflight.contains p) = false := by
    rw [List.any_eq_false]; intro p hp; simp [h hp]
  dsimp only; rw [this]; simp

/-! ## Instructions whose operands are at hand -/

theorem issueBody_ok (h : Operable s u) (hb : body s = .ok t) (hi : (me t).inflight ⊆ (me s).inflight) :
    issueBody s u body = .ok (popAll t (popsOf s u)) := by
  simp only [issueBody, h.1, h.2, hb, withOperands, ← commitPops_now _ hi]; rfl

/-- An instruction whose predicate is on, whose operands are at hand and whose body succeeds. -/
theorem execute_next (hon : on = true) (h : Operable (ready s) u) (hb : body (ready s) = .ok t)
    (hi : (me t).inflight ⊆ (me (ready s)).inflight) : execute s on u body = .next (popAll t (popsOf (ready s) u)) := by
  simp only [execute, executeLen, hon, if_true, issueBody_ok h hb hi, conclude]

theorem compute_next (hon : on = true) (h : Operable (ready s) u) (hb : body (ready s) = .ok t)
    (hi : (me t).inflight ⊆ (me (ready s)).inflight) : compute s on u body = .next (retired (ready s) t u) := by
  rw [compute, execute_next hon h (t := advance t 4) (by rw [hb]; rfl) (by simpa using hi)]; rfl

/-- A predicate that is off: the PC advances and nothing else happens (R101). -/
theorem executeLen_off (len : Nat) (hon : on = false) : executeLen len s on u body = .next (advance (ready s) len) := by
  simp [executeLen, hon]

/-- An instruction whose operands are at hand and whose body stops. -/
theorem execute_stop {x : Stop} (hon : on = true) (h : Operable (ready s) u) (hb : body (ready s) = .error x) :
    execute s on u body = .next (stopStep (ready s) 4 x) := by
  simp only [execute, executeLen, hon, if_true, issueBody, h.1, h.2, hb, withOperands, conclude]; rfl

/-- A scalar instruction whose body writes one result with its flags. -/
theorem compute_flagged {d : SReg} {x : W64} {fl : Flags} (hon : on = true) (h : Operable (ready s) u)
    (hb : body (ready s) = writeFlagged (ready s) d x fl) :
    compute s on u body = flaggedAnswer (ready s) 4 u fl fun t => writeS t d x := by
  unfold flaggedAnswer
  by_cases hf : fl &&& fcsrEn (me (ready s)).fcsr = 0
  · rw [if_pos hf]
    exact compute_next hon h (hb.trans (by unfold writeFlagged raise; rw [if_neg (by simpa using hf)]; rfl)) (by simp)
  · rw [if_neg hf]
    refine (execute_stop (x := .trap 4 (fl.setWidth 64)) hon h ?_).trans rfl
    show Except.map _ (body (ready s)) = _
    rw [hb]; unfold writeFlagged raise; rw [if_pos hf]; rfl

/-- A misalignment of an instruction whose other operands are at hand. -/
theorem execute_misaligned {x : Stop} (hon : on = true) (h : Operable (ready s) u) :
    execute s on { u with mis := some x } body = .next (stopStep (ready s) 4 x) := by
  have hc := h.1
  cases h1 : firstOf (ready s) (popsOf (ready s) u) (viewStop · false) with
  | some e => simp only [issueChecks, h1, throwIf, bind, Except.bind] at hc; cases hc
  | none =>
    cases h2 : firstOf (ready s) (pushesOf (ready s) u) (viewStop · true) with
    | some e => simp only [issueChecks, h1, h2, throwIf, bind, Except.bind] at hc; cases hc
    | none =>
      cases h3 : busy (me (ready s)) u with
      | true =>
        simp only [issueChecks, h1, h2, h3, throwIf, waitUnless, bind, Except.bind] at hc
        cases hc
      | false =>
        have hb : busy (me (ready s)) { u with mis := some x } = false := h3
        have hp : popsOf (ready s) { u with mis := some x } = popsOf (ready s) u := rfl
        have hq : pushesOf (ready s) { u with mis := some x } = pushesOf (ready s) u := rfl
        rw [execute, executeLen, if_pos hon, issueBody, hp, hq, issueChecks, h1, h2, hb]
        rfl

end Sys2Proof.Machine
end

