-- ==== Sys2Proof/Laws/Access.lean ====
section
/-!
SUPPORT. What the shared operations of loads and stores do when nothing keeps them from their homes.
-/
set_option Elab.async false
namespace Sys2Proof.Machine

variable {r s t : State} {x : W256} {l : List (Piece × Ref)}

/-! ## Answers -/

/-- One piece checked gives one reference. -/
theorem checkPieces_one {use : Use} {p : Piece} (h : checkPieces r use [p] = .ok (l, t)) : ∃ q, l = [(p, q)] := by
  simp only [checkPieces] at h
  cases h1 : access r use p.va with
  | error e => rw [h1] at h; cases h
  | ok q => rw [h1] at h; injection h with h; injection h with h _; exact ⟨_, h.symm⟩

/-- The pieces that a check returns are those that it was given. -/
theorem checkPieces_pieces {use : Use} {ps : List Piece} (h : checkPieces r use ps = .ok (l, t)) :
    l.map (fun e => e.1) = ps := by
  induction ps generalizing r l t with
  | nil => simp only [checkPieces] at h; injection h with h; injection h with h _; subst h; rfl
  | cons p ps ih =>
    simp only [checkPieces] at h
    split at h
    · rename_i q s1 _
      cases h2 : checkPieces s1 use ps with
      | error e => simp only [h2] at h; cases h
      | ok y =>
        simp only [h2] at h
        injection h with h; injection h with ha _; subst ha
        simp [ih h2]
    · split at h <;> cases h

/-! ## Loads -/

/-- The places of pieces in an assembled value, as x has them; zero elsewhere. -/
def placed (x : W256) : List Piece → W256
  | [] => 0
  | p :: ps => ((x.extractLsb' (8 * p.pos) (8 * p.n)).setWidth 64).setWidth 256 <<< (8 * p.pos) ||| placed x ps

/-- The part that an answered piece becomes. -/
def servedPart (w : Piece × Ref → W64) (e : Piece × Ref) : Part := { partOf_ e with got := some (w e, false) }

/-- A load whose pieces are served where they are performed: its parts hold what the homes answer, and the state stays. -/
theorem performParts_load {c : CoreId} {i : Slot} {uid : Nat} {p : Pending} {w : Piece × Ref → W64} (hk : p.kind = .load)
    (hr : p.rejected = false) (ha : p.again = false) (hz : p.park = 0) (hp : p.parts = l.map partOf_)
    (hf : ∀ e ∈ l, olderRead t c uid p.seq (wordOf e.2.loc) = false ∧ olderRed t c uid p.seq (wordOf e.2.loc) = false ∧
      peerTurn t c p.seq e.2.lease = true ∧ epochRevoked t e.2.loc e.2.lease = false)
    (hw : ∀ e ∈ l, strandWord t c uid p.seq (wordOf e.2.loc) e.2.key (byteMask (e.2.loc % 8) e.1.n) = some (w e, false))
    (n : Nat) (hn : n ≤ l.length) :
    performParts t c i uid p n = ({ p with parts := (l.take n).map (servedPart w) ++ (l.drop n).map partOf_ }, t) := by
  induction n with
  | zero => cases p; simp_all [performParts]
  | succ n ih =>
    have hlt : n < l.length := hn
    have hdrop : l.drop n = l[n] :: l.drop (n + 1) := List.drop_eq_getElem_cons hlt
    have hlen : ((l.take n).map (servedPart w)).length = n := by simp; omega
    have hget : ((l.take n).map (servedPart w) ++ (l.drop n).map partOf_)[n]? = some (partOf_ l[n]) := by
      rw [List.getElem?_append_right (by omega), hlen, Nat.sub_self, hdrop]; rfl
    have hserve := hw l[n] (List.getElem_mem hlt)
    obtain ⟨h1, h2, h3, h4⟩ := hf l[n] (List.getElem_mem hlt)
    have hturn : ((((l.take n).map (servedPart w) ++ (l.drop n).map partOf_).take n).all fun x => x.got.isSome) = true := by
      rw [List.take_append_of_le_length (by omega), List.take_of_length_le (by omega), List.all_map, List.all_eq_true]
      exact fun _ _ => rfl
    simp only [performParts, ih (by omega), performPart, hget, hk]
    rw [if_neg (by rw [partTurn, hturn]; simp [partOf_, hr, ha, h1, h2, h3]), if_neg (by simp [partOf_, h4])]
    simp only [readPart, partMask, partOf_, hserve, takePart]
    congr 2
    · rw [List.set_append_right _ _ (by omega), hlen, Nat.sub_self, hdrop, List.map_cons, List.set_cons_zero,
        List.take_succ_eq_append_getElem hlt, List.map_append, List.append_assoc]
      rfl
    · exact hz.symm

theorem assemble_served {w : Piece × Ref → W64}
    (hx : ∀ e ∈ l, x.extractLsb' (8 * e.1.pos) (8 * e.1.n) = (w e).extractLsb' (8 * (e.2.loc % 8)) (8 * e.1.n)) :
    assemble (l.map (servedPart w)) = placed x (l.map fun e => e.1) := by
  induction l with
  | nil => rfl
  | cons e l ih =>
    have h1 := hx e (List.mem_cons_self ..)
    have h2 : (w e >>> (8 * (e.2.loc % 8))).setWidth (8 * e.1.n) = (w e).extractLsb' (8 * (e.2.loc % 8)) (8 * e.1.n) := by
      apply BitVec.eq_of_getLsbD_eq; intro i hi; simp [hi]
    simp only [List.map_cons, assemble, placed, servedPart, partOf_, subWord, h2, ← h1]
    congr 1
    exact ih fun e he => hx e (List.mem_cons_of_mem _ he)

theorem poisonedPart_served {w : Piece × Ref → W64} {p : Pending} (hp : p.parts = l.map (servedPart w)) :
    poisonedPart p = none := by
  simp only [poisonedPart, hp, Option.map_eq_none_iff, List.find?_eq_none]
  intro q hq; obtain ⟨e, _, rfl⟩ := List.mem_map.1 hq; simp [servedPart]

/-- What a served load leaves: its destination holds the places of its pieces, then the base is replaced, an acquire takes
its mark, and the PC advances. -/
def loaded (t : State) (d : Dest) (inc : Option (Fin 24 × W64)) (y : W256) (acq : Option Scope) : State :=
  let u := applyInc (match d with
    | .scalar d w sg => writeS (issuedOne t) d (if sg then sext y w 64 else (y.setWidth w).setWidth 64)
    | .vector d w m => writeLanes (issuedOne t) d w m y
    | .nothing | .block => issuedOne t) inc
  advance (match acq with
    | some sc => markAcquire u u.cur (me u).uid sc
    | none => u) 4

/-- A request that is performed and answered at once without poison. -/
theorem sendRequest_now {p q : Pending} {len : Nat} (hl : s.lazy = false)
    (hp : performReq s s.cur s.slot (me s).uid p = (q, t)) (hr : q.rejected = false) (ha : answered q = true)
    (hn : poisonedPart q = none) : sendRequest s p len = .ok (advance (writeAnswer t q) len) := by
  simp [sendRequest, hl, hp, hr, ha, hn]

theorem loadPieces_served {ps : List Piece} {d : Dest} {inc : Option (Fin 24 × W64)} {b : Bool} {acq : Option Scope}
    (h : LoadServed r t ps x) : loadPieces r ps .load d inc b acq = .ok (loaded t d inc (placed x ps) acq) := by
  obtain ⟨hlazy, l, hc, hs⟩ := h
  have hw : ∀ e, ∃ w, e ∈ l → strandWord t t.cur (me t).uid t.nextSeq (wordOf e.2.loc) e.2.key
      (byteMask (e.2.loc % 8) e.1.n) = some (w, false) ∧
      x.extractLsb' (8 * e.1.pos) (8 * e.1.n) = w.extractLsb' (8 * (e.2.loc % 8)) (8 * e.1.n) := by
    intro e
    by_cases he : e ∈ l
    · obtain ⟨w, hw⟩ := (hs e he).2.2; exact ⟨w, fun _ => hw⟩
    · exact ⟨0, fun h => absurd h he⟩
  choose w hw using hw
  have hso : (l.any fun e => soWaits t e.2.ord) = false := by
    rw [List.any_eq_false]; intro e he; simp [(hs e he).1]
  have hperf := performParts_load (t := issuedOne t) (c := t.cur) (i := t.slot) (uid := (me t).uid) (l := l) (w := w)
    (p := requestOf (issuedOne t) t.nextSeq .load (l.map partOf_) d inc b none acq (straddles ps)) rfl rfl rfl rfl rfl
    (fun e he => (hs e he).2.1) (fun e he => (hw e he).1) l.length (Nat.le_refl _)
  simp only [List.take_length, List.drop_length, List.map_nil, List.append_nil] at hperf
  have hps := checkPieces_pieces hc
  have hans : (l.map (servedPart w)).all (fun q => q.got.isSome) = true := by simp [servedPart]
  have hasm := assemble_served (x := x) fun e he => (hw e he).2
  have hq : loadPieces r ps .load d inc b acq = sendRequest (issuedOne t)
      (requestOf (issuedOne t) t.nextSeq .load (l.map partOf_) d inc b none acq (straddles ps)) 4 := by
    simp only [loadPieces, hc, bind, Except.bind, hso, waitUnless]; rfl
  rw [hq, sendRequest_now (s := issuedOne t) (t := issuedOne t)
    (q := requestOf (issuedOne t) t.nextSeq .load (l.map (servedPart w)) d inc b none acq (straddles ps))
    hlazy (by rw [performReq, show (requestOf (issuedOne t) t.nextSeq .load (l.map partOf_) d inc b none acq
      (straddles ps)).parts.length = l.length from List.length_map ..]; exact hperf) rfl hans (poisonedPart_served rfl)]
  simp only [writeAnswer, requestOf, hasm, hps, rmwFlags, loaded]
  cases d <;> rfl

/-! ## Stores -/

/-- Stores whose pieces pass their checks leave for the store queue. -/
theorem storeChunks_allowed {cs : List Chunk} {tag : Option Scope} {each : Bool}
    (h : StoreAllowed r t (cs.map fun c => c.piece) l) :
    storeChunks r cs tag each = .ok
      (let made := makeEntries t tag each ((cs.head?.map fun c => c.piece.va).getD 0) (cs.zip (l.map fun e => e.2))
       queueStores made.2 made.1) := by
  have hso : (l.any fun e => soWaits t e.2.ord) = false := by
    rw [List.any_eq_false]; intro e he; simp [h.2 e he]
  cases cs <;> simp only [storeChunks, h.1, bind, Except.bind, hso, waitUnless] <;> rfl

end Sys2Proof.Machine
end

