-- ==== Sys2Proof/Laws/Lanes.lean ====
section
/-!
SUPPORT. What the shared lane operations write: the lanes that the mask enables, with the union of their flags.
-/
set_option Elab.async false
namespace Sys2Proof.Machine

/-! ## Masks and packed lanes -/

/-- Bits set one after the other. -/
theorem sumMask_bit (l : List Nat) (hl : l.Nodup) (hb : ∀ i ∈ l, i < 32) (acc : Nat) (hd : ∀ i ∈ l, (BitVec.ofNat 32 acc).getLsbD i = false)
    (k : Nat) : (BitVec.ofNat 32 (l.foldl (fun m i => m + 2 ^ i) acc)).getLsbD k =
      ((BitVec.ofNat 32 acc).getLsbD k || decide (k ∈ l)) := by
  induction l generalizing acc with
  | nil => simp
  | cons i t ih =>
    obtain ⟨hi, ht⟩ := List.nodup_cons.1 hl
    have h32 : i < 32 := hb i (List.mem_cons_self ..)
    have hbit : ∀ j, (BitVec.ofNat 32 (acc + 2 ^ i)).getLsbD j = ((BitVec.ofNat 32 acc).getLsbD j || decide (j = i)) := by
      intro j
      have hz : BitVec.ofNat 32 acc &&& BitVec.twoPow 32 i = 0#32 := by
        apply BitVec.eq_of_getLsbD_eq; intro m hm
        have := hd i (List.mem_cons_self ..)
        by_cases hmi : m = i
        · subst m; simp [this]
        · simp [BitVec.getLsbD_twoPow, Ne.symm hmi]
      have he : BitVec.ofNat 32 (acc + 2 ^ i) = BitVec.ofNat 32 acc ||| BitVec.twoPow 32 i := by
        rw [← BitVec.add_eq_or_of_and_eq_zero _ _ hz]
        apply BitVec.eq_of_toNat_eq; simp [BitVec.toNat_twoPow]
      rw [he, BitVec.getLsbD_or, BitVec.getLsbD_twoPow]
      by_cases hj : j = i
      · subst j; simp [h32]
      · simp [hj, Ne.symm hj]
    rw [List.foldl_cons, ih ht (fun j hj => hb j (List.mem_cons_of_mem _ hj)), hbit]
    · by_cases hk : k = i <;> simp [hk]
    · intro j hj
      rw [hbit, hd j (List.mem_cons_of_mem _ hj)]
      simp; rintro rfl; exact hi hj

/-- A lane of packed codes is the code of the one entry that names it. -/
theorem packLanes_lane (w : Nat) (l : List (Nat × Nat)) (hn : (l.map Prod.fst).Nodup) (i x : Nat) (h : (i, x) ∈ l)
    (hi : i * w + w ≤ 256) : lane (packLanes w l) w i = BitVec.ofNat w x := by
  have key : ∀ (l : List (Nat × Nat)) (b : Nat), b < w → (packLanes w l).getLsbD (i * w + b) =
      (l.filter fun e => e.1 = i).any fun e => e.2.testBit b := by
    intro l b hb
    induction l with
    | nil => simp [packLanes]
    | cons e t ih =>
      obtain ⟨j, y⟩ := e
      have h256 : i * w + b < 256 := by omega
      have hone : (BitVec.ofNat 256 (y % 2 ^ w * 2 ^ (j * w))).getLsbD (i * w + b) = (decide (j = i) && y.testBit b) := by
        rw [BitVec.getLsbD_ofNat, Nat.testBit_mul_two_pow, Nat.testBit_mod_two_pow]
        by_cases hji : j = i
        · subst j; simp [h256, hb]
        · rcases Nat.lt_or_gt_of_ne hji with hlt | hgt
          · have : (j + 1) * w ≤ i * w := Nat.mul_le_mul_right w hlt
            have : ¬ (i * w + b - j * w < w) := by rw [Nat.add_mul] at this; omega
            simp [this, hji]
          · have : (i + 1) * w ≤ j * w := Nat.mul_le_mul_right w hgt
            have : ¬ (j * w ≤ i * w + b) := by rw [Nat.add_mul] at this; omega
            simp [this, hji]
      rw [packLanes, BitVec.getLsbD_or, ih, hone]
      by_cases hji : j = i
      · simp [hji, Bool.or_comm]
      · simp [hji]
  apply BitVec.eq_of_getLsbD_eq
  intro b hb
  rw [lane, BitVec.getLsbD_extractLsb', key l b hb, BitVec.getLsbD_ofNat]
  simp only [hb, decide_true, Bool.true_and]
  have huniq : ∀ e ∈ l.filter (fun e => e.1 = i), e = (i, x) := by
    intro e he
    obtain ⟨he1, he2⟩ := List.mem_filter.1 he
    have := List.inj_on_of_nodup_map hn he1 h (by simpa using he2)
    exact this
  cases hx : x.testBit b
  · rw [List.any_eq_false]; intro e he; rw [huniq e he]; simp [hx]
  · rw [List.any_eq_true]; exact ⟨(i, x), List.mem_filter.2 ⟨h, by simp⟩, hx⟩

/-- A write of lanes looks only at the lanes that its mask enables. -/
theorem mergeLanes_congr (w : Nat) (mask : W32) (old x y : W256)
    (h : ∀ i, i < 256 / w → mask.getLsbD i = true → lane x w i = lane y w i) :
    mergeLanes w mask old x = mergeLanes w mask old y := by
  have key (n : Nat) (hn : n ≤ 256 / w) :
      lanesOf 256 w (fun i => if bit mask i then lane x w i else lane old w i) n =
        lanesOf 256 w (fun i => if bit mask i then lane y w i else lane old w i) n := by
    induction n with
    | zero => rfl
    | succ n ih =>
      simp only [lanesOf, ih (by omega)]
      by_cases hb : mask.getLsbD n = true
      · simp only [bit, hb, if_true, h n (by omega) hb]
      · rw [Bool.not_eq_true] at hb; simp only [bit, hb]; rfl
  exact key _ (Nat.le_refl _)

theorem writeLanes_congr (s : State) (d : VReg) (w : Nat) (mask : W32) (x y : W256)
    (h : ∀ i, i < 256 / w → mask.getLsbD i = true → lane x w i = lane y w i) :
    writeLanes s d w mask x = writeLanes s d w mask y := by
  cases d <;> simp only [writeLanes] <;> rw [mergeLanes_congr w mask _ x y h]

theorem unionFlags_bit (l : List (Nat × Nat × Flags)) (acc : Flags) (k : Nat) :
    (l.foldl (fun f e => f ||| e.2.2) acc).getLsbD k = (acc.getLsbD k || l.any fun e => e.2.2.getLsbD k) := by
  induction l generalizing acc with
  | nil => simp
  | cons e t ih => rw [List.foldl_cons, ih]; simp [Bool.or_assoc]

/-- Results written to their places with the union of their flags, said of any mask, flags and value that name them. -/
theorem writeResults_eq {s : State} {d : VReg} {w : Nat} {l : List (Nat × Nat × Flags)} {fl : Flags} {dm : W32} {x : W256}
    (hn : (l.map Prod.fst).Nodup) (hb : ∀ e ∈ l, e.1 < 32 ∧ e.1 * w + w ≤ 256)
    (hf : ∀ k, fl.getLsbD k = true ↔ ∃ e ∈ l, e.2.2.getLsbD k = true)
    (hm : ∀ k, dm.getLsbD k = true ↔ ∃ e ∈ l, e.1 = k)
    (hx : ∀ e ∈ l, lane x w e.1 = BitVec.ofNat w e.2.1) :
    writeResults s d w l = if fl &&& fcsrEn (me s).fcsr = 0 then
      .ok (writeLanes (addFlags s s.cur s.slot fl) d w dm x) else .error (.trap 0x04 (fl.setWidth 64)) := by
  have hfl : unionFlags l = fl := by
    apply BitVec.eq_of_getLsbD_eq; intro k _
    rw [unionFlags, unionFlags_bit, Bool.eq_iff_iff, hf]; simp
  have hmask : BitVec.ofNat 32 (l.foldl (fun m e => m + 2 ^ e.1) 0) = dm := by
    have e : l.foldl (fun m e => m + 2 ^ e.1) 0 = (l.map Prod.fst).foldl (fun m i => m + 2 ^ i) 0 := by rw [List.foldl_map]
    apply BitVec.eq_of_getLsbD_eq; intro k _
    rw [e, sumMask_bit _ hn (by intro i hi; obtain ⟨e, he, rfl⟩ := List.mem_map.1 hi; exact (hb e he).1) 0 (by simp),
      Bool.eq_iff_iff, hm]
    simp
  have hlanes : ∀ i, i < 256 / w → dm.getLsbD i = true →
      lane (packLanes w (l.map fun e => (e.1, e.2.1))) w i = lane x w i := by
    intro i _ hi
    obtain ⟨e, he, rfl⟩ := (hm i).1 hi
    rw [hx e he]
    refine packLanes_lane w _ ?_ e.1 e.2.1 (List.mem_map.2 ⟨e, he, rfl⟩) (hb e he).2
    rwa [List.map_map]
  unfold writeResults raise
  rw [hfl]
  by_cases h : fl &&& fcsrEn (me s).fcsr = 0
  · rw [if_neg (by simpa using h), if_pos h]
    simp only [bind, Except.bind, hmask]
    rw [writeLanes_congr _ d w dm _ x hlanes]
  · rw [if_pos h, if_neg h]; rfl

/-- An instruction of `len` bytes whose body writes the results of its enabled lanes and then `after`. -/
theorem lanes_become {i : Instr} {s : State} {len : Nat} {mask : W32} {n w : Nat} {place : Nat → Nat} {d : VReg} {u : Uses}
    {g : Nat → Nat × Flags} {after : State → State} {on : Bool} {body : State → Except Stop State}
    (hi : exec i s = executeLen len s on u body)
    (hon : (∃ j, j < n ∧ mask.getLsbD j = true) → on = true)
    (hb : body (ready s) = (writeResults (ready s) d w (((List.range n).filter fun j => mask.getLsbD j).map fun j =>
      (place j, g j))).map fun t => advance (after t) len)
    (hp : ∀ j k, j < n → k < n → place j = place k → j = k) (hw : ∀ j, j < n → place j < 32 ∧ place j * w + w ≤ 256)
    (ha : ∀ t, (me (after t)).inflight ⊆ (me t).inflight) :
    LanesBecome i s len mask n w place d u g after := by
  unfold LanesBecome
  intro on' hex ho fl dm x hf hm hx
  have hmem (j : Nat) : j ∈ (List.range n).filter (fun j => mask.getLsbD j) ↔ on' j := by simp [on']
  have hn : ((((List.range n).filter fun j => mask.getLsbD j).map fun j => (place j, g j)).map Prod.fst).Nodup := by
    rw [List.map_map]
    refine List.Nodup.map_on ?_ (List.Nodup.filter _ List.nodup_range)
    intro a ha b hb h
    exact hp a b ((hmem a).1 ha).1 ((hmem b).1 hb).1 h
  have hres := writeResults_eq (s := ready s) (d := d) (w := w) (fl := fl) (dm := dm) (x := x) hn
    (by intro e he; obtain ⟨j, hj, rfl⟩ := List.mem_map.1 he; exact hw j ((hmem j).1 hj).1)
    (by intro k; rw [hf k]; constructor
        · rintro ⟨j, hj, h⟩; exact ⟨_, List.mem_map.2 ⟨j, (hmem j).2 hj, rfl⟩, h⟩
        · rintro ⟨e, he, h⟩; obtain ⟨j, hj, rfl⟩ := List.mem_map.1 he; exact ⟨j, (hmem j).1 hj, h⟩)
    (by intro k; rw [hm k]; constructor
        · rintro ⟨j, hj, h⟩; exact ⟨_, List.mem_map.2 ⟨j, (hmem j).2 hj, rfl⟩, h⟩
        · rintro ⟨e, he, h⟩; obtain ⟨j, hj, rfl⟩ := List.mem_map.1 he; exact ⟨j, (hmem j).1 hj, h⟩)
    (by intro e he; obtain ⟨j, hj, rfl⟩ := List.mem_map.1 he; exact hx j ((hmem j).1 hj))
  have hon' := hon hex
  rw [hi, executeLen, if_pos hon', issueBody, ho.1, ho.2, hb, hres, flaggedAnswer]
  by_cases h : fl &&& fcsrEn (me (ready s)).fcsr = 0
  · rw [if_pos h, if_pos h, ← commitPops_now (s := ready s) (popsOf (ready s) u)
      (by simpa using ha (writeLanes (addFlags (ready s) (ready s).cur (ready s).slot fl) d w dm x))]
    rfl
  · rw [if_neg h, if_neg h]; rfl

/-! ## Lanes as integers -/

/-- The number a lane's code stands for as a two's complement integer. -/
theorem qRead_toNat {w : Nat} (hw : 0 < w) (x : BitVec w) : qRead w x.toNat = x.toInt := by
  obtain ⟨n, rfl⟩ : ∃ n, w = n + 1 := ⟨w - 1, by omega⟩
  have hlt := x.isLt
  have hp : 2 ^ (n + 1) = 2 * 2 ^ n := by rw [Nat.pow_succ]; omega
  simp only [qRead, BitVec.toInt, Nat.mod_eq_of_lt hlt, Nat.add_sub_cancel]
  split <;> split <;> first | rfl | omega

theorem intCode_eq (w : Nat) (x : Int) : intCode w x = (BitVec.ofInt w x).toNat := by simp [intCode]

/-! ## The shared lane operations -/

theorem LFmt.lanes_width (f : LFmt) : f.lanes * f.width = 256 ∧ f.lanes ≤ 32 ∧ 0 < f.width := by cases f <;> decide

theorem enabledLanes_lanesOn (m : W32) (n : Nat) (hn : n ≤ 32) :
    enabledLanes (lanesOn m n) n = (List.range n).filter fun j => m.getLsbD j := by
  refine List.filter_congr ?_
  intro j hj
  have hj : j < n := List.mem_range.1 hj
  have : (2 ^ n - 1).testBit j = true := by simp [Nat.testBit_two_pow_sub_one, hj]
  rw [lanesOn, bit, BitVec.getLsbD_and, BitVec.getLsbD_ofNat, this]; simp [show j < 32 by omega]

theorem lanesOn_ne_zero {m : W32} {n : Nat} (hn : n ≤ 32) (h : ∃ j, j < n ∧ m.getLsbD j = true) :
    (lanesOn m n != 0) = true := by
  obtain ⟨j, hj, hb⟩ := h
  have h1 : (2 ^ n - 1).testBit j = true := by simp [Nat.testBit_two_pow_sub_one, hj]
  have h2 : (lanesOn m n).getLsbD j = true := by
    rw [lanesOn, BitVec.getLsbD_and, BitVec.getLsbD_ofNat, hb, h1]; simp [show j < 32 by omega]
  simp only [bne_iff_ne, ne_eq]
  intro h0; rw [h0] at h2; simp at h2

theorem laneOp_becomes {i : Instr} {s : State} {len : Nat} {p : Pred} {f : LFmt} {d : VReg} {u : Uses}
    {g : State → Nat → Nat × Flags} {g' : Nat → Nat × Flags} (hi : exec i s = laneOp len p f d u g s)
    (hg : ∀ j, g (ready s) j = g' j) :
    LanesBecome i s len (predMask s p) f.lanes f.width id d { u with dstV := [d] } g' id := by
  obtain ⟨h1, h2, h3⟩ := LFmt.lanes_width f
  have hq : 256 / f.width = f.lanes := by rw [← h1]; exact Nat.mul_div_cancel _ h3
  refine lanes_become hi ?_ ?_ (fun j k _ _ h => h) ?_ fun _ => List.Subset.refl _
  · intro h; rw [activeLanes, hq]; exact lanesOn_ne_zero h2 h
  · simp only [activeLanes, hq, enabledLanes_lanesOn _ _ h2, hg]; rfl
  · intro j hj
    have : (j + 1) * f.width ≤ f.lanes * f.width := Nat.mul_le_mul_right _ hj
    rw [Nat.add_mul] at this
    exact ⟨by simp only [id]; omega, by simp only [id]; omega⟩

/-- With .P, an instruction that is on in some lane does what it does without. -/
theorem withP_on {p : Pred} {w : Nat} {dotP : Bool} {u : Uses} {k : State → Answer} {s : State}
    (h : activeLanes s p w ≠ 0) : withP p w dotP u k s = k s := by
  have : (activeLanes s p w = 0 && dotP) = false := by rw [decide_eq_false h]; rfl
  rw [withP, if_neg (by rw [this]; decide)]

end Sys2Proof.Machine
end

