-- ==== Sys2Proof/Laws/Memory.lean ====
section
/-!
SUPPORT. The canonical memory: what is read after a write, and that every operation that writes memory keeps the form.
-/
set_option Elab.async false
namespace Sys2Proof.Machine

/-! ## Bytes -/

theorem memWfFrom_mono {lo hi : Nat} {m : List Host.Cell} (h : memWfFrom hi m = true) (hl : lo ≤ hi) :
    memWfFrom lo m = true := by
  cases m with
  | nil => rfl
  | cons e t => simp only [memWfFrom, Bool.and_eq_true, decide_eq_true_eq] at h ⊢; exact ⟨⟨by omega, h.1.2⟩, h.2⟩

/-- Below the first listed location nothing is listed. -/
theorem memGet_below {lo k : Nat} {m : List Host.Cell} (h : memWfFrom lo m = true) (hk : k < lo) : memGet m k = blank := by
  induction m generalizing lo with
  | nil => rfl
  | cons e t ih =>
    obtain ⟨a, b⟩ := e
    simp only [memWfFrom, Bool.and_eq_true, decide_eq_true_eq] at h
    rw [memGet, if_neg (by omega), ih h.2 (by omega)]

theorem memSet_wfFrom {lo k : Nat} {m : List Host.Cell} (b : Byte) (h : memWfFrom lo m = true) (hk : lo ≤ k) :
    memWfFrom lo (memSet k b m) = true := by
  induction m generalizing lo with
  | nil => by_cases hb : b = blank <;> simp [memSet, memWfFrom, hb, hk]
  | cons e t ih =>
    obtain ⟨a, c⟩ := e
    simp only [memWfFrom, Bool.and_eq_true, decide_eq_true_eq] at h
    by_cases h1 : k < a
    · by_cases hb : b = blank
      · simp [memSet, h1, hb, memWfFrom, h]
      · simp [memSet, h1, hb, memWfFrom, hk, Nat.succ_le_of_lt h1, h]
    · by_cases h2 : k = a
      · subst k
        by_cases hb : b = blank
        · simp only [memSet, h1, hb, if_true, if_false]; exact memWfFrom_mono h.2 (by omega)
        · simp [memSet, hb, memWfFrom, h]
      · simp [memSet, h1, h2, memWfFrom, h.1, ih h.2 (by omega)]

/-- A byte written keeps the form. -/
theorem memSet_wf {m : List Host.Cell} (k : Nat) (b : Byte) (h : Memory.wf m = true) : Memory.wf (memSet k b m) = true :=
  memSet_wfFrom b h (Nat.zero_le k)

theorem memGet_memSet_from {lo : Nat} {m : List Host.Cell} (k j : Nat) (b : Byte) (h : memWfFrom lo m = true) :
    memGet (memSet k b m) j = if j = k then b else memGet m j := by
  induction m generalizing lo with
  | nil =>
    by_cases hb : b = blank <;> by_cases hj : j = k
    · simp [memSet, memGet, hb]
    · simp [memSet, memGet, hb]
    · simp [memSet, memGet, hb, hj]
    · simp [memSet, memGet, hb, hj, Ne.symm hj]
  | cons e t ih =>
    obtain ⟨a, c⟩ := e
    simp only [memWfFrom, Bool.and_eq_true, decide_eq_true_eq] at h
    by_cases h1 : k < a
    · by_cases hb : b = blank <;> by_cases hj : j = k
      · have : memGet t k = blank := memGet_below h.2 (by omega)
        simp [memSet, h1, hb, hj, memGet, this, Nat.ne_of_gt h1]
      · simp [memSet, h1, hb, hj]
      · simp [memSet, h1, hb, hj, memGet]
      · simp [memSet, h1, hb, hj, memGet, Ne.symm hj]
    · by_cases h2 : k = a
      · subst a
        by_cases hb : b = blank <;> by_cases hj : j = k
        · have : memGet t k = blank := memGet_below h.2 (by omega)
          simp [memSet, hb, hj, this]
        · simp [memSet, hb, hj, memGet, Ne.symm hj]
        · simp [memSet, hb, hj, memGet]
        · simp [memSet, hb, hj, memGet, Ne.symm hj]
      · simp only [memSet, h1, h2, if_false, memGet, ih h.2]
        by_cases hj : a = j
        · subst a; simp [Ne.symm h2]
        · simp [hj]

/-- A byte written is read back, and no other byte changes. -/
theorem memGet_memSet {m : List Host.Cell} (k j : Nat) (b : Byte) (h : Memory.wf m = true) :
    memGet (memSet k b m) j = if j = k then b else memGet m j := memGet_memSet_from k j b h

/-- Entries left out of a memory in the form leave it in the form. -/
theorem memFilter_wfFrom {lo : Nat} {m : List Host.Cell} (p : Host.Cell → Bool) (h : memWfFrom lo m = true) :
    memWfFrom lo (m.filter p) = true := by
  induction m generalizing lo with
  | nil => rfl
  | cons e t ih =>
    obtain ⟨a, b⟩ := e
    simp only [memWfFrom, Bool.and_eq_true, decide_eq_true_eq] at h
    rw [List.filter_cons]
    split
    · simp [memWfFrom, h.1, ih h.2]
    · exact memWfFrom_mono (ih h.2) (by omega)

theorem memFilter_wf {m : List Host.Cell} (p : Host.Cell → Bool) (h : Memory.wf m = true) :
    Memory.wf (m.filter p) = true := memFilter_wfFrom p h

/-! ## Words -/

theorem memPut_wf {m : List Host.Cell} (loc : Nat) (mask : BitVec 8) (v : W64) (n : Nat) (h : Memory.wf m = true) :
    Memory.wf (memPut m loc mask v n) = true := by
  induction n with
  | zero => exact h
  | succ n ih => simp only [memPut]; split <;> [exact memSet_wf _ _ ih; exact ih]

/-- A masked write of the first n bytes of a word, read back. -/
theorem memGet_memPut {m : List Host.Cell} (loc : Nat) (mask : BitVec 8) (v : W64) (n k : Nat) (h : Memory.wf m = true) :
    memGet (memPut m loc mask v n) k =
      if loc ≤ k ∧ k < loc + n ∧ bit mask (k - loc) = true then byteAt v (k - loc) else memGet m k := by
  induction n with
  | zero => rw [if_neg (by omega)]; rfl
  | succ n ih =>
    simp only [memPut]
    by_cases hk : k = loc + n
    · subst hk
      rw [if_neg (by omega)] at ih
      cases hb : bit mask n
      · simp [ih, hb]
      · simp [memGet_memSet _ _ _ (memPut_wf loc mask v n h), hb]
    · have e : (loc ≤ k ∧ k < loc + (n + 1) ∧ bit mask (k - loc) = true) ↔
          (loc ≤ k ∧ k < loc + n ∧ bit mask (k - loc) = true) := by
        constructor <;> rintro ⟨h1, h2, h3⟩ <;> exact ⟨h1, by omega, h3⟩
      rw [if_congr e rfl rfl]
      cases hb : bit mask n
      · simpa using ih
      · simp [memGet_memSet _ _ _ (memPut_wf loc mask v n h), hk, ih]

/-! ## Operations of the machine that write memory -/

theorem rekey_wf {s : State} (word key : Nat) (h : Memory.wf s.mem = true) : Memory.wf (rekey s word key).mem = true := by
  have fill (l : List Nat) (g : Nat → Nat) (f : Nat → Byte) (m : List Host.Cell) (hm : Memory.wf m = true) :
      Memory.wf (l.foldl (fun m i => memSet (g i) (f i) m) m) = true := by
    induction l generalizing m with
    | nil => exact hm
    | cons i l ih => exact ih _ (memSet_wf _ _ hm)
  unfold rekey
  generalize List.range 128 = l
  split
  · exact h
  · dsimp only
    split
    · exact h
    · exact fill l (fun i => word / 128 * 128 + i) (fun i => Config.wrongKeyByte s.freeCtr (word / 128 * 128 + i)) s.mem h

theorem putWord_wf {s : State} (word key : Nat) (mask : BitVec 8) (v : W64) (h : Memory.wf s.mem = true) :
    Memory.wf (putWord s word key mask v).mem = true := memPut_wf _ _ _ _ (rekey_wf word key h)

@[simp] theorem setTag_mem (s : State) (word : Nat) (t : Option Tag) : (setTag s word t).mem = s.mem := by
  unfold setTag; split <;> rfl
@[simp] theorem countMiss_mem (s : State) (c : CoreId) (lo : Nat) : (countMiss s c lo).mem = s.mem := rfl
@[simp] theorem parkMiss_mem (s : State) (r : Reader) (word : Nat) : (parkMiss s r word).mem = s.mem := by
  unfold parkMiss; split
  · rfl
  · split
    · rfl
    · split <;> rfl
@[simp] theorem postFault_mem (s : State) (a : Fin 20) (m : FaultMsg) : (postFault s a m).mem = s.mem := rfl
@[simp] theorem rejectStore_mem (s : State) (c : CoreId) (e : StoreEntry) : (rejectStore s c e).mem = s.mem := rfl
@[simp] theorem rejectRed_mem (s : State) (c : CoreId) (r : Reduction) : (rejectRed s c r).mem = s.mem := rfl
@[simp] theorem ackRed_mem (s : State) (c : CoreId) (r : Reduction) : (ackRed s c r).mem = s.mem := rfl
@[simp] theorem joinUnit_mem (s : State) (c : CoreId) (r : Reduction) : (joinUnit s c r).mem = s.mem := rfl
@[simp] theorem normAdd_mem (s : State) (part die n : Nat) (x : Int) : (normAdd s part die n x).mem = s.mem := rfl
@[simp] theorem parkReq_mem (s : State) (c : CoreId) (p : Pending) (loc : Nat) : (parkReq s c p loc).2.mem = s.mem := by
  unfold parkReq; split
  · rfl
  · split <;> rfl

theorem putBytes_wf {s : State} (loc key n : Nat) (v : W64) (h : Memory.wf s.mem = true) :
    Memory.wf (putBytes s loc key n v).mem = true := putWord_wf _ _ _ _ h

theorem readPart_mem (s : State) (c : CoreId) (uid : Nat) (p : Pending) (j : Nat) (q : Part) :
    (readPart s c uid p j q).2.mem = s.mem := by unfold readPart; split <;> simp

theorem genPart_mem (s : State) (c : CoreId) (uid : Nat) (p : Pending) (j : Nat) (q : Part) (b : W32) :
    (genPart s c uid p j q b).2.mem = s.mem := by
  unfold genPart; dsimp only; split
  · rfl
  · split
    · simp
    · split <;> simp

theorem rmwPart_wf {s : State} (c : CoreId) (i : Slot) (uid : Nat) (p : Pending) (j : Nat) (q : Part)
    (h : Memory.wf s.mem = true) : Memory.wf (rmwPart s c i uid p j q).2.mem = true := by
  unfold rmwPart; dsimp only; split
  · exact h
  · split
    · simp [h]
    · split
      · exact h
      · split
        · exact h
        · dsimp only; split <;> simp [putBytes_wf _ _ _ _ h]

/-- A request performed at its home keeps the form. -/
theorem performPart_wf {s : State} (c : CoreId) (i : Slot) (uid : Nat) (p : Pending) (j : Nat)
    (h : Memory.wf s.mem = true) : Memory.wf (performPart s c i uid p j).2.mem = true := by
  unfold performPart
  split
  · exact h
  · split
    · exact h
    · split
      · exact h
      · split
        · rw [readPart_mem]; exact h
        · split
          · rw [readPart_mem]; exact h
          · rw [parkReq_mem]; exact h
        · split <;> exact h
        · rw [genPart_mem]; exact h
        all_goals exact rmwPart_wf _ _ _ _ _ _ h

theorem performParts_wf {s : State} (c : CoreId) (i : Slot) (uid : Nat) (p : Pending) (n : Nat)
    (h : Memory.wf s.mem = true) : Memory.wf (performParts s c i uid p n).2.mem = true := by
  induction n with
  | zero => exact h
  | succ n ih => exact performPart_wf c i uid _ n ih

theorem retryReq_wf {s : State} (c : CoreId) (i : Slot) (q : Nat) (h : Memory.wf s.mem = true) :
    Memory.wf (retryReq s c i q).mem = true := by
  unfold retryReq; dsimp only; split
  · exact h
  · split
    · exact h
    · exact performParts_wf c i _ _ _ h

/-- The requests that wait on a word, performed, keep the form. -/
theorem wakeWord_wf {s : State} (word : Nat) (h : Memory.wf s.mem = true) : Memory.wf (wakeWord s word).mem = true := by
  have all (l : List (Nat × CoreId × Slot × Nat)) (s : State) (h : Memory.wf s.mem = true) :
      Memory.wf (l.foldl (fun s e => retryReq s e.2.1 e.2.2.1 e.2.2.2) s).mem = true := by
    induction l generalizing s with
    | nil => exact h
    | cons e l ih => exact ih _ (retryReq_wf _ _ _ h)
  exact all _ s h

theorem homeWrite_wf {s : State} (word key : Nat) (mask : BitVec 8) (v : W64) (t : Option Tag)
    (h : Memory.wf s.mem = true) : Memory.wf (homeWrite s word key mask v t).mem = true :=
  wakeWord_wf _ (by simp [putWord_wf _ _ _ _ h])

theorem performStore_wf {s : State} (c : CoreId) (e : StoreEntry) (h : Memory.wf s.mem = true) :
    Memory.wf (performStore s c e).mem = true := by
  have hp := putWord_wf (s := modCore s c fun k =>
    { k with stores := dropStores (fun x => x.seq == e.seq && x.word == e.word) k.stores }) e.word e.key e.mask e.val h
  unfold performStore; split
  · exact h
  · dsimp only
    refine wakeWord_wf _ ?_
    rw [setTag_mem]
    split
    · exact hp
    · exact hp

theorem drainStores_wf {s : State} (c : CoreId) (q n : Nat) (h : Memory.wf s.mem = true) :
    Memory.wf (drainStores s c q n).mem = true := by
  induction n generalizing s with
  | zero => exact h
  | succ n ih =>
    unfold drainStores; split
    · exact ih (performStore_wf c _ h)
    · exact h

theorem queueStores_wf {s : State} (es : List StoreEntry) (h : Memory.wf s.mem = true) :
    Memory.wf (queueStores s es).mem = true := by
  unfold queueStores; dsimp only; split
  · exact h
  · exact drainStores_wf _ _ _ h

theorem normWrite_wf {s : State} (part die n word key : Nat) (mask : BitVec 2) (v : W64) (h : Memory.wf s.mem = true) :
    Memory.wf (normWrite s part die n word key mask v).mem = true := homeWrite_wf _ _ _ _ _ h

theorem performRed_wf {s : State} (c : CoreId) (r : Reduction) (h : Memory.wf s.mem = true) :
    Memory.wf (performRed s c r).mem = true := by
  have plain (k : RedKind) (sc : Option Scope) : Memory.wf (match sc with
      | some sc => wakeWord (setTag (putBytes s r.loc r.key (redBytes k)
          (redVal k (subWord (homeWord s (wordOf r.loc) r.key).1 (r.loc % 8) (redBytes k)) r.val)) (wordOf r.loc)
          (some (releaseTag (putBytes s r.loc r.key (redBytes k)
          (redVal k (subWord (homeWord s (wordOf r.loc) r.key).1 (r.loc % 8) (redBytes k)) r.val)) c r.slot r.uid r.seq
            (wordOf r.loc) sc))) (wordOf r.loc)
      | none => putBytes s r.loc r.key (redBytes k)
          (redVal k (subWord (homeWord s (wordOf r.loc) r.key).1 (r.loc % 8) (redBytes k)) r.val)).mem = true := by
    have hp := putBytes_wf (s := s) r.loc r.key (redBytes k)
      (redVal k (subWord (homeWord s (wordOf r.loc) r.key).1 (r.loc % 8) (redBytes k)) r.val) h
    split
    · exact wakeWord_wf _ (by simpa using hp)
    · exact hp
  unfold performRed; dsimp only
  split
  · simp [h]
  · split
    · exact h
    · split
      · rename_i n m _
        exact normWrite_wf (partOfCore s c) (dieNum c) n.val (wordOf r.loc) r.key m r.val h
      · exact plain _ _

@[simp] theorem rejectUnit_mem (s : State) (die : Fin 4) (u : ShadowUnit) : (rejectUnit s die u).mem = s.mem := by
  unfold rejectUnit; split
  · simp [dropUnit]
  · simp [rejectRed, dropUnit]

theorem mergeShadow_wf {s : State} (die : Fin 4) (u : ShadowUnit) (h : Memory.wf s.mem = true) :
    Memory.wf (mergeShadow s die u).mem = true := by
  have hp := putBytes_wf (s := s) u.loc u.key (redBytes u.kind)
    (redVal u.kind (subWord (homeWord s (wordOf u.loc) u.key).1 (u.loc % 8) (redBytes u.kind)) u.val) h
  unfold mergeShadow; dsimp only; split
  · simpa using h
  · rw [dropUnit, modDie_mem]; split
    · exact hp
    · exact hp

theorem mergeUnits_wf {s : State} (die : Fin 4) (u : ShadowUnit) (h : Memory.wf s.mem = true) :
    Memory.wf (mergeUnits s die u).mem = true := by
  have all (l : List (Fin 4 × ShadowUnit)) (s : State) (h : Memory.wf s.mem = true) :
      Memory.wf (l.foldl (fun s e => mergeShadow s e.1 e.2) s).mem = true := by
    induction l generalizing s with
    | nil => exact h
    | cons e l ih => exact ih _ (mergeShadow_wf _ _ h)
  unfold mergeUnits; split
  · exact all _ _ h
  · exact h

theorem combineShadow_wf {s : State} (c : CoreId) (r : Reduction) (h : Memory.wf s.mem = true) :
    Memory.wf (combineShadow s c r).mem = true := by
  have all (l : List ShadowUnit) (s : State) (h : Memory.wf s.mem = true) :
      Memory.wf (l.foldl (fun s u => mergeUnits s (dieOf c) u) s).mem = true := by
    induction l generalizing s with
    | nil => exact h
    | cons e l ih => exact ih _ (mergeUnits_wf _ _ h)
  have fst {b : Bool} {t u : State} (ht : Memory.wf t.mem = true) (hu : Memory.wf u.mem = true) :
      Memory.wf (if b = true then t else u).mem = true := by split <;> assumption
  have mine := all (otherUnits s.dies[dieOf c] r) s h
  have rejected : Memory.wf (rejectRed s c r).mem = true := by simpa [rejectRed] using h
  unfold combineShadow; dsimp only
  exact fst h (fst rejected (fst h (fst h mine)))

end Sys2Proof.Machine
end

