-- ==== Sys2Proof/Tests/Slice0.lean ====
section
/-!
SUPPORT. Tests: ill-formed instructions refused, words written out from the spec's encodings, results of the spec's worked
cases, and for each statement a state and operands that meet its hypotheses.
-/
set_option Elab.async false
namespace Sys2Proof.Tests
open Sys2Proof.Machine

/-! ## States -/

/-- A bond of job 0 that holds cluster 0, not yet fanned. -/
def bond0 : Bond where
  job := 0
  part := 0
  cx := 0
  cy := 0
  cw := 1
  ch := 1
  spc := 1
  dmask := 1
  size := 0
  fanned := false
  late := false
  contup := 0
  bay := 0
  fanPc := 0
  fanArg := 0
  fanMask := 0
  bar := ⟨[1], [], 7⟩
  courses := [(0, ⟨[1], [], 3⟩)]
  seqr := some (0, 0)
  tregion := 0
  tsErr := false
  tsFlags := 0
  tsCause := 0
  leftCourse := []
  leftBond := 0
  leftBay := 0
  leftJob := 0
  queue := 0
  packetNo := 0
  packet := ⟨0, 0⟩

/-- A strand of bond 0. -/
def strand0 : Strand :=
  { Strand.free with occ := true, uid := 1, super := true, pc := 0xFFFFFFFFFFFF0000, member := true, bond := some 0 }

/-- Core (0, 0) with that strand in slot 0, its cluster bond 0's. -/
def base : State :=
  { State.reset with
    cores := [(0, { Core.reset with slots := Core.reset.slots.set 0 strand0 })]
    clusters := [(0, { Cluster.reset with bond := some 0, part := some 0 })]
    parts := [(0, { Partition.free with phase := .running, clusters := [0] })]
    bonds := [(0, bond0)]
    dies := State.reset.dies.set 0 { Die.reset with
      seqrs := Die.reset.seqrs.set 0 ⟨some 0, Timeline.zero, [], some 0⟩ }
    nextUid := 2
    nextBond := 1 }

/-- The base state with values in g registers. -/
def withG (l : List (Nat × W64)) : State :=
  modMe base fun t => { t with g := l.foldl (fun g e => if h : e.1 < 24 then g.set e.1 e.2 else g) t.g }

/-- The first address of the core's own slice. -/
def own : W64 := 0xFFFFFFFFFFFF0000

/-! ## Hypotheses as computations -/

def isOk {α : Type} : Except Stop α → Bool
  | .ok _ => true
  | .error _ => false

theorem ok_of {α : Type} {x : Except Stop α} (h : isOk x = true) : ∃ y, x = .ok y := by
  cases x with
  | ok y => exact ⟨y, rfl⟩
  | error e => cases h

def operableB (s : State) (u : Uses) : Bool := isOk (issueChecks s u (popsOf s u) (pushesOf s u)) && (operandStop s u).isNone

theorem operable {s : State} {u : Uses} (h : operableB s u = true) : Operable s u := by
  simp only [operableB, Bool.and_eq_true, Option.isNone_iff_eq_none] at h
  obtain ⟨y, hy⟩ := ok_of h.1
  exact ⟨hy, h.2⟩

/-! ## Ill-formed instructions (R80, R91, R115, R129, R144, R153, R160, R161, R171, R284) -/

theorem test_illformed_load_into_its_base : wellFormed (.ld .always (.g 4) 4 .d .postInc 1) = false ∧
    wellFormed (.ldp .always (.g 4) 4 .postInc 1) = false := by decide
theorem test_illformed_fences : wellFormed (.fence .none .pk true false) = false ∧
    wellFormed (.fence .none .cr false false) = false ∧ wellFormed (.fence .acq .pk false true) = false := by decide
theorem test_illformed_stochastic_widening : wellFormed (.fcvt .always true .fp64 .fp32 (.g 1) (.g 2)) = false := by decide
theorem test_illformed_float_shift : wellFormed (.vmulh .always .fp32 (.v 1) (.v 2) (.v 3)) = false ∧
    wellFormed (.vshl .always .bf16 (.v 1) (.v 2) (.v 3)) = false ∧
    wellFormed (.cVshl .b8p4se (.v 1) (.v 2)) = false := by decide
theorem test_illformed_viota : wellFormed (.viota .always .fp32 false (.v 1) (.g 2)) = false ∧
    wellFormed (.viota .always .i32 false (.w 1) (.s 1)) = false := by decide
theorem test_illformed_formats : wellFormed (.vlut .always .i32 (.v 1) (.v 2) (.v 3)) = false ∧
    wellFormed (.vexp2 .always .fp64 false (.v 1) (.v 2)) = false := by decide
theorem test_illformed_conditions : wellFormed (.vcmp .always .ltu .fp32 1 (.v 2) (.v 3)) = false ∧
    wellFormed (.vcmp .always .un .i8 1 (.v 2) (.v 3)) = false := by decide
theorem test_illformed_lane_indexes : wellFormed (.vbcast .always .fp32 (.v 1) (.v 2) 8) = false ∧
    wellFormed (.vins .always .fp64 1 (.g 2) 4) = false ∧ wellFormed (.vrot .always .bf16 (.v 1) (.v 2) 16) = false ∧
    wellFormed (.vext .always .i16 (.g 1) (.v 2) 16) = false ∧
    wellFormed (.vext .always .i16 (.s 2) (.w 2) 0) = false := by decide
theorem test_illformed_conversions : wellFormed (.vcvt .always false (.ff .fp32 .bf16) 2 (.v 1) (.v 2)) = false ∧
    wellFormed (.vcvt .always true (.ff .fp32 .bf16) 0 (.v 1) (.v 2)) = false ∧
    wellFormed (.vcvt .always false (.fi .bf16 .i64) 0 (.v 1) (.v 2)) = false ∧
    wellFormed (.vcvt .always false (.intF .fp16 .n64) 0 (.v 1) (.v 2)) = false ∧
    wellFormed (.vnarrow .always false .bf16 2 (.v 1) (.v 2)) = false ∧
    wellFormed (.vwiden .always .fp32 .i4 ⟨7, by decide⟩ (.v 1) (.v 2)) = true ∧
    wellFormed (.vwiden .always .bf16 .i16 1 (.v 1) (.v 2)) = false := by decide
theorem test_illformed_fractions : wellFormed (.qmul .always .w16 16 1 (.g 2)) = false ∧
    wellFormed (.qdiv .always .w32 32 1 (.g 2)) = false ∧ wellFormed (.qsqrt .always .w32 63 (.g 1) (.g 2)) = false := by
  decide
theorem test_illformed_register_groups : wellFormed (.iter .always 20 1 0) = false ∧
    wellFormed (.iteri .always 22 1 0) = false ∧ wellFormed (.send .always 17 1 2 0) = false ∧
    wellFormed (.senda .always 17 1 2 0) = false ∧ wellFormed (.gang .always 1 2 21 3) = false := by decide
theorem test_illformed_fan : wellFormed (.fan .always 1 2 3 0) = false := by decide
theorem test_illformed_accumulators : wellFormed (.movk .always (.double (.g 1)) 3) = false ∧
    wellFormed (.movtk .always 4 (.vector (.v 1))) = false := by decide
theorem test_illformed_turned_store : wellFormed (.vstt .always (.v 1) 4 .postInc 4 .w) = false := by decide
theorem test_illformed_compressed_fp64 : wellFormed (.cVadd .fp64 (.v 1) (.v 2)) = false := by decide

/-! ## Words of the spec's encoding tables ("Encodings worked out", and the tables beside single instructions) -/

/-- The n-byte word w decodes to i, with no byte left, and i encodes to it. -/
def reads (n w : Nat) (i : Instr) : Bool :=
  decide (decode (leBytes n w) = .ok (i, [])) && decide (encode i = some ⟨8 * n, w⟩)

theorem test_words_integer : reads 4 0x00290601 (.add .always (.g 3) (.g 4) (.g 5)) ∧
    reads 4 0x0B435E01 (.rol .always (.g 15) (.g 13) (.g 8)) ∧ reads 4 0x0429060B (.srai .always (.g 3) (.g 4) 5) ∧
    reads 4 0x2468C811 (.lui (.g 4) 37283) ∧ reads 4 0xB3C10803 (.addi .always (.g 4) (.g 4) (BitVec.ofInt 13 (-2440))) ∧
    reads 4 0x96290615 (.lop3 .always 3 (.g 4) (.g 5) 0x96) := by decide +kernel
theorem test_words_control : reads 4 0xFFF90623 (.bne (.g 3) (.g 4) (BitVec.ofInt 15 (-4))) ∧
    reads 4 0x0005EE31 (.jalr .always (.g 23) 23 0) ∧ reads 4 0x00202E2F (.jal (.g 23) 128) ∧
    reads 4 0x00083333 (.beos 1 6) ∧ reads 4 0x00A11435 (.iter .always 10 4 20) ∧
    reads 4 0x80211835 (.iteri .always 12 4 4) ∧ reads 4 0x0301406D (.trap .always (.g 5) 3) ∧
    reads 4 0x000B40EB (.csrw 1 (.g 13)) ∧ reads 4 0x00000000 (.cVadd .fp32 (.v 0) (.v 0)) = false := by decide +kernel
theorem test_words_memory : reads 4 0x02194839 (.ld .always (.g 4) 5 .d .offset 2) ∧
    reads 4 0x0151CC39 (.ld .always (.g 6) 7 .w .postInc 1) ∧ reads 4 0x0B19063D (.lda .always (.g 3) 4 .d .pk 1) ∧
    reads 4 0x01010A3F (.ldp .always (.g 5) 4 .offset 1) ∧ reads 4 0x0161043F (.vstp .always (.v 2) 4 .postInc 1) ∧
    reads 4 0x00010241 (.vld .always (.v 1) 4 .offset 0) ∧ reads 4 0x01090243 (.stn .always (.v 1) 4 .offset 1 0) ∧
    reads 4 0x46410443 (.vstt .always (.v 2) 4 .postInc 6 .w) ∧ reads 4 0x09290645 (.amo .none .add .d .cl (.g 3) 4 (.g 5)) ∧
    reads 4 0x83450047 (.fred false .add .fp32 .pk 20 (.g 8)) ∧ reads 4 0x03000149 (.fence .rel .pk false false) ∧
    reads 4 0x08000049 (.fence .none .cr true false) := by decide +kernel
theorem test_words_waits : reads 4 0x001B5A4B (.waitge .always 13 13 3) ∧ reads 4 0x4000004D (.bar .always .bond) ∧
    reads 4 0xC0000A4D (.arrive .always .bond 5) ∧ reads 4 0x00000A4F (.tnow .always 5) ∧
    reads 4 0x80010A4F (.tuntil .always 5 4) := by decide +kernel
theorem test_words_float_and_vector : reads 4 0x01290651 (.fadd .always .fp32 (.g 3) (.g 4) (.g 5)) ∧
    reads 4 0x32AE2453 (.fma .always .fp32 (.g 18) (.s 0) (.g 21) (.g 18)) ∧
    reads 4 0x0A190655 (.fcvtWideToB8 .always false .fp32 ⟨3, false, false⟩ (.g 3) (.g 4)) ∧
    reads 4 0x02188357 (.vadd .m2 .bf16 (.v 1) (.v 2) (.v 3)) ∧
    reads 4 0x4418825B (.vfma .always .bf16 (.v 1) (.v 2) (.v 3) (.v 4)) ∧
    reads 4 0x0300C65D (.vcvt .always false (.ff .fp32 .bf16) 0 (.v 3) (.v 3)) ∧
    reads 2 0xB1B0 (.cVmov .i32 (.q .e) (.w 0)) := by decide +kernel
theorem test_words_strands_and_units : reads 4 0x00013261 (.scfg .always 1 4) ∧
    reads 4 0x20077061 (.sbind .always 0 (some .e)) ∧ reads 4 0x40068A61 (.spos .always 5 2) ∧
    reads 4 0x00290E63 (.spawn .always 7 4 5) ∧ reads 4 0x10000063 (.endStrand .always) ∧
    reads 4 0x53290063 (.send .always 0 4 5 3) ∧ reads 4 0x7F290C63 (.fan .always 6 4 5 15) ∧
    reads 4 0x09410A65 (.gang .always 5 4 8 9) ∧ reads 4 0x90200665 (.movk .always (.double (.g 3)) 4) ∧
    reads 4 0xC0074665 (.ppeek .always 3 .e) ∧ reads 4 0x00310A67 (.topTmm .always 5 4 6) ∧
    reads 4 0x20290067 (.recon .always 4 5) ∧ reads 4 0x8001CA67 (.reverse .always 5 7) ∧
    reads 4 0x20000A69 (.cpgo .always 1 5) ∧ reads 4 0x40310A69 (.cpblk .always 0 5 4 6) ∧
    reads 4 0x80010E69 (.ftgo .always 7 4) ∧ reads 4 0xC0290669 (.armw .always 3 4 5) := by decide +kernel
/-- Words that R80 makes illegal: a reserved major, the word of R82, a reserved size, a reserved vector field. -/
theorem test_words_refused : [0xFFFFFFFF, 0x0000001F, 0x00390E39, 0x00012A41].map
    (fun w => (decodeTableWord 32 w).isNone) = [true, true, true, true] := by decide +kernel
/-! ## Results of the spec's worked cases -/

/-- The answer is a next state of which p holds. -/
def leaves (x : Answer) (p : State → Bool) : Bool :=
  match x with
  | .next t => p t
  | .fault _ | .refused _ => false

/-- Register d after an instruction with the given g values. -/
def gives (l : List (Nat × W64)) (i : Instr) (d : Fin 24) (v : W64) : Bool := leaves (exec i (withG l)) fun t => (me t).g[d] == v

/-- R107: the full adder on 12, 10 and 6. -/
theorem test_lop3 : gives [(6, 12), (4, 10), (5, 6)] (.lop3 .always 6 (.g 4) (.g 5) 0x96) 6 0 ∧
    gives [(3, 12), (4, 10), (5, 6)] (.lop3 .always 3 (.g 4) (.g 5) 0xE8) 3 14 := by decide +kernel
/-- R108. -/
theorem test_funnel_shifts :
    gives [(4, 0x1122334455667788), (5, 0x99AABBCCDDEEFF00)] (.fshl .always (.g 3) (.g 4) (.g 5) 8) 3 0x2233445566778899 ∧
    gives [(4, 0x1122334455667788), (5, 0x99AABBCCDDEEFF00)] (.fshr .always (.g 3) (.g 4) (.g 5) 8) 3 0x8899AABBCCDDEEFF := by
  decide +kernel
/-- R109's table of sample results. -/
theorem test_division : gives [(4, 7), (5, -2)] (.div .always (.g 3) (.g 4) (.g 5)) 3 (-3) ∧
    gives [(4, 7), (5, -2)] (.rem .always (.g 3) (.g 4) (.g 5)) 3 1 ∧
    gives [(4, -7), (5, 2)] (.div .always (.g 3) (.g 4) (.g 5)) 3 (-3) ∧
    gives [(4, -7), (5, 2)] (.rem .always (.g 3) (.g 4) (.g 5)) 3 (-1) ∧
    gives [(4, 7)] (.divu .always (.g 3) (.g 4) (.g 5)) 3 0xFFFFFFFFFFFFFFFF ∧
    gives [(4, 7)] (.remu .always (.g 3) (.g 4) (.g 5)) 3 7 ∧
    gives [(4, 0xFFFFFFFFFFFFFFFF), (5, 2)] (.mulhu .always (.g 3) (.g 4) (.g 5)) 3 1 := by decide +kernel
/-- R92: LI g4, 0x12345678. -/
theorem test_load_immediate : gives [] (.lui (.g 4) 37283) 4 (0x12345678 + 2440) ∧
    gives [(4, 0x12345678 + 2440)] (.addi .always (.g 4) (.g 4) (BitVec.ofInt 13 (-2440))) 4 0x12345678 := by decide +kernel

/-- R26, R27: the trap entry worked out there. -/
theorem test_trap_entry :
    let s := modMe (withG [(5, 1)]) fun t => { t with super := false, tvec := 0x20001001, pc := 0x10A46 }
    leaves (exec (.ld .always (.g 4) 5 .d .offset 0) s) fun t => (me t).tepc == 0x10A46 && (me t).tcause == 3 &&
      (me t).tval == 1 && (me t).tstat == 2 && (me t).super && (me t).pc == 0x200010C0 && (me t).g[4] == 0 := by
  decide +kernel

/-- R46: one stochastic rounding of 1 + 2⁻⁹ with SRSEED = 1. -/
theorem test_stochastic_rounding :
    let s := modCore (modMe base fun t => { t with v := t.v.set 1 0x3F804000, m := t.m.set 1 1 }) 0 fun k =>
      { k with srseed := 1 }
    leaves (exec (.vcvt .m1 true (.ff .bf16 .fp32) 0 (.v 2) (.v 1)) s) fun t =>
      (me t).v[2] == 0x3F81 && (coreOf t 0).srseed == 0x40822041 && bits (me t).fcsr 9 4 != 0 := by decide +kernel
/-- R54: one rounding against two. -/
theorem test_narrow_rounds_once :
    fpDiv fmtFp32 .rne 0x4287FFFF 0x3FFFFFFE = (0x42080000, 16) ∧
    roundTo (fmtB8 ⟨3, false, false⟩) .rne (readFp fmtFp32 0x42080000) = (0x68, 16) ∧
    narrowTo (.b8 ⟨3, false, false⟩) .rne none (divNum (readFp fmtFp32 0x4287FFFF) (readFp fmtFp32 0x3FFFFFFE)) = (0x69, 16) := by
  decide +kernel
/-- R162: eight values narrowed by a scale of 3 into bytes 8 to 15 of v2. -/
theorem test_vnarrow :
    let v1 : W256 := 0x40C00000BF00000000000000447A000042C80000C0E00000412000003F800000
    let v0 : W256 := 0x4040000040400000404000004040000040400000404000004040000040400000
    let s := modMe base fun t => { t with v := (t.v.set 1 v1).set 0 v0 }
    leaves (exec (.vnarrow .always false (.b8 ⟨3, false, false⟩) 1 (.v 2) (.v 1)) s) fun t =>
      (me t).v[2] == 0x48AB007F68C94D33 <<< 64 := by decide +kernel
/-- R214: two owners of the owner set of one cluster. -/
theorem test_owner : ownerOf 0x0000000C07070000 0x1000 = 4 * 128 + 7 ∧ ownerOf 0x0000000C07070000 0x2000 = 1 * 128 + 7 := by
  decide +kernel
/-- R273, R274: one byte named in three ways. -/
theorem test_slice_names : regionOf 0 0xFFFF0000041600C5 = some (.slice (8 * 128 + 22) 0xC5 false) ∧
    regionOf 0 0xFFFF800004802345 = some (.slice (8 * 128 + 22) 0xC5 false) ∧
    regionOf (8 * 128 + 22) 0xFFFFFFFFFFFF00C5 = some (.slice (8 * 128 + 22) 0xC5 true) := by decide +kernel
/-- A state whose own slice begins with the given words. -/
def withWords (l : List W64) (gs : List (Nat × W64)) : State :=
  let s := withG gs
  { s with mem := (l.zip (List.range l.length)).foldl (fun m e => memPut m (sliceLoc 0 (8 * e.2)) 0xFF e.1 8) s.mem }
/-- The words of a nest counter with TOTAL = 100, E0 = 10, E1 = 5, MIN = 4, FACTOR = 2 and PARTS = 4. -/
def nest (next : W64) : List W64 := [next, 100, 10 + 5 * 2 ^ 32, 4 + 2 * 2 ^ 16 + 4 * 2 ^ 24]
/-- R220: claims 2 and 16 of the nest worked out there, and the one that finds nothing left. -/
theorem test_nest_claims :
    (leaves (exec (.iter .always 10 4 20) (withWords (nest 13) [(4, own)])) fun t =>
      [(me t).g[10], (me t).g[11], (me t).g[12], (me t).g[13], (me t).g[14]] == [13, 11, 3, 1, 0] &&
      memWord 64 t.mem (sliceLoc 0 0) 8 == 24) ∧
    (leaves (exec (.iter .always 10 4 20) (withWords (nest 97) [(4, own)])) fun t =>
      [(me t).g[10], (me t).g[11], (me t).g[12], (me t).g[13], (me t).g[14]] == [97, 3, 7, 4, 1]) ∧
    (leaves (exec (.iter .always 10 4 20) (withWords (nest 100) [(4, own)])) fun t => (me t).pc == own + 40) := by
  decide +kernel
/-- A step fetches and runs the word placed at the PC: ADDI g4, g0, 7 and then the next PC. -/
theorem test_step_runs_placed_word : leaves (step (State.reset.withFetchWord 32 (0x0007 * 2 ^ 19 + 4 * 2 ^ 9 + 3))) fun t =>
    (strandAt t 0 0).g[4] == 7 && (strandAt t 0 0).pc == own + 4 := by decide +kernel
/-! ## States and operands that meet the hypotheses of the statements -/

/-- What holds of the answer of a check that passes. -/
def okWith {ε α : Type} (x : Except ε α) (p : α → Bool) : Bool :=
  match x with
  | .ok y => p y
  | .error _ => false

theorem of_okWith {ε α : Type} {x : Except ε α} {p : α → Bool} (h : okWith x p = true) : ∃ y, x = .ok y ∧ p y = true := by
  cases x with
  | ok y => exact ⟨y, rfl, h⟩
  | error e => cases h

/-- What holds of the value of an option. -/
def someWith {α : Type} (x : Option α) (p : α → Bool) : Bool :=
  match x with
  | some y => p y
  | none => false

theorem of_someWith {α : Type} {x : Option α} {p : α → Bool} (h : someWith x p = true) : ∃ y, x = some y ∧ p y = true := by
  cases x with
  | some y => exact ⟨y, rfl, h⟩
  | none => cases h

def serves (t : State) (x : W256) (e : Piece × Ref) : Bool :=
  someWith (strandWord t t.cur (me t).uid t.nextSeq (wordOf e.2.loc) e.2.key (byteMask (e.2.loc % 8) e.1.n)) fun w =>
    !w.2 && decide (x.extractLsb' (8 * e.1.pos) (8 * e.1.n) = w.1.extractLsb' (8 * (e.2.loc % 8)) (8 * e.1.n))

theorem serves_sound {t : State} {x : W256} {e : Piece × Ref} (h : serves t x e = true) : Serves t x e := by
  obtain ⟨⟨w, b⟩, hw, hb⟩ := of_someWith h
  simp only [Bool.and_eq_true, Bool.not_eq_true', decide_eq_true_eq] at hb
  obtain ⟨rfl, hx⟩ := hb
  exact ⟨w, hw, hx⟩

def unhindered (t : State) (e : Piece × Ref) : Bool :=
  !olderRead t t.cur (me t).uid t.nextSeq (wordOf e.2.loc) && !olderRed t t.cur (me t).uid t.nextSeq (wordOf e.2.loc) &&
    peerTurn t t.cur t.nextSeq e.2.lease && !epochRevoked t e.2.loc e.2.lease

theorem unhindered_sound {t : State} {e : Piece × Ref} (h : unhindered t e = true) : Unhindered t e := by
  simpa [unhindered, Unhindered, and_assoc] using h

def loadable (r : State) (ps : List Piece) (x : W256) : Bool :=
  okWith (checkPieces r .load ps) fun q => !q.2.lazy && q.1.all fun e => !soWaits q.2 e.2.ord && unhindered q.2 e && serves q.2 x e

/-- A load's hypothesis, and the address and alignment with it, in one. -/
theorem loadable_sound {r : State} {ps : List Piece} {x : W256} (h : loadable r ps x = true) : ∃ t, LoadServed r t ps x := by
  obtain ⟨⟨l, t⟩, ht, hb⟩ := of_okWith h
  simp only [Bool.and_eq_true, Bool.not_eq_true', List.all_eq_true] at hb
  exact ⟨t, hb.1, l, ht, fun e he =>
    ⟨(hb.2 e he).1.1, unhindered_sound (hb.2 e he).1.2, serves_sound (hb.2 e he).2⟩⟩

def presenceLoadable (r : State) (ps : List Piece) (x : W256) : Bool :=
  drained r && okWith (checkPieces r .load ps) fun q => !q.2.lazy && q.1.all fun e =>
    !soWaits q.2 e.2.ord && unhindered q.2 e && serves q.2 x e && isPresent q.2 (wordOf e.2.loc)

theorem presenceLoadable_sound {r : State} {ps : List Piece} {x : W256} (h : presenceLoadable r ps x = true) :
    ∃ t, PresenceServed r t ps x := by
  simp only [presenceLoadable, Bool.and_eq_true] at h
  obtain ⟨⟨l, t⟩, ht, hb⟩ := of_okWith h.2
  simp only [Bool.and_eq_true, Bool.not_eq_true', List.all_eq_true] at hb
  exact ⟨t, h.1, hb.1, l, ht, fun e he => 
    ⟨(hb.2 e he).1.1.1, unhindered_sound (hb.2 e he).1.1.2, serves_sound (hb.2 e he).1.2, (hb.2 e he).2⟩⟩

def storable (r : State) (ps : List Piece) (p : List (Piece × Ref) → State → Bool) : Bool :=
  okWith (checkPieces r .store ps) fun q => (q.1.all fun e => !soWaits q.2 e.2.ord) && p q.1 q.2

theorem storable_sound {r : State} {ps : List Piece} {p : List (Piece × Ref) → State → Bool}
    (h : storable r ps p = true) : ∃ l t, StoreAllowed r t ps l ∧ p l t = true := by
  obtain ⟨⟨l, t⟩, ht, hb⟩ := of_okWith h
  simp only [Bool.and_eq_true, Bool.not_eq_true', List.all_eq_true] at hb
  exact ⟨l, t, ⟨ht, hb.1⟩, hb.2⟩

def samePieceB (a b : Piece) : Bool := a.va == b.va && a.n == b.n && a.pos == b.pos

theorem samePieceB_eq {a b : Piece} (h : samePieceB a b = true) : a = b := by
  obtain ⟨va, n, pos⟩ := a
  obtain ⟨va', n', pos'⟩ := b
  simp only [samePieceB, Bool.and_eq_true, beq_iff_eq] at h
  obtain ⟨⟨rfl, rfl⟩, rfl⟩ := h
  rfl

/-- A store of one piece, whose reference and state meet q. -/
def storableOne (r : State) (p : Piece) (q : Ref → State → Bool) : Bool :=
  storable r [p] fun l t => match l with
    | [e] => samePieceB e.1 p && q e.2 t
    | _ => false

theorem storableOne_sound {r : State} {p : Piece} {q : Ref → State → Bool} (h : storableOne r p q = true) :
    ∃ ref t, StoreAllowed r t [p] [(p, ref)] ∧ q ref t = true := by
  obtain ⟨l, t, hs, hp⟩ := storable_sound h
  split at hp
  · next p' ref =>
    simp only [Bool.and_eq_true] at hp
    obtain rfl := samePieceB_eq hp.1
    exact ⟨_, t, hs, hp.2⟩
  · cases hp

/-- A descriptor of an 8-byte read stream of four elements from the start of the slice. -/
def desc0 : W512 := 0x800000000000000030000000000000003FFFFFFFFFFFF0000

/-- That stream active as stream 0 with one element in its buffer, and an entry in the queue of the south link. -/
def withViews : State :=
  modCore (withG [(3, 5), (4, 7)]) 0 fun k => { k with
    streams := k.streams.set 0 { Stream.idle with mode := .active, desc := desc0, buf := [⟨0, false, 0x40, none⟩], ownerUid := 1 }
    inq := k.inq.set (portFin .s) [⟨9, 0, false, none, none⟩] }

/-- The value of a check that passes. -/
def okIs {ε α : Type} [DecidableEq α] (x : Except ε α) (v : α) : Bool := okWith x fun y => decide (y = v)

theorem okIs_eq {ε α : Type} [DecidableEq α] {x : Except ε α} {v : α} (h : okIs x v = true) : x = .ok v := by
  obtain ⟨y, rfl, hy⟩ := of_okWith h
  rw [of_decide_eq_true hy]

/-- The error of a check that fails. -/
def errIs {ε α : Type} [DecidableEq ε] (x : Except ε α) (v : ε) : Bool :=
  match x with
  | .ok _ => false
  | .error e => decide (e = v)

theorem errIs_eq {ε α : Type} [DecidableEq ε] {x : Except ε α} {v : ε} (h : errIs x v = true) : x = .error v := by
  cases x with
  | ok y => cases h
  | error e => rw [of_decide_eq_true h]

theorem test_witness_IntegerOperations :
    predOn base .always = true ∧
    Operable (ready (withG [(4, 0x7FFFFFFFFFFFFFFF), (5, 1)])) { srcS := [.g 4, .g 5], dstS := [.g 3] } ∧
    Operable (ready withViews) { srcS := [.s 0, .p .s], dstS := [.p .e] } ∧
    Operable (ready (withG [(3, 0), (4, 1), (5, 2)])) { srcS := [.g 3, .g 4, .g 5], dstS := [.g 3] } ∧
    Operable (ready (withG [(4, -1)])) { srcS := [.g 4], dstS := [.g 3] } ∧
    Operable (ready withViews) { srcS := [.s 0], dstS := [.p .e] } :=
  ⟨by decide +kernel, operable (by decide +kernel), operable (by decide +kernel), operable (by decide +kernel),
    operable (by decide +kernel), operable (by decide +kernel)⟩

theorem test_witness_MultiplyDivideAndFunnelShifts :
    (let s := withG [(4, 0x8000000000000000), (5, 0xFFFFFFFFFFFFFFFF)]
     predOn s .always = true ∧ Operable (ready s) { srcS := [.g 4, .g 5], dstS := [.g 3] } ∧
       readS (ready s) (.g 4) = 0x8000000000000000 ∧ readS (ready s) (.g 5) = 0xFFFFFFFFFFFFFFFF) ∧
    (let s := withG [(4, 7)]
     Operable (ready s) { srcS := [.g 4, .g 5], dstS := [.g 3] } ∧ readS (ready s) (.g 5) = 0) :=
  ⟨⟨by decide +kernel, operable (by decide +kernel), by decide +kernel, by decide +kernel⟩, operable (by decide +kernel),
    by decide +kernel⟩

theorem test_witness_BitAndMaskOperations :
    predOn base .always = true ∧ Operable (ready (withG [(4, 0)])) { srcS := [.g 4], dstS := [.g 3] } ∧
    Operable (ready base) { dstS := [.g 3] } ∧ Operable (ready (withG [(4, -1)])) { srcS := [.g 4] } :=
  ⟨by decide +kernel, operable (by decide +kernel), operable (by decide +kernel), operable (by decide +kernel)⟩

theorem test_witness_ControlTransfers :
    (let s := withG [(4, 0x100)]
     Operable (ready s) { srcS := [.g 4, .g 5] } ∧ Operable (ready s) { dstS := [.g 3] } ∧ predOn s .always = true ∧
       Operable (ready s) { srcS := [.g 4], dstS := [.g 4] } ∧
       (getG s 4 + (0xFFE : BitVec 13).signExtend 64).getLsbD 0 = false) ∧
    (let s := withG [(4, 0x101)]
     predOn s .always = true ∧ Operable (ready s) { srcS := [.g 4], dstS := [.g 3] } ∧
       (getG s 4 + (0 : BitVec 13).signExtend 64).getLsbD 0 = true) :=
  ⟨⟨operable (by decide +kernel), operable (by decide +kernel), by decide +kernel, operable (by decide +kernel),
    by decide +kernel⟩, by decide +kernel, operable (by decide +kernel), by decide +kernel⟩

/-- The last doubleword of the own slice, and its last 32 bytes. -/
theorem test_witness_Loads :
    (let s := withG [(4, own + 0xFFF0), (5, 8)]
     let r := ready s
     predOn s .always = true ∧ Operable r { srcS := [.g 4], dstS := [.g 3] } ∧
       Operable r { srcS := [.g 4, .g 5], dstS := [.g 3] } ∧
       (getG s 4 + (1 : BitVec 8).signExtend 64 * 8).toNat % 8 = 0 ∧
       (∃ t, LoadServed r t [⟨getG s 4 + (1 : BitVec 8).signExtend 64 * 8, 8, 0⟩] 0) ∧
       (getG s 4).toNat % 8 = 0 ∧ (∃ t, LoadServed r t [⟨getG s 4, 8, 0⟩] 0) ∧
       (getG s 4 + getG s 5).toNat % 8 = 0 ∧ (∃ t, LoadServed r t [⟨getG s 4 + getG s 5, 8, 0⟩] 0) ∧
       (getG s 4 + (1 : BitVec 5).signExtend 64 * 8).toNat % 8 = 0 ∧
       (∃ t, LoadServed r t [⟨getG s 4 + (1 : BitVec 5).signExtend 64 * 8, 8, 0⟩] 0)) ∧
    (let s := withG [(4, own + 65504)]
     let r := ready s
     let words := (List.range 4).filter fun j => (predMask s .always).extractLsb' (8 * j) 8 ≠ 0
     predMask s .always ≠ 0 ∧ (∀ j ∈ words, (own + 65504).toNat ≤ (wordAddr (own + 65504) j).toNat) ∧
       Operable r { srcS := [.g 4], dstV := [.v 1] } ∧ Operable r { srcS := [.g 4, .g 5], dstV := [.v 1] } ∧
       (∃ t, LoadServed r t (words.map fun j => ⟨wordAddr (own + 65504) j, 8, 8 * j⟩) 0) ∧
       Operable r { srcS := [.g 4], srcV := [.v 2], dstV := [.v 1] } ∧
       (∃ t, LoadServed r t (((List.range 8).filter fun k => (predMask s .always).getLsbD k).map fun k =>
         ⟨getG r 4 + ((readV r (.v 2)).extractLsb' (k * 32) 32).signExtend 64 * BitVec.ofNat 64 (32 / 8), 32 / 8, 32 / 8 * k⟩)
         0)) :=
  ⟨⟨by decide +kernel, operable (by decide +kernel), operable (by decide +kernel), by decide +kernel,
    loadable_sound (by decide +kernel), by decide +kernel, loadable_sound (by decide +kernel), by decide +kernel,
    loadable_sound (by decide +kernel), by decide +kernel, loadable_sound (by decide +kernel)⟩,
   by decide +kernel, by decide +kernel, operable (by decide +kernel), operable (by decide +kernel),
    loadable_sound (by decide +kernel), operable (by decide +kernel), loadable_sound (by decide +kernel)⟩

theorem test_witness_Stores :
    (let s := withG [(3, 0x1234), (4, own + 0xFFF0), (5, 8)]
     let r := ready s
     let ea := getG s 4 + (1 : BitVec 8).signExtend 64 * 8
     predOn s .always = true ∧ ea.toNat % 8 = 0 ∧ (getG s 4).toNat % 8 = 0 ∧ (getG s 4 + getG s 5).toNat % 8 = 0 ∧
       Operable r { srcS := [.g 4], movS := [.g 3] } ∧ Operable r { srcS := [.g 4, .g 5], movS := [.g 3] } ∧
       (∃ ref t, StoreAllowed r t [⟨ea, 8, 0⟩] [(⟨ea, 8, 0⟩, ref)] ∧ ref.loc % 8 == 0) ∧
       outstanding r r.cur (me r).uid r.nextSeq .sy false false = false ∧
       (∃ q, checkPieces r .store [⟨ea, 8, 0⟩] = .ok q) ∧
       ∃ ref t, StoreAllowed (markMine r .sy false) t [⟨ea, 8, 0⟩] [(⟨ea, 8, 0⟩, ref)] ∧ ref.loc % 8 == 0) ∧
    (let s := modMe (withG [(4, own + 65504), (5, own + 32768)]) fun t => { t with ctpitch := 64 }
     let r := ready s
     let words := (List.range 4).filter fun j => (predMask s .always).extractLsb' (8 * j) 8 ≠ 0
     let on := (List.range 8).filter fun k => (predMask s .always).getLsbD k
     predMask s .always ≠ 0 ∧ on ≠ [] ∧ (∀ j ∈ words, (own + 65504).toNat ≤ (wordAddr (own + 65504) j).toNat) ∧
       Operable r { srcS := [.g 4], movV := [.v 1] } ∧ Operable r { srcS := [.g 4, .g 5], movV := [.v 1] } ∧
       (∃ l t, StoreAllowed r t (words.map fun j => ⟨wordAddr (own + 65504) j, 8, 8 * j⟩) l ∧ l.length == 4) ∧
       Operable r { srcS := [.g 4], srcV := [.v 2], movV := [.v 1] } ∧
       (∃ l t, StoreAllowed r t (on.map fun k =>
         ⟨getG r 4 + ((readV r (.v 2)).extractLsb' (k * 32) 32).signExtend 64 * BitVec.ofNat 64 (32 / 8), 32 / 8, 0⟩) l ∧
         l.length == 8) ∧
       ((getG s 4).toNat % 32 = 0 ∧ (getG s 5).toNat % 4 = 0 ∧ (me s).ctpitch.toNat % 4 = 0) ∧
       (∃ l t, StoreAllowed r t ((on.map fun k => ⟨getG r 4 + BitVec.ofNat 64 (k * (32 / 8)), 32 / 8, 0⟩) ++
         on.map fun k => ⟨getG r 5 + BitVec.ofNat 64 k * (me r).ctpitch, 32 / 8, 0⟩) l ∧ l.length == 16)) ∧
    (∀ z : Bool, let s : State := { withG [(4, own)] with lazy := z }
     let r := ready s
     let on := (List.range 4).filter fun j => ((predMask s .always).extractLsb' 0 8).extractLsb' (2 * j) 2 ≠ 0
     on ≠ [] ∧ Operable r { srcS := [.g 4], srcV := [.v 1] } ∧ own.toNat % 32 = 0 ∧
       ∃ l t, StoreAllowed r t (on.map fun j => ⟨wordAddr own j, 8, 0⟩) l ∧ ((l.all fun e => !e.2.rp) && t.lazy == z &&
         decide ((((coreOf t t.cur).reds.filter fun q => q.uid == (me t).uid).map fun q => q.seq).dedup.length < 64)) = true) :=
  ⟨⟨by decide +kernel, by decide +kernel, by decide +kernel, by decide +kernel, operable (by decide +kernel),
    operable (by decide +kernel), storableOne_sound (q := fun ref _ => ref.loc % 8 == 0) (by decide +kernel),
    by decide +kernel, ⟨_, rfl⟩, storableOne_sound (q := fun ref _ => ref.loc % 8 == 0) (by decide +kernel)⟩,
   ⟨by decide +kernel, by decide +kernel, by decide +kernel, operable (by decide +kernel), operable (by decide +kernel),
    storable_sound (p := fun l _ => l.length == 4) (by decide +kernel), operable (by decide +kernel),
    storable_sound (p := fun l _ => l.length == 8) (by decide +kernel), by decide +kernel,
    storable_sound (p := fun l _ => l.length == 16) (by decide +kernel)⟩,
   fun z => ⟨by cases z <;> decide +kernel, operable (by cases z <;> decide +kernel), by decide +kernel,
    storable_sound (p := fun l t => (l.all fun e => !e.2.rp) && t.lazy == z &&
      decide ((((coreOf t t.cur).reds.filter fun q => q.uid == (me t).uid).map fun q => q.seq).dedup.length < 64))
      (by cases z <;> decide +kernel)⟩⟩

/-- An address that is no multiple of 8, a sum that is no multiple of 2, and a gather and a scatter at an odd base. -/
theorem test_witness_MisalignedAccessesTrap :
    let s := modMe (withG [(3, 1), (4, own + 4), (5, 3)]) fun t => { t with v := t.v.set 2 (0x0002 <<< 32) }
    let r := ready s
    let on := (List.range 16).filter fun k => (predMask s .always).getLsbD k
    let element (k : Nat) : W64 := getG r 5 + ((readV r (.v 2)).extractLsb' (k * 16) 16).signExtend 64 * BitVec.ofNat 64 (16 / 8)
    predOn s .always = true ∧ Operable r { srcS := [.g 4], dstS := [.g 3] } ∧
    Operable r { srcS := [.g 4, .g 5], dstS := [.g 3] } ∧ Operable r { srcS := [.g 4], movS := [.g 3] } ∧
    Operable r { srcS := [.g 4, .g 5], movS := [.g 3] } ∧ Operable r { srcS := [.g 3, .g 4] } ∧
    Operable r { srcS := [.g 3, .g 4, .g 5] } ∧ readS r (.g 3) ≠ 0 ∧ (getG s 4 + (1 : BitVec 8).signExtend 64 * 8).toNat % 8 ≠ 0 ∧
    (getG s 4 + (1 : BitVec 5).signExtend 64 * 8).toNat % 8 ≠ 0 ∧ (getG s 4).toNat % 8 ≠ 0 ∧
    (getG s 4 + getG s 5).toNat % 2 ≠ 0 ∧ (∃ j < 4, (predMask s .always).getLsbD j = true) ∧
    Operable r { srcS := [.g 4], dstV := [.v 1] } ∧ Operable r { srcS := [.g 4, .g 5], dstV := [.v 1] } ∧
    Operable r { srcS := [.g 4], srcV := [.v 1] } ∧ Operable r { srcS := [.g 4, .g 5], srcV := [.v 1] } ∧
    Operable r { srcS := [.g 4], movV := [.v 1] } ∧ Operable r { srcS := [.g 4, .g 5], movV := [.v 1] } ∧
    predMask s .always ≠ 0 ∧ (0 ∈ on ∧ (element 0).toNat % (16 / 8) ≠ 0 ∧ ∀ j ∈ on, j < 0 → (element j).toNat % (16 / 8) = 0) ∧
    Operable r { srcS := [.g 5], srcV := [.v 2], dstV := [.v 1] } ∧
    Operable r { srcS := [.g 5], srcV := [.v 2], movV := [.v 1] } ∧ (getG s 4).toNat % 32 ≠ 0 ∧
    Operable r { srcS := [.g 4, .g 5], dstS := [.g 3] } ∧ Operable r { srcS := [.g 4, .g 3, .g 5], dstS := [.g 3] } ∧
    Operable r { srcS := [.g 4, .g 5] } :=
  ⟨by decide +kernel, operable (by decide +kernel), operable (by decide +kernel), operable (by decide +kernel),
    operable (by decide +kernel), operable (by decide +kernel), operable (by decide +kernel), by decide +kernel,
    by decide +kernel, by decide +kernel, by decide +kernel, by decide +kernel, ⟨0, by decide, by decide +kernel⟩,
    operable (by decide +kernel), operable (by decide +kernel), operable (by decide +kernel), operable (by decide +kernel),
    operable (by decide +kernel), operable (by decide +kernel), by decide +kernel, by decide +kernel,
    operable (by decide +kernel), operable (by decide +kernel), by decide +kernel, operable (by decide +kernel),
    operable (by decide +kernel), operable (by decide +kernel)⟩

/-- What the frame of the vector stores asks of n places. -/
def placesFit (n : Nat) (l : List (Piece × Ref)) (t : State) : Bool :=
  Memory.wf t.mem && l.length == n && !t.lazy && decide ((coreOf t t.cur).stores = []) && l.all fun e =>
    decide (e.2.loc % 8 + e.1.n ≤ 8) && e.2.key == 0 && keyFits t (e.2.loc / 8 * 8) 0 &&
      (parkedOn t (e.2.loc / 8 * 8)).isEmpty && unhindered t e && !t.poison.contains (e.2.loc / 8) &&
      !footHeld t (e.2.loc / 8 * 8)

/-- Vector stores at the last 32 bytes of the slice, an indexed scatter and a corner-turned store, each of which executes. -/
theorem test_witness_VectorStoreFrame :
    let s := modMe (withG [(4, own + 65504), (5, own + 32768)]) fun t => { t with ctpitch := 64 }
    let r := ready s
    let words := (List.range 4).filter fun j => (predMask s .always).extractLsb' (8 * j) 8 ≠ 0
    let on := (List.range 8).filter fun k => (predMask s .always).getLsbD k
    predMask s .always ≠ 0 ∧ on ≠ [] ∧ ((own + 65504).toNat % 8 = 0 ∧
      ∀ j ∈ words, (own + 65504).toNat ≤ (wordAddr (own + 65504) j).toNat) ∧
      (∃ l t, StoreAllowed r t (words.map fun j => ⟨wordAddr (own + 65504) j, 8, 8 * j⟩) l ∧ placesFit 4 l t = true) ∧
      (∃ u, exec (.vst .always (.v 1) 4 .offset 0) s = .next u) ∧
      (∃ l t, StoreAllowed r t (on.map fun k =>
        ⟨getG r 4 + ((readV r (.v 2)).extractLsb' (k * 32) 32).signExtend 64 * BitVec.ofNat 64 (32 / 8), 32 / 8, 0⟩) l ∧
        placesFit 8 l t = true) ∧
      (∃ u, exec (.vscat .always (.v 1) 4 .w (.v 2)) s = .next u) ∧
      (∃ l t, StoreAllowed r t ((on.map fun k => ⟨getG r 4 + BitVec.ofNat 64 (k * (32 / 8)), 32 / 8, 0⟩) ++
        on.map fun k => ⟨getG r 5 + BitVec.ofNat 64 k * (me r).ctpitch, 32 / 8, 0⟩) l ∧ placesFit 16 l t = true) ∧
      ∃ u, exec (.vstt .always (.v 1) 4 .offset 5 .w) s = .next u :=
  ⟨by decide +kernel, by decide +kernel, by decide +kernel,
    storable_sound (p := placesFit 4) (by decide +kernel),
    ⟨_, rfl⟩,
    storable_sound (p := placesFit 8) (by decide +kernel),
    ⟨_, rfl⟩,
    storable_sound (p := placesFit 16) (by decide +kernel),
    ⟨_, rfl⟩⟩

/-- A word at the last byte of a home's doubleword, of a store that nothing delays, and a delayed one. -/
theorem test_witness_ScalarStoreFrame :
    (let s := withG [(3, 0xAB), (4, own + 0xFFFF)]
     let r := ready s
     predOn s .always = true ∧ Operable r { srcS := [.g 4], movS := [.g 3] } ∧
       (∃ u, exec (.st .always (.g 3) 4 .b .offset 0) s = .next u) ∧
       ∃ ref t, StoreAllowed r t [⟨own + 0xFFFF, 1, 0⟩] [(⟨own + 0xFFFF, 1, 0⟩, ref)] ∧
         (Memory.wf t.mem && decide (ref.loc % 8 + 1 ≤ 8) && !t.lazy && decide ((coreOf t t.cur).stores = []) &&
           unhindered t (⟨0, 1, 0⟩, ref) &&
           !t.poison.contains (ref.loc / 8 * 8 / 8) && !footHeld t (ref.loc / 8 * 8) && keyFits t (ref.loc / 8 * 8) ref.key &&
           (parkedOn t (ref.loc / 8 * 8)).isEmpty) = true) ∧
    (let s : State := { withG [(3, 0xAB), (4, own)] with lazy := true }
     Operable (ready s) { srcS := [.g 4], movS := [.g 3] } ∧
       ∃ ref t, StoreAllowed (ready s) t [⟨own, 8, 0⟩] [(⟨own, 8, 0⟩, ref)] ∧ t.lazy = true) :=
  ⟨⟨by decide +kernel, operable (by decide +kernel), ⟨_, rfl⟩, storableOne_sound (q := fun ref t =>
    Memory.wf t.mem && decide (ref.loc % 8 + 1 ≤ 8) && !t.lazy && decide ((coreOf t t.cur).stores = []) &&
      unhindered t (⟨0, 1, 0⟩, ref) &&
      !t.poison.contains (ref.loc / 8 * 8 / 8) && !footHeld t (ref.loc / 8 * 8) && keyFits t (ref.loc / 8 * 8) ref.key &&
      (parkedOn t (ref.loc / 8 * 8)).isEmpty) (by decide +kernel)⟩,
   operable (by decide +kernel), storableOne_sound (q := fun _ t => t.lazy) (by decide +kernel)⟩

/-- Presence at the last words of the slice: set for the loads, clear and set for the stores, k = 0 and k = 2 for CLRP. -/
theorem test_witness_PresenceOperations :
    (let s : State := { withG [(4, own + 65504), (5, 24)] with present := [65532, 65533, 65534, 65535].map fun j => (sliceLoc 0 0) / 8 + j - 57344 }
     let r := ready s
     let words := (List.range 4).filter fun j => (predMask s .always).getLsbD j
     predOn s .always = true ∧ words ≠ [] ∧ (getG s 4 + getG s 5).toNat % 8 = 0 ∧ (getG s 4).toNat % 32 = 0 ∧
       isSliceAddr r.cur (getG s 4) = true ∧ isSliceAddr r.cur (getG s 4 + getG s 5) = true ∧
       Operable r { srcS := [.g 4], dstS := [.g 3] } ∧ Operable r { srcS := [.g 4, .g 5], dstS := [.g 3] } ∧
       Operable r { srcS := [.g 4], dstV := [.v 1] } ∧ Operable r { srcS := [.g 4, .g 5], dstV := [.v 1] } ∧
       (∃ t, PresenceServed r t [⟨getG s 4, 8, 0⟩] 0) ∧ (∃ t, PresenceServed r t [⟨getG s 4 + getG s 5, 8, 0⟩] 0) ∧
       (∃ t, PresenceServed r t (words.map fun j => ⟨wordAddr (getG s 4) j, 8, 8 * j⟩) 0)) ∧
    (let s := withG [(3, 2), (4, own + 65504), (5, 16)]
     let r := ready s
     let w := sliceLoc 0 65504
     let words := (List.range 4).filter fun j => (predMask s .always).getLsbD j
     predOn s .always = true ∧ Operable r { srcS := [.g 3, .g 4] } ∧ Operable r { srcS := [.g 3, .g 4, .g 5] } ∧
       Operable r { srcS := [.g 4], srcV := [.v 1] } ∧ Operable r { srcS := [.g 4, .g 5], srcV := [.v 1] } ∧
       sliceWords r .store [getG s 4] = .ok [w] ∧ portTurn r [w] = .ok () ∧ (∀ x ∈ [w], isPresent r x = false) ∧
       sliceWords r .store (words.map (wordAddr (getG s 4))) = .ok [w, w + 8, w + 16, w + 24] ∧
       portTurn r [w, w + 8, w + 16, w + 24] = .ok () ∧ (∀ x ∈ [w, w + 8, w + 16, w + 24], isPresent r x = false) ∧
       (∃ q, access r .store (getG s 4 + getG s 5) = .ok q) ∧ 8 * 2 ≤ bytesLeft (getG s 4 + getG s 5) ∧
       sliceWords r .store ((List.range 2).map (wordAddr (getG s 4 + getG s 5))) = .ok [w + 16, w + 24] ∧
       r.lazy = false ∧ (∀ x ∈ [w + 16, w + 24], x % 8 = 0 ∧ olderRead r r.cur (me r).uid r.nextSeq x = false ∧
         olderRed r r.cur (me r).uid r.nextSeq x = false ∧
         ∀ e ∈ (coreOf r r.cur).stores, e.uid = (me r).uid → e.word ≠ x)) ∧
    (let s : State := { withG [(4, own + 65504)] with present := [(sliceLoc 0 65504) / 8] }
     portTurn (ready s) [sliceLoc 0 65504] = .ok () ∧ ¬ (∀ x ∈ [sliceLoc 0 65504], isPresent (ready s) x = false) ∧
       (readS (ready s) (.g 3)).toNat = 0 ∧ Operable (ready s) { srcS := [.g 3, .g 4] }) :=
  ⟨⟨by decide +kernel, by decide +kernel, by decide +kernel, by decide +kernel, by decide +kernel, by decide +kernel,
    operable (by decide +kernel), operable (by decide +kernel), operable (by decide +kernel), operable (by decide +kernel),
    presenceLoadable_sound (by decide +kernel), presenceLoadable_sound (by decide +kernel),
    presenceLoadable_sound (by decide +kernel)⟩,
   ⟨by decide +kernel, operable (by decide +kernel), operable (by decide +kernel), operable (by decide +kernel),
    operable (by decide +kernel), okIs_eq (by decide +kernel), okIs_eq (by decide +kernel), by decide +kernel,
    okIs_eq (by decide +kernel), okIs_eq (by decide +kernel), by decide +kernel, ⟨_, rfl⟩, by decide +kernel,
    okIs_eq (by decide +kernel), by decide +kernel, by decide +kernel⟩,
   okIs_eq (by decide +kernel), by decide +kernel, by decide +kernel, operable (by decide +kernel)⟩

/-- An atomic on the last doubleword of the slice with each ORD, a CAS that compares equal, and a reduction, at once and
delayed. -/
theorem test_witness_AtomicsAndReductions :
    (let s := withG [(4, own + 0xFFF8), (5, 1)]
     let r := ready s
     (getG s 4).toNat % 8 = 0 ∧ Operable r { srcS := [.g 4, .g 5], dstS := [.g 3] } ∧
       Operable r { srcS := [.g 4, .g 3, .g 5], dstS := [.g 3] } ∧ Operable r { srcS := [.g 4, .g 5] } ∧
       ∃ q, access r .atomic (getG s 4) = .ok q ∧
         (∀ releases : Bool, let word := q.1.loc / 8 * 8
          let marked := if releases then markMine q.2 .sy false else q.2
          (!q.2.lazy && drained q.2 && !soWaits q.2 q.1.ord &&
            !outstanding q.2 q.2.cur (me q.2).uid q.2.nextSeq .sy false false && unhindered marked (⟨getG s 4, 8, 0⟩, q.1) &&
            !queuedStore marked q.2.cur (me q.2).uid q.2.nextSeq word && readable (issuedOne marked) (.core q.2.cur) word &&
            !(homeWord (issuedOne marked) word q.1.key).2 &&
            decide ((homeWord (issuedOne marked) word q.1.key).1 = getG r 3)) = true)) ∧
    (∀ z : Bool, let s : State := { withG [(4, own + 0xFFF8), (5, 1)] with lazy := z }
     let r := ready s
     ∃ q, access r .red (getG s 4) = .ok q ∧ (!soWaits q.2 q.1.ord && q.2.lazy == z &&
       decide ((((coreOf q.2 q.2.cur).reds.filter fun x => x.uid == (me q.2).uid).map fun x => x.seq).dedup.length < 64)) =
         true) := by
  refine ⟨⟨by decide +kernel, operable (by decide +kernel), operable (by decide +kernel), operable (by decide +kernel),
    ?_⟩, fun z => ?_⟩
  · exact (of_okWith (p := fun q => decide (∀ releases : Bool, let word := q.1.loc / 8 * 8
      let marked := if releases then markMine q.2 .sy false else q.2
      (!q.2.lazy && drained q.2 && !soWaits q.2 q.1.ord &&
        !outstanding q.2 q.2.cur (me q.2).uid q.2.nextSeq .sy false false && unhindered marked (⟨own + 0xFFF8, 8, 0⟩, q.1) &&
        !queuedStore marked q.2.cur (me q.2).uid q.2.nextSeq word && readable (issuedOne marked) (.core q.2.cur) word &&
        !(homeWord (issuedOne marked) word q.1.key).2 &&
        decide ((homeWord (issuedOne marked) word q.1.key).1 = getG (ready (withG [(4, own + 0xFFF8), (5, 1)])) 3)) = true))
      (by decide +kernel)).imp fun q h => ⟨h.1, of_decide_eq_true h.2⟩
  · cases z <;> exact of_okWith (by decide +kernel)

/-- The base state with a store of the strand still in its core's queue. -/
def withStore : State :=
  modCore base 0 fun k => { k with stores := [{
    seq := 0, uid := 1, slot := 0, pc := own, va := own, word := sliceLoc 0 0, mask := 0xFF, val := 1, poison := false
    key := 0, ord := .rc, lease := none, tag := none, after := none, order := .none, token := none }] }

def withPlumb (s : State) (n : W64) : State := { s with plumb := Vector.replicate 6 n }

/-- The strand's bond and course have it as a member; with and without an access that a release waits for; a deadline
that is now, and one that is the next tick. -/
theorem test_witness_FencesBarriersAndTime :
    (let r := ready { withStore with nextSeq := 1 }
     wellFormed (.fence .rel .cl false false) = true ∧ drained r = true ∧
       outstanding r r.cur (me r).uid r.nextSeq .cl false false = true) ∧
    (let r := ready base
     wellFormed (.fence .none .cr true false) = true ∧ drained r = true ∧ predOn base .always = true ∧
       outstanding r r.cur (me r).uid r.nextSeq .cr false true = false ∧
       (me r).bond = some 0 ∧ (me r).member = true ∧ hasArrived r 0 .course = false ∧ hasArrived r 0 .bond = false ∧
       Operable r { dstS := [.g 3] }) ∧
    (let s := withPlumb (withG [(4, 9), (5, 10)]) 9
     Operable (ready s) { srcS := [.g 4], dstS := [.g 3] } ∧ (getG (ready s) 4).toNat ≤ (s.plumb[dieNum s.cur]?.getD 0).toNat ∧
       (s.plumb[dieNum s.cur]?.getD 0).toNat < (getG (ready s) 5).toNat) :=
  ⟨by decide +kernel, ⟨by decide +kernel, by decide +kernel, by decide +kernel, by decide +kernel, by decide +kernel,
    by decide +kernel, by decide +kernel, by decide +kernel, operable (by decide +kernel)⟩, operable (by decide +kernel),
    by decide +kernel, by decide +kernel⟩

/-- A nest with one iteration left and one with none, and an arrival word whose GEN has just passed b and one that has
not. -/
theorem test_witness_NestCountersAndArrivalWords :
    (let s := withWords (nest 99) [(4, own)]
     let r := ready s
     predOn s .always = true ∧ (getG s 4).toNat % 32 = 0 ∧ portObject r (getG s 4) = .ok (sliceLoc 0 0) ∧
       Operable r { srcS := [.g 4], dstS := (List.range 5).map fun k => SReg.g (gPlus 10 k) } ∧
       portWords r (getG s 4) (sliceLoc 0 0) 4 = .ok (nest 99) ∧ (99 : W64).toNat < (100 : W64).toNat ∧
       Operable r { srcS := .g 4 :: (List.range 3).map fun k => SReg.g (gPlus 10 k) } ∧
       portTurn r ((List.range 4).map fun j => sliceLoc 0 0 + 8 * j) = .ok ()) ∧
    (let s := withWords (nest 100) [(4, own)]
     portWords (ready s) (getG s 4) (sliceLoc 0 0) 4 = .ok (nest 100) ∧ (100 : W64).toNat ≤ (100 : W64).toNat) ∧
    (let s := withWords [0x100000002, 1] [(4, own), (5, 1)]
     let r := ready s
     (getG s 4).toNat % 16 = 0 ∧ portObject r (getG s 4) = .ok (sliceLoc 0 0) ∧
       Operable r { srcS := [.g 4, .g 5], dstS := [.g 3] } ∧
       portWords r (getG s 4) (sliceLoc 0 0) 2 = .ok [0x100000002, 1] ∧
       ((sliceLoc 0 0) % 8 = 0 ∧ drained r = true ∧ r.lazy = false ∧ homeWord r (sliceLoc 0 0) 0 = (0x100000002, false)) ∧
       Unhindered r (⟨getG s 4, 4, 0⟩, ⟨getG s 4, sliceLoc 0 0, 0, .rc, false, false, none⟩) ∧
       queuedStore r r.cur (me r).uid r.nextSeq (sliceLoc 0 0) = false ∧ readable r (.core r.cur) (sliceLoc 0 0) = true ∧
       ((0x100000002 : W64).setWidth 32 - (getG r 5).setWidth 32 : W32).toNat = 1 ∧
       ((0x100000002 : W64).setWidth 32 - (2 : W64).setWidth 32 : W32).toNat = 0) :=
  ⟨⟨by decide +kernel, by decide +kernel, okIs_eq (by decide +kernel), operable (by decide +kernel),
    okIs_eq (by decide +kernel), by decide +kernel, operable (by decide +kernel), okIs_eq (by decide +kernel)⟩,
   ⟨okIs_eq (by decide +kernel), by decide +kernel⟩,
   by decide +kernel, okIs_eq (by decide +kernel), operable (by decide +kernel), okIs_eq (by decide +kernel),
    by decide +kernel, unhindered_sound (by decide +kernel), by decide +kernel, by decide +kernel, by decide +kernel,
    by decide +kernel⟩

/-- Channel 0 of the core with counter 3, awaited for 3 and for 4, and software timeline 5. -/
theorem test_witness_TimelineWaitAndSignal :
    let s := modCore (withG [(4, 0x100), (5, 3), (6, 4), (7, 0x50004)]) 0 fun k =>
      { k with chans := k.chans.set 0 ⟨{ Timeline.zero with counter := 3 }, []⟩ }
    let r := ready s
    predOn s .always = true ∧ drained r = true ∧ Operable r { srcS := [.g 4, .g 5], dstS := [.g 3] } ∧
    ctxCheck r (getG r 4) = .ok (.copy none 0) ∧
    (getG r 5).toNat ≤ (ctxTimeline r r.cur (me r).job (.copy none 0)).counter.toNat ∧
    (ctxTimeline r r.cur (me r).job (.copy none 0)).counter.toNat < (getG r 6).toNat ∧
    Operable r { srcS := [.g 7, .g 5] } ∧ ctxOf (getG r 7) = some (.software 5) ∧
    outstanding r r.cur (me r).uid r.nextSeq .pk false false = false :=
  ⟨by decide +kernel, by decide +kernel, operable (by decide +kernel), okIs_eq (by decide +kernel), by decide +kernel,
    by decide +kernel, operable (by decide +kernel), by decide +kernel, by decide +kernel⟩

theorem test_witness_ScalarFloatingPoint :
    predOn base .always = true ∧ Operable (ready base) { srcS := [.g 4, .g 5], dstS := [.g 3] } ∧
    Operable (ready base) { srcS := [.g 4], dstS := [.g 3] } ∧
    Operable (ready base) { srcS := [.g 4, .g 5, .g 6], dstS := [.g 3] } :=
  ⟨by decide +kernel, operable (by decide +kernel), operable (by decide +kernel), operable (by decide +kernel)⟩

/-- The largest finite FP64 number and the largest finite code of an extended binary8 format. -/
theorem test_witness_RepresentableValuesRoundToThemselves :
    0x7FEFFFFFFFFFFFFF < 2 ^ FFmt.fp64.width ∧ isNaN (readFp (ffmt .fp64) 0x7FEFFFFFFFFFFFFF) = false ∧
    isNaN (readFp (fmtB8 ⟨3, false, false⟩) 0x7E) = false := by decide +kernel

/-- A quiet NaN on the left and a signalling NaN on the right, an infinity and a zero with a NaN to add, the NaN of a
binary8 format, and a lone NaN among the lanes of a reduction. -/
theorem test_witness_NaNOperandsGiveTheCanonicalNaN :
    isNaN (readFp (ffmt .fp32) 0x7FC00000) = true ∧ isNaN (readFp (ffmt .fp16) 0x7C01) = true ∧
    (isNaN (readFp (ffmt .fp32) 0x7F800000) = false ∧ isNaN (readFp (ffmt .fp32) 0) = false ∧
      isNaN (mulNum (readFp (ffmt .fp32) 0x7F800000) (readFp (ffmt .fp32) 0)).1 = true) ∧
    isNaN (readFp (fmtB8 ⟨3, false, false⟩) 0x80) = true ∧ fmtB8 ⟨3, false, false⟩ ∈ [fmtFp64, fmtFp32, fmtFp16, fmtBf16,
      fmtB8 ⟨3, false, false⟩] ∧
    (laneFmt .bf16 = some (ffmt .bf16) ∧ [none, some 0x7F81].length ≤ 32 ∧ some 0x7F81 ∈ [none, some 0x7F81] ∧
      isSig (readFp (ffmt .bf16) 0x7F81) = true) := by decide +kernel

/-- What LanesBecome asks of the flags, the mask and the value that it speaks of. -/
def LanesNamed (mask : W32) (n w : Nat) (place : Nat → Nat) (g : Nat → Nat × Flags) (fl : Flags) (dm : W32) (x : W256) :
    Prop :=
  let on (j : Nat) : Prop := j < n ∧ mask.getLsbD j = true
  (∀ k, fl.getLsbD k = true ↔ ∃ j, on j ∧ (g j).2.getLsbD k = true) ∧
  (∀ k, dm.getLsbD k = true ↔ ∃ j, on j ∧ place j = k) ∧
  (∀ j, on j → lane x w (place j) = BitVec.ofNat w (g j).1)

/-- Whatever a lane operation computes, some flags, mask and value name it. -/
theorem lanesNamed_exist (mask : W32) (n w : Nat) (place : Nat → Nat) (g : Nat → Nat × Flags)
    (hp : ∀ j k, j < n → k < n → place j = place k → j = k) (hw : ∀ j, j < n → place j < 32 ∧ place j * w + w ≤ 256) :
    ∃ fl dm x, LanesNamed mask n w place g fl dm x := by
  let on := (List.range n).filter fun j => mask.getLsbD j
  have hon : ∀ j, j ∈ on ↔ j < n ∧ mask.getLsbD j = true := fun j => by simp [on]
  have hnd : (on.map place).Nodup := by
    refine List.Nodup.map_on ?_ (List.nodup_range.filter _)
    intro j hj k hk h
    exact hp j k ((hon j).1 hj).1 ((hon k).1 hk).1 h
  refine ⟨(on.map fun j => (place j, g j)).foldl (fun f e => f ||| e.2.2) 0,
    BitVec.ofNat 32 ((on.map place).foldl (fun m i => m + 2 ^ i) 0), packLanes w (on.map fun j => (place j, (g j).1)), ?_, ?_, ?_⟩
  · intro k
    rw [unionFlags_bit, show (0 : Flags).getLsbD k = false from by simp, Bool.false_or, List.any_map, List.any_eq_true]
    simp only [Function.comp_apply, hon]
  · intro k
    have h32 : ∀ i ∈ on.map place, i < 32 := by
      intro i hi
      obtain ⟨j, hj, rfl⟩ := List.mem_map.1 hi
      exact (hw j ((hon j).1 hj).1).1
    rw [sumMask_bit _ hnd h32 0 (by simp)]
    simp [hon]
  · intro j hj
    refine packLanes_lane w _ (by simpa [Function.comp_def] using hnd) _ _ ?_ (hw j hj.1).2
    exact List.mem_map.2 ⟨j, (hon j).2 hj, rfl⟩

theorem onLane (n : Nat) (h : 0 < n) : ∃ j, j < n ∧ (predMask base .always).getLsbD j = true :=
  ⟨0, h, by decide +kernel⟩

theorem test_witness_VectorLaneOperations (f : LFmt) (g : Nat → Nat × Flags) :
    (∃ j, j < f.lanes ∧ (predMask base .always).getLsbD j = true) ∧
    Operable (ready base) { srcV := [.v 1, .v 2], dstV := [.v 3] } ∧ Operable (ready base) { srcV := [.v 1], dstV := [.v 3] } ∧
    Operable (ready base) { srcS := [.g 4], dstV := [.v 3] } ∧
    Operable (ready base) { srcV := [.v 3, .v 1, .v 2], dstV := [.v 3] } ∧
    Operable (ready base) { srcV := [.v 3, .v 1, .v 0], dstV := [.v 3] } ∧
    (∃ fl dm x, LanesNamed (predMask base .always) f.lanes f.width id g fl dm x) ∧
    ∃ fl dm x, LanesNamed 0xFFFFFFFF f.lanes f.width id g fl dm x := by
  have hw : ∀ j, j < f.lanes → id j < 32 ∧ id j * f.width + f.width ≤ 256 := by
    obtain ⟨h1, h2, h3⟩ := LFmt.lanes_width f
    intro j hj
    refine ⟨Nat.lt_of_lt_of_le hj h2, ?_⟩
    calc id j * f.width + f.width = (j + 1) * f.width := by simp [Nat.succ_mul]
      _ ≤ f.lanes * f.width := Nat.mul_le_mul_right _ hj
      _ = 256 := h1
  exact ⟨onLane _ (by cases f <;> decide), operable (by decide +kernel), operable (by decide +kernel),
    operable (by decide +kernel), operable (by decide +kernel), operable (by decide +kernel),
    lanesNamed_exist _ _ _ _ _ (fun _ _ _ _ h => h) hw, lanesNamed_exist _ _ _ _ _ (fun _ _ _ _ h => h) hw⟩

/-- A comparison of equal lanes, the last lane of VINS and VEXT, and lanes of 32 bits for the fused operations. -/
theorem test_witness_VectorComparesReductionsAndFusedOperations :
    let m := lanesOn (predMask base .always) LFmt.fp32.lanes
    (m ≠ 0 ∧ Operable (ready base) { srcV := [.v 1, .v 2] } ∧
      (∀ i, (0 : Flags).getLsbD i = true ↔ ∃ j, j < LFmt.fp32.lanes ∧ m.getLsbD j = true ∧
        (condLane .eq .fp32 (lane (readV (ready base) (.v 1)) 32 j).toNat (lane (readV (ready base) (.v 2)) 32 j).toNat).2.getLsbD i
          = true) ∧
      (∀ j, (0xFF : W32).getLsbD j = (decide (j < LFmt.fp32.lanes) && (if m.getLsbD j then
        (condLane .eq .fp32 (lane (readV (ready base) (.v 1)) 32 j).toNat (lane (readV (ready base) (.v 2)) 32 j).toNat).1
        else (getM base 1).getLsbD j)))) ∧
    Operable (ready base) { srcV := [.v 1], dstV := [.v 3] } ∧
    (Operable (ready base) { srcS := [.g 4], srcV := [.v 3], dstV := [.v 3] } ∧ (predMask base .always).getLsbD 31 = true ∧
      31 < LFmt.i8.lanes) ∧
    (Operable (ready base) { srcV := [.v 1], dstS := [.g 3] } ∧ predOn base .always = true) ∧
    (predMask base .always ≠ 0 ∧ Operable (ready base) { srcV := [.v 3, .v 1, .v 2], dstV := [.v 3] }) ∧
    (Operable (ready base) { srcV := [.v 1, .v 2, .v 3], dstV := [.v 4] } ∧
      (∃ j, j < 8 ∧ (predMask base .always).getLsbD j = true) ∧
      ∀ g, ∃ fl dm x, LanesNamed (predMask base .always) 8 32 id g fl dm x) := by
  have key : ∀ j, j < 8 → condLane .eq .fp32 (lane (readV (ready base) (.v 1)) 32 j).toNat
      (lane (readV (ready base) (.v 2)) 32 j).toNat = (true, 0) := by decide +kernel
  have hm : lanesOn (predMask base .always) LFmt.fp32.lanes = 0xFF := by decide +kernel
  refine ⟨⟨by decide +kernel, operable (by decide +kernel), ?_, ?_⟩, operable (by decide +kernel),
    ⟨operable (by decide +kernel), by decide +kernel, by decide⟩, ⟨operable (by decide +kernel), by decide +kernel⟩,
    ⟨by decide +kernel, operable (by decide +kernel)⟩, operable (by decide +kernel), onLane 8 (by decide), fun g =>
      lanesNamed_exist _ _ _ _ _ (fun _ _ _ _ h => h) (by intro j hj; simp only [id_eq]; omega)⟩
  · intro i
    rw [show (0 : Flags).getLsbD i = false from by simp]
    simp only [Bool.false_eq_true, false_iff, not_exists, not_and]
    intro j hj _
    rw [key j hj]; simp
  · intro j
    rw [hm]
    by_cases hj : j < 8
    · have : (0xFF : W32).getLsbD j = true := by
        have h : ∀ j, j < 8 → (0xFF : W32).getLsbD j = true := by decide
        exact h j hj
      rw [this, if_pos rfl, key j hj]
      simpa using show j < LFmt.fp32.lanes from hj
    · have : (0xFF : W32).getLsbD j = false := by
        by_cases h32 : j < 32
        · have h : ∀ j, j < 32 → ¬ j < 8 → (0xFF : W32).getLsbD j = false := by decide
          exact h j h32 hj
        · exact BitVec.getLsbD_of_ge _ _ (by omega)
      rw [this]
      have : ¬ j < LFmt.fp32.lanes := hj
      simp [this]

/-- The last part of a widening from 16 to 32 bits, of a narrowing from 32 to 8 bits, and of I4 to BF16. -/
theorem test_witness_VectorConversions (g : Nat → Nat × Flags) :
    partOk 16 32 1 = true ∧ partOk 32 8 3 = true ∧ partOk 4 16 3 = true ∧
    Operable (ready base) { srcV := [.v 1], dstV := [.v 2] } ∧ Operable (ready base) { srcV := [.v 1, .v 0], dstV := [.v 2] } ∧
    (∃ j, j < 8 ∧ (predMask base .always).getLsbD j = true) ∧
    (∃ fl dm x, LanesNamed (predMask base .always) 8 32 id g fl dm x) ∧
    (∃ fl dm x, LanesNamed (predMask base .always) 8 8 (fun j => 3 * 8 + j) g fl dm x) ∧
    ∃ fl dm x, LanesNamed (predMask base .always) 16 16 id g fl dm x := by
  refine ⟨by decide, by decide, by decide, operable (by decide +kernel), operable (by decide +kernel), onLane 8 (by decide),
    lanesNamed_exist _ _ _ _ _ (fun _ _ _ _ h => h) ?_, lanesNamed_exist _ _ _ _ _ (fun j k _ _ h => ?_) ?_,
    lanesNamed_exist _ _ _ _ _ (fun _ _ _ _ h => h) ?_⟩
  · intro j hj; simp only [id_eq]; omega
  · simpa using h
  · intro j hj; omega
  · intro j hj; simp only [id_eq]; omega

/-- A zero, a positive and a negative divisor, and an operand of each sign for QSQRT. -/
theorem test_witness_FixedPoint :
    let s := withG [(3, 1), (5, 1), (6, -1)]
    let q (x : W64) : Int := (x.setWidth QWid.w16.bits).toInt
    predOn s .always = true ∧ Operable (ready s) { srcS := [.g 3, .g 4], dstS := [.g 3] } ∧ q (readS (ready s) (.g 4)) = 0 ∧
    0 < q (readS (ready s) (.g 5)) ∧ q (readS (ready s) (.g 6)) < 0 ∧
    Operable (ready s) { srcS := [.g 4], dstS := [.g 3] } ∧ 0 ≤ q (readS (ready s) (.g 4)) :=
  ⟨by decide +kernel, operable (by decide +kernel), by decide +kernel, by decide +kernel, by decide +kernel,
    operable (by decide +kernel), by decide +kernel⟩

theorem test_witness_StreamPositionsRoundTrip : 3 < sdTotal desc0 := by decide +kernel

/-- Stream 0 active, unbound or bound, and stream 1 idle; a bound write stream with a pushed element left; the last place
of the traversal and the one after it. -/
theorem test_witness_StreamInstructions :
    (let s := withWords [own, 3, 3, 8, 0, 0, 0, 0] [(4, own)]
     predOn s .always = true ∧ (getG s 4).toNat % 64 = 0 ∧ Operable (ready s) { srcS := [.g 4] } ∧
       ∃ q, loadBlock (ready s) (getG (ready s) 4) = .ok q ∧
         (decide (sdInvalid q.1 = none) && streamFree q.2 0 && !pushedLeft (streamOf q.2 0)) = true) ∧
    (let s := modStream (withWords [own, 3, 3, 8, 0, 0, 0, 0] [(4, own)]) 0 0 fun _ => { Stream.idle with
       mode := .active, desc := desc0 ||| (1 <<< 67), bound := some .s, buf := [⟨0, false, 1, none⟩] }
     Operable (ready s) { srcS := [.g 4] } ∧ ∃ q, loadBlock (ready s) (getG (ready s) 4) = .ok q ∧
       (decide (sdInvalid q.1 = none) && streamFree q.2 0 && pushedLeft (streamOf q.2 0) &&
         (streamOf q.2 0).bound.isSome) = true) ∧
    (let s := modMe withViews fun t => { t with g := (t.g.set 4 3).set 5 4 }
     let st := (coreOf s s.cur).streams[(0 : Fin 4)]
     predOn s .always = true ∧ st.mode = .active ∧ st.bound = none ∧
       boundOn (coreOf s s.cur) (linkOf (me s).orient .e) (sdWrite st.desc) = none ∧ Operable (ready s) { dstS := [.g 3] } ∧
       Operable (ready s) { srcS := [.g 4] } ∧ Operable (ready s) { srcS := [.g 5] } ∧
       placeOk st.desc (getG (ready s) 4) = true ∧ placeOk st.desc (getG (ready s) 5) = false ∧
       drained (ready s) = true ∧ pushedLeft st = false ∧ streamFree (ready s) 0 = true ∧ streamFree (ready s) 1 = true ∧
       ((coreOf s s.cur).streams[(1 : Fin 4)]).mode = .idle) ∧
    (let s := modStream withViews 0 0 fun st => { st with bound := some .e }
     let st := (coreOf s s.cur).streams[(0 : Fin 4)]
     st.mode = .active ∧ st.bound ≠ none ∧ streamFree (ready s) 0 = true ∧ Operable (ready s) { srcS := [.g 4] }) :=
  ⟨⟨by decide +kernel, by decide +kernel, operable (by decide +kernel), of_okWith (by decide +kernel)⟩,
   ⟨operable (by decide +kernel), of_okWith (by decide +kernel)⟩,
   ⟨by decide +kernel, by decide +kernel, by decide +kernel, by decide +kernel, operable (by decide +kernel),
    operable (by decide +kernel), operable (by decide +kernel), by decide +kernel, by decide +kernel, by decide +kernel,
    by decide +kernel, by decide +kernel, by decide +kernel, by decide +kernel⟩,
   by decide +kernel, by decide +kernel, by decide +kernel, operable (by decide +kernel)⟩

/-- The last core of the cluster as target, the range g0 to g23, and the owner worked out in R214. -/
theorem test_witness_RequestsEnterTheOutboundBuffer :
    let s := modJob (withG [(3, 23 * 32), (4, 0x1000), (5, 0x00070007)]) 0 fun j => { j with ownset := 0x8000000C07070000 }
    let r := ready s
    let sender : Uses := { srcS := .g 5 :: .g 4 :: (List.range 8).map fun i => .g (gAt (16 + i)) }
    let own' := (jobOf s (me s).job).ownset
    predOn s .always = true ∧ outRoom (coreOf s s.cur) = true ∧ Operable r { srcS := [.g 3, .g 4, .g 5] } ∧
    (getG s 4).getLsbD 0 = false ∧ targetOf r (getG r 5) = .ok (7 * 128 + 7) ∧
    rangeOf (getG r 3) = some ((List.range 24).map (0 + ·)) ∧
    (∀ i ∈ (List.range 24).map (0 + ·), pendingG (me r) (gAt i) = false ∧ gPoisoned r (gAt i) = false) ∧
    Operable r sender ∧ own'.getLsbD 63 = true ∧ ownerOf own' (getG r 4) = 4 * 128 + 7 ∧
    inBond r (me s).bond (4 * 128 + 7) = true ∧ Operable r { srcS := [.g 5, .g 4] } :=
  ⟨by decide +kernel, by decide +kernel, operable (by decide +kernel), by decide +kernel, okIs_eq (by decide +kernel),
    by decide +kernel, by decide +kernel, operable (by decide +kernel), by decide +kernel,
    by decide +kernel, by decide +kernel, operable (by decide +kernel)⟩

/-- A wake pending, a deadline of now, one of the next tick, and none. -/
theorem test_witness_StrandControl :
    let s := withPlumb (withG [(4, 9), (5, 10)]) 9
    let r := ready s
    let now : W64 := s.plumb[dieNum s.cur]?.getD 0
    predOn s .always = true ∧ drained r = true ∧ Operable r { srcS := [.g 4], dstS := [.g 3] } ∧
    (me (modMe s fun t => { t with wakePend := true })).wakePend = true ∧ (me s).wakePend = false ∧
    (getG r 4 ≠ 0 ∧ (getG r 4).toNat ≤ now.toNat) ∧ now.toNat < (getG r 5).toNat ∧ getG r 6 = 0 :=
  ⟨by decide +kernel, by decide +kernel, operable (by decide +kernel), by decide +kernel, by decide +kernel,
    by decide +kernel, by decide +kernel, by decide +kernel⟩

theorem test_witness_EndFreesTheSlot :
    predOn base .always = true ∧ drained (ready base) = true ∧ (me base).kind ≠ .service := by decide +kernel

/-- A stub before and after its FAN, and a strand that is none. -/
theorem test_witness_FanStartsTheBond :
    let s := modMe base fun t => { t with kind := .stub }
    predOn s .always = true ∧ Operable (ready s) { srcS := [.g 3, .g 4, .g 5] } ∧ (me s).kind = .stub ∧
    (me s).bond = some 0 ∧ mapFind s.bonds 0 = some bond0 ∧ bond0.fanned = false ∧
    (1 : BitVec 4) &&& ~~~bond0.dmask = 0 ∧ (getG (ready s) 4).getLsbD 0 = false ∧
    mapFind (modBond s 0 fun b => { b with fanned := true }).bonds 0 = some { bond0 with fanned := true } ∧
    (me base).kind ≠ .stub :=
  ⟨by decide +kernel, operable (by decide +kernel), by decide +kernel, by decide +kernel, by decide +kernel,
    by decide +kernel, by decide +kernel, by decide +kernel, by decide +kernel, by decide +kernel⟩

/-- A ticket in slot 0 of the core, with number 0 and the given state. -/
def withTicket (st : GangState) : State := modTicket base 0 0 fun _ => { Ticket.empty with busy := true, state := st }

theorem test_witness_GangAndAccumulatorInstructions :
    (let s := withWords [0, 0, 0, 0, 0, 0, 0, 0] [(4, own)]
     let r := ready s
     predOn s .always = true ∧
       Operable r { srcS := .g 4 :: .g 5 :: (List.range 4).map fun j => SReg.g (gPlus 8 j), dstS := [.g 3] } ∧
       (getG s 4).toNat % 64 = 0 ∧ isSliceAddr r.cur (getG s 4) = true ∧
       ∃ q, loadBlock r (getG s 4) = .ok q ∧ (decide (takeTicket (coreOf q.2 q.2.cur) = some 0) &&
         ((coreOf q.2 q.2.cur).tickets[(0 : Fin 4)]).unsent.isNone) = true) ∧
    (let s := withTicket .done
     findTicket (ready s) (getG (ready s) 4) = .ok (some (0, 0)) ∧ Operable (ready s) { srcS := [.g 4], dstS := [.g 3] } ∧
       ((coreOf s 0).tickets[(0 : Fin 4)]).state ∈
         [GangState.done, .preempted, .thawed, .fault, .refused]) ∧
    (let s := withTicket .claiming
     findTicket (ready s) (getG (ready s) 4) = .ok (some (0, 0)) ∧ Operable (ready s) { srcS := [.g 4] } ∧
       ((coreOf s 0).tickets[(0 : Fin 4)]).state ∈ [GangState.claiming, .frozen]) ∧
    (findTicket (ready base) (getG (ready base) 4) = .ok none ∧
      Operable (ready base) { srcS := [.g 4], dstS := [.g 3] } ∧ Operable (ready base) { srcS := [.g 4] }) ∧
    (let r := ready base
     let on := enabledLanes (lanesOn (predMask base .always) 8) 8
     Operable r { dstS := [.g 3] } ∧ kBad (coreOf r r.cur) 255 = false ∧
       kBad (coreOf (modCore base 0 fun k => { k with kPoison := 1 <<< 127 }) 0) 255 = true ∧
       Operable r { srcS := [.g 4] } ∧ linkStop r (linkOf (me base).orient .e) = none ∧
       lanesOn (predMask base .always) 8 ≠ 0 ∧ Operable r { dstV := [.v 1] } ∧ Operable r { srcV := [.v 1] } ∧
       (∀ i ∈ on, kBad (coreOf r r.cur) (248 + i) = false) ∧
       ∀ i ∈ on, lane (0 : W256) 32 i = kAt (coreOf r r.cur) (248 + i)) :=
  ⟨⟨by decide +kernel, operable (by decide +kernel), by decide +kernel, by decide +kernel, of_okWith (by decide +kernel)⟩,
   ⟨okIs_eq (by decide +kernel), operable (by decide +kernel), by decide +kernel⟩,
   ⟨okIs_eq (by decide +kernel), operable (by decide +kernel), by decide +kernel⟩,
   ⟨okIs_eq (by decide +kernel), operable (by decide +kernel), operable (by decide +kernel)⟩,
   operable (by decide +kernel), by decide +kernel, by decide +kernel, operable (by decide +kernel), by decide +kernel,
    by decide +kernel, operable (by decide +kernel), operable (by decide +kernel), by decide +kernel, by decide +kernel⟩

/-- TOP may be handed in: descriptors at a, records if the strand records, and a sequencer with room. -/
def topReady (r : State) (a b : W64) (op : Nat) : Bool :=
  okWith (loadSlots r a (topSlots op)) fun q => okWith (takeSeqr q.2) fun e =>
    okWith (if (me e.2).recording then recordTop e.2 op b q.1 (e.2.dies[e.1.1].seqrs[e.1.2]).tl.next
      else .ok (q.1.map fun _ => (0, 0), e.2)) fun z => decide ((z.2.dies[e.1.1].seqrs[e.1.2]).cmds.length < 16)

theorem topReady_sound {r : State} {a b : W64} {op : Nat} (h : topReady r a b op = true) :
    ∃ ds s1 e s2 stash s3, loadSlots r a (topSlots op) = .ok (ds, s1) ∧ takeSeqr s1 = .ok (e, s2) ∧
      (if (me s2).recording then recordTop s2 op b ds (s2.dies[e.1].seqrs[e.2]).tl.next
        else .ok (ds.map fun _ => (0, 0), s2)) = .ok (stash, s3) ∧ (s3.dies[e.1].seqrs[e.2]).cmds.length < 16 := by
  obtain ⟨⟨ds, s1⟩, h1, h⟩ := of_okWith h
  obtain ⟨⟨e, s2⟩, h2, h⟩ := of_okWith h
  obtain ⟨⟨stash, s3⟩, h3, h⟩ := of_okWith h
  exact ⟨ds, s1, e, s2, stash, s3, h1, h2, h3, of_decide_eq_true h⟩

/-- The base state in which the strand records, its records and stash in the upper half of the slice. -/
def recorded (rec : Bool) (gs : List (Nat × W64)) : State :=
  modMe (withG gs) fun t => { t with
    recording := rec, logbase := own + 0x8000, logtop := own + 0x8000, loglim := own + 0xFFC0, stktop := own + 0xFFC0 }

/-- Queues that hold 15 and 16 commands, and each tile operation, recorded and not. -/
theorem test_witness_EngineAndTileCommandsAreQueued :
    (let s := withWords [0, 0, 0, 0, 0, 0, 0, 0] [(4, own)]
     let r := ready s
     predOn s .always = true ∧ Operable r { dstS := [.g 3] } ∧ ((coreOf s s.cur).chans[(1 : Fin 2)]).cmds.length < 16 ∧
       (getG s 4).toNat % 64 = 0 ∧ Operable r { srcS := [.g 4, .g 5], dstS := [.g 3] } ∧
       Operable r { srcS := [.g 4], dstS := [.g 3] } ∧
       ∃ q, loadBlock r (getG s 4) = .ok q ∧ (decide (((coreOf q.2 q.2.cur).chans[(1 : Fin 2)]).cmds.length < 16) &&
         decide ((coreOf q.2 q.2.cur).foot.cmds.length < 16)) = true) ∧
    (let m : CopyCmd := {
       n := 1, words := 0, tick := 0, uid := 1, core := 0, slot := 0, super := true, bond := some 0, part := 0, job := 0
       seq := 0, phase := .sent, landed := [], counted := [], skipped := [], outcome := 0, message := none, packet := none
       held := [], fetched := [], pins := [], first := 0 }
     let s := modCore base 0 fun k => { k with chans := k.chans.set 1 ⟨Timeline.zero, List.replicate 16 m⟩ }
     16 ≤ ((coreOf s s.cur).chans[(1 : Fin 2)]).cmds.length) ∧
    (∀ rec : Bool, ∀ op ∈ [opTmm, opTadd, opTmul, opTscale, opTact, opTsum, opTsoft, opTnorm, opTlay, opTcopy],
      ∃ ds s1 e s2 stash s3, loadSlots (ready (recorded rec [(4, own)])) own (topSlots op) = .ok (ds, s1) ∧
        takeSeqr s1 = .ok (e, s2) ∧ (if (me s2).recording then recordTop s2 op 0 ds (s2.dies[e.1].seqrs[e.2]).tl.next
          else .ok (ds.map fun _ => (0, 0), s2)) = .ok (stash, s3) ∧ (s3.dies[e.1].seqrs[e.2]).cmds.length < 16) ∧
    (let r := ready (recorded false [])
     Operable r { srcS := [.g 4], dstS := [.g 3] } ∧ (me r).recording = false ∧ (me r).rbusy = false ∧ drained r = true ∧
       (me r).llen = 0 ∧ ∃ q, takeSeqr r = .ok q ∧ (decide ((q.2.dies[q.1.1].seqrs[q.1.2]).cmds.length < 16)) = true) ∧
    (let r := modMe (ready (recorded false [])) fun t => { t with llen := 1, logtop := t.logtop + 64 }
     ∃ q, walkLog (me r).logbase ((getG r 4).setWidth 32) (((me r).logtop.toNat - (me r).logbase.toNat) / 64 + 1) r
       ((me r).logtop - BitVec.ofNat 64 (64 * (me r).llen.toNat)) = .ok q ∧
       (okWith (takeSeqr q.2.2) fun e => decide ((e.2.dies[e.1.1].seqrs[e.1.2]).cmds.length < 16)) = true) := by
  refine ⟨⟨by decide +kernel, operable (by decide +kernel), by decide +kernel, by decide +kernel,
    operable (by decide +kernel), operable (by decide +kernel), of_okWith (by decide +kernel)⟩, by decide +kernel, ?_,
    ⟨operable (by decide +kernel), by decide +kernel, by decide +kernel, by decide +kernel, by decide +kernel,
      of_okWith (by decide +kernel)⟩, of_okWith (by decide +kernel)⟩
  have all : ∀ rec : Bool, ∀ op ∈ [opTmm, opTadd, opTmul, opTscale, opTact, opTsum, opTsoft, opTnorm, opTlay, opTcopy],
      topReady (ready (recorded rec [(4, own)])) own 0 op = true := by decide +kernel
  exact fun rec op h => topReady_sound (all rec op h)

theorem test_witness_RecordingInstructions :
    (let s := withG [(5, 64)]
     let r := ready s
     predOn s .always = true ∧ Operable r { srcS := [.g 4, .g 5] } ∧ (me r).rbusy = false ∧ getG r 4 = 0 ∧ getG r 6 = 0 ∧
       (getG r 4).toNat % 64 = 0 ∧ (getG r 5).toNat % 64 = 0 ∧ (getG r 4).toNat < (getG r 5).toNat ∧
       Operable r { srcS := [.g 4] } ∧ (me r).recording = false) ∧
    (let r := ready (recorded true [(4, 7)])
     let x := me r
     x.recording = true ∧ x.rbusy = false ∧ x.logtop.toNat + 64 ≤ x.stktop.toNat ∧
       ∃ t, storeChunks r (blockChunks x.logtop [recordHeader 31 0 x.llen ((getG r 4).setWidth 32) x.stktop 0]) none true
         = .ok t) :=
  ⟨⟨by decide +kernel, operable (by decide +kernel), by decide +kernel, by decide +kernel, by decide +kernel,
    by decide +kernel, by decide +kernel, by decide +kernel, operable (by decide +kernel), by decide +kernel⟩,
   by decide +kernel, by decide +kernel, by decide +kernel, ok_of (by decide +kernel)⟩

/-- FCSR and a counter; the writes with an effect of their own; the keystone's supervisor. -/
theorem test_witness_CsrInstructions :
    (let s := withG [(4, 4), (5, 8)]
     let r := ready s
     ((0x800 : BitVec 12).getLsbD 11 = true → (me s).super = true) ∧ Operable r { dstS := [.g 3] } ∧
       csrAllows 0 .read = true ∧ Operable r { srcS := [.g 4] } ∧ csrClass 0 = .rw ∧
       csrValid 0 (readS r (.g 4)) = true ∧ csrValid 0 (csrRead r 0 ||| readS r (.g 4)) = true ∧
       csrValid 0 (csrRead r 0 &&& ~~~readS r (.g 5)) = true ∧ csrValid 0 (readS r (.g 5)) = false ∧
       csrClass 0x212 = .clr 1 ∧ readS r (.g 6) &&& ~~~(1 : W64) = 0) ∧
    (let r := ready base
     let asid := (jobOf base (me base).job).ptroot.toNat % 1024
     (7 : W64).toNat < 8 ∧ (511 : W64).toNat < 512 ∧ drained r = true ∧
       outstanding r r.cur (me r).uid r.nextSeq .sy false false = false ∧ Operable r { dstS := [.g 3] } ∧
       (me base).super = true ∧ translatedLeft r asid 1 = false ∧
       translatedLeft r asid (0x0000FFFFFFFF0000 &&& 0x0000FFFFFFFF0000) = false ∧
       (0xFF3 : W64) &&& ~~~(0xFF3 : W64) = 0 ∧ (∀ m ∈ base.misses, m.token ≠ 0) ∧
       keystone (clusterIdx base.cur) = base.cur) :=
  ⟨⟨by decide +kernel, operable (by decide +kernel), by decide +kernel, operable (by decide +kernel), by decide +kernel,
    by decide +kernel, by decide +kernel, by decide +kernel, by decide +kernel, by decide +kernel, by decide +kernel⟩,
   by decide +kernel, by decide +kernel, by decide +kernel, by decide +kernel, operable (by decide +kernel),
    by decide +kernel, by decide +kernel, by decide +kernel, by decide +kernel, by decide +kernel, by decide +kernel⟩

/-- A release at .CL whose tag a core outside its cluster misses, the widening to .PK ready, and one of the strand's
stores before the release still in its queue. -/
def missed (s : State) : State := { s with
  misses := [{ token := 1, word := sliceLoc 0 8, tagId := 1, need := .pk, readers := [.core 300], asked := false, auto := false }]
  tags := [⟨sliceLoc 0 8, .cl, 0, 0, 1, some 0, 1⟩], nextSeq := 2 }

theorem test_witness_CsrInstructions_widen :
    (let s := missed base
     let m : Miss := ⟨1, sliceLoc 0 8, 1, .pk, [.core 300], false, false⟩
     s.misses.find? (fun x => x.token == 1) = some m ∧ widenReady (ready s) m = true ∧ s.lazy = false ∧
       ∃ g, tagOf s m.word = some g ∧ g.id = m.tagId ∧ m.need ≠ .sy ∧ parkedOn s m.word = [] ∧
         ∀ q ∈ m.readers, inScope m.need g.core q = true) ∧
    (let s := missed withStore
     widenReady (ready s) ⟨1, sliceLoc 0 8, 1, .pk, [.core 300], false, false⟩ = false) :=
  ⟨⟨by decide +kernel, by decide +kernel, by decide +kernel, ⟨sliceLoc 0 8, .cl, 0, 0, 1, some 0, 1⟩, by decide +kernel⟩,
    by decide +kernel⟩

/-- The greatest value FCSR takes, and TREGION of the strand's bond. -/
theorem test_witness_CsrWriteThenRead :
    csrValid 0x000 0xFFF4 = true ∧ csrValid 0x407 0xFFFFFFFFFFFFFFFF = true ∧ csrValid 0x506 0 = true ∧
    (me base).bond = some 0 ∧ mapFind base.bonds 0 = some bond0 := by decide +kernel

theorem test_witness_PrivilegeTraps :
    (me (modMe base fun t => { t with super := false })).super = false ∧ (0x800 : BitVec 12).getLsbD 11 = true ∧
    (0x7FF : BitVec 12).getLsbD 11 = false ∧ csrClass (0x7FF : BitVec 12).toNat = .unassigned := by decide +kernel

/-- A strand with a vector, outside its handler and inside it, and one without a vector. -/
theorem test_witness_LocalTraps :
    (let s := modMe base fun t => { t with tvec := 0x20001001 }
     (me s).kind ≠ .service ∧ (me s).tvec.getLsbD 0 = true ∧ (me s).tstat.getLsbD 1 = false) ∧
    (me (modMe base fun t => { t with tvec := 0x20001001, tstat := 2 })).tstat.getLsbD 1 = true ∧
    (me base).tvec.getLsbD 0 = false := by decide +kernel

theorem test_witness_TrapsAndReturn :
    (me (modMe base fun t => { t with super := false })).super = false ∧ predOn base .always = true ∧ (me base).super = true ∧
    (me (modMe base fun t => { t with tepc := 1 })).tepc.getLsbD 0 = true ∧ (me base).tepc.getLsbD 0 = false ∧
    Operable (ready base) { srcS := [.g 4] } :=
  ⟨by decide +kernel, by decide +kernel, by decide +kernel, by decide +kernel, by decide +kernel, operable (by decide +kernel)⟩

/-- A load of 8 bytes in flight, of a location, answered or not. -/
def load0 (loc : Nat) (got : Option (W64 × Bool)) : Pending where
  seq := 0
  pc := own
  len := 4
  kind := .load
  parts := [⟨own, loc, 8, 0, 0, .rc, none, got⟩]
  dest := .scalar (.g 3) 64 false
  base := none
  blocking := false
  release := none
  acquire := none
  pops := []
  passed := false
  rejected := false
  ordered := false
  park := 0
  again := false

/-- A load of the slice and one of the first stack in flight, one answered, a release with nothing outstanding, and
deadlines that are now. -/
theorem test_witness_RequestEvents :
    (∀ loc ∈ [sliceLoc 0 0, 0], let s := modMe base fun t => { t with inflight := [load0 loc none] }
      let t := strandAt s 0 0
      t.occ = true ∧ t.inflight[0]? = some (load0 loc none) ∧
        (load0 loc none).parts[0]? = some ⟨own, loc, 8, 0, 0, .rc, none, none⟩ ∧
        partTurn s 0 t.uid (load0 loc none) 0 ⟨own, loc, 8, 0, 0, .rc, none, none⟩ = true ∧
        epochRevoked s loc none = false ∧ (load0 loc none).again = false ∧ (load0 loc none).kind = .load ∧
        strandWord s 0 t.uid 0 (wordOf loc) 0 (partMask ⟨own, loc, 8, 0, 0, .rc, none, none⟩) = some (0, false)) ∧
    (let p := load0 (sliceLoc 0 0) (some (5, false))
     let s := modMe base fun t => { t with inflight := [p] }
     let there : State := { s with cur := 0, slot := 0 }
     (strandAt s 0 0).inflight[0]? = some p ∧ blockLoad p = false ∧ answered p = true ∧ poisonedPart p = none ∧
       firstOf there (answerViews there p) (viewStop · true) = none ∧ (answerViews there p).all (viewReady there true) = true) ∧
    (let p : Pending := { load0 (sliceLoc 0 0) (some (5, false)) with dest := .scalar (.s 1) 64 false }
     let s := modStream (modMe base fun t => { t with inflight := [p] }) 0 1 fun _ =>
       { Stream.idle with mode := .active, desc := desc0 ||| (1 <<< 67), ownerUid := 1 }
     let there : State := { s with cur := 0, slot := 0 }
     firstOf there (answerViews there p) (viewStop · true) = none ∧ (answerViews there p).all (viewReady there true) = true) ∧
    (let s := modMe base fun t => { t with wait := .release .pk false false }
     (coreOf s 0).frozen = none ∧ (coreOf s 0).halted = false ∧ (strandAt s 0 0).arriving = [] ∧ (strandAt s 0 0).wait = .release .pk false false ∧
       outstanding s 0 (strandAt s 0 0).uid s.nextSeq .pk false false = false) ∧
    (let s := withPlumb (modMe base fun t => { t with wait := .sleep 3 9 }) 9
     (coreOf s 0).halted = false ∧ (strandAt s 0 0).wait = .sleep 3 9 ∧ (9 : W64).toNat ≤ (plumbAt s 0).toNat) ∧
    (let s := withPlumb (modMe base fun t => { t with wait := .tuntil 9 }) 9
     (strandAt s 0 0).wait = .tuntil 9 ∧ (9 : W64).toNat ≤ (plumbAt s 0).toNat) := by decide +kernel

/-- A reduction of the strand at location 0. -/
def red0 (rp performed : Bool) : Reduction :=
  ⟨0, 1, 0, own, 0, 0, .int .add .d, 1, 0, .rc, none, rp, none, performed, false, .none, none⟩

/-- A shadow unit with one contribution of strand 1. -/
def unit0 : ShadowUnit := ⟨0, 0, .int .add .d, 1, false, [⟨0, 0, 1, 0, 0, none, some 0, none, .none⟩], 0⟩

/-- A store accepted, one rejected by a node without a lease; reductions at each stage; a unit that is due, and a die full
for its strand; a miss that was asked for. -/
theorem test_witness_StoreAndReductionEvents :
    (let e : StoreEntry := { seq := 0, uid := 1, slot := 0, pc := own, va := own, word := sliceLoc 0 0, mask := 0xFF, val := 1
                             poison := false, key := 0, ord := .rc, lease := none, tag := none, after := none
                             order := .none, token := none }
     (coreOf withStore 0).stores[0]? = some e ∧ storeTurn withStore 0 0 e = true ∧ storeRejected withStore e = false ∧
       storeRejected { withStore with revoked := [(1, 7)] } { e with word := 2 ^ 40, lease := some (2 ^ 40, 7) } = true) ∧
    (let s := modCore base 0 fun k => { k with reds := [red0 false true] }
     (coreOf s 0).reds[0]? = some (red0 false true) ∧ (red0 false true).performed = true) ∧
    (let s := modCore base 0 fun k => { k with reds := [red0 false false] }
     (coreOf s 0).reds[0]? = some (red0 false false) ∧ isSlice 0 = false ∧ redReady s 0 (red0 false false) = true ∧
       s.poison.contains (wordOf 0 / 8) = false ∧ epochRevoked s 0 none = false) ∧
    (let r : Reduction := { red0 false false with loc := sliceLoc 0 0, release := some .cl }
     let s := modCore base 0 fun k => { k with reds := [r] }
     (coreOf s 0).reds[0]? = some r ∧ isSlice r.loc = true ∧ redReady s 0 r = true) ∧
    (let s := modCore base 0 fun k => { k with reds := [red0 true false] }
     (coreOf s 0).reds[0]? = some (red0 true false) ∧
       (∀ x ∈ s.dies[dieOf 0].shadows, overlaps x.loc (redBytes x.kind) 0 8 = false) ∧
       beyondLimit s.dies[dieOf 0] 1 0 (.int .add .d) = false) ∧
    (let s := modDie (modCore base 0 fun k => { k with reds := [red0 true false] }) 0 fun d => { d with shadows := [unit0] }
     otherUnits s.dies[dieOf 0] (red0 true false) = [] ∧
       ∃ x ∈ s.dies[dieOf 0].shadows, x.loc = (red0 true false).loc ∧ x.kind = (red0 true false).kind) ∧
    (let s := modPart (modDie base 0 fun d => { d with shadows := [unit0] }) 0 fun p => { p with drain := true }
     s.dies[(0 : Fin 4)].shadows[0]? = some unit0 ∧ mergeDue s unit0 = true ∧ shadowFree s 0 unit0 = true) ∧
    (let m : Miss := { token := 1, word := 0, tagId := 0, need := .pk, readers := [], asked := true, auto := false }
     let s : State := { base with misses := [m] }
     s.misses.find? (fun x => x.token.toNat == 1) = some m ∧ widenReady s m = true) := by decide +kernel

theorem test_witness_StoreAndReductionEvents_full :
    let us := List.replicate 4095 unit0
    let s := modDie (modCore base 0 fun k => { k with reds := [{ red0 true false with loc := 8 }] }) 0 fun d =>
      { d with shadows := unit0 :: us }
    s.dies[(0 : Fin 4)].shadows = unit0 :: us ∧ capacityDue s 0 = true ∧ shadowFree s 0 unit0 = true := by
  have h : (modDie (modCore base 0 fun k => { k with reds := [{ red0 true false with loc := 8 }] }) 0 fun d =>
      { d with shadows := unit0 :: List.replicate 4095 unit0 }).dies[(0 : Fin 4)].shadows = List.replicate 4096 unit0 := rfl
  have alone : ∀ (s : State) (n : Nat), mergeSet s n [(0, unit0)] = [(0, unit0)] := by
    intro s n
    cases n with
    | zero => rfl
    | succ n => simp [mergeSet, unitCovers, unit0]
  refine ⟨rfl, List.any_eq_true.2 ⟨_, List.mem_cons_self .., ?_⟩, ?_⟩
  · refine Bool.and_eq_true_iff.2 ⟨by decide +kernel, List.any_eq_true.2 ⟨_, List.mem_singleton.2 rfl, ?_⟩⟩
    refine Bool.and_eq_true_iff.2 ⟨by decide +kernel, ?_⟩
    rw [beyondLimit, h]
    refine Bool.or_eq_true_iff.2 (.inr (decide_eq_true ?_))
    have hs : (List.replicate 4096 unit0).any (fun u => u.loc == 8 && u.kind == RedKind.int .add .d) = false := by
      rw [List.any_replicate]
      decide +kernel
    rw [List.filter_replicate, if_pos (by decide +kernel), List.length_replicate]
    simp only [red0, hs, Bool.false_eq_true, if_false]
    omega
  · rw [shadowFree, mergeGroup, alone]
    decide +kernel

/-- A page table at 0x1000 whose first 2 GiB page is mapped. -/
def withTables : State :=
  modJob { base with mem := memPut (memPut base.mem 0x1000 0xFF 0x2001 8) 0x2000 0xFF 0x7 8 } 0
    fun j => { j with ptroot := 0x8000000000001000 }

theorem test_witness_TranslationAndOutsideEvents :
    (let s := modMe withTables fun t => { t with wait := .walk 0 false false }
     (strandAt s 0 0).occ = true ∧ (strandAt s 0 0).wait = .walk 0 false false ∧
       walkJob s (strandAt s 0 0).job (0 : W64).toNat = .leaf 7 (2 ^ 31) 1 ∧ needsLease 7 = false ∧
       walkJob s (strandAt s 0 0).job (0x10000000000 : W64).toNat = .stop 1 0 0) ∧
    (let l : Lease := ⟨2, 5, 4096, true, true, 7, false, false⟩
     let s : State := { base with leases := [l] }
     let used : State := modMe s fun t => { t with inflight := [{ load0 0 none with
       parts := [⟨0, 2 ^ 40 * 2 + 5 * 4096, 8, 0, 0, .rc, some (2 ^ 40 * 2 + 5 * 4096, 7), none⟩] }] }
     0 < 2 ∧ 2 < 0xFE ∧ s.revoked.contains (2, 8) = false ∧
       (∀ y ∈ s.leases, leaseCovers y 2 (5 * 4096) (Nat.max 4096 4096) = true → y.recalled = false) ∧
       s.leases.find? (fun y => y.node == 2 && y.page == 5) = some l ∧ leaseBusy (dropLeased s 2 5) l = false ∧
       leaseBusy (dropLeased used 2 5) l = true) ∧
    (let s : State := { (modPart base 0 fun p => { p with window := some (0x10000, 0x1000) }) with
       exports := [⟨0, 2, 0, 0x1000, true, true, 3⟩] }
     (partOf s 0).window = some (0x10000, 0x1000) ∧ 0xFF8 % 8 = 0 ∧ 0x10000 % 8 = 0 ∧ 0xFF8 + 8 ≤ 0x1000 ∧
       2 ≠ s.dev.node.toNat ∧ nodeDown s 2 = false ∧ exported s 0 ⟨2, 3⟩ 0xFF8 true = true ∧ exported s 0 ⟨2, 3⟩ 0xFF8 false = true ∧
       readable s .outside (0x10000 + 0xFF8) = true ∧
       readable { s with tags := [⟨0x10000 + 0xFF8, .pk, 0, 0, 1, none, 1⟩] } .outside (0x10000 + 0xFF8) = false) ∧
    (paValid (11 * 2 ^ 36 + 48 * 2 ^ 30 - 8) = true ∧ (11 * 2 ^ 36 + 48 * 2 ^ 30 - 8) % 8 = 0 ∧
      readable base .outside (11 * 2 ^ 36 + 48 * 2 ^ 30 - 8) = true) ∧
    ((mapGet ⟨0, 0, false⟩ base.paths 0xFD).retries < 7 ∧
      7 ≤ (mapGet ⟨0, 0, false⟩ ([(0xFD, ⟨0, 7, false⟩)] : Map Path) 0xFD).retries) ∧
    (let m : CopyCmd := {
       n := 1, words := 0, tick := 0, uid := 1, core := 0, slot := 0, super := true, bond := some 0, part := 0, job := 0
       seq := 0, phase := .running, landed := [], counted := [], skipped := [], outcome := 0, message := none, packet := none
       held := [], fetched := [], pins := [], first := 0 }
     let s : State := { (modCore base 0 fun k => { k with chans := k.chans.set 0 ⟨Timeline.zero, [m]⟩ }) with
       flash := [⟨0, 0, 1, 0, false⟩] }
     s.flash[0]? = some ⟨0, 0, 1, 0, false⟩ ∧ findCopy { s with flash := s.flash.eraseIdx 0 } 0 0 1 = some m ∧
       m.phase = .running) := by decide +kernel

/-- A message of 16 places to an empty queue, and one place more than fits; a wake of a free slot, of a sleeping strand
and of one that is awake; a miss with and without a handler. -/
theorem test_witness_ArrivalAndMessageEvents :
    (let m : InMsg := ⟨.message own (Vector.replicate 8 0) 0 0, some 0, 0, 0, 1, false, false⟩
     let p : Packet := ⟨0, 0, .start 0 m, 0, false, false, none⟩
     let s : State := { base with net := [p] }
     let full := modCore s 0 fun k => { k with inbound := List.replicate 16 m }
     s.net[0]? = some p ∧ packetWaits s 0 p = false ∧ (coreOf s 0).halted = false ∧ p.refused = false ∧ p.queue = none ∧
       inboundUsed (coreOf s 0) + 16 ≤ 16 ∧ ¬ inboundUsed (coreOf full 0) + m.size ≤ 16) ∧
    (let g : Tag := ⟨0, .cl, 0, 0, 1, some 0, 0⟩
     let x : Miss := { token := 1, word := 0, tagId := 0, need := .pk, readers := [], asked := false, auto := false }
     let p : Packet := ⟨0, 0, .scopeMiss 0 1, 0, false, false, none⟩
     let s : State := { (modCore base 0 fun k => { k with smvec := 1 }) with net := [p], misses := [x], tags := [g] }
     bit (coreOf s 0).smvec 0 = true ∧ missOf s 1 = some (x, g) ∧
       inboundUsed (coreOf s 0) + (missMessage s 0 x g).size ≤ 16 ∧ bit (coreOf base 0).smvec 0 = false) ∧
    (let m : InMsg := ⟨.fan own 0 0 8 0 0 [9], some 0, 0, 0, 1, false, false⟩
     let p : Packet := ⟨0, 0, .fanKeystone 0 [(0, m), (1, m)], 0, false, false, none⟩
     let s : State := { base with net := [p] }
     s.net[0]? = some p ∧ packetWaits s 0 p = false ∧ (coreOf s 0).halted = false ∧ p.refused = false ∧ p.queue = none) ∧
    (let m : InMsg := ⟨.widen 1, some 0, 0, 0, 1, false, false⟩
     let s := modCore base 0 fun k => { k with inbound := [m] }
     (coreOf s 0).inbound = m :: [] ∧ (coreOf s 0).frozen = none ∧ (coreOf s 0).halted = false) ∧
    (let s := modMe base fun t => { t with wait := .sleep 3 0 }
     (strandAt s 0 7).occ = false ∧ (strandAt s 0 0).occ = true ∧ (strandAt s 0 0).wait = .sleep 3 0 ∧
       (strandAt base 0 0).occ = true) ∧
    (let o : OutMsg := ⟨1, 0, .cl, .wake 1 0⟩
     let s := modCore base 0 fun k => { k with outbound := [o] }
     (coreOf s 0).halted = false ∧ (coreOf s 0).outbound[0]? = some o ∧
       overtakes ((coreOf s 0).outbound.take 0) o = false ∧ outstanding s 0 o.uid o.seq o.scope false false = false) ∧
    (∀ st ∈ [Start.message own (Vector.replicate 8 0) 0 0, .spawn own 0 [] 0 0 0 0 false 9, .fan own 0 0 8 0 0 [9],
        .fan own 0 0 8 8 0 [9], .fan own 0 0 8 9 0 [9], .fan own 0 0 8 10 0 [9]],
      let m : InMsg := ⟨st, some 0, 0, 0, 1, false, false⟩
      let s := withPlumb (modCore base 0 fun k => { k with inbound := [m] }) 9
      (coreOf s 0).inbound = [m] ∧ freeSlot (coreOf s 0) = some 1 ∧ (coreOf s 0).frozen = none ∧
        (coreOf s 0).halted = false ∧ plumbAt s 0 = 9) ∧
    ((⟨0, 0, .wake 0 0, 15, false, false, none⟩ : Packet).replays < 16 ∧
      16 ≤ (⟨0, 0, .wake 0 0, 16, false, false, none⟩ : Packet).replays) := by decide +kernel

theorem test_witness_ArrivalAndMessageEvents_awake (r : Fin 24) (a : W64) : (strandAt base 0 0).wait ≠ .sleep r a := by
  rw [show (strandAt base 0 0).wait = .none from by decide +kernel]
  intro h; cases h

/-- Stream 0 of the core with a descriptor and a buffer. -/
def withStream (d : W512) (buf : List Elem) (b : Option Port) : State :=
  modStream base 0 0 fun _ => { Stream.idle with mode := .active, desc := d, buf := buf, bound := b, ownerUid := 1 }

/-- The same stream as a write stream, and with its base at an address that is not assigned. -/
def descW : W512 := 0x80000000000000003000000000000000BFFFFFFFFFFFF0000
def descFar : W512 := 0x8000000000000000300000000000000038000000000000000
def descFarW : W512 := 0x80000000000000003000000000000000B8000000000000000

def fetched (d : W512) : Fetch × State :=
  let s := withStream d [] none
  let st := (coreOf s 0).streams[(0 : Fin 4)]
  readElem s 0 0 (streamWho s 0 st) (sdPres st.desc) (sdAddr st.desc 0) (elemChunks (sdSize st.desc))

/-- A read stream whose first element arrives, one whose element is outside every region, and one that SKIP has passed over;
a write stream in the same two places; a group pushed, a faulted group, and an entry popped; the last entry of a seam buffer; a context idle for 4,096 ticks. -/
theorem test_witness_StreamEvents :
    (∀ far : Bool, let s := withStream (if far then descFar else desc0) [] none
      let st := (coreOf s 0).streams[(0 : Fin 4)]
      mayFetch s 0 0 st = true ∧ nextOf s 0 st st.ahead = ([], 0) ∧ 0 < sdTotal st.desc ∧ st.zeros.contains 0 = false) ∧
    (let s := modStream (withStream desc0 [] (some .e)) 0 0 fun st => { st with zeros := [0] }
     let st := (coreOf s 0).streams[(0 : Fin 4)]
     mayFetch s 0 0 st = true ∧ st.zeros.contains 0 = true) ∧
    (fetched desc0).1 = .data 0 ∧ (fetched descFar).1 = .fault .violation ∧
    (∀ far : Bool, let s := withStream (if far then descFarW else descW) [⟨0, true, 7, none⟩] none
      let st := (coreOf s 0).streams[(0 : Fin 4)]
      sdWrite st.desc = true ∧ st.token = none ∧ st.bound = none ∧ st.buf = [⟨0, true, 7, none⟩] ∧ sdPres st.desc = false) ∧
    (let buf : List Elem := [⟨0, true, 1, none⟩, ⟨1, true, 2, none⟩, ⟨2, true, 3, none⟩, ⟨3, true, 4, none⟩]
     let s := withStream desc0 buf (some .e)
     let st := (coreOf s 0).streams[(0 : Fin 4)]
     st.bound = some .e ∧ st.mode = .active ∧ st.token = none ∧ (coreOf s 0).frozen = none ∧ (coreOf s 0).halted = false ∧
       sdWrite st.desc = false ∧ popReady s 0 st (sdGroup st.desc) = true ∧ popFault st (sdGroup st.desc) = none ∧
       (st.buf.take (sdGroup st.desc)).getLast? = some ⟨3, true, 4, none⟩ ∧ linkFree s 0 .e ≠ 0) ∧
    (let s := withStream desc0 [⟨0, true, 0, some .violation⟩, ⟨1, true, 2, none⟩, ⟨2, true, 3, none⟩, ⟨3, true, 4, none⟩] (some .e)
     let st := (coreOf s 0).streams[(0 : Fin 4)]
     popReady s 0 st (sdGroup st.desc) = true ∧ popFault st (sdGroup st.desc) = some ⟨0, true, 0, some .violation⟩) ∧
    (let s := modCore (withStream descW [] (some .s)) 0 fun k => { k with inq := k.inq.set (portFin .s) [⟨9, 0, false, none, none⟩] }
     let st := (coreOf s 0).streams[(0 : Fin 4)]
     sdWrite st.desc = true ∧ st.bound = some .s ∧ st.mode = .active ∧ (coreOf s 0).frozen = none ∧ inqOf (coreOf s 0) .s = [⟨9, 0, false, none, none⟩] ∧ (pushPlaces s 0 st true).1 ≠ [] ∧
       pushRoom st true = true) ∧
    (let s := modCore base 63 fun k => { k with seam := k.seam.set (portFin .e) [⟨9, 0, false, none, none⟩] }
     seamOf (coreOf s 63) .e = [⟨9, 0, false, none, none⟩] ∧ neighbour 63 .e = some 64 ∧
       (inqOf (coreOf s 64) (opposite .e)).length < 4) ∧
    (let s : State := { (modCore base 63 fun k => { k with ctxs := k.ctxs.set (portFin .e) [⟨.stream 63 0, 5⟩] }) with ticks := 4101 }
     (coreOf s 63).ctxs[portFin .e][0]? = some ⟨.stream 63 0, 5⟩ ∧ 5 + 4096 ≤ s.ticks) := by decide +kernel

theorem test_witness_StreamEvents_write :
    (let s := withStream descW [⟨0, true, 7, none⟩] none
     let st := (coreOf s 0).streams[(0 : Fin 4)]
     ∃ q, checkElem s 0 (streamWho s 0 st) (sdAddr st.desc 0) (elemChunks (sdSize st.desc)) = .ok q ∧
       (q.1.map fun e => (e.1, e.2.1)) == [(0, 8)]) ∧
    (let s := withStream descFarW [⟨0, true, 7, none⟩] none
     let st := (coreOf s 0).streams[(0 : Fin 4)]
     checkElem s 0 (streamWho s 0 st) (sdAddr st.desc 0) (elemChunks (sdSize st.desc)) = .error (some .violation)) :=
  ⟨of_okWith (by decide +kernel), errIs_eq (by decide +kernel)⟩

/-- Gang descriptors for one cell at core (1, 1), of two pulses: RS and WS on FP32. -/
def gang0 : W512 := 0x20001040000000101
def gangWs : W512 := 0x20001040040000101
/-- The same of two rows. -/
def gangWs2 : W512 := 0x20001040041000101

/-- A gang of core (0, 0) that claims or has frozen core (1, 1), its cell at a pulse and with weight entries latched. -/
def withGang (d : W512) (st : GangState) (pulse latched : Nat) (a b : List PortEntry) : State :=
  let c : Cell := ⟨pulse, latched, 0, none, 0, false⟩
  let s := modTicket base 0 0 fun _ => { Ticket.empty with
    busy := true, desc := d, state := st, uid := 1, super := true, bond := 0, started := true
    cells := if st = .claiming then [] else [(129, c)] }
  modCore s 129 fun k => { k with
    frozen := if st = .claiming then none else some (.gang 0 0)
    inq := (k.inq.set (portFin .w) a).set (portFin .n) b }

def entry0 : PortEntry := ⟨0x3F800000, 0, false, none, none⟩

/-- A claim that every core accepts. -/
theorem test_witness_GangEvents_claim :
    let s := withGang gang0 .claiming 0 0 [] []
    let t := (coreOf s 0).tickets[(0 : Fin 4)]
    let cs := (gangCores t.desc).filterMap id
    let claimed := claimCores s 0 0 t.desc cs
    t.busy = true ∧ t.state = .claiming ∧ claimReason s 0 t = none ∧ gdValid t.desc = some ⟨4, 4, .fp32⟩ ∧
    ((coreOf claimed 0).tickets[(0 : Fin 4)]).state = .claiming ∧ cs = [129] ∧ (coreOf claimed 129).claimed = some (0, 0) ∧
    readZp claimed 129 t.desc ⟨4, 4, .fp32⟩ = .ok (0, false) :=
  ⟨by decide +kernel, by decide +kernel, by decide +kernel, by decide +kernel, by decide +kernel, by decide +kernel,
    by decide +kernel, okIs_eq (by decide +kernel)⟩

/-- The tick of a frozen gang met. -/
theorem test_witness_GangEvents_tick :
    let s := withPlumb (modTicket (withGang gang0 .frozen 0 0 [] []) 0 0 fun t => { t with started := false, tick := 9 }) 9
    let t := (coreOf s 0).tickets[(0 : Fin 4)]
    t.busy = true ∧ t.state = .frozen ∧ cellCore t.desc 0 0 = some 129 ∧ t.tick.toNat ≤ (plumbAt s 129).toNat := by
  decide +kernel

/-- A weight entry that a cell of the last row keeps, and one that a cell of a row above passes on. -/
theorem test_witness_GangEvents_latch :
    (let s := withGang gangWs .frozen 0 0 [] [entry0]
     someWith (cellAt s 129) fun x => decide (gdBfmt x.d = some (.fp .fp32)) && decide (linkHead s 129 (linkB x.d) = some entry0) &&
       !latchDone x && x.t.stop.isNone && decide (latchAhead x (.fp .fp32) ≤ x.cell.latched)) ∧
    (let s := withGang gangWs2 .frozen 0 0 [] [entry0]
     someWith (cellAt s 129) fun x => decide (gdBfmt x.d = some (.fp .fp32)) && decide (linkHead s 129 (linkB x.d) = some entry0) &&
       !latchDone x && x.t.stop.isNone && decide (x.cell.latched < latchAhead x (.fp .fp32)) &&
       decide (linkFree s 129 (opposite (linkB x.d)) ≠ 0)) := by decide +kernel

/-- The last pulse of a cell. -/
theorem test_witness_GangEvents_pulse :
    let s := withGang gang0 .frozen 1 0 [entry0] [entry0]
    someWith (cellAt s 129) fun x => mayPulse s 129 x && decide (gdMode x.d = .rs) && decide (gdAfmt x.d = some (.fp .fp32)) &&
      decide (gdBfmt x.d = some (.fp .fp32)) && decide (linkHead s 129 (linkA x.d) = some entry0) &&
      decide (linkHead s 129 (linkB x.d) = some entry0) && roomFor s 129 (decide (x.u + 1 < gdW x.d)) (opposite (linkA x.d)) &&
      roomFor s 129 (decide (x.v + 1 < gdH x.d)) (opposite (linkB x.d)) && okIs (boundaryScales s x 129) none &&
      !(cellLanes x.d x.p).any (kBad (coreOf s 129)) := by decide +kernel

/-- A gang that is complete, one that stops at a pulse, one asked to thaw before its last pulse, and one that has met a
fault. -/
theorem test_witness_GangEvents_ends :
    (let s := withGang gang0 .frozen 2 0 [] []
     let t := (coreOf s 0).tickets[(0 : Fin 4)]
     t.busy = true ∧ t.state = .frozen ∧ t.faulted = none ∧ gdValid t.desc = some ⟨4, 4, .fp32⟩ ∧ t.token = none ∧ t.stop = none ∧
       completes t.desc = true ∧ gangWrites t.desc ⟨4, 4, .fp32⟩ = [] ∧ (∀ y ∈ partCells t, gdK t.desc ≤ y.pulse) ∧
       (if gangWrites t.desc ⟨4, 4, .fp32⟩ = [] then (s, true) else readScales s 0 0 t.desc ⟨4, 4, .fp32⟩ t.cells) = (s, true) ∧
       epilogue s 0 0 ⟨4, 4, .fp32⟩ t.waitElem ((gangWrites t.desc ⟨4, 4, .fp32⟩).drop t.waitElem) = (s, true)) ∧
    (let s := modTicket (withGang gang0 .frozen 1 0 [] []) 0 0 fun t => { t with stop := some 1, thawReq := true }
     let t := (coreOf s 0).tickets[(0 : Fin 4)]
     t.stop = some 1 ∧ gangDrained s t 1 = true ∧ t.thawReq = true ∧
       entryPulse t < gdK t.desc) ∧
    (let s := modTicket (withGang gang0 .frozen 1 0 [] []) 0 0 fun t => { t with faulted := some (0x08, 0, 0, 1) }
     ((coreOf s 0).tickets[(0 : Fin 4)]).faulted = some (0x08, 0, 0, 1) ∧ (0x08 : Byte) ≠ 0x0D) := by decide +kernel

/-- A copy of one 8-byte element from one address of the own slice to the next. -/
def copyOf (src : Nat) : W512 := BitVec.ofNat 512 (src + 0x300000000000000000000000000000000000000000000000000000000000000000000000FFFFFFFFFFFF00080000000000000000)

/-- That copy as command 1 of channel 0. -/
def copy0 (words : W512) (tick : W64) (ph : CopyPhase) : CopyCmd where
  n := 1
  words := words
  tick := tick
  uid := 1
  core := 0
  slot := 0
  super := true
  bond := some 0
  part := 0
  job := 0
  seq := 0
  phase := ph
  landed := []
  counted := []
  skipped := []
  held := []
  pins := []
  first := 0
  fetched := []
  outcome := 0
  message := none
  packet := none

def withCopy (m : CopyCmd) : State := modCore base 0 fun k => { k with chans := k.chans.set 0 ⟨Timeline.zero, [m]⟩ }

/-- A copy of n 8-byte elements from virtual address 0 to the own slice, where 0 lies in a flash page. -/
def flashCopy (n : Nat) : CopyCmd :=
  copy0 (BitVec.ofNat 512 (own.toNat * 2 ^ 64 + (n - 1) * 2 ^ 192 + 3 * 2 ^ 412)) 0 .running
def withFlash (m : CopyCmd) : State :=
  { (modCore withTables 0 fun k => { k with chans := k.chans.set 0 ⟨Timeline.zero, [m]⟩ }) with
    mem := memPut withTables.mem 0x2000 0xFF 0xFE000000040F 8 }

theorem test_witness_CopyEvents :
    (let m := copy0 (copyOf 0xFFFFFFFFFFFF0000) 0 .sent
     let s := withCopy m
     findCopy s 0 0 1 = some m ∧ m.phase = .sent ∧ copyLive s m = true ∧ 16 ≤ 4096 ∧ 4096 ≤ 4096 ∧
       cdValid m.words = true ∧ copyOutside s 0 m = false ∧ m.tick = 0 ∧
       cdValid (copyOf 0xFFFFFFFFFFFF0001) = false) ∧
    (let m := copy0 (copyOf 0xFFFFFFFFFFFF0000) 9 .sent
     m.tick ≠ 0 ∧ (copyNow (withPlumb (withCopy m) 8) 0 0 m).toNat < m.tick.toNat) ∧
    (let m := copy0 (copyOf 0xFFFFFFFFFFFF0000) 9 .accepted
     findCopy (withCopy m) 0 0 1 = some m ∧ m.tick = copyNow (withPlumb (withCopy m) 9) 0 0 m) ∧
    (let m := copy0 (copyOf 0xFFFFFFFFFFFF0000) 9 .sent
     m.tick.toNat < (copyNow (withPlumb (withCopy m) 10) 0 0 m).toNat) ∧
    (let m := copy0 (copyOf 0xFFFFFFFFFFFF0000) 9 .accepted
     copyLive (withCopy m) m = true ∧ launchWaits (withCopy m) m.core m.uid m.seq = false ∧
       m.tick.toNat < (copyNow (withPlumb (withCopy m) 10) 0 0 m).toNat) ∧
    (let k : HeldWord := ⟨0, sliceLoc 0 8, 0, none, 5, false⟩
     let m := { copy0 (copyOf 0xFFFFFFFFFFFF0000) 0 .running with held := [k] }
     m.held.find? (fun y => y.word == 0) = some k ∧ copyLive (withCopy m) m = true ∧ m.phase = .running ∧
       wordHeld m 0 = true ∧ epochRevoked (withCopy m) k.home k.lease = false ∧ footHeld (withCopy m) k.home = false) ∧
    (let m := copy0 (copyOf 0xFFFFFFFFFFFF0000) 9 .sent
     let s := withPlumb (withCopy m) 9
     m.tick = copyNow s 0 0 m ∧ launchWaits s m.core m.uid m.seq = false) ∧
    (let m := flashCopy 1
     let s := withFlash m
     findCopy s 0 0 1 = some m ∧ copyTurn s 0 0 m 0 (cdPosition m.words 0) = true ∧ unitStops s 0 0 m 0 = none ∧
       wordBlock s 0 m 0 = some (0, false) ∧ blockBytesOf m 0 false ≠ 4096) ∧
    (let m := flashCopy 512
     let s := withFlash m
     findCopy s 0 0 1 = some m ∧ copyTurn s 0 0 m 0 (cdPosition m.words 0) = true ∧ unitStops s 0 0 m 0 = none ∧
       wordBlock s 0 m 0 = some (0, false) ∧ blockBytesOf m 0 false = 4096 ∧ s.flash.contains ⟨0, 0, 1, 0, false⟩ = false) ∧
    (let m := copy0 (copyOf 0xFFFFFFFFFFFF0000) 0 (.refused 0)
     m.phase = .refused 0 ∧ 0 ≤ (withCopy m).ticks) ∧
    (let m := copy0 (copyOf 0x8000000000000000) 0 .running
     copyTurn (withCopy m) 0 0 m 0 (cdEsz m.words * 0) = true ∧ m.held = [] ∧ unitStops (withCopy m) 0 0 m 0 = some (.fail 0x08, 0)) ∧
    (let m := copy0 (copyOf 0) 0 .running
     copyTurn (withCopy m) 0 0 m 0 (cdEsz m.words * 0) = true ∧ m.held = [] ∧ unitStops (withCopy m) 0 0 m 0 = some (.fault false 0 1 0 0, 0)) ∧
    (let m := { copy0 (copyOf 0xFFFFFFFFFFFF0000) 0 .running with landed := [0] }
     copyLive (withCopy m) m = true ∧ copyDone m = cdEsz m.words * cdTotal m.words) := by decide +kernel

/-- Elements of 8, 16 and 32 bytes that may land, with an arrival word, with presence, and with neither. -/
theorem test_witness_CopyEvents_landing (code : Fin 3) (also : Fin 3) :
    let d : W512 := copyOf 0xFFFFFFFFFFFF0000 + BitVec.ofNat 512 (code.val * 2 ^ 412 +
      (match also with | 0 => 0 | 1 => 2 ^ 351 | 2 => 2 ^ 415))
    let m := copy0 d 0 .running
    let s := withCopy m
    findCopy s 0 0 1 = some m ∧ copyTurn s 0 0 m 0 (cdPosition m.words 0) = true ∧ unitStops s 0 0 m 0 = none ∧
      wordHeld m 0 = false ∧ wordBlock s 0 m 0 = none ∧ cdEsz d = 2 ^ (code.val + 3) ∧ cdValid d = true ∧
      cdAen d = (also == 1) ∧ cdPset d = (also == 2) ∧
      okWith (gatherUnit s 0 0 m (cdUnit d 0)) (fun q => (q.1.find? fun y => y.1 == 0).isSome) = true := by
  revert code also
  decide +kernel

/-- An optimiser block of one element in mapped memory, and one that is not valid. -/
def opt0 : W512 := 0x10000000000000000000000000001020000000000000101000000000000010000

def foot0 (words : W512) (pages : Option (Map (Nat × Nat × Nat))) (pieces : Map Nat) (puts : List FootPut) : FootCmd where
  n := 1
  words := words
  uid := 1
  slot := 0
  super := true
  bond := some 0
  part := 0
  job := 0
  seq := 0
  pages := pages
  pieces := pieces
  puts := puts
  outcome := 0
  token := none

def withFoot (m : FootCmd) : State :=
  let s : State := { withTables with mem := memPut withTables.mem 0x2000 0xFF 0xF 8 }
  modCore (modPart s 0 fun p => { p with keys := [0] }) 0 fun k => { k with foot := ⟨Timeline.zero, [m]⟩ }

/-- A tensor of one FP32 element at an address. -/
def tensor0 (a : Nat) : W512 := BitVec.ofNat 512 (a + 0x400000000000100000000000000000000000000000000)

def tile0 (ds : List W512) : SeqCmd where
  n := 1
  op := .tile opTcopy 0 ds [(0, 0), (0, 0)]
  core := 0
  uid := 1
  slot := 0
  super := true
  seq := 0
  region := none
  gang := none
  todo := none
  ran := false
  flags := 0
  outcome := 0
  token := none

def withTile (m : SeqCmd) : State :=
  modBond (modDie base 0 fun d => { d with seqrs := d.seqrs.set 0 ⟨some 0, Timeline.zero, [m], some 0⟩ }) 0 fun b =>
    { b with tregion := 0x8000000001010000 }

/-- The base state whose sequencer reverses one mark record at the start of the own slice. -/
def withReverse (k : SeqCmd) : State :=
  let s := withTile k
  { s with mem := memPut s.mem (sliceLoc 0 0) 0xFF (recordHeader 31 0 0 0 0 0 |>.extractLsb' 0 64) 8 }

theorem test_witness_EngineEvents_footing :
    ((let m := foot0 opt0 none [] []
      let s := withFoot m
      findFoot s 0 1 = some m ∧ footReady s 0 m = true ∧ m.pages = none ∧ obValid m.words = true ∧ obValid 0 = false) ∧
     (let l : Map (Nat × Nat × Nat) := [(1, (0x10000, 0, 0x10000))]
      let m := foot0 opt0 (some l) [] []
      let s := withFoot m
      findFoot s 0 1 = some m ∧ footReady s 0 m = true ∧
        (m.puts.map fun y => y.va / 8).find? (wordComplete m.words m.puts) = none ∧ pieceSpan l m.words 0 = some (0, 1) ∧
        0 + mapGet 0 m.pieces 0 < 1 ∧ footWithheld s m.words l 0 = none) ∧
     (let m := foot0 opt0 (some [(1, (0x10000, 0, 0x10000))]) [(0, 1)]
        (elemPuts (withFoot (foot0 opt0 none [] [])) opt0 [(1, (0x10000, 0, 0x10000))] 0)
      ((m.puts.map fun y => y.va / 8).find? (wordComplete m.words m.puts)).isSome = true) ∧
     (let m := foot0 opt0 (some [(1, (0x10000, 0, 0x10000))]) [(0, 1)] []
      footPerformed m = true)) ∧
    (let m := foot0 opt0 none [] []
     ∃ q, footPages (withFoot m) (footWho 0 m) ((obRanges m.words).flatMap (rangePages (obN m.words))) = .ok q) := by
  refine ⟨by decide +kernel, ?_⟩
  obtain ⟨q, hq, -⟩ := of_okWith (x := footPages (withFoot (foot0 opt0 none [] [])) (footWho 0 (foot0 opt0 none [] []))
    ((obRanges opt0).flatMap (rangePages (obN opt0)))) (p := fun _ => true) (by decide +kernel)
  exact ⟨q, hq⟩

/-- A copy of one element within the slice: checked, begun, its write made and ended; a region outside its bond; a component
gang of core (1, 1) to be placed, pulsed and thawed; a mark record in hand, and a poisoned record. -/
theorem test_witness_EngineEvents_sequencer :
    let region : W64 := 0x8000000001010000
    let ds := [tensor0 0xFFFFFFFFFFFF0000, tensor0 0xFFFFFFFFFFFF0004]
    let put : SeqPut := ⟨0, 0xFFFFFFFFFFFF0004, 4, 0, false, none, false⟩
    let k := tile0 ds
    let begun (z : SeqCmd) (y : State) : State :=
      leaveStaging (modSeq y 0 0 z.n fun _ => { z with region := some region }) region [] []
    (let s := withTile k
     seqReady s 0 0 = some (0, k) ∧ mapFind s.bonds 0 = some { bond0 with tregion := region } ∧
       commandOk opTcopy 0 ds false = true ∧ commandOk opTcopy 1 ds false = false ∧ regionOk s 0 region = true ∧
       regionOk s 0 (region ||| 63) = false ∧ okWith (startTile (begun k s) (seqWho (begun k s) 0 0 k) opTcopy 0 [] ds
         [(0, 0), (0, 0)]) (fun q => decide (q.1 = ([put], 0))) = true ∧
       componentFits (begun k s) 0 k.core region gang0 = true ∧
       (∀ y ∈ (gangCores gang0).filterMap id,
         (coreOf (begun k s) y).frozen = none ∧ (coreOf (begun k s) y).claimed = none)) ∧
    (∀ n ∈ [1, 2], let g : SeqGang := ⟨gang0, n, true⟩
     let k' := { k with gang := some g }
     seqReady (withTile k') 0 0 = some (0, k') ∧ (n = 1 → g.pulse < gdK g.desc) ∧ (n = 2 → gdK g.desc ≤ g.pulse ∧
       pulsesLeft k' = some 0)) ∧
    (let k' := { k with todo := some [put], region := some region }
     let s := withTile k'
     seqReady s 0 0 = some (0, k') ∧ putTurn [put] put = true ∧
       okWith (seqPut (begun k' s) (seqWho (begun k' s) 0 0 k') put ([put].filter (sameWord put))) (fun q => q.1 == 0) = true) ∧
    (let k' := { k with todo := some [] }
     seqReady (withTile k') 0 0 = some (0, k')) ∧
    (let k' := { k with op := .reverse [own] }
     let s := withReverse k'
     seqReady s 0 0 = some (0, k') ∧ regionOk s 0 region = true ∧
       okWith (startRecord (begun k' s) (seqWho (begun k' s) 0 0 k') own [] []) (fun q => decide (q.1 = ([], 0))) = true) ∧
    (let k' := { k with op := .reverse [own] }
     let s := { begun k' (withReverse k') with poison := [sliceLoc 0 0 / 8] }
     (match startRecord s (seqWho s 0 0 k') own [] [] with | .error (.fail o) => o == 0x0D | _ => false) = true) ∧
    (let k' := { k with op := .reverse [own], todo := some [] }
     seqReady (withReverse k') 0 0 = some (0, k')) ∧
    (let k' := { tile0 [] with ran := true }
     ((withTile k').dies[(0 : Fin 4)].seqrs[(0 : Fin 8)]).cmds = [k'] ∧
       ((withTile k').dies[(0 : Fin 4)].seqrs[(0 : Fin 8)]).bond = some 0) := by decide +kernel

/-- A fault message of the strand. -/
def msg0 : FaultMsg := faultMsg 0x10 .strand 0 0 0 own 1

/-- Mailboxes with 0, 63 and 64 messages; a handler with and without a free slot, and none. -/
theorem test_witness_FaultEvents :
    (let p : Packet := ⟨0, 1, .fault 0 msg0, 0, false, false, none⟩
     let s : State := { base with net := [p] }
     s.net[0]? = some p ∧ p.refused = false ∧ serviceFault s msg0 = none ∧ (clusterOf s 0).mailbox.length < 64 ∧
       64 ≤ (clusterOf (modCluster s 0 fun l => { l with mailbox := List.replicate 64 msg0 }) 0).mailbox.length) ∧
    (let p : Packet := ⟨0, 1, .fault 0 msg0, 0, false, false, none⟩
     let s : State := { (modMe base fun t => { t with kind := .service }) with net := [p] }
     s.net[0]? = some p ∧ serviceFault s msg0 = some (0, 0)) ∧
    (let s := modCluster base 0 fun l => { l with mailbox := [msg0], fhvec := 1 + 2 * 2 ^ 1 }
     (clusterOf s 0).mailbox = [msg0] ∧ (coreOf s (keystone 0)).halted = false ∧ bit (clusterOf s 0).fhvec 0 = true ∧
       freeSlot (coreOf s (keystone 0)) = some 1) ∧
    (let t := modCore base 0 fun k => { k with slots := Vector.replicate 8 strand0 }
     let s : State := { (modCluster t 0 fun l => { l with mailbox := [msg0], fhvec := 1 + 2 * 2 ^ 1 }) with ticks := 2048 }
     bits (clusterOf s 0).fhvec 7 1 ≠ 0 ∧ (clusterOf s 0).since + bits (clusterOf s 0).fhvec 7 1 * 1024 ≤ s.ticks ∧
       freeSlot (coreOf s (keystone 0)) = none) ∧
    bit (clusterOf (modCluster base 0 fun l => { l with mailbox := [msg0] }) 0).fhvec 0 = false ∧
    (nodeOf (sliceLoc 0 0) = 0 ∧ sliceLoc 0 0 < 2 ^ 50 ∧ isSlice (sliceLoc 0 0) = true ∧ isSlice 0 = false) ∧
    (strandAt base 0 0).occ = true := by decide +kernel

/-- A LAUNCH packet for cluster 0. -/
def launch0 : QPacket := ⟨BitVec.ofNat 1024 0x80000000000000000000000000000000000000000000000000000000000000000000000000000000000000000000000000000000000000000000000000000000000000, 0⟩

def workUnit0 : WorkUnit := ⟨launch0, 0, 0, 0, some 0, 2, 0, none⟩

/-- The base state without its strand and its bond, a unit queued, 3 · 2^20 ticks of plumb time after its dependences were
met. -/
def withUnit : State :=
  let s := modCluster (modStrand base 0 0 fun _ => Strand.free) 0 fun l => { l with bond := none }
  { withPlumb (modPart s 0 fun p => { p with units := [workUnit0] }) (3 * 2 ^ 20) with bonds := [] }

theorem test_witness_SchedulerEvents :
    (let s := modStrand base 0 0 fun _ => Strand.free
     mapFind s.bonds 0 = some bond0 ∧ bondIdle s 0 bond0 = true) ∧
    (let p := partOf withUnit 0
     p.units[0]? = some workUnit0 ∧ p.phase = .running ∧ depsMet withUnit 0 launch0 = true ∧
       rectAllowed p launch0 0 0 = true ∧ placeFree withUnit launch0 (0, 0) = true ∧
       (∀ v ∈ p.units, before withUnit p.units v workUnit0 = true → depsMet withUnit v.job v.packet = true →
         ∀ e ∈ launchPlaces p v.packet, placeFree withUnit v.packet e = false) ∧
       workUnit0.metAt = some 0 ∧ workUnit0.aged < 3 ∧ 0 + 2 ^ 20 * (workUnit0.aged + 1) ≤ schedulerTime withUnit ∧
       freeSlot (coreOf withUnit (keystone (0 * 16 + 0))) = some 0) := by decide +kernel

/-- Queue 0 of job 0 on the running partition, with a packet of a type in hand and its target address in word 6. -/
def withHand (words : BitVec 1024) : State :=
  modJob { base with queues := [(0, { Queue.reset with qcfg := 0x8000000000000000, run := true, hand := some ⟨words, 0⟩ })] } 0
    fun j => { j with part := some 0, ownset := 0x8000000C07070000 }

theorem test_witness_QueueEvents :
    (let s : State := { base with ticks := 65536 }
     (queueOf s 0).polled + 65536 ≤ s.ticks ∧ bit (queueOf s 0).qcfg 63 = false ∧ bit (0x8000000000000000 : W64) 63 = true ∧
       bit (0 : W64) 63 = false ∧ (∀ z ∈ s.bonds, z.2.job ≠ 1) ∧
       (∀ z ∈ s.queues, queueJob z.2 = 1 → queueEn z.2 = false)) ∧
    (let s := withHand launch0.words
     bit (queueOf s 0).qcfg 63 = true ∧ inHand s 0 0 = some (launch0, 0) ∧ configValid (jobOf s (queueJob (queueOf s 0))) = true ∧
       launchPlaces (partOf s 0) launch0 ≠ []) ∧
    (let p : QPacket := ⟨BitVec.ofNat 1024 0x1000000000000000000000000000000000000000000000000000000000000000000000000000000000000000000000000002, 0⟩
     let s := withHand p.words
     let own' := ownerOf (jobOf s (queueJob (queueOf s 0))).ownset (pktWord p 6)
     inHand s 0 1 = some (p, 0) ∧ depsMet s (queueJob (queueOf s 0)) p = true ∧
       bit (jobOf s (queueJob (queueOf s 0))).ownset 63 = true ∧ (clusterOf s (clusterIdx own')).bond = some 0 ∧
       mapFind s.bonds 0 = some bond0 ∧ bond0.job = queueJob (queueOf s 0)) ∧
    (let p : QPacket := ⟨2 * 2, 0⟩
     let s := withHand p.words
     inHand s 0 2 = some (p, 0) ∧ depsMet s (queueJob (queueOf s 0)) p = true ∧
       (chanOf s (packetEngine s 0 0) 2).cmds.length < 16) ∧
    (let p : QPacket := ⟨2 * 3, 0⟩
     inHand (withHand p.words) 0 3 = some (p, 0) ∧ depsMet (withHand p.words) 0 p = true ∧
       (queueOf (withHand p.words) 0).taken = []) ∧
    (let p : QPacket := ⟨2 * 4, 0⟩
     inHand (withHand p.words) 0 4 = some (p, 0) ∧ depsMet (withHand p.words) 0 p = true) ∧
    (let p : QPacket := ⟨2 * 5, 0⟩
     inHand (withHand p.words) 0 5 = some (p, 0) ∧ depsMet (withHand p.words) 0 p = true ∧
       (queueOf (withHand p.words) 0).taken = []) ∧
    (let t : Taken := ⟨7, 0, launch0, true⟩
     (queueOf (modQueue base 0 fun x => { x with taken := [t] }) 0).taken.find? (fun z => z.n == 7 && z.done) = some t) := by
  decide +kernel

/-- A free partition that takes cluster 319, one that runs, one that drains before and after the halt, one that is saved,
with a job that is its own and one that no partition has. -/
theorem test_witness_PartitionEvents :
    assignable base 319 [319] [11] [1023] (some (11 * 2 ^ 36, 4096)) = true ∧ (partOf base 0).phase = .running ∧
    (let s := modPart base 0 fun p => { p with phase := .draining }
     (partOf s 0).phase = .draining ∧ halting s 0 = false ∧ queuesQuiet s 0 = true) ∧
    (let s := modCore (modPart base 0 fun p => { p with phase := .draining }) 0 fun k => { k with halted := true }
     halting s 0 = true ∧ (partOf s 0).drain = false ∧ gangsThawed s 0 = true) ∧
    (let s := modCore (modPart base 0 fun p => { p with phase := .draining, drain := true }) 0 fun k => { k with halted := true }
     halting s 0 = true ∧ drainDone s 0 = true) ∧
    (let s := modPart base 0 fun p => { p with phase := .saved }
     (partOf s 0).phase = .saved ∧ 63 < 64 ∧ (jobOf s 63).killed = false ∧ (jobOf s 63).part = none ∧
       (jobOf (modJob s 63 fun j => { j with part := some 0 }) 63).part = some 0) := by decide +kernel

/-- A copy of plumb time slewed back by one tick after 9,999 of rest, and one that never was. -/
theorem test_witness_DeviceEvents :
    base.dev.powered = true ∧ base.dev.alarm = none ∧
    ({ base with dev := { base.dev with sync := true } } : State).dev.sync = true ∧
    (let s : State := { base with ticks := 10000, slewed := Vector.replicate 6 1 }
     let by_ (i : Fin 6) : Nat := (if (1 : BitVec 6) != 0 && !bit (1 : BitVec 6) i.val then 1 else 0) +
       (if bit (0 : BitVec 6) i.val then 1 else 0)
     (1 : BitVec 6) &&& 0 = 0 ∧ plumbAgrees s by_ = true ∧ s.slewed[(0 : Fin 6)] + 9999 ≤ s.ticks ∧ base.slewed[(0 : Fin 6)] = 0) := by
  decide +kernel

theorem test_witness_EncodedInstructionsDecode :
    encode (.send .m3 16 23 23 15) = some ⟨32, 0x5FBDE1E3⟩ ∧ wellFormed (.send .m3 16 23 23 15) = true := by decide +kernel

theorem test_witness_DecodedBytesReencode :
    decode (leBytes 4 0x00290601 ++ [7]) = .ok (.add .always (.g 3) (.g 4) (.g 5), [7]) := by decide +kernel

/-- A word and a halfword at the PC in the own slice, and the turn that issues it. -/
theorem test_witness_StepRunsTheDecodedInstruction :
    let s : State := { State.reset.withFetchWord 32 0x00290601 with lazy := false, cur := 0, slot := 0 }
    okWith (fetchWord s) (fun q => decide (q.1 = (0x00290601, 4))) = true ∧
    decode (leBytes 4 0x00290601) = .ok (.add .always (.g 3) (.g 4) (.g 5), []) ∧
    (∀ e ∈ ([(0, 0x0601), (2, 0x0029)] : List (Nat × Nat)),
      someWith (match checkAddr s (fetchWho s) .fetch true ((me s).pc + BitVec.ofNat 64 e.1) with
        | .ok r t => if t.lazy then none else
            strandWord t t.cur (me t).uid t.nextSeq (wordOf r.loc) r.key (byteMask (r.loc % 8) 2)
        | _ => none) (fun w => !w.2 &&
          decide ((byteAt w.1 e.1).toNat + 256 * (byteAt w.1 (e.1 + 1)).toNat = e.2)) = true) ∧
    (let r : State := openRaised { s with freeCtr := s.freeCtr + 1, turns := [] } 0
     s.turns = [.issue 0 false] ∧ coreExists 0 = true ∧ s.dev.ready = true ∧ (coreOf s 0).frozen = none ∧
       (coreOf s 0).halted = false ∧ choose r 0 ((eligible r 0 false).map fun e => e.1) = some (0, false, none) ∧
       leaves (attempt { r with cur := 0, slot := 0, lazy := false }) (fun _ => true) = true) := by decide +kernel

/-- Every well-formed instruction of the group has a mask that turns it off. -/
theorem test_witness_PredicatedOff :
    wholePredicate (.trap .m1 (.g 5) 3) = some .m1 ∧ predOn base .m1 = false := by decide +kernel

/-- A mask with no lane on, a view that may be popped with and without its element, and a lane index beyond the mask's
lanes. -/
theorem test_witness_PredicatedOff_vector :
    (∀ j, j < 32 → (predMask base .m1).getLsbD j = false) ∧ predMask base .m1 = 0 ∧
    poppable (ready base) { srcV := [.w 1] } = [] ∧
    (let s := modCore base 0 fun k => { k with inq := k.inq.set (portFin .s) [⟨9, 0, false, none, none⟩] }
     poppable (ready s) { srcV := [.q .s] } = [.port .s true] ∧
       (poppable (ready s) { srcV := [.q .s] }).all (viewReady (ready s) false) = true) ∧
    (poppable (ready base) { srcV := [.q .s] }).all (viewReady (ready base) false) = false := by decide +kernel

/-- A sum and a product of the two frames, run with no flag enabled. -/
theorem test_witness_ScalarRegisterFrame :
    predOn base .always = true ∧ fcsrEn (me base).fcsr = 0 ∧
    Operable (ready base) { srcS := [.g 4, .g 5], dstS := [.g 3] } ∧ Operable (ready base) { srcS := [.g 4], dstS := [.g 3] } ∧
    leaves (exec (.add .always (.g 3) (.g 4) (.g 5)) base) (fun _ => true) = true ∧
    leaves (exec (.addi .always (.g 3) (.g 4) 1) base) (fun _ => true) = true ∧
    leaves (exec (.fmul .always .fp32 (.g 3) (.g 4) (.g 5)) base) (fun _ => true) = true ∧
    leaves (exec (.fsqrt .always .fp32 (.g 3) (.g 4)) base) (fun _ => true) = true :=
  ⟨by decide +kernel, by decide +kernel, operable (by decide +kernel), operable (by decide +kernel), by decide +kernel,
    by decide +kernel, by decide +kernel, by decide +kernel⟩

/-- One lane on, the others off. -/
theorem test_witness_VectorRegisterFrame :
    let s := modMe base fun t => { t with m := t.m.set 1 1 }
    (∃ j, j < LFmt.i32.lanes ∧ (predMask s .m1).getLsbD j = true) ∧ fcsrEn (me s).fcsr = 0 ∧
    Operable (ready s) { srcV := [.v 1, .v 2], dstV := [.v 3] } ∧ Operable (ready s) { srcV := [.v 1, .v 2] } ∧
    leaves (exec (.vadd .m1 .i32 (.v 3) (.v 1) (.v 2)) s) (fun _ => true) = true ∧
    leaves (exec (.vcmp .m1 .eq .i32 2 (.v 1) (.v 2)) s) (fun _ => true) = true ∧ (predMask s .m1).getLsbD 7 = false :=
  ⟨⟨0, by decide +kernel⟩, by decide +kernel, operable (by decide +kernel), operable (by decide +kernel), by decide +kernel,
    by decide +kernel, by decide +kernel⟩

theorem test_witness_MemoryReadsBack :
    Memory.wf [⟨5, 1⟩, ⟨9, 2⟩] = true ∧ (7 : BitVec 8).getLsbD 2 = true ∧ (7 : BitVec 8).getLsbD 7 = false := by decide +kernel

theorem test_witness_MemoryStaysCanonical :
    let s : State := State.reset.withFetchWord 32 0x00000003
    Memory.wf s.mem = true ∧ leaves (step s) (fun _ => true) = true := by decide +kernel

/-- No generator of the machine after reset is in the reserved state, and a step from there is answered. -/
theorem test_witness_SeedsStayLegal :
    (∀ e ∈ State.reset.cores, e.2.srseed ≠ 0) ∧ (∀ p ∈ State.reset.parts, p.2.saved = []) ∧
    Core.reset.srseed ≠ 0 ∧ (∀ e ∈ base.cores, e.2.srseed ≠ 0) ∧
    leaves (step (State.reset.withFetchWord 32 0x00000003)) (fun _ => true) = true := by decide +kernel

/-- The turn of a core that the package does not have faults. -/
theorem test_step_of_no_core :
    (match step { State.reset with turns := [.issue 20480 false] } with | .fault f => f == .noSuchUnit | _ => false) = true := by
  decide +kernel

/-- The base state with tables, a value that an optimiser has computed waiting for its word at 0x2000. -/
def withHeldLine : State :=
  modCore withTables 0 fun k => { k with foot := ⟨Timeline.zero,
    [foot0 opt0 (some [(0, (0, 0, 0))]) [] [⟨0x2000, 4, 0, false⟩]]⟩ }

/-- A walk, an access and the host's at a held line and outside it; a load that a RESUME let run again. -/
theorem test_witness_held_lines :
    (let s := modMe withHeldLine fun t => { t with wait := .walk 0 false false }
     walkJob s (strandAt s 0 0).job (0 : W64).toNat = .held) ∧
    footHeld withHeldLine 0x2000 = true ∧ footHeld withHeldLine 0x2080 = false ∧ footHeld base 0x10FF8 = false ∧
    (let p : Pending := { load0 (sliceLoc 0 0) none with again := true }
     let s := modMe base fun t => { t with inflight := [p] }
     (strandAt s 0 0).inflight[0]? = some p ∧ p.parts[0]? = some ⟨own, sliceLoc 0 0, 8, 0, 0, .rc, none, none⟩ ∧
       okWith (recheckParts { s with cur := 0, slot := 0, lazy := false } p.parts) (fun q => q.1.length == 1) = true) := by
  decide +kernel

/-- A copy of two 8-byte elements between virtual address 0, in a flash page, and the own slice, either way: the words of its
block may land. -/
theorem test_witness_OutsideEvents_flash (w : Bool) :
    let m := if w then copy0 (BitVec.ofNat 512 (own.toNat + 2 ^ 192 + 3 * 2 ^ 412)) 0 .running else flashCopy 2
    let op : FlashOp := ⟨0, 0, 1, 0, w⟩
    let s' := withFlash m
    let s : State := { s' with flash := [op] }
    s.flash[0]? = some op ∧ { s with flash := s.flash.eraseIdx 0 } = s' ∧ findCopy s' 0 0 1 = some m ∧ m.phase = .running ∧
      (w = true → targetWords s' 0 m 0 = [0, 1] ∧ ∀ x ∈ [0, 1], copyTurn s' 0 0 m x (cdPosition m.words x) = true) ∧
      (w = false → fedWords s' 0 m 0 = [0, 1] ∧ ∀ x ∈ [0, 1], copyTurn s' 0 0 m x (cdPosition m.words x) = true) := by
  cases w <;> decide +kernel

/-- A walk that finds a page of peer 2, whose lease has been granted or refused. -/
theorem test_witness_TranslationEvents_lease (refused : Bool) :
    let l : Lease := ⟨2, 0, 2 ^ 31, true, true, 7, refused, false⟩
    let s : State := { (modMe withTables fun t => { t with wait := .walk 0x123 false false }) with
      mem := memPut withTables.mem 0x2000 0xFF 0x020000000407 8, leases := [l] }
    (strandAt s 0 0).occ = true ∧ (strandAt s 0 0).wait = .walk 0x123 false false ∧
      walkJob s (strandAt s 0 0).job 0x123 = .leaf 0x020000000407 (2 ^ 31) 1 ∧ needsLease 0x020000000407 = true ∧
      leaseAt s (pteNode 0x020000000407) (bits (0x020000000407 : W64) 39 12 * 4096 + 0x123 % 2 ^ 31) = some l ∧
      l.refused = refused := by
  cases refused <;> decide +kernel

/-- SCFG of a descriptor with a reserved bit, and of one whose base is no multiple of its element size. -/
theorem test_witness_StreamInstructionsTrap (bad : Bool) :
    let s := withWords [if bad then own else own + 1, if bad then 3 + 1 <<< 10 else 3, 3, 8, 0, 0, 0, 0] [(4, own)]
    predOn s .always = true ∧ streamFree (ready s) 0 = true ∧ Operable (ready s) { srcS := [.g 4] } ∧
    (getG s 4).toNat % 64 = 0 ∧
    ∃ q, loadBlock (ready s) (getG (ready s) 4) = .ok q ∧
      (if bad then q.1.toNat / 2 ^ 74 % 2 ^ 6 != 0 else q.1.toNat / 2 ^ 74 % 2 ^ 6 == 0 && q.1.toNat % 8 != 0) = true := by
  cases bad <;> exact ⟨by decide +kernel, by decide +kernel, operable (by decide +kernel), by decide +kernel,
    of_okWith (by decide +kernel)⟩

/-- An element of an optimiser that a home withholds, a shadow unit that merges alone, and a reduction under a revoked
lease. -/
theorem test_witness_withheld_alone_revoked :
    (let s : State := { withFoot (foot0 opt0 (some [(1, (0x10000, 0, 0x10000))]) [] []) with
       tags := [⟨0x10000, .cr, 0, 0, 1, none, 1⟩] }
     footWithheld s opt0 [(1, (0x10000, 0, 0x10000))] 0 = some 0x10000) ∧
    (let s := modDie base 0 fun d => { d with shadows := [unit0] }
     mergeGroup s 0 unit0 = [(0, unit0)] ∧ (homeWord s (wordOf unit0.loc) unit0.key).2 = false ∧
       unitRevoked s unit0 = false ∧ unit0.poison = false) ∧
    (let r : Reduction := { red0 true false with loc := 2 ^ 40, lease := some (2 ^ 40, 7) }
     let s : State := { (modCore base 0 fun k => { k with reds := [r] }) with revoked := [(1, 7)] }
     (coreOf s 0).reds[0]? = some r ∧ r.token = none ∧ epochRevoked s r.loc r.lease = true) := by decide +kernel

/-- Gang descriptors for the cell at core (1, 1), of two pulses: RS with block scales, WS on the format codes of R235, with
column scales or with partial sums that enter from outside, and a solver of W × H cells in 32 bits. -/
def gangBse : W512 := BitVec.ofNat 512 (1 + 2 ^ 8 + 2 * 2 ^ 64 + 32 * 2 ^ 42 + 32 * 2 ^ 48 + 2 ^ 38)
def gangWsOf (a b : Nat) : W512 := BitVec.ofNat 512 (1 + 2 ^ 8 + 2 ^ 30 + 2 * 2 ^ 64 + a * 2 ^ 42 + b * 2 ^ 48)
def gangScen : W512 := gangWsOf 1 1 ||| (1 <<< 39)
def gangPin : W512 := gangWsOf 1 1 ||| (1 <<< 41)
def gangGiv (x w h : Nat) : W512 :=
  BitVec.ofNat 512 (x + 2 ^ 8 + (w - 1) * 2 ^ 16 + (h - 1) * 2 ^ 24 + 2 ^ 31 + 2 * 2 ^ 64 + 7 * 2 ^ 42 + 7 * 2 ^ 48 +
    16 * 2 ^ 54 + 2 ^ 60)

/-- The slice of core (1, 1) with scales of 1, a poisoned first word, or one that its home withholds. -/
def withScales (s : State) : State :=
  { s with mem := (List.range 8).foldl (fun m j => memPut m (sliceLoc 129 (8 * j)) 0xFF 0x3F8000003F800000 8) s.mem }
def withBadScale (s : State) : State := { s with poison := [sliceLoc 129 0 / 8] }
def withTagged (s : State) : State := { s with tags := [⟨sliceLoc 129 0, .cr, 0, 0, 1, none, 1⟩] }

/-- Pulses of RS with scales that are good, poisoned, not numbers, or withheld, and with a poisoned operand or lane. -/
theorem test_witness_GangEvents_scales :
    let s := withGang gangBse .frozen 1 0 [entry0] [entry0]
    let bits_ (y : State) (ok : (Nat × Bool) → (Nat × Bool) → Bool) : Bool := someWith (cellAt y 129) fun x =>
      mayPulse y 129 x && decide (x.p.rm = 16 ∧ x.p.cn = 8) && match boundaryScales y x 129 with
        | .ok (some (a, b)) => ok a b
        | _ => false
    let fits (a b : Nat × Bool) : Bool := (List.range 16).all (fun j => scaleOk (word32 a.1 j)) &&
      (List.range 8).all fun j => scaleOk (word32 b.1 j)
    bits_ (withScales s) (fun a b => !a.2 && !b.2 && fits a b) = true ∧ bits_ s (fun a b => !a.2 && !b.2 && !fits a b) = true ∧
    bits_ (withBadScale s) (fun a b => a.2 && b.2) = true ∧
    someWith (cellAt (withTagged s) 129) (fun x => match boundaryScales (withTagged s) x 129 with
      | .error n => n == sliceLoc 129 0 | .ok _ => false) = true ∧
    (let s := withGang gang0 .frozen 1 0 [{ entry0 with poison := true }] [entry0]
     someWith (cellAt s 129) (fun x => mayPulse s 129 x && okIs (boundaryScales s x 129) none) = true) ∧
    (let s := modCore (withGang gang0 .frozen 1 0 [entry0] [entry0]) 129 fun k => { k with kPoison := 1 }
     someWith (cellAt s 129) (fun x => (cellLanes x.d x.p).any (kBad (coreOf s 129))) = true) := by decide +kernel

/-- Pulses of WS: activations of every kind, from zero and on partial sums, with column scales and without. -/
theorem test_witness_GangEvents_ws :
    (∀ e ∈ ([(1, 1, 0), (4, 5, 66), (1, 1, 64), (1, 1, 72)] : List (Nat × Nat × Nat)),
      let a : PortEntry := { entry0 with tag := BitVec.ofNat 7 e.2.2 }
      let s := withGang (gangWsOf e.1 e.2.1) .frozen 0 8 [a] []
      someWith (cellAt s 129) (fun x => mayPulse s 129 x && decide (gdMode x.d = .ws) && (x.v == 0 && !gdPin x.d) &&
        decide (linkHead s 129 (linkA x.d) = some a) && okIs (wsScales s x 129) (0, false) && match gdBfmt x.d with
        | none => false
        | some fb => match activationFmt x a with
          | none => e.2.2 == 72
          | some fa => match pairOf fa fb with
            | none => e.2.2 == 64
            | some q => decide (q.rm = x.p.rm ∧ q.cn = x.p.cn) == (e.2.2 == 0) &&
              !(List.range (ceilDiv (blockBytes q fb) 4)).any fun j => kBad (coreOf s 129) (128 + j)) = true) ∧
    (let s := withGang gangPin .frozen 0 8 [entry0] [entry0]
     someWith (cellAt s 129) (fun x => mayPulse s 129 x && gdPin x.d &&
       decide (linkHead s 129 (linkB x.d) = some entry0)) = true) ∧
    (let s := withGang gangScen .frozen 0 8 [entry0] []
     someWith (cellAt s 129) (fun x => mayPulse s 129 x && (match wsScales s x 129 with | .ok _ => true | .error _ => false)) = true ∧
     someWith (cellAt (withTagged s) 129) (fun x => match wsScales (withTagged s) x 129 with
      | .error n => n == sliceLoc 129 0 | .ok _ => false) = true) := by decide +kernel

/-- Pulses of a solver: the cell of the diagonal, and one beside it; a poisoned lane. -/
theorem test_witness_GangEvents_giv :
    (let s := withGang (gangGiv 1 2 1) .frozen 0 0 [] [entry0]
     someWith (cellAt s 129) (fun x => mayPulse s 129 x && decide (gdMode x.d = .giv ∧ x.u = x.v) &&
       decide (linkHead s 129 (linkB x.d) = some entry0) && roomFor s 129 (decide (x.u + 1 < gdW x.d)) (opposite (linkA x.d)) &&
       !(cellLanes x.d x.p).any (kBad (coreOf s 129))) = true) ∧
    (let s := withGang (gangGiv 0 2 1) .frozen 0 0 [entry0] [entry0]
     someWith (cellAt s 129) (fun x => mayPulse s 129 x && decide (gdMode x.d = .giv ∧ x.u ≠ x.v) &&
       decide (linkHead s 129 (linkA x.d) = some entry0) && decide (linkHead s 129 (linkB x.d) = some entry0) &&
       roomFor s 129 (decide (x.v + 1 < gdH x.d)) (opposite (linkB x.d)) && !(cellLanes x.d x.p).any (kBad (coreOf s 129))) =
       true) ∧
    (let s := modCore (withGang (gangGiv 1 2 1) .frozen 0 0 [] [entry0]) 129 fun k => { k with kPoison := BitVec.allOnes 128 }
     someWith (cellAt s 129) (fun x => (cellLanes x.d x.p).any (kBad (coreOf s 129))) = true) := by decide +kernel

/-- A core that holds one of everything that an error can strike. -/
def withAll : State :=
  let s := modCore (modMe base fun t => { t with inflight := [load0 0 (some (5, false))] }) 0 fun k => { k with
    inq := k.inq.set 0 [entry0], seam := k.seam.set 0 [entry0]
    inbound := [⟨.widen 1, some 0, 0, 0, 1, false, false⟩], outbound := [⟨1, 0, .cl, .wake 1 0⟩]
    stores := (coreOf withStore 0).stores, reds := [red0 false false]
    streams := k.streams.set 0 { Stream.idle with buf := [⟨0, true, 7, none⟩] }
    chans := k.chans.set 0 ⟨Timeline.zero, [copy0 (copyOf 0xFFFFFFFFFFFF0000) 0 .running]⟩
    itlb := [leafEntry 0 0 0 7 4096 none] }
  modDie (modCluster s 0 fun b => { b with mailbox := [msg0] }) 0 fun d => { d with shadows := [unit0] }

/-- An error at each place that can hold one; words of g registers and of control state in a saved context. -/
theorem test_witness_FaultEvents_sites :
    (strandAt withAll 0 0).occ = true ∧
    (let k := coreOf withAll 0
     ((inqOf k .n).length = 1 ∨ (inqOf k .e).length = 1 ∨ (inqOf k .s).length = 1 ∨ (inqOf k .w).length = 1) ∧
       ((seamOf k .n).length = 1 ∨ (seamOf k .e).length = 1 ∨ (seamOf k .s).length = 1 ∨ (seamOf k .w).length = 1) ∧
       k.inbound.length = 1 ∧ k.outbound.length = 1 ∧ k.stores.length = 1 ∧ k.reds[0]? = some (red0 false false) ∧
       (k.streams[(0 : Fin 4)]).buf[0]? = some ⟨0, true, 7, none⟩ ∧ (⟨0, true, 7, none⟩ : Elem).fault = none ∧
       k.itlb.length = 1) ∧
    (clusterOf withAll 0).mailbox[0]? = some msg0 ∧ (strandAt withAll 0 0).inflight[0]? = some (load0 0 (some (5, false))) ∧
    (load0 0 (some (5, false))).parts.length = 1 ∧ withAll.dies[(0 : Fin 4)].shadows[0]? = some unit0 ∧
    findCopy withAll 0 0 1 = some (copy0 (copyOf 0xFFFFFFFFFFFF0000) 0 .running) ∧
    (let x : Saved := ⟨0, [(0, coreOf withAll 0)], [], [], [], [], [], [], [], []⟩
     let s := modPart base 0 fun p => { p with saved := [x] }
     (partOf s 0).saved = x :: [] ∧ x.job = 0 ∧ mapFind x.cores 0 = some (coreOf withAll 0) ∧
       shadowItem (8 / 8 * 8) = .g 0 1 ∧ ((coreOf withAll 0).slots[(0 : Fin 8)]).occ = true ∧
       shadowItem (0x1C80 / 8 * 8) = .control ∧ (0, 0x1C80 / 8 * 8) ∉ x.struck) := by decide +kernel

/-- The strand waiting on token 9 for an instruction or for load 0, with the policies of its CONTAIN and CONTUP. -/
def withAsked (w : Option Nat) (contain contup : W64) : State :=
  { (modMe base fun t => { t with wait := .reply 9 4 w, inflight := [load0 0 none], contain := contain, contup := contup }) with
    asked := [{ msg0 with token := 9 }] }

/-- Replies to a strand that runs and to one of a halted partition; each policy of a strand, and of each level, with and
without retries. -/
theorem test_witness_ContainmentEvents :
    (let s := withAsked none 0 0
     s.asked.find? (fun y => y.token == 9) = some { msg0 with token := 9 } ∧ agentOf s 9 = some (.strand 0 0) ∧
       agentPart s (.strand 0 0) = 0 ∧ partHalted s 0 = false ∧ (strandAt s 0 0).wait = .reply 9 4 none ∧
       msg0.source ≠ .readStream ∧ msg0.source ≠ .fetch ∧ findUid s msg0.uid = some (0, 0) ∧ (strandAt s 0 0).bond = some 0) ∧
    partHalted (modCore (withAsked none 0 0) 0 fun k => { k with halted := true }) 0 = true ∧
    (strandAt (withAsked (some 0) 0 0) 0 0).wait = .reply 9 4 (some 0) ∧
    (∀ pol ∈ [0, 1, 2, 3], bits (strandAt (withAsked none (BitVec.ofNat 64 pol) 0) 0 0).contain 1 0 = pol) ∧
    bits (strandAt (withAsked none (1 + 2 * 256) 0) 0 0).contain 11 8 = 2 ∧
    (∀ e ∈ ([(1, 1), (2, 256), (3, 65536), (4, 16777216)] : List (Nat × Nat)), ∀ pol ∈ [1, 2, 3],
      let s := modBond (withAsked none 0 (BitVec.ofNat 64 (e.2 * pol))) 0 fun b => { b with
        leftCourse := [(0, 1)], leftBond := 1, leftBay := 1, leftJob := 1 }
      let t := strandAt s 0 0
      contPol t.contup (e.1 - 1) = pol ∧ (∀ k, 1 ≤ k → k < e.1 → contPol t.contup (k - 1) = 0) ∧
        walkLeft s ⟨some (0, 0), some 0, clusterIdx 0, some (.strand 0 0), msg0⟩ e.1 ≠ 0) ∧
    (let s := withAsked none 0 0x01010101
     ∀ k, 1 ≤ k → k ≤ 4 → contPol (strandAt s 0 0).contup (k - 1) = 1 ∧
       walkLeft s ⟨some (0, 0), some 0, clusterIdx 0, some (.strand 0 0), msg0⟩ k = 0) := by decide +kernel

/-- A partition to save, and one whose job has a context that nothing keeps from coming back. -/
theorem test_witness_ContextEvents :
    holdsCore base 0 0 = true ∧ (mapFind (withdrawAll base 0).cores 0).isSome = true ∧
    (let s := savePartition (modPart base 0 fun p => { p with phase := .draining }) 0
     let x := contextFor s 0 0
     x.struck = [] ∧ (partOf s 0).held = [] ∧ (partOf s 0).walks = [] ∧ (∀ e ∈ s.queues, queueJob e.2 ≠ 0) ∧
       (∀ e ∈ x.cores, ∀ t ∈ coreStrands e.2, ∀ q ∈ t.2.inflight, q.park = 0) ∧ (x.cores.map fun e => e.1).Nodup ∧
       (mapFind x.cores 0).isSome = true) := by decide +kernel

/-- After reset every queue is empty, and a step from there is answered. -/
theorem test_witness_QueuesStayBounded :
    QueuesFit State.reset ∧ PortQueuesFit State.reset ∧
    leaves (step (State.reset.withFetchWord 32 0x00000003)) (fun _ => true) = true ∧
    CoreQueuesFit (coreOf withAll 0) ∧ PortsFit (coreOf withAll 0) := by
  unfold QueuesFit PortQueuesFit CoreQueuesFit PortsFit
  decide +kernel
end Sys2Proof.Tests
end

section
/-!
Memory reads back what was written (O54). What a write leaves is already said by the laws of `memSet` and `memPut`;
here stand the bytes of a word that is read, and that memory in canonical form is determined by what it reads as.
-/
namespace Sys2Proof.Machine

/-! ## The bytes of a word -/

theorem byteAt_eq_extractLsb' {w : Nat} (x : BitVec w) (i : Nat) : byteAt x i = x.extractLsb' (8 * i) 8 := rfl

/-- A word read is its lowest byte below the word of the bytes that follow it (R2). -/
theorem memWord_succ_getLsbD (w : Nat) (m : List Host.Cell) (loc n p : Nat) (hp : p < w) :
    (memWord w m loc (n + 1)).getLsbD p =
      if p < 8 then (memGet m loc).getLsbD p else (memWord w m (loc + 1) n).getLsbD (p - 8) := by
  have low : (memGet m loc).toNat < 2 ^ 8 := (memGet m loc).isLt
  rw [memWord, BitVec.getLsbD_ofNat, Nat.add_comm, show 256 = 2 ^ 8 from rfl, Nat.testBit_two_pow_mul_add _ low]
  simp [hp, BitVec.getLsbD]

/-- Bit p of a word read is bit p mod 8 of its byte p / 8 (R2). -/
theorem memWord_getLsbD {w p n : Nat} (m : List Host.Cell) (loc : Nat) (hw : p < w) (hn : p < 8 * n) :
    (memWord w m loc n).getLsbD p = (memGet m (loc + p / 8)).getLsbD (p % 8) := by
  induction n generalizing loc p with
  | zero => omega
  | succ n ih =>
    rw [memWord_succ_getLsbD w m loc n p hw]
    split
    · next h => rw [Nat.div_eq_of_lt h, Nat.mod_eq_of_lt h, Nat.add_zero]
    · next h =>
      rw [ih (loc + 1) (by omega) (by omega), show loc + 1 + (p - 8) / 8 = loc + p / 8 by omega,
        show (p - 8) % 8 = p % 8 by omega]

/-- Byte i of a word read is the byte at its i-th location (R2). -/
theorem memWord_extractLsb' {w n i : Nat} (m : List Host.Cell) (loc : Nat) (hi : i < n) (hw : 8 * n ≤ w) :
    (memWord w m loc n).extractLsb' (8 * i) 8 = memGet m (loc + i) := by
  refine BitVec.eq_of_getLsbD_eq fun j hj => ?_
  have hdiv : (8 * i + j) / 8 = i := by omega
  have hmod : (8 * i + j) % 8 = j := by omega
  rw [BitVec.getLsbD_extractLsb', memWord_getLsbD m loc (by omega) (by omega), hdiv, hmod]
  simp [hj]

/-! ## Masked words -/

theorem memGet_memPut_inside {m : List Host.Cell} {i n : Nat} (loc : Nat) (mask : BitVec 8) (v : W64)
    (h : Memory.wf m = true) (hi : i < n) :
    memGet (memPut m loc mask v n) (loc + i) =
      if mask.getLsbD i then v.extractLsb' (8 * i) 8 else memGet m (loc + i) := by
  rw [memGet_memPut loc mask v n (loc + i) h, Nat.add_sub_cancel_left, byteAt_eq_extractLsb']
  simp [hi, bit]

theorem memGet_memPut_outside {m : List Host.Cell} {loc k n : Nat} (mask : BitVec 8) (v : W64)
    (h : Memory.wf m = true) (hk : k < loc ∨ loc + n ≤ k) : memGet (memPut m loc mask v n) k = memGet m k := by
  rw [memGet_memPut loc mask v n k h, if_neg (by omega)]

/-! ## The canonical form determines the memory -/

theorem memWfFrom_cons {lo a : Nat} {b : Byte} {t : List Host.Cell} :
    memWfFrom lo ((a, b) :: t) = true ↔ lo ≤ a ∧ b ≠ blank ∧ memWfFrom (a + 1) t = true := by
  simp [memWfFrom, and_assoc]

@[simp] theorem memGet_cons_self (a : Nat) (b : Byte) (t : List Host.Cell) : memGet ((a, b) :: t) a = b := if_pos rfl

theorem memGet_cons_ne {a k : Nat} (b : Byte) (t : List Host.Cell) (h : a ≠ k) : memGet ((a, b) :: t) k = memGet t k :=
  if_neg h

/-- A location that does not read blank is not below the first listed one. -/
theorem first_le_of_memGet_ne_blank {lo a c : Nat} {d : Byte} {u : List Host.Cell}
    (hn : memWfFrom lo ((c, d) :: u) = true) (ha : memGet ((c, d) :: u) a ≠ blank) : c ≤ a := by
  by_contra hlt
  obtain ⟨-, hd, hu⟩ := memWfFrom_cons.mp hn
  exact ha (memGet_below (memWfFrom_cons.mpr ⟨le_rfl, hd, hu⟩) (by omega))

/-- Memories in the form above the same bound are equal when they read alike. -/
theorem eq_of_memGet_eq_from {lo : Nat} {m n : List Host.Cell} (hm : memWfFrom lo m = true) (hn : memWfFrom lo n = true)
    (alike : ∀ j, memGet m j = memGet n j) : m = n := by
  induction m generalizing lo n with
  | nil =>
    cases n with
    | nil => rfl
    | cons e u =>
      obtain ⟨c, d⟩ := e
      obtain ⟨-, hd, -⟩ := memWfFrom_cons.mp hn
      exact absurd ((memGet_cons_self c d u).symm.trans (alike c).symm) hd
  | cons e t ih =>
    obtain ⟨a, b⟩ := e
    obtain ⟨-, hb, ht⟩ := memWfFrom_cons.mp hm
    have hna : memGet n a = b := by rw [← alike a, memGet_cons_self]
    cases n with
    | nil => exact absurd hna.symm hb
    | cons e' u =>
      obtain ⟨c, d⟩ := e'
      obtain ⟨-, hd, hu⟩ := memWfFrom_cons.mp hn
      have hca : c ≤ a := first_le_of_memGet_ne_blank hn (by rwa [hna])
      have hac : a ≤ c := first_le_of_memGet_ne_blank hm (by rwa [alike c, memGet_cons_self])
      obtain rfl : a = c := le_antisymm hac hca
      obtain rfl : d = b := by rwa [memGet_cons_self] at hna
      have rest : ∀ j, memGet t j = memGet u j := fun j => by
        by_cases hj : a = j
        · rw [memGet_below ht (by omega), memGet_below hu (by omega)]
        · rw [← memGet_cons_ne d t hj, alike j, memGet_cons_ne d u hj]
      rw [ih ht hu rest]

/-- Two memories in canonical form that read alike are one. -/
theorem eq_of_memGet_eq {m n : List Host.Cell} (hm : Memory.wf m = true) (hn : Memory.wf n = true)
    (alike : ∀ j, memGet m j = memGet n j) : m = n :=
  eq_of_memGet_eq_from hm hn alike

/-- Settles O54, from what a byte and a masked word read after a write, the bytes of a word read, and extensionality. -/
theorem memoryReadsBack : Obligations.MemoryReadsBack := by
  unfold Obligations.MemoryReadsBack
  intro m n loc k i b mask v hm hn
  exact ⟨memGet_memSet loc k b hm, memSet_wf loc b hm, memPut_wf loc mask v 8 hm,
    memGet_memPut_inside loc mask v hm, fun hi => memWord_extractLsb' m loc hi (by decide),
    memGet_memPut_outside mask v hm, eq_of_memGet_eq hm hn⟩

end Sys2Proof.Machine
end

section
/-!
A CSR reads as the valid value last written (O28): what a write of a CSR leaves alone, and what it is read back as.
-/
namespace Sys2Proof.Machine

/-! ## What a write of a CSR leaves alone -/

/-- A change outside the cores leaves the issuing strand as it is. -/
@[simp] theorem me_modBond (s : State) (b : Nat) (f : Bond → Bond) : me (modBond s b f) = me s := by
  unfold modBond; split <;> rfl

@[simp] theorem me_modJob (s : State) (j : Nat) (f : Job → Job) : me (modJob s j f) = me s := rfl

@[simp] theorem modBond_mem (s : State) (b : Nat) (f : Bond → Bond) : (modBond s b f).mem = s.mem := by
  unfold modBond; split <;> rfl

/-- From s to t the register files, the masks and the PC of the issuing strand and the bytes of memory stay (R12). -/
def FilesKept (s t : State) : Prop :=
  (me t).g = (me s).g ∧ (me t).v = (me s).v ∧ (me t).m = (me s).m ∧ (me t).pc = (me s).pc ∧ t.mem = s.mem

/-- Whatever its number, a write of a CSR leaves the files, the PC and memory. -/
theorem csrPut_keeps_files (s : State) (n : Nat) (v : W64) : FilesKept s (csrPut s n v) := by
  unfold csrPut FilesKept
  dsimp only
  split <;> (try split) <;> simp [me_modCore]

/-! ## What a written CSR reads as -/

/-- The CSRs of a strand, a core, a cluster or a job that any value of theirs may be read back from (R15, R202). -/
def readsBack : List Nat :=
  [0x000, 0x001, 0x010, 0x181, 0x200, 0x408, 0x508, 0x600, 0x800, 0x801, 0x802, 0xA09, 0xA10, 0xB00, 0xB80, 0xD80,
    0xD81, 0xD82, 0xD84]

theorem csrRead_csrPut_self {n : Nat} (h : n ∈ readsBack) (s : State) (v : W64) : csrRead (csrPut s n v) n = v := by
  unfold readsBack at h
  fin_cases h
  all_goals unfold csrRead csrPut; simp

/-- The arrival words CPW0 to CPW7 (R343). -/
theorem csrRead_csrPut_cpw {n : Nat} (hlo : 0x400 ≤ n) (hhi : n ≤ 0x407) (s : State) (v : W64) :
    csrRead (csrPut s n v) n = v := by
  obtain ⟨k, hk, rfl⟩ : ∃ k, k < 8 ∧ n = 0x400 + k := ⟨n - 0x400, by omega, by omega⟩
  interval_cases k <;> unfold csrRead csrPut <;> simp [inRange]

/-- TREGION of a strand that belongs to a bond (R369). -/
theorem csrRead_csrPut_tregion {s : State} {b : Nat} {x : Bond} (hb : (me s).bond = some b)
    (hx : mapFind s.bonds b = some x) (v : W64) : csrRead (csrPut s 0x506 v) 0x506 = v := by
  have hput : csrPut s 0x506 v = modBond s b fun x => { x with tregion := v } := by unfold csrPut; simp [hb]
  have hbond : myBond (csrPut s 0x506 v) = some { x with tregion := v } := by
    rw [hput, myBond, me_modBond, hb]
    simp [modBond, hx]
  show regionRead _ = v
  simp [regionRead, bondField, hbond]

/-- Settles O28: the write keeps the files, and each of the CSRs named reads as what it was given. -/
theorem csrWriteThenRead : Obligations.CsrWriteThenRead := by
  unfold Obligations.CsrWriteThenRead
  intro n v s hn _
  refine ⟨?_, csrPut_keeps_files s n v⟩
  rcases hn with hlisted | ⟨hlo, hhi⟩ | ⟨rfl, b, x, hb, hx⟩
  · exact csrRead_csrPut_self hlisted s v
  · exact csrRead_csrPut_cpw hlo hhi s v
  · exact csrRead_csrPut_tregion hb hx v

end Sys2Proof.Machine
end

section
/-!
Nothing ends a run (O60): every instruction and every step of the part answers a next state, by the shape of its meaning,
and a step faults only on a turn that names no unit of the package.
-/
namespace Sys2Proof.Machine

/-! ## The shapes in which an instruction answers -/

/-- An outcome that is a next state. -/
def Answers (o : Answer) : Prop := ∃ t, o = .next t

theorem next_answers (t : State) : Answers (.next t) := ⟨t, rfl⟩

theorem ite_answers {c : Prop} [Decidable c] {o o' : Answer} (h : Answers o) (h' : Answers o') :
    Answers (if c then o else o') := by
  split
  · exact h
  · exact h'

theorem conclude_answers (s : State) (len : Nat) (r : Except Stop State) : Answers (conclude s len r) := by
  cases r <;> exact next_answers _

/-- Whether an instruction that is on completes or stops, and when it is off, it goes to a next state (R11, R81, R101). -/
theorem executeLen_answers {len : Nat} {s : State} {on : Bool} {u : Uses} {body : State → Except Stop State} :
    Answers (executeLen len s on u body) := by
  cases on
  · exact next_answers _
  · exact conclude_answers ..

theorem withP_answers {p : Pred} {w : Nat} {dotP : Bool} {u : Uses} {k : State → Answer} {s : State}
    (hk : ∀ s, Answers (k s)) : Answers (withP p w dotP u k s) := by
  unfold withP
  exact ite_answers (executeLen_answers (on := true)) (hk s)

theorem privileged_answers {s : State} {i : Instr} {k : State → Answer} (hk : ∀ s, Answers (k s)) :
    Answers (privileged s i k) := by
  unfold privileged
  exact ite_answers (hk s) (next_answers _)

theorem csrChecked_answers {n : Nat} {op : CsrOp} {i : Instr} {s : State} {k : State → Answer}
    (hk : ∀ s, Answers (k s)) : Answers (csrChecked n op i s k) := by
  unfold csrChecked
  exact ite_answers (next_answers _) (ite_answers (hk s) (next_answers _))

theorem csrEvent_answers (n : Nat) (v : W64) (s : State) : Answers (csrEvent n v s) := by
  unfold csrEvent
  exact ite_answers (next_answers _) (executeLen_answers (on := true))

/-- PREF goes on whatever its address does (R119). -/
theorem execPref_answers (p : Pred) (hint : Fin 3) (a : GReg) (off : BitVec 5) (s : State) :
    Answers (execPref p hint a off s) := by
  unfold execPref
  dsimp only
  split
  · split <;> exact next_answers _
  · exact next_answers _

theorem execCsrr_answers (d : SReg) (csr : BitVec 12) (s : State) : Answers (execCsrr d csr s) := by
  unfold execCsrr compute execute
  exact csrChecked_answers fun _ => executeLen_answers

theorem csrModify_answers (op : CsrOp) (csr : BitVec 12) (a : SReg) (i : Instr) (s : State) :
    Answers (csrModify op csr a i s) := by
  unfold csrModify execute
  exact csrChecked_answers fun _ => executeLen_answers

theorem execBeos_answers (st : StreamId) (off : BitVec 15) (s : State) : Answers (execBeos st off s) := by
  unfold execBeos execute
  exact executeLen_answers

/-- Every instruction and every step of the part answers a next state in every state. -/
theorem exec_answers (i : Instr) (s : State) : Answers (exec i s) := by
  cases i with
  | add | sub | and | or | xor | andn | orn | sll | srl | sra | rol | ror | min | max | minu | maxu | slt | sltu | seq
  | sne | sel | addi | andi | ori | xori | slli | srli | srai | roli | slti | sltiu | lop3 | fshl | fshr | mul | mulh
  | mulhu | div | divu | rem | remu | clz | ctz | popc | brev | bswap | sextB | sextH | sextW | zextB | zextH | zextW
  | setm | getm | mand | mor | mnot | jalr | iter | iteri | ld | ldIndexed | st | stIndexed | lda | stl | ldp |
  ldpIndexed | stp | stpIndexed | clrp | clrpIndexed | vldp | vldpIndexed | vstp | vstpIndexed | vld | vldIndexed |
  vst | vstIndexed | vgath | vscat | vstt | stn | waitge | waitgen | signal | bar | arrive | tnow | tuntil | fadd |
  fsub | fmul | fdiv | fsqrt | fmin | fmax | fsgn | fcmp | fclass | fma | fms | fnma | fcvt | fcvtWideToB8 |
  fcvtB8ToWide | fcvti | icvtf | frnd | vadd | vsub | vmul | vmulh | vmin | vmax | vand | vor | vxor | vshl | vshr |
  vsra | vcmp | vsel | vclamp | vbcast | vshuf | vrot | vins | vext | vlut | vlop3 | vfma | vfms | vdot | vcvt |
  vnarrow | vwiden | qmul | qdiv | qsqrt | cVadd | cVsub | cVmul | cVmin | cVmax | cVand | cVor | cVxor | cVmov |
  cVshl | cVshr | cVsra | cVabs | cVneg | cVmac | cVbcast | scfg | sbind | spos | sstop | srew | sflush | sskip |
  spawn | endStrand | yield | sleep | wake | send | senda | fan | prio | gang | gwait | gstat | gthaw | ppeek | topTmm
  | topTadd | topTmul | topTscale | topTact | topTsum | topTsoft | topTnorm | topTlay | topTcopy | recon | recoff |
  recmark | reverse | cpgo | cpblk | ftgo | armw | trap | ecall | ebreak =>
    exact executeLen_answers ..
  | lui | auipc | beq | bne | blt | bge | bltu | bgeu | jal | amo | cas | casXchg | famo | red | fred | fence | ifence
  | nalRead =>
    exact executeLen_answers (on := true) ..
  | j off => exact executeLen_answers (len := 4) (on := true) (u := {}) (body := fun s => .ok (jumpBy s off))
  | beos st off => exact execBeos_answers ..
  | vabs | vneg | vmov | vred | viota | vexp2 | vlog2 | vrcp | vrsq | vtanh =>
    exact withP_answers fun _ => executeLen_answers ..
  | csrr => exact execCsrr_answers ..
  | csrw | csrs | csrc => exact csrModify_answers ..
  | hirqWrite v => exact csrEvent_answers 0x680 v s
  | nactlWrite n v => exact csrEvent_answers (0x530 + n.val) v s
  | tlbinvAll => exact csrEvent_answers 0xB01 1 s
  | tlbinvVa va => exact csrEvent_answers 0xB01 (va &&& 0x0000FFFFFFFF0000) s
  | containWrite v => exact csrEvent_answers 0x208 v s
  | smrelWrite token => exact csrEvent_answers 0x381 token s
  | fractResume => exact csrEvent_answers 0xD85 0 s
  | fractSkip => exact csrEvent_answers 0xD85 1 s
  | fractKill => exact csrEvent_answers 0xD85 2 s
  | pref => exact execPref_answers ..
  | movk p d => cases d <;> exact executeLen_answers ..
  | movtk p k a => cases a <;> exact executeLen_answers ..
  | gangTimedStart c i => exact ite_answers (next_answers _) (next_answers _)
  | rett => exact privileged_answers fun _ => executeLen_answers ..
  | illegalInstruction | loadResponse | storePerform | reductionAck | releaseComplete | faultAcknowledgement |
  slicePortRequest | stackAccess | networkRetry | spawnRequest | message | fanStartMessage | wakeDelivery |
  completionMessage | gangWakeMessage | scopeMissMessage | scopeMissAutoWiden | tagWiden | slotActivation |
  outboundSend | sleepDeadline | fanTimedStart | bondCompletion | schedulerPlace | priorityAging | streamReadFetch |
  streamWritePerform | boundStreamPush | boundStreamPop | gangClaim | wsLatchEntry | gangPulse |
  gangComplete | gangThawRequest | gangPreemptThaw | gangFaultThaw | seamBufferForward | seamContextTimeout | pageWalk
  | leaseGrant | leaseRecall | peerAccess | copyAccept | copyRefusalRetry | copyTimedStart | copyLanding |
  copyComplete | copyFault | footingAtomic | optimiserPiece | optimiserComplete | seqCommand | seqCommandComplete |
  faultMessageArrival | serviceStrandStart | faultSlotTimeout | eccCorrected | uncorrectableError | linkReplay |
  controlStateError | timeSliceExpiry | partitionHalt | partitionRestore | partitionAssign | partitionTeardown |
  shadowCombine | shadowMerge | shadowCapacityMerge | ptpMessage | tuntilDeadline | qdbWrite | qcfgWrite |
  hostRegisterWrite | jobConfigWrite | queuePollTimeout | launch | active | copy | signalPacket | wait | fencePacket |
  packetComplete | hostMemoryAccess | ustisFrame | ustisRetransmitTimeout | nvmeCompletion | deviceReset | powerOn |
  firmwareImage | attestationRequest | securityAlarm | thermalThrottle | thermalShutdown | powerLimitSet |
  synchronisationLost | primaryPortDown =>
    exact next_answers _

/-! ## Issue, cycles and turns -/

theorem attempt_answers (s : State) : Answers (attempt s) := by
  unfold attempt
  split
  · exact next_answers _
  · split <;> exact exec_answers ..

theorem completeIssued_answers (c : CoreId) (lz : Bool) (s : State) : Answers (completeIssued c lz s) := by
  unfold completeIssued
  split
  · exact attempt_answers _
  · exact next_answers _

/-- What an eligible slot would do is what its attempt answers. -/
theorem eligible_answers {s : State} {c : CoreId} {lz : Bool} {e : Slot × Answer} (h : e ∈ eligible s c lz) :
    Answers e.2 := by
  obtain ⟨x, -, hx⟩ := List.mem_filterMap.1 h
  dsimp only at hx
  split at hx
  · cases hx; exact attempt_answers _
  · cases hx

theorem issueOn_answers (c : CoreId) (lz : Bool) (s : State) : Answers (issueOn c lz s) := by
  unfold issueOn
  dsimp only
  split
  · exact next_answers _
  split
  · exact completeIssued_answers ..
  split
  · exact next_answers _
  split
  · exact next_answers _
  · next r hfind => exact eligible_answers (List.mem_of_find?_eq_some hfind)
  · exact next_answers _

theorem issueAll_answers (l : List CoreId) (s : State) : Answers (issueAll s l) := by
  induction l generalizing s with
  | nil => exact next_answers _
  | cons c t ih =>
    obtain ⟨u, hu⟩ := issueOn_answers c false s
    simp only [issueAll, hu]
    exact ih u

theorem cycle_answers (s : State) : Answers (cycle s) := by
  unfold cycle
  obtain ⟨u, hu⟩ := issueAll_answers
    (((settle s).cores.filter fun e => !(coreStrands e.2).isEmpty).map fun e => e.1) (settle s)
  simp only [hu]
  exact next_answers _

/-- A host write into BAR0 is a register's write or nothing (R460). -/
theorem bar0Write_answers (off : Nat) (v : W64) (s : State) : Answers (bar0Write off v s) := by
  unfold bar0Write
  split
  · dsimp only; split <;> exact next_answers _
  split
  · dsimp only; split <;> exact next_answers _
  · exact next_answers _

theorem takeTurn_answers (t : Turn) (s : State) : Answers (takeTurn t s) := by
  unfold takeTurn
  split
  case h_1 => exact ite_answers (exec_answers ..) (next_answers _)
  case h_2 => exact ite_answers (issueOn_answers ..) (next_answers _)
  case h_10 => exact ite_answers (bar0Write_answers ..) (next_answers _)
  all_goals exact next_answers _

/-- A step goes to a next state, or its turn names a unit that the package does not have (log 8). -/
theorem step_answers_or_no_unit (s : State) :
    Answers (step s) ∨ step s = .fault .noSuchUnit ∧ ∃ t rest, s.turns = t :: rest ∧ turnExists t = false := by
  unfold step
  dsimp only
  split
  · exact .inl (ite_answers (cycle_answers _) (next_answers _))
  · next t rest hturns =>
    unfold turn
    cases h : turnExists t
    · exact .inr ⟨rfl, t, rest, hturns, h⟩
    · exact .inl (takeTurn_answers ..)

/-- Settles O60: each instruction answers by its shape, and each step by its turn's. -/
theorem nothingEndsARun : Obligations.NothingEndsARun := by
  unfold Obligations.NothingEndsARun
  refine ⟨exec_answers, fun s r h => ?_, fun s f h => ?_⟩
  · rcases step_answers_or_no_unit s with ⟨t, ht⟩ | ⟨hf, -⟩
    · rw [ht] at h; cases h
    · rw [hf] at h; cases h
  · rcases step_answers_or_no_unit s with ⟨t, ht⟩ | ⟨-, hunit⟩
    · rw [ht] at h; cases h
    · exact hunit

end Sys2Proof.Machine
end

section
/-!
Instructions that are predicated off (O50): what acts as a whole goes on, and so does what is off in every lane, but for the
views that one with .P pops.
-/
namespace Sys2Proof.Machine

/-! ## Pops leave the issuing strand alone -/

@[simp] theorem me_popLink (s : State) (c : CoreId) (l : Port) : me (popLink s c l) = me s := by
  unfold popLink
  split
  · rfl
  · dsimp only
    split <;> simp [me_modCore, setInq]

@[simp] theorem me_popView (s : State) (v : View) : me (popView s v) = me s := by
  cases v <;> simp [popView, popStream]

@[simp] theorem me_popOff (s : State) (v : View) : me (popOff s v) = me s := by
  unfold popOff
  split
  · dsimp only; split <;> simp
  · simp

theorem me_foldl_popOff (l : List View) (s : State) : me (l.foldl popOff s) = me s := by
  induction l generalizing s with
  | nil => rfl
  | cons v l ih => rw [List.foldl_cons, ih, me_popOff]

/-! ## Instructions that are off in every lane -/

theorem lanesOn_eq_zero {m : W32} {n : Nat} (h : ∀ j, j < n → m.getLsbD j = false) : lanesOn m n = 0 := by
  apply BitVec.eq_of_getLsbD_eq
  intro j _
  rw [lanesOn, BitVec.getLsbD_and, BitVec.getLsbD_ofNat, Nat.testBit_two_pow_sub_one]
  by_cases hj : j < n <;> simp [hj, h]

/-- An instruction decided by a mask that is zero goes on. -/
theorem execute_off_of_zero {m : W32} {s : State} {u : Uses} {body : State → Except Stop State} (h : m = 0) :
    execute s (m != 0) u body = .next (advance (ready s) 4) := executeLen_off 4 (by simp [h])

theorem compute_off_of_zero {m : W32} {s : State} {u : Uses} {body : State → Except Stop State} (h : m = 0) :
    compute s (m != 0) u body = .next (advance (ready s) 4) := execute_off_of_zero h

theorem laneOp_off {s : State} {p : Pred} {f : LFmt} {d : VReg} {u : Uses} {g : State → Nat → Nat × Flags}
    (h : activeLanes s p f.width = 0) : laneOp 4 p f d u g s = .next (advance (ready s) 4) := execute_off_of_zero h

/-- Without .P an instruction does the same in every lane or none (R138). -/
theorem withP_plain {p : Pred} {w : Nat} {u : Uses} {k : State → Answer} {s : State} :
    withP p w false u k s = k s := by simp [withP]

theorem operable_nothing (s : State) : Operable s {} := ⟨rfl, rfl⟩

section
variable {p : Pred} {w : Nat} {u : Uses} {k : State → Answer} {s : State}

/-- One with .P that is off in every lane pops its views when they are ready (R138). -/
theorem withP_off_ready (hoff : activeLanes s p w = 0)
    (h : (poppable (ready s) u).all (viewReady (ready s) false) = true) :
    withP p w true u k s = .next (advance ((poppable (ready s) u).foldl popOff (ready s)) 4) := by
  rw [withP, if_pos (by simp [hoff])]
  refine compute_next rfl (operable_nothing _) (t := (poppable (ready s) u).foldl popOff (ready s)) ?_ ?_
  · simp only [h, waitUnless]; rfl
  · rw [me_foldl_popOff]; exact List.Subset.refl _

theorem withP_off_waits (hoff : activeLanes s p w = 0)
    (h : (poppable (ready s) u).all (viewReady (ready s) false) = false) :
    withP p w true u k s = .next (modMe (ready s) fun t => { t with wait := .notReady }) := by
  rw [withP, if_pos (by simp [hoff])]
  refine execute_stop (x := .wait) rfl (operable_nothing _) ?_
  simp only [h, waitUnless]; rfl

/-- What is said of one instruction with .P holds of each of a list of them. -/
theorem popped_of_withP {l : List Instr} (hoff : activeLanes s p w = 0)
    (hl : ∀ i ∈ l, ∃ k, exec i s = withP p w true u k s) :
    ((poppable (ready s) u).all (viewReady (ready s) false) = true →
      ∀ i ∈ l, exec i s = .next (advance ((poppable (ready s) u).foldl popOff (ready s)) 4)) ∧
    ((poppable (ready s) u).all (viewReady (ready s) false) = false →
      ∀ i ∈ l, exec i s = .next (modMe (ready s) fun t => { t with wait := .notReady })) := by
  refine ⟨fun h i hi => ?_, fun h i hi => ?_⟩
  · obtain ⟨k, hk⟩ := hl i hi
    rw [hk, withP_off_ready hoff h]
  · obtain ⟨k, hk⟩ := hl i hi
    rw [hk, withP_off_waits hoff h]

end

theorem activeLanes_eq_zero {s : State} {p : Pred} {w : Nat}
    (h : ∀ j, j < 256 / w → (predMask s p).getLsbD j = false) : activeLanes s p w = 0 := lanesOn_eq_zero h

theorem lanes_of_width (f : LFmt) : 256 / f.width = f.lanes := by cases f <;> rfl

theorem convertLanes_off {p : Pred} {sr : Bool} {ws wd part : Nat} {d : VReg} {srcs : List VReg}
    {g : State → Nat → Nat → Option Nat → Nat × Flags} {s : State}
    (h : ∀ j, j < 256 / Nat.max ws wd → (predMask s p).getLsbD j = false) :
    convertLanes p sr ws wd part d srcs g s = .next (advance (ready s) 4) := compute_off_of_zero (lanesOn_eq_zero h)

theorem enabledWords_off {m : W32} (h : ∀ j, j < 4 → m.getLsbD j = false) : (!(enabledWords m).isEmpty) = false := by
  simp only [enabledWords, Bool.not_eq_false', List.isEmpty_iff, List.filter_eq_nil_iff, List.mem_range]
  intro j hj
  simp [bit, h j hj]

/-! ## The instructions -/

/-- An instruction that acts as a whole goes on when its predicate is off (R9, R101). -/
theorem exec_whole_off {i : Instr} {p : Pred} {s : State} (hp : wholePredicate i = some p) (hoff : predOn s p = false) :
    exec i s = .next (advance (ready s) 4) := by
  cases i with
  | add | sub | and | or | xor | andn | orn | sll | srl | sra | rol | ror | min | max | minu | maxu | slt | sltu | seq
  | sne | sel | addi | andi | ori | xori | slli | srli | srai | roli | slti | sltiu | lop3 | fshl | fshr | mul | mulh
  | mulhu | div | divu | rem | remu | clz | ctz | popc | brev | bswap | sextB | sextH | sextW | zextB | zextH | zextW
  | setm | getm | mand | mor | mnot | jalr | iter | iteri | ld | ldIndexed | st | stIndexed | lda | stl | ldp |
  ldpIndexed | stp | stpIndexed | clrp | clrpIndexed | waitge | waitgen | signal | bar | arrive | tnow | tuntil | fadd
  | fsub | fmul | fdiv | fsqrt | fmin | fmax | fsgn | fcmp | fclass | fma | fms | fnma | fcvt | fcvtWideToB8 |
  fcvtB8ToWide | fcvti | icvtf | frnd | vext | qmul | qdiv | qsqrt | scfg | sbind | spos | sstop | srew | sflush |
  sskip | spawn | endStrand | yield | sleep | wake | send | senda | fan | prio | gang | gwait | gstat | gthaw | ppeek
  | topTmm | topTadd | topTmul | topTscale | topTact | topTsum | topTsoft | topTnorm | topTlay | topTcopy | recon |
  recoff | recmark | reverse | cpgo | cpblk | ftgo | armw | trap | ecall | ebreak =>
    obtain rfl := Option.some.inj hp
    exact executeLen_off 4 hoff
  | _ => exact nomatch hp

section
variable {p : Pred} {s : State}

/-- The lane operations, and those with .P clear, that are off in every lane. -/
theorem lane_operations_off {f : LFmt} (h : activeLanes s p f.width = 0) (op : RedOp) (cc : VCond) (e : Fin 8) (m : MReg)
    (d a b : VReg) (x : SReg) (j : BitVec 5) :
    ∀ i ∈ ([.vadd p f d a b, .vsub p f d a b, .vmul p f d a b, .vmulh p f d a b, .vmin p f d a b, .vmax p f d a b,
      .vand p f d a b, .vor p f d a b, .vxor p f d a b, .vshl p f d a b, .vshr p f d a b, .vsra p f d a b,
      .vsel p f d a b, .vshuf p f d a b, .vclamp p f e a b, .vbcast p f d a j, .vrot p f d a j, .vlut p f d a b,
      .vcmp p cc f m a b, .vabs p f false d a, .vneg p f false d a, .vmov p f false d a, .vexp2 p f false d a,
      .vlog2 p f false d a, .vrcp p f false d a, .vrsq p f false d a, .vtanh p f false d a, .viota p f false d x,
      .vred p op f false d a] : List Instr), exec i s = .next (advance (ready s) 4) := by
  simp only [List.forall_mem_cons, List.not_mem_nil, false_imp_iff, implies_true, and_true]
  refine ⟨laneOp_off h, laneOp_off h, laneOp_off h, laneOp_off h, laneOp_off h, laneOp_off h, laneOp_off h, laneOp_off h,
    laneOp_off h, laneOp_off h, laneOp_off h, laneOp_off h, laneOp_off h, laneOp_off h, laneOp_off h, laneOp_off h,
    laneOp_off h, laneOp_off h, compute_off_of_zero h, ?_⟩
  exact ⟨withP_plain.trans (laneOp_off h), withP_plain.trans (laneOp_off h), withP_plain.trans (laneOp_off h),
    withP_plain.trans (laneOp_off h), withP_plain.trans (laneOp_off h), withP_plain.trans (laneOp_off h),
    withP_plain.trans (laneOp_off h), withP_plain.trans (laneOp_off h), withP_plain.trans (laneOp_off h),
    withP_plain.trans (compute_off_of_zero h)⟩

end

/-- Settles O50: a predicate that is off leaves nothing but the PC to advance, and a vector instruction that is off in every
lane is one whose mask is zero. -/
theorem predicatedOff : Obligations.PredicatedOff := by
  unfold Obligations.PredicatedOff
  refine ⟨fun _ _ _ => exec_whole_off, ?_⟩
  intro p f vf h df cc op sr k nd wd ws part ew md e m d a b c x g g2 j t8 off off4 na s r off_ still wide popped
  have zero {w : Nat} (hz : off_ (256 / w)) : activeLanes s p w = 0 := activeLanes_eq_zero hz
  have eight (hz : off_ 8) : lanesOn (predMask s p) 8 = 0 := lanesOn_eq_zero hz
  refine ⟨fun hz => ?_, fun hz => ?_, fun hz => ?_, fun hz => ?_, fun hz => ?_, fun hz => ?_, fun hz => ?_, fun hz => ?_,
    fun hz => ?_, fun hz => ?_, fun hz => ?_⟩
  case refine_1 =>
    have hz := zero ((lanes_of_width f).symm ▸ hz)
    refine ⟨lane_operations_off hz op cc e m d a b x j, popped_of_withP hz ?_, popped_of_withP hz ?_⟩
    all_goals
      simp only [List.forall_mem_cons, List.not_mem_nil, false_imp_iff, implies_true, and_true]
    · exact ⟨⟨_, rfl⟩, ⟨_, rfl⟩, ⟨_, rfl⟩, ⟨_, rfl⟩, ⟨_, rfl⟩, ⟨_, rfl⟩, ⟨_, rfl⟩, ⟨_, rfl⟩, ⟨_, rfl⟩⟩
    · exact ⟨_, rfl⟩
  all_goals simp only [still, List.forall_mem_cons, List.not_mem_nil, false_imp_iff, implies_true, and_true]
  case refine_2 => exact executeLen_off 4 hz
  case refine_3 =>
    exact ⟨compute_off_of_zero hz, execute_off_of_zero hz, execute_off_of_zero hz, compute_off_of_zero hz,
      compute_off_of_zero hz⟩
  case refine_4 => cases vf <;> exact laneOp_off (zero hz)
  case refine_5 => cases h <;> exact laneOp_off (zero hz)
  case refine_6 => change execVcvt p sr k part d a s = _; unfold execVcvt; exact convertLanes_off hz
  case refine_7 => change execVnarrow p sr nd part d a s = _; unfold execVnarrow; exact convertLanes_off hz
  case refine_8 => change execVwiden p wd ws part d a s = _; unfold execVwiden; exact convertLanes_off hz
  case refine_9 => exact ⟨execute_off_of_zero (zero hz), compute_off_of_zero (zero hz), compute_off_of_zero (zero hz)⟩
  case refine_10 =>
    exact ⟨laneOp_off (f := .fp32) (zero hz), compute_off_of_zero (eight hz), compute_off_of_zero (eight hz),
      compute_off_of_zero (eight hz)⟩
  case refine_11 =>
    have hw := enabledWords_off hz
    exact ⟨executeLen_off 4 hw, executeLen_off 4 hw, executeLen_off 4 hw, executeLen_off 4 hw⟩

end Sys2Proof.Machine
end

section
/-!
Scalar floating point (O14): each shape of a scalar operation as a flagged answer, with the rounding mode that FCSR held at
issue and, under .SR, the core's next draw.
-/
namespace Sys2Proof.Machine

@[simp] theorem myRm_ready (s : State) : myRm (ready s) = fcsrRm (me s).fcsr := by simp [myRm]

theorem roundingOf_ready (s : State) (rc : RCode) :
    roundingOf (ready s) rc = match rc with | .fixed m => m | .dyn => fcsrRm (me s).fcsr := by
  cases rc <;> simp [roundingOf]

/-! ## The shapes of scalar operations -/

theorem bind_ok_eq_map {α β : Type} (r : Except Stop α) (f : α → β) : (do let t ← r; .ok (f t)) = r.map f := by
  cases r <;> rfl

/-- A scalar instruction that writes one result with its flags and then does `after`, which leaves the requests in flight. -/
theorem compute_flagged_then {s : State} {on : Bool} {u : Uses} {body : State → Except Stop State} {d : SReg} {x : W64}
    {fl : Flags} {after : State → State} (hon : on = true) (h : Operable (ready s) u)
    (hb : body (ready s) = (writeFlagged (ready s) d x fl).map after)
    (ha : ∀ t, (me (after t)).inflight = (me t).inflight) :
    compute s on u body = flaggedAnswer (ready s) 4 u fl fun t => after (writeS t d x) := by
  unfold flaggedAnswer
  by_cases hf : fl &&& fcsrEn (me (ready s)).fcsr = 0
  · rw [if_pos hf]
    refine compute_next hon h (hb.trans ?_) (by simp [ha])
    unfold writeFlagged raise
    rw [if_neg (by simpa using hf)]; rfl
  · rw [if_neg hf]
    refine (execute_stop (x := .trap 4 (fl.setWidth 64)) hon h ?_).trans rfl
    show Except.map _ (body (ready s)) = _
    rw [hb]; unfold writeFlagged raise; rw [if_pos hf]; rfl

section
variable {p : Pred} {w : Nat} {d a b c : SReg} {s : State} (hon : predOn s p = true)
include hon

theorem fp1_answer {f : State → Nat → Nat × Flags} {x : Nat × Flags} (h : Operable (ready s) { srcS := [a], dstS := [d] })
    (hx : f (ready s) (lowBits (readS (ready s) a) w) = x) :
    fp1 p w d a f s = flaggedAnswer (ready s) 4 { srcS := [a], dstS := [d] } x.2 fun t => writeS t d (BitVec.ofNat 64 x.1) :=
  compute_flagged hon h (by rw [← hx])

theorem fp2_answer {f : RMode → Nat → Nat → Nat × Flags} {x : Nat × Flags}
    (h : Operable (ready s) { srcS := [a, b], dstS := [d] })
    (hx : f (fcsrRm (me s).fcsr) (lowBits (readS (ready s) a) w) (lowBits (readS (ready s) b) w) = x) :
    fp2 p w d a b f s = flaggedAnswer (ready s) 4 { srcS := [a, b], dstS := [d] } x.2
      fun t => writeS t d (BitVec.ofNat 64 x.1) :=
  compute_flagged hon h (by simp only [myRm_ready, hx])

theorem fp3_answer {f : FmaFmt} {g : Fmt → RMode → Nat → Nat → Nat → Nat × Flags} {x : Nat × Flags}
    (h : Operable (ready s) { srcS := [a, b, c], dstS := [d] })
    (hx : g (ffmt (fmaFmt f)) (fcsrRm (me s).fcsr) (lowBits (readS (ready s) a) (fmaFmt f).width)
      (lowBits (readS (ready s) b) (fmaFmt f).width) (lowBits (readS (ready s) c) (fmaFmt f).width) = x) :
    fp3 p f d a b c g s = flaggedAnswer (ready s) 4 { srcS := [a, b, c], dstS := [d] } x.2
      fun t => writeS t d (BitVec.ofNat 64 x.1) :=
  compute_flagged hon h (by simp only [myRm_ready, hx])

/-- A conversion between floating-point formats rounds under FCSR.RM, or under .SR with the low 16 bits of the generator's next
value, which it leaves in SRSEED (R46, R47). -/
theorem fconvert_answer {sr : Bool} {dst src : Fmt} (h : Operable (ready s) { srcS := [a], dstS := [d] }) :
    let next := srStep (coreOf s s.cur).srseed
    let x := readFp src (lowBits (readS (ready s) a) w)
    let y := if sr then roundSr dst (next.toNat % 65536) x else roundTo dst (fcsrRm (me s).fcsr) x
    fconvert p sr dst src w d a s = flaggedAnswer (ready s) 4 { srcS := [a], dstS := [d] } y.2 fun t =>
      let t' := writeS t d (BitVec.ofNat 64 y.1)
      if sr then modCore t' t'.cur fun k => { k with srseed := next } else t' := by
  intro next x y
  have hseed : (coreOf (ready s) (ready s).cur).srseed = (coreOf s s.cur).srseed := by simp [ready, modMe]
  have hdraw : bits (srStep (coreOf s s.cur).srseed) 15 0 = next.toNat % 65536 := by simp [bits, next]
  refine compute_flagged_then (after := fun t => if sr then setSeed t next else t) hon h ?_ fun t => ?_
  · simp only [bind_ok_eq_map, myRm_ready, draws, hseed, hdraw, List.headD_cons, convertFp]
    cases sr <;> rfl
  · cases sr
    · rfl
    · simp [setSeed, me_modCore]

end

/-- Settles O14, shape by shape: what rounds is the exact operation followed by its one rounding. -/
theorem scalarFloatingPoint : Obligations.ScalarFloatingPoint := by
  unfold Obligations.ScalarFloatingPoint
  constructor
  · intro p f h d a b c s hon r rm low exact num done u1 u2 u3 g
    have hg : g = fmaFmt h := by cases h <;> rfl
    have round (x : NumF) : finishFp (ffmt f) rm x = exact f x := rfl
    have two {g : RMode → Nat → Nat → Nat × Flags} {x : Nat × Flags} (ho : Operable r u2)
        (hx : g rm (low a f.width) (low b f.width) = x) : fp2 p f.width d a b g s = done u2 x := fp2_answer hon ho hx
    have one {g : State → Nat → Nat × Flags} {x : Nat × Flags} (ho : Operable r u1) (hx : g r (low a f.width) = x) :
        fp1 p f.width d a g s = done u1 x := fp1_answer hon ho hx
    have three {g : Fmt → RMode → Nat → Nat → Nat → Nat × Flags} {x : Nat × Flags} (ho : Operable r u3)
        (hx : g (ffmt (fmaFmt h)) rm (low a (fmaFmt h).width) (low b (fmaFmt h).width) (low c (fmaFmt h).width) = x) :
        fp3 p h d a b c g s = done u3 x := fp3_answer hon ho hx
    have round3 (x : NumF) : finishFp (ffmt (fmaFmt h)) rm x = exact (fmaFmt h) x := rfl
    have root : fpSqrt (ffmt f) (myRm r) (low a f.width) = exact f (sqrtNum (num f a)) := by
      rw [myRm_ready]; exact round _
    rw [hg]
    clear_value done exact
    exact ⟨fun ho => ⟨two ho (round _), two ho (round _), two ho (round _), two ho (round _),
      two (g := fun _ => fpMin (ffmt f)) ho rfl, two (g := fun _ => fpMax (ffmt f)) ho rfl,
      two (g := fun _ => fpSgn (ffmt f)) ho rfl, two (g := fun _ => fpCmp (ffmt f)) ho rfl⟩,
      fun ho => ⟨one ho root, one (g := fun _ x => (fpClass (ffmt f) x, 0)) ho rfl⟩,
      fun ho => ⟨three ho (round3 _), three ho (round3 _), three ho (round3 _)⟩⟩
  · intro p sr f src b8 i rc d a s hon r u rm rmOf low next conv done ho
    have hrm : roundingOf r rc = rmOf := roundingOf_ready s rc
    have one {w : Nat} {g : State → Nat → Nat × Flags} {x : Nat × Flags} (hx : g r (low w) = x) :
        fp1 p w d a g s = done x := fp1_answer hon ho hx
    have narrow (dst src : Fmt) (w : Nat) : fconvert p sr dst src w d a s = conv dst (readFp src (low w)) :=
      fconvert_answer hon ho
    have widen (dst src : Fmt) (w : Nat) : fconvert p false dst src w d a s = done (roundTo dst rm (readFp src (low w))) :=
      fconvert_answer hon ho
    have toInt : execFcvti p src i rc d a s =
        let y := numToInt rmOf (ifmtRange i) (readFp (ffmt src) (low src.width))
        flaggedAnswer r 4 u y.2 fun t => writeS t d (BitVec.ofInt 64 y.1) := by
      rw [← hrm]
      exact compute_flagged hon ho rfl
    have fromInt : execIcvtf p f i rc d a s = done (roundTo (ffmt f) rmOf (intNum (ifmtRead i (low 64)))) := by
      rw [← hrm]
      exact one (g := fun s x => roundTo (ffmt f) (roundingOf s rc) (intNum (ifmtRead i x))) rfl
    have toIntegral : execFrnd p f rc d a s = done (fpRound (ffmt f) rmOf (low f.width)) := by
      rw [← hrm]
      exact one (g := fun s x => fpRound (ffmt f) (roundingOf s rc) x) rfl
    clear_value conv done
    exact ⟨narrow .., narrow .., widen .., toInt, fromInt, toIntegral⟩

end Sys2Proof.Machine
end

section
/-!
What a register operation leaves alone (O51, O52): the frame as a relation that is built up from the changes of one record
after the other, and that holds of every operation on registers, views and flags.
-/
namespace Sys2Proof.Machine

/-! ## Records without what a register operation may change -/

def State.blanked (s : State) : State := { s with nextSeq := 0, cores := [], clusters := [] }

def Cluster.blanked (l : Cluster) : Cluster := { l with cfu := 0, raised := [] }

def Core.blanked (k : Core) : Core := { k with
  slots := Core.reset.slots, streams := Core.reset.streams, inq := Core.reset.inq, seam := Core.reset.seam, srseed := 0 }

def Strand.blanked (t : Strand) : Strand := { t with
  g := Strand.free.g, v := Strand.free.v, m := Strand.free.m, gPoison := 0, vPoison := 0, fcsr := 0, pc := 0, wait := .none }

theorem State.eq_of_blanked {s t : State} (h : t.blanked = s.blanked) :
    t = { s with nextSeq := t.nextSeq, cores := t.cores, clusters := t.clusters } := by
  cases s; cases t
  simp only [State.blanked, State.mk.injEq] at h ⊢
  simp [h]

theorem Cluster.eq_of_blanked {l l' : Cluster} (h : l'.blanked = l.blanked) :
    l' = { l with cfu := l'.cfu, raised := l'.raised } := by
  cases l; cases l'
  simp only [Cluster.blanked, Cluster.mk.injEq] at h ⊢
  simp [h]

theorem Core.eq_of_blanked {k k' : Core} (h : k'.blanked = k.blanked) : k' = { k with
    slots := k'.slots, streams := k'.streams, inq := k'.inq, seam := k'.seam, srseed := k'.srseed } := by
  cases k; cases k'
  simp only [Core.blanked, Core.mk.injEq] at h ⊢
  simp [h]

theorem Strand.eq_of_blanked {t t' : Strand} (h : t'.blanked = t.blanked) : t' = { t with
    g := t'.g, v := t'.v, m := t'.m, gPoison := t'.gPoison, vPoison := t'.vPoison
    fcsr := t'.fcsr, pc := t'.pc, wait := t'.wait } := by
  cases t; cases t'
  simp only [Strand.blanked, Strand.mk.injEq] at h ⊢
  simp [h]

/-! ## The frame of a strand, of a core and of the machine -/

/-- From a to b a strand changes at most the registers named with their poison, FCSR's flags where `fl` holds, the PC and its
wait. -/
structure StrandWithin (fl : Bool) (gs : List (Fin 24)) (vs : List (Fin 8)) (ms : List (Fin 4)) (a b : Strand) : Prop where
  rest : b.blanked = a.blanked
  g : ∀ i, i ∉ gs → b.g[i] = a.g[i] ∧ b.gPoison.getLsbD i.val = a.gPoison.getLsbD i.val
  v : ∀ i, i ∉ vs → b.v[i] = a.v[i] ∧
    ∀ j, j < 4 → b.vPoison.getLsbD (4 * i.val + j) = a.vPoison.getLsbD (4 * i.val + j)
  m : ∀ i, i ∉ ms → b.m[i] = a.m[i]
  flags : b.fcsr &&& ~~~0x3F0 = a.fcsr &&& ~~~0x3F0
  quiet : fl = false → b.fcsr = a.fcsr

/-- From k to j a core changes at most the queues of the views named, any of them where one is a port's, and SRSEED where it is
the issuing core and `sr` holds. -/
structure CoreWithin (views : List View) (sr : Bool) (own : Prop) (k j : Core) : Prop where
  rest : j.blanked = k.blanked
  seed : ¬ own ∨ sr = false → j.srseed = k.srseed
  queues : (∀ l b, View.port l b ∉ views) → j.inq = k.inq ∧ j.seam = k.seam ∧
    ∀ n, (own → ∀ b, View.stream n b ∉ views) → j.streams[n] = k.streams[n]

/-- From s to t nothing changes but what `WritesAtMost` allows, with FCSR and the clusters as they were unless `fl` holds. -/
structure Within (views : List View) (fl sr : Bool) (gs : List (Fin 24)) (vs : List (Fin 8)) (ms : List (Fin 4))
    (s t : State) : Prop where
  rest : t.blanked = s.blanked
  clusters : ∀ cl, cl ≠ clusterIdx s.cur → clusterOf t cl = clusterOf s cl
  own : (clusterOf t (clusterIdx s.cur)).blanked = (clusterOf s (clusterIdx s.cur)).blanked
  quiet : fl = false → t.clusters = s.clusters
  strands : ∀ c i, (c, i) ≠ (s.cur, s.slot) → strandAt t c i = strandAt s c i
  cores : ∀ c, CoreWithin views sr (c = s.cur) (coreOf s c) (coreOf t c)
  seq : (∀ l b, View.port l b ∉ views) → t.nextSeq = s.nextSeq
  me : StrandWithin fl gs vs ms (me s) (me t)

variable {views : List View} {fl sr : Bool} {gs : List (Fin 24)} {vs : List (Fin 8)} {ms : List (Fin 4)}

theorem StrandWithin.refl (a : Strand) : StrandWithin fl gs vs ms a a :=
  ⟨rfl, fun _ _ => ⟨rfl, rfl⟩, fun _ _ => ⟨rfl, fun _ _ => rfl⟩, fun _ _ => rfl, rfl, fun _ => rfl⟩

theorem StrandWithin.trans {a b c : Strand} (h : StrandWithin fl gs vs ms a b) (k : StrandWithin fl gs vs ms b c) :
    StrandWithin fl gs vs ms a c where
  rest := k.rest.trans h.rest
  g i hi := ⟨(k.g i hi).1.trans (h.g i hi).1, (k.g i hi).2.trans (h.g i hi).2⟩
  v i hi := ⟨(k.v i hi).1.trans (h.v i hi).1, fun j hj => ((k.v i hi).2 j hj).trans ((h.v i hi).2 j hj)⟩
  m i hi := (k.m i hi).trans (h.m i hi)
  flags := k.flags.trans h.flags
  quiet hf := (k.quiet hf).trans (h.quiet hf)

theorem CoreWithin.refl {own : Prop} (k : Core) : CoreWithin views sr own k k :=
  ⟨rfl, fun _ => rfl, fun _ => ⟨rfl, rfl, fun _ _ => rfl⟩⟩

theorem CoreWithin.trans {own : Prop} {k j i : Core} (h : CoreWithin views sr own k j) (h' : CoreWithin views sr own j i) :
    CoreWithin views sr own k i where
  rest := h'.rest.trans h.rest
  seed hs := (h'.seed hs).trans (h.seed hs)
  queues hp := by
    obtain ⟨hi, hm, hn⟩ := h.queues hp
    obtain ⟨hi', hm', hn'⟩ := h'.queues hp
    exact ⟨hi'.trans hi, hm'.trans hm, fun n hv => (hn' n hv).trans (hn n hv)⟩

section
variable {s t u : State}

theorem Within.cur (h : Within views fl sr gs vs ms s t) : t.cur = s.cur := congrArg (·.cur) h.rest

theorem Within.slot (h : Within views fl sr gs vs ms s t) : t.slot = s.slot := congrArg (·.slot) h.rest

theorem Within.refl (s : State) : Within views fl sr gs vs ms s s :=
  ⟨rfl, fun _ _ => rfl, rfl, fun _ => rfl, fun _ _ _ => rfl, fun _ => .refl _, fun _ => rfl, .refl _⟩

theorem Within.trans (h : Within views fl sr gs vs ms s t) (k : Within views fl sr gs vs ms t u) :
    Within views fl sr gs vs ms s u where
  rest := k.rest.trans h.rest
  clusters cl hcl := (k.clusters cl (by rwa [h.cur])).trans (h.clusters cl hcl)
  own := (h.cur ▸ k.own).trans h.own
  quiet hf := (k.quiet hf).trans (h.quiet hf)
  strands c i hi := (k.strands c i (by rwa [h.cur, h.slot])).trans (h.strands c i hi)
  cores c := (h.cores c).trans (h.cur ▸ k.cores c)
  seq hp := (k.seq hp).trans (h.seq hp)
  me := h.me.trans k.me

/-- The frame says what `WritesAtMost` does, for the views that the operands name. -/
theorem Within.writesAtMost {w : Uses} (h : Within (popsOf (ready s) w ++ pushesOf (ready s) w) fl sr gs vs ms s t) :
    WritesAtMost s t w sr gs vs ms :=
  ⟨State.eq_of_blanked h.rest, h.clusters, Cluster.eq_of_blanked h.own, h.strands,
    fun c => ⟨Core.eq_of_blanked (h.cores c).rest, (h.cores c).seed⟩,
    fun hp => ⟨h.seq hp, fun c => (h.cores c).queues hp⟩, h.me.g, h.me.v, h.me.m, h.me.flags,
    Strand.eq_of_blanked h.me.rest⟩

/-! ## Changes of one record -/

/-- A change of the issuing strand. -/
theorem within_modMe {f : Strand → Strand} (h : StrandWithin fl gs vs ms (me s) (f (me s))) :
    Within views fl sr gs vs ms s (modMe s f) where
  rest := rfl
  clusters _ _ := rfl
  own := rfl
  quiet _ := rfl
  strands _ _ hi := strandAt_modStrand_ne s f hi
  cores c := by
    by_cases hc : c = s.cur
    · subst hc
      rw [modMe, coreOf_modStrand_self]
      exact ⟨rfl, fun _ => rfl, fun _ => ⟨rfl, rfl, fun _ _ => rfl⟩⟩
    · rw [modMe, coreOf_modStrand_ne s _ _ hc]
      exact .refl _
  seq _ := rfl
  me := by rwa [me_modMe]

/-- A change of a core outside its strands. -/
theorem within_modCore {c : CoreId} {f : Core → Core} (hslots : ∀ k, (f k).slots = k.slots)
    (h : CoreWithin views sr (c = s.cur) (coreOf s c) (f (coreOf s c))) :
    Within views fl sr gs vs ms s (modCore s c f) where
  rest := rfl
  clusters _ _ := rfl
  own := rfl
  quiet _ := rfl
  strands d i _ := by
    show (coreOf (modCore s c f) d).slots[i] = (coreOf s d).slots[i]
    by_cases hd : d = c
    · subst hd; rw [coreOf_modCore_self, hslots]
    · rw [coreOf_modCore_ne s f hd]
  cores d := by
    by_cases hd : d = c
    · subst hd; rw [coreOf_modCore_self]; exact h
    · rw [coreOf_modCore_ne s f hd]; exact .refl _
  seq _ := rfl
  me := by rw [me_modCore c f hslots]; exact .refl _

/-- A stream of the issuing core changes, which a view names, or one of any core where a view is a port's. -/
theorem within_modStream {c : CoreId} {n : StreamId} {f : Stream → Stream}
    (h : (c = s.cur ∧ ∃ b, View.stream n b ∈ views) ∨ ∃ l b, View.port l b ∈ views) :
    Within views fl sr gs vs ms s (modStream s c n f) := by
  refine within_modCore (fun _ => rfl) ⟨rfl, fun _ => rfl, fun hp => ⟨rfl, rfl, fun k hk => ?_⟩⟩
  rcases h with ⟨hc, b, hb⟩ | ⟨l, b, hb⟩
  · have hne : n.val ≠ k.val := fun e => hk hc b (Fin.ext e ▸ hb)
    simp [hne]
  · exact absurd hb (hp l b)

/-- A port queue or seam buffer of any core changes, where a view is a port's. -/
theorem within_setQueue {c : CoreId} {f : Core → Core} (hslots : ∀ k, (f k).slots = k.slots)
    (hrest : ∀ k, (f k).blanked = k.blanked) (hseed : ∀ k, (f k).srseed = k.srseed) (h : ∃ l b, View.port l b ∈ views) :
    Within views fl sr gs vs ms s (modCore s c f) := by
  obtain ⟨l, b, hb⟩ := h
  exact within_modCore hslots ⟨hrest _, fun _ => hseed _, fun hp => absurd hb (hp l b)⟩

/-! ## Views -/

theorem within_pushStream {n : StreamId} {b : Bool} {x : W256} (h : View.stream n b ∈ views) :
    Within views fl sr gs vs ms s (pushStream s s.cur n b x) := within_modStream (.inl ⟨rfl, b, h⟩)

theorem within_pushLink {c : CoreId} {l : Port} {e : PortEntry} (h : ∃ l b, View.port l b ∈ views) :
    Within views fl sr gs vs ms s (pushLink s c l e) := by
  unfold pushLink
  split
  · exact within_setQueue (fun _ => rfl) (fun _ => rfl) (fun _ => rfl) h
  · split
    · exact within_setQueue (fun _ => rfl) (fun _ => rfl) (fun _ => rfl) h
    · exact .refl _

/-- A push over a seam takes a place in issue order. -/
theorem within_takeSeq (h : ∃ l b, View.port l b ∈ views) :
    Within views fl sr gs vs ms s { s with nextSeq := s.nextSeq + 1 } := by
  obtain ⟨l, b, hb⟩ := h
  exact ⟨rfl, fun _ _ => rfl, rfl, fun _ => rfl, fun _ _ _ => rfl, fun _ => .refl _, fun hp => absurd hb (hp l b), .refl _⟩

theorem within_pushPort {p : Port} {x : W256} (h : ∃ l b, View.port l b ∈ views) :
    Within views fl sr gs vs ms s (pushPort s p x) := by
  unfold pushPort
  dsimp only
  split
  · exact (within_takeSeq h).trans (within_pushLink h)
  · exact within_pushLink h

theorem within_popLink {l : Port} (h : ∃ l b, View.port l b ∈ views) :
    Within views fl sr gs vs ms s (popLink s s.cur l) := by
  unfold popLink
  split
  · exact .refl _
  · next q _ =>
    have popped := within_setQueue (s := s) (c := s.cur) (f := fun k => setInq k l q) (fl := fl) (sr := sr) (gs := gs)
      (vs := vs) (ms := ms) (fun _ => rfl) (fun _ => rfl) (fun _ => rfl) h
    dsimp only
    split
    · exact popped.trans (within_modStream (.inr h))
    · exact popped

theorem within_popView {v : View} (h : v ∈ views) : Within views fl sr gs vs ms s (popView s v) := by
  cases v with
  | stream n b =>
    unfold popView popStream
    exact within_modStream (.inl ⟨rfl, b, h⟩)
  | port l b => exact within_popLink ⟨l, b, h⟩

theorem within_popOff {v : View} (h : v ∈ views) : Within views fl sr gs vs ms s (popOff s v) := by
  unfold popOff
  split
  · next n b =>
    dsimp only
    split
    · exact within_modStream (.inl ⟨rfl, b, h⟩)
    · exact within_popView h
  · exact within_popView h

theorem within_popAll {l : List View} (h : l ⊆ views) : Within views fl sr gs vs ms s (popAll s l) := by
  unfold popAll
  induction l generalizing s with
  | nil => exact .refl _
  | cons v l ih =>
    rw [List.cons_subset] at h
    exact (within_popView h.1).trans (ih h.2)

/-! ## Registers, flags and the PC -/

theorem within_ready : Within views fl sr gs vs ms s (ready s) :=
  within_modMe ⟨rfl, fun _ _ => ⟨rfl, rfl⟩, fun _ _ => ⟨rfl, fun _ _ => rfl⟩, fun _ _ => rfl, rfl, fun _ => rfl⟩

theorem within_advance {n : Nat} : Within views fl sr gs vs ms s (advance s n) :=
  within_modMe ⟨rfl, fun _ _ => ⟨rfl, rfl⟩, fun _ _ => ⟨rfl, fun _ _ => rfl⟩, fun _ _ => rfl, rfl, fun _ => rfl⟩

/-- Clearing a bit leaves the others. -/
theorem putBits_one_zero_getLsbD {w : Nat} (x : BitVec w) {i k : Nat} (h : k ≠ i) :
    (putBits x i 1 0).getLsbD k = x.getLsbD k := by
  by_cases hk : k < w
  · have low : x.toNat % 2 ^ i < 2 ^ (i + 1) :=
      (Nat.mod_lt _ (Nat.two_pow_pos i)).trans (Nat.pow_lt_pow_right (by decide) (Nat.lt_succ_self i))
    have split : x.toNat % 2 ^ i + 0 % 2 ^ 1 * 2 ^ i + (x.toNat >>> (i + 1)) * 2 ^ (i + 1) =
        2 ^ (i + 1) * (x.toNat >>> (i + 1)) + x.toNat % 2 ^ i := by
      simp [Nat.mul_comm, Nat.add_comm]
    rw [putBits, split, BitVec.getLsbD_ofNat, Nat.testBit_two_pow_mul_add _ low, BitVec.getLsbD]
    simp only [hk, decide_true, Bool.true_and]
    split
    · rw [Nat.testBit_mod_two_pow, decide_eq_true (by omega), Bool.true_and]
    · rw [Nat.testBit_shiftRight, Nat.add_sub_cancel' (by omega)]
  · rw [BitVec.getLsbD_of_ge _ _ (by omega), BitVec.getLsbD_of_ge _ _ (by omega)]

theorem within_setG {i : Fin 24} {x : W64} (h : i ∈ gs) : Within views fl sr gs vs ms s (setG s i x) := by
  refine within_modMe ⟨rfl, fun k hk => ?_, fun _ _ => ⟨rfl, fun _ _ => rfl⟩, fun _ _ => rfl, rfl, fun _ => rfl⟩
  have hne : i.val ≠ k.val := fun e => hk (Fin.ext e ▸ h)
  exact ⟨by simp [hne], putBits_one_zero_getLsbD _ hne.symm⟩

theorem within_setM {i : Fin 4} {x : W32} (h : i ∈ ms) : Within views fl sr gs vs ms s (setM s i x) := by
  refine within_modMe ⟨rfl, fun _ _ => ⟨rfl, rfl⟩, fun _ _ => ⟨rfl, fun _ _ => rfl⟩, fun k hk => ?_, rfl, fun _ => rfl⟩
  have hne : i.val ≠ k.val := fun e => hk (Fin.ext e ▸ h)
  simp [hne]

theorem within_setVWords {i : Fin 8} {words : BitVec 4} {x : W256} (h : i ∈ vs) :
    Within views fl sr gs vs ms s (setVWords s i words x) := by
  refine within_modMe ⟨rfl, fun _ _ => ⟨rfl, rfl⟩, fun k hk => ?_, fun _ _ => rfl, rfl, fun _ => rfl⟩
  have hne : i.val ≠ k.val := fun e => hk (Fin.ext e ▸ h)
  refine ⟨by simp [hne], fun j hj => ?_⟩
  have hout : ((words.setWidth 32) <<< (4 * i.val)).getLsbD (4 * k.val + j) = false := by
    rw [BitVec.getLsbD_shiftLeft]
    rcases Nat.lt_or_gt_of_ne hne with hlt | hgt
    · rw [BitVec.getLsbD_setWidth, BitVec.getLsbD_of_ge words _ (by omega)]; simp
    · simp [show 4 * k.val + j < 4 * i.val by omega]
  show ((me s).vPoison &&& ~~~(words.setWidth 32 <<< (4 * i.val))).getLsbD _ = _
  rw [BitVec.getLsbD_and, BitVec.getLsbD_not, hout, decide_eq_true (by omega)]
  simp

/-- The flags of FCSR lie where the statement's mask leaves out. -/
theorem flags_outside_mask (fl : Flags) : (fl.setWidth 64 <<< 4) &&& ~~~(0x3F0 : W64) = 0 := by
  revert fl; decide

theorem within_raiseFlags {x : Flags} : Within views true sr gs vs ms s (raiseFlags s s.cur x) where
  rest := rfl
  clusters _ hcl := mapGet_mapSet_ne _ _ _ hcl
  own := by rw [raiseFlags, clusterOf_modCluster_self]; rfl
  quiet := nofun
  strands _ _ _ := rfl
  cores _ := .refl _
  seq _ := rfl
  me := .refl _

theorem within_addFlags {x : Flags} : Within views true sr gs vs ms s (addFlags s s.cur s.slot x) := by
  unfold addFlags
  split
  · exact .refl _
  · have fcsr : Within views true sr gs vs ms s (modMe s fun t => { t with fcsr := t.fcsr ||| (x.setWidth 64 <<< 4) }) :=
      within_modMe ⟨rfl, fun _ _ => ⟨rfl, rfl⟩, fun _ _ => ⟨rfl, fun _ _ => rfl⟩, fun _ _ => rfl,
        by simp only [BitVec.and_or_distrib_right, flags_outside_mask]; exact BitVec.or_zero, nofun⟩
    exact fcsr.trans within_raiseFlags

theorem within_setSeed {x : W64} (h : sr = true) : Within views fl sr gs vs ms s (setSeed s x) := by
  refine within_modCore (fun _ => rfl) ⟨rfl, fun hs => ?_, fun _ => ⟨rfl, rfl, fun _ _ => rfl⟩⟩
  rcases hs with hs | hs
  · exact absurd rfl hs
  · rw [h] at hs; cases hs

/-! ## Results -/

theorem viewS_of_within {t : State} (h : Within views fl sr gs vs ms s t) (d : SReg) : viewS t d = viewS s d := by
  have : (me t).orient = (me s).orient := congrArg (·.orient) h.me.rest
  cases d <;> simp [viewS, myLink, this]

theorem viewV_of_within {t : State} (h : Within views fl sr gs vs ms s t) (d : VReg) : viewV t d = viewV s d := by
  have : (me t).orient = (me s).orient := congrArg (·.orient) h.me.rest
  cases d <;> simp [viewV, myLink, this]

/-- A scalar result written or pushed. -/
theorem within_writeS {d : SReg} {x : W64} (hv : viewS s d ⊆ views) (hg : gOf d ⊆ gs) :
    Within views fl sr gs vs ms s (writeS s d x) := by
  cases d with
  | g i => exact within_setG (hg (List.mem_singleton_self i))
  | s n => exact within_pushStream (hv (List.mem_singleton_self _))
  | p q => exact within_pushPort ⟨_, _, hv (List.mem_singleton_self _)⟩

/-- A vector result written or pushed whole. -/
theorem within_writeV {d : VReg} {x : W256} (hv : viewV s d ⊆ views) (hd : vOf d ⊆ vs) :
    Within views fl sr gs vs ms s (writeV s d x) := by
  cases d with
  | v i => exact within_setVWords (hd (List.mem_singleton_self i))
  | w n => exact within_pushStream (hv (List.mem_singleton_self _))
  | q p => exact within_pushPort ⟨_, _, hv (List.mem_singleton_self _)⟩

/-- Lanes of a vector result written, or pushed with zero in the others. -/
theorem within_writeLanes {d : VReg} {w : Nat} {mask : W32} {x : W256} (hv : viewV s d ⊆ views) (hd : vOf d ⊆ vs) :
    Within views fl sr gs vs ms s (writeLanes s d w mask x) := by
  cases d with
  | v i => exact within_setVWords (hd (List.mem_singleton_self i))
  | w n => exact within_writeV (d := .w n) hv hd
  | q p => exact within_writeV (d := .q p) hv hd

end

end Sys2Proof.Machine
end

section
/-!
The frame of the scalar register operations (O51): an operation whose operands are at hand writes its result, advances and
pops, or raises an enabled flag.
-/
namespace Sys2Proof.Machine

/-! ## An operation that completes -/

/-- The views that an operation's operands name. -/
def viewsOf (s : State) (u : Uses) : List View := popsOf s u ++ pushesOf s u

theorem viewS_subset {r : State} {u : Uses} {d : SReg} (h : d ∈ u.dstS) : viewS r d ⊆ viewsOf r u := fun _ hv =>
  List.mem_append_right _ (List.mem_append_left _ (List.mem_flatMap.2 ⟨d, h, hv⟩))

theorem viewV_subset {r : State} {u : Uses} {d : VReg} (h : d ∈ u.dstV) : viewV r d ⊆ viewsOf r u := fun _ hv =>
  List.mem_append_right _ (List.mem_append_right _ (List.mem_flatMap.2 ⟨d, h, hv⟩))

@[simp] theorem me_popAll (s : State) (l : List View) : me (popAll s l) = me s := by
  unfold popAll
  induction l generalizing s with
  | nil => rfl
  | cons v l ih => rw [List.foldl_cons, ih, me_popView]

variable {fl sr on : Bool} {gs : List (Fin 24)} {vs : List (Fin 8)} {ms : List (Fin 4)} {s t v : State} {u : Uses}
  {body : State → Except Stop State}

/-- What is written before the PC advances and the views are popped bounds what the instruction changes. -/
theorem finished_within {len : Nat} (h : Within (viewsOf (ready s) u) fl sr gs vs ms (ready s) v) :
    Within (viewsOf (ready s) u) fl sr gs vs ms s (popAll (advance v len) (popsOf (ready s) u)) :=
  within_ready.trans (h.trans (within_advance.trans (within_popAll (List.subset_append_left ..))))

theorem Within.inflight {views : List View} (h : Within views fl sr gs vs ms s t) :
    (Machine.me t).inflight = (Machine.me s).inflight := congrArg (·.inflight) h.me.rest

/-- An instruction that computes v from its operands changes no more than v does. -/
theorem compute_within (hon : on = true) (ho : Operable (ready s) u) (h : compute s on u body = .next t)
    (hb : body (ready s) = .ok v) (hv : Within (viewsOf (ready s) u) fl sr gs vs ms (ready s) v) :
    Within (viewsOf (ready s) u) fl sr gs vs ms s t := by
  rw [compute_next hon ho hb (by rw [hv.inflight]; exact List.Subset.refl _)] at h
  cases h
  exact finished_within hv

/-- An instruction with flags completes with them, or takes the trap of an enabled one (R16). -/
theorem flaggedAnswer_next {len : Nat} {x : Flags} {k : State → State} (h : flaggedAnswer (ready s) len u x k = .next t) :
    t = popAll (advance (k (addFlags (ready s) s.cur s.slot x)) len) (popsOf (ready s) u) ∨ FlagTrapped s t len := by
  unfold flaggedAnswer at h
  split at h
  · cases h; exact .inl rfl
  · next hx => cases h; exact .inr ⟨x, by simpa using hx, rfl⟩

/-- One scalar result written. -/
theorem within_writeS_dst {a : State} {d : SReg} {x : W64} (ha : Within (viewsOf (ready s) u) fl sr gs vs ms (ready s) a)
    (hd : d ∈ u.dstS) (hg : gOf d ⊆ gs) : Within (viewsOf (ready s) u) fl sr gs vs ms (ready s) (writeS a d x) :=
  ha.trans (within_writeS (viewS_of_within ha d ▸ viewS_subset hd) hg)

section
variable {d : SReg}

/-- A floating-point operation, which writes one result with its flags and under .SR the generator's next value. -/
theorem flagged_write_frame {x : Flags} {y seed : W64} (hd : u.dstS = [d])
    (h : flaggedAnswer (ready s) 4 u x (fun t => let t' := writeS t d y; if sr then setSeed t' seed else t') = .next t) :
    WritesAtMost s t u sr (gOf d) [] [] ∨ FlagTrapped s t 4 := by
  refine (flaggedAnswer_next h).imp_left fun ht => ?_
  have written : Within (viewsOf (ready s) u) true sr (gOf d) [] [] (ready s)
      (writeS (addFlags (ready s) s.cur s.slot x) d y) :=
    within_writeS_dst within_addFlags (hd ▸ List.mem_singleton_self d) (List.Subset.refl _)
  rw [ht]
  cases sr with
  | false => exact (finished_within written).writesAtMost
  | true => exact (finished_within (written.trans (within_setSeed rfl))).writesAtMost

/-- The same for one whose body writes the result with its flags. -/
theorem compute_flagged_frame {x : Flags} {y : W64} (hd : u.dstS = [d]) (hon : on = true) (ho : Operable (ready s) u)
    (h : compute s on u body = .next t) (hb : body (ready s) = writeFlagged (ready s) d y x) :
    WritesAtMost s t u false (gOf d) [] [] ∨ FlagTrapped s t 4 :=
  flagged_write_frame (sr := false) (seed := 0) hd ((compute_flagged hon ho hb).symm.trans h)

end

/-- Settles O51: each operation's answer, by its shape, is a result written, and its frame follows. -/
theorem scalarRegisterFrame : Obligations.ScalarRegisterFrame := by
  unfold Obligations.ScalarRegisterFrame
  intro p f f2 fm b8 sr it rc d a b c g k k1 k2 m n t8 up i s t u1 u2 u3 only fp um hon h
  have keeps {u w : Uses} {gs : List (Fin 24)} {ms : List (Fin 4)} (hw : viewsOf (ready s) w = viewsOf (ready s) u)
      (hs : Within (viewsOf (ready s) w) false false gs [] ms s t) : only u gs ms :=
    ⟨(hw ▸ hs).writesAtMost, hs.me.quiet rfl, hs.quiet rfl⟩
  have scalar {u : Uses} {x : W64} (hd : d ∈ u.dstS) : Within (viewsOf (ready s) u) false false (gOf d) [] [] (ready s)
      (writeS (ready s) d x) := within_writeS_dst (.refl _) hd (List.Subset.refl _)
  have selected {u : Uses} {x : W64} : Within (viewsOf (ready s) u) false false [g] [] [] (ready s) (setG (ready s) g x) :=
    within_setG (List.mem_singleton_self g)
  have mask {u : Uses} {x : W32} : Within (viewsOf (ready s) u) false false [] [] [k] (ready s) (setM (ready s) k x) :=
    within_setM (List.mem_singleton_self k)
  refine ⟨fun ho hi => ?_, fun ho hi => ?_, fun ho hi => ?_, fun ho hi => ?_, fun ho hi => ?_, fun hi => ?_,
    fun ho hi => ?_, fun ho => ⟨fun hi => ?_, fun hi => ?_⟩, fun ho hi => ?_⟩
  · simp only [List.mem_cons, List.not_mem_nil, or_false] at hi
    rcases hi with rfl | rfl | rfl | rfl | rfl | rfl | rfl | rfl | rfl | rfl | rfl | rfl | rfl | rfl | rfl | rfl | rfl | rfl |
      rfl | rfl | rfl | rfl | rfl | rfl | rfl | rfl | rfl | rfl | rfl
    all_goals exact keeps rfl (compute_within hon ho h rfl (scalar (List.mem_singleton_self d)))
  · simp only [List.mem_cons, List.not_mem_nil, or_false] at hi
    rcases hi with rfl | rfl | rfl | rfl | rfl | rfl | rfl | rfl | rfl | rfl | rfl | rfl | rfl | rfl | rfl | rfl | rfl | rfl |
      rfl | rfl | rfl
    all_goals exact keeps rfl (compute_within hon ho h rfl (scalar (List.mem_singleton_self d)))
  · simp only [List.mem_cons, List.not_mem_nil, or_false] at hi
    rcases hi with rfl | rfl
    all_goals exact keeps (w := { srcS := [.g g, a, b], dstS := [.g g] }) rfl (compute_within hon ho h rfl selected)
  · simp only [List.mem_cons, List.not_mem_nil, or_false] at hi
    rcases hi with rfl | rfl | rfl
    · exact keeps rfl (compute_within (on := true) rfl ho h rfl (scalar (List.mem_singleton_self d)))
    · exact keeps rfl (compute_within (on := true) rfl ho h rfl (scalar (List.mem_singleton_self d)))
    · exact keeps rfl (compute_within hon ho h rfl (scalar (List.mem_singleton_self d)))
  · subst hi
    exact keeps rfl (compute_within hon ho h rfl mask)
  · simp only [List.mem_cons, List.not_mem_nil, or_false] at hi
    rcases hi with rfl | rfl | rfl
    all_goals exact keeps rfl (compute_within hon (operable_nothing _) h rfl mask)
  · simp only [List.mem_cons, List.not_mem_nil, or_false] at hi
    rcases hi with rfl | rfl | rfl | rfl | rfl | rfl | rfl | rfl
    all_goals exact compute_flagged_frame rfl hon ho h rfl
  · simp only [List.mem_cons, List.not_mem_nil, or_false] at hi
    rcases hi with rfl | rfl | rfl | rfl | rfl | rfl
    on_goal 3 =>
      exact flagged_write_frame (sr := false) (seed := 0) rfl ((fconvert_answer (sr := false) hon ho).symm.trans h)
    all_goals exact compute_flagged_frame rfl hon ho h rfl
  · simp only [List.mem_cons, List.not_mem_nil, or_false] at hi
    rcases hi with rfl | rfl
    · exact flagged_write_frame rfl ((fconvert_answer hon ho).symm.trans h)
    · exact flagged_write_frame rfl ((fconvert_answer hon ho).symm.trans h)
  · simp only [List.mem_cons, List.not_mem_nil, or_false] at hi
    rcases hi with rfl | rfl | rfl
    all_goals exact compute_flagged_frame rfl hon ho h rfl

end Sys2Proof.Machine
end

section
/-!
The frame of the vector operations (O52): what the predicate does not enable keeps its lanes, and the rest is the frame of an
operation that completes, is off, or raises an enabled flag.
-/
namespace Sys2Proof.Machine

/-! ## Lanes that stay -/

/-- From a to b every lane of width w of a v register that P does not name stays. -/
def LanesKept (w : Nat) (P : Nat → Prop) (a b : Strand) : Prop :=
  ∀ (z : Fin 8) (q : Nat), q < 256 / w → ¬ P q → lane b.v[z] w q = lane a.v[z] w q

section
variable {w : Nat} {P : Nat → Prop}

theorem LanesKept.trans {a b c : Strand} (h : LanesKept w P a b) (k : LanesKept w P b c) : LanesKept w P a c :=
  fun z q hq hp => (k z q hq hp).trans (h z q hq hp)

theorem lanesKept_of_within {views : List View} {fl sr : Bool} {gs : List (Fin 24)} {ms : List (Fin 4)} {s t : State}
    (h : Within views fl sr gs [] ms s t) : LanesKept w P (me s) (me t) :=
  fun z _ _ _ => by rw [(h.me.v z (List.not_mem_nil)).1]

/-- A lane of lanes put side by side. -/
theorem lane_lanesOf {f : Nat → BitVec w} {n q : Nat} (hq : q < n) (hn : n * w ≤ 256) :
    lane (lanesOf 256 w f n) w q = f q := by
  have key : ∀ (n b : Nat), b < w → q * w + b < 256 →
      (lanesOf 256 w f n).getLsbD (q * w + b) = (decide (q < n) && (f q).getLsbD b) := by
    intro n b hb h256
    induction n with
    | zero => simp [lanesOf]
    | succ n ih =>
      rw [lanesOf, BitVec.getLsbD_or, ih, BitVec.getLsbD_shiftLeft, BitVec.getLsbD_setWidth, decide_eq_true h256]
      rcases Nat.lt_trichotomy q n with hlt | rfl | hgt
      · have : (q + 1) * w ≤ n * w := Nat.mul_le_mul_right w hlt
        have : q * w + b < n * w := by rw [Nat.add_mul] at this; omega
        simp [this, hlt, Nat.lt_succ_of_lt hlt]
      · simp [show b < 256 by omega]
      · have : (n + 1) * w ≤ q * w := Nat.mul_le_mul_right w hgt
        have hout : (f n).getLsbD (q * w + b - n * w) = false :=
          BitVec.getLsbD_of_ge _ _ (by rw [Nat.add_mul] at this; omega)
        simp [hout, show ¬ q < n by omega, show ¬ q < n + 1 by omega]
  apply BitVec.eq_of_getLsbD_eq
  intro b hb
  have : (q + 1) * w ≤ n * w := Nat.mul_le_mul_right w hq
  rw [lane, BitVec.getLsbD_extractLsb', key n b hb (by rw [Nat.add_mul] at this; omega)]
  simp [hb, hq]

theorem mergeLanes_lane_off {mask : W32} {old new : W256} {q : Nat} (hq : q < 256 / w) (h : mask.getLsbD q = false) :
    lane (mergeLanes w mask old new) w q = lane old w q := by
  rw [mergeLanes, lane_lanesOf hq (Nat.div_mul_le_self 256 w)]
  simp [bit, h]

theorem lanesKept_writeLanes {s : State} {d : VReg} {mask : W32} {x : W256}
    (h : ∀ q, mask.getLsbD q = true → P q) : LanesKept w P (me s) (me (writeLanes s d w mask x)) := by
  cases d with
  | v i =>
    intro z q hq hp
    have hoff : mask.getLsbD q = false := by
      rw [← Bool.not_eq_true]; exact fun e => hp (h q e)
    by_cases hz : i.val = z.val
    · obtain rfl : i = z := Fin.ext hz
      simp [writeLanes, setVWords, me_modMe, getV, mergeLanes_lane_off hq hoff]
    · simp [writeLanes, setVWords, me_modMe, hz]
  | w n =>
    exact lanesKept_of_within (within_writeLanes (d := .w n) (vs := []) (fl := false) (sr := false) (gs := []) (ms := [])
      (List.Subset.refl _) (List.Subset.refl _))
  | q p =>
    exact lanesKept_of_within (within_writeLanes (d := .q p) (vs := []) (fl := false) (sr := false) (gs := []) (ms := [])
      (List.Subset.refl _) (List.Subset.refl _))

end

/-! ## The mask of written results -/

theorem foldl_pow_add (l : List Nat) (acc x : Nat) :
    l.foldl (fun m i => m + 2 ^ i) (acc + x) = l.foldl (fun m i => m + 2 ^ i) acc + x := by
  induction l generalizing acc with
  | nil => rfl
  | cons i l ih => rw [List.foldl_cons, List.foldl_cons, Nat.add_right_comm, ih]

/-- Places from 32 on leave a mask of 32 bits alone. -/
theorem sumMask_filter (l : List Nat) (acc : Nat) : BitVec.ofNat 32 (l.foldl (fun m i => m + 2 ^ i) acc) =
    BitVec.ofNat 32 ((l.filter fun i => i < 32).foldl (fun m i => m + 2 ^ i) acc) := by
  induction l generalizing acc with
  | nil => rfl
  | cons i l ih =>
    by_cases hi : i < 32
    · rw [List.filter_cons_of_pos (by simpa using hi), List.foldl_cons, List.foldl_cons, ih]
    · have hz : BitVec.ofNat 32 (2 ^ i) = 0 :=
        BitVec.eq_of_toNat_eq (Nat.mod_eq_zero_of_dvd (Nat.pow_dvd_pow 2 (by omega)))
      rw [List.filter_cons_of_neg (by simpa using hi), List.foldl_cons, foldl_pow_add, BitVec.ofNat_add, hz, ← ih]
      exact BitVec.add_zero _

/-- The mask of places that differ names no other place. -/
theorem mem_of_sumMask {l : List Nat} (hl : l.Nodup) {q : Nat}
    (h : (BitVec.ofNat 32 (l.foldl (fun m i => m + 2 ^ i) 0)).getLsbD q = true) : q ∈ l := by
  rw [sumMask_filter, sumMask_bit _ (hl.filter _) (fun i hi => by simpa using (List.mem_filter.1 hi).2) 0 (by simp)] at h
  simp only [BitVec.getLsbD_zero, Bool.false_or, decide_eq_true_eq] at h
  exact (List.mem_filter.1 h).1

/-- Results write the places that they name and no other. -/
theorem writeResults_lanes {s : State} {d : VReg} {w : Nat} {l : List (Nat × Nat × Flags)} (hl : (l.map Prod.fst).Nodup) :
    ∃ (mask : W32) (x : W256), (∀ q, mask.getLsbD q = true → q ∈ l.map Prod.fst) ∧
      writeResults s d w l = (raise s (unionFlags l)).map fun t => writeLanes t d w mask x := by
  refine ⟨_, _, fun q hq => ?_, bind_ok_eq_map _ _⟩
  rw [show l.foldl (fun m e => m + 2 ^ e.1) 0 = (l.map Prod.fst).foldl (fun m i => m + 2 ^ i) 0 by rw [List.foldl_map]] at hq
  exact mem_of_sumMask hl hq

/-! ## How a vector operation ends -/

section
variable {len w : Nat} {P : Nat → Prop} {sr on : Bool} {gs : List (Fin 24)} {vs : List (Fin 8)} {ms : List (Fin 4)}
  {s t : State} {u : Uses} {body : State → Except Stop State}

/-- One that is off goes on. -/
theorem off_frame (hoff : on = false) (h : executeLen len s on u body = .next t) :
    WritesAtMost s t u sr gs vs ms ∧ LanesKept w P (me s) (me t) := by
  rw [executeLen_off len hoff] at h
  cases h
  have still {vs : List (Fin 8)} : Within (viewsOf (ready s) u) false sr gs vs ms s (advance (ready s) len) :=
    within_ready.trans within_advance
  exact ⟨still.writesAtMost, lanesKept_of_within still⟩

/-- What has been written completes with the PC and the pops. -/
theorem finished_frame {fl : Bool} {a : State} (h : Within (viewsOf (ready s) u) fl sr gs vs ms (ready s) a)
    (hl : LanesKept w P (me (ready s)) (me a)) :
    WritesAtMost s (popAll (advance a len) (popsOf (ready s) u)) u sr gs vs ms ∧
      LanesKept w P (me s) (me (popAll (advance a len) (popsOf (ready s) u))) := by
  refine ⟨(finished_within h).writesAtMost, LanesKept.trans ?_ (hl.trans ?_)⟩
  · exact lanesKept_of_within (views := []) (fl := false) (sr := false) (gs := []) (ms := []) within_ready
  · exact lanesKept_of_within (fl := false) (sr := false) (gs := []) (ms := [])
      (within_advance.trans (within_popAll (List.Subset.refl _)))

/-- One that computes a from its operands, or is off. -/
theorem computed_frame {fl : Bool} {a : State} (ho : Operable (ready s) u) (h : compute s on u body = .next t)
    (hb : body (ready s) = .ok a) (ha : Within (viewsOf (ready s) u) fl sr gs vs ms (ready s) a)
    (hl : LanesKept w P (me (ready s)) (me a)) : WritesAtMost s t u sr gs vs ms ∧ LanesKept w P (me s) (me t) := by
  cases hon : on with
  | false => exact off_frame hon h
  | true =>
    rw [compute_next hon ho hb (by rw [ha.inflight]; exact List.Subset.refl _)] at h
    cases h
    exact finished_frame ha hl

/-- One that raises flags and writes k, or is off. -/
theorem raised_frame {x : Flags} {k : State → State} (ho : Operable (ready s) u) (h : executeLen len s on u body = .next t)
    (hb : body (ready s) = (raise (ready s) x).map fun a => advance (k a) len)
    (hk : ∀ a, Within (viewsOf (ready s) u) true sr gs vs ms (ready s) a →
      Within (viewsOf (ready s) u) true sr gs vs ms a (k a) ∧ LanesKept w P (me a) (me (k a))) :
    (WritesAtMost s t u sr gs vs ms ∧ LanesKept w P (me s) (me t)) ∨ FlagTrapped s t len := by
  cases hon : on with
  | false => exact .inl (off_frame hon h)
  | true =>
    have flagged {vs : List (Fin 8)} : Within (viewsOf (ready s) u) true sr gs vs ms (ready s)
        (addFlags (ready s) (ready s).cur (ready s).slot x) := within_addFlags
    obtain ⟨written, kept⟩ := hk _ flagged
    have answer : executeLen len s on u body = flaggedAnswer (ready s) len u x k := by
      rw [executeLen, if_pos hon, issueBody, ho.1, ho.2, hb, flaggedAnswer]
      unfold raise
      by_cases hf : x &&& fcsrEn (me (ready s)).fcsr = 0
      · rw [if_pos hf, if_neg (by simpa using hf), ← commitPops_now (s := ready s) (popsOf (ready s) u)
          (by rw [((flagged.trans written).trans within_advance).inflight]; exact List.Subset.refl _)]
        rfl
      · rw [if_neg hf, if_pos hf]; rfl
    refine (flaggedAnswer_next (answer.symm.trans h)).imp_left fun ht => ?_
    rw [ht]
    exact finished_frame (flagged.trans written) ((lanesKept_of_within flagged).trans kept)

/-- One that writes results to places that differ, and then `after`. -/
theorem results_frame {d : VReg} {l : List (Nat × Nat × Flags)} {after : State → State} (ho : Operable (ready s) u)
    (h : executeLen len s on u body = .next t)
    (hb : body (ready s) = (writeResults (ready s) d w l).map fun a => advance (after a) len) (hd : d ∈ u.dstV)
    (hl : (l.map Prod.fst).Nodup) (hP : ∀ q ∈ l.map Prod.fst, P q)
    (hafter : ∀ a vs, Within (viewsOf (ready s) u) true sr [] vs [] a (after a)) :
    (WritesAtMost s t u sr [] (vOf d) [] ∧ LanesKept w P (me s) (me t)) ∨ FlagTrapped s t len := by
  obtain ⟨mask, x, hmask, hw⟩ := writeResults_lanes (s := ready s) (d := d) (w := w) hl
  refine raised_frame (x := unionFlags l) (k := fun a => after (writeLanes a d w mask x)) ho h ?_ fun a ha => ⟨?_, ?_⟩
  · rw [hb, hw]
    cases raise (ready s) (unionFlags l) <;> rfl
  · exact (within_writeLanes (viewV_of_within ha d ▸ viewV_subset hd) (List.Subset.refl _)).trans (hafter _ _)
  · exact (lanesKept_writeLanes fun q hq => hP q (hmask q hq)).trans (lanesKept_of_within (hafter _ []))

/-! ## The shared lane operations -/

theorem bit_of_enabledLanes {m : W32} {n j : Nat} (h : j ∈ enabledLanes (lanesOn m n) n) : j < n ∧ m.getLsbD j = true := by
  obtain ⟨hj, hb⟩ := List.mem_filter.1 h
  rw [bit, lanesOn, BitVec.getLsbD_and, Bool.and_eq_true] at hb
  exact ⟨List.mem_range.1 hj, hb.1⟩

theorem laneOp_frame {p : Pred} {f : LFmt} {d : VReg} {g : State → Nat → Nat × Flags}
    (ho : Operable (ready s) { u with dstV := [d] }) (h : laneOp len p f d u g s = .next t) :
    (WritesAtMost s t { u with dstV := [d] } false [] (vOf d) [] ∧
      LanesKept f.width (fun j => (predMask s p).getLsbD j = true) (me s) (me t)) ∨ FlagTrapped s t len := by
  refine results_frame (after := id) ho h (bind_ok_eq_map _ _) (List.mem_singleton_self d) ?_ ?_ fun a _ => .refl a
  · rw [List.map_map]
    exact (List.nodup_range.filter _).map fun _ _ e => e
  · intro q hq
    rw [List.map_map] at hq
    obtain ⟨j, hj, rfl⟩ := List.mem_map.1 hq
    rw [← lanes_of_width f] at hj
    exact (bit_of_enabledLanes hj).2

theorem draws_length (n : Nat) (x : W64) : (draws n x).1.length = n := by
  induction n generalizing x with
  | zero => rfl
  | succ n ih => rw [draws, List.length_cons, ih]

/-- The places of conversions are those of the enabled lanes, in order. -/
theorem converted_places (js : List Nat) (x : W64) (place : Nat → Nat) (r : Nat × Nat → Nat × Flags) :
    ((js.zip (draws js.length x).1).map fun e => (place e.1, (r e).1, (r e).2)).map Prod.fst = js.map place := by
  rw [List.map_map, ← List.map_fst_zip (l₁ := js) (l₂ := (draws js.length x).1) (by rw [draws_length]), List.map_map]
  simp [List.map_fst_zip, draws_length]

theorem bind_ok_map {α β γ : Type} (r : Except Stop α) (f : α → β) (g : β → γ) :
    (do let t ← r; .ok (f t) : Except Stop β).map g = r.map fun t => g (f t) := by
  cases r <;> rfl

theorem convertLanes_frame {p : Pred} {ws wd part : Nat} {d : VReg} {srcs : List VReg}
    {g : State → Nat → Nat → Option Nat → Nat × Flags} (ho : Operable (ready s) { srcV := srcs, dstV := [d] })
    (h : convertLanes p sr ws wd part d srcs g s = .next t) :
    (WritesAtMost s t { srcV := srcs, dstV := [d] } sr [] (vOf d) [] ∧
      LanesKept wd (fun q => ∃ j, j < 256 / Nat.max ws wd ∧ (predMask s p).getLsbD j = true ∧
        (if wd < ws then part * (256 / Nat.max ws wd) + j else j) = q) (me s) (me t)) ∨ FlagTrapped s t 4 := by
  unfold convertLanes at h
  dsimp only at h
  generalize hn : 256 / Nat.max ws wd = n at h ⊢
  have places := converted_places (enabledLanes (lanesOn (predMask s p) n) n) (coreOf (ready s) (ready s).cur).srseed
    (fun j => if wd < ws then part * n + j else j)
  have inj : Function.Injective fun j => if wd < ws then part * n + j else j := by
    intro i j hij
    dsimp only at hij
    split at hij <;> omega
  refine results_frame (len := 4) ho h (after := fun a => if sr then setSeed a
    (draws (enabledLanes (lanesOn (predMask s p) n) n).length (coreOf (ready s) (ready s).cur).srseed).2 else a)
    (bind_ok_map _ _ _) (List.mem_singleton_self d) ?_ (fun q hq => ?_) fun a vs => ?_
  · rw [places]
    exact (List.nodup_range.filter _).map inj
  · rw [places] at hq
    obtain ⟨j, hj, rfl⟩ := List.mem_map.1 hq
    obtain ⟨hlt, hbit⟩ := bit_of_enabledLanes hj
    exact ⟨j, hlt, hbit, rfl⟩
  · cases sr
    · exact .refl a
    · exact within_setSeed rfl

theorem withP_next {p : Pred} {w : Nat} {dotP : Bool} {k : State → Answer} (hne : activeLanes s p w ≠ 0)
    (h : withP p w dotP u k s = .next t) : k s = .next t := (withP_on hne).symm.trans h

theorem reduceLanes_frame {p : Pred} {op : RedOp} {f : LFmt} {d a : VReg}
    (ho : Operable (ready s) { srcV := [a], dstV := [d] }) (h : reduceLanes p op f d a s = .next t) :
    WritesAtMost s t { srcV := [a], dstV := [d] } false [] (vOf d) [] ∨ FlagTrapped s t 4 := by
  refine (raised_frame (w := 0) (P := fun _ => True) (len := 4) ho h (bind_ok_map _ _ _) fun a ha => ⟨?_, ?_⟩).imp_left
    And.left
  · exact within_writeV (viewV_of_within ha d ▸ viewV_subset (List.mem_singleton_self d)) (List.Subset.refl _)
  · exact fun _ _ _ hn => absurd trivial hn

theorem execVcmp_frame {p : Pred} {cc : VCond} {f : LFmt} {d : MReg} {a b : VReg}
    (ho : Operable (ready s) { srcV := [a, b] }) (h : execVcmp p cc f d a b s = .next t) :
    WritesAtMost s t { srcV := [a, b] } false [] [] [d] ∨ FlagTrapped s t 4 := by
  refine (raised_frame (w := 0) (P := fun _ => True) (len := 4) ho h (bind_ok_map _ _ _) fun a ha => ⟨?_, ?_⟩).imp_left
    And.left
  · exact within_setM (List.mem_singleton_self d)
  · exact fun _ _ _ hn => absurd trivial hn

/-- Lanes written without a flag. -/
theorem written_frame {d : VReg} {mask : W32} {x : W256} (ho : Operable (ready s) u) (h : compute s on u body = .next t)
    (hb : body (ready s) = .ok (writeLanes (ready s) d w mask x)) (hd : d ∈ u.dstV)
    (hP : ∀ q, mask.getLsbD q = true → P q) :
    WritesAtMost s t u false [] (vOf d) [] ∧ LanesKept w P (me s) (me t) :=
  computed_frame (fl := false) ho h hb (within_writeLanes (viewV_subset hd) (List.Subset.refl _)) (lanesKept_writeLanes hP)

end

/-- Settles O52, by the shape of each operation. -/
theorem vectorRegisterFrame : Obligations.VectorRegisterFrame := by
  unfold Obligations.VectorRegisterFrame
  intro p f vf fm df op dotP sr ck nd wd ws part d a b c e x y cc m k t8 i s t r u1 u2 u3 ue ux ui uy un ud ub um uc
    kept converted upto short hex h
  have stay {w : Nat} (hl : LanesKept w (fun j => (predMask s p).getLsbD j = true) (me s) (me t)) : kept w :=
    fun z j hj hb => hl z j hj (by simp [hb])
  have place {w v : Nat} (hl : LanesKept v (fun q => ∃ j, j < 256 / Nat.max w v ∧ (predMask s p).getLsbD j = true ∧
      (if v < w then part.toNat * (256 / Nat.max w v) + j else j) = q) (me s) (me t)) : converted w v :=
    fun z q hq hn => hl z q hq fun ⟨j, hj, hb, e⟩ => hn j hj hb e
  have hne : activeLanes s p f.width ≠ 0 := by
    rw [activeLanes, lanes_of_width]
    exact bne_iff_ne.1 (lanesOn_ne_zero (LFmt.lanes_width f).2.1 hex)
  have lanes {u v : Uses} {l : VReg} {q : LFmt} {g : State → Nat → Nat × Flags} (h : laneOp 4 p q l u g s = .next t)
      (hu : { u with dstV := [l] } = v) (ho : Operable r v) :
      (WritesAtMost s t v false [] (vOf l) [] ∧ kept q.width) ∨ FlagTrapped s t 4 := by
    subst hu
    exact (laneOp_frame ho h).imp_left (And.imp_right stay)
  have packed {u v : Uses} {l : VReg} {g : State → Nat → Nat × Flags} (h : laneOp 2 .always f l u g s = .next t)
      (hu : { u with dstV := [l] } = v) (ho : Operable r v) :
      WritesAtMost s t v false [] (vOf l) [] ∨ FlagTrapped s t 2 := by
    subst hu
    exact (laneOp_frame ho h).imp_left And.left
  refine ⟨fun hi ho => ?_, fun hi ho => ?_, fun hi ho => ?_, fun hi ho => ?_, fun hi ho => ?_, fun hi ho => ?_,
    fun ho hi => ?_, fun hi ho => ?_, fun hi ho => ?_, fun hi ho => ?_, fun hi ho => ?_, fun ho hi => ?_,
    fun ho hi => ?_, fun hi ho => ?_, fun hi ho => ?_, fun hi ho => ?_, fun hi ho => ?_, fun ho hi => ?_⟩
  · simp only [List.mem_cons, List.not_mem_nil, or_false] at hi
    rcases hi with rfl | rfl | rfl | rfl | rfl | rfl | rfl | rfl | rfl | rfl | rfl | rfl | rfl | rfl | rfl
    all_goals exact lanes h rfl ho
  · simp only [List.mem_cons, List.not_mem_nil, or_false] at hi
    rcases hi with rfl | rfl | rfl | rfl | rfl | rfl | rfl | rfl | rfl | rfl
    on_goal 4 => exact lanes h rfl ho
    on_goal 4 => exact lanes h rfl ho
    all_goals exact lanes (withP_next hne h) rfl ho
  · subst hi
    exact lanes (withP_next hne h) rfl ho
  · subst hi
    exact lanes h rfl ho
  · subst hi
    exact .inl ((written_frame ho h rfl (List.mem_singleton_self _) fun _ => id).imp_right stay)
  · subst hi
    refine .inl ((written_frame (P := (· = k.toNat)) ho h rfl (List.mem_singleton_self _) fun q hq => ?_).imp_right ?_)
    · rw [BitVec.getLsbD_ofNat, Nat.testBit_two_pow, Bool.and_eq_true, decide_eq_true_eq, decide_eq_true_eq] at hq
      exact hq.2.symm
    · exact fun hl j hj hk => hl e j (by rwa [lanes_of_width]) hk
  · subst hi
    exact (computed_frame (w := 0) (P := fun _ => True) ho h rfl (fl := false)
      (within_writeS_dst (.refl _) (List.mem_singleton_self _) (List.Subset.refl _)) fun _ _ _ hn => absurd trivial hn).1
  · subst hi
    exact (reduceLanes_frame ho (withP_next hne h)).imp_left (⟨·, trivial⟩)
  · subst hi
    cases vf <;> exact lanes h rfl ho
  · subst hi
    cases fm <;> exact lanes h rfl ho
  · subst hi
    exact lanes (q := .fp32) h rfl ho
  · subst hi
    change execVcvt p sr ck part d a s = _ at h
    unfold execVcvt at h
    exact (convertLanes_frame ho h).imp_left (And.imp_right place)
  · subst hi
    change execVnarrow p sr nd part d a s = _ at h
    unfold execVnarrow at h
    exact (convertLanes_frame ho h).imp_left (And.imp_right place)
  · subst hi
    change execVwiden p wd ws part d a s = _ at h
    unfold execVwiden at h
    exact (convertLanes_frame ho h).imp_left (And.imp_right place)
  · simp only [List.mem_cons, List.not_mem_nil, or_false] at hi
    rcases hi with rfl | rfl | rfl | rfl | rfl | rfl | rfl | rfl | rfl | rfl | rfl
    all_goals exact packed h rfl ho
  · simp only [List.mem_cons, List.not_mem_nil, or_false] at hi
    rcases hi with rfl | rfl | rfl | rfl
    all_goals exact packed h rfl ho
  · subst hi
    exact packed h rfl ho
  · subst hi
    exact execVcmp_frame ho h

end Sys2Proof.Machine
end

section
/-!
Traps (O30): entry through the vector, the message that a strand waits for, RETT, and the instructions that raise a cause.
-/
namespace Sys2Proof.Machine

/-! ## Entry of a trap -/

/-- Clearing the low 12 bits is dividing by 4096 and multiplying again. -/
theorem div_mul_4096 (x : W64) : x / 4096 * 4096 = x &&& ~~~(0xFFF : W64) := by
  have shifted : x / (4096 : W64) * (4096 : W64) = (x >>> 12) <<< 12 := by
    apply BitVec.eq_of_toNat_eq
    simp [BitVec.toNat_mul, BitVec.toNat_udiv, Nat.shiftRight_eq_div_pow, Nat.shiftLeft_eq]
  have low (i : Nat) : (0xFFF : W64).getLsbD i = decide (i < 12) := by
    show (BitVec.ofNat 64 (2 ^ 12 - 1)).getLsbD i = _
    rw [BitVec.getLsbD_ofNat, Nat.testBit_two_pow_sub_one, Bool.and_eq_right_iff_imp]
    intro h
    simp only [decide_eq_true_eq] at h ⊢
    omega
  rw [shifted]
  apply BitVec.eq_of_getLsbD_eq
  intro i hi
  rw [BitVec.getLsbD_shiftLeft, BitVec.getLsbD_ushiftRight, BitVec.getLsbD_and, BitVec.getLsbD_not, low]
  by_cases h : i < 12
  · simp [h]
  · simp [h, hi, Nat.add_sub_cancel' (Nat.le_of_not_lt h)]

/-- A strand with an enabled vector outside a trap enters its handler (R26). -/
theorem takeTrap_vector {s : State} {len : Nat} {c : Byte} {v : W64} {wr : Bool} (hkind : (me s).kind ≠ .service)
    (hc : c ≠ 0x0D) (hen : bit (me s).tvec 0 = true) (hin : bit (me s).tstat 1 = false) :
    takeTrap s len c v wr = modMe s fun t => { t with
      tepc := if c = 0x0C then t.pc + BitVec.ofNat 64 len else t.pc
      tcause := c.setWidth 64
      tval := v
      tstat := 2 + boolW t.super
      super := true
      pc := trapVector t.tvec c } := by
  rw [takeTrap, if_neg hkind, if_neg (by rw [hen, hin]; rintro (h | h | h) <;> contradiction)]

/-- Any other trap of a strand that is no service strand posts a message (R26, R410). -/
theorem takeTrap_message {s : State} {len : Nat} {c : Byte} {v : W64} {wr : Bool} (hkind : (me s).kind ≠ .service)
    (h : bit (me s).tvec 0 = false ∨ bit (me s).tstat 1 = true ∨ c = 0x0D) :
    takeTrap s len c v wr = modMe (postFault s (slotAgent s.slot)
        { faultMsg c .strand s.cur s.slot v (me s).pc (me s).uid with wr := wr })
      fun t => { t with wait := .reply (agentToken s s.cur (slotAgent s.slot)) len none } := by
  have hmsg : c = 0x0D ∨ ¬ bit (me s).tvec 0 ∨ bit (me s).tstat 1 := by
    rcases h with h | h | h
    · exact .inr (.inl (by simp [h]))
    · exact .inr (.inr h)
    · exact .inl h
  rw [takeTrap, if_neg hkind, if_pos hmsg]
  exact if_neg hkind

@[simp] theorem me_postFault (s : State) (agent : Fin 20) (m : FaultMsg) : me (postFault s agent m) = me s :=
  me_modCore (s := s) m.core (fun k => { k with agentSeq := k.agentSeq.set agent (k.agentSeq[agent] + 1) }) fun _ => rfl

/-! ## RETT and the instructions that raise a cause -/

theorem execRett_supervisor {p : Pred} {s : State} (h : (me s).super = true) :
    execRett p s = execute s (predOn s p) {} fun s =>
      if bit (me s).tepc 0 then .error (.trap 0x03 (me s).tepc) else .ok (returnFromTrap s) := by
  rw [execRett, privileged, if_pos h]

theorem trap_cause (n : BitVec 5) : (0x20 + n.setWidth 8 : Byte) = BitVec.ofNat 8 (0x20 + n.toNat) := by
  apply BitVec.eq_of_toNat_eq
  simp [BitVec.toNat_add]

/-- Settles O30, from the two ways into a trap and the way back. -/
theorem trapsAndReturn : Obligations.TrapsAndReturn := by
  unfold Obligations.TrapsAndReturn
  refine ⟨fun s len c v hkind hc hen hin => ?_, fun s len c v hkind h => ?_, fun p a n w s => ?_⟩
  · rw [takeTrap_vector hkind hc hen hin]
    congr 1
    funext t
    have hstat : 2 + boolW t.super = if t.super then 3 else 2 := by cases t.super <;> rfl
    rw [hstat, trapVector, div_mul_4096]
  · rw [takeTrap_message hkind h]
    exact ⟨{ faultMsg c .strand s.cur s.slot v (me s).pc (me s).uid with
      token := agentToken s s.cur (slotAgent s.slot) }, rfl, rfl, rfl, rfl, rfl, rfl, by rw [me_modMe, me_postFault],
      rfl, rfl, _, rfl, rfl⟩
  · refine ⟨rfl, fun h => ?_, fun hon => ⟨fun hs hodd => ?_, fun hs heven => ?_, fun ho => ?_, ?_, ?_⟩⟩
    · exact if_neg (by simp [h])
    · refine (execRett_supervisor hs).trans ?_
      exact execute_stop (x := .trap 0x03 (me s).tepc) hon (operable_nothing _) (by rw [me_ready, bit, if_pos hodd])
    · refine (execRett_supervisor hs).trans ?_
      refine execute_next (t := returnFromTrap (ready s)) hon (operable_nothing _) ?_ ?_
      · rw [me_ready, bit, if_neg (by simpa using heven)]
      · simp [returnFromTrap]
    · rw [← trap_cause]
      exact execute_stop (x := .trap (0x20 + n.setWidth 8) (readS (ready s) a)) hon ho rfl
    · exact execute_stop (x := .trap 0x0C 0) hon (operable_nothing _) rfl
    · exact execute_stop (x := .trap 0x0B (me s).pc) hon (operable_nothing _) (by rw [me_ready])

end Sys2Proof.Machine
end

section
/-!
Messages on their way (O34): what an arrival, a departure, an activation and a replay do, each where its conditions hold.
-/
namespace Sys2Proof.Machine

/-! ## Arrivals -/

section
variable {s : State} {idx : Nat} {p : Packet} {d : CoreId} {m : InMsg}

/-- A packet that its core has room for joins the inbound queue (R200). -/
theorem accept_joins (hr : p.refused = false) (hw : packetWaits s idx p = false) (hh : (coreOf s d).halted = false)
    (hq : p.queue = none) (hfit : inboundUsed (coreOf s d) + m.size ≤ 16) :
    accept s idx p d m = modCore (dropPacket s idx) d fun k =>
      { k with inbound := k.inbound ++ [{ m with poison := m.poison || p.poison }] } := by
  rw [accept, if_neg (by simp [hr, hw, hh]), if_neg (Nat.not_lt.2 hfit), hq]

/-- One that finds less is refused until it is sent again (R200). -/
theorem accept_refused (hr : p.refused = false) (hw : packetWaits s idx p = false) (hh : (coreOf s d).halted = false)
    (hfit : ¬ inboundUsed (coreOf s d) + m.size ≤ 16) :
    accept s idx p d m = { s with net := s.net.set idx { p with refused := true } } := by
  rw [accept, if_neg (by simp [hr, hw, hh]), if_pos (Nat.lt_of_not_le hfit)]

theorem arrival_eq {f : Body → Option (CoreId × InMsg)} (hp : s.net[idx]? = some p) (hf : f p.body = some (d, m)) :
    arrival f idx s = accept s idx p d m := by
  simp only [arrival, hp, hf]

/-- Each arrival event takes the body of its class to the inbound queue. -/
theorem exec_arrival {ev : Instr} (hp : s.net[idx]? = some p)
    (h : (ev, p.body) ∈ [(Instr.fanStartMessage idx, Body.fanStart d m), (.completionMessage idx, .completion d m),
        (.gangWakeMessage idx, .gangWake d m)] ∨
      (ev = .message idx ∧ p.body = .start d m ∧ ∃ pc gs g8 g9, m.start = .message pc gs g8 g9) ∨
      (ev = .spawnRequest idx ∧ p.body = .start d m ∧
        ∃ pc f gs fc o tv dh su uid, m.start = .spawn pc f gs fc o tv dh su uid)) :
    exec ev s = .next (accept s idx p d m) := by
  simp only [List.mem_cons, Prod.mk.injEq, List.not_mem_nil, or_false] at h
  rcases h with (⟨rfl, hb⟩ | ⟨rfl, hb⟩ | ⟨rfl, hb⟩) | ⟨rfl, hb, _, _, _, _, hm⟩ |
    ⟨rfl, hb, _, _, _, _, _, _, _, _, _, hm⟩
  · show execFanStartMessage idx s = _
    simp only [execFanStartMessage, hp, hb]
    rw [arrival_eq hp (by rw [hb]; rfl)]
  · exact congrArg _ (arrival_eq (f := completionEntry) hp (by rw [hb]; rfl))
  · exact congrArg _ (arrival_eq (f := gangWakeEntry) hp (by rw [hb]; rfl))
  · exact congrArg _ (arrival_eq (f := messageEntry) hp (by simp only [hb, messageEntry, hm]))
  · exact congrArg _ (arrival_eq (f := spawnEntry) hp (by simp only [hb, spawnEntry, hm]))

/-- A scope miss starts the handler that SMVEC names, if it is enabled (R316). -/
theorem exec_scopeMissMessage {token : W64} {x : Miss} {g : Tag} (hp : s.net[idx]? = some p)
    (hb : p.body = .scopeMiss d token) (hm : missOf s token = some (x, g)) (hen : bit (coreOf s d).smvec 0 = true) :
    exec (.scopeMissMessage idx) s = .next (accept s idx p d (missMessage s d x g)) := by
  show execScopeMissMessage idx s = _
  simp [execScopeMissMessage, hp, hb, hm, hen]

/-- Otherwise the core widens the miss itself once the message is at the head (R316). -/
theorem exec_scopeMissAutoWiden {token : W64} {x : Miss} {g : Tag} (hp : s.net[idx]? = some p)
    (hb : p.body = .scopeMiss d token) (hm : missOf s token = some (x, g)) (hen : bit (coreOf s d).smvec 0 = false) :
    exec (.scopeMissAutoWiden idx) s = .next (accept s idx p d { missMessage s d x g with start := .widen token }) := by
  show execScopeMissAutoWiden idx s = _
  simp [execScopeMissAutoWiden, hp, hb, hm, hen]

end

/-! ## Wakes -/

/-- A change of a strand is what it does to the strand that is there. -/
theorem modStrand_congr {s : State} {c : CoreId} {i : Slot} {f g : Strand → Strand}
    (h : f (strandAt s c i) = g (strandAt s c i)) : modStrand s c i f = modStrand s c i g := by
  show setCore s c { coreOf s c with slots := (coreOf s c).slots.set i (f (coreOf s c).slots[i]) } =
    setCore s c { coreOf s c with slots := (coreOf s c).slots.set i (g (coreOf s c).slots[i]) }
  rw [show f (coreOf s c).slots[i] = g (coreOf s c).slots[i] from h]

section
variable {s : State} {idx : Nat} {p : Packet} {d : CoreId} {i : Slot} (hp : s.net[idx]? = some p) (hb : p.body = .wake d i)
  (hw : packetWaits s idx p = false) (hh : (coreOf s d).halted = false)
include hp hb hw hh

/-- A wake for a free slot is dropped (R211). -/
theorem exec_wakeDelivery_free (hocc : (strandAt s d i).occ = false) :
    exec (.wakeDelivery idx) s = .next (dropPacket s idx) := by
  show execWakeDelivery idx s = _
  simp [execWakeDelivery, hp, hb, hw, hh, hocc]

/-- A wake ends the sleep of its strand (R211). -/
theorem exec_wakeDelivery_sleeping {r : Fin 24} {a : W64} (hocc : (strandAt s d i).occ = true)
    (hsleep : (strandAt s d i).wait = .sleep r a) : exec (.wakeDelivery idx) s =
      .next (modStrand (dropPacket s idx) d i fun t => { putG t r 0 with wait := .none, pc := t.pc + 4 }) := by
  have woken : modStrand (dropPacket s idx) d i (awake 0) =
      modStrand (dropPacket s idx) d i fun t => { putG t r 0 with wait := .none, pc := t.pc + 4 } := by
    have there : (strandAt (dropPacket s idx) d i).wait = .sleep r a := hsleep
    exact modStrand_congr (by rw [awake, there])
  rw [← woken]
  show execWakeDelivery idx s = _
  simp [execWakeDelivery, hp, hb, hw, hh, hocc, hsleep]

/-- A wake of a strand that does not sleep stays pending (R211). -/
theorem exec_wakeDelivery_awake (hocc : (strandAt s d i).occ = true) (h : ∀ r a, (strandAt s d i).wait ≠ .sleep r a) :
    exec (.wakeDelivery idx) s = .next (modStrand (dropPacket s idx) d i fun t => { t with wakePend := true }) := by
  show execWakeDelivery idx s = _
  simp [execWakeDelivery, hp, hb, hw, hh, hocc]

end

/-! ## Departures and activations -/

/-- A request leaves once what its strand issued before it is performed (R209, R215). -/
theorem exec_outboundSend {s : State} {c : CoreId} {idx : Nat} {o : OutMsg} (hh : (coreOf s c).halted = false)
    (ho : (coreOf s c).outbound[idx]? = some o) (hv : overtakes ((coreOf s c).outbound.take idx) o = false)
    (hd : outstanding s c o.uid o.seq o.scope false false = false) :
    exec (.outboundSend c idx) s =
      .next (launchPacket (modCore s c fun k => { k with outbound := k.outbound.eraseIdx idx }) c o) := by
  show execOutboundSend c idx s = _
  simp [execOutboundSend, sendNext, hh, ho, hv, hd]

section
variable {s : State} {c : CoreId} {m : InMsg} {rest : List InMsg} {i : Slot}

theorem mayActivate_of {k : Core} (hf : k.frozen = none) (hh : k.halted = false) : mayActivate k = true := by
  simp [mayActivate, hf, hh]

/-- A widening at the head takes no slot (R316). -/
theorem exec_slotActivation_widen {token : W64} (hq : (coreOf s c).inbound = m :: rest) (hf : (coreOf s c).frozen = none)
    (hh : (coreOf s c).halted = false) (hm : m.start = .widen token) :
    exec (.slotActivation c) s = .next (askWiden (setHead s c rest) token) := by
  show execSlotActivation c s = _
  simp [execSlotActivation, hq, hm, mayActivate_of hf hh, activate]

/-- The head of the queue activates the lowest free slot (R24); a FAN start with a tick is not one of these. -/
theorem exec_slotActivation_start (hq : (coreOf s c).inbound = m :: rest) (hi : freeSlot (coreOf s c) = some i)
    (hf : (coreOf s c).frozen = none) (hh : (coreOf s c).halted = false)
    (hm : (∃ pc gs g8 g9, m.start = .message pc gs g8 g9) ∨
      ∃ pc f gs fc o tv dh su uid, m.start = .spawn pc f gs fc o tv dh su uid) :
    exec (.slotActivation c) s = .next (activate s c i m rest false) := by
  show execSlotActivation c s = _
  rcases hm with ⟨_, _, _, _, hm⟩ | ⟨_, _, _, _, _, _, _, _, _, hm⟩
  all_goals simp [execSlotActivation, hq, hm, hi, mayActivate_of hf hh]

variable {pc arg first size tick : W64} {n : Nat} {uids : List Nat}

/-- A FAN start at the head begins at once without a tick, and late once its tick has passed (R217). -/
theorem exec_slotActivation_fan (hq : (coreOf s c).inbound = m :: rest) (hi : freeSlot (coreOf s c) = some i)
    (hf : (coreOf s c).frozen = none) (hh : (coreOf s c).halted = false)
    (hm : m.start = .fan pc arg first size tick n uids) :
    exec (.slotActivation c) s = .next (if tick = 0 then activate s c i m rest false
      else if tick.toNat < (plumbAt s c).toNat then activate s c i m rest true else s) := by
  show execSlotActivation c s = _
  simp [execSlotActivation, hq, hm, hi, mayActivate_of hf hh]

/-- On its tick a timed FAN start begins (R217, R450). -/
theorem fanOnTick_head {k : Nat} (hq : (coreOf s c).inbound = m :: rest) (hi : freeSlot (coreOf s c) = some i)
    (hf : (coreOf s c).frozen = none) (hh : (coreOf s c).halted = false)
    (hm : m.start = .fan pc arg first size tick n uids) (h0 : tick ≠ 0) (hnow : tick = plumbAt s c) :
    fanOnTick c (k + 1) s = fanOnTick c k (activate s c i m rest false) := by
  have now : (mayActivate (coreOf s c) && tick != 0 && tick == plumbAt s c) = true := by
    rw [mayActivate_of hf hh, ← hnow]
    simpa using h0
  simp only [fanOnTick, hq, hi, hm, now, if_true]

end

/-! ## The network interface -/

section
variable {s : State} {idx : Nat} {p : Packet}

theorem exec_networkRetry (hp : s.net[idx]? = some p) :
    exec (.networkRetry idx) s = .next { s with net := s.net.set idx { p with refused := false } } := by
  show execNetworkRetry idx s = _
  simp only [execNetworkRetry, hp]

/-- A keystone core passes a start message on to the cores of its cluster (R217, R276). -/
theorem exec_fanKeystone {d : CoreId} {l : List (CoreId × InMsg)} (hp : s.net[idx]? = some p)
    (hb : p.body = .fanKeystone d l) (hh : (coreOf s d).halted = false) :
    exec (.fanStartMessage idx) s = .next (passFan s idx p l) := by
  show execFanStartMessage idx s = _
  simp [execFanStartMessage, hp, hb, hh]

theorem exec_linkReplay (hp : s.net[idx]? = some p) (h : p.poison = false) :
    exec (.linkReplay idx) s = .next (if p.replays < 16 then
      { s with net := s.net.set idx { p with replays := p.replays + 1 } }
      else countPoisoned { s with net := s.net.set idx { p with poison := true } } (packetCore p.body)) := by
  show execLinkReplay idx s = _
  simp [execLinkReplay, hp, h]

end

/-- Settles O34, event by event. -/
theorem arrivalAndMessageEvents : Obligations.ArrivalAndMessageEvents := by
  unfold Obligations.ArrivalAndMessageEvents
  refine ⟨?_, ?_⟩
  · intro idx p d m i token x g r a l s gone joins refused fits hp
    refine ⟨exec_networkRetry hp, fun hw hh => ⟨fun hr hq => ?_, fun hb => exec_fanKeystone hp hb hh, fun hb => ?_⟩⟩
    · have joined {y : InMsg} (hy : fits y) : accept s idx p d y = joins y := accept_joins hr hw hh hq hy
      have full {y : InMsg} (hy : ¬ fits y) : accept s idx p d y = refused := accept_refused hr hw hh hy
      refine ⟨fun ev hev => ?_, fun hb hm => ?_⟩
      · rw [exec_arrival hp hev]
        exact ⟨fun h => congrArg _ (joined h), fun h => congrArg _ (full h)⟩
      · refine ⟨fun hen => ?_, fun hen => ?_⟩
        · rw [exec_scopeMissMessage hp hb hm hen]
          exact ⟨fun h => congrArg _ (joined h), fun h => congrArg _ (full h)⟩
        · rw [exec_scopeMissAutoWiden hp hb hm hen]
          exact ⟨fun h => congrArg _ (joined (y := { missMessage s d x g with start := .widen token }) h),
            fun h => congrArg _ (full (y := { missMessage s d x g with start := .widen token }) h)⟩
    · exact ⟨exec_wakeDelivery_free hp hb hw hh, exec_wakeDelivery_sleeping hp hb hw hh,
        exec_wakeDelivery_awake hp hb hw hh⟩
  · intro c idx o m rest i p pc g8 g9 regs first n vals fc ori tv dh arg from_ size tick su uid uids token s headed
    refine ⟨fun hh ho hv hd => exec_outboundSend hh ho hv hd, fun hq hf hh hm => exec_slotActivation_widen hq hf hh hm,
      fun hq hi hf hh => ⟨fun hm hs => ?_, fun hm => ?_, fun hm => ?_⟩, fun hp h => ?_⟩
    · rw [exec_slotActivation_start hq hi hf hh (.inl ⟨_, _, _, _, hm⟩)]
      simp only [activate, hm, hs]
      rfl
    · rw [exec_slotActivation_start hq hi hf hh (.inr ⟨_, _, _, _, _, _, _, _, _, hm⟩)]
      simp only [activate, hm]
      rfl
    · rw [exec_slotActivation_fan hq hi hf hh hm]
      refine ⟨fun h0 => by rw [if_pos h0], fun h0 hlt => by rw [if_neg h0, if_pos hlt],
        fun h0 hgt => by rw [if_neg h0, if_neg (Nat.not_lt.2 hgt.le)], fun h0 hnow => ?_⟩
      exact congrArg _ (fanOnTick_head hq hi hf hh hm h0 hnow)
    · rw [exec_linkReplay hp h]
      exact ⟨fun hlt => by rw [if_pos hlt], fun hge => by rw [if_neg (Nat.not_lt.2 hge)]⟩

end Sys2Proof.Machine
end

section
/-!
The CSR instructions and the CSR writes with an effect of their own (O27). A write goes on unless it makes its own strand
wait, so each clause comes down to what `csrWrite` gives and to the strand keeping its wait and its identity.
-/
namespace Sys2Proof.Machine

/-! ## The issuing strand under a change of every core -/

/-- A change of every core reaches the strand of each slot, and one of a core never touched is free. -/
theorem slot_mapCores (l : Map Core) (c : CoreId) (i : Slot) {f : Nat × Core → Core} {g : Strand → Strand}
    (hf : ∀ e, (f e).slots[i] = g e.2.slots[i]) (hg : g Strand.free = Strand.free) :
    (mapGet Core.reset (l.map fun e => (e.1, f e)) c).slots[i] = g (mapGet Core.reset l c).slots[i] := by
  induction l with
  | nil => simp [mapGet, Core.reset, hg]
  | cons e l ih =>
    obtain ⟨k, x⟩ := e
    rw [List.map_cons, mapGet, mapGet]
    split
    · exact hf (k, x)
    · exact ih

@[simp] theorem me_markRelease (s : State) (c : CoreId) (uid seq : Nat) (sc : Scope) (uo : Bool) :
    me (markRelease s c uid seq sc uo) = me s := slot_mapCores s.cores s.cur s.slot (g := id) (fun _ => rfl) rfl

@[simp] theorem me_dropTlb (s : State) (asid : Nat) (v : W64) : me (dropTlb s asid v) = me s :=
  slot_mapCores s.cores s.cur s.slot (g := id) (fun _ => rfl) rfl

@[simp] theorem me_unparkWord (s : State) (word : Nat) : me (unparkWord s word) = unpark word (me s) :=
  slot_mapCores s.cores s.cur s.slot (fun _ => by simp) rfl

theorem me_mapStrands (s : State) (f : Strand → Strand) :
    me (mapStrands s fun _ => f) = if (me s).occ then f (me s) else me s :=
  slot_mapCores s.cores s.cur s.slot (g := fun t => if t.occ then f t else t) (fun _ => by simp) rfl

/-! ## The end of a write -/

/-- From s to t the issuing strand keeps its wait, its identity and its requests. -/
def Unstirred (s t : State) : Prop :=
  (me t).wait = (me s).wait ∧ (me t).uid = (me s).uid ∧ (me t).inflight = (me s).inflight

theorem unstirred_of_me {s t : State} (h : me t = me s) : Unstirred s t := by simp [Unstirred, h]

theorem csrPut_unstirred (s : State) (n : Nat) (v : W64) : Unstirred s (csrPut s n v) := by
  unfold csrPut Unstirred
  dsimp only
  split <;> (try split) <;> simp [me_modCore]

theorem csrClear_unstirred (s : State) (n : Nat) (a : W64) : Unstirred s (csrClear s n a) := by
  unfold csrClear Unstirred
  dsimp only
  split <;> (try split) <;> simp [me_modCore, modChan, clearFlags]

theorem csrFinish_goes_on {s t : State} (h : Unstirred (ready s) t) : csrFinish (me (ready s)).uid t = advance t 4 := by
  obtain ⟨hw, hu, _⟩ := h
  rw [me_ready] at hw
  simp [csrFinish, widenBlocked, hw, hu]

section
variable {s t : State} {op : CsrOp} {csr : BitVec 12} {a : SReg} {i : Instr} {n : Nat} {v : W64}

/-- A CSR with bit 11 set is no bar to a supervisor strand (R13). -/
theorem not_barred (hp : n.testBit 11 = true → (me s).super = true) : (n.testBit 11 && !(me s).super) = false := by
  cases hb : n.testBit 11 with
  | false => rfl
  | true => simp [hp hb]

theorem csrChecked_allowed {k : State → Answer} (hp : n.testBit 11 = true → (me s).super = true)
    (ha : csrAllows n op = true) : csrChecked n op i s k = k s := by
  rw [csrChecked, not_barred hp, if_neg (by decide), if_pos ha]

/-- A CSR write of an instruction whose strand goes on. -/
theorem csrModify_next (hp : csr.getLsbD 11 = true → (me s).super = true) (ha : csrAllows csr.toNat op = true)
    (ho : Operable (ready s) { srcS := [a] })
    (hw : csrWrite (ready s) op csr.toNat (readS (ready s) a) (instrWord i) = .ok t) (hu : Unstirred (ready s) t) :
    csrModify op csr a i s = .next (retired (ready s) t { srcS := [a] }) := by
  rw [csrModify, csrChecked_allowed hp ha]
  refine execute_next (t := advance t 4) rfl ho ?_ ?_
  · rw [hw, ← csrFinish_goes_on hu]; rfl
  · rw [me_advance]
    exact hu.2.2 ▸ List.Subset.refl _

/-- A CSR write of an instruction that stops. -/
theorem csrModify_stop {x : Stop} (hp : csr.getLsbD 11 = true → (me s).super = true) (ha : csrAllows csr.toNat op = true)
    (ho : Operable (ready s) { srcS := [a] })
    (hw : csrWrite (ready s) op csr.toNat (readS (ready s) a) (instrWord i) = .error x) :
    csrModify op csr a i s = .next (stopStep (ready s) 4 x) := by
  rw [csrModify, csrChecked_allowed hp ha]
  exact execute_stop rfl ho (by rw [hw]; rfl)

/-- What a write gives a read-write CSR: the source, its OR or its AND NOT with the old value (R132). -/
def csrNew (op : CsrOp) (old x : W64) : W64 :=
  match op with
  | .set => old ||| x
  | .clear => old &&& ~~~x
  | .read | .write => x

theorem csrWrite_rw {r : State} {x w : W64} (hc : csrClass n = .rw) : csrWrite r op n x w =
    if csrValid n (csrNew op (csrRead r n) x) then .ok (csrPut r n (csrNew op (csrRead r n) x))
    else .error (.trap 0x01 w) := by
  unfold csrWrite
  rw [hc]
  cases op <;> rfl

/-- A step that stands for one CSR write. -/
theorem csrEvent_next (hp : n.testBit 11 = true → (me s).super = true)
    (hw : ∀ w, csrWrite (ready s) .write n v w = .ok t) : csrEvent n v s = .next (csrFinish (me (ready s)).uid t) := by
  rw [csrEvent, not_barred hp, if_neg (by decide), execute, executeLen, if_pos rfl]
  simp only [issueBody, (operable_nothing (ready s)).1, (operable_nothing (ready s)).2, hw]
  rfl

theorem csrEvent_goes_on (hp : n.testBit 11 = true → (me s).super = true)
    (hw : ∀ w, csrWrite (ready s) .write n v w = .ok t) (hu : Unstirred (ready s) t) :
    csrEvent n v s = .next (advance t 4) := by
  rw [csrEvent_next hp hw, csrFinish_goes_on hu]

end

/-! ## NAL -/

theorem csrLatch_nal (s : State) (n : Fin 16) : csrLatch s (0x510 + n.val) =
    modMe s fun x => { x with nalHi := x.nalHi.set n (BitVec.ofInt 64 (normMerged s n.val / 2 ^ 64)) } := by
  have hr : inRange (0x510 + n.val) 0x510 0x51F = true := by simp [inRange]; omega
  simp only [csrLatch, hr, if_true, Nat.add_sub_cancel_left, Fin.ofNat_eq_cast, Fin.cast_val_eq_self]

theorem csrRead_nal (s : State) (n : Fin 16) : csrRead s (0x510 + n.val) = BitVec.ofInt 64 (normMerged s n.val) := by
  fin_cases n <;> unfold csrRead <;> simp [inRange]

theorem csrLatch_inflight (s : State) (n : Nat) : (me (csrLatch s n)).inflight = (me s).inflight := by
  unfold csrLatch
  split
  · rw [me_modMe]
  · rfl

/-! ## CONTAIN -/

/-- A field put above a value is its union with the shifted field. -/
theorem putBits_above {x : W64} {lo n v : Nat} (h : x.toNat < 2 ^ lo) :
    putBits x lo n v = x ||| (BitVec.ofNat 64 (v % 2 ^ n) <<< lo) := by
  have high : x.toNat >>> (lo + n) = 0 := by
    rw [Nat.shiftRight_eq_div_pow]
    exact Nat.div_eq_of_lt (h.trans_le (Nat.pow_le_pow_right (by decide) (by omega)))
  have sum : x.toNat % 2 ^ lo + v % 2 ^ n * 2 ^ lo + x.toNat >>> (lo + n) * 2 ^ (lo + n) =
      x.toNat ||| (v % 2 ^ n) <<< lo := by
    rw [Nat.mod_eq_of_lt h, high, Nat.zero_mul, Nat.add_zero, Nat.add_comm, Nat.mul_comm, Nat.two_pow_add_eq_or_of_lt h,
      Nat.or_comm, Nat.shiftLeft_eq, Nat.mul_comm]
  rw [putBits, sum, BitVec.ofNat_or, BitVec.ofNat_toNat, BitVec.setWidth_eq]
  congr 1
  apply BitVec.eq_of_toNat_eq
  simp [Nat.shiftLeft_eq, Nat.mul_mod]

/-- Bits [11:8] of CONTAIN follow its bits [7:4] (R204). -/
theorem contain_follows (v : W64) : putBits (v &&& 0xF3) 8 4 (bits v 7 4) = (v &&& 0xF3) ||| ((v &&& 0xF0) <<< 4) := by
  have small : (v &&& 0xF3).toNat < 2 ^ 8 := by
    rw [BitVec.toNat_and]
    exact Nat.and_lt_two_pow _ (by decide)
  have nibble (j : Nat) : (0xF0 : W64).getLsbD j = (decide (4 ≤ j) && decide (j < 8)) := by
    show (BitVec.ofNat 64 (2 ^ 4 - 1) <<< 4).getLsbD j = _
    rw [BitVec.getLsbD_shiftLeft, BitVec.getLsbD_ofNat, Nat.testBit_two_pow_sub_one, Bool.eq_iff_iff]
    simp only [Bool.and_eq_true, Bool.not_eq_true', decide_eq_true_eq, decide_eq_false_iff_not]
    omega
  rw [putBits_above small]
  congr 1
  apply BitVec.eq_of_getLsbD_eq
  intro i hi
  rw [BitVec.getLsbD_shiftLeft, BitVec.getLsbD_shiftLeft, BitVec.getLsbD_ofNat, BitVec.getLsbD_and, nibble, bits,
    Nat.mod_mod, Nat.testBit_mod_two_pow, Nat.testBit_shiftRight]
  by_cases h8 : i < 8
  · simp [h8, show i - 4 < 4 by omega]
  · have place : 4 + (i - 8) = i - 4 := by omega
    rw [place]
    show _ = (_ && (v.toNat.testBit (i - 4) && _))
    rw [Bool.eq_iff_iff]
    simp only [Bool.and_eq_true, Bool.not_eq_true', decide_eq_true_eq, decide_eq_false_iff_not]
    constructor
    · rintro ⟨_, _, _, hb⟩
      exact ⟨⟨hi, by omega⟩, hb, by omega, by omega⟩
    · rintro ⟨_, hb, _, _⟩
      exact ⟨⟨hi, h8⟩, by omega, by omega, hb⟩

/-! ## The CSR writes with an effect of their own -/

section
variable {s r : State} {v w : W64}

theorem csrWrite_wo {n : Nat} (hc : csrClass n = .wo) (hv : woValid n v = true) : csrWrite r .write n v w = woPut r n v := by
  unfold csrWrite
  rw [hc]
  exact if_pos hv

theorem csrWrite_ctl {n : Nat} (hc : csrClass n = .ctl) (hv : bits v 63 9 = 0) :
    csrWrite r .write n v w = .ok (nactlPut r (n - 0x530) v) := by
  unfold csrWrite
  rw [hc]
  exact if_pos hv

/-- A field of a value that a mask clears is 0. -/
theorem bits_and_eq_zero (x m : W64) (hi lo : Nat) (h : m.extractLsb' lo (hi + 1 - lo) = 0) : bits (x &&& m) hi lo = 0 := by
  show ((x &&& m).extractLsb' lo (hi + 1 - lo)).toNat = 0
  rw [BitVec.extractLsb'_and, h]
  simp

/-- HIRQ sends the vector once its release needs to wait for nothing (R469). -/
theorem exec_hirqWrite (hv : v.toNat < 8) (hd : drained (ready s) = true)
    (ho : outstanding (ready s) (ready s).cur (me (ready s)).uid (ready s).nextSeq .sy false false = false) :
    exec (.hirqWrite v) s = .next (advance (sendMsix (markMine (ready s) .sy false)
      (1024 + 8 * (me s).job + v.toNat)) 4) := by
  have low : bits v 2 0 = v.toNat := Nat.mod_eq_of_lt hv
  have high : bits v 63 3 = 0 := by
    rw [bits, Nat.shiftRight_eq_div_pow]
    omega
  refine csrEvent_goes_on (n := 0x680) (t := sendMsix (markMine (ready s) .sy false) _)
    (fun h => absurd h (by decide)) (fun w => ?_) (unstirred_of_me (me_markRelease ..))
  rw [csrWrite_wo rfl (by simp [woValid, high])]
  show hirqPut (ready s) v = _
  have released : releaseWaits (ready s) .sy false false = false := ho
  simp only [hirqPut, hd, release, released, low]
  rw [me_ready]
  rfl

/-- NACTL of an accumulator (R385). -/
theorem exec_nactlWrite {n : Fin 16} (hv : v.toNat < 512) :
    exec (.nactlWrite n v) s = .next (advance (nactlPut (ready s) n.val v) 4) := by
  have class_ctl : csrClass (0x530 + n.val) = .ctl := by revert n; decide
  have user : (0x530 + n.val).testBit 11 = false := by revert n; decide
  have high : bits v 63 9 = 0 := by
    rw [bits, Nat.shiftRight_eq_div_pow]
    omega
  refine csrEvent_goes_on (fun h => absurd h (by simp [user])) (fun w => ?_) (unstirred_of_me rfl)
  rw [csrWrite_ctl class_ctl high, Nat.add_sub_cancel_left]

theorem exec_nalRead {n : Fin 16} {d : SReg} (ho : Operable (ready s) { dstS := [d] }) :
    exec (.nalRead d n) s = .next (retired (ready s) (writeS (csrLatch (ready s) (0x510 + n.val)) d
      (csrRead (ready s) (0x510 + n.val))) { dstS := [d] }) := by
  refine compute_next rfl ho rfl ?_
  rw [writeS_inflight, csrLatch_inflight]
  exact List.Subset.refl _

/-- TLBINV once no access is left that its entries may have translated (R295). -/
theorem tlbinv_event {va : W64} (hs : (me s).super = true) (hv : woValid 0xB01 va = true)
    (ht : translatedLeft (ready s) ((jobOf s (me s).job).ptroot.toNat % 1024) va = false) :
    csrEvent 0xB01 va s = .next (advance (dropTlb (ready s) ((jobOf s (me s).job).ptroot.toNat % 1024) va) 4) := by
  refine csrEvent_goes_on (fun _ => hs) (fun w => ?_) (unstirred_of_me (me_dropTlb ..))
  have asid : bits (jobOf (ready s) (me (ready s)).job).ptroot 9 0 = (jobOf s (me s).job).ptroot.toNat % 1024 := by
    rw [me_ready]; rfl
  rw [csrWrite_wo rfl hv]
  show tlbinvPut (ready s) va = _
  simp only [tlbinvPut, asid, ht]
  rfl

theorem exec_containWrite (hv : v &&& ~~~(0xFF3 : W64) = 0) : exec (.containWrite v) s = .next (advance
    (modMe (ready s) fun x => { x with contain := (v &&& 0xF3) ||| ((v &&& 0xF0) <<< 4) }) 4) := by
  refine csrEvent_goes_on (n := 0x208) (fun h => absurd h (by decide)) (fun w => ?_)
    (t := modMe (ready s) fun x => { x with contain := (v &&& 0xF3) ||| ((v &&& 0xF0) <<< 4) }) (by simp [Unstirred])
  have valid : csrValid 0x208 v = true := beq_iff_eq.2 hv
  rw [csrWrite_rw rfl]
  refine (if_pos valid).trans (congrArg _ ?_)
  show modMe (ready s) _ = _
  simp only [csrNew, contain_follows]

/-- The reply of FRACT to the message of a token, for the strand's partition (R414). -/
def fractReply (r : State) (part : Nat) (token : W64) (act : Act) : State :=
  reply (match (me r).serving with
    | some m => if m.token = token then modMe r fun x => { x with serving := none } else r
    | none => r) (some part) token act

theorem fractPut_keystone {act : Act} (hk : keystone (clusterIdx r.cur) = r.cur) :
    fractPut r act = .ok (fractReply r (me r).part (me r).frtok act) := by
  rw [fractPut, if_neg (not_not.2 hk)]
  rfl

theorem fract_event {act : Act} (hs : (me s).super = true) (hk : keystone (clusterIdx s.cur) = s.cur)
    (hv : woValid 0xD85 v = true) (ha : actOf (v.setWidth 2) = act) : csrEvent 0xD85 v s =
      .next (csrFinish (me (ready s)).uid (fractReply (ready s) (me s).part (me s).frtok act)) := by
  refine csrEvent_next (fun _ => hs) fun w => ?_
  rw [csrWrite_wo rfl hv]
  refine (fractPut_keystone (r := ready s) hk).trans ?_
  rw [ha, me_ready]

end

/-! ## The widening of a scope miss -/

/-- Whether a request waits on a word. -/
def parksOn (word : Nat) (p : Pending) : Bool := p.park != 0 && p.parts.any fun q => wordOf q.loc == word && q.got.isNone

/-- No live strand of a core has a request that waits on a word. -/
def NoneParked (word : Nat) (k : Core) : Prop :=
  ∀ i : Slot, k.slots[i].occ = true → ∀ p ∈ k.slots[i].inflight, parksOn word p = false

/-- A fold that adds to a list is empty when it was empty and no step adds. -/
theorem foldl_eq_nil {α β : Type} {F : List β → α → List β} {Q : α → Prop} (h : ∀ l a, F l a = [] ↔ l = [] ∧ Q a)
    (as : List α) (l : List β) : as.foldl F l = [] ↔ l = [] ∧ ∀ a ∈ as, Q a := by
  induction as generalizing l with
  | nil => simp
  | cons a as ih => rw [List.foldl_cons, ih, h, List.forall_mem_cons, and_assoc]

theorem mapSet_ne_nil {α : Type} (k : Nat) (v : α) (m : Map α) : mapSet k v m ≠ [] := by
  cases m with
  | nil => simp [mapSet]
  | cons e m =>
    obtain ⟨a, w⟩ := e
    rw [mapSet]
    split
    · simp
    · split <;> simp

theorem parkedOn_eq_nil {s : State} {word : Nat} : parkedOn s word = [] ↔ ∀ e ∈ s.cores, NoneParked word e.2 := by
  unfold parkedOn
  rw [foldl_eq_nil (Q := fun e => NoneParked word e.2)]
  · simp
  · intro l e
    rw [foldl_eq_nil (Q := fun t => ∀ p ∈ t.2.inflight, parksOn word p = false)]
    · simp [NoneParked, coreStrands]
    · intro l t
      rw [foldl_eq_nil (Q := fun p => parksOn word p = false)]
      intro l p
      show (if parksOn word p then _ else l) = [] ↔ _
      split
      · next h => simp [h, mapSet_ne_nil]
      · next h => simp [h]

theorem noneParked_reset (word : Nat) : NoneParked word Core.reset := by
  intro i hocc
  simp [Core.reset, Strand.free] at hocc

/-- A change of one core keeps what holds of every core, of one never touched too. -/
theorem forall_cores_modCore {P : Core → Prop} {s : State} {c : CoreId} {f : Core → Core} (h : ∀ e ∈ s.cores, P e.2)
    (hr : P Core.reset) (hf : ∀ k, P k → P (f k)) : ∀ e ∈ (modCore s c f).cores, P e.2 := by
  have there : P (coreOf s c) := by
    unfold coreOf
    revert h
    generalize s.cores = l
    induction l with
    | nil => exact fun _ => hr
    | cons e l ih =>
      obtain ⟨k, x⟩ := e
      intro h
      rw [List.forall_mem_cons] at h
      rw [mapGet]
      split
      · exact h.1
      · exact ih h.2
  show ∀ e ∈ mapSet c (f (coreOf s c)) s.cores, P e.2
  generalize f (coreOf s c) = y, hf _ there = hy
  revert h
  generalize s.cores = l
  induction l with
  | nil => simp [mapSet, hy]
  | cons e l ih =>
    obtain ⟨k, x⟩ := e
    intro h
    rw [List.forall_mem_cons] at h
    rw [mapSet]
    split
    · simp only [List.forall_mem_cons]; exact ⟨hy, h⟩
    · split
      · simp only [List.forall_mem_cons]; exact ⟨hy, h.2⟩
      · simp only [List.forall_mem_cons]; exact ⟨h.1, ih h.2⟩

section
variable {s : State} {m : Miss} {g : Tag} {token : W64}

/-- A tag that takes the scope its readers need leaves none of them outside (R315). -/
theorem rescopeTag_covers (h : ∀ q ∈ m.readers, inScope m.need g.core q = true) : rescopeTag s g m =
    markRelease { s with tags := (s.tags.map fun x =>
      if x.word = g.word then { x with scope := m.need } else x).filter fun x => x.scope != .sy }
      g.core g.uid g.id m.need false := by
  have inside : (m.readers.filter fun r => !inScope m.need g.core r) = [] := by
    rw [List.filter_eq_nil_iff]
    intro q hq
    simp [h q hq]
  simp only [rescopeTag, inside, List.isEmpty_nil, if_true]

/-- The tag of the word, with its new scope. -/
theorem tagOf_rescoped (ht : tagOf s m.word = some g) (hn : m.need ≠ .sy) :
    ((s.tags.map fun x => if x.word = g.word then { x with scope := m.need } else x).filter fun x =>
      x.scope != .sy).find? (fun x => x.word == m.word) = some { g with scope := m.need } := by
  have hw : g.word = m.word := by simpa using List.find?_some ht
  rw [List.find?_filter, List.find?_map, hw]
  have same : ((fun x : Tag => x.scope != .sy && x.word == m.word) ∘
      fun x => if x.word = m.word then { x with scope := m.need } else x) = fun x => x.word == m.word := by
    funext x
    by_cases hx : x.word = m.word
    · simp [hx, hn]
    · simp [hx]
  simp only [Bool.decide_and, Bool.decide_eq_true]
  rw [same]
  show Option.map _ (tagOf s m.word) = _
  rw [ht]
  simp [hw]

/-- The machine once a miss of a tag has ended, and has been counted where its core asked for the widening itself. -/
def missEnded (s : State) (m : Miss) (g : Tag) : State :=
  let e : State := { s with misses := s.misses.filter fun x => x.token != m.token }
  if m.auto then countMiss e g.core 16 else e

theorem missEnded_tags : (missEnded s m g).tags = s.tags := by
  unfold missEnded
  dsimp only
  split <;> rfl

@[simp] theorem me_countMiss (s : State) (c : CoreId) (lo : Nat) : me (countMiss s c lo) = me s := by
  unfold countMiss
  exact me_modCore _ _ fun _ => rfl

theorem me_missEnded : me (missEnded s m g) = me s := by
  unfold missEnded
  dsimp only
  split
  · rw [me_countMiss]; rfl
  · rfl

theorem noneParked_of_slots {word : Nat} {k j : Core} (h : j.slots = k.slots) (hk : NoneParked word k) :
    NoneParked word j := by
  unfold NoneParked
  rw [h]
  exact hk

theorem ready_noneParked {word : Nat} (h : ∀ e ∈ s.cores, NoneParked word e.2) :
    ∀ e ∈ (ready s).cores, NoneParked word e.2 := by
  refine forall_cores_modCore h (noneParked_reset word) fun k hk i => ?_
  by_cases hi : s.slot.val = i.val
  · obtain rfl : s.slot = i := Fin.ext hi
    simpa using hk s.slot
  · simpa [hi] using hk i

theorem countMiss_noneParked {word : Nat} {c : CoreId} {lo : Nat} (h : ∀ e ∈ s.cores, NoneParked word e.2) :
    ∀ e ∈ (countMiss s c lo).cores, NoneParked word e.2 := by
  unfold countMiss
  exact forall_cores_modCore h (noneParked_reset word) fun _ => noneParked_of_slots rfl

theorem missEnded_noneParked {word : Nat} (h : ∀ e ∈ s.cores, NoneParked word e.2) :
    ∀ e ∈ (missEnded s m g).cores, NoneParked word e.2 := by
  unfold missEnded
  dsimp only
  split
  · exact countMiss_noneParked h
  · exact h

theorem widenTag_tagged (ht : tagOf s m.word = some g) (hid : g.id = m.tagId) : widenTag s m =
    mapStrands (wakeWord (rescopeTag (missEnded s m g) g m) m.word) fun _ t => passWiden m.token t := by
  have there : tagOf { s with misses := s.misses.filter fun x => x.token != m.token } m.word = some g := ht
  simp only [widenTag, there, hid, if_true]
  rfl

/-- A widening that covers every reader of a word on which no request waits changes the tag of the word and no strand that
does not wait (R315). -/
theorem widenTag_covers (ht : tagOf s m.word = some g) (hid : g.id = m.tagId) (hn : m.need ≠ .sy)
    (hp : ∀ e ∈ s.cores, NoneParked m.word e.2) (hc : ∀ q ∈ m.readers, inScope m.need g.core q = true)
    (hw : (me s).wait = .none) :
    tagOf (widenTag s m) m.word = some { g with scope := m.need } ∧ me (widenTag s m) = me s := by
  have parked : parkedOn (rescopeTag (missEnded s m g) g m) m.word = [] := by
    rw [parkedOn_eq_nil, rescopeTag_covers hc]
    intro e he
    obtain ⟨k, hk, rfl⟩ := List.mem_map.1 he
    exact noneParked_of_slots rfl (missEnded_noneParked hp k hk)
  have woken : wakeWord (rescopeTag (missEnded s m g) g m) m.word =
      unparkWord (rescopeTag (missEnded s m g) g m) m.word := by
    unfold wakeWord
    rw [parked]
    rfl
  rw [widenTag_tagged ht hid, woken, rescopeTag_covers hc]
  constructor
  · show ((missEnded s m g).tags.map _ |>.filter _).find? _ = _
    rw [missEnded_tags]
    exact tagOf_rescoped ht hn
  · have kept : me (markRelease { missEnded s m g with tags := ((missEnded s m g).tags.map fun x =>
        if x.word = g.word then { x with scope := m.need } else x).filter fun x => x.scope != .sy }
        g.core g.uid g.id m.need false) = me s := (me_markRelease ..).trans me_missEnded
    rw [me_mapStrands, me_unparkWord, kept]
    simp [unpark, passWiden, hw]

/-- SMREL of a token that names no miss (R317). -/
theorem exec_smrelWrite_unknown (h : ∀ m ∈ s.misses, m.token ≠ token) :
    exec (.smrelWrite token) s = .next (advance (ready s) 4) := by
  have none : (ready s).misses.find? (fun m => m.token == token) = none := by
    rw [List.find?_eq_none]
    intro m hm
    simpa using h m hm
  refine csrEvent_goes_on (n := 0x381) (fun h => absurd h (by decide)) (fun w => ?_) (unstirred_of_me rfl)
  rw [csrWrite_wo rfl rfl]
  show smrelPut (ready s) token = _
  rw [smrelPut, none]

/-- SMREL of a miss whose widening waits for nothing (R317). -/
theorem exec_smrelWrite_widens (hm : s.misses.find? (fun x => x.token == token) = some m)
    (hr : widenReady (ready s) m = true) (hl : s.lazy = false) :
    exec (.smrelWrite token) s = .next (csrFinish (me (ready s)).uid (widenTag (ready s) m)) := by
  have found : (ready s).misses.find? (fun m => m.token == token) = some m := hm
  have eager : (ready s).lazy = false := hl
  refine csrEvent_next (n := 0x381) (fun h => absurd h (by decide)) fun w => ?_
  rw [csrWrite_wo rfl rfl]
  show smrelPut (ready s) token = _
  simp only [smrelPut, found, hr, eager]
  rfl

/-- SMREL of any other miss blocks its strand (R317). -/
theorem exec_smrelWrite_waits (hm : s.misses.find? (fun x => x.token == token) = some m)
    (h : widenReady (ready s) m = false ∨ s.lazy = true) : exec (.smrelWrite token) s = .next (modMe
      { ready s with misses := (ready s).misses.map fun x => if x.token = token then { x with asked := true } else x }
      fun x => { x with wait := .widen token }) := by
  have found : (ready s).misses.find? (fun m => m.token == token) = some m := hm
  have later : (widenReady (ready s) m && !(ready s).lazy) = false := by
    rcases h with h | h
    · rw [h]; rfl
    · rw [show (ready s).lazy = true from h, Bool.not_true, Bool.and_false]
  refine (csrEvent_next (n := 0x381) (t := modMe _ _) (fun h => absurd h (by decide)) fun w => ?_).trans
    (congrArg _ (if_pos ?_))
  · rw [csrWrite_wo rfl rfl]
    show smrelPut (ready s) token = _
    simp only [smrelPut, found, later]
    rfl
  · simp [widenBlocked]

end

/-- Settles O27: the CSR instructions by the class of the CSR, the other writes one by one. -/
theorem csrInstructions : Obligations.CsrInstructions := by
  unfold Obligations.CsrInstructions
  constructor
  · intro d a csr mask s r n x old privilegeOk put hp
    refine ⟨fun ho ha => ?_, fun ho hc => ?_, fun ho hc hx => ?_⟩
    · change execCsrr d csr s = _
      unfold execCsrr
      rw [csrChecked_allowed hp ha]
      refine compute_next rfl ho rfl ?_
      rw [writeS_inflight, csrLatch_inflight]
      exact List.Subset.refl _
    · have allowed (op : CsrOp) : csrAllows n op = true := by unfold csrAllows; rw [hc]
      have written (op : CsrOp) (i : Instr) (hv : csrValid n (csrNew op old x) = true) :
          csrModify op csr a i s = put (csrPut r n (csrNew op old x)) :=
        csrModify_next hp (allowed op) ho (by rw [csrWrite_rw hc]; exact if_pos hv) (csrPut_unstirred _ _ _)
      refine ⟨written .write _, written .set _, written .clear _, fun hv => ?_⟩
      exact csrModify_stop (x := .trap 0x01 _) hp (allowed .write) ho
        (by rw [csrWrite_rw hc]; exact if_neg (by rw [Bool.not_eq_true]; exact hv))
    · refine csrModify_next hp ?_ ho ?_ (csrClear_unstirred _ _ _)
      · unfold csrAllows; rw [hc]
      · unfold csrWrite; rw [hc]; exact if_pos hx
  · intro v n d va token m s r t asid merged marked fract ended rescoped widened
    have strand : me r = { me s with wait := .none } := me_ready s
    refine ⟨fun hv hd ho => exec_hirqWrite hv hd ho, fun hv => ?_, fun ho => ?_, fun hs ht => ?_, fun hs ht => ?_,
      fun hv => exec_containWrite hv, fun h => exec_smrelWrite_unknown h, fun hm => ⟨fun hr hl => ?_, fun h => ?_⟩,
      fun hs hk => ⟨?_, ?_, ?_⟩⟩
    · rw [exec_nactlWrite hv, nactlPut, strand]
    · rw [exec_nalRead ho, csrLatch_nal, csrRead_nal]
    · exact tlbinv_event hs rfl ht
    · refine tlbinv_event hs ?_ ht
      show (bits _ 15 1 == 0 && bits _ 63 48 == 0) = true
      rw [bits_and_eq_zero _ _ _ _ (by decide), bits_and_eq_zero _ _ _ _ (by decide)]
      rfl
    · have named : token = m.token :=
        (beq_iff_eq.1 (List.find?_some (p := fun x : Miss => x.token == token) hm)).symm
      have step : widened = widenTag r m := by
        subst named
        rfl
      rw [step, exec_smrelWrite_widens hm hr hl]
      refine ⟨rfl, fun g ht hid hn hp hc => ?_⟩
      obtain ⟨tagged, kept⟩ := widenTag_covers (s := r) ht hid hn (ready_noneParked (parkedOn_eq_nil.1 hp)) hc
        (by rw [strand])
      exact ⟨tagged, by rw [csrFinish_goes_on (unstirred_of_me kept)]⟩
    · exact exec_smrelWrite_waits hm h
    · exact fract_event hs hk rfl rfl
    · exact fract_event hs hk rfl rfl
    · exact fract_event hs hk rfl rfl

end Sys2Proof.Machine
end

section
/-!
SRSEED stays legal (O57): the invariant of the generators taken apart, what keeps it outside the cores, and the
operations of memory, its homes and the reductions. A lemma `f_seeds` says that f keeps every generator apart from 0.
-/
namespace Sys2Proof.Machine

/-! ## The invariant, taken apart -/

/-- No core of a map has the reserved value in its generator. -/
def CoresLegal (m : Map Core) : Prop := ∀ e ∈ m, e.2.srseed ≠ 0

theorem seedsLegal_iff {s : State} :
    SeedsLegal s ↔ CoresLegal s.cores ∧ ∀ p ∈ s.parts, ∀ x ∈ p.2.saved, CoresLegal x.cores := Iff.rfl

theorem mem_mapSet {α : Type} {k : Nat} {v : α} {m : Map α} {e : Nat × α} (h : e ∈ mapSet k v m) :
    e = (k, v) ∨ e ∈ m := by
  induction m with
  | nil => exact .inl (List.mem_singleton.1 h)
  | cons a t ih =>
    unfold mapSet at h
    split at h
    · exact List.mem_cons.1 h
    split at h
    · exact (List.mem_cons.1 h).imp_right (List.mem_cons_of_mem a)
    · rcases List.mem_cons.1 h with rfl | ht
      · exact .inr List.mem_cons_self
      · exact (ih ht).imp_right (List.mem_cons_of_mem a)

/-- A property of every record listed, and of the record of an unlisted number, is one of every record got. -/
theorem mapGet_of_forall {α : Type} {P : α → Prop} {d : α} {m : Map α} (hd : P d) (hm : ∀ e ∈ m, P e.2) (k : Nat) :
    P (mapGet d m k) := by
  induction m with
  | nil => exact hd
  | cons a t ih =>
    unfold mapGet
    split
    · exact hm _ List.mem_cons_self
    · exact ih fun e he => hm e (List.mem_cons_of_mem a he)

theorem mem_of_mapFind {α : Type} {m : Map α} {k : Nat} {v : α} (h : mapFind m k = some v) : (k, v) ∈ m := by
  induction m with
  | nil => cases h
  | cons a t ih =>
    unfold mapFind at h
    split at h
    · next hk => cases h; exact hk ▸ List.mem_cons_self
    · exact List.mem_cons_of_mem a (ih h)

theorem coresLegal_mapSet {m : Map Core} {c : CoreId} {k : Core} (hm : CoresLegal m) (hk : k.srseed ≠ 0) :
    CoresLegal (mapSet c k m) := by
  intro e he
  rcases mem_mapSet he with rfl | he
  · exact hk
  · exact hm e he

theorem coresLegal_map {m : Map Core} {g : Nat × Core → Nat × Core} (hm : CoresLegal m)
    (hg : ∀ e, e.2.srseed ≠ 0 → (g e).2.srseed ≠ 0) : CoresLegal (m.map g) := by
  intro e he
  obtain ⟨x, hx, rfl⟩ := List.mem_map.1 he
  exact hg x (hm x hx)

theorem coresLegal_filter {m : Map Core} {p : Nat × Core → Bool} (hm : CoresLegal m) : CoresLegal (m.filter p) :=
  fun e he => hm e (List.mem_filter.1 he).1

/-- A core that is not listed is as after reset (R46). -/
theorem coreOf_legal {s : State} (h : SeedsLegal s) (c : CoreId) : (coreOf s c).srseed ≠ 0 :=
  mapGet_of_forall (P := fun k : Core => k.srseed ≠ 0) (by decide) h.1 c

/-! ## Changes that keep every generator -/

section
variable {s t : State}

theorem withBonds_seeds {m : Map Bond} (h : SeedsLegal s) : SeedsLegal { s with bonds := m } := h

theorem withNet_seeds {l : List Packet} (h : SeedsLegal s) : SeedsLegal { s with net := l } := h

theorem withDev_seeds {d : Device} (h : SeedsLegal s) : SeedsLegal { s with dev := d } := h

/-- Cores and saved contexts hold every generator there is. -/
theorem SeedsLegal.of_eq (h : SeedsLegal s) (hc : t.cores = s.cores) (hp : t.parts = s.parts) :
    SeedsLegal t := by
  rw [seedsLegal_iff, hc, hp]; exact h

/-- A change of what the cores hold, their generators apart. -/
theorem SeedsLegal.of_cores {g : Nat × Core → Nat × Core} (h : SeedsLegal s)
    (hc : t.cores = s.cores.map g)
    (hg : ∀ e, (g e).2.srseed = e.2.srseed) (hp : t.parts = s.parts) : SeedsLegal t := by
  rw [seedsLegal_iff, hc, hp]
  exact ⟨coresLegal_map h.1 fun e he => hg e ▸ he, h.2⟩

theorem withCores_seeds {g : Nat × Core → Nat × Core} (h : SeedsLegal s) (hg : ∀ e, (g e).2.srseed = e.2.srseed) :
    SeedsLegal { s with cores := s.cores.map g } := h.of_cores rfl hg rfl

theorem ite_seeds {p : Prop} [Decidable p] (hs : SeedsLegal s) (ht : SeedsLegal t) : SeedsLegal (if p then s else t) :=
  iteInduction (fun _ => hs) fun _ => ht

/-- A change that is made under a condition. -/
theorem iteSelf_seeds {p : Prop} [Decidable p] (ht : SeedsLegal s → SeedsLegal t) (h : SeedsLegal s) :
    SeedsLegal (if p then t else s) := ite_seeds (ht h) h

theorem foldl_seeds {α : Type} {f : State → α → State} (hf : ∀ s x, SeedsLegal s → SeedsLegal (f s x)) (l : List α)
    (h : SeedsLegal s) : SeedsLegal (l.foldl f s) := by
  induction l generalizing s with
  | nil => exact h
  | cons x l ih => exact ih (hf s x h)

theorem setCore_seeds {c : CoreId} {k : Core} (h : SeedsLegal s) (hk : k.srseed ≠ 0) : SeedsLegal (setCore s c k) :=
  ⟨coresLegal_mapSet h.1 hk, h.2⟩

/-- A change of a core that gives a legal generator for a legal one. -/
theorem modCore_seeds_of {c : CoreId} {f : Core → Core} (h : SeedsLegal s)
    (hf : ∀ k, k.srseed ≠ 0 → (f k).srseed ≠ 0) : SeedsLegal (modCore s c f) :=
  setCore_seeds h (hf _ (coreOf_legal h c))

theorem modCore_seeds {c : CoreId} {f : Core → Core} (h : SeedsLegal s)
    (hf : ∀ k, (f k).srseed = k.srseed) : SeedsLegal (modCore s c f) :=
  modCore_seeds_of h fun k hk => hf k ▸ hk

/-- A change of a partition whose saved contexts are ones it had, or as legal. -/
theorem modPart_seeds_of {p : Nat} {f : Partition → Partition} (h : SeedsLegal s)
    (hf : (∀ x ∈ (partOf s p).saved, CoresLegal x.cores) → ∀ x ∈ (f (partOf s p)).saved, CoresLegal x.cores) :
    SeedsLegal (modPart s p f) := by
  refine ⟨h.1, fun q hq => ?_⟩
  rcases mem_mapSet hq with rfl | hq
  · exact hf (mapGet_of_forall (P := fun q : Partition => ∀ x ∈ q.saved, CoresLegal x.cores)
      (by intro x hx; cases hx) h.2 p)
  · exact h.2 q hq

theorem modPart_seeds {p : Nat} {f : Partition → Partition} (h : SeedsLegal s)
    (hf : ∀ q, ∀ x ∈ (f q).saved, x ∈ q.saved) : SeedsLegal (modPart s p f) :=
  modPart_seeds_of h fun hs x hx => hs x (hf _ x hx)

/-- A change of what the partitions hold that saves no other context. -/
theorem SeedsLegal.of_parts {g : Nat × Partition → Nat × Partition} (h : SeedsLegal s)
    (hp : t.parts = s.parts.map g)
    (hg : ∀ e, ∀ x ∈ (g e).2.saved, x ∈ e.2.saved) (hc : t.cores = s.cores) : SeedsLegal t := by
  rw [seedsLegal_iff, hc, hp]
  refine ⟨h.1, fun q hq => ?_⟩
  obtain ⟨e, he, rfl⟩ := List.mem_map.1 hq
  exact fun x hx => h.2 e he x (hg e x hx)

end

/-! ## What operations that may stop yield -/

/-- What r yields, if it does not stop, is as P says. -/
def Yields {ε α : Type} (P : α → Prop) : Except ε α → Prop
  | .ok a => P a
  | .error _ => True

section
variable {ε α β : Type} {P : α → Prop} {Q : β → Prop}

theorem yields_ok {a : α} (h : P a) : Yields (ε := ε) P (.ok a) := h

theorem Yields.elim {r : Except ε α} {a : α} (h : Yields P r) (hr : r = .ok a) : P a := by
  subst hr; exact h

theorem Yields.bind {r : Except ε α} {f : α → Except ε β} (h : Yields P r) (hf : ∀ a, P a → Yields Q (f a)) :
    Yields Q (r >>= f) := by
  cases r with
  | error e => exact trivial
  | ok a => exact hf a h

/-- A check before an operation. -/
theorem yields_after {r : Except ε α} {f : α → Except ε β} (hf : ∀ a, Yields Q (f a)) : Yields Q (r >>= f) :=
  Yields.bind (P := fun _ => True) (by cases r <;> exact trivial) fun a _ => hf a

theorem Yields.map {r : Except ε α} {f : α → β} (h : Yields P r) (hf : ∀ a, P a → Q (f a)) : Yields Q (r.map f) := by
  cases r with
  | error e => exact trivial
  | ok a => exact hf a h

theorem ite_yields {c : Prop} [Decidable c] {r r' : Except ε α} (h : Yields P r) (h' : Yields P r') :
    Yields P (if c then r else r') := iteInduction (fun _ => h) fun _ => h'

end

section
variable {s t : State}

theorem modStrand_seeds {c : CoreId} {i : Slot} {f : Strand → Strand} (h : SeedsLegal s) :
    SeedsLegal (modStrand s c i f) := modCore_seeds h fun _ => rfl

theorem modMe_seeds {f : Strand → Strand} (h : SeedsLegal s) : SeedsLegal (modMe s f) := modStrand_seeds h

theorem modStream_seeds {c : CoreId} {n : StreamId} {f : Stream → Stream} (h : SeedsLegal s) :
    SeedsLegal (modStream s c n f) := modCore_seeds h fun _ => rfl

theorem modTicket_seeds {c : CoreId} {i : Fin 4} {f : Ticket → Ticket} (h : SeedsLegal s) :
    SeedsLegal (modTicket s c i f) := modCore_seeds h fun _ => rfl

theorem modCluster_seeds {cl : Nat} {f : Cluster → Cluster} (h : SeedsLegal s) : SeedsLegal (modCluster s cl f) :=
  h.of_eq rfl rfl

theorem modJob_seeds {j : Nat} {f : Job → Job} (h : SeedsLegal s) : SeedsLegal (modJob s j f) := h.of_eq rfl rfl

theorem modQueue_seeds {q : Nat} {f : Queue → Queue} (h : SeedsLegal s) : SeedsLegal (modQueue s q f) :=
  h.of_eq rfl rfl

theorem modBond_seeds {b : Nat} {f : Bond → Bond} (h : SeedsLegal s) : SeedsLegal (modBond s b f) := by
  unfold modBond
  split
  · exact h.of_eq rfl rfl
  · exact h

theorem modDie_seeds {d : Fin 4} {f : Die → Die} (h : SeedsLegal s) : SeedsLegal (modDie s d f) := h.of_eq rfl rfl

theorem modChan_seeds {c : CoreId} {ch : Fin 3} {f : Channel → Channel} (h : SeedsLegal s) :
    SeedsLegal (modChan s c ch f) := by
  unfold modChan
  split
  · exact modCore_seeds h fun _ => rfl
  · exact h.of_eq rfl rfl

theorem raiseFlags_seeds {c : CoreId} {f : BitVec 6} (h : SeedsLegal s) : SeedsLegal (raiseFlags s c f) :=
  modCluster_seeds h

theorem openRaised_seeds {c : CoreId} (h : SeedsLegal s) : SeedsLegal (openRaised s c) :=
  ite_seeds h (modCluster_seeds h)

theorem closeRaised_seeds {c : CoreId} (h : SeedsLegal s) : SeedsLegal (closeRaised s c) :=
  ite_seeds h (modCluster_seeds h)

theorem clearFlags_seeds {c : CoreId} {a : W64} (h : SeedsLegal s) : SeedsLegal (clearFlags s c a) :=
  modCluster_seeds h

theorem addFlags_seeds {c : CoreId} {i : Slot} {fl : Flags} (h : SeedsLegal s) : SeedsLegal (addFlags s c i fl) :=
  ite_seeds h (raiseFlags_seeds (modStrand_seeds h))

theorem rekey_seeds {word key : Nat} (h : SeedsLegal s) : SeedsLegal (rekey s word key) :=
  ite_seeds h (ite_seeds (h.of_eq rfl rfl) (h.of_eq rfl rfl))

theorem putWord_seeds {word key : Nat} {mask : BitVec 8} {val : W64} (h : SeedsLegal s) :
    SeedsLegal (putWord s word key mask val) := (rekey_seeds h).of_eq rfl rfl

theorem poisonWord_seeds {word : Nat} (h : SeedsLegal s) : SeedsLegal (poisonWord s word) := h.of_eq rfl rfl

theorem setPresent_seeds {word : Nat} (h : SeedsLegal s) : SeedsLegal (setPresent s word) := h.of_eq rfl rfl

theorem clearPresent_seeds {word : Nat} (h : SeedsLegal s) : SeedsLegal (clearPresent s word) := h.of_eq rfl rfl

theorem unparkWord_seeds {word : Nat} (h : SeedsLegal s) : SeedsLegal (unparkWord s word) :=
  h.of_cores rfl (fun _ => rfl) rfl

theorem setTag_seeds {word : Nat} {t : Option Tag} (h : SeedsLegal s) : SeedsLegal (setTag s word t) := by
  unfold setTag
  split
  · exact h
  · exact unparkWord_seeds (h.of_cores rfl (fun _ => rfl) rfl)

theorem countMiss_seeds {c : CoreId} {lo : Nat} (h : SeedsLegal s) : SeedsLegal (countMiss s c lo) :=
  modCore_seeds h fun _ => rfl

theorem sendMiss_seeds {t : Tag} {rs : List Reader} (h : SeedsLegal s) : SeedsLegal (sendMiss s t rs) :=
  h.of_eq rfl rfl

theorem parkMiss_seeds {r : Reader} {word : Nat} (h : SeedsLegal s) : SeedsLegal (parkMiss s r word) := by
  unfold parkMiss
  split
  · exact h
  · exact ite_seeds h (ite_seeds (h.of_eq rfl rfl) (sendMiss_seeds h))

theorem putBytes_seeds {loc key n : Nat} {val : W64} (h : SeedsLegal s) : SeedsLegal (putBytes s loc key n val) :=
  putWord_seeds h

theorem parkReq_seeds {c : CoreId} {p : Pending} {loc : Nat} (h : SeedsLegal s) :
    SeedsLegal (parkReq s c p loc).2 := by
  unfold parkReq
  split
  · exact h
  · split
    · exact h
    · exact h.of_eq rfl rfl

theorem readPart_seeds {c : CoreId} {uid : Nat} {p : Pending} {j : Nat} {q : Part} (h : SeedsLegal s) :
    SeedsLegal (readPart s c uid p j q).2 := by
  unfold readPart
  split
  · exact h
  · exact parkMiss_seeds (parkReq_seeds h)

theorem genPart_seeds {c : CoreId} {uid : Nat} {p : Pending} {j : Nat} {q : Part} {b : W32} (h : SeedsLegal s) :
    SeedsLegal (genPart s c uid p j q b).2 := by
  unfold genPart
  dsimp only
  split
  · exact h
  split
  · exact parkMiss_seeds (parkReq_seeds h)
  split
  · exact h
  · exact parkReq_seeds h

theorem rmwPart_seeds {c : CoreId} {slot : Slot} {uid : Nat} {p : Pending} {j : Nat} {q : Part} (h : SeedsLegal s) :
    SeedsLegal (rmwPart s c slot uid p j q).2 := by
  unfold rmwPart
  dsimp only
  split
  · exact h
  split
  · exact parkMiss_seeds (parkReq_seeds h)
  split
  · exact h
  split
  · exact h
  · split
    · exact setTag_seeds (putBytes_seeds h)
    · exact putBytes_seeds h

theorem performPart_seeds {c : CoreId} {slot : Slot} {uid : Nat} {p : Pending} {j : Nat} (h : SeedsLegal s) :
    SeedsLegal (performPart s c slot uid p j).2 := by
  unfold performPart
  split
  · exact h
  split
  · exact h
  split
  · exact h
  split
  · exact readPart_seeds h
  · split
    · exact readPart_seeds h
    · exact parkReq_seeds h
  · split
    · exact h
    · exact clearPresent_seeds h
  · exact genPart_seeds h
  all_goals exact rmwPart_seeds h

theorem performParts_seeds {c : CoreId} {slot : Slot} {uid : Nat} {p : Pending} (k : Nat) (h : SeedsLegal s) :
    SeedsLegal (performParts s c slot uid p k).2 := by
  induction k with
  | zero => exact h
  | succ k ih => exact performPart_seeds ih

theorem performReq_seeds {c : CoreId} {slot : Slot} {uid : Nat} {p : Pending} (h : SeedsLegal s) :
    SeedsLegal (performReq s c slot uid p).2 := performParts_seeds _ h

theorem retryReq_seeds {c : CoreId} {slot : Slot} {seq : Nat} (h : SeedsLegal s) :
    SeedsLegal (retryReq s c slot seq) := by
  unfold retryReq
  dsimp only
  split
  · exact h
  · exact ite_seeds h (modStrand_seeds (performReq_seeds h))

theorem wakeWord_seeds {word : Nat} (h : SeedsLegal s) : SeedsLegal (wakeWord s word) :=
  unparkWord_seeds (foldl_seeds (fun _ _ h => retryReq_seeds h) _ h)

theorem wakeLine_seeds {word : Nat} (h : SeedsLegal s) : SeedsLegal (wakeLine s word) :=
  foldl_seeds (fun _ _ h => wakeWord_seeds h) _ h

theorem homeWrite_seeds {word key : Nat} {mask : BitVec 8} {val : W64} {tag : Option Tag} (h : SeedsLegal s) :
    SeedsLegal (homeWrite s word key mask val tag) := wakeWord_seeds (setTag_seeds (putWord_seeds h))

theorem postFault_seeds {agent : Fin 20} {m : FaultMsg} (h : SeedsLegal s) : SeedsLegal (postFault s agent m) :=
  SeedsLegal.of_eq (modCore_seeds (c := m.core)
    (f := fun k => { k with agentSeq := k.agentSeq.set agent (k.agentSeq[agent] + 1) }) h fun _ => rfl) rfl rfl

theorem rejectStore_seeds {c : CoreId} {e : StoreEntry} (h : SeedsLegal s) : SeedsLegal (rejectStore s c e) :=
  modCore_seeds (postFault_seeds h) fun _ => rfl

theorem performStore_seeds {c : CoreId} {e : StoreEntry} (h : SeedsLegal s) : SeedsLegal (performStore s c e) := by
  unfold performStore
  split
  · exact rejectStore_seeds h
  · exact wakeWord_seeds (setTag_seeds (iteSelf_seeds poisonWord_seeds (putWord_seeds (modCore_seeds h fun _ => rfl))))

theorem normAdd_seeds {part die n : Nat} {x : Int} (h : SeedsLegal s) : SeedsLegal (normAdd s part die n x) :=
  modPart_seeds h fun _ _ hx => hx

theorem normWrite_seeds {part die n : Nat} {word key : Nat} {mask : BitVec 2} {v : W64} (h : SeedsLegal s) :
    SeedsLegal (normWrite s part die n word key mask v) := normAdd_seeds (homeWrite_seeds h)

theorem mapOrders_seeds {f : Nat → Nat → OrdKind → Order → Order} (h : SeedsLegal s) :
    SeedsLegal (mapOrders s f) := h.of_cores rfl (fun _ => rfl) rfl

theorem markRelease_seeds {c : CoreId} {uid seq : Nat} {sc : Scope} {uo : Bool} (h : SeedsLegal s) :
    SeedsLegal (markRelease s c uid seq sc uo) := mapOrders_seeds h

theorem markAcquire_seeds {c : CoreId} {uid : Nat} {sc : Scope} (h : SeedsLegal s) :
    SeedsLegal (markAcquire s c uid sc) := mapOrders_seeds h

theorem rejectRed_seeds {c : CoreId} {r : Reduction} (h : SeedsLegal s) : SeedsLegal (rejectRed s c r) :=
  modCore_seeds (postFault_seeds h) fun _ => rfl

theorem performRed_seeds {c : CoreId} {r : Reduction} (h : SeedsLegal s) : SeedsLegal (performRed s c r) := by
  unfold performRed
  dsimp only
  split
  · exact parkMiss_seeds h
  split
  · exact rejectRed_seeds h
  split
  · exact modCore_seeds (normWrite_seeds h) fun _ => rfl
  · refine modCore_seeds ?_ fun _ => rfl
    split
    · exact wakeWord_seeds (setTag_seeds (putBytes_seeds h))
    · exact putBytes_seeds h

theorem ackRed_seeds {c : CoreId} {r : Reduction} (h : SeedsLegal s) : SeedsLegal (ackRed s c r) :=
  modCore_seeds h fun _ => rfl

theorem dropUnit_seeds {die : Fin 4} {u : ShadowUnit} (h : SeedsLegal s) : SeedsLegal (dropUnit s die u) :=
  modDie_seeds h

theorem rejectUnit_seeds {die : Fin 4} {u : ShadowUnit} (h : SeedsLegal s) : SeedsLegal (rejectUnit s die u) := by
  unfold rejectUnit
  split
  · exact dropUnit_seeds h
  · exact rejectRed_seeds (modCore_seeds (dropUnit_seeds h) fun _ => rfl)

theorem mergeShadow_seeds {die : Fin 4} {u : ShadowUnit} (h : SeedsLegal s) : SeedsLegal (mergeShadow s die u) := by
  unfold mergeShadow
  dsimp only
  split
  · exact rejectUnit_seeds h
  · exact dropUnit_seeds (iteSelf_seeds poisonWord_seeds (putBytes_seeds h))

theorem mergeUnits_seeds {die : Fin 4} {u : ShadowUnit} (h : SeedsLegal s) : SeedsLegal (mergeUnits s die u) :=
  ite_seeds (foldl_seeds (fun _ _ h => mergeShadow_seeds h) _ h) h

theorem joinUnit_seeds {c : CoreId} {r : Reduction} (h : SeedsLegal s) : SeedsLegal (joinUnit s c r) := modDie_seeds h

theorem combineShadow_seeds {c : CoreId} {r : Reduction} (h : SeedsLegal s) : SeedsLegal (combineShadow s c r) := by
  have merged := foldl_seeds (fun s u h => mergeUnits_seeds (die := dieOf c) (u := u) h) (otherUnits s.dies[dieOf c] r) h
  exact ite_seeds h (ite_seeds (rejectRed_seeds h) (ite_seeds h (ite_seeds h (modCore_seeds (joinUnit_seeds merged) fun _ => rfl))))

end

end Sys2Proof.Machine
end

section
/-!
SRSEED stays legal (O57): translation, streams, seams, strands and barriers.
-/
namespace Sys2Proof.Machine

variable {s t : State}

/-- The state that goes with a result. -/
theorem seeds_of_snd {α : Type} {r : α × State} {x : α} (h : SeedsLegal r.2) (hr : r = (x, t)) : SeedsLegal t := by
  subst hr; exact h

theorem tlbFill_seeds {c : CoreId} {fetch engine : Bool} {e : TlbEntry} (h : SeedsLegal s) :
    SeedsLegal (tlbFill s c fetch engine e) :=
  ite_seeds (modDie_seeds h) (modCore_seeds (modCluster_seeds (modDie_seeds h)) fun k => by split <;> rfl)

/-- The state that a checked access leaves, if it goes on. -/
def ChkLegal : Chk → Prop
  | .ok _ t => SeedsLegal t
  | .violation | .fault _ _ _ | .await => True

theorem throughLeaf_seeds {w : Who} {use : Use} {va : W64} {t : TlbEntry} (h : SeedsLegal s) :
    ChkLegal (throughLeaf s w use va t) := iteInduction (motive := ChkLegal) (fun _ => trivial) fun _ => h

theorem translate_seeds {w : Who} {use : Use} {inline_ : Bool} {va : W64} (h : SeedsLegal s) :
    ChkLegal (translate s w use inline_ va) := by
  unfold translate
  dsimp only
  split
  · exact throughLeaf_seeds h
  split
  · exact trivial
  split
  · exact trivial
  · exact trivial
  split
  · exact throughLeaf_seeds (tlbFill_seeds h)
  · exact trivial
  · exact trivial

theorem checkAddr_seeds {w : Who} {use : Use} {inline_ : Bool} {ea : W64} (h : SeedsLegal s) :
    ChkLegal (checkAddr s w use inline_ ea) := by
  unfold checkAddr
  split
  · exact trivial
  · exact iteInduction (motive := ChkLegal) (fun _ => h) fun _ => trivial
  · exact translate_seeds h

theorem elemAddr_seeds {w : Who} {use : Use} {a : W64} {off : Nat} (h : SeedsLegal s) :
    ChkLegal (elemAddr s w use a off) :=
  iteInduction (motive := ChkLegal) (fun _ => trivial) fun _ => checkAddr_seeds h

theorem ChkLegal.elim {r : Ref} {x : Chk} (h : ChkLegal x) (hx : x = .ok r t) : SeedsLegal t := by
  subst hx; exact h

theorem useCtx_seeds {c : CoreId} {l : Port} {owner : Transfer} (h : SeedsLegal s) :
    SeedsLegal (useCtx s c l owner) := modCore_seeds h fun _ => rfl

theorem closeCtxs_seeds (h : SeedsLegal s) : SeedsLegal (closeCtxs s) := h.of_cores rfl (fun _ => rfl) rfl

theorem crossSeams_seeds {c : CoreId} {loc : Nat} {owner : Transfer} (h : SeedsLegal s) :
    SeedsLegal (crossSeams s c loc owner) := by
  unfold crossSeams
  split
  · exact foldl_seeds (fun _ _ h => useCtx_seeds h) _ h
  · exact h

theorem readElem_seeds {s : State} {c : CoreId} {sid : StreamId} {w : Who} {pres : Bool} {a : W64}
    (l : List (Nat × Nat)) (h : SeedsLegal s) : SeedsLegal (readElem s c sid w pres a l).2 := by
  induction l generalizing s with
  | nil => exact h
  | cons e l ih =>
    unfold readElem
    split
    · exact h
    · exact h
    · exact h
    next r s' hok =>
      have h' := (elemAddr_seeds h).elim hok
      split
      · exact h'
      split
      · exact parkMiss_seeds h'
      split
      · exact h'
      · have rest := ih (crossSeams_seeds (c := c) (loc := r.loc) (owner := .stream c sid) h')
        split
        · next hrest => rw [hrest] at rest; exact rest
        · exact rest

theorem streamFetch_seeds {c : CoreId} {n : StreamId} (h : SeedsLegal s) : SeedsLegal (streamFetch s c n) := by
  unfold streamFetch
  dsimp only
  split
  · exact h
  split
  · exact modStream_seeds h
  split
  · exact modStream_seeds h
  split
  all_goals next hread => exact modStream_seeds (seeds_of_snd (readElem_seeds _ h) hread)

theorem streamPost_seeds {c : CoreId} {n : StreamId} {idx : Nat} {m : FaultMsg} (h : SeedsLegal s) :
    SeedsLegal (streamPost s c n idx m) := modStream_seeds (postFault_seeds h)

theorem checkElem_seeds {c : CoreId} {w : Who} {a : W64} (l : List (Nat × Nat)) (h : SeedsLegal s) :
    Yields (fun x => SeedsLegal x.2) (checkElem s c w a l) := by
  induction l generalizing s with
  | nil => exact h
  | cons e l ih =>
    unfold checkElem
    split
    · exact trivial
    · exact trivial
    · exact trivial
    next hok =>
      have h' := (elemAddr_seeds h).elim hok
      refine ite_yields trivial (ite_yields trivial (ite_yields trivial ?_))
      have rest := ih h'
      split
      · next hrest =>
        have h'' := rest.elim hrest
        exact h''
      · exact trivial

theorem streamPerform_seeds {c : CoreId} {n : StreamId} (h : SeedsLegal s) : SeedsLegal (streamPerform s c n) := by
  unfold streamPerform
  dsimp only
  split
  · exact h
  split
  · exact h
  split
  · exact h
  split
  · exact h
  · exact streamPost_seeds h
  · next hok =>
      refine foldl_seeds (fun s x h => ?_) _ (modStream_seeds ((checkElem_seeds _ h).elim hok))
      exact wakeWord_seeds (setTag_seeds (iteSelf_seeds setPresent_seeds (iteSelf_seeds poisonWord_seeds
        (putBytes_seeds (crossSeams_seeds h)))))

theorem popStream_seeds {c : CoreId} {n : StreamId} {vec : Bool} (h : SeedsLegal s) :
    SeedsLegal (popStream s c n vec) := modStream_seeds h

theorem pushStream_seeds {c : CoreId} {n : StreamId} {vec : Bool} {v : W256} (h : SeedsLegal s) :
    SeedsLegal (pushStream s c n vec v) := modStream_seeds h

theorem pushLink_seeds {c : CoreId} {l : Port} {e : PortEntry} (h : SeedsLegal s) :
    SeedsLegal (pushLink s c l e) := by
  unfold pushLink
  split
  · exact modCore_seeds h fun _ => rfl
  split
  · exact modCore_seeds h fun _ => rfl
  · exact h

theorem popLink_seeds {c : CoreId} {l : Port} (h : SeedsLegal s) : SeedsLegal (popLink s c l) := by
  unfold popLink
  split
  · exact h
  dsimp only
  split
  · exact modStream_seeds (modCore_seeds h fun _ => rfl)
  · exact modCore_seeds h fun _ => rfl

theorem withdraw_seeds {c : CoreId} {n : StreamId} (h : SeedsLegal s) : SeedsLegal (withdraw s c n) := by
  unfold withdraw
  dsimp only
  split
  · exact h
  refine ite_seeds h (modStream_seeds ?_)
  split
  · exact modCore_seeds (modCore_seeds h fun _ => rfl) fun _ => rfl
  · exact modCore_seeds h fun _ => rfl

theorem unbind_seeds {c : CoreId} {n : StreamId} (h : SeedsLegal s) : SeedsLegal (unbind s c n) :=
  modStream_seeds (withdraw_seeds h)

theorem boundPush_seeds {c : CoreId} {n : StreamId} (h : SeedsLegal s) : SeedsLegal (boundPush s c n) := by
  unfold boundPush
  dsimp only
  split
  · exact h
  split
  · exact h
  split
  · exact h
  split
  · exact streamPost_seeds h
  split
  · exact h
  exact ite_seeds h (modStream_seeds (pushLink_seeds (iteSelf_seeds useCtx_seeds h)))

theorem boundPop_seeds {c : CoreId} {n : StreamId} (h : SeedsLegal s) : SeedsLegal (boundPop s c n) := by
  unfold boundPop
  dsimp only
  split
  · exact h
  split
  · exact h
  split
  · exact h
  · exact ite_seeds h (modStream_seeds (popLink_seeds h))

theorem seamForward_seeds {c : CoreId} {l : Port} (h : SeedsLegal s) : SeedsLegal (seamForward s c l) := by
  unfold seamForward
  split
  · exact ite_seeds h (modCore_seeds (modCore_seeds h fun _ => rfl) fun _ => rfl)
  · exact h

theorem mapStrands_seeds {f : CoreId → Strand → Strand} (h : SeedsLegal s) : SeedsLegal (mapStrands s f) :=
  h.of_cores rfl (fun _ => rfl) rfl

theorem setBar_seeds {b : Nat} {l : BarLevel} {cl : Nat} {x : Barrier} (h : SeedsLegal s) :
    SeedsLegal (setBar s b l cl x) := modBond_seeds h

theorem acquireBarrier_seeds {b : Nat} {l : BarLevel} {cl : Nat} {ph : W32} (h : SeedsLegal s) :
    SeedsLegal (acquireBarrier s b l cl ph) := foldl_seeds (fun _ _ h => markAcquire_seeds h) _ h

theorem settleBarrier_seeds {b : Nat} {l : BarLevel} {cl : Nat} (h : SeedsLegal s) :
    SeedsLegal (settleBarrier s b l cl) := ite_seeds h (mapStrands_seeds (acquireBarrier_seeds (setBar_seeds h)))

theorem joinBarriers_seeds {b : Nat} {c : CoreId} {uid : Nat} (h : SeedsLegal s) :
    SeedsLegal (joinBarriers s b c uid) := setBar_seeds (setBar_seeds h)

theorem arriveBarrier_seeds {b : Nat} {l : BarLevel} {cl uid : Nat} (h : SeedsLegal s) :
    SeedsLegal (arriveBarrier s b l cl uid) := settleBarrier_seeds (setBar_seeds h)

theorem leaveBarrier_seeds {b : Nat} {l : BarLevel} {cl uid : Nat} (h : SeedsLegal s) :
    SeedsLegal (leaveBarrier s b l cl uid) := ite_seeds (settleBarrier_seeds (setBar_seeds h)) h

theorem leaveSlot_seeds {c : CoreId} {i : Slot} (h : SeedsLegal s) : SeedsLegal (leaveSlot s c i) := by
  unfold leaveSlot
  dsimp only
  split
  · exact modStrand_seeds h
  · exact leaveBarrier_seeds (leaveBarrier_seeds (modStrand_seeds h))

theorem putStrand_seeds {c : CoreId} {i : Slot} {t : Strand} (h : SeedsLegal s) : SeedsLegal (putStrand s c i t) :=
  markAcquire_seeds (modStrand_seeds h)

theorem advanceTimeline_seeds {job tl : Nat} {v : W64} (h : SeedsLegal s) :
    SeedsLegal (advanceTimeline s job tl v) := modJob_seeds h

theorem sendMsix_seeds {vec : Nat} (h : SeedsLegal s) : SeedsLegal (sendMsix s vec) := h.of_eq rfl rfl

theorem markDone_seeds {q n : Nat} (h : SeedsLegal s) : SeedsLegal (markDone s q n) := modQueue_seeds h

theorem stopQueue_seeds {q : Nat} {cause : Byte} {index : Nat} (h : SeedsLegal s) :
    SeedsLegal (stopQueue s q cause index) := modQueue_seeds h

theorem failPacket_seeds {q : Nat} {cause : Byte} {index : Nat} (h : SeedsLegal s) :
    SeedsLegal (failPacket s q cause index) := stopQueue_seeds (modQueue_seeds h)

end Sys2Proof.Machine
end

section
/-!
SRSEED stays legal (O57): gangs, from the claim of their cores to the end of their pulses.
-/
namespace Sys2Proof.Machine

variable {s t : State}

theorem releaseCores_seeds {c : CoreId} {i : Fin 4} (h : SeedsLegal s) : SeedsLegal (releaseCores s c i) :=
  h.of_cores rfl (fun _ => rfl) rfl

theorem refuseClaim_seeds {c : CoreId} {i : Fin 4} {reason : BitVec 4} {u v : Nat} (h : SeedsLegal s) :
    SeedsLegal (refuseClaim s c i reason u v) :=
  ite_seeds (modTicket_seeds (releaseCores_seeds h)) (modTicket_seeds (modTicket_seeds (releaseCores_seeds h)))

theorem faultGang_seeds {c : CoreId} {i : Fin 4} {cause : Byte} {u v pulse : Nat} (h : SeedsLegal s) :
    SeedsLegal (faultGang s c i cause u v pulse) := modTicket_seeds h

theorem kPut_srseed (k : Core) (i : Nat) (x : W32) : (kPut k i x).srseed = k.srseed := by
  unfold kPut; split <;> rfl

theorem kPutLanes_srseed (k : Core) (l : List (Nat × W32)) : (kPutLanes k l).srseed = k.srseed := by
  unfold kPutLanes
  induction l generalizing k with
  | nil => rfl
  | cons e l ih => exact (ih _).trans (kPut_srseed k e.1 e.2)

theorem freezeCells_seeds {s : State} {c : CoreId} {i : Fin 4} {d : W512} {p : PairShape} (l : List CoreId)
    (h : SeedsLegal s) : SeedsLegal (freezeCells s c i d p l) := by
  induction l generalizing s with
  | nil => exact h
  | cons k l ih =>
    refine ih ?_
    have frozen := modCore_seeds (c := k) (f := fun x => if gdKeep d || !takesPart d (cellU d k) (cellV d k)
      then freezeCore x (.gang c i) else kPutLanes (freezeCore x (.gang c i)) ((cellLanes d p).map fun l => (l, 0))) h
      fun x => by split; exacts [rfl, kPutLanes_srseed _ _]
    exact iteSelf_seeds faultGang_seeds (modTicket_seeds frozen)

theorem freezeGang_seeds {c : CoreId} {i : Fin 4} {d : W512} {p : PairShape} {cs : List CoreId} (h : SeedsLegal s) :
    SeedsLegal (freezeGang s c i d p cs) := by
  unfold freezeGang
  split
  · exact parkMiss_seeds h
  · exact modTicket_seeds (freezeCells_seeds _ h)

theorem claimCores_seeds {s : State} {c : CoreId} {i : Fin 4} {d : W512} (l : List CoreId) (h : SeedsLegal s) :
    SeedsLegal (claimCores s c i d l) := by
  induction l generalizing s with
  | nil => exact h
  | cons k l ih => exact ite_seeds (refuseClaim_seeds h) (ih (modCore_seeds h fun _ => rfl))

theorem claimGang_seeds {c : CoreId} {i : Fin 4} {cell : Option CoreId} (h : SeedsLegal s) :
    SeedsLegal (claimGang s c i cell) := by
  unfold claimGang
  dsimp only
  split
  · exact h
  split
  · exact refuseClaim_seeds h
  · exact h
  · exact iteSelf_seeds freezeGang_seeds (claimCores_seeds _ h)

theorem unbindLink_seeds {o : CoreId} {l : Port} (h : SeedsLegal s) : SeedsLegal (unbindLink s o l) :=
  foldl_seeds (fun _ _ h => ite_seeds (unbind_seeds h) h) _ h

theorem clearCell_seeds {d : W512} {e : Nat × Nat} (h : SeedsLegal s) : SeedsLegal (clearCell d s e) := by
  unfold clearCell
  split
  · exact h
  · exact modCore_seeds h fun k => by dsimp only; split <;> split <;> rfl

theorem clearEdges_seeds {d : W512} (h : SeedsLegal s) : SeedsLegal (clearEdges s d) :=
  foldl_seeds (fun _ _ h => clearCell_seeds h) _ (foldl_seeds (fun _ _ h => unbindLink_seeds h) _ h)

theorem mergeGangFlags_seeds {c : CoreId} {t : Ticket} (h : SeedsLegal s) : SeedsLegal (mergeGangFlags s c t) :=
  ite_seeds (addFlags_seeds h) (raiseFlags_seeds h)

theorem thawGang_seeds {c : CoreId} {i : Fin 4} {state : GangState} {pulse : Nat} {cause : Byte} {u v : Nat}
    (h : SeedsLegal s) : SeedsLegal (thawGang s c i state pulse cause u v) :=
  modTicket_seeds (clearEdges_seeds (releaseCores_seeds (mergeGangFlags_seeds h)))

theorem modCell_seeds {x : CellAt} {k : CoreId} {f : Cell → Cell} (h : SeedsLegal s) :
    SeedsLegal (modCell s x k f) := modTicket_seeds h

theorem cellFault_seeds {x : CellAt} {cause : Byte} (h : SeedsLegal s) : SeedsLegal (cellFault s x cause) :=
  faultGang_seeds h

theorem latchEntry_seeds {k : CoreId} (h : SeedsLegal s) : SeedsLegal (latchEntry s k) := by
  unfold latchEntry
  split
  · exact h
  dsimp only
  split
  · split
    · exact h
    split
    · exact cellFault_seeds h
    split
    · exact ite_seeds h (modCell_seeds (pushLink_seeds (popLink_seeds h)))
    · exact modCell_seeds (modCore_seeds (popLink_seeds h) fun k => kPutLanes_srseed k _)
  · exact h

theorem forward_seeds {k : CoreId} {on : Bool} {l : Port} {data : Nat} {tag : BitVec 7} (h : SeedsLegal s) :
    SeedsLegal (forward s k on l data tag) := ite_seeds (pushLink_seeds h) h

theorem endPulse_seeds {x : CellAt} {k : CoreId} {lanes : List (Nat × W32)} {fl : Flags} {zpiv : Bool}
    (h : SeedsLegal s) : SeedsLegal (endPulse s x k lanes fl zpiv) :=
  modCell_seeds (modCore_seeds h fun k => kPutLanes_srseed k _)

theorem boundaryStep_seeds {x : CellAt} {k : CoreId} {sa sb : Nat × Bool} (h : SeedsLegal s) :
    SeedsLegal (boundaryStep s x k sa sb) := by
  unfold boundaryStep
  dsimp only
  exact ite_seeds (cellFault_seeds h) (ite_seeds (cellFault_seeds h)
    (modCell_seeds (modCore_seeds h fun k => kPutLanes_srseed k _)))

theorem firePulseRs_seeds {x : CellAt} {k : CoreId} {a b : PortEntry} {scales : Option ((Nat × Bool) × (Nat × Bool))}
    (h : SeedsLegal s) : SeedsLegal (firePulseRs s x k a b scales) := by
  unfold firePulseRs
  split
  · refine ite_seeds (cellFault_seeds h) ?_
    have fired {lanes : List (Nat × W32)} {fl : Flags} {s₁ : State} (h₁ : SeedsLegal s₁) :=
      endPulse_seeds (x := x) (k := k) (lanes := lanes) (fl := fl) (zpiv := false) h₁
    dsimp only
    split
    · exact boundaryStep_seeds (fired (forward_seeds (forward_seeds (popLink_seeds (popLink_seeds h)))))
    · exact fired (forward_seeds (forward_seeds (popLink_seeds (popLink_seeds h))))
  · exact h

theorem firePulseWs_seeds {x : CellAt} {k : CoreId} {a : PortEntry} {sums : Option PortEntry} {sc : Nat × Bool}
    (h : SeedsLegal s) : SeedsLegal (firePulseWs s x k a sums sc) := by
  unfold firePulseWs
  split
  · split
    · exact cellFault_seeds h
    · refine ite_seeds (cellFault_seeds h) (ite_seeds (cellFault_seeds h) ?_)
      exact modCell_seeds (endPulse_seeds (forward_seeds (forward_seeds
        (iteSelf_seeds popLink_seeds (popLink_seeds h)))))
  · exact cellFault_seeds h

theorem firePulseGiv_seeds {x : CellAt} {k : CoreId} {a : Option PortEntry} {b : PortEntry} (h : SeedsLegal s) :
    SeedsLegal (firePulseGiv s x k a b) := by
  unfold firePulseGiv
  refine ite_seeds (cellFault_seeds h) ?_
  split
  · exact endPulse_seeds (forward_seeds (popLink_seeds h))
  · exact endPulse_seeds (forward_seeds (forward_seeds (popLink_seeds (popLink_seeds h))))

theorem pulseCell_seeds {k : CoreId} (h : SeedsLegal s) : SeedsLegal (pulseCell s k) := by
  unfold pulseCell
  split
  · exact h
  refine ite_seeds h ?_
  split
  · refine ite_seeds h ?_
    split
    · exact parkMiss_seeds h
    · exact firePulseRs_seeds h
  · refine ite_seeds h ?_
    split
    · exact parkMiss_seeds h
    · exact firePulseWs_seeds h
  · exact ite_seeds (ite_seeds (firePulseGiv_seeds h) h) (ite_seeds h (firePulseGiv_seeds h))
  · exact h

theorem requestThaw_seeds {c : CoreId} {i : Fin 4} {preempt : Bool} (h : SeedsLegal s) :
    SeedsLegal (requestThaw s c i preempt) := ite_seeds h (modTicket_seeds h)

theorem preemptThaw_seeds {c : CoreId} {i : Fin 4} (h : SeedsLegal s) : SeedsLegal (preemptThaw s c i) := by
  unfold preemptThaw
  dsimp only
  split
  · exact h
  · exact ite_seeds h (thawGang_seeds h)

theorem readScales_seeds {s : State} {c : CoreId} {i : Fin 4} {d : W512} {p : PairShape} (l : List (CoreId × Cell))
    (h : SeedsLegal s) : SeedsLegal (readScales s c i d p l).1 := by
  induction l generalizing s with
  | nil => exact h
  | cons e l ih =>
    unfold readScales
    split
    · exact ih h
    split
    · exact parkMiss_seeds h
    split
    · exact faultGang_seeds h
    · exact ih (modTicket_seeds h)

theorem epilogueAt_seeds {c : CoreId} {i : Fin 4} {n u v : Nat} (h : SeedsLegal s) :
    SeedsLegal (epilogueAt s c i n u v) := modTicket_seeds h

theorem drainStore_seeds {c : CoreId} {i : Fin 4} {r : Ref} {es code : Nat} {poison : Bool} (h : SeedsLegal s) :
    SeedsLegal (drainStore s c i r es code poison) :=
  iteSelf_seeds poisonWord_seeds (homeWrite_seeds (crossSeams_seeds h))

theorem epilogue_seeds {s : State} {c : CoreId} {i : Fin 4} {p : PairShape} {n : Nat}
    (l : List ((Nat × Nat) × (Nat × Nat) × Nat)) (h : SeedsLegal s) : SeedsLegal (epilogue s c i p n l).1 := by
  induction l generalizing s n with
  | nil => exact h
  | cons w l ih =>
    unfold epilogue
    dsimp only
    split
    · exact ih h
    split
    · exact ih h
    split
    · exact faultGang_seeds h
    split
    · exact faultGang_seeds (modTicket_seeds h)
    have marked {f : Ticket → Ticket} : SeedsLegal (modTicket s c i f) := modTicket_seeds h
    split
    · exact faultGang_seeds marked
    · exact epilogueAt_seeds marked
    · exact modTicket_seeds (epilogueAt_seeds (postFault_seeds marked))
    next hok =>
      have h' := (checkAddr_seeds marked).elim hok
      split
      · exact faultGang_seeds h'
      split
      · exact faultGang_seeds h'
      split
      · exact epilogueAt_seeds h'
      · exact ih (drainStore_seeds h')

theorem completeGang_seeds {c : CoreId} {i : Fin 4} (h : SeedsLegal s) : SeedsLegal (completeGang s c i) := by
  unfold completeGang
  dsimp only
  split
  · exact h
  refine ite_seeds h ?_
  have read {l : List ((Nat × Nat) × (Nat × Nat) × Nat)} {p : PairShape} :
      SeedsLegal (if l.isEmpty then (s, true) else readScales s c i (coreOf s c).tickets[i].desc p
        (coreOf s c).tickets[i].cells).1 := by
    split
    · exact h
    · exact readScales_seeds _ h
  have written {q : State × Bool} {p : PairShape} {n : Nat} {l : List ((Nat × Nat) × (Nat × Nat) × Nat)}
      (hq : SeedsLegal q.1) : SeedsLegal (if q.2 then epilogue q.1 c i p n l else q).1 := by
    split
    · exact epilogue_seeds _ hq
    · exact hq
  exact iteSelf_seeds thawGang_seeds (written read)

theorem moveCells_seeds {t : Ticket} (h : SeedsLegal s) : SeedsLegal (moveCells s t) := by
  refine foldl_seeds (fun s k h => seamForward_seeds (seamForward_seeds (pulseCell_seeds (latchEntry_seeds h)))) _ ?_
  refine foldl_seeds (fun s e h => seamForward_seeds ?_) _ h
  exact foldl_seeds (fun s n h => ite_seeds (boundPush_seeds (streamFetch_seeds h)) h) _ h

theorem drainCells_seeds {s : State} {c : CoreId} {i : Fin 4} {n : Nat} (k : Nat) (h : SeedsLegal s) :
    SeedsLegal (drainCells c i n k s) := by
  induction k generalizing s with
  | zero => exact h
  | succ k ih => exact ite_seeds h (ih (moveCells_seeds h))

theorem endGang_seeds {c : CoreId} {i : Fin 4} (h : SeedsLegal s) : SeedsLegal (endGang s c i) := by
  unfold endGang
  dsimp only
  refine ite_seeds (modTicket_seeds (releaseCores_seeds h)) ?_
  have stopped {n : Nat} {m : Nat} := completeGang_seeds (c := c) (i := i) (drainCells_seeds (c := c) (i := i) (n := n) m
    (requestThaw_seeds (c := c) (i := i) (preempt := false) (modTicket_seeds (c := c) (i := i)
      (f := fun t => { t with thawReq := true }) h)))
  refine ite_seeds stopped ?_
  split
  · exact thawGang_seeds stopped
  · exact thawGang_seeds stopped

end Sys2Proof.Machine
end

section
/-!
SRSEED stays legal (O57): what ends commands, strands, bonds and jobs, and the answers to faults.
-/
namespace Sys2Proof.Machine

variable {s t : State}

theorem finishCopy_seeds {c : CoreId} {ch : Fin 3} {n : Nat} {o : Byte} (h : SeedsLegal s) :
    SeedsLegal (finishCopy s c ch n o) := by
  unfold finishCopy
  split
  · exact h
  dsimp only
  split
  · exact markDone_seeds (modChan_seeds h)
  · exact modChan_seeds h

theorem finishFoot_seeds {c : CoreId} {n : Nat} {o : Byte} (h : SeedsLegal s) : SeedsLegal (finishFoot s c n o) :=
  foldl_seeds (fun _ _ h => wakeLine_seeds h) _ (modCore_seeds h fun _ => rfl)

theorem releaseSeqCores_seeds {die : Fin 4} {q : Fin 8} (h : SeedsLegal s) :
    SeedsLegal (releaseSeqCores s die q) := h.of_cores rfl (fun _ => rfl) rfl

theorem leaveComponent_seeds {die : Fin 4} {q : Fin 8} (h : SeedsLegal s) : SeedsLegal (leaveComponent s die q) := by
  unfold leaveComponent
  dsimp only
  split
  · split
    · exact iteSelf_seeds clearEdges_seeds (releaseSeqCores_seeds h)
    · exact releaseSeqCores_seeds h
  · exact releaseSeqCores_seeds h

theorem finishSeq_seeds {die : Fin 4} {q : Fin 8} {n : Nat} {o : Byte} (h : SeedsLegal s) :
    SeedsLegal (finishSeq s die q n o) := by
  unfold finishSeq
  dsimp only
  split
  · exact h
  have left {f : Die → Die} : SeedsLegal (modDie (leaveComponent s die q) die f) :=
    modDie_seeds (leaveComponent_seeds h)
  split
  · refine mapStrands_seeds (raiseFlags_seeds ?_)
    split
    · exact modBond_seeds left
    · exact left
  · refine raiseFlags_seeds ?_
    split
    · exact modBond_seeds left
    · exact left

theorem thawTickets_seeds {c : CoreId} {b : Nat} (h : SeedsLegal s) : SeedsLegal (thawTickets s c b) :=
  foldl_seeds (fun _ _ h => modTicket_seeds h) _ h

theorem dropTickets_seeds {c : CoreId} {b : Nat} (h : SeedsLegal s) : SeedsLegal (dropTickets s c b) :=
  foldl_seeds (fun _ _ h => endGang_seeds h) _ h

theorem dropTags_seeds {gone : Tag → Bool} (h : SeedsLegal s) : SeedsLegal (dropTags s gone) :=
  foldl_seeds (fun _ _ h => wakeWord_seeds (setTag_seeds h)) _ h

theorem abandonWrites_seeds {c : CoreId} {uid : Nat} (h : SeedsLegal s) : SeedsLegal (abandonWrites s c uid) :=
  dropTags_seeds (modCore_seeds h fun _ => rfl)

theorem killStrand_seeds {c : CoreId} {i : Slot} (h : SeedsLegal s) : SeedsLegal (killStrand s c i) :=
  abandonWrites_seeds (leaveSlot_seeds h)

theorem cancelCore_seeds {c : CoreId} {b : Nat} (h : SeedsLegal s) : SeedsLegal (cancelCore s c b) := by
  refine foldl_seeds (fun _ _ h => finishFoot_seeds h) _ ?_
  exact foldl_seeds (fun _ _ h => finishCopy_seeds h) _ h

theorem cancelSeq_seeds {x : Bond} {inCluster : Nat → Bool} (h : SeedsLegal s) :
    SeedsLegal (cancelSeq s x inCluster) := by
  unfold cancelSeq
  split
  · exact h
  · exact foldl_seeds (fun _ _ h => finishSeq_seeds h) _ h

theorem killPart_seeds {b : Nat} {inCluster : Nat → Bool} {now : Bool} (h : SeedsLegal s) :
    SeedsLegal (killPart s b inCluster now) := by
  refine foldl_seeds (fun s c h => ite_seeds (dropTickets_seeds (cancelCore_seeds h))
    (thawTickets_seeds (cancelCore_seeds h))) _ ?_
  have killed := foldl_seeds (f := fun s e => killStrand s e.1 e.2.1) (fun _ _ h => killStrand_seeds h)
    (bondStrands s b inCluster) h
  have abandoned := withCores_seeds
    (g := fun e => if inCluster (clusterIdx e.1) then (e.1, abandonEnded e.2) else e) killed fun e => by split <;> rfl
  split
  · exact cancelSeq_seeds (dropTags_seeds abandoned)
  · exact dropTags_seeds abandoned

theorem killCourse_seeds {b cl : Nat} (h : SeedsLegal s) : SeedsLegal (killCourse s b cl) := killPart_seeds h

theorem releaseSeqr_seeds {x : Bond} (h : SeedsLegal s) : SeedsLegal (releaseSeqr s x) := by
  unfold releaseSeqr
  split
  · exact modDie_seeds h
  · exact h

theorem freeClusters_seeds {x : Bond} (h : SeedsLegal s) : SeedsLegal (freeClusters s x) :=
  foldl_seeds (fun _ _ h => modCluster_seeds h) _ h

theorem stopBond_seeds {b : Nat} (h : SeedsLegal s) : SeedsLegal (stopBond s b) := by
  unfold stopBond
  split
  · exact h
  next x _ =>
    have cleared := withCores_seeds
      (g := fun e => if (bondClusters x).contains (clusterIdx e.1) then (e.1, clearCore e.2) else e)
      (killPart_seeds (b := b) (inCluster := fun cl => (bondClusters x).contains cl) (now := true) h)
      fun e => by split <;> rfl
    refine withBonds_seeds (freeClusters_seeds (releaseSeqr_seeds (withNet_seeds (foldl_seeds (fun s p h => ?_) _ cleared))))
    split
    · exact markDone_seeds h
    · exact h

theorem killBond_seeds {b : Nat} {cause : Byte} (h : SeedsLegal s) : SeedsLegal (killBond s b cause) := by
  unfold killBond
  split
  · exact h
  · exact markDone_seeds (modQueue_seeds (stopBond_seeds h))

theorem dropSavedBond_seeds {cause : Byte} {e : Nat × Bond} (h : SeedsLegal s) :
    SeedsLegal (dropSavedBond cause s e) :=
  markDone_seeds (modQueue_seeds (dropTags_seeds (releaseSeqr_seeds (cancelSeq_seeds h))))

theorem dropSaved_seeds {j : Nat} {cause : Byte} (h : SeedsLegal s) : SeedsLegal (dropSaved s j cause) := by
  refine SeedsLegal.of_parts (foldl_seeds (fun s x h => ?_) _ h) rfl
    (fun e x hx => (List.mem_filter.1 hx).1) rfl
  refine foldl_seeds (fun _ _ h => markDone_seeds h) _ ?_
  exact foldl_seeds (fun _ _ h => dropSavedBond_seeds h) _ h

theorem dropUnits_seeds {q : WorkUnit → Bool} (h : SeedsLegal s) : SeedsLegal { s with
    parts := s.parts.map fun e => (e.1, { e.2 with units := e.2.units.filter q }) } := h.of_parts rfl (fun _ _ hx => hx) rfl

theorem killJob_seeds {j : Nat} {cause : Byte} (h : SeedsLegal s) : SeedsLegal (killJob s j cause) := by
  unfold killJob
  refine modJob_seeds (foldl_seeds (fun _ _ h => stopQueue_seeds h) _ ?_)
  refine dropUnits_seeds (foldl_seeds (fun _ _ h => markDone_seeds h) _ (dropSaved_seeds ?_))
  exact foldl_seeds (fun _ _ h => killBond_seeds h) _ h

theorem queueFanned_seeds {b : Nat} {x : Bond} {c : CoreId} {first t n : Nat} (h : SeedsLegal s) :
    SeedsLegal (queueFanned s b x c first t n) :=
  modCore_seeds (foldl_seeds (fun _ _ h => joinBarriers_seeds h) _ (h.of_eq rfl rfl)) fun _ => rfl

theorem restartFanned_seeds {s : State} {b : Nat} {x : Bond} {c : CoreId} {first n : Nat} (k : Nat)
    (h : SeedsLegal s) : SeedsLegal (restartFanned s b x c first n k) := by
  induction k generalizing s with
  | zero => exact h
  | succ k ih =>
    unfold restartFanned
    dsimp only
    split
    · exact queueFanned_seeds h
    · exact ih (joinBarriers_seeds (putStrand_seeds (h.of_eq rfl rfl)))

theorem restartCourse_seeds {b cl : Nat} (h : SeedsLegal s) : SeedsLegal (restartCourse s b cl) := by
  unfold restartCourse
  split
  · exact h
  · exact foldl_seeds (fun _ _ h => restartFanned_seeds _ h) _ (killCourse_seeds h)

theorem requeueBond_seeds {b : Nat} {left : Option (Nat × Nat × Nat)} (h : SeedsLegal s) :
    SeedsLegal (requeueBond s b left) := by
  unfold requeueBond
  split
  · exact h
  · exact modPart_seeds ((stopBond_seeds h).of_eq rfl rfl) fun _ _ hx => hx

theorem restartUnits_seeds {bs : List Nat} {level : Nat} (h : SeedsLegal s) :
    SeedsLegal (restartUnits s bs level) := by
  refine foldl_seeds (fun s b h => ?_) _ h
  split
  · exact h
  · exact requeueBond_seeds h

theorem modCopy_seeds {c : CoreId} {ch : Fin 3} {n : Nat} {f : CopyCmd → CopyCmd} (h : SeedsLegal s) :
    SeedsLegal (modCopy s c ch n f) := modChan_seeds h

theorem modFoot_seeds {c : CoreId} {n : Nat} {f : FootCmd → FootCmd} (h : SeedsLegal s) :
    SeedsLegal (modFoot s c n f) := modCore_seeds h fun _ => rfl

theorem modSeq_seeds {die : Fin 4} {q : Fin 8} {n : Nat} {f : SeqCmd → SeqCmd} (h : SeedsLegal s) :
    SeedsLegal (modSeq s die q n f) := modDie_seeds h

theorem endSeq_seeds {die : Fin 4} {q : Fin 8} {n : Nat} {o : Byte} (h : SeedsLegal s) :
    SeedsLegal (endSeq s die q n o) := modSeq_seeds (leaveComponent_seeds h)

theorem resumeAgent_seeds {m : FaultMsg} (a : Agent) (h : SeedsLegal s) : SeedsLegal (resumeAgent s m a) := by
  cases a with
  | strand c i => exact modStrand_seeds (iteSelf_seeds modStream_seeds h)
  | stream | ticket => exact modCore_seeds h fun _ => rfl
  | copy => exact modCopy_seeds h
  | foot => exact modFoot_seeds h
  | seq => exact modSeq_seeds h
  | store | red => exact modCore_seeds h fun _ => rfl

theorem skipAgent_seeds {_m : FaultMsg} (a : Agent) (h : SeedsLegal s) : SeedsLegal (skipAgent s _m a) := by
  cases a with
  | strand => exact modStrand_seeds h
  | stream | ticket => exact modCore_seeds h fun _ => rfl
  | copy => exact modCopy_seeds h
  | foot => exact finishFoot_seeds h
  | seq => exact endSeq_seeds h
  | store | red => exact modCore_seeds h fun _ => rfl

theorem killAgent_seeds (a : Agent) (h : SeedsLegal s) : SeedsLegal (killAgent s a) := by
  cases a with
  | stream => exact modStream_seeds (unbind_seeds h)
  | copy => exact finishCopy_seeds h
  | foot => exact finishFoot_seeds h
  | seq => exact endSeq_seeds h
  | ticket => exact modTicket_seeds h
  | strand | store | red => exact h

theorem useRetry_seeds {b : Nat} {cl l : Nat} (h : SeedsLegal s) : SeedsLegal (useRetry s b cl l) := by
  unfold useRetry
  split
  · exact h
  split
  · exact modBond_seeds h
  · exact modBond_seeds h
  · exact foldl_seeds (fun _ _ h => modBond_seeds h) _ h
  · exact foldl_seeds (fun _ _ h => modBond_seeds h) _ h

theorem killUnit_seeds {b cl : Nat} {cause : Byte} {l : Nat} (h : SeedsLegal s) :
    SeedsLegal (killUnit s b cl cause l) := by
  unfold killUnit
  split
  · exact h
  split
  · exact killCourse_seeds h
  · exact killBond_seeds h
  · exact foldl_seeds (fun _ _ h => killBond_seeds h) _ h
  · exact killJob_seeds h

theorem restartUnit_seeds {b cl : Nat} {l : Nat} (h : SeedsLegal s) : SeedsLegal (restartUnit s b cl l) := by
  unfold restartUnit
  split
  · exact h
  split
  · exact restartCourse_seeds h
  all_goals exact restartUnits_seeds h

theorem ignoreFault_seeds {w : Walker} (h : SeedsLegal s) : SeedsLegal (ignoreFault s w) := by
  unfold ignoreFault
  split
  · exact skipAgent_seeds _ h
  · exact h

theorem walkStrand_seeds {w : Walker} (h : SeedsLegal s) : ∀ t, walkStrand s w = some t → SeedsLegal t := by
  intro t ht
  unfold walkStrand at ht
  split at ht
  · cases ht
  dsimp only at ht
  split at ht
  · split at ht
    · cases ht
    · cases ht; exact ignoreFault_seeds h
  · cases ht; exact killStrand_seeds h
  · split at ht
    · cases ht
    · cases ht
      split
      · exact resumeAgent_seeds _ (modStrand_seeds h)
      · exact modStrand_seeds h
  · cases ht

theorem walkUp_seeds {w : Walker} {b : Nat} (l : List Nat) (h : SeedsLegal s) : SeedsLegal (walkUp s w b l) := by
  induction l with
  | nil => exact killUnit_seeds h
  | cons l rest ih =>
    unfold walkUp
    split
    · exact ite_seeds ih (ignoreFault_seeds h)
    · exact killUnit_seeds h
    · exact ite_seeds ih (restartUnit_seeds (useRetry_seeds h))
    · exact ih

theorem walk_seeds {m : FaultMsg} {agent : Option Agent} (h : SeedsLegal s) : SeedsLegal (walk s m agent) := by
  unfold walk
  dsimp only
  split
  · next hw => exact walkStrand_seeds h _ hw
  · exact walkUp_seeds _ h
  · exact h

theorem replyKill_seeds {m : FaultMsg} {a : Agent} (h : SeedsLegal s) : SeedsLegal (replyKill s m a) :=
  walk_seeds (killAgent_seeds _ h)

theorem applyReply_seeds {m : FaultMsg} {a : Agent} {act : Act} (h : SeedsLegal s) :
    SeedsLegal (applyReply s m a act) := by
  cases act with
  | resume => exact resumeAgent_seeds _ (h.of_eq rfl rfl)
  | skip => exact ite_seeds (replyKill_seeds (h.of_eq rfl rfl)) (skipAgent_seeds _ (h.of_eq rfl rfl))
  | kill => exact replyKill_seeds (h.of_eq rfl rfl)

theorem reply_seeds {part : Option Nat} {token : W64} {act : Act} (h : SeedsLegal s) :
    SeedsLegal (reply s part token act) := by
  unfold reply
  split
  · exact ite_seeds (ite_seeds (modPart_seeds h fun _ _ hx => hx) (applyReply_seeds h)) h
  · exact h

theorem walkWhenRunning_seeds {part : Nat} {m : FaultMsg} (h : SeedsLegal s) :
    SeedsLegal (walkWhenRunning s part m) := ite_seeds (modPart_seeds h fun _ _ hx => hx) (walk_seeds h)

theorem dropService_seeds {c : CoreId} {i : Slot} (h : SeedsLegal s) : SeedsLegal (dropService s c i) := by
  unfold dropService
  dsimp only
  split
  · exact reply_seeds (killStrand_seeds h)
  · exact killStrand_seeds h

theorem postAndWait_seeds {c : CoreId} {i : Slot} {len : Nat} {load : Option Nat} {m : FaultMsg} (h : SeedsLegal s) :
    SeedsLegal (postAndWait s c i len load m) := ite_seeds (dropService_seeds h) (modStrand_seeds (postFault_seeds h))

theorem takeTrap_seeds {len : Nat} {cause : Byte} {tval : W64} {wr : Bool} (h : SeedsLegal s) :
    SeedsLegal (takeTrap s len cause tval wr) :=
  ite_seeds (dropService_seeds h) (ite_seeds (postAndWait_seeds h) (modMe_seeds h))

theorem returnFromTrap_seeds (h : SeedsLegal s) : SeedsLegal (returnFromTrap s) := modMe_seeds h

end Sys2Proof.Machine
end

section
/-!
SRSEED stays legal (O57): register files, traps, loads and stores, engines and copies.
-/
namespace Sys2Proof.Machine

variable {s t : State}

theorem popView_seeds (l : View) (h : SeedsLegal s) : SeedsLegal (popView s l) := by
  unfold popView
  split
  · exact popStream_seeds h
  · exact popLink_seeds h

theorem popAll_seeds {vs : List View} (h : SeedsLegal s) : SeedsLegal (popAll s vs) :=
  foldl_seeds (fun _ v h => popView_seeds v h) _ h

theorem setG_seeds {i : Fin 24} {x : W64} (h : SeedsLegal s) : SeedsLegal (setG s i x) := modMe_seeds h

theorem setVWords_seeds {i : Fin 8} {words : BitVec 4} {x : W256} (h : SeedsLegal s) :
    SeedsLegal (setVWords s i words x) := modMe_seeds h

theorem setV_seeds {i : Fin 8} {x : W256} (h : SeedsLegal s) : SeedsLegal (setV s i x) := setVWords_seeds h

theorem setM_seeds {i : Fin 4} {x : W32} (h : SeedsLegal s) : SeedsLegal (setM s i x) := modMe_seeds h

theorem pushPort_seeds {p : Port} {x : W256} (h : SeedsLegal s) : SeedsLegal (pushPort s p x) :=
  ite_seeds (pushLink_seeds (h.of_eq rfl rfl)) (pushLink_seeds h)

theorem writeS_seeds {d : SReg} {x : W64} (h : SeedsLegal s) : SeedsLegal (writeS s d x) := by
  unfold writeS
  split
  · exact setG_seeds h
  · exact pushStream_seeds h
  · exact pushPort_seeds h

theorem writeV_seeds {d : VReg} {x : W256} (h : SeedsLegal s) : SeedsLegal (writeV s d x) := by
  unfold writeV
  split
  · exact setV_seeds h
  · exact pushStream_seeds h
  · exact pushPort_seeds h

theorem commitPops_seeds {s t : State} {pops : List View} (h : SeedsLegal t) : SeedsLegal (commitPops s t pops) :=
  ite_seeds (popAll_seeds h) (modMe_seeds h)

theorem ready_seeds (h : SeedsLegal s) : SeedsLegal (ready s) := modMe_seeds h

theorem dropBlocks_seeds (h : SeedsLegal s) : SeedsLegal (dropBlocks s) := modMe_seeds h

theorem sendBlock_seeds {ps : List Part} (h : SeedsLegal s) : SeedsLegal (sendBlock s ps) :=
  modMe_seeds (h.of_eq rfl rfl)

theorem stopStep_seeds {len : Nat} (l : Stop) (h : SeedsLegal s) : SeedsLegal (stopStep s len l) := by
  unfold stopStep
  split
  · exact modMe_seeds h
  · exact modMe_seeds h
  · exact modMe_seeds (parkMiss_seeds h)
  · exact sendBlock_seeds h
  · exact takeTrap_seeds (dropBlocks_seeds h)
  · exact postAndWait_seeds (dropBlocks_seeds h)

theorem advance_seeds {len : Nat} (h : SeedsLegal s) : SeedsLegal (advance s len) := modMe_seeds h

theorem access_seeds {use : Use} {va : W64} (h : SeedsLegal s) :
    Yields (fun x => SeedsLegal x.2) (access s use va) := by
  unfold access
  split
  · next hok => exact (checkAddr_seeds h).elim hok
  all_goals exact trivial

theorem takeSeq_seeds (h : SeedsLegal s) : SeedsLegal (takeSeq s).2 := h.of_eq rfl rfl

theorem markMine_seeds {sc : Scope} {uo : Bool} (h : SeedsLegal s) : SeedsLegal (markMine s sc uo) :=
  markRelease_seeds h

theorem raise_seeds {fl : Flags} (h : SeedsLegal s) : Yields SeedsLegal (raise s fl) :=
  ite_yields trivial (addFlags_seeds h)

theorem applyInc_seeds {b : Option (Fin 24 × W64)} (h : SeedsLegal s) : SeedsLegal (applyInc s b) := by
  unfold applyInc
  split
  · exact setG_seeds h
  · exact h

theorem writeLanes_seeds {d : VReg} {w : Nat} {mask : W32} {x : W256} (h : SeedsLegal s) :
    SeedsLegal (writeLanes s d w mask x) := by
  unfold writeLanes
  split
  · exact setVWords_seeds h
  · exact writeV_seeds h

theorem writeAnswer_seeds {p : Pending} (h : SeedsLegal s) : SeedsLegal (writeAnswer s p) := by
  have written : SeedsLegal (match p.dest with
      | .scalar d w sg => writeS s d (if sg then sext (assemble p.parts) w 64 else ((assemble p.parts).setWidth w).setWidth 64)
      | .vector d w m => writeLanes s d w m (assemble p.parts)
      | .nothing | .block => s) := by
    split
    · exact writeS_seeds h
    · exact writeLanes_seeds h
    all_goals exact h
  unfold writeAnswer
  dsimp only
  split
  · exact markAcquire_seeds (addFlags_seeds (applyInc_seeds written))
  · exact addFlags_seeds (applyInc_seeds written)

theorem checkPieces_seeds {use : Use} (l : List Piece) (h : SeedsLegal s) :
    Yields (fun x => SeedsLegal x.2) (checkPieces s use l) := by
  induction l generalizing s with
  | nil => exact h
  | cons p l ih =>
    unfold checkPieces
    split
    · next hok =>
      have rest := ih ((access_seeds h).elim hok)
      split
      · next hrest =>
        have h'' := rest.elim hrest
        exact h''
      · exact trivial
    · split
      all_goals exact trivial

theorem sendRequest_seeds {p : Pending} {len : Nat} (h : SeedsLegal s) : Yields SeedsLegal (sendRequest s p len) := by
  have kept {t : State} {q : Pending} {b : Bool} (h : SeedsLegal t) : SeedsLegal
      (if b then modMe (modMe t fun t => { t with inflight := t.inflight ++ [{ q with blocking := b }] }) fun t =>
          { t with wait := .answer }
        else advance (modMe t fun t => { t with inflight := t.inflight ++ [{ q with blocking := b }] }) len) :=
    ite_seeds (modMe_seeds (modMe_seeds h)) (advance_seeds (modMe_seeds h))
  unfold sendRequest
  dsimp only
  refine ite_yields (kept h) (ite_yields trivial (ite_yields ?_ (kept (performReq_seeds h))))
  split
  · exact trivial
  · exact advance_seeds (writeAnswer_seeds (performReq_seeds h))

theorem drainStores_seeds {s : State} {c : CoreId} {from_ : Nat} (k : Nat) (h : SeedsLegal s) :
    SeedsLegal (drainStores s c from_ k) := by
  induction k generalizing s with
  | zero => exact h
  | succ k ih =>
    unfold drainStores
    split
    · exact ih (performStore_seeds h)
    · exact h

theorem queueStores_seeds {es : List StoreEntry} (h : SeedsLegal s) : SeedsLegal (queueStores s es) :=
  ite_seeds (modCore_seeds h fun _ => rfl) (drainStores_seeds _ (modCore_seeds h fun _ => rfl))

theorem makeEntries_seeds {s : State} {tag : Option Scope} {each : Bool} {first : W64} (l : List (Chunk × Ref))
    (h : SeedsLegal s) : SeedsLegal (makeEntries s tag each first l).2 := by
  induction l generalizing s with
  | nil => exact h
  | cons e l ih => exact ih (ite_seeds (h.of_eq rfl rfl) h)

theorem storeChunks_seeds {cs : List Chunk} {tag : Option Scope} {each : Bool} (h : SeedsLegal s) :
    Yields SeedsLegal (storeChunks s cs tag each) := by
  refine (checkPieces_seeds _ h).bind fun ⟨l, s⟩ h => yields_after fun _ => ?_
  exact queueStores_seeds (makeEntries_seeds _ h)

theorem releasing_seeds {rel : Option Scope} (h : SeedsLegal s) : Yields SeedsLegal (releasing s rel) := by
  unfold releasing
  split
  · exact Yields.map (P := fun _ => True) (by unfold release; split <;> trivial) fun _ _ => markMine_seeds h
  · exact h

theorem atomicReq_seeds {kind : ReqKind} {ea : W64} {n : Nat} {d : Dest} {rel acq : Option Scope} (h : SeedsLegal s) :
    Yields SeedsLegal (atomicReq s kind ea n d rel acq) := by
  refine (access_seeds h).bind fun ⟨r, s⟩ h => yields_after fun _ => (releasing_seeds h).bind fun s h => ?_
  exact sendRequest_seeds (takeSeq_seeds h)

theorem loadPieces_seeds {ps : List Piece} {kind : ReqKind} {d : Dest} {base : Option (Fin 24 × W64)}
    {blocking : Bool} {acq : Option Scope} (h : SeedsLegal s) :
    Yields SeedsLegal (loadPieces s ps kind d base blocking acq) := by
  refine (checkPieces_seeds _ h).bind fun ⟨l, s⟩ h => yields_after fun _ => ?_
  exact sendRequest_seeds (takeSeq_seeds h)

theorem performNow_seeds {rs : List Reduction} (h : SeedsLegal s) : SeedsLegal (performNow s rs) := by
  refine foldl_seeds (fun s r h => ?_) _ h
  have done : SeedsLegal (if r.rp then combineShadow s s.cur r else performRed s s.cur r) :=
    ite_seeds (combineShadow_seeds h) (performRed_seeds h)
  dsimp only
  split
  · exact iteSelf_seeds ackRed_seeds done
  · exact done

theorem sendReductions_seeds {l : List (RedKind × W64 × Ref × Bool)} {rel : Option Scope} (h : SeedsLegal s) :
    Yields SeedsLegal (sendReductions s l rel) := by
  refine yields_after fun _ => ite_seeds ?_ (performNow_seeds ?_)
  all_goals
    refine modCore_seeds (takeSeq_seeds ?_) fun _ => rfl
    split
    · exact markMine_seeds h
    · exact h

theorem loadWords_seeds {s : State} {a : W64} (k i : Nat) (h : SeedsLegal s) :
    Yields (fun x => SeedsLegal x.2) (loadWords s a k i) := by
  induction k generalizing s i with
  | zero => exact h
  | succ k ih =>
    refine (access_seeds h).bind fun ⟨r, s⟩ h => yields_after fun _ => ?_
    dsimp only
    split
    · exact trivial
    · exact ite_yields trivial ((ih _ h).bind fun _ h => h)

theorem loadBlock_seeds {a : W64} (h : SeedsLegal s) : Yields (fun x => SeedsLegal x.2) (loadBlock s a) := by
  unfold loadBlock
  split
  · refine ite_yields trivial (ite_yields trivial ?_)
    split
    · exact trivial
    · exact modMe_seeds h
  · refine yields_after fun _ => ite_yields ?_ ?_
    · exact (checkPieces_seeds _ h).bind fun _ _ => yields_after fun _ => trivial
    · exact (loadWords_seeds _ _ h).bind fun _ h => h

theorem jumpBy_seeds {w : Nat} {off : BitVec w} (h : SeedsLegal s) : SeedsLegal (jumpBy s off) := modMe_seeds h

theorem putPresent_seeds (l : List (Nat × W64)) (h : SeedsLegal s) : SeedsLegal (putPresent s l) := by
  induction l generalizing s with
  | nil => exact h
  | cons e l ih => exact wakeWord_seeds (ih (setPresent_seeds (setTag_seeds (putWord_seeds h))))

theorem storePresent_seeds {l : List (W64 × W64)} {ea : W64} (h : SeedsLegal s) :
    Yields SeedsLegal (storePresent s l ea) :=
  yields_after fun _ => yields_after fun _ => yields_after fun _ => ite_yields trivial (putPresent_seeds _ h)

theorem rmwWords_seeds {s : State} {loc : Nat} (l : List W64) (h : SeedsLegal s) : SeedsLegal (rmwWords s loc l) := by
  induction l generalizing s loc with
  | nil => exact h
  | cons x l ih => exact ih (wakeWord_seeds (putWord_seeds h))

theorem portWrite_seeds {s : State} {loc : Nat} (l : List W64) (h : SeedsLegal s) : SeedsLegal (portWrite s loc l) := by
  induction l generalizing s loc with
  | nil => exact h
  | cons x l ih => exact ih (homeWrite_seeds h)

theorem claimRegs_seeds {d : GReg} {e : W64} {st c : Nat} (h : SeedsLegal s) : SeedsLegal (claimRegs s d e st c) :=
  setG_seeds (setG_seeds (setG_seeds (setG_seeds (setG_seeds h))))

theorem arrive_seeds {s : State} {l : BarLevel} {k : W32 → State → State}
    (hk : ∀ ph s, SeedsLegal s → SeedsLegal (k ph s)) (h : SeedsLegal s) : Yields SeedsLegal (arrive s l k) := by
  unfold arrive
  split
  · refine yields_after fun _ => ?_
    have arrived {ph : W32} := hk ph _ (takeSeq_seeds (markMine_seeds (sc := barScope l) (uo := false) h))
    exact ite_yields (modMe_seeds arrived) (arriveBarrier_seeds arrived)
  · exact trivial

theorem faultThaw_seeds {c : CoreId} {i : Fin 4} (h : SeedsLegal s) : SeedsLegal (faultThaw s c i) := by
  unfold faultThaw
  dsimp only
  split
  · exact h
  · exact ite_seeds h (iteSelf_seeds walkWhenRunning_seeds (thawGang_seeds h))

theorem engCheck_seeds {w : Who} {use : Use} {flash : Bool} {va : W64} (h : SeedsLegal s) :
    Yields (fun x => SeedsLegal x.2) (engCheck s w use flash va) := by
  unfold engCheck
  split
  · next hok => exact ite_yields trivial ((checkAddr_seeds h).elim hok)
  all_goals exact trivial

theorem engLoad_seeds {w : Who} {va : W64} {n : Nat} (h : SeedsLegal s) :
    Yields (fun x => SeedsLegal x.2) (engLoad s w va n) :=
  (engCheck_seeds h).bind fun ⟨_, _⟩ h => ite_yields trivial h

theorem engLoads_seeds {w : Who} {n : Nat} (l : List W64) (h : SeedsLegal s) :
    Yields (fun x => SeedsLegal x.2) (engLoads s w n l) := by
  induction l generalizing s with
  | nil => exact h
  | cons va l ih => exact (engLoad_seeds h).bind fun ⟨x, s⟩ h => (ih h).bind fun _ h => h

theorem engTarget_seeds {w : Who} {va : W64} {n : Nat} (h : SeedsLegal s) :
    Yields (fun x => SeedsLegal x.2) (engTarget s w va n) :=
  (engCheck_seeds h).bind fun ⟨_, _⟩ h => ite_yields trivial (ite_yields trivial (ite_yields trivial h))

theorem handCopy_seeds {ch : Fin 2} {words : W512} {tick : W64} (h : SeedsLegal s) :
    Yields (fun x => SeedsLegal x.2) (handCopy s ch words tick) :=
  ite_yields trivial (modChan_seeds (takeSeq_seeds h))

theorem copyCheck_seeds {ch : Fin 3} {m : CopyCmd} {use : Use} {va : W64} (h : SeedsLegal s) :
    Yields (fun x => SeedsLegal x.2) (copyCheck s ch m use va) := ite_yields trivial (engCheck_seeds h)

theorem copyPlace_seeds {ch : Fin 3} {m : CopyCmd} {use : Use} {va : W64} (h : SeedsLegal s) :
    Yields (fun x => SeedsLegal x.2) (copyPlace s ch m use va) := by
  unfold copyPlace
  split
  · exact h
  · exact copyCheck_seeds h

theorem markLate_seeds {c : CoreId} {ch : Fin 3} (h : SeedsLegal s) : SeedsLegal (markLate s c ch) := modChan_seeds h

theorem startCopy_seeds {c : CoreId} {ch : Fin 3} {n : Nat} (h : SeedsLegal s) : SeedsLegal (startCopy s c ch n) := by
  unfold startCopy
  split
  · exact h
  · exact ite_seeds h (iteSelf_seeds markLate_seeds (modCopy_seeds h))

theorem acceptCopy_seeds {c : CoreId} {ch : Fin 3} {m : CopyCmd} (h : SeedsLegal s) :
    SeedsLegal (acceptCopy s c ch m) :=
  ite_seeds (finishCopy_seeds h) (ite_seeds (finishCopy_seeds h) (ite_seeds (modCopy_seeds h)
    (ite_seeds (markLate_seeds (modCopy_seeds h)) (startCopy_seeds (modCopy_seeds h)))))

theorem copySeams_seeds {c : CoreId} {ch : Fin 3} {m : CopyCmd} {loc : Nat} (h : SeedsLegal s) :
    SeedsLegal (copySeams s c ch m loc) := ite_seeds h (crossSeams_seeds h)

theorem gatherWord_seeds {c : CoreId} {ch : Fin 3} {m : CopyCmd} (l : List (Nat × Nat × Nat)) (h : SeedsLegal s) :
    Yields (fun x => SeedsLegal x.2) (gatherWord s c ch m l) := by
  induction l generalizing s with
  | nil => exact h
  | cons e l ih =>
    refine (copyPlace_seeds h).bind fun ⟨r, s⟩ h => ite_yields trivial ?_
    exact (ih (copySeams_seeds h)).bind fun _ h => h

theorem landTarget_seeds {ch : Fin 3} {m : CopyCmd} {word : Nat} {mask : BitVec 8} (h : SeedsLegal s) :
    Yields (fun x => SeedsLegal x.2) (landTarget s ch m word mask) :=
  (copyPlace_seeds h).bind fun ⟨_, _⟩ h => ite_yields trivial (ite_yields trivial (ite_yields trivial h))

theorem gatherUnit_seeds {c : CoreId} {ch : Fin 3} {m : CopyCmd} (l : List Nat) (h : SeedsLegal s) :
    Yields (fun x => SeedsLegal x.2) (gatherUnit s c ch m l) := by
  induction l generalizing s with
  | nil => exact h
  | cons w l ih =>
    exact (gatherWord_seeds _ h).bind fun ⟨x, s⟩ h => (landTarget_seeds h).bind fun ⟨r, s⟩ h =>
      (ih h).bind fun _ h => h

theorem arrivalStep_seeds {d : W512} {n : Nat} (h : SeedsLegal s) :
    ∀ t, arrivalStep s d n = some t → SeedsLegal t := by
  intro t ht
  unfold arrivalStep at ht
  dsimp only at ht
  split at ht
  · cases ht; exact h
  split at ht
  · cases ht
  · cases ht; exact portWrite_seeds _ h

theorem landWord_seeds {c : CoreId} {ch : Fin 3} {m : CopyCmd} {word home key : Nat} {x : Landing} (h : SeedsLegal s)
    : SeedsLegal (landWord s c ch m word home key x) := by
  have landed {f : CopyCmd → CopyCmd} : SeedsLegal (modCopy (if cdPset m.words then
        wakeWord (setPresent (if x.poison then poisonWord (homeWrite (copySeams s c ch m home) home key x.mask x.val none)
          home else homeWrite (copySeams s c ch m home) home key x.mask x.val none) home) home
      else if x.poison then poisonWord (homeWrite (copySeams s c ch m home) home key x.mask x.val none) home
        else homeWrite (copySeams s c ch m home) home key x.mask x.val none) c ch m.n f) :=
    modCopy_seeds (iteSelf_seeds (fun h => wakeWord_seeds (setPresent_seeds h))
      (iteSelf_seeds poisonWord_seeds (homeWrite_seeds (copySeams_seeds h))))
  unfold landWord
  dsimp only
  split
  · next hs => exact arrivalStep_seeds landed _ hs
  · exact finishCopy_seeds landed

theorem landElement_seeds {c : CoreId} {ch : Fin 3} {m : CopyCmd} {word : Nat} (h : SeedsLegal s) :
    Yields SeedsLegal (landElement s c ch m word) := by
  unfold landElement
  split
  · exact ite_yields trivial (ite_yields trivial (landWord_seeds h))
  · refine (gatherUnit_seeds _ h).bind fun ⟨l, s⟩ h => ?_
    dsimp only
    split
    · exact landWord_seeds (modCopy_seeds h)
    · exact modCopy_seeds h

theorem flashLanding_seeds {c : CoreId} {ch : Fin 3} {m : CopyCmd} {e : Nat × Bool} (h : SeedsLegal s) :
    SeedsLegal (flashLanding s c ch m e) := ite_seeds (finishCopy_seeds h) (ite_seeds h (h.of_eq rfl rfl))

theorem landNow_seeds {c : CoreId} {ch : Fin 3} {n : Nat} {word : Nat} (h : SeedsLegal s) :
    SeedsLegal (landNow c ch n s word) := by
  unfold landNow
  split
  · exact h
  split
  · next hs => exact (landElement_seeds h).elim hs
  · exact parkMiss_seeds h
  · exact h

theorem failWord_seeds {c : CoreId} {ch : Fin 3} {n : Nat} {word : Nat} (h : SeedsLegal s) :
    SeedsLegal (failWord c ch n s word) := by
  unfold failWord
  split
  · exact h
  refine modCopy_seeds ?_
  split
  · next hs => exact poisonWord_seeds ((copyPlace_seeds h).elim hs)
  · exact h

end Sys2Proof.Machine
end

section
/-!
SRSEED stays legal (O57): CSRs, the steps of requests, messages, and errors of the hardware.
-/
namespace Sys2Proof.Machine

variable {s t : State}

theorem csrLatch_seeds {n : Nat} (h : SeedsLegal s) : SeedsLegal (csrLatch s n) := ite_seeds (modMe_seeds h) h

theorem csrClear_seeds {n : Nat} {a : W64} (h : SeedsLegal s) : SeedsLegal (csrClear s n a) := by
  unfold csrClear
  dsimp only
  split
  case h_5 | h_10 =>
    split
    · exact modBond_seeds h
    · exact h
  case h_6 | h_9 | h_11 => exact modCore_seeds h fun _ => rfl
  case h_7 | h_8 => exact modChan_seeds h
  case h_12 => exact clearFlags_seeds h
  case h_13 => exact h
  all_goals exact modStream_seeds h

/-- A write of a CSR that leaves no reserved value keeps the generators: that of SRSEED gives its core a value other than 0
(R14, R46). -/
theorem csrPut_seeds {s : State} {n : Nat} {v : W64} (hv : csrValid n v = true) (h : SeedsLegal s) :
    SeedsLegal (csrPut s n v) := by
  unfold csrPut
  dsimp only
  split
  case h_3 => exact modCore_seeds_of h fun _ _ => bne_iff_ne.1 hv
  case h_7 | h_12 => exact modCore_seeds h fun _ => rfl
  case h_11 | h_17 => exact modJob_seeds h
  case h_14 =>
    split
    · exact modBond_seeds h
    · exact h
  case h_20 => exact modCluster_seeds h
  case h_22 =>
    split
    · exact modMe_seeds h
    · exact h
  all_goals exact modMe_seeds h

theorem nactlPut_seeds {n : Nat} {v : W64} (h : SeedsLegal s) : SeedsLegal (nactlPut s n v) :=
  modPart_seeds h fun _ _ hx => hx

theorem hirqPut_seeds {v : W64} (h : SeedsLegal s) : Yields SeedsLegal (hirqPut s v) :=
  yields_after fun _ => yields_after fun _ => sendMsix_seeds (markMine_seeds h)

theorem rescopeTag_seeds {t : Tag} {m : Miss} (h : SeedsLegal s) : SeedsLegal (rescopeTag s t m) :=
  ite_seeds (markRelease_seeds (h.of_eq rfl rfl)) (sendMiss_seeds (markRelease_seeds (h.of_eq rfl rfl)))

theorem widenTag_seeds {m : Miss} (h : SeedsLegal s) : SeedsLegal (widenTag s m) := by
  refine mapStrands_seeds (wakeWord_seeds ?_)
  split
  · exact ite_seeds (rescopeTag_seeds (ite_seeds (countMiss_seeds (h.of_eq rfl rfl)) (h.of_eq rfl rfl))) (h.of_eq rfl rfl)
  · exact h.of_eq rfl rfl

theorem smrelPut_seeds {token : W64} (h : SeedsLegal s) : Yields SeedsLegal (smrelPut s token) := by
  unfold smrelPut
  split
  · exact h
  · exact ite_yields (widenTag_seeds h) (modMe_seeds (h.of_eq rfl rfl))

theorem dropTlb_seeds {asid : Nat} {v : W64} (h : SeedsLegal s) : SeedsLegal (dropTlb s asid v) :=
  h.of_cores rfl (fun _ => rfl) rfl

theorem tlbinvPut_seeds {v : W64} (h : SeedsLegal s) : Yields SeedsLegal (tlbinvPut s v) :=
  ite_yields trivial (dropTlb_seeds h)

theorem fractPut_seeds {act : Act} (h : SeedsLegal s) : Yields SeedsLegal (fractPut s act) := by
  refine ite_yields trivial (reply_seeds ?_)
  split
  · exact iteSelf_seeds modMe_seeds h
  · exact h

theorem woPut_seeds {n : Nat} {v : W64} (h : SeedsLegal s) : Yields SeedsLegal (woPut s n v) := by
  unfold woPut
  split
  · exact smrelPut_seeds h
  · exact hirqPut_seeds h
  · exact tlbinvPut_seeds h
  · exact fractPut_seeds h
  · exact h

theorem csrWrite_seeds {op : CsrOp} {n : Nat} {a w : W64} (h : SeedsLegal s) :
    Yields SeedsLegal (csrWrite s op n a w) := by
  unfold csrWrite
  cases csrClass n with
  | rw => exact iteInduction (motive := Yields SeedsLegal) (fun hv => yields_ok (csrPut_seeds hv h)) fun _ => trivial
  | clr m => exact ite_yields (csrClear_seeds h) trivial
  | wo => exact ite_yields (woPut_seeds h) trivial
  | ctl =>
    cases op with
    | write => exact ite_yields (nactlPut_seeds h) trivial
    | read | set | clear => exact ite_yields (yields_ok (modPart_seeds h fun _ _ hx => hx)) trivial
  | ro | unassigned => exact trivial

theorem csrFinish_seeds {uid : Nat} (h : SeedsLegal s) : SeedsLegal (csrFinish uid s) := ite_seeds h (advance_seeds h)

theorem asStrand_seeds {s : State} {c : CoreId} {i : Slot} {f : State → State}
    (hf : ∀ s, SeedsLegal s → SeedsLegal (f s)) (h : SeedsLegal s) : SeedsLegal (asStrand s c i f) :=
  SeedsLegal.of_eq (s := f { s with cur := c, slot := i }) (hf _ (h.of_eq rfl rfl)) rfl rfl

theorem partNow_seeds {c : CoreId} {slot : Slot} {p : Pending} {part : Nat} (h : SeedsLegal s) :
    SeedsLegal (partNow s c slot p part) := modStrand_seeds (performPart_seeds h)

theorem failLoad_seeds {p : Pending} {m : FaultMsg} (h : SeedsLegal s) : SeedsLegal (failLoad s p m) :=
  ite_seeds (postAndWait_seeds (modMe_seeds h)) h

theorem withdrawReq_seeds {p : Pending} (h : SeedsLegal s) : SeedsLegal (withdrawReq s p) := modMe_seeds h

theorem answerStrand_seeds {p : Pending} (h : SeedsLegal s) : SeedsLegal (answerStrand s p) :=
  iteSelf_seeds modMe_seeds (writeAnswer_seeds (popAll_seeds (withdrawReq_seeds h)))

theorem failRequest_seeds {p : Pending} {x : Stop} (h : SeedsLegal s) : SeedsLegal (failRequest s p x) :=
  stopStep_seeds _ (modMe_seeds (withdrawReq_seeds h))

theorem answerPoison_seeds {p : Pending} {va : W64} (h : SeedsLegal s) : SeedsLegal (answerPoison s p va) :=
  ite_seeds (failRequest_seeds h) (failLoad_seeds h)

theorem answerRejected_seeds {p : Pending} (h : SeedsLegal s) : SeedsLegal (answerRejected s p) :=
  ite_seeds (failRequest_seeds h) (failLoad_seeds h)

theorem takeAnswer_seeds {p : Pending} (h : SeedsLegal s) : SeedsLegal (takeAnswer s p) := by
  unfold takeAnswer
  split
  · exact answerPoison_seeds h
  · exact failRequest_seeds h
  · exact ite_seeds (answerStrand_seeds h) h

theorem recheckParts_seeds (l : List Part) (h : SeedsLegal s) :
    Yields (fun x => SeedsLegal x.2) (recheckParts s l) := by
  induction l generalizing s with
  | nil => exact h
  | cons q l ih => exact (access_seeds h).bind fun ⟨r, s⟩ h => (ih h).bind fun _ h => h

theorem runAgain_seeds {p : Pending} (h : SeedsLegal s) : SeedsLegal (runAgain s p) := by
  unfold runAgain
  split
  · next hok =>
    have h' := (recheckParts_seeds (s := { s with lazy := false }) _ h).elim hok
    exact modMe_seeds (SeedsLegal.of_eq h' rfl rfl)
  · exact failLoad_seeds h
  · exact failLoad_seeds h
  · exact h

theorem partAnswered_seeds {c : CoreId} {slot : Slot} {p : Pending} {part : Nat} (h : SeedsLegal s) :
    SeedsLegal (partAnswered s c slot p part) := by
  unfold partAnswered
  split
  · exact failRequest_seeds h
  refine ite_seeds h ?_
  dsimp only
  split
  · exact ite_seeds (partNow_seeds h) (takeAnswer_seeds (partNow_seeds h))
  · exact partNow_seeds h

theorem stepPart_seeds {c : CoreId} {slot : Slot} {idx part : Nat} {slice : Bool} (h : SeedsLegal s) :
    SeedsLegal (stepPart s c slot idx part slice) := by
  unfold stepPart
  dsimp only
  split
  · exact h
  split
  · exact h
  · exact ite_seeds h (ite_seeds (asStrand_seeds (fun _ h => runAgain_seeds h) h)
      (ite_seeds (asStrand_seeds (fun _ h => partAnswered_seeds h) h) (partNow_seeds h)))

theorem settleArrivals_seeds {c : CoreId} {slot : Slot} (h : SeedsLegal s) :
    SeedsLegal (settleArrivals s c slot) := by
  refine foldl_seeds (fun s e h => ?_) _ h
  dsimp only
  split
  · exact h
  · exact ite_seeds h (arriveBarrier_seeds (modStrand_seeds h))

theorem walkFor_seeds {c : CoreId} {slot : Slot} {va : W64} {fetch wr : Bool} (h : SeedsLegal s) :
    SeedsLegal (walkFor s c slot va fetch wr) := by
  unfold walkFor
  dsimp only
  split
  · exact h
  · exact postAndWait_seeds h
  · split
    · exact modStrand_seeds (tlbFill_seeds h)
    · exact postAndWait_seeds h
    · exact h

theorem dropLeased_seeds {node page : Nat} (h : SeedsLegal s) : SeedsLegal (dropLeased s node page) :=
  h.of_cores rfl (fun _ => rfl) rfl

theorem sendOut_seeds {sc : Scope} {b : Body} (h : SeedsLegal s) : SeedsLegal (sendOut s sc b) :=
  modCore_seeds (markMine_seeds h) fun _ => rfl

theorem postMessage_seeds {c : CoreId} {d b : GReg} {tag : BitVec 4} (h : SeedsLegal s) :
    Yields SeedsLegal (postMessage s c d b tag) := yields_after fun _ => sendOut_seeds h

theorem fanEntryOf_seeds {b spc : Nat} {pc arg size tick : W64} {x : State × List (CoreId × InMsg)} {e : CoreId × Nat}
    (h : SeedsLegal x.1) : SeedsLegal (fanEntryOf b spc pc arg size tick x e).1 :=
  foldl_seeds (fun _ _ h => joinBarriers_seeds h) _ (h.of_eq rfl rfl)

theorem fanCluster_seeds {l : List (CoreId × InMsg)} {cl : Nat} (h : SeedsLegal s) :
    SeedsLegal (fanCluster l s cl) := by
  unfold fanCluster
  split
  · exact h
  · exact sendOut_seeds h

theorem fanOut_seeds {b : Nat} {x : Bond} {dmask : BitVec 4} {pc arg tick : W64} (h : SeedsLegal s) :
    SeedsLegal (fanOut s b x dmask pc arg tick) := by
  refine leaveSlot_seeds (foldl_seeds (fun _ _ h => fanCluster_seeds h) _ ?_)
  have entries {l : List (CoreId × Nat)} {pc arg size tick : W64} {q : State × List (CoreId × InMsg)}
      (hq : SeedsLegal q.1) : SeedsLegal (l.foldl (fanEntryOf b x.spc pc arg size tick) q).1 := by
    induction l generalizing q with
    | nil => exact hq
    | cons e l ih => exact ih (fanEntryOf_seeds hq)
  exact entries (mapStrands_seeds (modBond_seeds h))

theorem launchPacket_seeds {c : CoreId} {m : OutMsg} (h : SeedsLegal s) : SeedsLegal (launchPacket s c m) :=
  h.of_eq rfl rfl

theorem sendCompletion_seeds {c : CoreId} {e : Fin 2 × CopyCmd} (h : SeedsLegal s) :
    SeedsLegal (sendCompletion s c e) := by
  unfold sendCompletion
  split
  · exact h
  · exact modChan_seeds (launchPacket_seeds h)

theorem sendGangWake_seeds {c : CoreId} {i : Fin 4} (h : SeedsLegal s) : SeedsLegal (sendGangWake s c i) := by
  unfold sendGangWake
  split
  · exact h
  · exact modTicket_seeds (launchPacket_seeds h)

theorem sendNext_seeds {c : CoreId} {idx : Nat} (h : SeedsLegal s) : SeedsLegal (sendNext s c idx) := by
  unfold sendNext
  dsimp only
  split
  · exact ite_seeds h (launchPacket_seeds (modCore_seeds h fun _ => rfl))
  split
  · exact sendCompletion_seeds h
  split
  · exact sendGangWake_seeds h
  · exact h

theorem dropPacket_seeds {idx : Nat} (h : SeedsLegal s) : SeedsLegal (dropPacket s idx) := h.of_eq rfl rfl

theorem accept_seeds {idx : Nat} {p : Packet} {dst : CoreId} {m : InMsg} (h : SeedsLegal s) :
    SeedsLegal (accept s idx p dst m) := by
  unfold accept
  refine ite_seeds h (ite_seeds (h.of_eq rfl rfl) ?_)
  dsimp only
  split
  · exact markDone_seeds (modCore_seeds (dropPacket_seeds h) fun _ => rfl)
  · exact modCore_seeds (dropPacket_seeds h) fun _ => rfl

theorem arrival_seeds {f : Body → Option (CoreId × InMsg)} {idx : Nat} (h : SeedsLegal s) :
    SeedsLegal (arrival f idx s) := by
  unfold arrival
  split
  · exact h
  split
  · exact accept_seeds h
  · exact h

theorem passFan_seeds {idx : Nat} {p : Packet} {l : List (CoreId × InMsg)} (h : SeedsLegal s) :
    SeedsLegal (passFan s idx p l) := h.of_eq rfl rfl

theorem askWiden_seeds {token : W64} (h : SeedsLegal s) : SeedsLegal (askWiden s token) := h.of_eq rfl rfl

theorem markBondLate_seeds {b : Option Nat} (h : SeedsLegal s) : SeedsLegal (markBondLate s b) := by
  unfold markBondLate
  split
  · exact modBond_seeds h
  · exact h

theorem setHead_seeds {c : CoreId} {l : List InMsg} (h : SeedsLegal s) : SeedsLegal (setHead s c l) :=
  modCore_seeds h fun _ => rfl

theorem activate_seeds {c : CoreId} {i : Slot} {m : InMsg} {rest : List InMsg} {late : Bool} (h : SeedsLegal s) :
    SeedsLegal (activate s c i m rest late) := by
  unfold activate
  split
  · exact askWiden_seeds (setHead_seeds h)
  · exact putStrand_seeds (iteSelf_seeds countMiss_seeds (setHead_seeds (h.of_eq rfl rfl)))
  · exact putStrand_seeds (setHead_seeds h)
  split
  · exact setHead_seeds h
  · exact putStrand_seeds (iteSelf_seeds markBondLate_seeds (setHead_seeds h))

theorem fanOnTick_seeds {s : State} {c : CoreId} (k : Nat) (h : SeedsLegal s) : SeedsLegal (fanOnTick c k s) := by
  induction k generalizing s with
  | zero => exact h
  | succ k ih =>
    unfold fanOnTick
    dsimp only
    split
    · split
      · exact ite_seeds (ih (activate_seeds h)) h
      · exact h
    · exact h

theorem dropServiceFault_seeds {e : CoreId × Slot} {m : FaultMsg} (h : SeedsLegal s) :
    SeedsLegal (dropServiceFault s e m) := by
  refine dropService_seeds (SeedsLegal.of_eq (s := match agentOf s m.token with
    | some a => killAgent s a
    | none => s) ?_ rfl rfl)
  split
  · exact killAgent_seeds _ h
  · exact h

theorem popMailbox_seeds {cl : Nat} (h : SeedsLegal s) : SeedsLegal (popMailbox s cl) := modCluster_seeds h

theorem defaultReply_seeds {cl : Nat} {m : FaultMsg} (h : SeedsLegal s) : SeedsLegal (defaultReply s cl m) :=
  reply_seeds (popMailbox_seeds h)

theorem countCorrected_seeds {c : CoreId} (h : SeedsLegal s) : SeedsLegal (countCorrected s c) :=
  modCore_seeds h fun _ => rfl

theorem countPoisoned_seeds {c : CoreId} (h : SeedsLegal s) : SeedsLegal (countPoisoned s c) :=
  modCore_seeds h fun _ => rfl

theorem poisonShadow_srseed {c : CoreId} {off : Nat} {k k' : Core} (h : poisonShadow c off k = some k') :
    k'.srseed = k.srseed := by
  unfold poisonShadow at h
  split at h
  case h_6 =>
    obtain ⟨l, -, rfl⟩ := Option.map_eq_some_iff.1 h
    rfl
  case h_7 | h_8 | h_9 => cases h
  all_goals cases h; rfl

/-- An error in a shadow store strikes no generator: SRSEED lies among the control state, which the restore finds. -/
theorem strikeSaved_cores {c : CoreId} {off : Nat} {x : Saved} (h : CoresLegal x.cores) :
    CoresLegal (strikeSaved c off x).cores := by
  unfold strikeSaved
  split
  · exact h
  next hk =>
    split
    · next hp => exact coresLegal_mapSet h (poisonShadow_srseed hp ▸ h _ (mem_of_mapFind hk))
    · exact h

theorem strikeShadow_seeds {part job : Nat} {c : CoreId} {off : Nat} (h : SeedsLegal s) :
    SeedsLegal (strikeShadow s part job c off) := by
  refine ite_seeds h (modPart_seeds_of (countPoisoned_seeds h) fun hs x hx => ?_)
  obtain ⟨y, hy, rfl⟩ := List.mem_map.1 hx
  split
  · exact strikeSaved_cores (hs y hy)
  · exact hs y hy

theorem strikeAt_seeds (l : ErrSite) (h : SeedsLegal s) : SeedsLegal (strikeAt s l) := by
  unfold strikeAt
  split
  case h_1 =>
    exact ite_seeds h (ite_seeds (countPoisoned_seeds (poisonWord_seeds h)) (poisonWord_seeds h))
  case h_2 | h_3 | h_17 => exact countPoisoned_seeds (modStrand_seeds h)
  case h_4 | h_5 | h_6 | h_7 | h_8 | h_9 | h_18 => exact countPoisoned_seeds (modCore_seeds h fun _ => rfl)
  case h_10 => exact countPoisoned_seeds (modStream_seeds h)
  case h_11 => exact countPoisoned_seeds (modCluster_seeds h)
  case h_12 =>
    split
    · exact ite_seeds h (finishCopy_seeds h)
    · exact h
  case h_13 => exact finishFoot_seeds h
  case h_14 => exact endSeq_seeds h
  case h_15 => exact strikeShadow_seeds h
  case h_16 | h_23 => exact modDie_seeds h
  case h_19 => exact modCopy_seeds h
  case h_20 => exact modCore_seeds h fun _ => rfl
  case h_21 => exact modCore_seeds h fun k => by split <;> rfl
  case h_22 => exact modCluster_seeds h

end Sys2Proof.Machine
end

section
/-!
SRSEED stays legal (O57): footing units, queues, partitions and their saved contexts, and the device.
-/
namespace Sys2Proof.Machine

variable {s t : State}

theorem footPage_seeds {w : Who} {page : Nat} {use : Use} (h : SeedsLegal s) :
    Yields (fun x => SeedsLegal x.2) (footPage s w page use) :=
  ite_yields trivial ((engCheck_seeds h).bind fun _ h => ite_yields trivial h)

theorem footPages_seeds {w : Who} (l : List (Nat × Bool)) (h : SeedsLegal s) :
    Yields (fun x => SeedsLegal x.2) (footPages s w l) := by
  induction l generalizing s with
  | nil => exact h
  | cons e l ih => exact (footPage_seeds h).bind fun ⟨r, s⟩ h => (ih h).bind fun _ h => h

theorem putFootWord_seeds {pages : Map (Nat × Nat × Nat)} {l : List FootPut} {word : Nat} (h : SeedsLegal s) :
    SeedsLegal (putFootWord pages l s word) := iteSelf_seeds poisonWord_seeds (homeWrite_seeds h)

theorem computeElem_seeds {c : CoreId} {m : FootCmd} {pages : Map (Nat × Nat × Nat)} {k : Nat} (h : SeedsLegal s) :
    SeedsLegal (computeElem s c m pages k) := by
  unfold computeElem
  split
  · exact h
  dsimp only
  split
  · exact h
  split
  · exact parkMiss_seeds h
  · exact modFoot_seeds h

theorem performPiece_seeds {c : CoreId} {m : FootCmd} {pages : Map (Nat × Nat × Nat)} {k : Nat} (h : SeedsLegal s) :
    SeedsLegal (performPiece s c m pages k) := by
  unfold performPiece
  split
  · exact wakeLine_seeds (putFootWord_seeds (modFoot_seeds h))
  · exact computeElem_seeds h

theorem startFoot_seeds {c : CoreId} {m : FootCmd} (h : SeedsLegal s) : SeedsLegal (startFoot s c m) := by
  unfold startFoot
  split
  · exact finishFoot_seeds h
  split
  · next hok => exact modFoot_seeds ((footPages_seeds _ h).elim hok)
  · exact h
  · exact parkMiss_seeds h
  · exact finishFoot_seeds h
  · exact modFoot_seeds (postFault_seeds h)

theorem mapUnits_seeds {f : WorkUnit → WorkUnit} (h : SeedsLegal s) : SeedsLegal { s with
    parts := s.parts.map fun e => (e.1, { e.2 with units := e.2.units.map f }) } :=
  h.of_parts rfl (fun _ _ hx => hx) rfl

theorem noteMet_seeds (h : SeedsLegal s) : SeedsLegal (noteMet s) := mapUnits_seeds h

theorem loadConfig_seeds {j : Nat} {clusters : List Nat} (h : SeedsLegal s) :
    SeedsLegal (loadConfig s j clusters) := by
  refine foldl_seeds (fun s cl h => ?_) _ (iteSelf_seeds modJob_seeds h)
  exact foldl_seeds (fun _ _ h => ite_seeds h (modCore_seeds h fun _ => by rfl)) _ (modCluster_seeds h)

theorem placeUnit_seeds {part : Nat} {u : WorkUnit} {cx cy : Nat} (h : SeedsLegal s) :
    SeedsLegal (placeUnit s part u cx cy) := by
  have placed {cls : List Nat} {b : Nat} {x : Bond} {f : Job → Job} {g : Cluster → Cluster} := foldl_seeds
    (f := fun s cl => modCluster s cl g) (fun _ _ h => modCluster_seeds h) cls
    (modJob_seeds (j := u.job) (f := f) (SeedsLegal.of_eq
      (t := { loadConfig s u.job cls with nextBond := b + 1, bonds := mapSet b x (loadConfig s u.job cls).bonds })
      (loadConfig_seeds h) rfl rfl))
  unfold placeUnit
  dsimp only
  split
  · exact placed
  · exact putStrand_seeds (SeedsLegal.of_eq placed rfl rfl)

theorem releaseBond_seeds {b : Nat} {x : Bond} (h : SeedsLegal s) : SeedsLegal (releaseBond s b x) :=
  dropTags_seeds (foldl_seeds (fun _ _ h => mergeUnits_seeds h) _ h)

theorem fetchPacket_seeds {q : Nat} (h : SeedsLegal s) : SeedsLegal (fetchPacket s q) := by
  unfold fetchPacket
  dsimp only
  split
  · exact h
  exact ite_seeds h (ite_seeds (modQueue_seeds h) (ite_seeds (modQueue_seeds h) (failPacket_seeds (modQueue_seeds h))))

theorem passHand_seeds {q : Nat} {p : QPacket} {done : Bool} (h : SeedsLegal s) :
    SeedsLegal (passHand s q p done) := fetchPacket_seeds (modQueue_seeds h)

theorem dispatchPlain_seeds {q ty : Nat} {alone : Bool} (h : SeedsLegal s) :
    SeedsLegal (dispatchPlain q ty alone s) := by
  unfold dispatchPlain
  split
  · exact h
  · exact ite_seeds h (passHand_seeds h)

theorem completePacket_seeds {q : Nat} {t : Taken} (h : SeedsLegal s) : SeedsLegal (completePacket q s t) :=
  modQueue_seeds (iteSelf_seeds sendMsix_seeds (iteSelf_seeds advanceTimeline_seeds h))

theorem launchJob_seeds {j : Nat} (h : SeedsLegal s) : SeedsLegal (launchJob s j) := ite_seeds h (modJob_seeds h)

theorem bindKeys_seeds {keys : List Nat} (h : SeedsLegal s) : SeedsLegal (bindKeys s keys) :=
  foldl_seeds (fun _ _ h => SeedsLegal.of_eq h (by rfl) (by rfl)) _ h

theorem extendMeasure_seeds {i : Fin 8} {v : Nat} (h : SeedsLegal s) : SeedsLegal (extendMeasure s i v) :=
  h.of_eq rfl rfl

theorem preemptComponent_seeds {die : Fin 4} {q : Fin 8} (h : SeedsLegal s) :
    SeedsLegal (preemptComponent s die q) := modDie_seeds (leaveComponent_seeds h)

theorem haltCores_seeds {part : Nat} (h : SeedsLegal s) : SeedsLegal (haltCores s part) := by
  refine foldl_seeds (fun _ _ h => modCore_seeds h fun _ => by rfl) _ (foldl_seeds (fun s e h => ?_) _ h)
  split
  · exact preemptComponent_seeds h
  · exact h

theorem withdrawAll_seeds {part : Nat} (h : SeedsLegal s) : SeedsLegal (withdrawAll s part) :=
  foldl_seeds (fun _ _ h => foldl_seeds (fun _ _ h => withdraw_seeds h) _ h) _ h

/-- A core whose context leaves is as after reset, and the hardware's own state is no generator (R424). -/
theorem emptyCores_seeds {s : State} {part : Nat} (h : SeedsLegal s) : SeedsLegal (emptyCores s part) := by
  refine ⟨coresLegal_map h.1 fun e he => ?_, h.2⟩
  split
  · exact (by decide : srseedReset ≠ 0)
  · exact he

theorem savedContext_cores {s : State} {part : Nat} (h : SeedsLegal s) : CoresLegal (savedContext s part).cores :=
  coresLegal_map (coresLegal_filter h.1) fun _ he => he

theorem savePartition_seeds {part : Nat} (h : SeedsLegal s) : SeedsLegal (savePartition s part) := by
  have withdrawn := withdrawAll_seeds (part := part) h
  refine modPart_seeds_of (emptyCores_seeds withdrawn) fun hs x hx => ?_
  rcases List.mem_append.1 hx with hx | hx
  · exact hs x (List.mem_filter.1 hx).1
  · exact List.mem_singleton.1 hx ▸ savedContext_cores withdrawn

theorem haltStep_seeds {s : State} {part : Nat} {done : State → State}
    (hd : ∀ s, SeedsLegal s → SeedsLegal (done s)) (h : SeedsLegal s) : SeedsLegal (haltStep s part done) :=
  ite_seeds (iteSelf_seeds haltCores_seeds h) (ite_seeds (iteSelf_seeds (fun h => modPart_seeds h fun _ _ hx => by exact hx) h) (iteSelf_seeds (hd s) h))

theorem moveSlice_seeds {part loc pa : Nat} {out : Bool} (h : SeedsLegal s) :
    SeedsLegal (moveSlice s part loc pa out) := by
  refine ite_seeds h ?_
  dsimp only
  cases out
  all_goals exact iteSelf_seeds poisonWord_seeds (homeWrite_seeds h)

/-- The generator of a core that is restored is the saved one (R426). -/
theorem restoreCore_seeds {s : State} {e : CoreId × Core} (he : e.2.srseed ≠ 0) (h : SeedsLegal s) :
    SeedsLegal (restoreCore s e) :=
  modCore_seeds_of h fun _ _ => he

theorem retryParked_seeds {cs : List CoreId} (h : SeedsLegal s) : SeedsLegal (retryParked s cs) :=
  foldl_seeds (fun _ _ h => retryReq_seeds h) _ h

theorem applyHeld_seeds {part : Nat} (h : SeedsLegal s) : SeedsLegal (applyHeld s part) := by
  refine foldl_seeds (fun _ _ h => walk_seeds h) _ ?_
  exact foldl_seeds (fun _ _ h => reply_seeds h) _ (modPart_seeds h fun _ _ hx => hx)

theorem restoreCores_seeds {s : State} {l : Map Core} (hl : CoresLegal l) (h : SeedsLegal s) :
    SeedsLegal (l.foldl restoreCore s) := by
  induction l generalizing s with
  | nil => exact h
  | cons e l ih =>
    exact ih (fun x hx => hl x (List.mem_cons_of_mem e hx)) (restoreCore_seeds (hl e List.mem_cons_self) h)

theorem withContext_seeds {s : State} {bonds : Map Bond} {net : List Packet} {exchange : Map Channel}
    (h : SeedsLegal s) : SeedsLegal { s with bonds := bonds, net := net, exchange := exchange } := h

theorem restoreContext_seeds {s : State} {part job : Nat} {x : Saved} (hx : CoresLegal x.cores) (h : SeedsLegal s) :
    SeedsLegal (restoreContext s part job x) := by
  refine foldl_seeds (fun _ _ h => fetchPacket_seeds h) _ (applyHeld_seeds (retryParked_seeds (withContext_seeds
    (foldl_seeds (fun _ _ h => modCluster_seeds h) _ (restoreCores_seeds hx
      (foldl_seeds (fun _ _ h => modCore_seeds h fun _ => by rfl) _ (modPart_seeds (modJob_seeds h) ?_)))))))
  exact fun q y hy => (List.mem_filter.1 hy).1

theorem contextFor_cores {s : State} {part job : Nat} (h : SeedsLegal s) : CoresLegal (contextFor s part job).cores := by
  unfold contextFor
  cases hx : (partOf s part).saved.find? fun y => y.job == job with
  | none => intro e he; cases he
  | some x =>
    exact mapGet_of_forall (P := fun q : Partition => ∀ x ∈ q.saved, CoresLegal x.cores) (by intro x hx; cases hx) h.2
      part x (List.mem_of_find?_eq_some hx)

theorem restorePartition_seeds {part job : Nat} (h : SeedsLegal s) : SeedsLegal (restorePartition s part job) :=
  ite_seeds (restoreContext_seeds (contextFor_cores h) h)
    (killJob_seeds (restoreContext_seeds (contextFor_cores h) h))

theorem zeroSlices_seeds {part : Nat} (h : SeedsLegal s) : SeedsLegal (zeroSlices s part) := h.of_eq rfl rfl

theorem dropPartTlb_seeds {part : Nat} (h : SeedsLegal s) : SeedsLegal (dropPartTlb s part) :=
  h.of_cores rfl (fun _ => rfl) rfl

theorem zeroSeqrs_seeds {part : Nat} (h : SeedsLegal s) : SeedsLegal (zeroSeqrs s part) := h.of_eq rfl rfl

theorem completeJob_seeds {part j : Nat} (h : SeedsLegal s) : SeedsLegal (completeJob s part j) := by
  refine foldl_seeds (fun _ _ h => iteSelf_seeds completePacket_seeds h) _ ?_
  exact foldl_seeds (fun _ _ h => finishCopy_seeds h) _ h

/-- The cores of a partition that is torn down are as after reset. -/
theorem resetCores_seeds {s : State} {part : Nat} (h : SeedsLegal s) : SeedsLegal { s with
    cores := s.cores.map fun e => if holdsCore s part e.1 then (e.1, swapCore e.2 Core.reset) else e } := by
  refine ⟨coresLegal_map h.1 fun e he => ?_, h.2⟩
  split
  · exact (by decide : srseedReset ≠ 0)
  · exact he

theorem withoutPart_seeds {s : State} {part : Nat} (h : SeedsLegal s) :
    SeedsLegal { s with parts := mapErase part s.parts } :=
  ⟨h.1, fun p hp => h.2 p (List.mem_filter.1 hp).1⟩

theorem tearDown_seeds {part : Nat} (h : SeedsLegal s) : SeedsLegal (tearDown s part) := by
  refine withoutPart_seeds (foldl_seeds (fun _ _ h => modJob_seeds h) _ ?_)
  refine SeedsLegal.of_eq (resetCores_seeds (part := part) (zeroSeqrs_seeds (part := part)
    (dropPartTlb_seeds (part := part) (zeroSlices_seeds (part := part)
      (dropTags_seeds (gone := fun t => holdsCore _ part t.core) (foldl_seeds (fun s j h => ?_) _ h)))))) rfl rfl
  exact completeJob_seeds (killJob_seeds h)

theorem startFans_seeds (h : SeedsLegal s) : SeedsLegal (startFans s) :=
  foldl_seeds (fun _ _ h => fanOnTick_seeds _ h) _ h

theorem startCopies_seeds (h : SeedsLegal s) : SeedsLegal (startCopies s) :=
  foldl_seeds (fun _ _ h => startCopy_seeds h) _ h

theorem advancePlumb_seeds {by_ : Fin 6 → Nat} (h : SeedsLegal s) : SeedsLegal (advancePlumb s by_) :=
  startCopies_seeds (startFans_seeds (h.of_eq rfl rfl))

theorem forgetRaised_seeds (h : SeedsLegal s) : SeedsLegal (forgetRaised s) := h.of_eq rfl rfl

theorem tick_seeds (h : SeedsLegal s) : SeedsLegal (tick s) :=
  closeCtxs_seeds (forgetRaised_seeds (noteMet_seeds (advancePlumb_seeds (h.of_eq rfl rfl))))

/-- What is left of the part keeps no generator: every core is as after reset. -/
theorem lostState_seeds (s : State) : SeedsLegal (lostState s) := by
  constructor <;> intro _ hx <;> cases hx

theorem bringUp_seeds (s : State) : SeedsLegal (bringUp s) :=
  ite_seeds (lostState_seeds s) (withDev_seeds (extendMeasure_seeds (extendMeasure_seeds (lostState_seeds s))))

theorem outsideAccess_seeds {word key : Nat} {write : Option W64} (h : SeedsLegal s) :
    SeedsLegal (outsideAccess s word key write) := by
  unfold outsideAccess
  refine ite_seeds h ?_
  split
  · exact homeWrite_seeds h
  · exact ite_seeds h (parkMiss_seeds h)

theorem exportLease_seeds {x : Export} {on : Bool} (h : SeedsLegal s) : SeedsLegal (exportLease s x on) := by
  unfold exportLease
  refine ite_seeds (h.of_eq rfl rfl) ?_
  split
  · exact ite_seeds (h.of_eq rfl rfl) h
  · exact h

theorem assignNode_seeds {n : Byte} (h : SeedsLegal s) : SeedsLegal (assignNode s n) := ite_seeds h (h.of_eq rfl rfl)

theorem writeFlagged_seeds {d : SReg} {x : W64} {fl : Flags} (h : SeedsLegal s) :
    Yields SeedsLegal (writeFlagged s d x fl) := (raise_seeds h).bind fun _ h => writeS_seeds h

end Sys2Proof.Machine
end

section
/-!
SRSEED stays legal (O57): sequencers and their records, lanes, and fetch.
-/
namespace Sys2Proof.Machine

variable {s t : State}

theorem yields_pair {ε α : Type} {a : α} (h : SeedsLegal t) :
    Yields (ε := ε) (fun x : α × State => SeedsLegal x.2) (.ok (a, t)) := h

theorem dropRead_seeds {st : StreamId} (h : SeedsLegal s) : SeedsLegal (dropRead s st) :=
  ite_seeds h (modStream_seeds (withdraw_seeds h))

theorem takeSeqr_seeds (h : SeedsLegal s) : Yields (fun x => SeedsLegal x.2) (takeSeqr s) := by
  unfold takeSeqr
  split
  · exact trivial
  split
  · exact trivial
  split
  · exact h
  dsimp only
  split
  · exact trivial
  · exact yields_pair (modBond_seeds (modDie_seeds h))

theorem handSeq_seeds {e : Fin 4 × Fin 8} {op : SeqOp} (h : SeedsLegal s) :
    Yields (fun x => SeedsLegal x.2) (handSeq s e op) :=
  ite_yields trivial (yields_pair (modDie_seeds (takeSeq_seeds h)))

theorem appendRecord_seeds {l : List W512} (h : SeedsLegal s) : Yields SeedsLegal (appendRecord s l) :=
  (storeChunks_seeds h).bind fun _ h => modMe_seeds h

theorem recordTop_seeds {op : Nat} {b : W64} {ds : List W512} {n : Nat} (h : SeedsLegal s) :
    Yields (fun x => SeedsLegal x.2) (recordTop s op b ds n) :=
  yields_after fun _ => yields_after fun _ => (appendRecord_seeds h).bind fun _ h =>
    yields_pair (modMe_seeds h)

theorem loadSlots_seeds {a : W64} (l : List Nat) (h : SeedsLegal s) :
    Yields (fun x => SeedsLegal x.2) (loadSlots s a l) := by
  induction l generalizing s with
  | nil => exact h
  | cons k l ih => exact (loadBlock_seeds h).bind fun ⟨d, s⟩ h => (ih h).bind fun _ h => h

theorem walkLog_seeds {s : State} {base : W64} {m : W32} (k : Nat) (a : W64) (h : SeedsLegal s) :
    Yields (fun x => SeedsLegal x.2.2) (walkLog base m k s a) := by
  induction k generalizing s a with
  | zero => exact h
  | succ k ih =>
    refine ite_yields h ((loadWords_seeds _ _ h).bind fun ⟨l, s⟩ h => ite_yields ?_ (ite_yields h ?_))
    · exact (loadWords_seeds _ _ h).bind fun _ h => h
    · exact (ih _ h).bind fun _ h => h

theorem leaveStaging_seeds {w : W64} {staged : List (Nat × Byte)} {accs : List (Nat × W32)} (h : SeedsLegal s) :
    SeedsLegal (leaveStaging s w staged accs) := by
  refine foldl_seeds (fun s e h => iteSelf_seeds ?_ h) _ (foldl_seeds (fun s e h => ?_) _ h)
  · exact fun h => modCore_seeds h fun k => by split <;> rfl
  · exact iteSelf_seeds homeWrite_seeds h

theorem readGrid_seeds {w : Who} {f : Fmt} {es rows cols : Nat} {addrs : List W64} (h : SeedsLegal s) :
    Yields (fun x => SeedsLegal x.2) (readGrid s w f es rows cols addrs) :=
  (engLoads_seeds _ h).bind fun _ h => ite_yields trivial h

theorem readTensor_seeds {w : Who} {d : W512} (h : SeedsLegal s) :
    Yields (fun x => SeedsLegal x.2) (readTensor s w d) := readGrid_seeds h

theorem readIf_seeds {on : Bool} {w : Who} {d : W512} (h : SeedsLegal s) :
    Yields (fun x => SeedsLegal x.2) (readIf on s w d) := ite_yields (readTensor_seeds h) h

theorem stashCodes_seeds {w : Who} {d : W512} {e : W64 × W64} (h : SeedsLegal s) :
    Yields (fun x => SeedsLegal x.2) (stashCodes s w d e) := ite_yields h (engLoads_seeds _ h)

theorem tileCodes_seeds {w : Who} {op : Nat} {b : W64} {split : List Nat} {x y z : W512} (h : SeedsLegal s) :
    Yields (fun x => SeedsLegal x.2) (tileCodes s w op b split x y z) := by
  unfold tileCodes
  refine ite_yields ?_ ?_
  · exact (engLoads_seeds _ h).bind fun _ h => h
  · exact (readTensor_seeds h).bind fun ⟨_, s⟩ h => (readIf_seeds h).bind fun ⟨_, s⟩ h =>
      (readIf_seeds h).bind fun _ h => h

theorem tileWrites_seeds {w : Who} {op : Nat} {b : W64} {split : List Nat} {ds : List W512} {stash : List (W64 × W64)}
    (h : SeedsLegal s) : Yields (fun x => SeedsLegal x.2) (tileWrites s w op b split ds stash) :=
  (tileCodes_seeds h).bind fun ⟨_, _⟩ h => (stashCodes_seeds h).bind fun ⟨_, _⟩ h =>
    (stashCodes_seeds h).bind fun _ h => h

theorem startTile_seeds {w : Who} {op : Nat} {b : W64} {split : List Nat} {ds : List W512} {stash : List (W64 × W64)}
    (h : SeedsLegal s) : Yields (fun x => SeedsLegal x.2) (startTile s w op b split ds stash) :=
  (tileWrites_seeds h).bind fun _ h => h

theorem readOperand_seeds {on : Bool} {w : Who} {d : W512} {turn : Bool} (h : SeedsLegal s) :
    Yields (fun x => SeedsLegal x.2) (readOperand on s w d turn) :=
  ite_yields h (ite_yields (readTensor_seeds h) (ite_yields (readGrid_seeds h) (readGrid_seeds h)))

theorem startAdjoint_seeds {w : Who} {op : Nat} {b : W64} {ds : List W512} {splitA splitB : List Nat}
    (h : SeedsLegal s) : Yields (fun x => SeedsLegal x.2) (startAdjoint s w op b ds splitA splitB) :=
  (readOperand_seeds h).bind fun ⟨_, _⟩ h => (readOperand_seeds h).bind fun ⟨_, _⟩ h =>
    (readOperand_seeds h).bind fun ⟨_, _⟩ h => (readGrid_seeds h).bind fun _ h => h

theorem engBlock_seeds {w : Who} {a : W64} (h : SeedsLegal s) :
    Yields (fun x => SeedsLegal x.2) (engBlock s w a) := (engLoads_seeds _ h).bind fun _ h => ite_yields trivial h

theorem engBlocks_seeds {w : Who} (l : List W64) (h : SeedsLegal s) :
    Yields (fun x => SeedsLegal x.2) (engBlocks s w l) := by
  induction l generalizing s with
  | nil => exact h
  | cons a l ih => exact (engBlock_seeds h).bind fun ⟨d, s⟩ h => (ih h).bind fun _ h => h

theorem startRecord_seeds {w : Who} {a : W64} {splitA splitB : List Nat} (h : SeedsLegal s) :
    Yields (fun x => SeedsLegal x.2) (startRecord s w a splitA splitB) :=
  (engBlock_seeds h).bind fun ⟨_, _⟩ h => ite_yields h ((engBlocks_seeds _ h).bind fun ⟨_, _⟩ h =>
    ite_yields trivial (ite_yields h (startAdjoint_seeds h)))

/-- One of two operations before another. -/
theorem Yields.iteBind {ε α β : Type} {P : α → Prop} {Q : β → Prop} {c : Prop} [Decidable c] {r r' : Except ε α}
    {f : α → Except ε β} (hr : Yields P r) (hr' : Yields P r') (hf : ∀ a, P a → Yields Q (f a)) :
    Yields Q (if c then r >>= f else r' >>= f) := ite_yields (hr.bind hf) (hr'.bind hf)

theorem seqPut_seeds {w : Who} {x : SeqPut} {l : List SeqPut} (h : SeedsLegal s) :
    Yields (fun x => SeedsLegal x.2) (seqPut s w x l) := by
  refine (engTarget_seeds h).bind fun ⟨r, s⟩ h => ite_yields trivial ?_
  refine Yields.iteBind (engLoad_seeds h) (yields_pair h) fun ⟨old, s⟩ h => ?_
  refine ite_yields trivial ?_
  dsimp only
  split
  · exact yields_pair (normWrite_seeds h)
  · exact yields_pair (iteSelf_seeds poisonWord_seeds (homeWrite_seeds h))

theorem stopSeq_seeds {die : Fin 4} {q : Fin 8} {m : SeqCmd} (l : EngStop) (h : SeedsLegal s) :
    SeedsLegal (stopSeq s die q m l) := by
  unfold stopSeq
  split
  · exact h
  · exact parkMiss_seeds h
  · exact modSeq_seeds (postFault_seeds h)
  · exact endSeq_seeds h

theorem beginSeq_seeds {die : Fin 4} {q : Fin 8} {b : Nat} {m : SeqCmd} {splits : List (List Nat)} (h : SeedsLegal s)
    : SeedsLegal (beginSeq s die q b m splits) := by
  unfold beginSeq
  dsimp only
  split
  · exact stopSeq_seeds _ h
  next hok =>
    refine modSeq_seeds (Yields.elim (P := fun x : (List SeqPut × Flags) × State => SeedsLegal x.2) ?_ hok)
    split
    · exact startTile_seeds h
    · exact startRecord_seeds h

theorem putSeq_seeds {die : Fin 4} {q : Fin 8} {b n : Nat} {i : Nat} (h : SeedsLegal s) :
    SeedsLegal (putSeq die q b n s i) := by
  unfold putSeq
  split
  · exact h
  dsimp only
  split
  · exact h
  refine ite_seeds h ?_
  split
  · exact stopSeq_seeds _ h
  · next hok => exact modSeq_seeds ((seqPut_seeds h).elim hok)

theorem nextSeq_seeds {die : Fin 4} {q : Fin 8} {m : SeqCmd} (h : SeedsLegal s) : SeedsLegal (nextSeq s die q m) := by
  unfold nextSeq
  split
  · exact endSeq_seeds h
  · exact modSeq_seeds h

theorem placeComponent_seeds {die : Fin 4} {q : Fin 8} {b : Nat} {m : SeqCmd} {region : W64} {d : W512}
    (h : SeedsLegal s) : SeedsLegal (placeComponent s die q b m region d) :=
  ite_seeds h (modSeq_seeds (foldl_seeds (fun _ _ h => modCore_seeds h fun _ => by rfl) _ h))

theorem stepSeq_seeds {die : Fin 4} {q : Fin 8} {b : Nat} {m : SeqCmd} {region : W64} {splits : List (List Nat)}
    {act : SeqAct} (h : SeedsLegal s) : SeedsLegal (stepSeq s die q b m region splits act) := by
  unfold stepSeq
  split
  · exact placeComponent_seeds h
  · exact ite_seeds (modSeq_seeds h) h
  · exact ite_seeds (modSeq_seeds (leaveComponent_seeds h)) h
  refine ite_seeds h ?_
  split
  · exact beginSeq_seeds h
  · exact ite_seeds h (nextSeq_seeds h)
  · exact foldl_seeds (fun _ _ h => putSeq_seeds h) _ h

theorem writeResults_seeds {d : VReg} {w : Nat} {l : List (Nat × Nat × Flags)} (h : SeedsLegal s) :
    Yields SeedsLegal (writeResults s d w l) := (raise_seeds h).bind fun _ h => writeLanes_seeds h

theorem popOff_seeds {v : View} (h : SeedsLegal s) : SeedsLegal (popOff s v) := by
  unfold popOff
  split
  · exact ite_seeds (modStream_seeds h) (popView_seeds _ h)
  · exact popView_seeds _ h

theorem keepFetched_seeds {loc k : Nat} (h : SeedsLegal s) : SeedsLegal (keepFetched s loc k) :=
  ite_seeds (modMe_seeds h) h

theorem fetchHalf_seeds {va : W64} (h : SeedsLegal s) : Yields (fun x => SeedsLegal x.2) (fetchHalf s va) := by
  unfold fetchHalf
  split
  · exact trivial
  · exact trivial
  · exact trivial
  next hok =>
    have h' := (checkAddr_seeds h).elim hok
    split
    · exact trivial
    · exact ite_yields trivial (keepFetched_seeds h')

theorem fetchWord_seeds (h : SeedsLegal s) : Yields (fun x => SeedsLegal x.2) (fetchWord s) := by
  unfold fetchWord
  split
  · exact trivial
  next hok =>
    have h' := (fetchHalf_seeds h).elim hok
    split
    · exact h'
    split
    · exact trivial
    next hok =>
      have h'' := (fetchHalf_seeds h').elim hok
      exact h''

theorem noteIssue_seeds {c : CoreId} {i : Slot} {cls : Bool} {lowReady : Bool} {yielded : Option Slot}
    (h : SeedsLegal s) : SeedsLegal (noteIssue s c i cls lowReady yielded) := by
  refine modCore_seeds ?_ fun _ => rfl
  split
  · exact modStrand_seeds h
  · exact h

theorem outsideByte_seeds {loc : Nat} {b : Byte} (h : SeedsLegal s) : SeedsLegal (outsideByte s loc b) :=
  ite_seeds h (h.of_eq rfl rfl)

theorem revoke_seeds {node page : Nat} (h : SeedsLegal s) : SeedsLegal (revoke s node page) := h.of_eq rfl rfl

end Sys2Proof.Machine
end

section
/-!
SRSEED stays legal (O57): the draws of the generator, and every instruction of a strand.
-/
namespace Sys2Proof.Machine

variable {s t : State}

/-! ## The draws of a generator (R46) -/

theorem eq_zero_of_eq_shiftLeft {x : W64} {k : Nat} (hk : 0 < k) (h : x = x <<< k) : x = 0 := by
  have below (i : Nat) : x.getLsbD i = false := by
    induction i using Nat.strong_induction_on with
    | _ i ih =>
      rw [h, BitVec.getLsbD_shiftLeft]
      by_cases hi : i < k
      · simp [hi]
      · simp [ih (i - k) (by omega)]
  exact BitVec.eq_of_getLsbD_eq fun i _ => by simp [below i]

theorem eq_zero_of_eq_ushiftRight {x : W64} {k : Nat} (hk : 0 < k) (h : x = x >>> k) : x = 0 := by
  have above (j : Nat) : ∀ i, 64 ≤ i + j → x.getLsbD i = false := by
    induction j with
    | zero => exact fun i hi => BitVec.getLsbD_of_ge x i hi
    | succ j ih =>
      intro i hi
      rw [h, BitVec.getLsbD_ushiftRight]
      exact ih (k + i) (by omega)
  exact BitVec.eq_of_getLsbD_eq fun i _ => by simp [above 64 i (by omega)]

/-- Each of the three shifts of a step is a bijection, so only 0 goes to 0. -/
theorem srStep_ne_zero {x : W64} (h : x ≠ 0) : srStep x ≠ 0 := by
  have left {y : W64} {k : Nat} (hk : 0 < k) (hy : y ≠ 0) : y ^^^ (y <<< k) ≠ 0 :=
    fun h0 => hy (eq_zero_of_eq_shiftLeft hk (BitVec.xor_eq_zero_iff.1 h0))
  have right {y : W64} {k : Nat} (hk : 0 < k) (hy : y ≠ 0) : y ^^^ (y >>> k) ≠ 0 :=
    fun h0 => hy (eq_zero_of_eq_ushiftRight hk (BitVec.xor_eq_zero_iff.1 h0))
  exact left (by decide) (right (by decide) (left (by decide) h))

theorem draws_ne_zero (n : Nat) {x : W64} (h : x ≠ 0) : (draws n x).2 ≠ 0 := by
  induction n generalizing x with
  | zero => exact h
  | succ n ih => exact ih (srStep_ne_zero h)

theorem setSeed_seeds {x : W64} (h : SeedsLegal s) (hx : x ≠ 0) : SeedsLegal (setSeed s x) :=
  modCore_seeds_of h fun _ _ => hx

/-! ## The shapes in which an instruction executes -/

/-- If the outcome is a next state, that state's generators are legal. -/
def NextLegal : Answer → Prop
  | .next t => SeedsLegal t
  | _ => True

/-- What an instruction does, if it keeps every generator legal. -/
def KeepsSeeds (body : State → Except Stop State) : Prop := ∀ s, SeedsLegal s → Yields SeedsLegal (body s)

theorem ite_next {c : Prop} [Decidable c] {o o' : Answer} (h : NextLegal o) (h' : NextLegal o') :
    NextLegal (if c then o else o') := iteInduction (fun _ => h) fun _ => h'

theorem withOperands_seeds {o : Option Stop} {r : Except Stop State} (h : Yields SeedsLegal r) :
    Yields SeedsLegal (withOperands o r) := by
  unfold withOperands
  split
  · exact h
  · exact trivial
  · split <;> exact trivial

theorem issueBody_seeds {u : Uses} {body : State → Except Stop State} (h : SeedsLegal s) (hb : KeepsSeeds body) :
    Yields SeedsLegal (issueBody s u body) :=
  yields_after fun _ => (withOperands_seeds (hb s h)).bind fun _ h => commitPops_seeds h

theorem conclude_seeds {len : Nat} {r : Except Stop State} (h : SeedsLegal s) (hr : Yields SeedsLegal r) :
    NextLegal (conclude s len r) := by
  cases r with
  | error x => exact stopStep_seeds _ h
  | ok t => exact hr

theorem executeLen_seeds {len : Nat} {on : Bool} {u : Uses} {body : State → Except Stop State} (h : SeedsLegal s)
    (hb : KeepsSeeds body) : NextLegal (executeLen len s on u body) := by
  cases on
  · exact advance_seeds (ready_seeds h)
  · exact conclude_seeds (ready_seeds h) (issueBody_seeds (ready_seeds h) hb)

theorem execute_seeds {on : Bool} {u : Uses} {body : State → Except Stop State} (h : SeedsLegal s)
    (hb : KeepsSeeds body) : NextLegal (execute s on u body) := executeLen_seeds h hb

theorem compute_seeds {on : Bool} {u : Uses} {body : State → Except Stop State} (h : SeedsLegal s)
    (hb : KeepsSeeds body) : NextLegal (compute s on u body) :=
  execute_seeds h fun s h => (hb s h).map fun _ h => advance_seeds h

theorem privileged_seeds {i : Instr} {k : State → Answer} (h : SeedsLegal s) (hk : NextLegal (k s)) :
    NextLegal (privileged s i k) := ite_next hk (takeTrap_seeds (ready_seeds h))

theorem csrChecked_seeds {n : Nat} {op : CsrOp} {i : Instr} {k : State → Answer} (h : SeedsLegal s)
    (hk : NextLegal (k s)) : NextLegal (csrChecked n op i s k) :=
  ite_next (takeTrap_seeds (ready_seeds h)) (ite_next hk (takeTrap_seeds (ready_seeds h)))

/-! ## Instructions of a strand -/

theorem op3_seeds {p : Pred} {d a b : SReg} {f : W64 → W64 → W64} (h : SeedsLegal s) :
    NextLegal (op3 p d a b f s) := compute_seeds h fun _ h => writeS_seeds h

theorem op2_seeds {p : Pred} {d a : SReg} {f : W64 → W64} (h : SeedsLegal s) : NextLegal (op2 p d a f s) :=
  compute_seeds h fun _ h => writeS_seeds h

theorem branch_seeds {a b : SReg} {off : BitVec 15} {c : W64 → W64 → Bool} (h : SeedsLegal s) :
    NextLegal (branch a b off c s) := execute_seeds h fun _ h => ite_seeds (jumpBy_seeds h) (advance_seeds h)

theorem execBeos_seeds {st : StreamId} {off : BitVec 15} (h : SeedsLegal s) : NextLegal (execBeos st off s) :=
  execute_seeds h fun _ h => ite_seeds (jumpBy_seeds h) (advance_seeds h)

theorem loadScalar_seeds {p : Pred} {d : SReg} {sz : LSize} {bases : List SReg} {ea : W64}
    {inc : Option (Fin 24 × W64)} {blocking : Bool} {acq : Option Scope} (h : SeedsLegal s) :
    NextLegal (loadScalar p d sz bases ea inc blocking acq s) := execute_seeds h fun _ h => loadPieces_seeds h

theorem storeScalar_seeds {p : Pred} {d : SReg} {sz : SSize} {bases : List SReg} {ea : W64}
    {inc : Option (Fin 24 × W64)} {rel : Option Scope} (h : SeedsLegal s) :
    NextLegal (storeScalar p d sz bases ea inc rel s) :=
  compute_seeds h fun _ h => yields_after fun _ => (releasing_seeds h).bind fun _ h =>
    (storeChunks_seeds h).bind fun _ h => applyInc_seeds h

theorem execPref_seeds {p : Pred} {hint : Fin 3} {a : GReg} {off : BitVec 5} (h : SeedsLegal s) :
    NextLegal (execPref p hint a off s) := by
  unfold execPref
  dsimp only
  split
  · split
    · next hok => exact advance_seeds (ChkLegal.elim (checkAddr_seeds (ready_seeds h)) hok)
    all_goals exact advance_seeds (ready_seeds h)
  · exact advance_seeds (ready_seeds h)

theorem loadPresence_seeds {p : Pred} {d : SReg} {bases : List SReg} {ea : W64} {inc : Option (Fin 24 × W64)}
    (h : SeedsLegal s) : NextLegal (loadPresence p d bases ea inc s) :=
  execute_seeds h fun _ h => yields_after fun _ => yields_after fun _ => loadPieces_seeds h

theorem storePresence_seeds {p : Pred} {d : SReg} {bases : List SReg} {ea : W64} {inc : Option (Fin 24 × W64)}
    (h : SeedsLegal s) : NextLegal (storePresence p d bases ea inc s) :=
  compute_seeds h fun _ h => yields_after fun _ => (storePresent_seeds h).bind fun _ h => applyInc_seeds h

theorem clearPresence_seeds {p : Pred} {d : SReg} {bases : List SReg} {ea : W64} {inc : Option (Fin 24 × W64)}
    (h : SeedsLegal s) : NextLegal (clearPresence p d bases ea inc s) := by
  refine execute_seeds h fun s h => ite_yields (advance_seeds h) ?_
  refine yields_after fun _ => yields_after fun _ => yields_after fun _ => ite_yields trivial ?_
  exact yields_after fun _ => sendRequest_seeds (takeSeq_seeds h)

theorem loadPresenceV_seeds {p : Pred} {d : VReg} {bases : List SReg} {ea : W64} {inc : Option (Fin 24 × W64)}
    (h : SeedsLegal s) : NextLegal (loadPresenceV p d bases ea inc s) :=
  execute_seeds h fun _ h => yields_after fun _ => yields_after fun _ => yields_after fun _ => loadPieces_seeds h

theorem storePresenceV_seeds {p : Pred} {d : VReg} {bases : List SReg} {ea : W64} {inc : Option (Fin 24 × W64)}
    (h : SeedsLegal s) : NextLegal (storePresenceV p d bases ea inc s) :=
  compute_seeds h fun _ h => yields_after fun _ => (storePresent_seeds h).bind fun _ h => applyInc_seeds h

theorem loadVector_seeds {p : Pred} {d : VReg} {bases : List SReg} {ea : W64} {inc : Option (Fin 24 × W64)}
    (h : SeedsLegal s) : NextLegal (loadVector p d bases ea inc s) :=
  execute_seeds h fun _ h => yields_after fun _ => loadPieces_seeds h

theorem storeVector_seeds {p : Pred} {d : VReg} {bases : List SReg} {ea : W64} {inc : Option (Fin 24 × W64)}
    (h : SeedsLegal s) : NextLegal (storeVector p d bases ea inc s) :=
  compute_seeds h fun _ h => yields_after fun _ => (storeChunks_seeds h).bind fun _ h => applyInc_seeds h

theorem execVgath_seeds {p : Pred} {d : VReg} {a : GReg} {ew : EWidth} {i : VReg} (h : SeedsLegal s) :
    NextLegal (execVgath p d a ew i s) := execute_seeds h fun _ h => yields_after fun _ => loadPieces_seeds h

theorem execVscat_seeds {p : Pred} {d : VReg} {a : GReg} {ew : EWidth} {i : VReg} (h : SeedsLegal s) :
    NextLegal (execVscat p d a ew i s) := compute_seeds h fun _ h => yields_after fun _ => storeChunks_seeds h

theorem execVstt_seeds {p : Pred} {d : VReg} {a : GReg} {md : LMode} {b : GReg} {ew : EWidth} (h : SeedsLegal s) :
    NextLegal (execVstt p d a md b ew s) := by
  refine compute_seeds h fun _ h => (storeChunks_seeds h).bind fun _ h => ?_
  split
  · exact h
  · exact setG_seeds (setG_seeds h)

theorem execStn_seeds {p : Pred} {d : VReg} {a : GReg} {md : LMode} {off : BitVec 4} {na : Fin 16} (h : SeedsLegal s)
    : NextLegal (execStn p d a md off na s) := by
  refine compute_seeds h fun _ h => (checkPieces_seeds _ h).bind fun ⟨_, s⟩ h => ite_yields trivial ?_
  refine (sendReductions_seeds h).bind fun _ h => ?_
  split
  · exact h
  · exact setG_seeds h

theorem atomic_seeds {d : SReg} {srcs : List SReg} {a : GReg} {n : Nat} {signed : Bool} {o : Ord} {sc : Scope}
    {kind : State → ReqKind} (h : SeedsLegal s) : NextLegal (atomic d srcs a n signed o sc kind s) :=
  execute_seeds h fun _ h => atomicReq_seeds h

theorem reduction_seeds {k : RedKind} {rel : Bool} {sc : Scope} {a : GReg} {b : SReg} (h : SeedsLegal s) :
    NextLegal (reduction k rel sc a b s) :=
  compute_seeds h fun _ h => (access_seeds h).bind fun _ h => sendReductions_seeds h

theorem acquired_seeds {a : Option Scope} (h : SeedsLegal s) : Yields (ε := Stop) SeedsLegal
    (.ok (match a with | some sc => markAcquire s s.cur (me s).uid sc | none => s)) := by
  cases a
  · exact h
  · exact markAcquire_seeds h

theorem execFence_seeds {o : Ord} {sc : Scope} {red uo : Bool} (h : SeedsLegal s) :
    NextLegal (execFence o sc red uo s) := by
  refine compute_seeds h fun s h => yields_after fun _ => ?_
  split
  · exact yields_after fun _ => acquired_seeds (markMine_seeds h)
  · exact ite_yields (yields_after fun _ => acquired_seeds h) (acquired_seeds h)

theorem execIfence_seeds (h : SeedsLegal s) : NextLegal (execIfence s) :=
  compute_seeds h fun _ h => yields_after fun _ => modMe_seeds h

theorem execIter_seeds {p : Pred} {d a : GReg} {off : BitVec 12} (h : SeedsLegal s) :
    NextLegal (execIter p d a off s) := by
  refine execute_seeds h fun s h => yields_after fun loc => yields_after fun l => ?_
  split
  · split
    · exact jumpBy_seeds h
    · exact advance_seeds (claimRegs_seeds (rmwWords_seeds _ h))
  · exact h

theorem execIteri_seeds {p : Pred} {d a : GReg} {mn : BitVec 12} (h : SeedsLegal s) :
    NextLegal (execIteri p d a mn s) :=
  compute_seeds h fun _ h => yields_after fun _ => yields_after fun _ => portWrite_seeds _ h

theorem execBar_seeds {p : Pred} {l : BarLevel} (h : SeedsLegal s) : NextLegal (execBar p l s) :=
  execute_seeds h fun _ h => arrive_seeds (fun _ _ h => modMe_seeds h) h

theorem execArrive_seeds {p : Pred} {l : BarLevel} {d : GReg} (h : SeedsLegal s) :
    NextLegal (execArrive p l d s) :=
  execute_seeds h fun _ h => arrive_seeds (fun _ _ h => advance_seeds (setG_seeds h)) h

theorem execWaitge_seeds {p : Pred} {d a b : GReg} (h : SeedsLegal s) : NextLegal (execWaitge p d a b s) :=
  compute_seeds h fun _ h => yields_after fun _ => yields_after fun _ => setG_seeds (markAcquire_seeds h)

theorem execSignal_seeds {p : Pred} {a b : GReg} (h : SeedsLegal s) : NextLegal (execSignal p a b s) := by
  refine compute_seeds h fun s h => ?_
  split
  · exact yields_after fun _ => yields_after fun _ => advanceTimeline_seeds (markMine_seeds h)
  · exact trivial

theorem execArmw_seeds {p : Pred} {d a b : GReg} (h : SeedsLegal s) : NextLegal (execArmw p d a b s) := by
  refine compute_seeds h fun s h => yields_after fun loc => yields_after fun l => ?_
  split
  · exact setG_seeds (rmwWords_seeds _ h)
  · exact h

theorem execWaitgen_seeds {p : Pred} {d a b : GReg} (h : SeedsLegal s) : NextLegal (execWaitgen p d a b s) :=
  execute_seeds h fun _ h => yields_after fun _ => yields_after fun _ => sendRequest_seeds (takeSeq_seeds h)

theorem execTuntil_seeds {p : Pred} {d a : GReg} (h : SeedsLegal s) : NextLegal (execTuntil p d a s) :=
  compute_seeds h fun _ h => ite_yields (setG_seeds h) trivial

theorem execGang_seeds {p : Pred} {d a b c : GReg} (h : SeedsLegal s) : NextLegal (execGang p d a b c s) := by
  refine compute_seeds h fun _ h => yields_after fun _ => (loadBlock_seeds h).bind fun ⟨_, s⟩ h => ?_
  dsimp only
  split
  · exact trivial
  · exact yields_after fun _ => setG_seeds (modCore_seeds (modTicket_seeds h) fun _ => rfl)

theorem execGwait_seeds {p : Pred} {d a : GReg} (h : SeedsLegal s) : NextLegal (execGwait p d a s) := by
  refine compute_seeds h fun _ h => yields_after fun o => ?_
  split
  · exact setG_seeds h
  · exact yields_after fun _ => setG_seeds (modTicket_seeds h)

theorem execGstat_seeds {p : Pred} {d a : GReg} (h : SeedsLegal s) : NextLegal (execGstat p d a s) := by
  refine compute_seeds h fun _ h => yields_after fun o => ?_
  split <;> exact setG_seeds h

theorem execGthaw_seeds {p : Pred} {a : GReg} (h : SeedsLegal s) : NextLegal (execGthaw p a s) := by
  refine compute_seeds h fun _ h => yields_after fun o => ?_
  split
  · exact h
  · exact modTicket_seeds h

theorem execMovk_seeds {p : Pred} {d : KReg} {k : BitVec 8} (h : SeedsLegal s) : NextLegal (execMovk p d k s) := by
  cases d
  · exact compute_seeds h fun _ h => yields_after fun _ => writeS_seeds h
  · exact compute_seeds h fun _ h => yields_after fun _ => writeS_seeds h
  · exact compute_seeds h fun _ h => yields_after fun _ => writeLanes_seeds h

theorem kPutPair_srseed (k : Core) (i : Nat) (x : W64) : (kPutPair k i x).srseed = k.srseed :=
  (kPut_srseed ..).trans (kPut_srseed ..)

theorem execMovtk_seeds {p : Pred} {k : BitVec 8} {a : KReg} (h : SeedsLegal s) : NextLegal (execMovtk p k a s) := by
  cases a
  · exact compute_seeds h fun _ h => modCore_seeds h fun k => kPut_srseed ..
  · exact compute_seeds h fun _ h => modCore_seeds h fun k => kPutPair_srseed ..
  · exact compute_seeds h fun _ h => modCore_seeds h fun k => kPutLanes_srseed ..

theorem execPpeek_seeds {p : Pred} {d : GReg} {port : Port} (h : SeedsLegal s) :
    NextLegal (execPpeek p d port s) := compute_seeds h fun _ h => yields_after fun _ => setG_seeds h

theorem execCpgo_seeds {p : Pred} {ch : Fin 2} {d : GReg} (h : SeedsLegal s) : NextLegal (execCpgo p ch d s) :=
  compute_seeds h fun _ h => (handCopy_seeds h).bind fun _ h => setG_seeds h

theorem execCpblk_seeds {p : Pred} {ch : Fin 2} {d a b : GReg} (h : SeedsLegal s) :
    NextLegal (execCpblk p ch d a b s) :=
  compute_seeds h fun _ h => (loadBlock_seeds h).bind fun _ h => (handCopy_seeds h).bind fun _ h => setG_seeds h

theorem execCsrr_seeds {d : SReg} {csr : BitVec 12} (h : SeedsLegal s) : NextLegal (execCsrr d csr s) := by
  unfold execCsrr
  refine csrChecked_seeds h ?_
  exact compute_seeds h fun _ h => writeS_seeds (csrLatch_seeds h)

theorem writeThenFinish_seeds {op : CsrOp} {n : Nat} {v : W64} {w : W64} {s₀ : State} (h : SeedsLegal s) :
    Yields SeedsLegal ((csrWrite s op n v w).map (csrFinish (me s₀).uid)) :=
  (csrWrite_seeds h).map fun _ h => csrFinish_seeds h

theorem csrModify_seeds {op : CsrOp} {csr : BitVec 12} {a : SReg} {i : Instr} (h : SeedsLegal s) :
    NextLegal (csrModify op csr a i s) := csrChecked_seeds h (execute_seeds h fun _ h => writeThenFinish_seeds h)

theorem csrEvent_seeds {n : Nat} {v : W64} (h : SeedsLegal s) : NextLegal (csrEvent n v s) :=
  ite_next h (execute_seeds h fun _ h => writeThenFinish_seeds h)

theorem execRett_seeds {p : Pred} (h : SeedsLegal s) : NextLegal (execRett p s) :=
  privileged_seeds h (execute_seeds h fun _ h => ite_yields trivial (returnFromTrap_seeds h))

theorem withUid_seeds {n : Nat} (h : SeedsLegal s) : SeedsLegal { s with nextUid := n } := h

theorem execSpawn_seeds {p : Pred} {d a b : GReg} (h : SeedsLegal s) : NextLegal (execSpawn p d a b s) := by
  refine compute_seeds h fun s h => yields_after fun c => ?_
  split
  · exact trivial
  refine yields_after fun _ => yields_after fun _ => yields_after fun _ => ?_
  dsimp only
  split
  · exact joinBarriers_seeds (sendOut_seeds (withUid_seeds h))
  · exact sendOut_seeds (withUid_seeds h)

theorem execEndStrand_seeds {p : Pred} (h : SeedsLegal s) : NextLegal (execEndStrand p s) :=
  execute_seeds h fun _ h => yields_after fun _ => ite_seeds (dropService_seeds h) (leaveSlot_seeds h)

theorem execSleep_seeds {p : Pred} {d a : GReg} (h : SeedsLegal s) : NextLegal (execSleep p d a s) :=
  compute_seeds h fun _ h => yields_after fun _ =>
    ite_yields (modMe_seeds (setG_seeds h)) (ite_yields (setG_seeds h) trivial)

theorem execWake_seeds {p : Pred} {a b : GReg} (h : SeedsLegal s) : NextLegal (execWake p a b s) :=
  compute_seeds h fun _ h => yields_after fun _ => yields_after fun _ => modCore_seeds h fun _ => rfl

theorem execSend_seeds {p : Pred} {d a b : GReg} {tag : BitVec 4} (h : SeedsLegal s) :
    NextLegal (execSend p d a b tag s) := compute_seeds h fun _ h => yields_after fun _ => postMessage_seeds h

theorem execSenda_seeds {p : Pred} {d a b : GReg} {tag : BitVec 4} (h : SeedsLegal s) :
    NextLegal (execSenda p d a b tag s) := compute_seeds h fun _ h => ite_yields trivial (postMessage_seeds h)

theorem execFan_seeds {p : Pred} {d a b : GReg} {dmask : BitVec 4} (h : SeedsLegal s) :
    NextLegal (execFan p d a b dmask s) := by
  refine execute_seeds h fun s h => ?_
  split
  · split
    · exact trivial
    · exact ite_yields trivial (ite_yields trivial (yields_after fun _ => fanOut_seeds h))
  · exact trivial

theorem execFtgo_seeds {p : Pred} {d a : GReg} (h : SeedsLegal s) : NextLegal (execFtgo p d a s) :=
  compute_seeds h fun _ h => (loadBlock_seeds h).bind fun ⟨_, _⟩ h => yields_after fun _ =>
    setG_seeds (modCore_seeds (takeSeq_seeds h) fun _ => rfl)

theorem fp2_seeds {p : Pred} {w : Nat} {d a b : SReg} {f : RMode → Nat → Nat → Nat × Flags} (h : SeedsLegal s) :
    NextLegal (fp2 p w d a b f s) := compute_seeds h fun _ h => writeFlagged_seeds h

theorem fp1_seeds {p : Pred} {w : Nat} {d a : SReg} {f : State → Nat → Nat × Flags} (h : SeedsLegal s) :
    NextLegal (fp1 p w d a f s) := compute_seeds h fun _ h => writeFlagged_seeds h

theorem fp3_seeds {p : Pred} {f : FmaFmt} {d a b c : SReg} {g : Fmt → RMode → Nat → Nat → Nat → Nat × Flags}
    (h : SeedsLegal s) : NextLegal (fp3 p f d a b c g s) := compute_seeds h fun _ h => writeFlagged_seeds h

/-- The generator after the draws of an instruction, where it draws at all. -/
theorem drawn_seeds {sr : Bool} {n : Nat} {x : W64} (h : SeedsLegal s) (hx : x ≠ 0) :
    SeedsLegal (if sr then setSeed s (draws n x).2 else s) := ite_seeds (setSeed_seeds h (draws_ne_zero n hx)) h

theorem fconvert_seeds {p : Pred} {sr : Bool} {dst src : Fmt} {w : Nat} {d a : SReg} (h : SeedsLegal s) :
    NextLegal (fconvert p sr dst src w d a s) :=
  compute_seeds h fun s h => (writeFlagged_seeds h).bind fun _ h' => drawn_seeds h' (coreOf_legal h s.cur)

theorem q2_seeds {p : Pred} {w : Nat} {d : GReg} {a : SReg} {f : RMode → Int → Int → Int × Flags} (h : SeedsLegal s) :
    NextLegal (q2 p w d a f s) := compute_seeds h fun _ h => writeFlagged_seeds h

theorem execScfg_seeds {p : Pred} {st : StreamId} {a : GReg} (h : SeedsLegal s) : NextLegal (execScfg p st a s) := by
  refine execute_seeds h fun _ h => (loadBlock_seeds h).bind fun ⟨_, s⟩ h => ?_
  dsimp only
  split
  · exact trivial
  · exact yields_after fun _ => ite_yields (advance_seeds (modStream_seeds (unbind_seeds h)))
      (ite_yields (unbind_seeds h) trivial)

theorem execSbind_seeds {p : Pred} {st : StreamId} {port : Option Port} (h : SeedsLegal s) :
    NextLegal (execSbind p st port s) := by
  refine compute_seeds h fun s h => yields_after fun _ => ?_
  split
  · exact unbind_seeds h
  · exact ite_yields trivial (modStream_seeds h)

theorem execSstop_seeds {p : Pred} {st : StreamId} (h : SeedsLegal s) : NextLegal (execSstop p st s) :=
  compute_seeds h fun _ h => yields_after fun _ =>
    ite_yields h (modStream_seeds (dropRead_seeds (unbind_seeds h)))

theorem execSrew_seeds {p : Pred} {st : StreamId} {a : GReg} (h : SeedsLegal s) : NextLegal (execSrew p st a s) :=
  compute_seeds h fun _ h => yields_after fun _ =>
    ite_yields trivial (ite_yields trivial (modStream_seeds (dropRead_seeds h)))

theorem execSflush_seeds {p : Pred} {st : StreamId} (h : SeedsLegal s) : NextLegal (execSflush p st s) :=
  compute_seeds h fun _ h => yields_after fun _ => ite_seeds h (dropRead_seeds h)

theorem execSskip_seeds {p : Pred} {st : StreamId} {a : GReg} (h : SeedsLegal s) :
    NextLegal (execSskip p st a s) :=
  compute_seeds h fun _ h => yields_after fun _ =>
    ite_yields trivial (ite_yields trivial (ite_yields h (modStream_seeds h)))

theorem tileOperation_seeds {op : Nat} {p : Pred} {d a b : GReg} (h : SeedsLegal s) :
    NextLegal (tileOperation op p d a b s) := by
  refine compute_seeds h fun _ h => (loadSlots_seeds _ h).bind fun ⟨ds, s⟩ h => ?_
  refine (takeSeqr_seeds h).bind fun ⟨e, s⟩ h => ?_
  refine Yields.iteBind (recordTop_seeds h) (yields_pair h) fun ⟨_, s⟩ h => ?_
  exact (handSeq_seeds h).bind fun _ h => setG_seeds h

theorem execRecon_seeds {p : Pred} {a b : GReg} (h : SeedsLegal s) : NextLegal (execRecon p a b s) :=
  compute_seeds h fun _ h => yields_after fun _ => yields_after fun _ =>
    ite_yields (modMe_seeds h) (modMe_seeds h)

theorem execRecmark_seeds {p : Pred} {a : GReg} (h : SeedsLegal s) : NextLegal (execRecmark p a s) :=
  compute_seeds h fun _ h => yields_after fun _ => ite_yields h (yields_after fun _ => appendRecord_seeds h)

theorem execReverse_seeds {p : Pred} {d a : GReg} (h : SeedsLegal s) : NextLegal (execReverse p d a s) := by
  refine compute_seeds h fun s h => ite_yields trivial (yields_after fun _ => ?_)
  refine Yields.iteBind (P := fun x : List W64 × Found × State => SeedsLegal x.2.2) (yields_ok h)
    (walkLog_seeds _ _ h) fun ⟨_, _, s⟩ h => ?_
  exact (takeSeqr_seeds h).bind fun ⟨_, s⟩ h => (handSeq_seeds h).bind fun _ h => setG_seeds (modMe_seeds h)

theorem laneOp_seeds {len : Nat} {p : Pred} {f : LFmt} {d : VReg} {u : Uses} {g : State → Nat → Nat × Flags}
    (h : SeedsLegal s) : NextLegal (laneOp len p f d u g s) :=
  executeLen_seeds h fun _ h => (writeResults_seeds h).bind fun _ h => advance_seeds h

theorem lane2_seeds {len : Nat} {p : Pred} {f : LFmt} {d a b : VReg} {g : RMode → Nat → Nat → Nat × Flags}
    (h : SeedsLegal s) : NextLegal (lane2 len p f d a b g s) := laneOp_seeds h

theorem lane1_seeds {len : Nat} {p : Pred} {f : LFmt} {d a : VReg} {g : Nat → Nat × Flags} (h : SeedsLegal s) :
    NextLegal (lane1 len p f d a g s) := laneOp_seeds h

theorem lane3_seeds {p : Pred} {f : FFmt} {lf : LFmt} {d a b c : VReg}
    {g : Fmt → RMode → Nat → Nat → Nat → Nat × Flags} (h : SeedsLegal s) : NextLegal (lane3 p f lf d a b c g s) :=
  laneOp_seeds h

theorem broadcast_seeds {len : Nat} {p : Pred} {f : LFmt} {d a : VReg} {j : Nat} (h : SeedsLegal s) :
    NextLegal (broadcast len p f d a j s) := laneOp_seeds h

theorem withP_seeds {p : Pred} {w : Nat} {dotP : Bool} {u : Uses} {k : State → Answer} (h : SeedsLegal s)
    (hk : NextLegal (k s)) : NextLegal (withP p w dotP u k s) :=
  ite_next (compute_seeds h fun _ h => yields_after fun _ => foldl_seeds (fun _ _ h => popOff_seeds h) _ h) hk

theorem execVcmp_seeds {p : Pred} {cc : VCond} {f : LFmt} {d : MReg} {a b : VReg} (h : SeedsLegal s) :
    NextLegal (execVcmp p cc f d a b s) := compute_seeds h fun _ h => (raise_seeds h).bind fun _ h => setM_seeds h

theorem execVins_seeds {p : Pred} {f : LFmt} {d : Fin 8} {a : SReg} {j : BitVec 5} (h : SeedsLegal s) :
    NextLegal (execVins p f d a j s) := compute_seeds h fun _ h => writeLanes_seeds h

theorem reduceLanes_seeds {p : Pred} {op : RedOp} {f : LFmt} {d a : VReg} (h : SeedsLegal s) :
    NextLegal (reduceLanes p op f d a s) := compute_seeds h fun _ h => (raise_seeds h).bind fun _ h => writeV_seeds h

theorem estimateLanes_seeds {op : EstOp} {p : Pred} {f : LFmt} {dotP : Bool} {d a : VReg} (h : SeedsLegal s) :
    NextLegal (estimateLanes op p f dotP d a s) := withP_seeds h (lane1_seeds h)

theorem execVlop3_seeds {p : Pred} {d : Fin 8} {a b : VReg} {table : BitVec 8} (h : SeedsLegal s) :
    NextLegal (execVlop3 p d a b table s) := compute_seeds h fun _ h => writeLanes_seeds h

theorem convertLanes_seeds {p : Pred} {sr : Bool} {ws wd part : Nat} {d : VReg} {srcs : List VReg}
    {g : State → Nat → Nat → Option Nat → Nat × Flags} (h : SeedsLegal s) :
    NextLegal (convertLanes p sr ws wd part d srcs g s) :=
  compute_seeds h fun s h => (writeResults_seeds h).bind fun _ h' => drawn_seeds h' (coreOf_legal h s.cur)

theorem execVcvt_seeds {p : Pred} {sr : Bool} {k : VcvtKind} {part : BitVec 3} {d a : VReg} (h : SeedsLegal s) :
    NextLegal (execVcvt p sr k part d a s) := by
  unfold execVcvt
  exact convertLanes_seeds h

theorem execVnarrow_seeds {p : Pred} {sr : Bool} {dst : NarrowDst} {part : BitVec 3} {d a : VReg} (h : SeedsLegal s) :
    NextLegal (execVnarrow p sr dst part d a s) := by
  unfold execVnarrow
  exact convertLanes_seeds h

theorem execVwiden_seeds {p : Pred} {dst : WidenDst} {src : WidenSrc} {part : BitVec 3} {d a : VReg}
    (h : SeedsLegal s) : NextLegal (execVwiden p dst src part d a s) := by
  unfold execVwiden
  exact convertLanes_seeds h

end Sys2Proof.Machine
end

section
/-!
SRSEED stays legal (O57): every step of the part and of the world outside it.
-/
namespace Sys2Proof.Machine

variable {s t : State}

/-! ## Steps of the part and of the world outside it -/

theorem execGangTimedStart_seeds {c : CoreId} {slot : Fin 4} (h : SeedsLegal s) :
    NextLegal (execGangTimedStart c slot s) := ite_next (modTicket_seeds h) h

theorem execCopyAccept_seeds {c : CoreId} {ch : Fin 3} {n : Nat} {refuse : Option Nat} (h : SeedsLegal s) :
    NextLegal (execCopyAccept c ch n refuse s) := by
  unfold execCopyAccept
  split
  · exact h
  refine ite_seeds h ?_
  split
  · exact acceptCopy_seeds h
  · exact ite_seeds h (modCopy_seeds h)

theorem execCopyRefusalRetry_seeds {c : CoreId} {ch : Fin 3} {n : Nat} (h : SeedsLegal s) :
    NextLegal (execCopyRefusalRetry c ch n s) := by
  unfold execCopyRefusalRetry
  split
  · exact h
  split
  · exact ite_seeds (modCopy_seeds h) h
  · exact h

theorem execNvmeCompletion_seeds {idx : Nat} {mediaError : Bool} (h : SeedsLegal s) :
    NextLegal (execNvmeCompletion idx mediaError s) := by
  unfold execNvmeCompletion
  split
  · exact h
  dsimp only
  next op _ =>
    have h' : SeedsLegal { s with flash := s.flash.eraseIdx idx } := h
    split
    · exact h'
    refine ite_seeds h' (ite_seeds h' (ite_seeds ?_ (ite_seeds ?_ (modCopy_seeds h'))))
    · exact foldl_seeds (fun _ _ h => failWord_seeds h) _ h'
    · exact foldl_seeds (fun _ _ h => landNow_seeds h) _ h'

theorem execCopyLanding_seeds {c : CoreId} {ch : Fin 3} {n word : Nat} (h : SeedsLegal s) :
    NextLegal (execCopyLanding c ch n word s) := by
  unfold execCopyLanding
  split
  · exact h
  refine ite_seeds (landNow_seeds h) (ite_seeds h ?_)
  split
  · exact flashLanding_seeds h
  · exact landNow_seeds h

theorem execCopyComplete_seeds {c : CoreId} {ch : Fin 3} {n : Nat} (h : SeedsLegal s) :
    NextLegal (execCopyComplete c ch n s) := by
  unfold execCopyComplete
  split
  · exact h
  · exact ite_seeds (finishCopy_seeds h) h

theorem execCopyFault_seeds {c : CoreId} {ch : Fin 3} {n word : Nat} (h : SeedsLegal s) :
    NextLegal (execCopyFault c ch n word s) := by
  unfold execCopyFault
  split
  · exact h
  refine ite_seeds h ?_
  split
  · exact finishCopy_seeds h
  · exact modCopy_seeds (postFault_seeds h)
  · exact h

theorem execLoadResponse_seeds {c : CoreId} {slot : Slot} {idx : Nat} (h : SeedsLegal s) :
    NextLegal (execLoadResponse c slot idx s) := by
  unfold execLoadResponse
  dsimp only
  split
  · exact h
  · exact ite_seeds h (asStrand_seeds
      (fun _ h => ite_seeds (modMe_seeds h) (ite_seeds (answerRejected_seeds h) (takeAnswer_seeds h))) h)

theorem execStorePerform_seeds {c : CoreId} {idx : Nat} (h : SeedsLegal s) :
    NextLegal (execStorePerform c idx s) := by
  unfold execStorePerform
  split
  · exact h
  · exact ite_seeds (performStore_seeds h) h

theorem execFaultAcknowledgement_seeds {c : CoreId} {idx : Nat} (h : SeedsLegal s) :
    NextLegal (execFaultAcknowledgement c idx s) := by
  unfold execFaultAcknowledgement
  split
  · exact h
  · exact ite_seeds (rejectStore_seeds h) h

theorem execReleaseComplete_seeds {c : CoreId} {slot : Slot} (h : SeedsLegal s) :
    NextLegal (execReleaseComplete c slot s) := by
  unfold execReleaseComplete
  refine ite_seeds h ?_
  dsimp only
  split
  · exact ite_seeds (settleArrivals_seeds h) (modStrand_seeds (settleArrivals_seeds h))
  · exact settleArrivals_seeds h

theorem execSleepDeadline_seeds {c : CoreId} {slot : Slot} (h : SeedsLegal s) :
    NextLegal (execSleepDeadline c slot s) := by
  unfold execSleepDeadline
  dsimp only
  split
  · exact ite_seeds (modStrand_seeds h) h
  · exact h

theorem execTuntilDeadline_seeds {c : CoreId} {slot : Slot} (h : SeedsLegal s) :
    NextLegal (execTuntilDeadline c slot s) := by
  unfold execTuntilDeadline
  dsimp only
  split
  · exact ite_seeds (modStrand_seeds h) h
  · exact h

theorem execPageWalk_seeds {c : CoreId} {slot : Slot} (h : SeedsLegal s) : NextLegal (execPageWalk c slot s) := by
  unfold execPageWalk
  dsimp only
  split
  · exact ite_seeds (walkFor_seeds h) h
  · exact h

theorem execLeaseGrant_seeds {node page : Nat} {granted : Bool} {size : Nat} {rd wr : Bool} {epoch : W32}
    (h : SeedsLegal s) : NextLegal (execLeaseGrant node page granted size rd wr epoch s) :=
  ite_seeds h (h.of_eq rfl rfl)

theorem execLeaseRecall_seeds {node page : Nat} (h : SeedsLegal s) : NextLegal (execLeaseRecall node page s) := by
  unfold execLeaseRecall
  split
  · exact h
  · exact ite_seeds ((dropLeased_seeds h).of_eq rfl rfl) ((dropLeased_seeds h).of_eq rfl rfl)

theorem execSeamContextTimeout_seeds {c : CoreId} {link : Port} {idx : Nat} (h : SeedsLegal s) :
    NextLegal (execSeamContextTimeout c link idx s) := by
  unfold execSeamContextTimeout
  split
  · exact h
  · exact ite_seeds (modCore_seeds h fun _ => rfl) h

theorem execTagWiden_seeds {token : Nat} (h : SeedsLegal s) : NextLegal (execTagWiden token s) := by
  unfold execTagWiden
  split
  · exact h
  · exact ite_seeds (widenTag_seeds h) h

theorem execFanStartMessage_seeds {idx : Nat} (h : SeedsLegal s) : NextLegal (execFanStartMessage idx s) := by
  unfold execFanStartMessage
  split
  · exact h
  split
  · exact ite_seeds h (passFan_seeds h)
  · exact arrival_seeds h

theorem execNetworkRetry_seeds {idx : Nat} (h : SeedsLegal s) : NextLegal (execNetworkRetry idx s) := by
  unfold execNetworkRetry
  split
  · exact h
  · exact withNet_seeds h

theorem execWakeDelivery_seeds {idx : Nat} (h : SeedsLegal s) : NextLegal (execWakeDelivery idx s) := by
  unfold execWakeDelivery
  split
  · exact h
  split
  · refine ite_seeds h (ite_seeds (dropPacket_seeds h) ?_)
    split
    · exact modStrand_seeds (dropPacket_seeds h)
    · exact modStrand_seeds (dropPacket_seeds h)
  · exact h

theorem execScopeMissMessage_seeds {idx : Nat} (h : SeedsLegal s) : NextLegal (execScopeMissMessage idx s) := by
  unfold execScopeMissMessage
  split
  · exact h
  split
  · refine ite_seeds h ?_
    split
    · exact accept_seeds h
    · exact dropPacket_seeds h
  · exact h

theorem execScopeMissAutoWiden_seeds {idx : Nat} (h : SeedsLegal s) : NextLegal (execScopeMissAutoWiden idx s) := by
  unfold execScopeMissAutoWiden
  split
  · exact h
  split
  · refine ite_seeds h ?_
    split
    · exact accept_seeds h
    · exact dropPacket_seeds h
  · exact h

theorem execSlotActivation_seeds {c : CoreId} (h : SeedsLegal s) : NextLegal (execSlotActivation c s) := by
  unfold execSlotActivation
  dsimp only
  split
  · refine ite_seeds h ?_
    split
    · exact ite_seeds (activate_seeds h) (ite_seeds (activate_seeds h) h)
    · exact activate_seeds h
  · exact h

theorem execFaultMessageArrival_seeds {idx : Nat} (h : SeedsLegal s) : NextLegal (execFaultMessageArrival idx s) := by
  unfold execFaultMessageArrival
  split
  · exact h
  split
  · refine ite_seeds h ?_
    split
    · exact dropServiceFault_seeds (dropPacket_seeds h)
    · exact ite_seeds (withNet_seeds h) (modCluster_seeds (dropPacket_seeds h))
  · exact h

theorem execServiceStrandStart_seeds {cl : Nat} (h : SeedsLegal s) : NextLegal (execServiceStrandStart cl s) := by
  unfold execServiceStrandStart
  dsimp only
  split
  · exact h
  refine ite_seeds h (ite_seeds (defaultReply_seeds h) ?_)
  split
  · exact h
  · exact putStrand_seeds (withUid_seeds (popMailbox_seeds h))

theorem execFaultSlotTimeout_seeds {cl : Nat} (h : SeedsLegal s) : NextLegal (execFaultSlotTimeout cl s) := by
  unfold execFaultSlotTimeout
  dsimp only
  split
  · exact h
  · exact ite_seeds h (ite_seeds (defaultReply_seeds h) (ite_seeds (defaultReply_seeds h) h))

theorem execLinkReplay_seeds {idx : Nat} (h : SeedsLegal s) : NextLegal (execLinkReplay idx s) := by
  unfold execLinkReplay
  split
  · exact h
  · exact ite_seeds h (ite_seeds (withNet_seeds h) (countPoisoned_seeds (withNet_seeds h)))

theorem execOptimiserPiece_seeds {c : CoreId} {n piece : Nat} (h : SeedsLegal s) :
    NextLegal (execOptimiserPiece c n piece s) := by
  unfold execOptimiserPiece
  split
  · exact h
  refine ite_seeds h ?_
  split
  · exact startFoot_seeds h
  · exact performPiece_seeds h

theorem execOptimiserComplete_seeds {c : CoreId} {n : Nat} (h : SeedsLegal s) :
    NextLegal (execOptimiserComplete c n s) := by
  unfold execOptimiserComplete
  split
  · exact h
  · exact ite_seeds (finishFoot_seeds h) h

theorem execFootingAtomic_seeds {c : CoreId} {idx : Nat} (h : SeedsLegal s) :
    NextLegal (execFootingAtomic c idx s) := by
  unfold execFootingAtomic
  split
  · exact h
  · exact ite_seeds h (performRed_seeds h)

theorem execShadowCombine_seeds {c : CoreId} {idx : Nat} (h : SeedsLegal s) :
    NextLegal (execShadowCombine c idx s) := by
  unfold execShadowCombine
  split
  · exact h
  · exact ite_seeds h (combineShadow_seeds h)

theorem execReductionAck_seeds {c : CoreId} {idx : Nat} (h : SeedsLegal s) :
    NextLegal (execReductionAck c idx s) := by
  unfold execReductionAck
  split
  · exact h
  refine ite_seeds (ackRed_seeds h) (ite_seeds h ?_)
  dsimp only
  split
  · exact ite_seeds (ackRed_seeds (performRed_seeds h)) (performRed_seeds h)
  · exact performRed_seeds h

theorem execShadowMerge_seeds {die : Fin 4} {idx : Nat} (h : SeedsLegal s) :
    NextLegal (execShadowMerge die idx s) := by
  unfold execShadowMerge
  split
  · exact h
  · exact ite_seeds (mergeUnits_seeds h) h

theorem execShadowCapacityMerge_seeds {die : Fin 4} (h : SeedsLegal s) :
    NextLegal (execShadowCapacityMerge die s) := by
  unfold execShadowCapacityMerge
  split
  · exact h
  · exact ite_seeds (mergeUnits_seeds h) h

theorem execPriorityAging_seeds {part idx : Nat} (h : SeedsLegal s) : NextLegal (execPriorityAging part idx s) := by
  unfold execPriorityAging
  split
  · exact h
  split
  · exact h
  · exact ite_seeds (modPart_seeds h fun _ _ hx => hx) h

theorem execSchedulerPlace_seeds {part idx cx cy : Nat} (h : SeedsLegal s) :
    NextLegal (execSchedulerPlace part idx cx cy s) := by
  unfold execSchedulerPlace
  dsimp only
  split
  · exact h
  · exact ite_seeds h (placeUnit_seeds (modPart_seeds h fun _ _ hx => hx))

theorem execBondCompletion_seeds {b : Nat} (h : SeedsLegal s) : NextLegal (execBondCompletion b s) := by
  unfold execBondCompletion
  split
  · exact h
  · exact ite_seeds h (markDone_seeds (withBonds_seeds (freeClusters_seeds (releaseSeqr_seeds (releaseBond_seeds h)))))

theorem execLaunch_seeds {q : Nat} (h : SeedsLegal s) : NextLegal (execLaunch q s) := by
  unfold execLaunch
  split
  · exact h
  · exact ite_seeds (failPacket_seeds h) (ite_seeds (failPacket_seeds h) (passHand_seeds (modPart_seeds (h.of_eq rfl rfl) fun _ _ hx => hx)))

theorem execActive_seeds {q : Nat} (h : SeedsLegal s) : NextLegal (execActive q s) := by
  unfold execActive
  split
  · exact h
  · exact ite_seeds h (ite_seeds (failPacket_seeds h) (passHand_seeds (withNet_seeds h)))

theorem execCopy_seeds {q : Nat} (h : SeedsLegal s) : NextLegal (execCopy q s) := by
  unfold execCopy
  split
  · exact h
  · exact ite_seeds h (passHand_seeds (modChan_seeds h))

theorem execPacketComplete_seeds {q n : Nat} (h : SeedsLegal s) : NextLegal (execPacketComplete q n s) := by
  unfold execPacketComplete
  split
  · exact h
  · exact completePacket_seeds h

theorem execQcfgWrite_seeds {q : Nat} {v : W64} (h : SeedsLegal s) : NextLegal (execQcfgWrite q v s) :=
  ite_seeds (ite_seeds h (modQueue_seeds h))
    (ite_seeds (fetchPacket_seeds (modQueue_seeds (launchJob_seeds h))) (modQueue_seeds h))

theorem execPartitionAssign_seeds {part : Nat} {clusters memStacks keys : List Nat} {window : Option (Nat × Nat)}
    (h : SeedsLegal s) : NextLegal (execPartitionAssign part clusters memStacks keys window s) := by
  unfold execPartitionAssign
  refine ite_seeds h (extendMeasure_seeds (bindKeys_seeds (foldl_seeds (fun _ _ h => modCluster_seeds h) _ ?_)))
  exact modPart_seeds h fun _ _ hx => by cases hx

theorem execPartitionHalt_seeds {part : Nat} (h : SeedsLegal s) : NextLegal (execPartitionHalt part s) :=
  ite_seeds h (haltStep_seeds (fun _ h => savePartition_seeds h) h)

theorem execPartitionTeardown_seeds {part : Nat} (h : SeedsLegal s) : NextLegal (execPartitionTeardown part s) := by
  unfold execPartitionTeardown
  split
  · exact h
  · exact modPart_seeds h fun _ _ hx => hx
  · exact haltStep_seeds (fun _ h => tearDown_seeds h) h
  · exact tearDown_seeds h

theorem execPtpMessage_seeds {slow fast : BitVec 6} {err : W32} (h : SeedsLegal s) :
    NextLegal (execPtpMessage slow fast err s) := ite_seeds h (noteMet_seeds (advancePlumb_seeds (h.of_eq rfl rfl)))

theorem execFirmwareImage_seeds {image version : Nat} (h : SeedsLegal s) :
    NextLegal (execFirmwareImage image version s) := ite_seeds h (ite_seeds (bringUp_seeds _) (lostState_seeds _))

theorem execSecurityAlarm_seeds {cause : AlarmCause} (h : SeedsLegal s) : NextLegal (execSecurityAlarm cause s) :=
  ite_seeds h ((lostState_seeds s).of_eq rfl rfl)

theorem execControlStateError_seeds {owner : ErrOwner} (h : SeedsLegal s) :
    NextLegal (execControlStateError owner s) := by
  cases owner
  · exact killJob_seeds h
  · exact bringUp_seeds s

theorem execHostRegisterWrite_seeds {r : HostReg} {v : W64} (h : SeedsLegal s) :
    NextLegal (execHostRegisterWrite r v s) := by
  cases r
  · exact ite_seeds h (modQueue_seeds h)
  · exact modQueue_seeds h
  · exact bringUp_seeds s

theorem bar0Write_seeds {off : Nat} {v : W64} (h : SeedsLegal s) : NextLegal (bar0Write off v s) := by
  unfold bar0Write
  split
  · dsimp only
    split
    · exact execHostRegisterWrite_seeds h
    · exact execQcfgWrite_seeds h
    · exact execHostRegisterWrite_seeds h
    · exact fetchPacket_seeds h
    · exact h
  split
  · dsimp only
    split
    · exact ite_seeds h (modJob_seeds h)
    · exact ite_seeds h (modJob_seeds h)
    · exact ite_seeds h (modJob_seeds h)
    · exact ite_seeds h (modJob_seeds h)
    · exact h
  · exact h

theorem execPeerAccess_seeds {part : Nat} {peer : Lessee} {off : Nat} {write : Option W64} (h : SeedsLegal s) :
    NextLegal (execPeerAccess part peer off write s) := by
  unfold execPeerAccess
  dsimp only
  split
  · exact h
  · exact ite_seeds h (outsideAccess_seeds h)

theorem execUstisFrame_seeds {node seq : Nat} (h : SeedsLegal s) : NextLegal (execUstisFrame node seq s) :=
  ite_seeds h (h.of_eq rfl rfl)

theorem execUstisRetransmitTimeout_seeds {node : Nat} (h : SeedsLegal s) :
    NextLegal (execUstisRetransmitTimeout node s) := ite_seeds h (ite_seeds (h.of_eq rfl rfl) (h.of_eq rfl rfl))

theorem execSeqCommand_seeds {die : Fin 4} {q : Fin 8} {splits : List (List Nat)} {staged : List (Nat × Byte)}
    {accs : List (Nat × W32)} {act : SeqAct} (h : SeedsLegal s) :
    NextLegal (execSeqCommand die q splits staged accs act s) := by
  unfold execSeqCommand
  split
  · exact h
  dsimp only
  next b m _ =>
    have run_seeds {r : W64} (hm : SeqCmd) : SeedsLegal (if regionOk s b r then
        stepSeq (leaveStaging (modSeq s die q m.n fun _ => hm) r staged accs) die q b hm r splits act
      else endSeq s die q m.n 0x08) :=
      ite_seeds (stepSeq_seeds (leaveStaging_seeds (modSeq_seeds h))) (endSeq_seeds h)
    split
    · exact endSeq_seeds h
    · exact ite_seeds (run_seeds _) (endSeq_seeds h)
    · exact run_seeds _

theorem execSeqCommandComplete_seeds {die : Fin 4} {q : Fin 8} (h : SeedsLegal s) :
    NextLegal (execSeqCommandComplete die q s) := by
  unfold execSeqCommandComplete
  split
  · exact ite_seeds (finishSeq_seeds h) h
  · exact h

/-! ## Every instruction and every step of the part -/

/-- Every instruction and every step of the part keeps every generator legal. -/
theorem exec_seeds (i : Instr) (h : SeedsLegal s) : NextLegal (exec i s) := by
  unfold exec
  cases i with
  | add | sub | and | or | xor | andn | orn | sll | srl | sra | rol | ror | min | max | minu | maxu | slt | sltu | seq
  | sne | fshl | fshr | mul | mulh | mulhu | div | divu | rem | remu => exact op3_seeds h
  | addi | andi | ori | xori | slli | srli | srai | roli | slti | sltiu | clz | ctz | popc | brev | bswap | sextB | sextH
  | sextW | zextB | zextH | zextW => exact op2_seeds h
  | lui | auipc | getm | vext => exact compute_seeds h fun _ h => writeS_seeds h
  | sel | lop3 | tnow | spos => exact compute_seeds h fun _ h => setG_seeds h
  | setm | mand | mor | mnot => exact compute_seeds h fun _ h => setM_seeds h
  | beq | bne | blt | bge | bltu | bgeu => exact branch_seeds h
  | j => exact execute_seeds h fun _ h => jumpBy_seeds h
  | jal => exact execute_seeds h fun _ h => jumpBy_seeds (writeS_seeds h)
  | jalr => exact execute_seeds h fun _ h => modMe_seeds (writeS_seeds h)
  | beos => exact execBeos_seeds h
  | ld | ldIndexed | lda => exact loadScalar_seeds h
  | st | stIndexed | stl => exact storeScalar_seeds h
  | pref => exact execPref_seeds h
  | ldp | ldpIndexed => exact loadPresence_seeds h
  | stp | stpIndexed => exact storePresence_seeds h
  | clrp | clrpIndexed => exact clearPresence_seeds h
  | vldp | vldpIndexed => exact loadPresenceV_seeds h
  | vstp | vstpIndexed => exact storePresenceV_seeds h
  | vld | vldIndexed => exact loadVector_seeds h
  | vst | vstIndexed => exact storeVector_seeds h
  | vgath => exact execVgath_seeds h
  | vscat => exact execVscat_seeds h
  | vstt => exact execVstt_seeds h
  | stn => exact execStn_seeds h
  | amo | cas | casXchg | famo => exact atomic_seeds h
  | red | fred => exact reduction_seeds h
  | fence => exact execFence_seeds h
  | ifence => exact execIfence_seeds h
  | iter => exact execIter_seeds h
  | iteri => exact execIteri_seeds h
  | bar => exact execBar_seeds h
  | arrive => exact execArrive_seeds h
  | waitge => exact execWaitge_seeds h
  | waitgen => exact execWaitgen_seeds h
  | signal => exact execSignal_seeds h
  | armw => exact execArmw_seeds h
  | tuntil => exact execTuntil_seeds h
  | fadd | fsub | fmul | fdiv | fmin | fmax | fsgn | fcmp => exact fp2_seeds h
  | fsqrt | fclass | icvtf | frnd => exact fp1_seeds h
  | fma | fms | fnma => exact fp3_seeds h
  | fcvt | fcvtWideToB8 | fcvtB8ToWide => exact fconvert_seeds h
  | fcvti | qsqrt => exact compute_seeds h fun _ h => writeFlagged_seeds h
  | qmul | qdiv => exact q2_seeds h
  | vadd | vsub | vmul | vmulh | vmin | vmax | vand | vor | vxor | vshl | vshr | vsra | cVadd | cVsub | cVmul | cVmin
  | cVmax | cVand | cVor | cVxor | cVshl | cVshr | cVsra => exact lane2_seeds h
  | cVmov | cVabs | cVneg => exact lane1_seeds h
  | vbcast | cVbcast => exact broadcast_seeds h
  | vsel | vclamp | vshuf | vrot | vlut | vdot | cVmac => exact laneOp_seeds h
  | vfma | vfms => exact lane3_seeds h
  | vabs | vneg | vmov => exact withP_seeds h (lane1_seeds h)
  | viota => exact withP_seeds h (laneOp_seeds h)
  | vred => exact withP_seeds h (reduceLanes_seeds h)
  | vexp2 | vlog2 | vrcp | vrsq | vtanh => exact estimateLanes_seeds h
  | vcmp => exact execVcmp_seeds h
  | vins => exact execVins_seeds h
  | vlop3 => exact execVlop3_seeds h
  | vcvt => exact execVcvt_seeds h
  | vnarrow => exact execVnarrow_seeds h
  | vwiden => exact execVwiden_seeds h
  | scfg => exact execScfg_seeds h
  | sbind => exact execSbind_seeds h
  | sstop => exact execSstop_seeds h
  | srew => exact execSrew_seeds h
  | sflush => exact execSflush_seeds h
  | sskip => exact execSskip_seeds h
  | spawn => exact execSpawn_seeds h
  | endStrand => exact execEndStrand_seeds h
  | yield => exact compute_seeds h fun _ h => modMe_seeds h
  | sleep => exact execSleep_seeds h
  | wake => exact execWake_seeds h
  | send => exact execSend_seeds h
  | senda => exact execSenda_seeds h
  | fan => exact execFan_seeds h
  | prio => exact compute_seeds h fun _ h => modMe_seeds (setG_seeds h)
  | gang => exact execGang_seeds h
  | gwait => exact execGwait_seeds h
  | gstat => exact execGstat_seeds h
  | gthaw => exact execGthaw_seeds h
  | movk => exact execMovk_seeds h
  | movtk => exact execMovtk_seeds h
  | ppeek => exact execPpeek_seeds h
  | topTmm | topTadd | topTmul | topTscale | topTact | topTsum | topTsoft | topTnorm | topTlay | topTcopy =>
    exact tileOperation_seeds h
  | recon => exact execRecon_seeds h
  | recoff => exact compute_seeds h fun _ h => modMe_seeds h
  | recmark => exact execRecmark_seeds h
  | reverse => exact execReverse_seeds h
  | cpgo => exact execCpgo_seeds h
  | cpblk => exact execCpblk_seeds h
  | ftgo => exact execFtgo_seeds h
  | csrr => exact execCsrr_seeds h
  | csrw | csrs | csrc => exact csrModify_seeds h
  | trap | ecall | ebreak => exact execute_seeds h fun _ _ => trivial
  | rett => exact execRett_seeds h
  | illegalInstruction => exact takeTrap_seeds (ready_seeds h)
  | hirqWrite | nactlWrite | tlbinvAll | tlbinvVa | containWrite | smrelWrite | fractResume | fractSkip | fractKill =>
    exact csrEvent_seeds h
  | nalRead => exact compute_seeds h fun _ h => writeS_seeds (csrLatch_seeds h)
  | loadResponse => exact execLoadResponse_seeds h
  | storePerform => exact execStorePerform_seeds h
  | reductionAck => exact execReductionAck_seeds h
  | releaseComplete => exact execReleaseComplete_seeds h
  | faultAcknowledgement => exact execFaultAcknowledgement_seeds h
  | slicePortRequest | stackAccess => exact stepPart_seeds h
  | networkRetry => exact execNetworkRetry_seeds h
  | spawnRequest | message | completionMessage | gangWakeMessage => exact arrival_seeds h
  | fanStartMessage => exact execFanStartMessage_seeds h
  | wakeDelivery => exact execWakeDelivery_seeds h
  | scopeMissMessage => exact execScopeMissMessage_seeds h
  | scopeMissAutoWiden => exact execScopeMissAutoWiden_seeds h
  | tagWiden => exact execTagWiden_seeds h
  | slotActivation => exact execSlotActivation_seeds h
  | outboundSend => exact ite_seeds h (sendNext_seeds h)
  | sleepDeadline => exact execSleepDeadline_seeds h
  | fanTimedStart => exact fanOnTick_seeds _ h
  | bondCompletion => exact execBondCompletion_seeds h
  | schedulerPlace => exact execSchedulerPlace_seeds h
  | priorityAging => exact execPriorityAging_seeds h
  | streamReadFetch => exact streamFetch_seeds h
  | streamWritePerform => exact streamPerform_seeds h
  | boundStreamPush => exact boundPush_seeds h
  | boundStreamPop => exact boundPop_seeds h
  | gangClaim => exact claimGang_seeds h
  | gangTimedStart => exact execGangTimedStart_seeds h
  | wsLatchEntry => exact latchEntry_seeds h
  | gangPulse => exact pulseCell_seeds h
  | gangComplete => exact completeGang_seeds h
  | gangThawRequest => exact requestThaw_seeds h
  | gangPreemptThaw => exact preemptThaw_seeds h
  | gangFaultThaw => exact faultThaw_seeds h
  | seamBufferForward => exact seamForward_seeds h
  | seamContextTimeout => exact execSeamContextTimeout_seeds h
  | pageWalk => exact execPageWalk_seeds h
  | leaseGrant => exact execLeaseGrant_seeds h
  | leaseRecall => exact execLeaseRecall_seeds h
  | peerAccess => exact execPeerAccess_seeds h
  | copyAccept => exact execCopyAccept_seeds h
  | copyRefusalRetry => exact execCopyRefusalRetry_seeds h
  | copyTimedStart => exact startCopy_seeds h
  | copyLanding => exact execCopyLanding_seeds h
  | copyComplete => exact execCopyComplete_seeds h
  | copyFault => exact execCopyFault_seeds h
  | footingAtomic => exact execFootingAtomic_seeds h
  | optimiserPiece => exact execOptimiserPiece_seeds h
  | optimiserComplete => exact execOptimiserComplete_seeds h
  | seqCommand => exact execSeqCommand_seeds h
  | seqCommandComplete => exact execSeqCommandComplete_seeds h
  | faultMessageArrival => exact execFaultMessageArrival_seeds h
  | serviceStrandStart => exact execServiceStrandStart_seeds h
  | faultSlotTimeout => exact execFaultSlotTimeout_seeds h
  | eccCorrected => exact countCorrected_seeds h
  | uncorrectableError => exact strikeAt_seeds _ h
  | linkReplay => exact execLinkReplay_seeds h
  | controlStateError => exact execControlStateError_seeds h
  | timeSliceExpiry => exact ite_seeds (modPart_seeds h fun _ _ hx => hx) h
  | partitionHalt => exact execPartitionHalt_seeds h
  | partitionRestore => exact ite_seeds h (restorePartition_seeds h)
  | partitionAssign => exact execPartitionAssign_seeds h
  | partitionTeardown => exact execPartitionTeardown_seeds h
  | shadowCombine => exact execShadowCombine_seeds h
  | shadowMerge => exact execShadowMerge_seeds h
  | shadowCapacityMerge => exact execShadowCapacityMerge_seeds h
  | ptpMessage => exact execPtpMessage_seeds h
  | tuntilDeadline => exact execTuntilDeadline_seeds h
  | qdbWrite => exact fetchPacket_seeds h
  | qcfgWrite => exact execQcfgWrite_seeds h
  | hostRegisterWrite => exact execHostRegisterWrite_seeds h
  | jobConfigWrite => exact ite_seeds h (modJob_seeds h)
  | queuePollTimeout => exact ite_seeds (fetchPacket_seeds h) h
  | launch => exact execLaunch_seeds h
  | active => exact execActive_seeds h
  | copy => exact execCopy_seeds h
  | signalPacket | wait | fencePacket => exact dispatchPlain_seeds h
  | packetComplete => exact execPacketComplete_seeds h
  | hostMemoryAccess => exact ite_seeds (outsideAccess_seeds h) h
  | ustisFrame => exact execUstisFrame_seeds h
  | ustisRetransmitTimeout => exact execUstisRetransmitTimeout_seeds h
  | nvmeCompletion => exact execNvmeCompletion_seeds h
  | deviceReset | powerOn => exact bringUp_seeds _
  | firmwareImage => exact execFirmwareImage_seeds h
  | attestationRequest | thermalThrottle | primaryPortDown => exact withDev_seeds h
  | securityAlarm => exact execSecurityAlarm_seeds h
  | thermalShutdown => exact lostState_seeds _
  | powerLimitSet | synchronisationLost => exact ite_seeds (withDev_seeds h) h

end Sys2Proof.Machine
end

section
/-!
SRSEED stays legal (O57): issue, the due steps, cycles and turns.
-/
namespace Sys2Proof.Machine

variable {s t : State}

/-! ## Issue, cycles and turns -/

theorem attempt_seeds (h : SeedsLegal s) : NextLegal (attempt s) := by
  unfold attempt
  split
  · exact stopStep_seeds _ h
  · next hok =>
    have h' := (fetchWord_seeds h).elim hok
    split <;> exact exec_seeds _ h'

/-- The same state while a strand of another core issues. -/
theorem withIssuer_seeds {c : CoreId} {i : Slot} {lz : Bool} (h : SeedsLegal s) :
    SeedsLegal { s with cur := c, slot := i, lazy := lz } := h

theorem completeIssued_seeds {c : CoreId} {lazy_ : Bool} (h : SeedsLegal s) :
    NextLegal (completeIssued c lazy_ s) := by
  unfold completeIssued
  split
  · exact attempt_seeds (withIssuer_seeds (modStrand_seeds h))
  · exact h

/-- What an eligible slot would do is what its attempt answers. -/
theorem eligible_seeds {c : CoreId} {lz : Bool} {e : Slot × Answer} (h : SeedsLegal s) (he : e ∈ eligible s c lz) :
    NextLegal e.2 := by
  obtain ⟨x, -, hx⟩ := List.mem_filterMap.1 he
  dsimp only at hx
  split at hx
  · cases hx; exact attempt_seeds (withIssuer_seeds h)
  · cases hx

theorem issueOn_seeds {c : CoreId} {lazy_ : Bool} (h : SeedsLegal s) : NextLegal (issueOn c lazy_ s) := by
  unfold issueOn
  have h' := openRaised_seeds (c := c) h
  dsimp only
  refine ite_next h' (ite_next (completeIssued_seeds h') ?_)
  split
  · exact h'
  split
  · next hfind =>
    exact closeRaised_seeds (noteIssue_seeds (eligible_seeds h' (List.mem_of_find?_eq_some hfind)))
  · next hfind => exact eligible_seeds h' (List.mem_of_find?_eq_some hfind)
  · exact h'

theorem issueAll_seeds (l : List CoreId) (h : SeedsLegal s) : NextLegal (issueAll s l) := by
  induction l generalizing s with
  | nil => exact h
  | cons c l ih =>
    have hc := issueOn_seeds (c := c) (lazy_ := false) h
    unfold issueAll
    revert hc
    cases issueOn c false s with
    | next t => exact fun hc => ih hc
    | fault r => exact fun _ => trivial
    | refused r => exact fun _ => trivial

theorem perform_seeds {f : Move} (h : SeedsLegal s) (hf : NextLegal (f s)) : SeedsLegal (perform s f) := by
  unfold perform
  revert hf
  cases f s with
  | next t => exact id
  | fault r => exact fun _ => h
  | refused r => exact fun _ => h

/-- A move that keeps every generator legal. -/
def LegalMove (f : Move) : Prop := ∀ s, SeedsLegal s → NextLegal (f s)

/-- Moves that each keep every generator legal. -/
def LegalMoves (l : List Move) : Prop := ∀ f ∈ l, LegalMove f

theorem legalMoves_nil : LegalMoves [] := fun _ h => by cases h

theorem legalMoves_cons {f : Move} {l : List Move} (hf : LegalMove f) (hl : LegalMoves l) : LegalMoves (f :: l) :=
  List.forall_mem_cons.2 ⟨hf, hl⟩

theorem legalMoves_one {f : Move} (hf : LegalMove f) : LegalMoves [f] := legalMoves_cons hf legalMoves_nil

theorem legalMoves_append {l l' : List Move} (h : LegalMoves l) (h' : LegalMoves l') : LegalMoves (l ++ l') :=
  List.forall_mem_append.2 ⟨h, h'⟩

theorem legalMoves_map {α : Type} {l : List α} {g : α → Move} (h : ∀ x, LegalMove (g x)) : LegalMoves (l.map g) :=
  List.forall_mem_map.2 fun x _ => h x

theorem legalMoves_flatMap {α : Type} {l : List α} {g : α → List Move} (h : ∀ x, LegalMoves (g x)) :
    LegalMoves (l.flatMap g) := fun f hf => by
  obtain ⟨x, -, hx⟩ := List.mem_flatMap.1 hf
  exact h x f hx

theorem legalMoves_replicate {n : Nat} {f : Move} (h : LegalMove f) : LegalMoves (List.replicate n f) :=
  fun _ hg => (List.eq_of_mem_replicate hg) ▸ h

theorem legalMoves_ite {c : Prop} [Decidable c] {l l' : List Move} (h : LegalMoves l) (h' : LegalMoves l') :
    LegalMoves (if c then l else l') := iteInduction (fun _ => h) fun _ => h'

theorem legalMoves_filterMap {α : Type} {l : List α} {g : α → Option Move} (h : ∀ x f, g x = some f → LegalMove f) :
    LegalMoves (l.filterMap g) := fun f hf => by
  obtain ⟨x, -, hx⟩ := List.mem_filterMap.1 hf
  exact h x f hx

theorem legalMoves_two {f g : Move} (hf : LegalMove f) (hg : LegalMove g) : LegalMoves [f, g] :=
  legalMoves_cons hf (legalMoves_one hg)

/-! ## The due steps -/

theorem strandEvents_legal (c : CoreId) (i : Slot) (t : Strand) : LegalMoves (strandEvents c i t) := by
  unfold strandEvents
  refine legalMoves_append (legalMoves_append ?_ (legalMoves_flatMap fun j => legalMoves_append
    (legalMoves_flatMap fun k => ?_) ?_)) (legalMoves_ite legalMoves_nil ?_)
  · split
    · exact legalMoves_one fun _ h => execPageWalk_seeds h
    · exact legalMoves_one fun _ h => execSleepDeadline_seeds h
    · exact legalMoves_one fun _ h => execTuntilDeadline_seeds h
    · exact legalMoves_nil
  · exact legalMoves_two (fun _ h => stepPart_seeds h) fun _ h => stepPart_seeds h
  · exact legalMoves_one fun _ h => execLoadResponse_seeds h
  · exact legalMoves_one fun _ h => execReleaseComplete_seeds h

theorem streamEvents_legal (c : CoreId) (n : StreamId) (st : Stream) : LegalMoves (streamEvents c n st) := by
  have performs : LegalMove (execStreamWritePerform c n) := fun _ h => streamPerform_seeds h
  unfold streamEvents
  refine legalMoves_ite (legalMoves_append (legalMoves_replicate performs) ?_)
    (legalMoves_ite legalMoves_nil (legalMoves_append (legalMoves_replicate fun _ h => streamFetch_seeds h) ?_))
  · exact legalMoves_ite (legalMoves_two (fun _ h => boundPop_seeds h) performs) legalMoves_nil
  · exact legalMoves_ite (legalMoves_one fun _ h => boundPush_seeds h) legalMoves_nil

theorem ticketEvents_legal (c : CoreId) (i : Fin 4) (t : Ticket) : LegalMoves (ticketEvents c i t) := by
  unfold ticketEvents
  refine legalMoves_ite legalMoves_nil ?_
  refine legalMoves_cons (fun _ h => requestThaw_seeds h) (legalMoves_cons (fun _ h => requestThaw_seeds h) ?_)
  refine legalMoves_cons (fun _ h => claimGang_seeds h) (legalMoves_cons (fun _ h => execGangTimedStart_seeds h) ?_)
  refine legalMoves_cons (fun _ h => faultThaw_seeds h) (legalMoves_cons (fun _ h => preemptThaw_seeds h) ?_)
  exact legalMoves_one fun _ h => completeGang_seeds h

theorem copyEvents_legal (c : CoreId) (ch : Fin 3) (m : CopyCmd) : LegalMoves (copyEvents c ch m) := by
  unfold copyEvents
  split
  · exact legalMoves_one fun _ h => execCopyAccept_seeds h
  · exact legalMoves_one fun _ h => execCopyRefusalRetry_seeds h
  · exact legalMoves_one fun _ h => startCopy_seeds h
  · split
    · exact legalMoves_two (fun _ h => execCopyFault_seeds h) fun _ h => execCopyLanding_seeds h
    · exact legalMoves_one fun _ h => execCopyComplete_seeds h
  · exact legalMoves_nil
  · exact legalMoves_nil

theorem coreEvents_legal (c : CoreId) (k : Core) : LegalMoves (coreEvents c k) := by
  unfold coreEvents
  refine legalMoves_append (legalMoves_append (legalMoves_append (legalMoves_append (legalMoves_append (legalMoves_append
    (legalMoves_append (legalMoves_append (legalMoves_append (legalMoves_append (legalMoves_append (legalMoves_append
    ?strands ?stores) ?reds) ?streams) ?seams) ?contexts) ?cells) ?tickets) ?copies0) ?copies1) ?foot) ?outbound) ?inbound
  case strands => exact legalMoves_flatMap fun e => strandEvents_legal c e.1 e.2
  case stores =>
    exact legalMoves_flatMap fun i =>
      legalMoves_two (fun _ h => execStorePerform_seeds h) fun _ h => execFaultAcknowledgement_seeds h
  case reds =>
    exact legalMoves_flatMap fun i => legalMoves_cons (fun _ h => execFootingAtomic_seeds h)
      (legalMoves_two (fun _ h => execShadowCombine_seeds h) fun _ h => execReductionAck_seeds h)
  case streams => exact legalMoves_flatMap fun n => streamEvents_legal c n _
  case seams =>
    refine legalMoves_filterMap fun l f hf => ?_
    split at hf
    · cases hf
    · cases hf; exact fun _ h => seamForward_seeds h
  case contexts => exact legalMoves_flatMap fun l => legalMoves_map fun i _ h => execSeamContextTimeout_seeds h
  case cells =>
    exact legalMoves_ite (legalMoves_two (fun _ h => latchEntry_seeds h) fun _ h => pulseCell_seeds h) legalMoves_nil
  case tickets => exact legalMoves_flatMap fun i => ticketEvents_legal c i _
  case copies0 => exact legalMoves_flatMap fun m => copyEvents_legal c 0 m
  case copies1 => exact legalMoves_flatMap fun m => copyEvents_legal c 1 m
  case foot =>
    exact legalMoves_flatMap fun m => legalMoves_append (legalMoves_map fun j _ h => execOptimiserPiece_seeds h)
      (legalMoves_one fun _ h => execOptimiserComplete_seeds h)
  case outbound => exact legalMoves_map fun i _ h => ite_seeds h (sendNext_seeds h)
  case inbound =>
    exact legalMoves_ite legalMoves_nil (legalMoves_cons (fun _ h => fanOnTick_seeds _ h)
      (legalMoves_replicate fun _ h => execSlotActivation_seeds h))

theorem packetEvents_legal (idx : Nat) (p : Packet) : LegalMoves (packetEvents idx p) := by
  unfold packetEvents
  refine legalMoves_append (legalMoves_ite (legalMoves_one fun _ h => execNetworkRetry_seeds h) legalMoves_nil) ?_
  split
  · split
    · exact legalMoves_one fun _ h => arrival_seeds h
    · exact legalMoves_one fun _ h => arrival_seeds h
  · exact legalMoves_one fun _ h => execFanStartMessage_seeds h
  · exact legalMoves_one fun _ h => execFanStartMessage_seeds h
  · exact legalMoves_one fun _ h => arrival_seeds h
  · exact legalMoves_one fun _ h => arrival_seeds h
  · exact legalMoves_one fun _ h => execWakeDelivery_seeds h
  · exact legalMoves_one fun _ h => execFaultMessageArrival_seeds h
  · exact legalMoves_two (fun _ h => execScopeMissMessage_seeds h) fun _ h => execScopeMissAutoWiden_seeds h

theorem dieEvents_legal (d : Fin 4) (x : Die) : LegalMoves (dieEvents d x) := by
  unfold dieEvents
  refine legalMoves_append (legalMoves_append (legalMoves_flatMap fun q => ?_)
    (legalMoves_map fun i _ h => execShadowMerge_seeds h)) (legalMoves_one fun _ h => execShadowCapacityMerge_seeds h)
  split
  · exact legalMoves_nil
  · exact legalMoves_two (fun _ h => execSeqCommand_seeds h) fun _ h => execSeqCommandComplete_seeds h

theorem partEvents_legal (s : State) (part : Nat) (p : Partition) : LegalMoves (partEvents s part p) := by
  unfold partEvents
  split
  · exact legalMoves_one fun _ h => execPartitionHalt_seeds h
  · refine legalMoves_flatMap fun i => legalMoves_cons (fun _ h => execPriorityAging_seeds h) ?_
    split
    · exact legalMoves_map fun e _ h => execSchedulerPlace_seeds h
    · exact legalMoves_nil
  · exact legalMoves_nil
  · exact legalMoves_nil

theorem queueEvents_legal (q : Nat) (x : Queue) : LegalMoves (queueEvents q x) := by
  unfold queueEvents
  refine legalMoves_append (legalMoves_filterMap fun t f hf => ?_) ?_
  · split at hf
    · cases hf; exact fun _ h => execPacketComplete_seeds h
    · cases hf
  split
  · split
    · exact legalMoves_one fun _ h => execLaunch_seeds h
    · exact legalMoves_one fun _ h => execActive_seeds h
    · exact legalMoves_one fun _ h => execCopy_seeds h
    · exact legalMoves_one fun _ h => dispatchPlain_seeds h
    · exact legalMoves_one fun _ h => dispatchPlain_seeds h
    · exact legalMoves_one fun _ h => dispatchPlain_seeds h
  · exact legalMoves_ite (legalMoves_one fun _ h => ite_seeds (fetchPacket_seeds h) h) legalMoves_nil

theorem dueEvents_legal (s : State) : LegalMoves (dueEvents s) := by
  unfold dueEvents
  refine legalMoves_append (legalMoves_append (legalMoves_append (legalMoves_append (legalMoves_append (legalMoves_append
    (legalMoves_append (legalMoves_append (legalMoves_append
    ?queues ?parts) ?net) ?misses) ?leases) ?clusters) ?cores) ?exchange) ?dies) ?bonds
  case queues => exact legalMoves_flatMap fun e => queueEvents_legal e.1 e.2
  case parts => exact legalMoves_flatMap fun e => partEvents_legal s e.1 e.2
  case net =>
    refine legalMoves_flatMap fun i => ?_
    split
    · exact packetEvents_legal _ _
    · exact legalMoves_nil
  case misses => exact legalMoves_map fun m _ h => execTagWiden_seeds h
  case leases => exact legalMoves_map fun l _ h => execLeaseRecall_seeds h
  case clusters =>
    exact legalMoves_flatMap fun e => legalMoves_ite legalMoves_nil
      (legalMoves_two (fun _ h => execServiceStrandStart_seeds h) fun _ h => execFaultSlotTimeout_seeds h)
  case cores => exact legalMoves_flatMap fun e => coreEvents_legal e.1 e.2
  case exchange => exact legalMoves_flatMap fun e => legalMoves_flatMap fun m => copyEvents_legal e.1 2 m
  case dies => exact legalMoves_flatMap fun d => dieEvents_legal d _
  case bonds => exact legalMoves_map fun e _ h => execBondCompletion_seeds h

theorem performs_seeds {l : List Move} (hl : LegalMoves l) (h : SeedsLegal s) : SeedsLegal (l.foldl perform s) := by
  induction l generalizing s with
  | nil => exact h
  | cons f l ih =>
    obtain ⟨hf, hl⟩ := List.forall_mem_cons.1 hl
    exact ih hl (perform_seeds h (hf s h))

theorem settle_seeds (h : SeedsLegal s) : SeedsLegal (settle s) := performs_seeds (dueEvents_legal s) h

theorem cycle_seeds (h : SeedsLegal s) : NextLegal (cycle s) := by
  have hall := issueAll_seeds
    (((settle s).cores.filter fun e => !(coreStrands e.2).isEmpty).map fun e => e.1) (settle_seeds h)
  unfold cycle
  revert hall
  dsimp only
  cases issueAll (settle s) _ with
  | next t => exact fun ht => tick_seeds ht
  | fault r => exact fun _ => trivial
  | refused r => exact fun _ => trivial

theorem takeTurn_seeds {t : Turn} (h : SeedsLegal s) : NextLegal (takeTurn t s) := by
  cases t with
  | event i => exact ite_next (exec_seeds i h) h
  | issue c lz => exact ite_next (issueOn_seeds h) h
  | tick => exact ite_seeds (tick_seeds h) h
  | dropItlb | dropDtlb => exact modCore_seeds h fun _ => rfl
  | dropCluster => exact modCluster_seeds h
  | dropDie => exact modDie_seeds h
  | outside => exact outsideByte_seeds h
  | revoke => exact revoke_seeds h
  | hostWrite off v => exact ite_next (bar0Write_seeds h) h
  | exportLease => exact ite_seeds (exportLease_seeds h) h
  | assignNode => exact assignNode_seeds h
  | moveSlice => exact moveSlice_seeds h

theorem turn_seeds {t : Turn} (h : SeedsLegal s) : NextLegal (turn t s) := ite_next (takeTurn_seeds h) trivial

theorem withFreeCtr_seeds {n : Nat} (h : SeedsLegal s) : SeedsLegal { s with freeCtr := n } := h

theorem withTurns_seeds {l : List Turn} (h : SeedsLegal s) : SeedsLegal { s with turns := l } := h

theorem step_seeds (h : SeedsLegal s) : NextLegal (step s) := by
  have h' := withFreeCtr_seeds (n := s.freeCtr + 1) h
  unfold step
  generalize ({ s with freeCtr := s.freeCtr + 1 } : State) = u at h'
  dsimp only
  split
  · exact ite_next (cycle_seeds h') h'
  · next rest _ => exact turn_seeds (withTurns_seeds (l := rest) h')

/-- Settles O57: every function of the model keeps every generator legal, and a draw never gives the reserved value. -/
theorem seedsStayLegal : Obligations.SeedsStayLegal := by
  unfold Obligations.SeedsStayLegal
  intro s t h hstep
  have hnext := step_seeds h
  rw [hstep] at hnext
  exact hnext

end Sys2Proof.Machine
end

section
/-!
What every step keeps holds after reset (O55).
-/
namespace Sys2Proof.Machine

/-- After reset no core is listed and no partition holds a saved context. -/
theorem seedsLegal_reset : SeedsLegal State.reset := by simp [SeedsLegal, State.reset]

theorem portQueuesFit_reset : PortQueuesFit State.reset := by simp [PortQueuesFit, State.reset]

/-- The only queues there are after reset are the sequencers', which are empty. -/
theorem queuesFit_reset : QueuesFit State.reset := by simp [QueuesFit, State.reset, Die.reset]

/-- Settles O55: the state after reset holds no byte, no core, no partition and no command. -/
theorem invariantsHoldAfterReset : Obligations.InvariantsHoldAfterReset := by
  unfold Obligations.InvariantsHoldAfterReset
  have canonical : Memory.wf State.reset.mem = true := rfl
  exact ⟨canonical, seedsLegal_reset, queuesFit_reset, portQueuesFit_reset⟩

end Sys2Proof.Machine
end

section
/-!
Fixed point (O19): each fixed-point operation as a flagged answer, and its result as the rounded quotient or root, clamped.
-/
namespace Sys2Proof.Machine

/-- The low w bits of a register as a signed integer. -/
theorem qRead_word {w : Nat} (hw : 0 < w) (x : W64) : qRead w x.toNat = (x.setWidth w).toInt := by
  rw [← qRead_toNat hw, BitVec.toNat_setWidth]
  simp only [qRead, Nat.mod_mod]

theorem qwid_bits_pos (w : QWid) : 0 < w.bits := by cases w <;> decide

/-! ## The results of QDIV and QSQRT by the sign of their operand -/

theorem qDiv_zero (w f : Nat) (rm : RMode) (y : Int) :
    qDiv w f rm y 0 = (if 0 < y then 2 ^ (w - 1) - 1 else if y < 0 then -2 ^ (w - 1) else 0, fDZ) := by
  simp [qDiv, qRange]

theorem qDiv_pos {x : Int} (hx : 0 < x) (w f : Nat) (rm : RMode) (y : Int) :
    qDiv w f rm y x = qSat w (roundDiv rm (y * 2 ^ f) x.natAbs) := by
  rw [qDiv, if_neg (by omega), if_neg (by omega)]

theorem qDiv_neg {x : Int} (hx : x < 0) (w f : Nat) (rm : RMode) (y : Int) :
    qDiv w f rm y x = qSat w (roundDiv rm (-(y * 2 ^ f)) x.natAbs) := by
  rw [qDiv, if_neg (by omega), if_pos hx]

theorem qSqrt_neg {x : Int} (hx : x < 0) (w f : Nat) (rm : RMode) : qSqrt w f rm x = (0, fNV) := if_pos hx

theorem qSqrt_nonneg {x : Int} (hx : 0 ≤ x) (w f : Nat) (rm : RMode) :
    qSqrt w f rm x = qSat w (roundSqrt rm (x.natAbs * 2 ^ f)) := if_neg (by omega)

/-! ## The instructions -/

/-- QMUL and QDIV compute under the mode that FCSR held at issue, on d and a as signed integers. -/
theorem q2_answer {p : Pred} {w : QWid} {d : GReg} {a : SReg} {s : State} {f : RMode → Int → Int → Int × Flags}
    {z : Int × Flags} (hon : predOn s p = true) (h : Operable (ready s) { srcS := [.g d, a], dstS := [.g d] })
    (hz : f (fcsrRm (me s).fcsr) ((getG (ready s) d).setWidth w.bits).toInt ((readS (ready s) a).setWidth w.bits).toInt = z) :
    q2 p w.bits d a f s = flaggedAnswer (ready s) 4 { srcS := [.g d, a], dstS := [.g d] } z.2
      fun t => writeS t (.g d) (BitVec.ofInt 64 z.1) :=
  compute_flagged hon h (by simp only [myRm_ready, qRead_word (qwid_bits_pos w), hz])

theorem execQsqrt_answer {p : Pred} {w : QWid} {f : BitVec 6} {d a : SReg} {s : State} {z : Int × Flags}
    (hon : predOn s p = true) (h : Operable (ready s) { srcS := [a], dstS := [d] })
    (hz : qSqrt w.bits f.toNat (fcsrRm (me s).fcsr) ((readS (ready s) a).setWidth w.bits).toInt = z) :
    execQsqrt p w f d a s = flaggedAnswer (ready s) 4 { srcS := [a], dstS := [d] } z.2
      fun t => writeS t d (BitVec.ofInt 64 z.1) :=
  compute_flagged hon h (by simp only [myRm_ready, qRead_word (qwid_bits_pos w), hz])

/-- Settles O19: the operations' results by the sign of the divisor and of the radicand. -/
theorem fixedPoint : Obligations.FixedPoint := by
  unfold Obligations.FixedPoint
  intro p w f d e a s hon r rm q hi lo sat y x u2 u1 done
  have div {z : Int × Flags} (ho : Operable r u2) (hz : qDiv w.bits f.toNat rm y x = z) :
      exec (.qdiv p w f d a) s = done u2 (.g d) z := q2_answer hon ho hz
  have root {z : Int × Flags} (ho : Operable r u1) (hz : qSqrt w.bits f.toNat rm x = z) :
      exec (.qsqrt p w f e a) s = done u1 e z := execQsqrt_answer hon ho hz
  have mul (ho : Operable r u2) : exec (.qmul p w f d a) s = done u2 (.g d) (qMul w.bits f.toNat rm y x) :=
    q2_answer hon ho rfl
  have qMul_eq : qMul w.bits f.toNat rm y x = sat (roundDiv rm (y * x) (2 ^ f.toNat)) := rfl
  refine ⟨fun ho => ⟨qMul_eq ▸ mul ho, fun h0 => div ho ?_, fun hpos => div ho (qDiv_pos hpos ..),
    fun hneg => div ho (qDiv_neg hneg ..)⟩,
    fun ho => ⟨fun hneg => root ho (qSqrt_neg hneg ..), fun hpos => root ho (qSqrt_nonneg hpos ..)⟩⟩
  rw [h0]
  exact qDiv_zero ..

end Sys2Proof.Machine
end

section
/-!
Represented values round to themselves (O15): the rounding of R43 read on the magnitude that a code stands for.
-/
namespace Sys2Proof.Machine

/-! ## Bit lengths and multiples of the spacing -/

theorem bitLen_le {n k : Nat} (h : n < 2 ^ k) : bitLen n ≤ k := by
  unfold bitLen
  split
  · exact Nat.zero_le k
  · next hn => exact (Nat.log2_lt hn).2 h

theorem bitLen_eq {n k : Nat} (hlo : 2 ^ k ≤ n) (hhi : n < 2 ^ (k + 1)) : bitLen n = k + 1 := by
  have hn : n ≠ 0 := by have := Nat.two_pow_pos k; omega
  rw [bitLen, if_neg hn, (Nat.log2_eq_iff hn).2 ⟨hlo, hhi⟩]

@[simp] theorem scaleDown_self (n : Nat) (e : Int) : scaleDown n e e false = (n, .zero) := by simp [scaleDown]

@[simp] theorem roundsUp_zero (rm : RMode) (neg odd : Bool) : roundsUp rm neg odd .zero = false := by cases rm <;> rfl

/-! ## The magnitude of a code -/

theorem codeMag_subnormal {f : Fmt} {c : Nat} (h : c < 2 ^ (f.prec - 1)) : codeMag f c = (c, f.q) := if_pos h

theorem codeMag_normal {f : Fmt} {c : Nat} (h : ¬ c < 2 ^ (f.prec - 1)) : codeMag f c =
    (2 ^ (f.prec - 1) + c % 2 ^ (f.prec - 1), f.q + (c / 2 ^ (f.prec - 1) : Nat) - 1) := if_neg h

theorem codeMag_eq_zero_iff {f : Fmt} {c : Nat} : (codeMag f c).1 = 0 ↔ c = 0 := by
  have := Nat.two_pow_pos (f.prec - 1)
  by_cases h : c < 2 ^ (f.prec - 1)
  · rw [codeMag_subnormal h]
  · rw [codeMag_normal h]
    dsimp only
    omega

/-- The largest code whose magnitude is not above that of c is c, with nothing left over. -/
theorem floorCode_codeMag {f : Fmt} (hp : 1 ≤ f.prec) (c : Nat) :
    floorCode f (codeMag f c).1 (codeMag f c).2 false = (c, .zero) := by
  obtain ⟨t, ht⟩ : ∃ t, f.prec = t + 1 := ⟨f.prec - 1, by omega⟩
  by_cases h : c < 2 ^ (f.prec - 1)
  · have hlen := bitLen_le h
    have hu : max f.q ((bitLen c : Int) + f.q - f.prec) = f.q := by omega
    rw [codeMag_subnormal h, floorCode, hu, scaleDown_self]
    simp
  · have hmod := Nat.mod_lt c (Nat.two_pow_pos t)
    have hdiv : 1 ≤ c / 2 ^ t := (Nat.le_div_iff_mul_le (Nat.two_pow_pos t)).2 (by simpa [ht] using h)
    have hlen : bitLen (2 ^ t + c % 2 ^ t) = t + 1 := bitLen_eq (by omega) (by rw [Nat.pow_succ]; omega)
    rw [codeMag_normal h, floorCode, ht]
    simp only [Nat.add_sub_cancel, hlen]
    have hu : max f.q (((t + 1 : Nat) : Int) + (f.q + (c / 2 ^ t : Nat) - 1) - ((t + 1 : Nat) : Int)) =
        f.q + (c / 2 ^ t : Nat) - 1 := by omega
    have hsteps : (f.q + ((c / 2 ^ t : Nat) : Int) - 1 - f.q).toNat = c / 2 ^ t - 1 := by omega
    rw [hu, scaleDown_self, hsteps, Nat.sub_mul, Nat.one_mul, Nat.mul_comm]
    have hcode := Nat.div_add_mod c (2 ^ t)
    have hge : 2 ^ t ≤ 2 ^ t * (c / 2 ^ t) := Nat.le_mul_of_pos_right _ hdiv
    exact Prod.ext (by dsimp only; omega) rfl

/-- A represented magnitude is delivered as it is, under every mode. -/
theorem roundFin_codeMag {f : Fmt} (hp : 1 ≤ f.prec) {c : Nat} (hc : c ≤ f.maxCode) (rm : RMode) (neg : Bool) :
    roundFin f rm neg (codeMag f c).1 (codeMag f c).2 false = deliver f neg c 0 := by
  by_cases h0 : c = 0
  · have hz : (codeMag f c).1 = 0 := codeMag_eq_zero_iff.2 h0
    rw [roundFin, if_pos ⟨hz, rfl⟩, h0]
  · have hz : (codeMag f c).1 ≠ 0 := mt codeMag_eq_zero_iff.1 h0
    have hmax : ¬ f.maxCode < c := by omega
    rw [roundFin, if_neg (by simp [hz]), floorCode_codeMag hp]
    simp [hmax, flagIf]

/-! ## Codes of the wide formats and of binary8 -/

/-- A code is its sign and its magnitude code. -/
theorem signed_code {w x : Nat} (hx : x < 2 ^ (w + 1)) :
    (if x.testBit w then x % 2 ^ w + 2 ^ w else x % 2 ^ w) = x := by
  have hdiv : x / 2 ^ w < 2 := Nat.div_lt_of_lt_mul (by rw [Nat.pow_succ] at hx; omega)
  have hcode := Nat.div_add_mod x (2 ^ w)
  rw [Nat.testBit_eq_decide_div_mod_eq, Nat.mod_eq_of_lt hdiv]
  interval_cases hq : x / 2 ^ w <;> simp at hcode ⊢ <;> omega

theorem roundTo_readFp_ieee {f : Fmt} {w x : Nat} (hw : f.coding = .ieee (w + 1)) (hp : 1 ≤ f.prec) (hx : x < 2 ^ (w + 1))
    (hn : isNaN (readFp f x) = false) (rm : RMode) : roundTo f rm (readFp f x) = (x, 0) := by
  have sign : signCode f (x.testBit w) (x % 2 ^ w) = x := by
    simpa only [signCode, hw, Nat.add_sub_cancel] using signed_code hx
  simp only [readFp, hw, Nat.add_sub_cancel] at hn ⊢
  split
  · next hc =>
    rw [roundTo, roundFin_codeMag hp hc]
    simp only [deliver, hw, sign]
  · next hc =>
    rw [if_neg hc] at hn
    split
    · next hinf =>
      rw [roundTo]
      simp only [infCode, hw, ← hinf, sign]
    · next hinf => simp [if_neg hinf, isNaN] at hn

theorem roundTo_readFp_unsigned {f : Fmt} {fin : Bool} {x : Nat} (hf : f.coding = .b8 true fin) (hp : 1 ≤ f.prec)
    (hmax : f.maxCode = if fin then 0xFE else 0xFD) (hx : x < 256) (hn : isNaN (readFp f x) = false) (rm : RMode) :
    roundTo f rm (readFp f x) = (x, 0) := by
  simp only [readFp, hf, Nat.mod_eq_of_lt hx, if_true] at hn ⊢
  split
  · next hnan => simp [hnan, isNaN] at hn
  split
  · next hinf =>
    have hfin : fin = false := by simpa using hinf.2
    rw [roundTo, infCode, hf]
    simp [hfin, hmax, signCode, hf, hinf.1]
  · next hnan hinf =>
    have hc : x ≤ f.maxCode := by
      rw [hmax]
      cases fin <;> simp at hinf ⊢ <;> omega
    rw [roundTo, roundFin_codeMag hp hc]
    simp [deliver, hf]

theorem roundTo_readFp_signed {f : Fmt} {fin : Bool} {x : Nat} (hf : f.coding = .b8 false fin) (hp : 1 ≤ f.prec)
    (hmax : f.maxCode = if fin then 0x7F else 0x7E) (hx : x < 256) (hn : isNaN (readFp f x) = false) (rm : RMode) :
    roundTo f rm (readFp f x) = (x, 0) := by
  have hcode := signed_code (w := 7) (x := x) hx
  simp only [readFp, hf, Nat.mod_eq_of_lt hx, if_false, Bool.false_eq_true] at hn ⊢
  split
  · next hnan => simp [hnan, isNaN] at hn
  next hnan =>
  -- binary8 has no code for −0, so a sign comes with a magnitude
  have sign : signCode f (x.testBit 7) (x % 128) = x := by
    have hzero : x.testBit 7 = true → x % 128 ≠ 0 := fun h h0 => by
      rw [if_pos h] at hcode
      omega
    simp only [signCode, hf]
    split
    · next h => rw [if_pos h.1] at hcode; exact hcode
    · next h => rw [if_neg fun ht => h ⟨ht, hzero ht⟩] at hcode; exact hcode
  split
  · next hinf =>
    have hfin : fin = false := by simpa using hinf.2
    rw [roundTo, infCode, hf]
    have hcode : f.maxCode + 1 = x % 128 := by rw [hmax, hinf.1, hfin]; rfl
    simp only [hfin, Bool.false_eq_true, false_and, if_false, hcode, sign]
  · next hinf =>
    have hc : x % 128 ≤ f.maxCode := by
      rw [hmax]
      cases fin <;> simp at hinf ⊢ <;> omega
    rw [roundTo, roundFin_codeMag hp hc]
    simp only [deliver, hf, sign]

/-- Every code of a binary8 format that is no NaN rounds to itself. -/
theorem roundTo_readFp_b8 {b : B8} {x : Nat} (hx : x < 256) (hn : isNaN (readFp (fmtB8 b) x) = false) (rm : RMode) :
    roundTo (fmtB8 b) rm (readFp (fmtB8 b) x) = (x, 0) := by
  have hp : 1 ≤ (fmtB8 b).prec := Nat.succ_pos _
  obtain ⟨pm1, uns, fin⟩ := b
  cases uns
  · exact roundTo_readFp_signed rfl hp rfl hx hn rm
  · exact roundTo_readFp_unsigned rfl hp rfl hx hn rm

/-- Every code of a wide format that is no NaN rounds to itself. -/
theorem roundTo_readFp_ffmt {f : FFmt} {x : Nat} (hx : x < 2 ^ f.width) (hn : isNaN (readFp (ffmt f) x) = false)
    (rm : RMode) : roundTo (ffmt f) rm (readFp (ffmt f) x) = (x, 0) := by
  cases f with
  | fp64 => exact roundTo_readFp_ieee (w := 63) rfl (by decide) hx hn rm
  | fp32 => exact roundTo_readFp_ieee (w := 31) rfl (by decide) hx hn rm
  | bf16 => exact roundTo_readFp_ieee (w := 15) rfl (by decide) hx hn rm
  | fp16 => exact roundTo_readFp_ieee (w := 15) rfl (by decide) hx hn rm

end Sys2Proof.Machine
end

section
/-!
Operations on a NaN (O15): what each delivers and when it raises NV (R49, R50), and the trees of lanes.
-/
namespace Sys2Proof.Machine

/-! ## Data that are NaNs -/

theorem isNaN_iff {a : Machine.Num} : isNaN a = true ↔ ∃ sg, a = .nan sg := by cases a <;> simp [isNaN]

@[simp] theorem isNaN_negNum (a : Machine.Num) : isNaN (negNum a) = isNaN a := by cases a <;> rfl

@[simp] theorem isSig_negNum (a : Machine.Num) : isSig (negNum a) = isSig a := by cases a <;> rfl

theorem isSig_of_not_isNaN {a : Machine.Num} (h : isNaN a = false) : isSig a = false := by
  cases a with
  | nan sg => cases h
  | inf | fin => rfl

theorem isNaN_of_isSig {a : Machine.Num} (h : isSig a = true) : isNaN a = true := by
  cases a with
  | nan sg => rfl
  | inf | fin => cases h

/-- NV alone, where c holds. -/
def nvIf (c : Bool) : Flags := if c then 1 else 0

theorem nvIf_or (c c' : Bool) : nvIf c ||| nvIf c' = nvIf (c || c') := by cases c <;> cases c' <;> rfl

theorem nanOf_two (a b : Machine.Num) : nanOf [a, b] = (.nan false, nvIf (isSig a || isSig b)) := by
  simp [nanOf, nvIf, flagIf, fNV]

section
variable {a b c : Machine.Num} {rm : RMode}

theorem addNum_nan (h : isNaN a = true ∨ isNaN b = true) : addNum rm a b = (.nan false, nvIf (isSig a || isSig b)) := by
  rw [← nanOf_two]
  rcases h with h | h <;> obtain ⟨sg, rfl⟩ := isNaN_iff.1 h
  · cases b <;> rfl
  · cases a <;> rfl

theorem mulNum_nan (h : isNaN a = true ∨ isNaN b = true) : mulNum a b = (.nan false, nvIf (isSig a || isSig b)) := by
  rw [← nanOf_two]
  rcases h with h | h <;> obtain ⟨sg, rfl⟩ := isNaN_iff.1 h
  · cases b <;> rfl
  · cases a <;> rfl

theorem divNum_nan (h : isNaN a = true ∨ isNaN b = true) : divNum a b = (.nan false, nvIf (isSig a || isSig b)) := by
  rw [← nanOf_two]
  rcases h with h | h <;> obtain ⟨sg, rfl⟩ := isNaN_iff.1 h
  · cases b <;> rfl
  · cases a <;> rfl

theorem minNum_nan (h : isNaN a = true ∨ isNaN b = true) : minNum a b = (.nan false, nvIf (isSig a || isSig b)) := by
  rw [minNum, if_pos (by simpa using h), nanOf_two]

theorem maxNum_nan (h : isNaN a = true ∨ isNaN b = true) : maxNum a b = (.nan false, nvIf (isSig a || isSig b)) := by
  rw [maxNum, if_pos (by simpa using h), nanOf_two]

/-- A product of numbers raises NV where it is 0 × ∞, and nothing else. -/
theorem mulNum_flags (ha : isNaN a = false) (hb : isNaN b = false) : (mulNum a b).2 = nvIf (isNaN (mulNum a b).1) := by
  cases a with
  | nan => cases ha
  | inf s =>
    cases b with
    | nan => cases hb
    | inf s' => rfl
    | fin s' n e st => by_cases hn : n = 0 <;> simp [mulNum, hn, isNaN, nvIf, fNV]
  | fin s n e st =>
    cases b with
    | nan => cases hb
    | inf s' => by_cases hn : n = 0 <;> simp [mulNum, hn, isNaN, nvIf, fNV]
    | fin s' n' e' st' => rfl

@[simp] theorem isNaN_mulNum_negNum (a b : Machine.Num) : isNaN (mulNum (negNum a) b).1 = isNaN (mulNum a b).1 := by
  cases a with
  | nan => cases b <;> rfl
  | inf s =>
    cases b with
    | nan | inf => rfl
    | fin s' n e st => by_cases hn : n = 0 <;> simp [mulNum, negNum, hn, isNaN]
  | fin s n e st =>
    cases b with
    | nan | fin => rfl
    | inf s' => by_cases hn : n = 0 <;> simp [mulNum, negNum, hn, isNaN]

theorem fmaNum_nan (h : isNaN a = true ∨ isNaN b = true) :
    fmaNum rm a b c = (.nan false, nvIf (isSig a || isSig b || isSig c)) := by
  rw [← nvIf_or, fmaNum, mulNum_nan h]
  rfl

/-- A NaN addend: NV where it is signalling, and where the product is 0 × ∞ (R143). -/
theorem fmaNum_nan_addend (ha : isNaN a = false) (hb : isNaN b = false) (hc : isNaN c = true) :
    fmaNum rm a b c = (.nan false, nvIf (isSig c || isNaN (mulNum a b).1)) := by
  have hp := mulNum_flags ha hb
  rw [Bool.or_comm, ← nvIf_or, ← hp, fmaNum]
  split
  · rfl
  · next hnan =>
    have hnum : isNaN (mulNum a b).1 = false := by
      rw [Bool.eq_false_iff, Ne, isNaN_iff]
      exact fun ⟨sg, hsg⟩ => hnan sg hsg
    rw [addNum_nan (.inr hc), isSig_of_not_isNaN hnum, Bool.false_or]

end

/-! ## Codes that are NaNs -/

/-- The canonical NaN with NV, where c holds: what an operation on a NaN delivers. -/
def nanResult (k : Fmt) (c : Bool) : Nat × Flags := (canonNaN k, nvIf c)

theorem finishFp_nan (k : Fmt) (rm : RMode) (c sg : Bool) : finishFp k rm (.nan sg, nvIf c) = nanResult k (c || sg) := by
  rw [nanResult, ← nvIf_or]; rfl

section
variable {k : Fmt} {rm : RMode} {x y z : Nat}

section
variable (h : isNaN (readFp k x) = true ∨ isNaN (readFp k y) = true)
include h

theorem fpAdd_nan : fpAdd k rm x y = nanResult k (isSig (readFp k x) || isSig (readFp k y)) := by
  rw [fpAdd, addNum_nan h, finishFp_nan, Bool.or_false]

theorem fpSub_nan : fpSub k rm x y = nanResult k (isSig (readFp k x) || isSig (readFp k y)) := by
  rw [fpSub, addNum_nan (by simpa using h), finishFp_nan, isSig_negNum, Bool.or_false]

theorem fpMul_nan : fpMul k rm x y = nanResult k (isSig (readFp k x) || isSig (readFp k y)) := by
  rw [fpMul, mulNum_nan h, finishFp_nan, Bool.or_false]

theorem fpDiv_nan : fpDiv k rm x y = nanResult k (isSig (readFp k x) || isSig (readFp k y)) := by
  rw [fpDiv, divNum_nan h, finishFp_nan, Bool.or_false]

theorem fpMin_nan : fpMin k x y = nanResult k (isSig (readFp k x) || isSig (readFp k y)) := by
  rw [fpMin, minNum_nan h, finishFp_nan, Bool.or_false]

theorem fpMax_nan : fpMax k x y = nanResult k (isSig (readFp k x) || isSig (readFp k y)) := by
  rw [fpMax, maxNum_nan h, finishFp_nan, Bool.or_false]

theorem fpCmp_nan : fpCmp k x y = (8, nvIf (isSig (readFp k x) || isSig (readFp k y))) := by
  rw [fpCmp, if_pos (by simpa using h)]; rfl

theorem fpFma_nan : fpFma k rm x y z =
    nanResult k (isSig (readFp k x) || isSig (readFp k y) || isSig (readFp k z)) := by
  rw [fpFma, fmaNum_nan h, finishFp_nan, Bool.or_false]

theorem fpFms_nan : fpFms k rm x y z =
    nanResult k (isSig (readFp k x) || isSig (readFp k y) || isSig (readFp k z)) := by
  rw [fpFms, fmaNum_nan h, finishFp_nan, isSig_negNum, Bool.or_false]

theorem fpFnma_nan : fpFnma k rm x y z =
    nanResult k (isSig (readFp k x) || isSig (readFp k y) || isSig (readFp k z)) := by
  rw [fpFnma, fmaNum_nan (by simpa using h), finishFp_nan, isSig_negNum, Bool.or_false]

end

section
variable (ha : isNaN (readFp k x) = false) (hb : isNaN (readFp k y) = false) (hc : isNaN (readFp k z) = true)
include ha hb hc

theorem fpFma_nan_addend : fpFma k rm x y z =
    nanResult k (isSig (readFp k z) || isNaN (mulNum (readFp k x) (readFp k y)).1) := by
  rw [fpFma, fmaNum_nan_addend ha hb hc, finishFp_nan, Bool.or_false]

theorem fpFms_nan_addend : fpFms k rm x y z =
    nanResult k (isSig (readFp k z) || isNaN (mulNum (readFp k x) (readFp k y)).1) := by
  rw [fpFms, fmaNum_nan_addend ha hb (by simpa using hc), finishFp_nan, isSig_negNum, Bool.or_false]

theorem fpFnma_nan_addend : fpFnma k rm x y z =
    nanResult k (isSig (readFp k z) || isNaN (mulNum (readFp k x) (readFp k y)).1) := by
  rw [fpFnma, fmaNum_nan_addend (by simpa using ha) hb hc, finishFp_nan, isNaN_mulNum_negNum, Bool.or_false]

end

section
variable {sg : Bool} (h : readFp k x = .nan sg)
include h

theorem fpSqrt_nan : fpSqrt k rm x = nanResult k sg := by
  have root : sqrtNum (.nan sg) = (.nan false, nvIf sg) := by simp [sqrtNum, nanOf, isSig, nvIf, flagIf, fNV]
  rw [fpSqrt, h, root, finishFp_nan, Bool.or_false]

theorem fpSetSign_nan (neg : Bool) : fpSetSign k neg x = nanResult k sg := by
  rw [fpSetSign, h]; rfl

theorem fpRound_nan : fpRound k rm x = nanResult k sg := by
  rw [fpRound, h]
  exact finishFp_nan k rm false sg

theorem fpSgn_nan : fpSgn k x y = nanResult k (sg || isSig (readFp k y)) := by
  rw [nanResult, ← nvIf_or, fpSgn, fpSetSign_nan h]; rfl

end

end

/-- The canonical NaN of a format reads as a NaN that is not signalling. -/
theorem readFp_canonNaN {k : Fmt} {f : FFmt} {e : B8} (hk : k = ffmt f ∨ k = fmtB8 e) :
    readFp k (canonNaN k) = .nan false := by
  rcases hk with rfl | rfl
  · cases f <;> decide
  · obtain ⟨pm1, uns, fin⟩ := e
    cases uns <;> rfl

/-! ## Trees of lanes (R60, R156) -/

section
variable (g : Nat → Nat → Nat × Flags)

theorem treeLevel_length : ∀ l : List (Option Nat), (treeLevel g l).1.length = (l.length + 1) / 2
  | [] => rfl
  | [_] => by simp [treeLevel]
  | x :: y :: t => by
    have ih := treeLevel_length t
    have cons : (treeLevel g (x :: y :: t)).1.length = (treeLevel g t).1.length + 1 := by cases x <;> cases y <;> rfl
    simp only [cons, ih, List.length_cons]
    omega

variable {g}

/-- What a level makes of the pairs after the first stays in the level. -/
theorem mem_treeLevel_cons {x y u : Option Nat} {t : List (Option Nat)} (h : u ∈ (treeLevel g t).1) :
    u ∈ (treeLevel g (x :: y :: t)).1 := by
  cases x <;> cases y <;> exact List.mem_cons_of_mem _ h

theorem treeLevel_cons_flags {x y : Option Nat} {t : List (Option Nat)} {i : Nat}
    (h : (treeLevel g t).2.getLsbD i = true) : (treeLevel g (x :: y :: t)).2.getLsbD i = true := by
  cases x <;> cases y <;> simp [treeLevel, h]

/-- That the lanes of a pair with v are combined in a level l, with their flags. -/
def Combined (g : Nat → Nat → Nat × Flags) (l : List (Option Nat)) (v : Nat) : Prop :=
  ∃ a b, (v = a ∨ v = b) ∧ some (g a b).1 ∈ (treeLevel g l).1 ∧
    ∀ i, (g a b).2.getLsbD i = true → (treeLevel g l).2.getLsbD i = true

theorem combined_head (a b : Nat) (t : List (Option Nat)) {v : Nat} (hv : v = a ∨ v = b) :
    Combined g (some a :: some b :: t) v :=
  ⟨a, b, hv, List.mem_cons_self, fun i h => by simp [treeLevel, h]⟩

/-- A lane goes through a level as it is, or is one of a pair that the level combines. -/
theorem treeLevel_mem {v : Nat} : ∀ {l : List (Option Nat)}, some v ∈ l → some v ∈ (treeLevel g l).1 ∨ Combined g l v
  | [], hv => by cases hv
  | [_], hv => .inl hv
  | x :: y :: t, hv => by
    rcases List.mem_cons.1 hv with rfl | hv
    · cases y with
      | none => exact .inl List.mem_cons_self
      | some b => exact .inr (combined_head v b t (.inl rfl))
    rcases List.mem_cons.1 hv with rfl | hv
    · cases x with
      | none => exact .inl List.mem_cons_self
      | some a => exact .inr (combined_head a v t (.inr rfl))
    rcases treeLevel_mem hv with h | ⟨a, b, hab, hmem, hflags⟩
    · exact .inl (mem_treeLevel_cons h)
    · exact .inr ⟨a, b, hab, mem_treeLevel_cons hmem, fun i hi => treeLevel_cons_flags (hflags i hi)⟩

/-- A property of a lane that combining keeps is one of the tree's result. -/
theorem tree_result {P : Nat → Prop} (hg : ∀ a b, P a ∨ P b → P (g a b).1) (n : Nat) {l : List (Option Nat)}
    (hl : l.length ≤ 2 ^ n) {v : Nat} (hv : some v ∈ l) (hP : P v) : P (tree g n l).1 := by
  induction n generalizing l v with
  | zero =>
    obtain ⟨u, rfl⟩ := List.length_eq_one_iff.1 (le_antisymm hl (List.length_pos_of_mem hv))
    obtain rfl := List.mem_singleton.1 hv
    exact hP
  | succ n ih =>
    have hlen : (treeLevel g l).1.length ≤ 2 ^ n := by rw [treeLevel_length, Nat.pow_succ] at *; omega
    rcases treeLevel_mem hv with h | ⟨a, b, hab, hmem, -⟩
    · exact ih hlen h hP
    · exact ih hlen hmem (hg a b (by rcases hab with rfl | rfl <;> simp [hP]))

/-- A flag that combining a lane of some kind raises is raised by the tree, or its result is of that kind. -/
theorem tree_flag {P : Nat → Prop} {i : Nat} (hg : ∀ a b, P a ∨ P b → (g a b).2.getLsbD i = true) (n : Nat)
    {l : List (Option Nat)} (hl : l.length ≤ 2 ^ n) {v : Nat} (hv : some v ∈ l) (hP : P v) :
    (tree g n l).2.getLsbD i = true ∨ P (tree g n l).1 := by
  induction n generalizing l v with
  | zero =>
    obtain ⟨u, rfl⟩ := List.length_eq_one_iff.1 (le_antisymm hl (List.length_pos_of_mem hv))
    obtain rfl := List.mem_singleton.1 hv
    exact .inr hP
  | succ n ih =>
    have hlen : (treeLevel g l).1.length ≤ 2 ^ n := by rw [treeLevel_length, Nat.pow_succ] at *; omega
    rcases treeLevel_mem hv with h | ⟨a, b, hab, -, hflags⟩
    · exact (ih hlen h hP).imp_left fun hf => by simp [tree, hf]
    · have raised := hflags i (hg a b (by rcases hab with rfl | rfl <;> simp [hP]))
      exact .inl (by simp [tree, raised])

end

/-- Combining two lanes of which one is a NaN (R49, R50). -/
theorem redLane_nan {k : Fmt} {g : LFmt} (hk : laneFmt g = some k) (op : RedOp) (rm : RMode) {x y : Nat}
    (h : isNaN (readFp k x) = true ∨ isNaN (readFp k y) = true) :
    redLane op g rm x y = nanResult k (isSig (readFp k x) || isSig (readFp k y)) := by
  cases op with
  | add => simpa only [redLane, addLane, arith, hk] using fpAdd_nan h
  | min => simpa only [redLane, minLane, arith, hk] using fpMin_nan h
  | max => simpa only [redLane, maxLane, arith, hk] using fpMax_nan h

theorem redResult_nan {k : Fmt} {g : LFmt} (hk : laneFmt g = some k) {x : Nat} {sg : Bool} (h : readFp k x = .nan sg) :
    redResult g x = nanResult k sg := by
  rw [redResult, hk]
  dsimp only
  rw [h]
  rfl

theorem nvIf_true_getLsbD : (nvIf true).getLsbD 0 = true := rfl

/-- A tree of lanes of which one is a NaN delivers the canonical NaN. -/
theorem reduction_canonical {k : Fmt} {g : LFmt} (hk : laneFmt g = some k) (hcan : isNaN (readFp k (canonNaN k)) = true)
    (op : RedOp) (rm : RMode) {l : List (Option Nat)} (hl : l.length ≤ 32) {v : Nat} (hv : some v ∈ l)
    (h : isNaN (readFp k v) = true) : (redResult g (tree (redLane op g rm) 5 l).1).1 = canonNaN k := by
  have hnan : isNaN (readFp k (tree (redLane op g rm) 5 l).1) = true :=
    tree_result (P := fun u => isNaN (readFp k u) = true)
      (fun a b hab => by rw [redLane_nan hk op rm hab]; exact hcan) 5 hl hv h
  obtain ⟨sg, hsg⟩ := isNaN_iff.1 hnan
  rw [redResult_nan hk hsg]
  rfl

/-- A tree of lanes of which one is a signalling NaN raises NV, with the delivery of its result. -/
theorem reduction_signals {k : Fmt} {g : LFmt} (hk : laneFmt g = some k) (op : RedOp) (rm : RMode)
    {l : List (Option Nat)} (hl : l.length ≤ 32) {v : Nat} (hv : some v ∈ l) (h : isSig (readFp k v) = true) :
    ((tree (redLane op g rm) 5 l).2 ||| (redResult g (tree (redLane op g rm) 5 l).1).2).getLsbD 0 = true := by
  have signals (a b : Nat) (hab : isSig (readFp k a) = true ∨ isSig (readFp k b) = true) :
      (redLane op g rm a b).2.getLsbD 0 = true := by
    have hsig : (isSig (readFp k a) || isSig (readFp k b)) = true := by simpa using hab
    rw [redLane_nan hk op rm (hab.imp isNaN_of_isSig isNaN_of_isSig), hsig]
    exact nvIf_true_getLsbD
  rw [BitVec.getLsbD_or, Bool.or_eq_true]
  refine (tree_flag (P := fun u => isSig (readFp k u) = true) signals 5 hl hv h).imp_right fun hsig => ?_
  obtain ⟨sg, hsg⟩ := isNaN_iff.1 (isNaN_of_isSig hsig)
  rw [hsg] at hsig
  rw [redResult_nan hk hsg, show sg = true from hsig]
  exact nvIf_true_getLsbD

/-- Settles O15, from the rounding of represented values, the results of operations on a NaN and the trees of lanes. -/
theorem roundingAndNaNOperands : Obligations.RoundingAndNaNOperands := by
  unfold Obligations.RoundingAndNaNOperands
  refine ⟨fun rm f b x => ⟨fun hx hn => roundTo_readFp_ffmt hx hn rm, fun hx hn => roundTo_readFp_b8 hx hn rm⟩, ?_⟩
  intro rm f e k dst range draw x y z hk _ a b c out all
  refine ⟨fun h => ?pair, fun ha hb hc => ?addend, fun h => ?single, fun op g l v hg hl hv => ?lanes⟩
  case pair =>
    exact ⟨fpAdd_nan h, fpSub_nan h, fpMul_nan h, fpDiv_nan h, fpMin_nan h, fpMax_nan h, fpCmp_nan h, fpFma_nan h,
      fpFms_nan h, fpFnma_nan h⟩
  case addend => exact ⟨fpFma_nan_addend ha hb hc, fpFms_nan_addend ha hb hc, fpFnma_nan_addend ha hb hc⟩
  case single =>
    obtain ⟨sg, hsg⟩ := isNaN_iff.1 h
    rw [hsg]
    exact ⟨fpSqrt_nan hsg, fpSetSign_nan hsg true, fpSetSign_nan hsg false, fpRound_nan hsg, fpSgn_nan hsg, rfl, rfl, rfl,
      rfl⟩
  case lanes =>
    have hcan : isNaN (readFp k (canonNaN k)) = true := by rw [readFp_canonNaN hk]; rfl
    exact ⟨reduction_canonical hg hcan op rm hl hv, reduction_signals hg op rm hl hv⟩

end Sys2Proof.Machine
end

section
/-!
Operand fields and their codes (R66 to R71, R144, R160 to R163): the operands of a type are read from their codes, and
from no other value of the field.
-/
set_option Elab.async false
namespace Sys2Proof

/-! ## Fields and codes -/

theorem field_lt (w lo n : Nat) : field w lo n < 2 ^ n := Nat.mod_lt _ (Nat.two_pow_pos n)

/-- Every value of a field of n bits is the code of one operand. -/
abbrev AllCodes {α : Type} (n : Nat) (ofCode : Nat → α) (code : α → Nat) : Prop :=
  (∀ x, ofCode (code x) = x) ∧ (∀ w lo, code (ofCode (field w lo n)) = field w lo n)

/-- Each operand is read from its code, and from no other value. -/
abbrev OwnCodes {α : Type} (ofCode : Nat → Dec α) (code : α → Nat) : Prop :=
  (∀ c x, ofCode c = .ok x ↔ c = code x) ∧ ∀ x, ofCode (code x) = .ok x

theorem allCodes {α : Type} {n : Nat} {ofCode : Nat → α} {code : α → Nat} (h : ∀ x, ofCode (code x) = x)
    (h' : ∀ c < 2 ^ n, code (ofCode c) = c) : AllCodes n ofCode code :=
  ⟨h, fun w lo => h' _ (field_lt w lo n)⟩

theorem ownCodes {α : Type} {ofCode : Nat → Dec α} {code : α → Nat} (h : ∀ x, ofCode (code x) = .ok x)
    (h' : ∀ c x, ofCode c = .ok x → c = code x) : OwnCodes ofCode code :=
  ⟨fun c x => ⟨h' c x, fun e => e ▸ h x⟩, h⟩

@[simp] theorem Pred.codes : AllCodes 2 Pred.ofCode Pred.code := allCodes (by rintro ⟨⟩ <;> rfl) (by decide)
@[simp] theorem Ord.codes : AllCodes 2 Ord.ofCode Ord.code := allCodes (by rintro ⟨⟩ <;> rfl) (by decide)
@[simp] theorem ASize.codes : AllCodes 1 ASize.ofCode ASize.code := allCodes (by rintro ⟨⟩ <;> rfl) (by decide)
@[simp] theorem AFmt.codes : AllCodes 1 AFmt.ofCode AFmt.code := allCodes (by rintro ⟨⟩ <;> rfl) (by decide)
@[simp] theorem AmoOp.codes : AllCodes 3 AmoOp.ofCode AmoOp.code := allCodes (by rintro ⟨⟩ <;> rfl) (by decide)
@[simp] theorem FFmt.codes : AllCodes 2 FFmt.ofCode FFmt.code := allCodes (by rintro ⟨⟩ <;> rfl) (by decide)
@[simp] theorem FmaFmt.codes : AllCodes 1 FmaFmt.ofCode FmaFmt.code := allCodes (by rintro ⟨⟩ <;> rfl) (by decide)
@[simp] theorem LFmt.codes : AllCodes 3 LFmt.ofCode LFmt.code := allCodes (by rintro ⟨⟩ <;> rfl) (by decide)
@[simp] theorem IFmt.codes : AllCodes 3 IFmt.ofCode IFmt.code := allCodes (by rintro ⟨⟩ <;> rfl) (by decide)
@[simp] theorem EWidth.codes : AllCodes 2 EWidth.ofCode EWidth.code := allCodes (by rintro ⟨⟩ <;> rfl) (by decide)
@[simp] theorem VfmaFmt.codes : AllCodes 2 VfmaFmt.ofCode VfmaFmt.code := allCodes (by rintro ⟨⟩ <;> rfl) (by decide)
@[simp] theorem DotFmt.codes : AllCodes 1 DotFmt.ofCode DotFmt.code := allCodes (by rintro ⟨⟩ <;> rfl) (by decide)
@[simp] theorem BarLevel.codes : AllCodes 1 BarLevel.ofCode BarLevel.code := allCodes (by rintro ⟨⟩ <;> rfl) (by decide)

@[simp] theorem SReg.codes : AllCodes 5 SReg.ofCode SReg.code := by
  refine allCodes (fun x => ?_) (by decide)
  rcases x with i | i | i
  · revert i; decide
  · revert i; decide
  · cases i <;> rfl

@[simp] theorem Scope.codes : OwnCodes Scope.ofCode Scope.code :=
  ownCodes (by rintro ⟨⟩ <;> rfl) fun c x h => by unfold Scope.ofCode at h; split at h <;> cases h <;> rfl
@[simp] theorem LSize.codes : OwnCodes LSize.ofCode LSize.code :=
  ownCodes (by rintro ⟨⟩ <;> rfl) fun c x h => by unfold LSize.ofCode at h; split at h <;> cases h <;> rfl
@[simp] theorem SSize.codes : OwnCodes SSize.ofCode SSize.code :=
  ownCodes (by rintro ⟨⟩ <;> rfl) fun c x h => by unfold SSize.ofCode at h; split at h <;> cases h <;> rfl
@[simp] theorem LMode.codes : OwnCodes LMode.ofCode LMode.code :=
  ownCodes (by rintro ⟨⟩ <;> rfl) fun c x h => by unfold LMode.ofCode at h; split at h <;> cases h <;> rfl
@[simp] theorem RedOp.codes : OwnCodes RedOp.ofCode RedOp.code :=
  ownCodes (by rintro ⟨⟩ <;> rfl) fun c x h => by unfold RedOp.ofCode at h; split at h <;> cases h <;> rfl
@[simp] theorem VCond.codes : OwnCodes VCond.ofCode VCond.code :=
  ownCodes (by rintro ⟨⟩ <;> rfl) fun c x h => by unfold VCond.ofCode at h; split at h <;> cases h <;> rfl
@[simp] theorem QWid.codes : OwnCodes QWid.ofCode QWid.code :=
  ownCodes (by rintro ⟨⟩ <;> rfl) fun c x h => by unfold QWid.ofCode at h; split at h <;> cases h <;> rfl
@[simp] theorem WidenDst.codes : OwnCodes WidenDst.ofCode WidenDst.code :=
  ownCodes (by rintro ⟨⟩ <;> rfl) fun c x h => by unfold WidenDst.ofCode at h; split at h <;> cases h <;> rfl

@[simp] theorem RCode.codes : OwnCodes RCode.ofCode RCode.code :=
  ownCodes (by rintro (⟨⟨⟩⟩ | _) <;> rfl) fun c x h => by unfold RCode.ofCode at h; split at h <;> cases h <;> rfl

@[simp] theorem scalarFmt_codes : OwnCodes scalarFmt FFmt.code :=
  ownCodes (by rintro ⟨⟩ <;> rfl) fun c x h => by
    have codes : ∀ c < 4, c = (FFmt.ofCode c).code := by decide
    unfold scalarFmt at h
    split at h
    · cases h; exact codes c ‹_›
    · cases h

@[simp] theorem GReg.codes : OwnCodes GReg.ofCode Fin.val :=
  ownCodes (fun x => by simp [GReg.ofCode]) fun c x h => by
    unfold GReg.ofCode at h; split at h <;> cases h; rfl

@[simp] theorem MReg.codes : OwnCodes MReg.ofCode Fin.val :=
  ownCodes (fun x => by simp [MReg.ofCode]) fun c x h => by
    unfold MReg.ofCode at h; split at h <;> cases h; rfl

@[simp] theorem plainV_codes : OwnCodes plainV Fin.val :=
  ownCodes (fun x => by simp [plainV]) fun c x h => by
    unfold plainV at h
    split at h
    · cases h; rfl
    · split at h <;> cases h

@[simp] theorem streamCode_codes : OwnCodes streamCode (fun st => 24 + st.val) :=
  ownCodes (by decide) fun c x h => by
    unfold streamCode at h
    split at h <;> cases h
    simp only []; omega

theorem Port.code_ofCode : ∀ n < 4, (Port.ofCode n).code = n := by decide

@[simp] theorem portCode_codes : OwnCodes portCode (fun q => 28 + q.code) :=
  ownCodes (by rintro ⟨⟩ <;> rfl) fun c x h => by
    unfold portCode at h
    split at h <;> cases h
    have := Port.code_ofCode (c - 28) (by omega)
    omega

@[simp] theorem VReg.codes : OwnCodes VReg.ofCode VReg.code := by
  refine ownCodes (fun x => ?_) fun c x h => ?_
  · rcases x with i | i | i
    · revert i; decide
    · revert i; decide
    · cases i <;> rfl
  · unfold VReg.ofCode at h
    split at h
    · cases h; rfl
    split at h
    · cases h; simp only [VReg.code]; omega
    split at h
    · cases h
      have := Port.code_ofCode (c - 12) (by omega)
      simp only [VReg.code]; omega
    · cases h

/-- A binary8 variant is read from the five bits of its code (R31). -/
@[simp] theorem B8.codes :
    (∀ w lo v, B8.ofCode (field w lo 5) = .ok v ↔ field w lo 5 = v.code) ∧ ∀ v, B8.ofCode v.code = .ok v := by
  have codes : ∀ c < 32, ∀ v ∈ (B8.ofCode c).toOption, c = v.code := by decide
  have read (v : B8) : B8.ofCode v.code = .ok v := by
    obtain ⟨pm1, uns, fin⟩ := v
    revert pm1 uns fin; decide
  refine ⟨fun w lo v => ⟨fun h => codes _ (field_lt w lo 5) v (by simp [h, Except.toOption]), fun h => h ▸ read v⟩, read⟩

/-- A format that may be a binary8 variant is one where the variant of its five bits is (R162, R163). -/
theorem B8.map_eq_ok {α : Type} {f : B8 → α} {w lo : Nat} {x : α} :
    (B8.ofCode (field w lo 5)).map f = .ok x ↔ ∃ v : B8, field w lo 5 = v.code ∧ f v = x := by
  simp only [← B8.codes.1]
  cases B8.ofCode (field w lo 5) <;> simp [Except.map]

/-- The destination of VNARROW is read from the bit that tells binary8 from the rest, and five bits (R162). -/
@[simp] theorem NarrowDst.codes :
    (∀ b w lo x, NarrowDst.ofCode b (field w lo 5) = .ok x ↔ b = x.isB8 ∧ field w lo 5 = x.code) ∧
    ∀ x, NarrowDst.ofCode x.isB8 x.code = .ok x := by
  have read (x : NarrowDst) : NarrowDst.ofCode x.isB8 x.code = .ok x := by
    cases x
    case b8 v => simp [NarrowDst.ofCode, NarrowDst.isB8, NarrowDst.code, Except.map]
    all_goals rfl
  refine ⟨fun b w lo x => ⟨fun h => ?_, fun ⟨hb, hc⟩ => hb ▸ hc ▸ read x⟩, read⟩
  unfold NarrowDst.ofCode at h
  split at h
  next hb => obtain ⟨v, hv, rfl⟩ := B8.map_eq_ok.1 h; exact ⟨hb, hv⟩
  next hb => split at h <;> cases h <;> exact ⟨(Bool.not_eq_true b).mp hb, ‹_›⟩

/-- The source of VWIDEN is read from the bit that tells binary8 from the rest, and five bits (R163). -/
@[simp] theorem WidenSrc.codes :
    (∀ b w lo x, WidenSrc.ofCode b (field w lo 5) = .ok x ↔ b = x.isB8 ∧ field w lo 5 = x.code) ∧
    ∀ x, WidenSrc.ofCode x.isB8 x.code = .ok x := by
  have read (x : WidenSrc) : WidenSrc.ofCode x.isB8 x.code = .ok x := by
    cases x
    case b8 v => simp [WidenSrc.ofCode, WidenSrc.isB8, WidenSrc.code, Except.map]
    all_goals rfl
  refine ⟨fun b w lo x => ⟨fun h => ?_, fun ⟨hb, hc⟩ => hb ▸ hc ▸ read x⟩, read⟩
  unfold WidenSrc.ofCode at h
  split at h
  next hb => obtain ⟨v, hv, rfl⟩ := B8.map_eq_ok.1 h; exact ⟨hb, hv⟩
  next hb => split at h <;> cases h <;> exact ⟨(Bool.not_eq_true b).mp hb, ‹_›⟩

end Sys2Proof
end

section
/-!
What the decoder accepts encodes to the word it was read from: fields of a word, and the formats that instructions share
(R65).
-/
set_option Elab.async false
namespace Sys2Proof

theorem bind_eq_ok {α β : Type} {x : Dec α} {f : α → Dec β} {b : β} :
    (x >>= f) = .ok b ↔ ∃ a, x = .ok a ∧ f a = .ok b := by
  cases x <;> simp [bind, Except.bind]

theorem need_eq_ok {c : Bool} {e : DecodeError} {u : Unit} : need c e = .ok u ↔ c = true := by
  cases c <;> simp [need]

theorem toNat_ofNat_field (w lo n : Nat) : (BitVec.ofNat n (field w lo n)).toNat = field w lo n := by
  simp [field]

@[simp] theorem toNat_field_beq_one (w lo : Nat) : (field w lo 1 == 1).toNat = field w lo 1 := by
  have bits : ∀ x < 2, (x == 1).toNat = x := by decide
  exact bits _ (field_lt w lo 1)

/-- A 32-bit word of a major opcode (R63, R65). -/
structure Word (w major : Nat) : Prop where
  odd : w % 2 = 1
  lt : w < 2 ^ 32
  major : field w 1 6 = major

section
variable {w m p d a b c f s : Nat} {i : Instr}

theorem Word.encR {hi : Nat} (hw : Word w m) (hp : p = fP w) (hd : d = fD w) (ha : a = fA w) (hh : hi = field w 19 13) :
    encR m p d a hi = some ⟨32, w⟩ := by
  obtain ⟨hodd, hlt, rfl⟩ := hw
  subst hp hd ha hh
  simp only [Sys2Proof.encR, fP, fD, fA, field, Option.some.injEq, Encoded.mk.injEq, true_and]
  omega

theorem Word.encBF (hw : Word w m) (hp : p = fP w) (hd : d = fD w) (ha : a = fA w) (hb : b = fB w) (hf : f = fF8 w) :
    Sys2Proof.encR m p d a (hiBF b f) = some ⟨32, w⟩ :=
  hw.encR hp hd ha (by subst hb hf; simp only [hiBF, fB, fF8, field]; omega)

theorem Word.encBCF (hw : Word w m) (hp : p = fP w) (hd : d = fD w) (ha : a = fA w) (hb : b = fB w) (hc : c = fC w)
    (hf : f = field w 29 3) : Sys2Proof.encR m p d a (hiBCF b c f) = some ⟨32, w⟩ :=
  hw.encR hp hd ha (by subst hb hc hf; simp only [hiBCF, fB, fC, field]; omega)

theorem Word.encL {mode off : Nat} (hw : Word w m) (hp : p = fP w) (hd : d = fD w) (ha : a = fA w) (hs : s = field w 19 3)
    (hm : mode = field w 22 2) (ho : off = field w 24 8) : Sys2Proof.encR m p d a (hiL s mode off) = some ⟨32, w⟩ :=
  hw.encR hp hd ha (by subst hs hm ho; simp only [hiL, field]; omega)

/-! ## Formats -/

@[simp] theorem Pred.code_fP (w : Nat) : (Pred.ofCode (fP w)).code = fP w := Pred.codes.2 w 7
@[simp] theorem Ord.code_fP (w : Nat) : (Ord.ofCode (fP w)).code = fP w := Ord.codes.2 w 7
@[simp] theorem SReg.code_fD (w : Nat) : (SReg.ofCode (fD w)).code = fD w := SReg.codes.2 w 9
@[simp] theorem SReg.code_fA (w : Nat) : (SReg.ofCode (fA w)).code = fA w := SReg.codes.2 w 14
@[simp] theorem SReg.code_fB (w : Nat) : (SReg.ofCode (fB w)).code = fB w := SReg.codes.2 w 19
@[simp] theorem SReg.code_fC (w : Nat) : (SReg.ofCode (fC w)).code = fC w := SReg.codes.2 w 24

theorem encode_of_sss {k : Pred → SReg → SReg → SReg → Instr} (hw : Word w m) (hf : fF8 w = f) (h : sss w k = .ok i)
    (hk : ∀ p d a b, encode (k p d a b) = enc3 m f p d.code a.code b.code) : encode i = some ⟨32, w⟩ := by
  cases h
  exact (hk ..).trans (hw.encBF (by simp) (by simp) (by simp) (by simp) hf.symm)

theorem encode_of_ss {k : Pred → SReg → SReg → Instr} (hw : Word w m) (hf : fF8 w = f) (h : ss w k = .ok i)
    (hk : ∀ p d a, encode (k p d a) = enc3 m f p d.code a.code 0) : encode i = some ⟨32, w⟩ := by
  simp only [ss, bind_eq_ok, need_eq_ok, beq_iff_eq] at h
  obtain ⟨-, hb, h⟩ := h
  cases h
  exact (hk ..).trans (hw.encBF (by simp) (by simp) (by simp) hb.symm hf.symm)

theorem encode_of_ggg {k : Pred → GReg → GReg → GReg → Instr} (hw : Word w m) (hf : fF8 w = f) (h : ggg w k = .ok i)
    (hk : ∀ p d a b, encode (k p d a b) = enc3 m f p d a b) : encode i = some ⟨32, w⟩ := by
  simp only [ggg, bind_eq_ok, GReg.codes] at h
  obtain ⟨d, hd, a, ha, b, hb, h⟩ := h
  cases h
  exact (hk ..).trans (hw.encBF (by simp) hd.symm ha.symm hb.symm hf.symm)

theorem encode_of_gg {k : Pred → GReg → GReg → Instr} (hw : Word w m) (hf : fF8 w = f) (h : gg w k = .ok i)
    (hk : ∀ p d a, encode (k p d a) = enc3 m f p d a 0) : encode i = some ⟨32, w⟩ := by
  simp only [gg, bind_eq_ok, need_eq_ok, beq_iff_eq, GReg.codes] at h
  obtain ⟨-, hb, d, hd, a, ha, h⟩ := h
  cases h
  exact (hk ..).trans (hw.encBF (by simp) hd.symm ha.symm hb.symm hf.symm)

theorem fF8_eq_of_op {op : Nat} (h : field w 27 5 = op) : fF8 w = 8 * op + field w 24 3 := by
  subst h; simp only [fF8, field]; omega

theorem encode_of_vvv {op : Nat} {k : Pred → LFmt → VReg → VReg → VReg → Instr} (hw : Word w 0x2B)
    (hop : field w 27 5 = op) (h : vvv w k = .ok i) (hk : ∀ p f d a b, encode (k p f d a b) = encV3 op p f d a b) :
    encode i = some ⟨32, w⟩ := by
  simp only [vvv, bind_eq_ok, VReg.codes] at h
  obtain ⟨d, hd, a, ha, b, hb, h⟩ := h
  cases h
  exact (hk ..).trans (hw.encBF (by simp) hd.symm ha.symm hb.symm (by simp [fF8_eq_of_op hop]))

theorem encode_of_vvP {op : Nat} {k : Pred → LFmt → Bool → VReg → VReg → Instr} (hw : Word w 0x2B)
    (hop : field w 27 5 = op) (h : vvP w k = .ok i) (hk : ∀ p f x d a, encode (k p f x d a) = encVP op p f x d a) :
    encode i = some ⟨32, w⟩ := by
  simp only [vvP, bind_eq_ok, need_eq_ok, beq_iff_eq, VReg.codes] at h
  obtain ⟨-, hz, d, hd, a, ha, h⟩ := h
  cases h
  refine (hk ..).trans (hw.encBF (by simp) hd.symm ha.symm ?_ (by simp [fF8_eq_of_op hop]))
  rw [toNat_field_beq_one]
  simp only [fB, field] at hz ⊢
  omega

theorem encode_of_imm {k : Pred → SReg → SReg → BitVec 13 → Instr} (hw : Word w m) (h : imm w k = .ok i)
    (hk : ∀ p d a x, encode (k p d a x) = Sys2Proof.encR m p.code d.code a.code x.toNat) : encode i = some ⟨32, w⟩ := by
  cases h
  exact (hk ..).trans (hw.encR (by simp) (by simp) (by simp) (toNat_ofNat_field w 19 13))

theorem encode_of_decU {k : SReg → BitVec 18 → Instr} (hw : Word w m) (h : decU w k = .ok i)
    (hk : ∀ d x, encode (k d x) = encU m d.code x.toNat) : encode i = some ⟨32, w⟩ := by
  obtain ⟨hodd, hlt, rfl⟩ := hw
  simp only [decU, bind_eq_ok, need_eq_ok, beq_iff_eq] at h
  obtain ⟨-, hp, h⟩ := h
  cases h
  rw [hk, encU, SReg.code_fD, toNat_ofNat_field]
  simp only [fP, fD, field, Option.some.injEq, Encoded.mk.injEq, true_and] at hp ⊢
  omega

theorem fBoff_toNat (w : Nat) : (fBoff w).toNat = field w 19 13 * 4 + fP w := by
  simp only [fBoff, BitVec.toNat_ofNat, fP, field]
  omega

theorem Word.encB (hw : Word w m) (hd : d = fD w) (ha : a = fA w) : encB m d a (fBoff w).toNat = some ⟨32, w⟩ := by
  have hp : fP w < 4 := field_lt w 7 2
  refine hw.encR ?_ hd ha ?_ <;> rw [fBoff_toNat] <;> omega

theorem encode_of_decB {k : SReg → SReg → BitVec 15 → Instr} (hw : Word w m) (h : decB w k = .ok i)
    (hk : ∀ a b o, encode (k a b o) = Sys2Proof.encB m a.code b.code o.toNat) : encode i = some ⟨32, w⟩ := by
  cases h
  exact (hk ..).trans (hw.encB (by simp) (by simp))

/-- The index register of mode 10 is [31:24] with its reserved bits 0 (R69). -/
theorem indexReg_eq_ok {r : GReg} : indexReg w = .ok r ↔ field w 24 8 = r := by
  simp only [indexReg, bind_eq_ok, need_eq_ok, beq_iff_eq, GReg.codes, fC]
  have := r.isLt
  simp only [field, exists_const]
  omega

theorem encode_of_presS {k : Pred → SReg → GReg → LMode → BitVec 8 → Instr} {kx : Pred → SReg → GReg → GReg → Instr}
    (hw : Word w m) (hs : field w 19 3 = s) (h : presS w k kx = .ok i)
    (hk : ∀ p d a x o, encode (k p d a x o) = Sys2Proof.encR m p.code d.code a (hiL s x.code o.toNat))
    (hkx : ∀ p d a b, encode (kx p d a b) = Sys2Proof.encR m p.code d.code a (hiL s 2 b)) : encode i = some ⟨32, w⟩ := by
  simp only [presS, bind_eq_ok, GReg.codes] at h
  obtain ⟨a, ha, h⟩ := h
  split at h
  · next hm =>
    simp only [bind_eq_ok, indexReg_eq_ok] at h
    obtain ⟨b, hb, h⟩ := h
    cases h
    exact (hkx ..).trans (hw.encL (by simp) (by simp) ha.symm hs.symm hm.symm hb.symm)
  · simp only [bind_eq_ok, LMode.codes] at h
    obtain ⟨x, hx, h⟩ := h
    cases h
    exact (hk ..).trans (hw.encL (by simp) (by simp) ha.symm hs.symm hx.symm (toNat_ofNat_field w 24 8))

theorem encode_of_memV {k : Pred → VReg → GReg → LMode → BitVec 8 → Instr} {kx : Pred → VReg → GReg → GReg → Instr}
    (hw : Word w m) (hs : field w 19 3 = s) (h : memV w k kx = .ok i)
    (hk : ∀ p d a x o, encode (k p d a x o) = Sys2Proof.encR m p.code d.code a (hiL s x.code o.toNat))
    (hkx : ∀ p d a b, encode (kx p d a b) = Sys2Proof.encR m p.code d.code a (hiL s 2 b)) : encode i = some ⟨32, w⟩ := by
  simp only [memV, bind_eq_ok, GReg.codes, VReg.codes] at h
  obtain ⟨d, hd, a, ha, h⟩ := h
  split at h
  · next hm =>
    simp only [bind_eq_ok, indexReg_eq_ok] at h
    obtain ⟨b, hb, h⟩ := h
    cases h
    exact (hkx ..).trans (hw.encL (by simp) hd.symm ha.symm hs.symm hm.symm hb.symm)
  · simp only [bind_eq_ok, LMode.codes] at h
    obtain ⟨x, hx, h⟩ := h
    cases h
    exact (hk ..).trans (hw.encL (by simp) hd.symm ha.symm hs.symm hx.symm (toNat_ofNat_field w 24 8))

theorem encode_of_gathScat {k : Pred → VReg → GReg → EWidth → VReg → Instr} (hw : Word w m) (hs : field w 19 3 = s)
    (h : gathScat w k = .ok i)
    (hk : ∀ p d a e x, encode (k p d a e x) = Sys2Proof.encR m p.code d.code a (hiL s e.code x.code)) :
    encode i = some ⟨32, w⟩ := by
  simp only [gathScat, bind_eq_ok, need_eq_ok, beq_iff_eq, GReg.codes, VReg.codes] at h
  obtain ⟨-, hz, d, hd, a, ha, x, hx, h⟩ := h
  cases h
  refine (hk ..).trans (hw.encL (by simp) hd.symm ha.symm hs.symm (by simp) ?_)
  rw [← hx]; simp only [fC, field] at hz ⊢; omega

theorem encode_of_f3 {op : Nat} {k : Pred → FFmt → SReg → SReg → SReg → Instr} (hw : Word w 0x28)
    (hop : field w 27 5 = op) (h : f3 w k = .ok i)
    (hk : ∀ p f d a b, encode (k p f d a b) = encF op p f d.code a.code b.code) : encode i = some ⟨32, w⟩ := by
  simp only [f3, bind_eq_ok, scalarFmt_codes] at h
  obtain ⟨f, hf, h⟩ := h
  cases h
  exact (hk ..).trans (hw.encBF (by simp) (by simp) (by simp) (by simp) (by rw [fF8_eq_of_op hop, hf]))

theorem encode_of_f2 {op : Nat} {k : Pred → FFmt → SReg → SReg → Instr} (hw : Word w 0x28)
    (hop : field w 27 5 = op) (h : f2 w k = .ok i)
    (hk : ∀ p f d a, encode (k p f d a) = encF op p f d.code a.code 0) : encode i = some ⟨32, w⟩ := by
  simp only [f2, bind_eq_ok, need_eq_ok, beq_iff_eq, scalarFmt_codes] at h
  obtain ⟨f, hf, -, hb, h⟩ := h
  cases h
  exact (hk ..).trans (hw.encBF (by simp) (by simp) (by simp) hb.symm (by rw [fF8_eq_of_op hop, hf]))

end

end Sys2Proof
end

section
/-!
What the decoder accepts encodes to the word it was read from, major by major (R72): scalar operations, memory, atomics,
waits and scalar floating point.
-/
set_option Elab.async false
namespace Sys2Proof

section
variable {w : Nat} {i : Instr}

/-! ## Majors: what is read encodes to the word -/

theorem encode_of_decInt (hw : Word w 0x00) (h : decInt w = .ok i) : encode i = some ⟨32, w⟩ := by
  unfold decInt at h
  split at h
  case h_21 hf =>
    simp only [bind_eq_ok, GReg.codes] at h
    obtain ⟨d, hd, h⟩ := h
    cases h
    exact hw.encBF (by simp) hd.symm (by simp) (by simp) hf.symm
  case h_22 => cases h
  all_goals exact encode_of_sss hw ‹fF8 w = _› h fun _ _ _ _ => rfl

theorem encode_of_decShift (hw : Word w 0x05) (h : decShift w = .ok i) : encode i = some ⟨32, w⟩ := by
  simp only [decShift, bind_eq_ok, need_eq_ok, beq_iff_eq] at h
  obtain ⟨-, hz, h⟩ := h
  have hsel : field w 25 2 < 4 := field_lt w 25 2
  generalize hx : field w 25 2 = x at h hsel
  interval_cases x
  all_goals
    cases h
    refine hw.encR (by simp) (by simp) (by simp) ?_
    rw [toNat_ofNat_field]
    simp only [field] at *
    omega

theorem encode_of_decFunnel (hw : Word w 0x0B) (h : decFunnel w = .ok i) : encode i = some ⟨32, w⟩ := by
  simp only [decFunnel, bind_eq_ok, need_eq_ok, beq_iff_eq] at h
  obtain ⟨-, hz, h⟩ := h
  split at h
  all_goals
    cases h
    refine hw.encBF (by simp) (by simp) (by simp) (by simp) ?_
    rw [toNat_ofNat_field]
    simp only [fF8, field] at *
    omega

theorem encode_of_decMul (hw : Word w 0x0C) (h : decMul w = .ok i) : encode i = some ⟨32, w⟩ := by
  unfold decMul at h
  split at h
  case h_8 => cases h
  all_goals exact encode_of_sss hw ‹fF8 w = _› h fun _ _ _ _ => rfl

theorem encode_of_decBit (hw : Word w 0x0D) (h : decBit w = .ok i) : encode i = some ⟨32, w⟩ := by
  unfold decBit at h
  split at h
  case h_12 => cases h
  all_goals exact encode_of_ss hw ‹fF8 w = _› h fun _ _ _ => rfl

theorem encode_of_decMask (hw : Word w 0x0E) (h : decMask w = .ok i) : encode i = some ⟨32, w⟩ := by
  unfold decMask at h
  split at h
  case h_6 => cases h
  all_goals simp only [bind_eq_ok, need_eq_ok, beq_iff_eq, MReg.codes] at h
  case h_1 hf =>
    obtain ⟨-, hb, d, hd, h⟩ := h
    cases h
    exact hw.encBF (by simp) hd.symm (by simp) hb.symm hf.symm
  case h_2 hf =>
    obtain ⟨-, hb, a, ha, h⟩ := h
    cases h
    exact hw.encBF (by simp) (by simp) ha.symm hb.symm hf.symm
  case h_5 hf =>
    obtain ⟨-, hb, d, hd, a, ha, h⟩ := h
    cases h
    exact hw.encBF (by simp) hd.symm ha.symm hb.symm hf.symm
  all_goals
    obtain ⟨d, hd, a, ha, b, hb, h⟩ := h
    cases h
    exact hw.encBF (by simp) hd.symm ha.symm hb.symm (Eq.symm ‹fF8 w = _›)

theorem encode_of_decBeos (hw : Word w 0x19) (h : decBeos w = .ok i) : encode i = some ⟨32, w⟩ := by
  simp only [decBeos, bind_eq_ok, need_eq_ok, beq_iff_eq, streamCode_codes] at h
  obtain ⟨-, ha, st, hst, h⟩ := h
  cases h
  exact hw.encB hst.symm ha.symm

theorem encode_of_decIter (hw : Word w 0x1A) (h : decIter w = .ok i) : encode i = some ⟨32, w⟩ := by
  simp only [decIter, bind_eq_ok, GReg.codes] at h
  obtain ⟨d, hd, a, ha, h⟩ := h
  split at h
  all_goals
    cases h
    refine hw.encR (by simp) hd.symm ha.symm ?_
    rw [toNat_ofNat_field]
    simp only [field] at *
    omega

theorem encode_of_decLd (hw : Word w 0x1C) (h : decLd w = .ok i) : encode i = some ⟨32, w⟩ := by
  simp only [decLd, bind_eq_ok, GReg.codes, LSize.codes] at h
  obtain ⟨sz, hsz, a, ha, h⟩ := h
  split at h
  all_goals simp only [bind_eq_ok, indexReg_eq_ok, LMode.codes] at h
  case isTrue hm =>
    obtain ⟨b, hb, h⟩ := h
    cases h
    exact hw.encL (by simp) (by simp) ha.symm hsz.symm hm.symm hb.symm
  case isFalse =>
    obtain ⟨x, hx, h⟩ := h
    cases h
    exact hw.encL (by simp) (by simp) ha.symm hsz.symm hx.symm (toNat_ofNat_field w 24 8)

theorem encode_of_decSt (hw : Word w 0x1D) (h : decSt w = .ok i) : encode i = some ⟨32, w⟩ := by
  simp only [decSt, bind_eq_ok, GReg.codes, SSize.codes] at h
  obtain ⟨sz, hsz, a, ha, h⟩ := h
  split at h
  all_goals simp only [bind_eq_ok, indexReg_eq_ok, LMode.codes] at h
  case isTrue hm =>
    obtain ⟨b, hb, h⟩ := h
    cases h
    exact hw.encL (by simp) (by simp) ha.symm hsz.symm hm.symm hb.symm
  case isFalse =>
    obtain ⟨x, hx, h⟩ := h
    cases h
    exact hw.encL (by simp) (by simp) ha.symm hsz.symm hx.symm (toNat_ofNat_field w 24 8)

/-- The scope or 0 in [26:24] and the offset in [31:27] make up [31:24] (R120, R121). -/
theorem low_add_off5 {x : Nat} (hx : field w 24 3 = x) :
    x + 8 * (BitVec.ofNat 5 (field w 27 5)).toNat = field w 24 8 := by
  rw [toNat_ofNat_field, ← hx]
  simp only [field]
  omega

theorem encode_of_decLda (hw : Word w 0x1E) (h : decLda w = .ok i) : encode i = some ⟨32, w⟩ := by
  simp only [decLda, bind_eq_ok, GReg.codes] at h
  obtain ⟨a, ha, h⟩ := h
  split at h
  case h_1 hm =>
    simp only [bind_eq_ok, LSize.codes, Scope.codes] at h
    obtain ⟨sz, hsz, sc, hsc, h⟩ := h
    cases h
    exact hw.encL (by simp) (by simp) ha.symm hsz.symm hm.symm (low_add_off5 hsc)
  case h_2 hm =>
    simp only [bind_eq_ok, SSize.codes, Scope.codes] at h
    obtain ⟨sz, hsz, sc, hsc, h⟩ := h
    cases h
    exact hw.encL (by simp) (by simp) ha.symm hsz.symm hm.symm (low_add_off5 hsc)
  case h_3 hm =>
    simp only [bind_eq_ok, need_eq_ok, beq_iff_eq] at h
    obtain ⟨-, hsz, -, hz, h⟩ := h
    split at h <;> cases h
    exact hw.encL (by simp) rfl ha.symm hsz.symm hm.symm ((Nat.zero_add _).symm.trans (low_add_off5 hz))
  case h_4 => cases h

theorem encode_of_decPres (hw : Word w 0x1F) (h : decPres w = .ok i) : encode i = some ⟨32, w⟩ := by
  unfold decPres at h
  split at h
  case h_6 => cases h
  case h_4 hs | h_5 hs => exact encode_of_memV hw hs h (fun _ _ _ _ _ => rfl) fun _ _ _ _ => rfl
  all_goals exact encode_of_presS hw ‹field w 19 3 = _› h (fun _ _ _ _ _ => rfl) fun _ _ _ _ => rfl

theorem encode_of_decVmem (hw : Word w 0x20) (h : decVmem w = .ok i) : encode i = some ⟨32, w⟩ := by
  unfold decVmem at h
  split at h
  case h_1 hs | h_2 hs => exact encode_of_memV hw hs h (fun _ _ _ _ _ => rfl) fun _ _ _ _ => rfl
  case h_3 hs | h_4 hs => exact encode_of_gathScat hw hs h fun _ _ _ _ _ => rfl
  case h_5 => cases h

theorem encode_of_decStash (hw : Word w 0x21) (h : decStash w = .ok i) : encode i = some ⟨32, w⟩ := by
  simp only [decStash, bind_eq_ok, VReg.codes, GReg.codes] at h
  obtain ⟨d, hd, a, ha, h⟩ := h
  split at h
  case h_1 hs =>
    simp only [bind_eq_ok, need_eq_ok, beq_iff_eq, LMode.codes, GReg.codes] at h
    obtain ⟨-, hz, x, hx, b, hb, h⟩ := h
    cases h
    refine hw.encL (by simp) hd.symm ha.symm hs.symm hx.symm ?_
    rw [← hb, EWidth.codes.2]
    simp only [fC, field] at *
    omega
  case h_2 hs =>
    simp only [bind_eq_ok, LMode.codes] at h
    obtain ⟨x, hx, h⟩ := h
    cases h
    refine hw.encL (by simp) hd.symm ha.symm hs.symm hx.symm ?_
    rw [toNat_ofNat_field]
    simp only [field] at *
    omega
  case h_3 => cases h

theorem encode_of_decAmo (hw : Word w 0x22) (h : decAmo w = .ok i) : encode i = some ⟨32, w⟩ := by
  simp only [decAmo, bind_eq_ok, Scope.codes, GReg.codes] at h
  obtain ⟨sc, hsc, a, ha, h⟩ := h
  split at h
  case isTrue =>
    cases h
    refine hw.encBF (by simp) (by simp) ha.symm (by simp) ?_
    rw [ASize.codes.2, AmoOp.codes.2]
    simp only [fF8, field] at *
    omega
  case isFalse =>
    split at h
    case h_3 => cases h
    all_goals
      simp only [bind_eq_ok, GReg.codes] at h
      obtain ⟨d, hd, h⟩ := h
      cases h
      refine hw.encBF (by simp) hd.symm ha.symm (by simp) ?_
      rw [ASize.codes.2]
      simp only [fF8, field] at *
      omega

theorem redOrd_eq_ok {rel : Bool} : redOrd w = .ok rel ↔ fP w = 2 * rel.toNat := by
  unfold redOrd
  split
  · cases rel <;> simp [*]
  · cases rel <;> simp [*]
  · next h0 h2 => cases rel <;> simpa

theorem encode_of_decFamo (hw : Word w 0x23) (h : decFamo w = .ok i) : encode i = some ⟨32, w⟩ := by
  simp only [decFamo, bind_eq_ok, Scope.codes, GReg.codes, RedOp.codes] at h
  obtain ⟨sc, hsc, a, ha, op, hop, h⟩ := h
  split at h
  case h_1 =>
    cases h
    refine hw.encBF (by simp) (by simp) ha.symm (by simp) ?_
    rw [AFmt.codes.2]
    simp only [fF8, field] at *
    omega
  case h_2 =>
    simp only [bind_eq_ok, need_eq_ok, beq_iff_eq, redOrd_eq_ok] at h
    obtain ⟨-, hd, rel, hrel, h⟩ := h
    cases h
    refine hw.encBF hrel.symm hd.symm ha.symm (by simp) ?_
    rw [ASize.codes.2]
    simp only [fF8, field] at *
    omega
  case h_3 =>
    simp only [bind_eq_ok, need_eq_ok, beq_iff_eq, redOrd_eq_ok] at h
    obtain ⟨-, hd, rel, hrel, h⟩ := h
    cases h
    refine hw.encBF hrel.symm hd.symm ha.symm (by simp) ?_
    rw [AFmt.codes.2]
    simp only [fF8, field] at *
    omega
  case h_4 => cases h

theorem encode_of_decFence (hw : Word w 0x24) (h : decFence w = .ok i) : encode i = some ⟨32, w⟩ := by
  unfold decFence at h
  split at h
  case isTrue hi =>
    simp only [bind_eq_ok, need_eq_ok, beq_iff_eq] at h
    obtain ⟨-, hz, h⟩ := h
    cases h
    refine hw.encBF ?_ ?_ ?_ ?_ ?_
    all_goals
      simp only [fP, fD, fA, fB, fF8, field] at *
      omega
  case isFalse hi =>
    simp only [bind_eq_ok, need_eq_ok, beq_iff_eq, Bool.and_eq_true, Scope.codes] at h
    obtain ⟨-, ⟨hz, hy⟩, sc, hsc, h⟩ := h
    cases h
    have hd : fD w = 0 := by simp only [fD, field] at *; omega
    have ha : fA w = 0 := by simp only [fA, field] at *; omega
    have hb : fB w = 0 := by simp only [fB, field] at *; omega
    refine hw.encBF (by simp) hd.symm ha.symm hb.symm ?_
    rw [toNat_field_beq_one, toNat_field_beq_one]
    simp only [fF8, field] at *
    omega

theorem encode_of_decWait (hw : Word w 0x25) (h : decWait w = .ok i) : encode i = some ⟨32, w⟩ := by
  simp only [decWait, bind_eq_ok, need_eq_ok, beq_iff_eq] at h
  obtain ⟨-, hz, h⟩ := h
  have hf {x : Nat} (hx : field w 30 2 = x) : fF8 w = 64 * x := by simp only [fF8, field] at *; omega
  split at h
  case h_1 hx | h_2 hx => exact encode_of_ggg hw (hf hx) h fun _ _ _ _ => rfl
  case h_3 hx =>
    simp only [bind_eq_ok, need_eq_ok, beq_iff_eq, GReg.codes] at h
    obtain ⟨-, hd, a, ha, b, hb, h⟩ := h
    cases h
    exact hw.encBF (by simp) hd.symm ha.symm hb.symm (hf hx).symm
  case h_4 => cases h

theorem encode_of_decBar (hw : Word w 0x26) (h : decBar w = .ok i) : encode i = some ⟨32, w⟩ := by
  simp only [decBar, bind_eq_ok, need_eq_ok, beq_iff_eq] at h
  obtain ⟨-, hz, h⟩ := h
  have ha : fA w = 0 := by simp only [fA, field] at *; omega
  split at h
  all_goals simp only [bind_eq_ok, need_eq_ok, beq_iff_eq, GReg.codes] at h
  case isTrue =>
    obtain ⟨-, hd, h⟩ := h
    cases h
    refine hw.encR (by simp) hd.symm ha.symm ?_
    rw [BarLevel.codes.2]
    simp only [field] at *
    omega
  case isFalse =>
    obtain ⟨d, hd, h⟩ := h
    cases h
    refine hw.encR (by simp) hd.symm ha.symm ?_
    rw [BarLevel.codes.2]
    simp only [field] at *
    omega

theorem encode_of_decTime (hw : Word w 0x27) (h : decTime w = .ok i) : encode i = some ⟨32, w⟩ := by
  simp only [decTime, bind_eq_ok, need_eq_ok, beq_iff_eq, GReg.codes] at h
  obtain ⟨-, hz, d, hd, h⟩ := h
  split at h
  all_goals simp only [bind_eq_ok, need_eq_ok, beq_iff_eq, GReg.codes] at h
  case isTrue =>
    obtain ⟨-, ha, h⟩ := h
    cases h
    refine hw.encR (by simp) hd.symm ha.symm ?_
    simp only [field] at *
    omega
  case isFalse =>
    obtain ⟨a, ha, h⟩ := h
    cases h
    refine hw.encR (by simp) hd.symm ha.symm ?_
    simp only [field] at *
    omega

theorem encode_of_decFp (hw : Word w 0x28) (h : decFp w = .ok i) : encode i = some ⟨32, w⟩ := by
  unfold decFp at h
  split at h
  case h_11 => cases h
  case h_5 hop | h_10 hop => exact encode_of_f2 hw hop h fun _ _ _ _ => rfl
  all_goals exact encode_of_f3 hw ‹field w 27 5 = _› h fun _ _ _ _ _ => rfl

theorem encode_of_decFma (hw : Word w 0x29) (h : decFma w = .ok i) : encode i = some ⟨32, w⟩ := by
  unfold decFma at h
  dsimp only at h
  split at h
  case h_4 => cases h
  all_goals
    cases h
    refine hw.encBCF (by simp) (by simp) (by simp) (by simp) (by simp) ?_
    rw [FmaFmt.codes.2]
    simp only [field] at *
    omega

end

end Sys2Proof
end

section
/-!
What the decoder accepts encodes to the word it was read from, major by major (R72): conversions, vectors, streams,
strands, gangs, engines, CSRs and traps, and the 16-bit forms (R84).
-/
set_option Elab.async false
namespace Sys2Proof

section
variable {w : Nat} {i : Instr}

theorem encode_of_decFcvt (hw : Word w 0x2A) (h : decFcvt w = .ok i) : encode i = some ⟨32, w⟩ := by
  unfold decFcvt at h
  dsimp only at h
  split at h
  case h_1 hsel =>
    split at h
    case h_4 => cases h
    all_goals simp only [bind_eq_ok, need_eq_ok, beq_iff_eq, fB, B8.codes, Bool.not_eq_true', beq_eq_false_iff_ne] at h
    case h_1 hk =>
      obtain ⟨-, hz, h⟩ := h
      cases h
      refine hw.encR (by simp) (by simp) (by simp) ?_
      rw [toNat_field_beq_one, FFmt.codes.2, FFmt.codes.2]
      simp only [field] at *
      omega
    case h_2 hk =>
      obtain ⟨-, hz, v, hv, h⟩ := h
      cases h
      refine hw.encR (by simp) (by simp) (by simp) ?_
      rw [toNat_field_beq_one, FFmt.codes.2]
      simp only [field] at *
      omega
    case h_3 hk =>
      obtain ⟨-, hz, -, hsr, v, hv, h⟩ := h
      cases h
      refine hw.encR (by simp) (by simp) (by simp) ?_
      rw [FFmt.codes.2]
      simp only [field] at *
      omega
  all_goals
    simp only [bind_eq_ok, need_eq_ok, beq_iff_eq, Bool.and_eq_true, RCode.codes] at h
  case h_2 hsel | h_3 hsel =>
    obtain ⟨-, hz, r, hr, h⟩ := h
    cases h
    refine hw.encR (by simp) (by simp) (by simp) ?_
    rw [FFmt.codes.2, IFmt.codes.2]
    simp only [field] at *
    omega
  case h_4 =>
    obtain ⟨-, ⟨hz, hy⟩, r, hr, h⟩ := h
    cases h
    refine hw.encR (by simp) (by simp) (by simp) ?_
    rw [FFmt.codes.2]
    simp only [field, imp_false] at *
    omega

theorem encode_of_decVec (hw : Word w 0x2B) (h : decVec w = .ok i) : encode i = some ⟨32, w⟩ := by
  unfold decVec at h
  dsimp only at h
  split at h
  case h_32 => cases h
  case h_7 hop | h_8 hop | h_18 hop | h_27 hop | h_28 hop | h_29 hop | h_30 hop | h_31 hop =>
    exact encode_of_vvP hw hop h fun _ _ _ _ _ => rfl
  case h_15 hop =>
    simp only [bind_eq_ok, VCond.codes, VReg.codes] at h
    obtain ⟨cc, hcc, a, ha, b, hb, h⟩ := h
    cases h
    refine hw.encBF (by simp) ?_ ha.symm hb.symm (by simp [fF8_eq_of_op hop])
    rw [← hcc]
    simp only [fD, field]
    omega
  case h_17 hop =>
    simp only [bind_eq_ok, plainV_codes, VReg.codes] at h
    obtain ⟨d, hd, a, ha, b, hb, h⟩ := h
    cases h
    exact hw.encBF (by simp) hd.symm ha.symm hb.symm (by simp [fF8_eq_of_op hop])
  case h_19 hop | h_21 hop =>
    simp only [bind_eq_ok, VReg.codes] at h
    obtain ⟨d, hd, a, ha, h⟩ := h
    cases h
    exact hw.encBF (by simp) hd.symm ha.symm (toNat_ofNat_field w 19 5) (by simp [fF8_eq_of_op hop])
  case h_22 hop =>
    simp only [bind_eq_ok, need_eq_ok, beq_iff_eq, RedOp.codes, VReg.codes] at h
    obtain ⟨-, hz, op, hr, d, hd, a, ha, h⟩ := h
    cases h
    refine hw.encBF (by simp) hd.symm ha.symm ?_ (by simp [fF8_eq_of_op hop])
    rw [toNat_field_beq_one]
    simp only [fB, field] at *
    omega
  case h_23 hop =>
    simp only [bind_eq_ok, plainV_codes] at h
    obtain ⟨d, hd, h⟩ := h
    cases h
    exact hw.encBF (by simp) hd.symm (by simp) (toNat_ofNat_field w 19 5) (by simp [fF8_eq_of_op hop])
  case h_24 hop =>
    simp only [bind_eq_ok, VReg.codes] at h
    obtain ⟨a, ha, h⟩ := h
    cases h
    exact hw.encBF (by simp) (by simp) ha.symm (toNat_ofNat_field w 19 5) (by simp [fF8_eq_of_op hop])
  case h_25 hop =>
    simp only [bind_eq_ok, need_eq_ok, beq_iff_eq, VReg.codes] at h
    obtain ⟨-, hz, d, hd, h⟩ := h
    cases h
    refine hw.encBF (by simp) hd.symm (by simp) ?_ (by simp [fF8_eq_of_op hop])
    rw [toNat_field_beq_one]
    simp only [fB, field] at *
    omega
  all_goals exact encode_of_vvv hw ‹field w 27 5 = _› h fun _ _ _ _ _ => rfl

theorem encode_of_decVlop3 (hw : Word w 0x2C) (h : decVlop3 w = .ok i) : encode i = some ⟨32, w⟩ := by
  simp only [decVlop3, bind_eq_ok, plainV_codes, VReg.codes] at h
  obtain ⟨d, hd, a, ha, b, hb, h⟩ := h
  cases h
  exact hw.encBF (by simp) hd.symm ha.symm hb.symm (toNat_ofNat_field w 24 8)

theorem encode_of_decVfma (hw : Word w 0x2D) (h : decVfma w = .ok i) : encode i = some ⟨32, w⟩ := by
  simp only [decVfma, bind_eq_ok, VReg.codes] at h
  obtain ⟨d, hd, a, ha, b, hb, c, hc, h⟩ := h
  split at h
  all_goals
    cases h
    refine hw.encBCF (by simp) hd.symm ha.symm hb.symm hc.symm ?_
    simp only [VfmaFmt.codes, FmaFmt.codes, DotFmt.codes]
    simp only [field, imp_false] at *
    omega

/-- What VCVT's formats and part contribute to [28:19] (R161). -/
def VcvtKind.low (k : VcvtKind) (part : Nat) : Nat :=
  match k with
  | .ff dst src => part + 16 * src.code + 64 * dst.code
  | .fi src dst => part + 8 * dst.code + 64 * src.code + 256
  | .intF dst src => part + 8 * src.code + 64 * dst.code + 512

theorem encode_vcvt (p : Pred) (sr : Bool) (k : VcvtKind) (part : BitVec 3) (d a : VReg) :
    encode (.vcvt p sr k part d a) =
      encR 0x2E p.code d.code a.code (k.low part.toNat + 1024 * sr.toNat) := by cases k <;> rfl

theorem vcvtKind_low {k : VcvtKind} {part : Nat} (h : vcvtKind w = .ok (k, part)) :
    part < 8 ∧ k.low part = field w 19 10 := by
  unfold vcvtKind at h
  dsimp only at h
  split at h
  case h_1 =>
    simp only [bind_eq_ok, need_eq_ok, beq_iff_eq, Bool.and_eq_true] at h
    obtain ⟨-, ⟨hz, hy⟩, h⟩ := h
    cases h
    simp only [VcvtKind.low, FFmt.codes]
    simp only [field] at *
    omega
  case h_4 => cases h
  all_goals
    cases h
    simp only [VcvtKind.low, FFmt.codes, IFmt.codes]
    simp only [field] at *
    omega

theorem encode_of_decVcvt (hw : Word w 0x2E) (h : decVcvt w = .ok i) : encode i = some ⟨32, w⟩ := by
  simp only [decVcvt, bind_eq_ok, VReg.codes] at h
  obtain ⟨d, hd, a, ha, h⟩ := h
  split at h
  case h_1 hs =>
    simp only [bind_eq_ok] at h
    obtain ⟨⟨k, part⟩, hk, h⟩ := h
    cases h
    obtain ⟨hpart, hlow⟩ := vcvtKind_low hk
    refine (encode_vcvt ..).trans (hw.encR (by simp) hd.symm ha.symm ?_)
    rw [toNat_field_beq_one, BitVec.toNat_ofNat, Nat.mod_eq_of_lt hpart, hlow]
    simp only [field] at *
    omega
  case h_2 hs =>
    simp only [bind_eq_ok, need_eq_ok, beq_iff_eq, fB, NarrowDst.codes] at h
    obtain ⟨-, hz, x, ⟨hb8, hx⟩, h⟩ := h
    cases h
    refine hw.encR (by simp) hd.symm ha.symm ?_
    rw [← hb8, toNat_field_beq_one, toNat_field_beq_one, toNat_ofNat_field]
    simp only [field] at *
    omega
  case h_3 hs =>
    simp only [bind_eq_ok, fB, WidenDst.codes, WidenSrc.codes] at h
    obtain ⟨x, hx, y, ⟨hb8, hy⟩, h⟩ := h
    cases h
    refine hw.encR (by simp) hd.symm ha.symm ?_
    rw [← hb8, toNat_field_beq_one, toNat_ofNat_field]
    simp only [field] at *
    omega
  case h_4 => cases h

theorem encode_of_decQ (hw : Word w 0x2F) (h : decQ w = .ok i) : encode i = some ⟨32, w⟩ := by
  simp only [decQ, bind_eq_ok, need_eq_ok, beq_iff_eq, QWid.codes] at h
  obtain ⟨-, hz, q, hq, h⟩ := h
  split at h
  case h_4 => cases h
  case h_3 =>
    cases h
    refine hw.encR (by simp) (by simp) (by simp) ?_
    rw [toNat_ofNat_field]
    simp only [field] at *
    omega
  all_goals
    simp only [bind_eq_ok, GReg.codes] at h
    obtain ⟨d, hd, h⟩ := h
    cases h
    refine hw.encR (by simp) hd.symm (by simp) ?_
    rw [toNat_ofNat_field]
    simp only [field] at *
    omega

theorem encode_of_decStream (hw : Word w 0x30) (h : decStream w = .ok i) : encode i = some ⟨32, w⟩ := by
  simp only [decStream, bind_eq_ok, need_eq_ok, beq_iff_eq] at h
  obtain ⟨-, hc, -, hb, h⟩ := h
  have hhi {x : Nat} (hx : field w 29 3 = x) : 1024 * x = field w 19 13 := by simp only [fB, field] at *; omega
  split at h
  case h_8 => cases h
  all_goals simp only [bind_eq_ok, need_eq_ok, beq_iff_eq, streamCode_codes, GReg.codes] at h
  case h_1 hx | h_5 hx | h_7 hx =>
    obtain ⟨st, hst, a, ha, h⟩ := h
    cases h
    exact hw.encR (by simp) hst.symm ha.symm (hhi hx)
  case h_2 hx =>
    obtain ⟨st, hst, h⟩ := h
    split at h
    case isTrue ha =>
      cases h
      exact hw.encR (by simp) hst.symm ha.symm (hhi hx)
    case isFalse =>
      simp only [bind_eq_ok, portCode_codes] at h
      obtain ⟨q, hq, h⟩ := h
      cases h
      exact hw.encR (by simp) hst.symm hq.symm (hhi hx)
  case h_3 hx =>
    obtain ⟨d, hd, st, hst, h⟩ := h
    cases h
    exact hw.encR (by simp) hd.symm hst.symm (hhi hx)
  case h_4 hx | h_6 hx =>
    obtain ⟨-, ha, st, hst, h⟩ := h
    cases h
    exact hw.encR (by simp) hst.symm ha.symm (hhi hx)

theorem encode_of_decThread (hw : Word w 0x31) (h : decThread w = .ok i) : encode i = some ⟨32, w⟩ := by
  unfold decThread at h
  dsimp only at h
  have hf {x : Nat} (hx : field w 28 4 = x) : fF8 w = 16 * x + field w 24 4 := by simp only [fF8, field] at *; omega
  split at h
  case h_10 => cases h
  case h_6 hx | h_7 hx | h_8 hx =>
    exact encode_of_ggg hw ((hf hx).trans (congrArg _ (toNat_ofNat_field w 24 4).symm)) h fun _ _ _ _ => rfl
  all_goals simp only [bind_eq_ok, need_eq_ok, beq_iff_eq, Bool.and_eq_true] at h
  case h_1 hx =>
    obtain ⟨-, hz, h⟩ := h
    exact encode_of_ggg hw ((hf hx).trans (congrArg _ hz)) h fun _ _ _ _ => rfl
  case h_2 hx | h_3 hx =>
    obtain ⟨-, hz, h⟩ := h
    cases h
    refine hw.encBF (by simp) ?_ ?_ ?_ ?_
    all_goals
      simp only [fD, fA, fB, fF8, field] at *
      omega
  case h_4 hx | h_9 hx =>
    obtain ⟨-, hz, h⟩ := h
    exact encode_of_gg hw ((hf hx).trans (congrArg _ hz)) h fun _ _ _ => rfl
  case h_5 hx =>
    simp only [GReg.codes] at h
    obtain ⟨-, ⟨hz, hd⟩, a, ha, b, hb, h⟩ := h
    cases h
    exact hw.encBF (by simp) hd.symm ha.symm hb.symm ((hf hx).trans (congrArg _ hz)).symm

/-- The register of MOVK and MOVTK is read from the bits V and D and the code of its field (R266). -/
theorem kReg_eq_ok {lo lv ld : Nat} {r : KReg} :
    kReg (field w lv 1) (field w ld 1) (field w lo 5) = .ok r ↔
      field w lv 1 + 2 * field w ld 1 = r.dv ∧ field w lo 5 = r.code := by
  have hv : field w lv 1 < 2 := field_lt w lv 1
  have hd : field w ld 1 < 2 := field_lt w ld 1
  generalize field w lv 1 = v at *
  generalize field w ld 1 = d at *
  have scalar (r : SReg) : SReg.ofCode (field w lo 5) = r ↔ field w lo 5 = r.code :=
    ⟨fun h => h ▸ (SReg.codes.2 w lo).symm, fun h => h ▸ SReg.codes.1 r⟩
  interval_cases v <;> interval_cases d <;> cases r <;>
    simp [kReg, KReg.dv, KReg.code, bind_eq_ok, scalar]

theorem encode_of_decGang (hw : Word w 0x32) (h : decGang w = .ok i) : encode i = some ⟨32, w⟩ := by
  unfold decGang at h
  dsimp only at h
  split at h
  case h_8 => cases h
  all_goals simp only [bind_eq_ok, need_eq_ok, beq_iff_eq, Bool.and_eq_true, GReg.codes, portCode_codes] at h
  case h_1 hx =>
    obtain ⟨c, hc, h⟩ := h
    simp only [ggg, bind_eq_ok, GReg.codes] at h
    obtain ⟨d, hd, a, ha, b, hb, h⟩ := h
    cases h
    exact hw.encBCF (by simp) hd.symm ha.symm hb.symm hc.symm hx.symm
  case h_2 hx | h_3 hx =>
    obtain ⟨-, hc, h⟩ := h
    simp only [gg, bind_eq_ok, need_eq_ok, beq_iff_eq, GReg.codes] at h
    obtain ⟨-, hb, d, hd, a, ha, h⟩ := h
    cases h
    exact hw.encBCF (by simp) hd.symm ha.symm hb.symm hc.symm hx.symm
  case h_4 hx =>
    obtain ⟨-, ⟨⟨hc, hb⟩, hd⟩, a, ha, h⟩ := h
    cases h
    exact hw.encBCF (by simp) hd.symm ha.symm hb.symm hc.symm hx.symm
  case h_5 hx =>
    simp only [fD, kReg_eq_ok] at h
    obtain ⟨-, ha, d, ⟨hdv, hd⟩, h⟩ := h
    cases h
    refine hw.encR (by simp) hd.symm ha.symm ?_
    rw [toNat_ofNat_field]
    simp only [field] at *
    omega
  case h_6 hx =>
    simp only [fA, kReg_eq_ok] at h
    obtain ⟨-, hd, a, ⟨hdv, ha⟩, h⟩ := h
    cases h
    refine hw.encR (by simp) hd.symm ha.symm ?_
    rw [toNat_ofNat_field]
    simp only [field] at *
    omega
  case h_7 hx =>
    obtain ⟨-, ⟨hc, hb⟩, d, hd, q, hq, h⟩ := h
    cases h
    exact hw.encBCF (by simp) hd.symm hq.symm hb.symm hc.symm hx.symm

theorem encode_of_decTile (hw : Word w 0x33) (h : decTile w = .ok i) : encode i = some ⟨32, w⟩ := by
  unfold decTile at h
  dsimp only at h
  split at h
  case h_6 => cases h
  case h_1 hx =>
    split at h
    case h_11 => cases h
    all_goals
      simp only [ggg, bind_eq_ok, GReg.codes] at h
      obtain ⟨d, hd, a, ha, b, hb, h⟩ := h
      cases h
      exact hw.encBCF (by simp) hd.symm ha.symm hb.symm (Eq.symm ‹fC w = _›) hx.symm
  all_goals simp only [bind_eq_ok, need_eq_ok, beq_iff_eq, Bool.and_eq_true, GReg.codes] at h
  case h_2 hx =>
    obtain ⟨-, ⟨hc, hd⟩, a, ha, b, hb, h⟩ := h
    cases h
    exact hw.encBCF (by simp) hd.symm ha.symm hb.symm hc.symm hx.symm
  case h_3 hx =>
    obtain ⟨-, hz, h⟩ := h
    cases h
    refine hw.encBCF (by simp) ?_ ?_ ?_ ?_ hx.symm
    all_goals
      simp only [fD, fA, fB, fC, field] at *
      omega
  case h_4 hx =>
    obtain ⟨-, ⟨⟨hc, hb⟩, hd⟩, a, ha, h⟩ := h
    cases h
    exact hw.encBCF (by simp) hd.symm ha.symm hb.symm hc.symm hx.symm
  case h_5 hx =>
    obtain ⟨-, hc, h⟩ := h
    simp only [gg, bind_eq_ok, need_eq_ok, beq_iff_eq, GReg.codes] at h
    obtain ⟨-, hb, d, hd, a, ha, h⟩ := h
    cases h
    exact hw.encBCF (by simp) hd.symm ha.symm hb.symm hc.symm hx.symm

theorem encode_of_decEngine (hw : Word w 0x34) (h : decEngine w = .ok i) : encode i = some ⟨32, w⟩ := by
  simp only [decEngine, bind_eq_ok, need_eq_ok, beq_iff_eq] at h
  obtain ⟨-, hc, h⟩ := h
  have hch : field w 29 1 % 2 = field w 29 1 := Nat.mod_eq_of_lt (field_lt w 29 1)
  have hf : fF8 w = 32 * (field w 29 1 % 2) + 64 * field w 30 2 := by simp only [fC, fF8, field] at *; omega
  split at h
  case h_1 hx =>
    simp only [bind_eq_ok, need_eq_ok, beq_iff_eq, Bool.and_eq_true, GReg.codes] at h
    obtain ⟨-, ⟨hb, ha⟩, d, hd, h⟩ := h
    cases h
    refine hw.encR (by simp) hd.symm ha.symm ?_
    simp only [fB, fC, field] at *
    omega
  case h_2 hx => exact encode_of_ggg hw (by rw [hf, hx]) h fun _ _ _ _ => rfl
  case h_3 hx =>
    simp only [bind_eq_ok, need_eq_ok, beq_iff_eq] at h
    obtain ⟨-, hz, h⟩ := h
    exact encode_of_gg hw (by rw [hf, hz, hx]) h fun _ _ _ => rfl
  case h_4 =>
    have hx : field w 30 2 = 3 := by simp only [field, imp_false] at *; omega
    simp only [bind_eq_ok, need_eq_ok, beq_iff_eq] at h
    obtain ⟨-, hz, h⟩ := h
    exact encode_of_ggg hw (by rw [hf, hz, hx]) h fun _ _ _ _ => rfl

theorem encode_of_decCsr (hw : Word w 0x35) (h : decCsr w = .ok i) : encode i = some ⟨32, w⟩ := by
  simp only [decCsr, bind_eq_ok, need_eq_ok, beq_iff_eq] at h
  obtain ⟨-, hz, h⟩ := h
  have hcsr : (BitVec.ofNat 12 (field w 19 12)).toNat = field w 19 13 := by
    rw [toNat_ofNat_field]; simp only [field] at *; omega
  split at h
  all_goals
    simp only [bind_eq_ok, need_eq_ok, beq_iff_eq] at h
    obtain ⟨-, hzero, h⟩ := h
    cases h
  case h_1 hp => exact hw.encR hp.symm (by simp) hzero.symm hcsr
  case h_2 hp | h_3 hp => exact hw.encR hp.symm hzero.symm (by simp) hcsr
  case h_4 =>
    refine hw.encR ?_ hzero.symm (by simp) hcsr
    simp only [fP, field, imp_false] at *
    omega

theorem encode_of_decTrap (hw : Word w 0x36) (h : decTrap w = .ok i) : encode i = some ⟨32, w⟩ := by
  unfold decTrap at h
  dsimp only at h
  split at h
  all_goals
    simp only [bind_eq_ok, need_eq_ok, beq_iff_eq, Bool.and_eq_true] at h
  case h_1 hx =>
    obtain ⟨-, ⟨⟨hz, hb⟩, hd⟩, h⟩ := h
    cases h
    refine hw.encBF (by simp) hd.symm (by simp) hb.symm ?_
    have hc : (BitVec.ofNat 5 (fC w)).toNat = fC w := toNat_ofNat_field w 24 5
    rw [hc]
    simp only [fC, fF8, field] at *
    omega
  all_goals
    obtain ⟨-, hz, h⟩ := h
    cases h
    refine hw.encBF (by simp) ?_ ?_ ?_ ?_
    all_goals
      simp only [fD, fA, fB, fF8, field, imp_false] at *
      omega

/-- A word that the decoder accepts is the word that its instruction encodes to. -/
theorem encode_of_decMajor (hodd : w % 2 = 1) (hlt : w < 2 ^ 32) (h : decMajor w = .ok i) : encode i = some ⟨32, w⟩ := by
  have hw {m : Nat} (hm : field w 1 6 = m) : Word w m := ⟨hodd, hlt, hm⟩
  unfold decMajor at h
  split at h
  case h_2 hm | h_3 hm | h_4 hm | h_5 hm | h_7 hm | h_8 hm => exact encode_of_imm (hw hm) h fun _ _ _ _ => rfl
  case h_9 hm | h_10 hm | h_23 hm => exact encode_of_decU (hw hm) h fun _ _ => rfl
  case h_16 hm | h_17 hm | h_18 hm | h_19 hm | h_20 hm | h_21 hm => exact encode_of_decB (hw hm) h fun _ _ _ => rfl
  case h_11 hm =>
    simp only [bind_eq_ok, GReg.codes] at h
    obtain ⟨d, hd, h⟩ := h
    cases h
    exact (hw hm).encBF (by simp) hd.symm (by simp) (by simp) (toNat_ofNat_field w 24 8)
  case h_22 hm =>
    cases h
    rw [encode, toNat_ofNat_field]
    simp only [field, Option.some.injEq, Encoded.mk.injEq, true_and] at hm ⊢
    omega
  case h_24 hm =>
    simp only [bind_eq_ok, GReg.codes] at h
    obtain ⟨a, ha, h⟩ := h
    cases h
    exact (hw hm).encR (by simp) (by simp) ha.symm (toNat_ofNat_field w 19 13)
  case h_1 hm => exact encode_of_decInt (hw hm) h
  case h_6 hm => exact encode_of_decShift (hw hm) h
  case h_12 hm => exact encode_of_decFunnel (hw hm) h
  case h_13 hm => exact encode_of_decMul (hw hm) h
  case h_14 hm => exact encode_of_decBit (hw hm) h
  case h_15 hm => exact encode_of_decMask (hw hm) h
  case h_25 hm => exact encode_of_decBeos (hw hm) h
  case h_26 hm => exact encode_of_decIter (hw hm) h
  case h_27 hm => exact encode_of_decLd (hw hm) h
  case h_28 hm => exact encode_of_decSt (hw hm) h
  case h_29 hm => exact encode_of_decLda (hw hm) h
  case h_30 hm => exact encode_of_decPres (hw hm) h
  case h_31 hm => exact encode_of_decVmem (hw hm) h
  case h_32 hm => exact encode_of_decStash (hw hm) h
  case h_33 hm => exact encode_of_decAmo (hw hm) h
  case h_34 hm => exact encode_of_decFamo (hw hm) h
  case h_35 hm => exact encode_of_decFence (hw hm) h
  case h_36 hm => exact encode_of_decWait (hw hm) h
  case h_37 hm => exact encode_of_decBar (hw hm) h
  case h_38 hm => exact encode_of_decTime (hw hm) h
  case h_39 hm => exact encode_of_decFp (hw hm) h
  case h_40 hm => exact encode_of_decFma (hw hm) h
  case h_41 hm => exact encode_of_decFcvt (hw hm) h
  case h_42 hm => exact encode_of_decVec (hw hm) h
  case h_43 hm => exact encode_of_decVlop3 (hw hm) h
  case h_44 hm => exact encode_of_decVfma (hw hm) h
  case h_45 hm => exact encode_of_decVcvt (hw hm) h
  case h_46 hm => exact encode_of_decQ (hw hm) h
  case h_47 hm => exact encode_of_decStream (hw hm) h
  case h_48 hm => exact encode_of_decThread (hw hm) h
  case h_49 hm => exact encode_of_decGang (hw hm) h
  case h_50 hm => exact encode_of_decTile (hw hm) h
  case h_51 hm => exact encode_of_decEngine (hw hm) h
  case h_52 hm => exact encode_of_decCsr (hw hm) h
  case h_53 hm => exact encode_of_decTrap (hw hm) h
  case h_54 | h_55 => cases h

/-! ## The 16-bit forms -/

theorem encode_of_cvv {op : Nat} {k : LFmt → VReg → VReg → Instr} (heven : w % 2 = 0) (hlt : w < 2 ^ 16)
    (hop : field w 1 4 = op) (h : cvv w k = .ok i) (hk : ∀ f d b, encode (k f d b) = enc16 op f d b) :
    encode i = some ⟨16, w⟩ := by
  simp only [cvv, bind_eq_ok, VReg.codes] at h
  obtain ⟨d, hd, b, hb, h⟩ := h
  cases h
  rw [hk, enc16, ← hd, ← hb, ← hop, LFmt.codes.2]
  simp only [field, Option.some.injEq, Encoded.mk.injEq, true_and]
  omega

theorem encode_of_dec16 (heven : w % 2 = 0) (hlt : w < 2 ^ 16) (h : dec16 w = .ok i) : encode i = some ⟨16, w⟩ := by
  unfold dec16 at h
  split at h
  case h_16 =>
    refine encode_of_cvv heven hlt ?_ h fun _ _ _ => rfl
    simp only [field, imp_false] at *
    omega
  all_goals exact encode_of_cvv heven hlt ‹field w 1 4 = _› h fun _ _ _ => rfl
end

end Sys2Proof
end

section
/-!
An instruction is read back from the bits that encode it, by its format: scalar operations, memory, atomics, scalar
floating point and vectors.
-/
set_option Elab.async false
namespace Sys2Proof

theorem Pred.code_lt (x : Pred) : x.code < 4 := by cases x <;> decide
theorem Ord.code_lt (x : Ord) : x.code < 4 := by cases x <;> decide
theorem Port.code_lt (x : Port) : x.code < 4 := by cases x <;> decide
theorem SReg.code_lt (x : SReg) : x.code < 32 := by
  rcases x with i | i | i
  · exact i.isLt.trans (by decide)
  · simp only [SReg.code]; omega
  · have := i.code_lt; simp only [SReg.code]; omega
theorem VReg.code_lt (x : VReg) : x.code < 16 := by
  rcases x with i | i | i
  · exact i.isLt.trans (by decide)
  · simp only [VReg.code]; omega
  · have := i.code_lt; simp only [VReg.code]; omega
theorem VReg.code_lt32 (x : VReg) : x.code < 32 := x.code_lt.trans (by decide)
theorem Scope.code_lt (x : Scope) : x.code < 8 := by cases x <;> decide
theorem LSize.code_lt (x : LSize) : x.code < 8 := by cases x <;> decide
theorem SSize.code_lt (x : SSize) : x.code < 8 := by cases x <;> decide
theorem LMode.code_lt (x : LMode) : x.code < 2 := by cases x <;> decide
theorem ASize.code_lt (x : ASize) : x.code < 2 := by cases x <;> decide
theorem AFmt.code_lt (x : AFmt) : x.code < 2 := by cases x <;> decide
theorem AmoOp.code_lt (x : AmoOp) : x.code < 8 := by cases x <;> decide
theorem RedOp.code_lt (x : RedOp) : x.code < 4 := by cases x <;> decide
theorem FFmt.code_lt (x : FFmt) : x.code < 4 := by cases x <;> decide
theorem FmaFmt.code_lt (x : FmaFmt) : x.code < 2 := by cases x <;> decide
theorem LFmt.code_lt (x : LFmt) : x.code < 8 := by cases x <;> decide
theorem IFmt.code_lt (x : IFmt) : x.code < 8 := by cases x <;> decide
theorem VCond.code_lt (x : VCond) : x.code < 8 := by cases x <;> decide
theorem EWidth.code_lt (x : EWidth) : x.code < 4 := by cases x <;> decide
theorem VfmaFmt.code_lt (x : VfmaFmt) : x.code < 4 := by cases x <;> decide
theorem DotFmt.code_lt (x : DotFmt) : x.code < 2 := by cases x <;> decide
theorem BarLevel.code_lt (x : BarLevel) : x.code < 2 := by cases x <;> decide
theorem QWid.code_lt (x : QWid) : x.code < 4 := by cases x <;> decide
theorem WidenDst.code_lt (x : WidenDst) : x.code < 4 := by cases x <;> decide
theorem RCode.code_lt (x : RCode) : x.code < 8 := by rcases x with ⟨⟨⟩⟩ | _ <;> decide
theorem B8.code_lt (v : B8) : v.code < 32 := by
  have := v.pm1.isLt
  have := v.uns.toNat_lt
  have := v.fin.toNat_lt
  simp only [B8.code]; omega
theorem NarrowDst.code_lt (x : NarrowDst) : x.code < 32 := by
  cases x
  case b8 v => exact v.code_lt
  all_goals decide
theorem WidenSrc.code_lt (x : WidenSrc) : x.code < 32 := by
  cases x
  case b8 v => exact v.code_lt
  all_goals decide

@[simp] theorem ok_bind {α β : Type} (a : α) (f : α → Dec β) : (Except.ok a >>= f) = f a := rfl
@[simp] theorem need_true (r : DecodeError) : need true r = .ok () := rfl

section
variable {w : Nat}

/-! ## The decoder, major by major -/

theorem decMajor_int (h : field w 1 6 = 0x00) : decMajor w = decInt w := by rw [decMajor, h]; rfl
theorem decMajor_shift (h : field w 1 6 = 0x05) : decMajor w = decShift w := by rw [decMajor, h]; rfl
theorem decMajor_funnel (h : field w 1 6 = 0x0B) : decMajor w = decFunnel w := by rw [decMajor, h]; rfl
theorem decMajor_mul (h : field w 1 6 = 0x0C) : decMajor w = decMul w := by rw [decMajor, h]; rfl
theorem decMajor_bit (h : field w 1 6 = 0x0D) : decMajor w = decBit w := by rw [decMajor, h]; rfl
theorem decMajor_mask (h : field w 1 6 = 0x0E) : decMajor w = decMask w := by rw [decMajor, h]; rfl
theorem decMajor_beos (h : field w 1 6 = 0x19) : decMajor w = decBeos w := by rw [decMajor, h]; rfl
theorem decMajor_iter (h : field w 1 6 = 0x1A) : decMajor w = decIter w := by rw [decMajor, h]; rfl
theorem decMajor_ld (h : field w 1 6 = 0x1C) : decMajor w = decLd w := by rw [decMajor, h]; rfl
theorem decMajor_st (h : field w 1 6 = 0x1D) : decMajor w = decSt w := by rw [decMajor, h]; rfl
theorem decMajor_lda (h : field w 1 6 = 0x1E) : decMajor w = decLda w := by rw [decMajor, h]; rfl
theorem decMajor_pres (h : field w 1 6 = 0x1F) : decMajor w = decPres w := by rw [decMajor, h]; rfl
theorem decMajor_vmem (h : field w 1 6 = 0x20) : decMajor w = decVmem w := by rw [decMajor, h]; rfl
theorem decMajor_stash (h : field w 1 6 = 0x21) : decMajor w = decStash w := by rw [decMajor, h]; rfl
theorem decMajor_amo (h : field w 1 6 = 0x22) : decMajor w = decAmo w := by rw [decMajor, h]; rfl
theorem decMajor_famo (h : field w 1 6 = 0x23) : decMajor w = decFamo w := by rw [decMajor, h]; rfl
theorem decMajor_fence (h : field w 1 6 = 0x24) : decMajor w = decFence w := by rw [decMajor, h]; rfl
theorem decMajor_wait (h : field w 1 6 = 0x25) : decMajor w = decWait w := by rw [decMajor, h]; rfl
theorem decMajor_bar (h : field w 1 6 = 0x26) : decMajor w = decBar w := by rw [decMajor, h]; rfl
theorem decMajor_time (h : field w 1 6 = 0x27) : decMajor w = decTime w := by rw [decMajor, h]; rfl
theorem decMajor_fp (h : field w 1 6 = 0x28) : decMajor w = decFp w := by rw [decMajor, h]; rfl
theorem decMajor_fma (h : field w 1 6 = 0x29) : decMajor w = decFma w := by rw [decMajor, h]; rfl
theorem decMajor_fcvt (h : field w 1 6 = 0x2A) : decMajor w = decFcvt w := by rw [decMajor, h]; rfl
theorem decMajor_vec (h : field w 1 6 = 0x2B) : decMajor w = decVec w := by rw [decMajor, h]; rfl
theorem decMajor_vlop3 (h : field w 1 6 = 0x2C) : decMajor w = decVlop3 w := by rw [decMajor, h]; rfl
theorem decMajor_vfma (h : field w 1 6 = 0x2D) : decMajor w = decVfma w := by rw [decMajor, h]; rfl
theorem decMajor_vcvt (h : field w 1 6 = 0x2E) : decMajor w = decVcvt w := by rw [decMajor, h]; rfl
theorem decMajor_q (h : field w 1 6 = 0x2F) : decMajor w = decQ w := by rw [decMajor, h]; rfl
theorem decMajor_stream (h : field w 1 6 = 0x30) : decMajor w = decStream w := by rw [decMajor, h]; rfl
theorem decMajor_thread (h : field w 1 6 = 0x31) : decMajor w = decThread w := by rw [decMajor, h]; rfl
theorem decMajor_gang (h : field w 1 6 = 0x32) : decMajor w = decGang w := by rw [decMajor, h]; rfl
theorem decMajor_tile (h : field w 1 6 = 0x33) : decMajor w = decTile w := by rw [decMajor, h]; rfl
theorem decMajor_engine (h : field w 1 6 = 0x34) : decMajor w = decEngine w := by rw [decMajor, h]; rfl
theorem decMajor_csr (h : field w 1 6 = 0x35) : decMajor w = decCsr w := by rw [decMajor, h]; rfl
theorem decMajor_trap (h : field w 1 6 = 0x36) : decMajor w = decTrap w := by rw [decMajor, h]; rfl
end

/-- The decoder reads an instruction from the bits that encode it. -/
def ReadBack (i : Instr) (e : Encoded) : Prop :=
  (e.nbits = 32 ∧ e.bits % 2 = 1 ∧ e.bits < 2 ^ 32 ∧ decMajor e.bits = .ok i) ∨
  (e.nbits = 16 ∧ e.bits % 2 = 0 ∧ e.bits < 2 ^ 16 ∧ dec16 e.bits = .ok i)

section
variable {i : Instr} {e : Encoded} {m p d a b c f : Nat}

theorem readBack_encR {hi : Nat} (h : encR m p d a hi = some e) (hp : p < 4) (hd : d < 32) (ha : a < 32) (hh : hi < 2 ^ 13)
    (read : ∀ w, Word w m → fP w = p → fD w = d → fA w = a → field w 19 13 = hi → decMajor w = .ok i)
    (hm : m < 64 := by decide) : ReadBack i e := by
  cases h
  have hw : Word (1 + 2 * m + 2 ^ 7 * p + 2 ^ 9 * d + 2 ^ 14 * a + 2 ^ 19 * hi) m :=
    ⟨by omega, by omega, by simp only [field]; omega⟩
  refine .inl ⟨rfl, hw.odd, hw.lt, read _ hw ?_ ?_ ?_ ?_⟩
  all_goals
    simp only [fP, fD, fA, field]
    omega

theorem readBack_BF (h : encR m p d a (hiBF b f) = some e) (hp : p < 4) (hd : d < 32) (ha : a < 32) (hb : b < 32)
    (hf : f < 256) (read : ∀ w, Word w m → fP w = p → fD w = d → fA w = a → fB w = b → fF8 w = f → decMajor w = .ok i)
    (hm : m < 64 := by decide) : ReadBack i e := by
  refine readBack_encR h hp hd ha (by simp only [hiBF]; omega) (fun w hw hp hd ha hh => read w hw hp hd ha ?_ ?_) hm
  all_goals
    simp only [hiBF, fB, fF8, field] at hh ⊢
    omega

theorem readBack_BCF (h : encR m p d a (hiBCF b c f) = some e) (hp : p < 4) (hd : d < 32) (ha : a < 32) (hb : b < 32)
    (hc : c < 32) (hf : f < 8)
    (read : ∀ w, Word w m → fP w = p → fD w = d → fA w = a → fB w = b → fC w = c → field w 29 3 = f → decMajor w = .ok i)
    (hm : m < 64 := by decide) : ReadBack i e := by
  refine readBack_encR h hp hd ha (by simp only [hiBCF]; omega) (fun w hw hp hd ha hh => read w hw hp hd ha ?_ ?_ ?_) hm
  all_goals
    simp only [hiBCF, fB, fC, field] at hh ⊢
    omega

theorem readBack_L {s x o : Nat} (h : encR m p d a (hiL s x o) = some e) (hp : p < 4) (hd : d < 32) (ha : a < 32)
    (hs : s < 8) (hx : x < 4) (ho : o < 256)
    (read : ∀ w, Word w m → fP w = p → fD w = d → fA w = a → field w 19 3 = s → field w 22 2 = x → field w 24 8 = o →
      decMajor w = .ok i)
    (hm : m < 64 := by decide) : ReadBack i e := by
  refine readBack_encR h hp hd ha (by simp only [hiL]; omega) (fun w hw hp hd ha hh => read w hw hp hd ha ?_ ?_ ?_) hm
  all_goals
    simp only [hiL, field] at hh ⊢
    omega

theorem readBack_encU {x : Nat} (h : encU m d x = some e) (hd : d < 32) (hx : x < 2 ^ 18)
    (read : ∀ w, Word w m → fP w = 0 → fD w = d → field w 14 18 = x → decMajor w = .ok i)
    (hm : m < 64 := by decide) : ReadBack i e := by
  have h' : Sys2Proof.encR m 0 d (x % 32) (x / 32) = some e := by
    rw [← h, encR, encU]; congr 2; omega
  refine readBack_encR h' (by decide) hd (by omega) (by omega) (fun w hw hp hd ha hh => read w hw hp hd ?_) hm
  simp only [fA, field] at ha hh ⊢
  omega

theorem readBack_encB {o : BitVec 15} (h : encB m d a o.toNat = some e) (hd : d < 32) (ha : a < 32)
    (read : ∀ w, Word w m → fD w = d → fA w = a → fBoff w = o → decMajor w = .ok i)
    (hm : m < 64 := by decide) : ReadBack i e := by
  refine readBack_encR h (by omega) hd ha (by omega) (fun w hw hp hd ha hh => read w hw hd ha ?_) hm
  apply BitVec.eq_of_toNat_eq
  rw [fBoff_toNat, hp, hh]
  omega

theorem readBack_enc16 {op : Nat} {f : LFmt} {d b : VReg} (h : enc16 op f d b = some e) (hop : op < 16)
    (read : ∀ w, field w 1 4 = op → field w 5 4 = d.code → field w 9 4 = b.code → field w 13 3 = f.code →
      dec16 w = .ok i) : ReadBack i e := by
  cases h
  have := d.code_lt
  have := b.code_lt
  have := f.code_lt
  refine .inr ⟨rfl, ?_, ?_, read _ ?_ ?_ ?_ ?_⟩
  all_goals
    simp only [field]
    omega

/-! ## Scalar operations -/

theorem readBack_sss {k : Pred → SReg → SReg → SReg → Instr} {p : Pred} {d a b : SReg}
    (h : enc3 m f p d.code a.code b.code = some e) (hf : f < 256)
    (read : ∀ w, field w 1 6 = m → fF8 w = f → decMajor w = sss w k) (hm : m < 64 := by decide) :
    ReadBack (k p d a b) e :=
  readBack_BF h p.code_lt d.code_lt a.code_lt b.code_lt hf (fun w hw hp hd ha hb hf => by
    simp [read w hw.major hf, sss, hp, hd, ha, hb]) hm

theorem readBack_ss {k : Pred → SReg → SReg → Instr} {p : Pred} {d a : SReg} (h : enc3 0x0D f p d.code a.code 0 = some e)
    (hf : f < 256) (read : ∀ w, fF8 w = f → decBit w = ss w k) : ReadBack (k p d a) e :=
  readBack_BF h p.code_lt d.code_lt a.code_lt (by decide) hf fun w hw hp hd ha hb hf => by
    simp [decMajor_bit hw.major, read w hf, ss, hp, hd, ha, hb]

theorem readBack_imm {k : Pred → SReg → SReg → BitVec 13 → Instr} {p : Pred} {d a : SReg} {x : BitVec 13}
    (h : encR m p.code d.code a.code x.toNat = some e) (read : ∀ w, field w 1 6 = m → decMajor w = imm w k)
    (hm : m < 64 := by decide) : ReadBack (k p d a x) e :=
  readBack_encR h p.code_lt d.code_lt a.code_lt x.isLt (fun w hw hp hd ha hh => by
    simp [read w hw.major, imm, hp, hd, ha, fI13, hh]) hm

theorem readBack_decU {k : SReg → BitVec 18 → Instr} {d : SReg} {x : BitVec 18} (h : encU m d.code x.toNat = some e)
    (read : ∀ w, field w 1 6 = m → decMajor w = decU w k) (hm : m < 64 := by decide) : ReadBack (k d x) e :=
  readBack_encU h d.code_lt x.isLt (fun w hw hp hd hx => by simp [read w hw.major, decU, hp, hd, hx]) hm

theorem readBack_shift {k : Pred → SReg → SReg → BitVec 6 → Instr} {sel : Nat} {p : Pred} {d a : SReg} {x : BitVec 6}
    (h : encR 0x05 p.code d.code a.code (x.toNat + 64 * sel) = some e) (hsel : sel < 4)
    (read : ∀ w, field w 27 5 = 0 → field w 25 2 = sel →
      decShift w = .ok (k (.ofCode (fP w)) (.ofCode (fD w)) (.ofCode (fA w)) (BitVec.ofNat 6 (field w 19 6)))) :
    ReadBack (k p d a x) e := by
  refine readBack_encR h p.code_lt d.code_lt a.code_lt (by omega) fun w hw hp hd ha hh => ?_
  obtain ⟨hz, hs, hx⟩ : field w 27 5 = 0 ∧ field w 25 2 = sel ∧ field w 19 6 = x.toNat := by
    simp only [field] at *; omega
  simp [decMajor_shift hw.major, read w hz hs, hp, hd, ha, hx]

theorem readBack_fshl {p : Pred} {d a b : SReg} {x : BitVec 6} (h : encode (.fshl p d a b x) = some e) :
    ReadBack (.fshl p d a b x) e := by
  refine readBack_BF h p.code_lt d.code_lt a.code_lt b.code_lt (by omega) fun w hw hp hd ha hb hf => ?_
  obtain ⟨hz, hsel, hx⟩ : field w 31 1 = 0 ∧ field w 30 1 = 0 ∧ field w 24 6 = x.toNat := by
    simp only [fF8, field] at *; omega
  simp [decMajor_funnel hw.major, decFunnel, hp, hd, ha, hb, hz, hsel, hx]

theorem readBack_fshr {p : Pred} {d a b : SReg} {x : BitVec 6} (h : encode (.fshr p d a b x) = some e) :
    ReadBack (.fshr p d a b x) e := by
  refine readBack_BF h p.code_lt d.code_lt a.code_lt b.code_lt (by omega) fun w hw hp hd ha hb hf => ?_
  obtain ⟨hz, hsel, hx⟩ : field w 31 1 = 0 ∧ field w 30 1 = 1 ∧ field w 24 6 = x.toNat := by
    simp only [fF8, field] at *; omega
  simp [decMajor_funnel hw.major, decFunnel, hp, hd, ha, hb, hz, hsel, hx]

/-- The operations on masks (R111): three fields, of which the decoder checks those that name masks. -/
theorem readBack_mask {p : Pred} (h : enc3 0x0E f p d a b = some e) (hd : d < 32) (ha : a < 32) (hb : b < 32) (hf : f < 256)
    (read : ∀ w, fF8 w = f → fP w = p.code → fD w = d → fA w = a → fB w = b → decMask w = .ok i) : ReadBack i e :=
  readBack_BF h p.code_lt hd ha hb hf fun w hw hp hd ha hb hf => by
    rw [decMajor_mask hw.major, read w hf hp hd ha hb]

theorem readBack_decB {k : SReg → SReg → BitVec 15 → Instr} {a b : SReg} {o : BitVec 15}
    (h : encB m a.code b.code o.toNat = some e) (read : ∀ w, field w 1 6 = m → decMajor w = decB w k)
    (hm : m < 64 := by decide) : ReadBack (k a b o) e :=
  readBack_encB h a.code_lt b.code_lt (fun w hw hd ha ho => by simp [read w hw.major, decB, hd, ha, ho]) hm

theorem readBack_j {x : BitVec 25} (h : encode (.j x) = some e) : ReadBack (.j x) e := by
  cases h
  have hw : Word (1 + 2 * 0x16 + 2 ^ 7 * x.toNat) 0x16 := ⟨by omega, by omega, by simp only [field]; omega⟩
  have hx : field (1 + 2 * 0x16 + 2 ^ 7 * x.toNat) 7 25 = x.toNat := by simp only [field]; omega
  refine .inl ⟨rfl, hw.odd, hw.lt, ?_⟩
  simp only [decMajor, hw.major, hx, BitVec.ofNat_toNat, BitVec.setWidth_eq]

theorem readBack_iter {p : Pred} {d a : GReg} {x : BitVec 12} (h : encode (.iter p d a x) = some e) :
    ReadBack (.iter p d a x) e := by
  refine readBack_encR h p.code_lt (by omega) (by omega) (by omega) fun w hw hp hd ha hh => ?_
  obtain ⟨hx, hsel⟩ : field w 19 12 = x.toNat ∧ field w 31 1 = 0 := by simp only [field] at *; omega
  simp [decMajor_iter hw.major, decIter, hp, hd, ha, hx, hsel]

theorem readBack_iteri {p : Pred} {d a : GReg} {x : BitVec 12} (h : encode (.iteri p d a x) = some e) :
    ReadBack (.iteri p d a x) e := by
  refine readBack_encR h p.code_lt (by omega) (by omega) (by omega) fun w hw hp hd ha hh => ?_
  obtain ⟨hx, hsel⟩ : field w 19 12 = x.toNat ∧ field w 31 1 = 1 := by simp only [field] at *; omega
  simp [decMajor_iter hw.major, decIter, hp, hd, ha, hx, hsel]

/-! ## Memory -/

theorem readBack_presS {k : Pred → SReg → GReg → LMode → BitVec 8 → Instr} {kx : Pred → SReg → GReg → GReg → Instr}
    {s : Nat} {p : Pred} {d : SReg} {a : GReg} {x : LMode} {o : BitVec 8}
    (h : encR m p.code d.code a (hiL s x.code o.toNat) = some e) (hs : s < 8)
    (read : ∀ w, field w 1 6 = m → field w 19 3 = s → decMajor w = presS w k kx) (hm : m < 64 := by decide) :
    ReadBack (k p d a x o) e :=
  readBack_L h p.code_lt d.code_lt (by omega) hs (by have := x.code_lt; omega) o.isLt (fun w hw hp hd ha hs hx ho => by
    simp [read w hw.major hs, presS, hp, hd, ha, hx, fOff8, ho, x.code_lt.ne]) hm

theorem readBack_presS_indexed {k : Pred → SReg → GReg → LMode → BitVec 8 → Instr}
    {kx : Pred → SReg → GReg → GReg → Instr} {s : Nat} {p : Pred} {d : SReg} {a b : GReg}
    (h : encR m p.code d.code a (hiL s 2 b) = some e) (hs : s < 8)
    (read : ∀ w, field w 1 6 = m → field w 19 3 = s → decMajor w = presS w k kx) (hm : m < 64 := by decide) :
    ReadBack (kx p d a b) e :=
  readBack_L h p.code_lt d.code_lt (by omega) hs (by decide) (by omega) (fun w hw hp hd ha hs hx ho => by
    simp [read w hw.major hs, presS, hp, hd, ha, hx, indexReg_eq_ok.2 ho]) hm

theorem readBack_memV {k : Pred → VReg → GReg → LMode → BitVec 8 → Instr} {kx : Pred → VReg → GReg → GReg → Instr}
    {s : Nat} {p : Pred} {d : VReg} {a : GReg} {x : LMode} {o : BitVec 8}
    (h : encR m p.code d.code a (hiL s x.code o.toNat) = some e) (hs : s < 8)
    (read : ∀ w, field w 1 6 = m → field w 19 3 = s → decMajor w = memV w k kx) (hm : m < 64 := by decide) :
    ReadBack (k p d a x o) e :=
  readBack_L h p.code_lt d.code_lt32 (by omega) hs (by have := x.code_lt; omega) o.isLt (fun w hw hp hd ha hs hx ho => by
    simp [read w hw.major hs, memV, hp, hd, ha, hx, fOff8, ho, x.code_lt.ne]) hm

theorem readBack_memV_indexed {k : Pred → VReg → GReg → LMode → BitVec 8 → Instr}
    {kx : Pred → VReg → GReg → GReg → Instr} {s : Nat} {p : Pred} {d : VReg} {a b : GReg}
    (h : encR m p.code d.code a (hiL s 2 b) = some e) (hs : s < 8)
    (read : ∀ w, field w 1 6 = m → field w 19 3 = s → decMajor w = memV w k kx) (hm : m < 64 := by decide) :
    ReadBack (kx p d a b) e :=
  readBack_L h p.code_lt d.code_lt32 (by omega) hs (by decide) (by omega) (fun w hw hp hd ha hs hx ho => by
    simp [read w hw.major hs, memV, hp, hd, ha, hx, indexReg_eq_ok.2 ho]) hm

/-- The scope and the offset of [31:24] (R120). -/
theorem scope_off5 {w : Nat} {sc : Scope} {o : BitVec 5} (h : field w 24 8 = sc.code + 8 * o.toNat) :
    field w 24 3 = sc.code ∧ field w 27 5 = o.toNat := by
  have := sc.code_lt
  simp only [field] at *; omega

theorem readBack_lda {p : Pred} {d : SReg} {a : GReg} {s : LSize} {sc : Scope} {o : BitVec 5}
    (h : encode (.lda p d a s sc o) = some e) : ReadBack (.lda p d a s sc o) e := by
  have := sc.code_lt
  refine readBack_L h p.code_lt d.code_lt (by omega) s.code_lt (by decide) (by omega) fun w hw hp hd ha hs hx ho => ?_
  obtain ⟨hsc, ho⟩ := scope_off5 ho
  simp [decMajor_lda hw.major, decLda, hp, hd, ha, hs, hx, hsc, ho]

theorem readBack_stl {p : Pred} {d : SReg} {a : GReg} {s : SSize} {sc : Scope} {o : BitVec 5}
    (h : encode (.stl p d a s sc o) = some e) : ReadBack (.stl p d a s sc o) e := by
  have := sc.code_lt
  refine readBack_L h p.code_lt d.code_lt (by omega) s.code_lt (by decide) (by omega) fun w hw hp hd ha hs hx ho => ?_
  obtain ⟨hsc, ho⟩ := scope_off5 ho
  simp [decMajor_lda hw.major, decLda, hp, hd, ha, hs, hx, hsc, ho]

theorem readBack_pref {p : Pred} {n : Fin 3} {a : GReg} {o : BitVec 5} (h : encode (.pref p n a o) = some e) :
    ReadBack (.pref p n a o) e := by
  refine readBack_L h p.code_lt (by omega) (by omega) (by decide) (by decide) (by omega) fun w hw hp hd ha hs hx ho => ?_
  obtain ⟨hz, ho⟩ : field w 24 3 = 0 ∧ field w 27 5 = o.toNat := by simp only [field] at *; omega
  simp [decMajor_lda hw.major, decLda, hp, hd, ha, hs, hx, hz, ho]

theorem readBack_gathScat {k : Pred → VReg → GReg → EWidth → VReg → Instr} {s : Nat} {p : Pred} {d v : VReg} {a : GReg}
    {x : EWidth} (h : encR 0x20 p.code d.code a (hiL s x.code v.code) = some e) (hs : s < 8)
    (read : ∀ w, field w 19 3 = s → decVmem w = gathScat w k) : ReadBack (k p d a x v) e := by
  have hv := v.code_lt
  refine readBack_L h p.code_lt d.code_lt32 (by omega) hs x.code_lt (by omega) fun w hw hp hd ha hs hx ho => ?_
  obtain ⟨hz, hv⟩ : field w 29 3 = 0 ∧ fC w = v.code := by simp only [fC, field] at *; omega
  simp [decMajor_vmem hw.major, read w hs, gathScat, hp, hd, ha, hx, hz, hv]

theorem readBack_vstt {p : Pred} {d : VReg} {a b : GReg} {x : LMode} {y : EWidth}
    (h : encode (.vstt p d a x b y) = some e) : ReadBack (.vstt p d a x b y) e := by
  have := y.code_lt
  refine readBack_L h p.code_lt d.code_lt32 (by omega) (by decide) (by have := x.code_lt; omega) (by omega)
    fun w hw hp hd ha hs hx ho => ?_
  obtain ⟨hz, hb, hy⟩ : field w 31 1 = 0 ∧ fC w = b ∧ field w 29 2 = y.code := by simp only [fC, field] at *; omega
  simp [decMajor_stash hw.major, decStash, hp, hd, ha, hs, hx, hz, hb, hy]

theorem readBack_stn {p : Pred} {d : VReg} {a : GReg} {x : LMode} {o : BitVec 4} {n : Fin 16}
    (h : encode (.stn p d a x o n) = some e) : ReadBack (.stn p d a x o n) e := by
  refine readBack_L h p.code_lt d.code_lt32 (by omega) (by decide) (by have := x.code_lt; omega) (by omega)
    fun w hw hp hd ha hs hx ho => ?_
  obtain ⟨hn, ho⟩ : field w 28 4 = n ∧ field w 24 4 = o.toNat := by simp only [field] at *; omega
  simp [decMajor_stash hw.major, decStash, hp, hd, ha, hs, hx, hn, ho, Nat.mod_eq_of_lt n.isLt]

/-! ## Atomics, fences, counters and barriers -/

/-- [31:24] of an atomic: the scope, the size or format, and what tells the operations apart (R122, R126). -/
theorem atomic_fields {w x : Nat} {sc : Scope} (h : fF8 w = sc.code + 8 * a + 16 * x) (ha : a < 2) :
    field w 24 3 = sc.code ∧ field w 27 1 = a ∧ field w 28 4 = x := by
  have := sc.code_lt
  have : fF8 w < 256 := field_lt w 24 8
  simp only [fF8, field] at *; omega

theorem readBack_amo {o : Ord} {op : AmoOp} {z : ASize} {sc : Scope} {d b : SReg} {a : GReg}
    (h : encode (.amo o op z sc d a b) = some e) : ReadBack (.amo o op z sc d a b) e := by
  have := sc.code_lt
  have := z.code_lt
  have := op.code_lt
  refine readBack_BF h o.code_lt d.code_lt (by omega) b.code_lt (by omega) fun w hw hp hd ha hb hf => ?_
  obtain ⟨hsc, hz, hx⟩ := atomic_fields hf z.code_lt
  obtain ⟨hop, hsel⟩ : field w 28 3 = op.code ∧ field w 31 1 = 0 := by simp only [field] at *; omega
  simp [decMajor_amo hw.major, decAmo, hp, hd, ha, hb, hsc, hz, hop, hsel]

theorem readBack_cas {o : Ord} {z : ASize} {sc : Scope} {d a : GReg} {b : SReg}
    (h : encode (.cas o z sc d a b) = some e) : ReadBack (.cas o z sc d a b) e := by
  have := sc.code_lt
  have := z.code_lt
  refine readBack_BF h o.code_lt (by omega) (by omega) b.code_lt (by omega) fun w hw hp hd ha hb hf => ?_
  obtain ⟨hsc, hz, hx⟩ := atomic_fields (x := 8) hf z.code_lt
  obtain ⟨hop, hsel⟩ : field w 28 3 = 0 ∧ field w 31 1 = 1 := by simp only [field] at *; omega
  simp [decMajor_amo hw.major, decAmo, hp, hd, ha, hb, hsc, hz, hop, hsel]

theorem readBack_casXchg {o : Ord} {z : ASize} {sc : Scope} {d a : GReg} {b : SReg}
    (h : encode (.casXchg o z sc d a b) = some e) : ReadBack (.casXchg o z sc d a b) e := by
  have := sc.code_lt
  have := z.code_lt
  refine readBack_BF h o.code_lt (by omega) (by omega) b.code_lt (by omega) fun w hw hp hd ha hb hf => ?_
  obtain ⟨hsc, hz, hx⟩ := atomic_fields (x := 9) hf z.code_lt
  obtain ⟨hop, hsel⟩ : field w 28 3 = 1 ∧ field w 31 1 = 1 := by simp only [field] at *; omega
  simp [decMajor_amo hw.major, decAmo, hp, hd, ha, hb, hsc, hz, hop, hsel]

/-- The reductions of major 0x23 (R122, R126): the operation in [29:28] and the selector in [31:30]. -/
theorem readBack_reduction {sel : Nat} {op : RedOp} {sc : Scope} {b : SReg}
    (h : encR 0x23 p d a (hiBF b.code (sc.code + 8 * f + 16 * op.code + 64 * sel)) = some e) (hp : p < 4) (hd : d < 32)
    (ha : a < 32) (hf : f < 2) (hsel : sel < 4)
    (read : ∀ w, fP w = p → fD w = d → fA w = a → fB w = b.code → field w 24 3 = sc.code → field w 27 1 = f →
      field w 28 2 = op.code → field w 30 2 = sel → decFamo w = .ok i) : ReadBack i e := by
  have := sc.code_lt
  have hop := op.code_lt
  refine readBack_BF h hp hd ha b.code_lt (by omega) fun w hw hp hd ha hb hf8 => ?_
  obtain ⟨hsc, hz, hx⟩ := atomic_fields (w := w) (sc := sc) (x := op.code + 4 * sel) (by omega) hf
  obtain ⟨hop, hsel⟩ : field w 28 2 = op.code ∧ field w 30 2 = sel := by simp only [field] at *; omega
  rw [decMajor_famo hw.major, read w hp hd ha hb hsc hz hop hsel]

theorem readBack_fence {o : Ord} {sc : Scope} {x y : Bool} (h : encode (.fence o sc x y) = some e) :
    ReadBack (.fence o sc x y) e := by
  have := sc.code_lt
  have hx := x.toNat_lt
  have := y.toNat_lt
  refine readBack_BF h o.code_lt (by decide) (by decide) (by decide) (by omega) fun w hw hp hd ha hb hf => ?_
  have hz : field w 9 15 = 0 := by simp only [fD, fA, fB, field] at *; omega
  obtain ⟨hsc, hx, hy⟩ := atomic_fields hf hx
  obtain ⟨hy, hr, hsel⟩ : field w 28 1 = y.toNat ∧ field w 29 2 = 0 ∧ field w 31 1 = 0 := by
    simp only [field] at *; omega
  simp [decMajor_fence hw.major, decFence, hp, hz, hsc, hx, hy, hr, hsel]

theorem readBack_ifence (h : encode .ifence = some e) : ReadBack .ifence e := by
  cases h
  exact .inl (by decide)

theorem readBack_wait {k : Pred → GReg → GReg → GReg → Instr} {sel : Nat} {p : Pred} {d a b : GReg}
    (h : encR 0x25 p.code d a (hiBF b (64 * sel)) = some e) (hsel : sel < 4)
    (read : ∀ w, field w 24 6 = 0 → field w 30 2 = sel → decWait w = ggg w k) : ReadBack (k p d a b) e := by
  refine readBack_BF h p.code_lt (by omega) (by omega) (by omega) (by omega) fun w hw hp hd ha hb hf => ?_
  obtain ⟨hz, hs⟩ : field w 24 6 = 0 ∧ field w 30 2 = sel := by simp only [fF8, field] at *; omega
  simp [decMajor_wait hw.major, read w hz hs, ggg, hp, hd, ha, hb]

theorem readBack_signal {p : Pred} {a b : GReg} (h : encode (.signal p a b) = some e) : ReadBack (.signal p a b) e := by
  refine readBack_BF h p.code_lt (by decide) (by omega) (by omega) (by decide) fun w hw hp hd ha hb hf => ?_
  obtain ⟨hz, hsel⟩ : field w 24 6 = 0 ∧ field w 30 2 = 2 := by simp only [fF8, field] at *; omega
  simp [decMajor_wait hw.major, decWait, hp, hd, ha, hb, hz, hsel]

theorem readBack_bar {p : Pred} {l : BarLevel} (h : encode (.bar p l) = some e) : ReadBack (.bar p l) e := by
  have := l.code_lt
  refine readBack_encR h p.code_lt (by decide) (by decide) (by omega) fun w hw hp hd ha hh => ?_
  obtain ⟨hz, hl, hsel⟩ : field w 14 16 = 0 ∧ field w 30 1 = l.code ∧ field w 31 1 = 0 := by
    simp only [fA, field] at *; omega
  simp [decMajor_bar hw.major, decBar, hp, hd, hz, hl, hsel]

theorem readBack_arrive {p : Pred} {l : BarLevel} {d : GReg} (h : encode (.arrive p l d) = some e) :
    ReadBack (.arrive p l d) e := by
  have := l.code_lt
  refine readBack_encR h p.code_lt (by omega) (by decide) (by omega) fun w hw hp hd ha hh => ?_
  obtain ⟨hz, hl, hsel⟩ : field w 14 16 = 0 ∧ field w 30 1 = l.code ∧ field w 31 1 = 1 := by
    simp only [fA, field] at *; omega
  simp [decMajor_bar hw.major, decBar, hp, hd, hz, hl, hsel]

theorem readBack_tnow {p : Pred} {d : GReg} (h : encode (.tnow p d) = some e) : ReadBack (.tnow p d) e := by
  refine readBack_encR h p.code_lt (by omega) (by decide) (by decide) fun w hw hp hd ha hh => ?_
  obtain ⟨hz, hsel⟩ : field w 19 12 = 0 ∧ field w 31 1 = 0 := by simp only [field] at *; omega
  simp [decMajor_time hw.major, decTime, hp, hd, ha, hz, hsel]

theorem readBack_tuntil {p : Pred} {d a : GReg} (h : encode (.tuntil p d a) = some e) : ReadBack (.tuntil p d a) e := by
  refine readBack_encR h p.code_lt (by omega) (by omega) (by decide) fun w hw hp hd ha hh => ?_
  obtain ⟨hz, hsel⟩ : field w 19 12 = 0 ∧ field w 31 1 = 1 := by simp only [field] at *; omega
  simp [decMajor_time hw.major, decTime, hp, hd, ha, hz, hsel]

/-! ## Scalar floating point -/

/-- The operation in [31:27] and the format in [26:24] that make up [31:24] (R77, R78). -/
theorem op_fmt_of_fF8 {w op : Nat} (h : fF8 w = 8 * op + f) (hf : f < 8) : field w 27 5 = op ∧ field w 24 3 = f := by
  have : fF8 w < 256 := field_lt w 24 8
  simp only [fF8, field] at *; omega

theorem readBack_f3 {k : Pred → FFmt → SReg → SReg → SReg → Instr} {op : Nat} {p : Pred} {f : FFmt} {d a b : SReg}
    (h : encF op p f d.code a.code b.code = some e) (hop : op < 31) (read : ∀ w, field w 27 5 = op → decFp w = f3 w k) :
    ReadBack (k p f d a b) e := by
  have hfmt := f.code_lt
  refine readBack_BF h p.code_lt d.code_lt a.code_lt b.code_lt (by omega) fun w hw hp hd ha hb hf => ?_
  obtain ⟨ho, hf⟩ := op_fmt_of_fF8 hf (by omega)
  simp [decMajor_fp hw.major, read w ho, f3, hp, hd, ha, hb, hf]

theorem readBack_f2 {k : Pred → FFmt → SReg → SReg → Instr} {op : Nat} {p : Pred} {f : FFmt} {d a : SReg}
    (h : encF op p f d.code a.code 0 = some e) (hop : op < 31) (read : ∀ w, field w 27 5 = op → decFp w = f2 w k) :
    ReadBack (k p f d a) e := by
  have hfmt := f.code_lt
  refine readBack_BF h p.code_lt d.code_lt a.code_lt (by decide) (by omega) fun w hw hp hd ha hb hf => ?_
  obtain ⟨ho, hf⟩ := op_fmt_of_fF8 hf (by omega)
  simp [decMajor_fp hw.major, read w ho, f2, hp, hd, ha, hb, hf]

theorem readBack_fma {k : Pred → FmaFmt → SReg → SReg → SReg → SReg → Instr} {op : Nat} {p : Pred} {f : FmaFmt}
    {d a b c : SReg} (h : encFma op p f d a b c = some e) (hop : op < 4)
    (read : ∀ w, field w 30 2 = op → decFma w = .ok (k (.ofCode (fP w)) (.ofCode (field w 29 1)) (.ofCode (fD w))
      (.ofCode (fA w)) (.ofCode (fB w)) (.ofCode (fC w)))) : ReadBack (k p f d a b c) e := by
  have := f.code_lt
  refine readBack_BCF h p.code_lt d.code_lt a.code_lt b.code_lt c.code_lt (by omega) fun w hw hp hd ha hb hc hf => ?_
  obtain ⟨ho, hf⟩ : field w 30 2 = op ∧ field w 29 1 = f.code := by have := hw.lt; simp only [field] at *; omega
  simp [decMajor_fma hw.major, read w ho, hp, hd, ha, hb, hc, hf]

/-- The conversions of major 0x2A (R144), by the parts of [31:19]. -/
theorem readBack_encCvt {p : Pred} {sel sr kind wide low : Nat} {d a : SReg}
    (h : encCvt p sel sr kind wide low d a = some e) (hsel : sel < 4) (hsr : sr < 2) (hkind : kind < 4) (hwide : wide < 4)
    (hlow : low < 64)
    (read : ∀ w, fP w = p.code → fD w = d.code → fA w = a.code → field w 19 6 = low → field w 25 2 = wide →
      field w 27 2 = kind → field w 29 1 = sr → field w 30 2 = sel → decFcvt w = .ok i) : ReadBack i e := by
  refine readBack_encR h p.code_lt d.code_lt a.code_lt (by omega) fun w hw hp hd ha hh => ?_
  obtain ⟨hlow, hwide, hkind⟩ : field w 19 6 = low ∧ field w 25 2 = wide ∧ field w 27 2 = kind := by
    simp only [field] at *; omega
  obtain ⟨hsr, hsel⟩ : field w 29 1 = sr ∧ field w 30 2 = sel := by simp only [field] at *; omega
  rw [decMajor_fcvt hw.major, read w hp hd ha hlow hwide hkind hsr hsel]

theorem readBack_fcvt {p : Pred} {sr : Bool} {dst src : FFmt} {d a : SReg} (h : encode (.fcvt p sr dst src d a) = some e) :
    ReadBack (.fcvt p sr dst src d a) e := by
  have := src.code_lt
  refine readBack_encCvt h (by decide) sr.toNat_lt (by decide) dst.code_lt (by omega)
    fun w hp hd ha hlow hwide hkind hsr hsel => ?_
  obtain ⟨hz, hsrc⟩ : field w 21 4 = 0 ∧ field w 19 2 = src.code := by simp only [field] at *; omega
  simp [decFcvt, hp, hd, ha, hwide, hkind, hsr, hsel, hz, hsrc]

theorem readBack_fcvtWideToB8 {p : Pred} {sr : Bool} {src : FFmt} {dst : B8} {d a : SReg}
    (h : encode (.fcvtWideToB8 p sr src dst d a) = some e) : ReadBack (.fcvtWideToB8 p sr src dst d a) e := by
  have := dst.code_lt
  refine readBack_encCvt h (by decide) sr.toNat_lt (by decide) src.code_lt (by omega)
    fun w hp hd ha hlow hwide hkind hsr hsel => ?_
  obtain ⟨hz, hdst⟩ : field w 24 1 = 0 ∧ fB w = dst.code := by simp only [fB, field] at *; omega
  simp [decFcvt, hp, hd, ha, hwide, hkind, hsr, hsel, hz, hdst]

theorem readBack_fcvtB8ToWide {p : Pred} {dst : FFmt} {src : B8} {d a : SReg}
    (h : encode (.fcvtB8ToWide p dst src d a) = some e) : ReadBack (.fcvtB8ToWide p dst src d a) e := by
  have := src.code_lt
  refine readBack_encCvt h (by decide) (by decide) (by decide) dst.code_lt (by omega)
    fun w hp hd ha hlow hwide hkind hsr hsel => ?_
  obtain ⟨hz, hsrc⟩ : field w 24 1 = 0 ∧ fB w = src.code := by simp only [fB, field] at *; omega
  simp [decFcvt, hp, hd, ha, hwide, hkind, hsr, hsel, hz, hsrc]

/-- FCVTI, ICVTF and FRND hold a rounding code in [21:19] and an integer format or 0 in [24:22] (R144). -/
theorem readBack_rounded {sel x : Nat} {p : Pred} {g : FFmt} {r : RCode} {d a : SReg}
    (h : encCvt p sel 0 0 g.code (r.code + 8 * x) d a = some e) (hsel : sel < 4) (hx : x < 8)
    (read : ∀ w, fP w = p.code → fD w = d.code → fA w = a.code → field w 25 2 = g.code → field w 27 3 = 0 →
      field w 30 2 = sel → field w 22 3 = x → field w 19 3 = r.code → decFcvt w = .ok i) : ReadBack i e := by
  have := r.code_lt
  refine readBack_encCvt h hsel (by decide) (by decide) g.code_lt (by omega)
    fun w hp hd ha hlow hwide hkind hsr hsel => ?_
  obtain ⟨hz, hx, hr⟩ : field w 27 3 = 0 ∧ field w 22 3 = x ∧ field w 19 3 = r.code := by simp only [field] at *; omega
  exact read w hp hd ha hwide hz hsel hx hr

/-! ## Vectors -/

theorem readBack_vvv {k : Pred → LFmt → VReg → VReg → VReg → Instr} {op : Nat} {p : Pred} {f : LFmt} {d a b : VReg}
    (h : encV3 op p f d a b = some e) (hop : op < 31) (read : ∀ w, field w 27 5 = op → decVec w = vvv w k) :
    ReadBack (k p f d a b) e := by
  have hfmt := f.code_lt
  refine readBack_BF h p.code_lt d.code_lt32 a.code_lt32 b.code_lt32 (by omega) fun w hw hp hd ha hb hf => ?_
  obtain ⟨ho, hf⟩ := op_fmt_of_fF8 hf hfmt
  simp [decMajor_vec hw.major, read w ho, vvv, hp, hd, ha, hb, hf]

/-- .P in [23] and what [22:19] holds (R150). -/
theorem dotP_fields {w x : Nat} {dotP : Bool} (h : fB w = x + 16 * dotP.toNat) (hx : x < 16) :
    field w 19 4 = x ∧ field w 23 1 = dotP.toNat := by
  have := dotP.toNat_lt
  simp only [fB, field] at *; omega

theorem readBack_vvP {k : Pred → LFmt → Bool → VReg → VReg → Instr} {op : Nat} {p : Pred} {f : LFmt} {x : Bool} {d a : VReg}
    (h : encVP op p f x d a = some e) (hop : op < 31) (read : ∀ w, field w 27 5 = op → decVec w = vvP w k) :
    ReadBack (k p f x d a) e := by
  have := x.toNat_lt
  have hfmt := f.code_lt
  refine readBack_BF h p.code_lt d.code_lt32 a.code_lt32 (by omega) (by omega) fun w hw hp hd ha hb hf => ?_
  obtain ⟨ho, hf⟩ := op_fmt_of_fF8 hf hfmt
  obtain ⟨hz, hx⟩ := dotP_fields (hb.trans (Nat.zero_add _).symm) (by decide)
  simp [decMajor_vec hw.major, read w ho, vvP, hp, hd, ha, hf, hz, hx]

/-- A vector operation whose fields are not all vector fields (R150). -/
theorem readBack_vec {op : Nat} {p : Pred} {f : LFmt} (h : enc3 0x2B (8 * op + f.code) p d a b = some e) (hop : op < 31)
    (hd : d < 32) (ha : a < 32) (hb : b < 32)
    (read : ∀ w, field w 27 5 = op → fP w = p.code → field w 24 3 = f.code → fD w = d → fA w = a → fB w = b →
      decVec w = .ok i) : ReadBack i e := by
  have hfmt := f.code_lt
  refine readBack_BF h p.code_lt hd ha hb (by omega) fun w hw hp hd ha hb hf => ?_
  obtain ⟨ho, hf⟩ := op_fmt_of_fF8 hf hfmt
  rw [decMajor_vec hw.major, read w ho hp hf hd ha hb]

theorem readBack_vcmp {p : Pred} {cc : VCond} {f : LFmt} {d : MReg} {a b : VReg}
    (h : encode (.vcmp p cc f d a b) = some e) : ReadBack (.vcmp p cc f d a b) e := by
  have := cc.code_lt
  refine readBack_vec h (by decide) (by omega) a.code_lt32 b.code_lt32 fun w hop hp hf hd ha hb => ?_
  obtain ⟨hcc, hd⟩ : field w 11 3 = cc.code ∧ field w 9 2 = d := by simp only [fD, field] at *; omega
  simp [decVec, hop, hp, hf, hcc, hd, ha, hb, Nat.mod_eq_of_lt d.isLt]

theorem readBack_vred {p : Pred} {op : RedOp} {f : LFmt} {x : Bool} {d a : VReg}
    (h : encode (.vred p op f x d a) = some e) : ReadBack (.vred p op f x d a) e := by
  have hop := op.code_lt
  have := x.toNat_lt
  refine readBack_vec h (by decide) d.code_lt32 a.code_lt32 (by omega) fun w ho hp hf hd ha hb => ?_
  obtain ⟨hz, hx⟩ := dotP_fields hb (by omega)
  obtain ⟨hop, hz⟩ : field w 19 2 = op.code ∧ field w 21 2 = 0 := by simp only [field] at *; omega
  simp [decVec, ho, hp, hf, hd, ha, hx, hop, hz]

theorem readBack_viota {p : Pred} {f : LFmt} {x : Bool} {d : VReg} {a : SReg} (h : encode (.viota p f x d a) = some e) :
    ReadBack (.viota p f x d a) e := by
  have := x.toNat_lt
  refine readBack_vec h (by decide) d.code_lt32 a.code_lt (by omega) fun w hop hp hf hd ha hb => ?_
  obtain ⟨hz, hx⟩ := dotP_fields (hb.trans (Nat.zero_add _).symm) (by decide)
  simp [decVec, hop, hp, hf, hd, ha, hx, hz]

theorem readBack_vfma {p : Pred} {f : VfmaFmt} {d a b c : VReg} (h : encode (.vfma p f d a b c) = some e) :
    ReadBack (.vfma p f d a b c) e := by
  have := f.code_lt
  refine readBack_BCF h p.code_lt d.code_lt32 a.code_lt32 b.code_lt32 c.code_lt32 (by omega)
    fun w hw hp hd ha hb hc hf => ?_
  obtain ⟨hsel, hf⟩ : field w 31 1 = 0 ∧ field w 29 2 = f.code := by simp only [field] at *; omega
  simp [decMajor_vfma hw.major, decVfma, hp, hd, ha, hb, hc, hsel, hf]

theorem readBack_vfms {p : Pred} {f : FmaFmt} {d a b c : VReg} (h : encode (.vfms p f d a b c) = some e) :
    ReadBack (.vfms p f d a b c) e := by
  have := f.code_lt
  refine readBack_BCF h p.code_lt d.code_lt32 a.code_lt32 b.code_lt32 c.code_lt32 (by omega)
    fun w hw hp hd ha hb hc hf => ?_
  obtain ⟨hsel, hk, hf⟩ : field w 31 1 = 1 ∧ field w 30 1 = 0 ∧ field w 29 1 = f.code := by simp only [field] at *; omega
  simp [decMajor_vfma hw.major, decVfma, hp, hd, ha, hb, hc, hsel, hk, hf]

theorem readBack_vdot {p : Pred} {f : DotFmt} {d a b c : VReg} (h : encode (.vdot p f d a b c) = some e) :
    ReadBack (.vdot p f d a b c) e := by
  have := f.code_lt
  refine readBack_BCF h p.code_lt d.code_lt32 a.code_lt32 b.code_lt32 c.code_lt32 (by omega)
    fun w hw hp hd ha hb hc hf => ?_
  obtain ⟨hsel, hk, hf⟩ : field w 31 1 = 1 ∧ field w 30 1 = 1 ∧ field w 29 1 = f.code := by simp only [field] at *; omega
  simp [decMajor_vfma hw.major, decVfma, hp, hd, ha, hb, hc, hsel, hk, hf]

end

end Sys2Proof
end

section
/-!
An instruction is read back from the bits that encode it, by its format: conversions of lanes, streams, strands, gangs,
engines, CSRs and traps; then every instruction.
-/
set_option Elab.async false
namespace Sys2Proof

section
variable {i : Instr} {e : Encoded} {m p d a b c f : Nat}

/-- R161: no conversion between wide formats reads a part above 3, so [22:21] stays 0. -/
theorem part_lt_of_vcvtOk {sr : Bool} {dst src : FFmt} {part : BitVec 3} (h : vcvtOk sr (.ff dst src) part = true) :
    part.toNat < 4 := by
  have ratio (s t : FFmt) : Nat.max s.width t.width / Nat.min s.width t.width ≤ 4 := by cases s <;> cases t <;> decide
  simp only [vcvtOk, partOk, Bool.and_eq_true, decide_eq_true_eq] at h
  exact h.1.trans_le (ratio src dst)

theorem vcvtKind_of_low {w : Nat} {sr : Bool} {k : VcvtKind} {part : BitVec 3} (hok : vcvtOk sr k part = true)
    (h : field w 19 10 = k.low part.toNat) : vcvtKind w = .ok (k, part.toNat) := by
  cases k with
  | ff dst src =>
    have := dst.code_lt
    have := src.code_lt
    have := part_lt_of_vcvtOk hok
    simp only [VcvtKind.low] at h
    obtain ⟨hk, hd, hs, hp, hy, hz⟩ : field w 27 2 = 0 ∧ field w 25 2 = dst.code ∧ field w 23 2 = src.code ∧
        field w 19 2 = part.toNat ∧ field w 21 1 = 0 ∧ field w 22 1 = 0 := by
      simp only [field] at *; omega
    simp [vcvtKind, hk, hd, hs, hp, hy, hz]
  | fi src dst =>
    have := dst.code_lt
    have := src.code_lt
    simp only [VcvtKind.low] at h
    obtain ⟨hk, hs, hd, hp⟩ : field w 27 2 = 1 ∧ field w 25 2 = src.code ∧ field w 22 3 = dst.code ∧
        field w 19 3 = part.toNat := by
      simp only [field] at *; omega
    simp [vcvtKind, hk, hd, hs, hp]
  | intF dst src =>
    have := dst.code_lt
    have := src.code_lt
    simp only [VcvtKind.low] at h
    obtain ⟨hk, hs, hd, hp⟩ : field w 27 2 = 2 ∧ field w 22 3 = src.code ∧ field w 25 2 = dst.code ∧
        field w 19 3 = part.toNat := by
      simp only [field] at *; omega
    simp [vcvtKind, hk, hd, hs, hp]

theorem VcvtKind.low_lt (k : VcvtKind) (part : BitVec 3) : k.low part.toNat < 1024 := by
  cases k with
  | ff dst src | fi src dst | intF dst src =>
    have := dst.code_lt
    have := src.code_lt
    simp only [VcvtKind.low]; omega

theorem readBack_vcvt {p : Pred} {sr : Bool} {k : VcvtKind} {part : BitVec 3} {d a : VReg}
    (h : encode (.vcvt p sr k part d a) = some e) (hok : vcvtOk sr k part = true) : ReadBack (.vcvt p sr k part d a) e := by
  rw [encode_vcvt] at h
  have := k.low_lt part
  have := sr.toNat_lt
  refine readBack_encR h p.code_lt d.code_lt32 a.code_lt32 (by omega) fun w hw hp hd ha hh => ?_
  obtain ⟨hlow, hsr, hsel⟩ : field w 19 10 = k.low part.toNat ∧ field w 29 1 = sr.toNat ∧ field w 30 2 = 0 := by
    simp only [field] at *; omega
  simp [decMajor_vcvt hw.major, decVcvt, hp, hd, ha, hsr, hsel, vcvtKind_of_low hok hlow]

theorem readBack_vnarrow {p : Pred} {sr : Bool} {x : NarrowDst} {part : BitVec 3} {d a : VReg}
    (h : encode (.vnarrow p sr x part d a) = some e) : ReadBack (.vnarrow p sr x part d a) e := by
  have := x.code_lt
  have := x.isB8.toNat_lt
  have := sr.toNat_lt
  refine readBack_encR h p.code_lt d.code_lt32 a.code_lt32 (by omega) fun w hw hp hd ha hh => ?_
  obtain ⟨hx, hpart, hz⟩ : fB w = x.code ∧ field w 24 3 = part.toNat ∧ field w 27 1 = 0 := by
    simp only [fB, field] at *; omega
  obtain ⟨hb8, hsr, hsel⟩ : field w 28 1 = x.isB8.toNat ∧ field w 29 1 = sr.toNat ∧ field w 30 2 = 1 := by
    simp only [field] at *; omega
  simp [decMajor_vcvt hw.major, decVcvt, hp, hd, ha, hx, hpart, hz, hb8, hsr, hsel]

theorem readBack_vwiden {p : Pred} {dst : WidenDst} {x : WidenSrc} {part : BitVec 3} {d a : VReg}
    (h : encode (.vwiden p dst x part d a) = some e) : ReadBack (.vwiden p dst x part d a) e := by
  have := x.code_lt
  have := x.isB8.toNat_lt
  have := dst.code_lt
  refine readBack_encR h p.code_lt d.code_lt32 a.code_lt32 (by omega) fun w hw hp hd ha hh => ?_
  obtain ⟨hx, hb8, hpart⟩ : fB w = x.code ∧ field w 24 1 = x.isB8.toNat ∧ field w 25 3 = part.toNat := by
    simp only [fB, field] at *; omega
  obtain ⟨hdst, hsel⟩ : field w 28 2 = dst.code ∧ field w 30 2 = 2 := by simp only [field] at *; omega
  simp [decMajor_vcvt hw.major, decVcvt, hp, hd, ha, hx, hpart, hdst, hb8, hsel]

/-- The fixed-point operations (R164): the fraction length, the width and the selector in [31:30]. -/
theorem readBack_fixed {sel : Nat} {p : Pred} {q : QWid} {x : BitVec 6}
    (h : encR 0x2F p.code d a (x.toNat + 64 * q.code + 2048 * sel) = some e) (hd : d < 32) (ha : a < 32) (hsel : sel < 4)
    (read : ∀ w, fP w = p.code → fD w = d → fA w = a → field w 27 3 = 0 → field w 25 2 = q.code →
      field w 19 6 = x.toNat → field w 30 2 = sel → decQ w = .ok i) : ReadBack i e := by
  have := q.code_lt
  refine readBack_encR h p.code_lt hd ha (by omega) fun w hw hp hd ha hh => ?_
  obtain ⟨hx, hq, hz, hsel⟩ : field w 19 6 = x.toNat ∧ field w 25 2 = q.code ∧ field w 27 3 = 0 ∧ field w 30 2 = sel := by
    simp only [field] at *; omega
  rw [decMajor_q hw.major, read w hp hd ha hz hq hx hsel]

/-! ## Streams, strands, gangs and engines -/

/-- The stream operations (R183): the selector in [31:29], and nothing else above [18:14]. -/
theorem readBack_stream {hi : Nat} {p : Pred} (h : encR 0x30 p.code d a hi = some e) (hd : d < 32) (ha : a < 32)
    (hhi : hi % 1024 = 0 ∧ hi < 8192)
    (read : ∀ w, fP w = p.code → fD w = d → fA w = a → field w 24 5 = 0 → fB w = 0 → field w 29 3 = hi / 1024 →
      decStream w = .ok i) : ReadBack i e := by
  refine readBack_encR h p.code_lt hd ha hhi.2 fun w hw hp hd ha hh => ?_
  obtain ⟨hz, hb, hsel⟩ : field w 24 5 = 0 ∧ fB w = 0 ∧ field w 29 3 = hi / 1024 := by
    simp only [fB, field] at *; omega
  rw [decMajor_stream hw.major, read w hp hd ha hz hb hsel]

theorem readBack_sbind {p : Pred} {st : StreamId} {q : Option Port} (h : encode (.sbind p st q) = some e) :
    ReadBack (.sbind p st q) e := by
  cases q with
  | none =>
    exact readBack_stream h (by omega) (by decide) (by decide) fun w hp hd ha hz hb hsel => by
      simp [decStream, streamCode_codes.2, hp, hd, ha, hz, hb, hsel]
  | some q =>
    have hq : 28 + q.code < 32 := by have := q.code_lt; omega
    exact readBack_stream h (by omega) hq (by decide) fun w hp hd ha hz hb hsel => by
      simp [decStream, streamCode_codes.2, portCode_codes.2, hp, hd, ha, hz, hb, hsel]

/-- The strand operations (R206): the selector in [31:28], a tag, a mask or 0 in [27:24]. -/
theorem readBack_strand {p : Pred} (h : enc3 0x31 f p d a b = some e) (hd : d < 32) (ha : a < 32) (hb : b < 32)
    (hf : f < 256)
    (read : ∀ w, fP w = p.code → fD w = d → fA w = a → fB w = b → field w 24 4 = f % 16 → field w 28 4 = f / 16 →
      decThread w = .ok i) : ReadBack i e := by
  refine readBack_BF h p.code_lt hd ha hb hf fun w hw hp hd ha hb hf => ?_
  obtain ⟨hx, hsel⟩ : field w 24 4 = f % 16 ∧ field w 28 4 = f / 16 := by simp only [fF8, field] at *; omega
  rw [decMajor_thread hw.major, read w hp hd ha hb hx hsel]

/-- SEND, SENDA and FAN hold their selector and a tag or mask in [31:24] (R206). -/
theorem readBack_tagged {k : Pred → GReg → GReg → GReg → BitVec 4 → Instr} {sel : Nat} {p : Pred} {d a b : GReg}
    {t : BitVec 4} (h : enc3 0x31 (16 * sel + t.toNat) p d a b = some e) (hsel : sel < 16)
    (read : ∀ w, field w 28 4 = sel → decThread w = ggg w fun p d a b => k p d a b (BitVec.ofNat 4 (field w 24 4))) :
    ReadBack (k p d a b t) e := by
  refine readBack_strand h (by omega) (by omega) (by omega) (by omega) fun w hp hd ha hb hx hs => ?_
  have hx : field w 24 4 = t.toNat := by omega
  rw [read w (by omega)]
  simp [ggg, hp, hd, ha, hb, hx]

/-- END and YIELD have no operand: [27:9] is 0. -/
theorem no_operands {w : Nat} (hd : fD w = 0) (ha : fA w = 0) (hb : fB w = 0) (hx : field w 24 4 = 0) :
    field w 9 19 = 0 := by
  simp only [fD, fA, fB, field] at *; omega

theorem KReg.code_lt (r : KReg) : r.code < 32 := by
  cases r with
  | scalar r | double r => exact r.code_lt
  | vector r => exact r.code_lt32

theorem KReg.dv_lt (r : KReg) : r.dv < 4 := by cases r <;> simp [KReg.dv]

theorem readBack_movk {p : Pred} {r : KReg} {k : BitVec 8} (h : encode (.movk p r k) = some e) :
    ReadBack (.movk p r k) e := by
  have := r.dv_lt
  refine readBack_encR h p.code_lt r.code_lt (by decide) (by omega) fun w hw hp hd ha hh => ?_
  obtain ⟨hk, hdv, hsel⟩ : field w 19 8 = k.toNat ∧ field w 27 1 + 2 * field w 28 1 = r.dv ∧ field w 29 3 = 4 := by
    simp only [field] at *; omega
  have hr : kReg (field w 27 1) (field w 28 1) (fD w) = .ok r := kReg_eq_ok.2 ⟨hdv, hd⟩
  simp [decMajor_gang hw.major, decGang, hp, ha, hk, hsel, hr]

theorem readBack_movtk {p : Pred} {r : KReg} {k : BitVec 8} (h : encode (.movtk p k r) = some e) :
    ReadBack (.movtk p k r) e := by
  have := r.dv_lt
  refine readBack_encR h p.code_lt (by decide) r.code_lt (by omega) fun w hw hp hd ha hh => ?_
  obtain ⟨hk, hdv, hsel⟩ : field w 19 8 = k.toNat ∧ field w 27 1 + 2 * field w 28 1 = r.dv ∧ field w 29 3 = 5 := by
    simp only [field] at *; omega
  have hr : kReg (field w 27 1) (field w 28 1) (fA w) = .ok r := kReg_eq_ok.2 ⟨hdv, ha⟩
  simp [decMajor_gang hw.major, decGang, hp, hd, hk, hsel, hr]

theorem readBack_top {k : Pred → GReg → GReg → GReg → Instr} {op : Nat} {p : Pred} {d a b : GReg}
    (h : encTop op p d a b = some e) (hop : op < 32)
    (read : ∀ w, field w 29 3 = 0 → fC w = op → decTile w = ggg w k) : ReadBack (k p d a b) e :=
  readBack_BCF h p.code_lt (by omega) (by omega) (by omega) hop (by decide) fun w hw hp hd ha hb hc hf => by
    simp [decMajor_tile hw.major, read w hf hc, ggg, hp, hd, ha, hb]

theorem readBack_recoff {p : Pred} (h : encode (.recoff p) = some e) : ReadBack (.recoff p) e := by
  refine readBack_BCF h p.code_lt (by decide) (by decide) (by decide) (by decide) (by decide)
    fun w hw hp hd ha hb hc hf => ?_
  have hz : field w 9 20 = 0 := by simp only [fD, fA, fB, fC, field] at *; omega
  simp [decMajor_tile hw.major, decTile, hp, hz, hf]

theorem readBack_cpgo {p : Pred} {ch : Fin 2} {d : GReg} (h : encode (.cpgo p ch d) = some e) :
    ReadBack (.cpgo p ch d) e := by
  refine readBack_encR h p.code_lt (by omega) (by decide) (by omega) fun w hw hp hd ha hh => ?_
  obtain ⟨hb, hc, hch, hsel⟩ : fB w = 0 ∧ fC w = 0 ∧ field w 29 1 = ch ∧ field w 30 2 = 0 := by
    simp only [fB, fC, field] at *; omega
  simp [decMajor_engine hw.major, decEngine, hp, hd, ha, hb, hc, hch, hsel, Nat.mod_eq_of_lt ch.isLt]

theorem readBack_cpblk {p : Pred} {ch : Fin 2} {d a b : GReg} (h : encode (.cpblk p ch d a b) = some e) :
    ReadBack (.cpblk p ch d a b) e := by
  refine readBack_BF h p.code_lt (by omega) (by omega) (by omega) (by omega) fun w hw hp hd ha hb hf => ?_
  obtain ⟨hc, hch, hsel⟩ : fC w = 0 ∧ field w 29 1 = ch ∧ field w 30 2 = 1 := by simp only [fC, fF8, field] at *; omega
  simp [decMajor_engine hw.major, decEngine, ggg, hp, hd, ha, hb, hc, hch, hsel, Nat.mod_eq_of_lt ch.isLt]

theorem readBack_ftgo {p : Pred} {d a : GReg} (h : encode (.ftgo p d a) = some e) : ReadBack (.ftgo p d a) e := by
  refine readBack_BF h p.code_lt (by omega) (by omega) (by decide) (by decide) fun w hw hp hd ha hb hf => ?_
  obtain ⟨hc, hz, hsel⟩ : fC w = 0 ∧ field w 29 1 = 0 ∧ field w 30 2 = 2 := by simp only [fC, fF8, field] at *; omega
  simp [decMajor_engine hw.major, decEngine, gg, hp, hd, ha, hb, hc, hz, hsel]

theorem readBack_armw {p : Pred} {d a b : GReg} (h : encode (.armw p d a b) = some e) : ReadBack (.armw p d a b) e := by
  refine readBack_BF h p.code_lt (by omega) (by omega) (by omega) (by decide) fun w hw hp hd ha hb hf => ?_
  obtain ⟨hc, hz, hsel⟩ : fC w = 0 ∧ field w 29 1 = 0 ∧ field w 30 2 = 3 := by simp only [fC, fF8, field] at *; omega
  simp [decMajor_engine hw.major, decEngine, ggg, hp, hd, ha, hb, hc, hz, hsel]

/-! ## CSRs and traps -/

theorem readBack_csr {op : Nat} {csr : BitVec 12} (h : encCsr op d a csr = some e) (hop : op < 4) (hd : d < 32) (ha : a < 32)
    (read : ∀ w, fP w = op → fD w = d → fA w = a → field w 31 1 = 0 → field w 19 12 = csr.toNat → decCsr w = .ok i) :
    ReadBack i e := by
  refine readBack_encR h hop hd ha (by omega) fun w hw hp hd ha hh => ?_
  obtain ⟨hcsr, hz⟩ : field w 19 12 = csr.toNat ∧ field w 31 1 = 0 := by simp only [field] at *; omega
  rw [decMajor_csr hw.major, read w hp hd ha hz hcsr]

theorem readBack_trap {p : Pred} {a : SReg} {n : BitVec 5} (h : encode (.trap p a n) = some e) :
    ReadBack (.trap p a n) e := by
  refine readBack_BF h p.code_lt (by decide) a.code_lt (by decide) (by omega) fun w hw hp hd ha hb hf => ?_
  obtain ⟨hn, hz, hsel⟩ : fC w = n.toNat ∧ field w 29 1 = 0 ∧ field w 30 2 = 0 := by simp only [fC, fF8, field] at *; omega
  simp [decMajor_trap hw.major, decTrap, hp, hd, ha, hb, hn, hz, hsel]

/-- RETT, ECALL and EBREAK (R134, R135): a selector in [31:30] and no operand. -/
theorem readBack_bare {k : Pred → Instr} {sel : Nat} {p : Pred} (h : encR 0x36 p.code 0 0 (hiBF 0 (64 * sel)) = some e)
    (hsel : sel < 4) (read : ∀ w, field w 9 21 = 0 → field w 30 2 = sel → decTrap w = .ok (k (.ofCode (fP w)))) :
    ReadBack (k p) e := by
  refine readBack_BF h p.code_lt (by decide) (by decide) (by decide) (by omega) fun w hw hp hd ha hb hf => ?_
  obtain ⟨hz, hs⟩ : field w 9 21 = 0 ∧ field w 30 2 = sel := by simp only [fD, fA, fB, fF8, field] at *; omega
  simp [decMajor_trap hw.major, read w hz hs, hp]

theorem readBack_cvv {k : LFmt → VReg → VReg → Instr} {op : Nat} {f : LFmt} {d b : VReg} (h : enc16 op f d b = some e)
    (hop : op < 16) (read : ∀ w, field w 1 4 = op → dec16 w = cvv w k) : ReadBack (k f d b) e :=
  readBack_enc16 h hop fun w ho hd hb hf => by simp [read w ho, cvv, hd, hb, hf]

/-! ## Every instruction -/

/-- Every well-formed instruction that has an encoding is read back from it. -/
theorem readBack_of_encode (h : encode i = some e) (hwf : wellFormed i = true) : ReadBack i e := by
  cases i with
  | add | sub | and | or | xor | andn | orn | sll | srl | sra | rol | ror | min | max | minu | maxu | slt | sltu | seq
  | sne =>
    exact readBack_sss h (by decide) fun w hm hf => by rw [decMajor_int hm, decInt, hf]; rfl
  | mul | mulh | mulhu | div | divu | rem | remu =>
    exact readBack_sss h (by decide) fun w hm hf => by rw [decMajor_mul hm, decMul, hf]; rfl
  | sel p d a b =>
    exact readBack_BF h p.code_lt (by omega) a.code_lt b.code_lt (by decide) fun w hw hp hd ha hb hf => by
      simp [decMajor_int hw.major, decInt, hf, hp, hd, ha, hb]
  | addi | andi | ori | xori | slti | sltiu => exact readBack_imm h fun w hm => by rw [decMajor, hm]; rfl
  | slli => exact readBack_shift (sel := 0) h (by decide) fun w hz hs => by simp [decShift, hz, hs]
  | srli => exact readBack_shift (sel := 1) h (by decide) fun w hz hs => by simp [decShift, hz, hs]
  | srai => exact readBack_shift (sel := 2) h (by decide) fun w hz hs => by simp [decShift, hz, hs]
  | roli => exact readBack_shift (sel := 3) h (by decide) fun w hz hs => by simp [decShift, hz, hs]
  | lui | auipc | jal => exact readBack_decU h fun w hm => by rw [decMajor, hm]; rfl
  | lop3 p d a b x =>
    exact readBack_BF h p.code_lt (by omega) a.code_lt b.code_lt x.isLt fun w hw hp hd ha hb hf => by
      simp [decMajor, hw.major, hp, hd, ha, hb, hf]
  | fshl => exact readBack_fshl h
  | fshr => exact readBack_fshr h
  | clz | ctz | popc | brev | bswap | sextB | sextH | sextW | zextB | zextH | zextW =>
    exact readBack_ss h (by decide) fun w hf => by rw [decBit, hf]; rfl
  | setm p d a =>
    exact readBack_mask h (by omega) a.code_lt (by decide) (by decide) fun w hf hp hd ha hb => by
      simp [decMask, hf, hp, hd, ha, hb]
  | getm p d a =>
    exact readBack_mask h d.code_lt (by omega) (by decide) (by decide) fun w hf hp hd ha hb => by
      simp [decMask, hf, hp, hd, ha, hb]
  | mand p d a b | mor p d a b =>
    exact readBack_mask h (by omega) (by omega) (by omega) (by decide) fun w hf hp hd ha hb => by
      simp [decMask, hf, hp, hd, ha, hb]
  | mnot p d a =>
    exact readBack_mask h (by omega) (by omega) (by decide) (by decide) fun w hf hp hd ha hb => by
      simp [decMask, hf, hp, hd, ha, hb]
  | beq | bne | blt | bge | bltu | bgeu => exact readBack_decB h fun w hm => by rw [decMajor, hm]; rfl
  | j => exact readBack_j h
  | jalr p d a x =>
    exact readBack_encR h p.code_lt d.code_lt (by omega) x.isLt fun w hw hp hd ha hh => by
      simp [decMajor, hw.major, hp, hd, ha, fI13, hh]
  | beos st o =>
    exact readBack_encB h (by omega) (by decide) fun w hw hd ha ho => by
      simp [decMajor_beos hw.major, decBeos, streamCode_codes.2, hd, ha, ho]
  | iter => exact readBack_iter h
  | iteri => exact readBack_iteri h
  | ld p d a s x o | st p d a s x o =>
    exact readBack_L h p.code_lt d.code_lt (by omega) s.code_lt (by have := x.code_lt; omega) o.isLt
      fun w hw hp hd ha hs hx ho => by
        simp [decMajor, hw.major, decLd, decSt, hp, hd, ha, hs, hx, fOff8, ho, x.code_lt.ne]
  | ldIndexed p d a s b | stIndexed p d a s b =>
    exact readBack_L h p.code_lt d.code_lt (by omega) s.code_lt (by decide) (by omega) fun w hw hp hd ha hs hx ho => by
      simp [decMajor, hw.major, decLd, decSt, hp, hd, ha, hs, hx, indexReg_eq_ok.2 ho]
  | lda => exact readBack_lda h
  | stl => exact readBack_stl h
  | pref => exact readBack_pref h
  | ldp | stp | clrp => exact readBack_presS h (by decide) fun w hm hs => by rw [decMajor_pres hm, decPres, hs]; rfl
  | ldpIndexed | stpIndexed | clrpIndexed =>
    exact readBack_presS_indexed h (by decide) fun w hm hs => by rw [decMajor_pres hm, decPres, hs]; rfl
  | vldp | vstp => exact readBack_memV h (by decide) fun w hm hs => by rw [decMajor_pres hm, decPres, hs]; rfl
  | vldpIndexed | vstpIndexed =>
    exact readBack_memV_indexed h (by decide) fun w hm hs => by rw [decMajor_pres hm, decPres, hs]; rfl
  | vld | vst => exact readBack_memV h (by decide) fun w hm hs => by rw [decMajor_vmem hm, decVmem, hs]; rfl
  | vldIndexed | vstIndexed =>
    exact readBack_memV_indexed h (by decide) fun w hm hs => by rw [decMajor_vmem hm, decVmem, hs]; rfl
  | vgath | vscat => exact readBack_gathScat h (by decide) fun w hs => by rw [decVmem, hs]; rfl
  | vstt => exact readBack_vstt h
  | stn => exact readBack_stn h
  | amo => exact readBack_amo h
  | cas => exact readBack_cas h
  | casXchg => exact readBack_casXchg h
  | famo o op z sc d a b =>
    exact readBack_reduction (sel := 0) h o.code_lt d.code_lt (by omega) z.code_lt (by decide)
      fun w hp hd ha hb hsc hz hop hsel => by simp [decFamo, hp, hd, ha, hb, hsc, hz, hop, hsel]
  | red r op z sc a b =>
    exact readBack_reduction (sel := 1) h (by have := r.toNat_lt; omega) (by decide) (by omega) z.code_lt (by decide)
      fun w hp hd ha hb hsc hz hop hsel => by simp [decFamo, redOrd_eq_ok.2 hp, hd, ha, hb, hsc, hz, hop, hsel]
  | fred r op z sc a b =>
    exact readBack_reduction (sel := 2) h (by have := r.toNat_lt; omega) (by decide) (by omega) z.code_lt (by decide)
      fun w hp hd ha hb hsc hz hop hsel => by simp [decFamo, redOrd_eq_ok.2 hp, hd, ha, hb, hsc, hz, hop, hsel]
  | fence => exact readBack_fence h
  | ifence => exact readBack_ifence h
  | waitge => exact readBack_wait (sel := 0) h (by decide) fun w hz hs => by simp [decWait, hz, hs]
  | waitgen => exact readBack_wait (sel := 1) h (by decide) fun w hz hs => by simp [decWait, hz, hs]
  | signal => exact readBack_signal h
  | bar => exact readBack_bar h
  | arrive => exact readBack_arrive h
  | tnow => exact readBack_tnow h
  | tuntil => exact readBack_tuntil h
  | fadd | fsub | fmul | fdiv | fmin | fmax | fsgn | fcmp =>
    exact readBack_f3 h (by decide) fun w hop => by rw [decFp, hop]; rfl
  | fsqrt | fclass => exact readBack_f2 h (by decide) fun w hop => by rw [decFp, hop]; rfl
  | fma | fms | fnma => exact readBack_fma h (by decide) fun w hop => by rw [decFma, hop]; rfl
  | fcvt => exact readBack_fcvt h
  | fcvtWideToB8 => exact readBack_fcvtWideToB8 h
  | fcvtB8ToWide => exact readBack_fcvtB8ToWide h
  | fcvti p f g r d a | icvtf p f g r d a =>
    exact readBack_rounded h (by decide) g.code_lt fun w hp hd ha hwide hz hsel hx hr => by
      simp [decFcvt, hp, hd, ha, hwide, hsel, hz, hx, hr]
  | frnd p f r d a =>
    exact readBack_rounded (x := 0) h (by decide) (by decide) fun w hp hd ha hwide hz hsel hx hr => by
      simp [decFcvt, hp, hd, ha, hwide, hsel, hz, hx, hr]
  | vadd | vsub | vmul | vmulh | vmin | vmax | vand | vor | vxor | vshl | vshr | vsra | vsel | vshuf | vlut =>
    exact readBack_vvv h (by decide) fun w hop => by rw [decVec, hop]; rfl
  | vabs | vneg | vmov | vexp2 | vlog2 | vrcp | vrsq | vtanh =>
    exact readBack_vvP h (by decide) fun w hop => by rw [decVec, hop]; rfl
  | vcmp => exact readBack_vcmp h
  | vclamp p f d a b =>
    exact readBack_vec h (by decide) (by omega) a.code_lt32 b.code_lt32 fun w hop hp hf hd ha hb => by
      simp [decVec, hop, hp, hf, hd, ha, hb]
  | vbcast p f d a j | vrot p f d a j =>
    exact readBack_vec h (by decide) d.code_lt32 a.code_lt32 j.isLt fun w hop hp hf hd ha hb => by
      simp [decVec, hop, hp, hf, hd, ha, hb]
  | vred => exact readBack_vred h
  | vins p f d a j =>
    exact readBack_vec h (by decide) (by omega) a.code_lt j.isLt fun w hop hp hf hd ha hb => by
      simp [decVec, hop, hp, hf, hd, ha, hb]
  | vext p f d a j =>
    exact readBack_vec h (by decide) d.code_lt a.code_lt32 j.isLt fun w hop hp hf hd ha hb => by
      simp [decVec, hop, hp, hf, hd, ha, hb]
  | viota => exact readBack_viota h
  | vlop3 p d a b x =>
    exact readBack_BF h p.code_lt (by omega) a.code_lt32 b.code_lt32 x.isLt fun w hw hp hd ha hb hf => by
      simp [decMajor_vlop3 hw.major, decVlop3, hp, hd, ha, hb, hf]
  | vfma => exact readBack_vfma h
  | vfms => exact readBack_vfms h
  | vdot => exact readBack_vdot h
  | vcvt => exact readBack_vcvt h hwf
  | vnarrow => exact readBack_vnarrow h
  | vwiden => exact readBack_vwiden h
  | qmul p q x d a =>
    exact readBack_fixed (sel := 0) h (by omega) a.code_lt (by decide) fun w hp hd ha hz hq hx hsel => by
      simp [decQ, hp, hd, ha, hz, hq, hx, hsel]
  | qdiv p q x d a =>
    exact readBack_fixed (sel := 1) h (by omega) a.code_lt (by decide) fun w hp hd ha hz hq hx hsel => by
      simp [decQ, hp, hd, ha, hz, hq, hx, hsel]
  | qsqrt p q x d a =>
    exact readBack_fixed (sel := 2) h d.code_lt a.code_lt (by decide) fun w hp hd ha hz hq hx hsel => by
      simp [decQ, hp, hd, ha, hz, hq, hx, hsel]
  | cVadd | cVsub | cVmul | cVmin | cVmax | cVand | cVor | cVxor | cVmov | cVshl | cVshr | cVsra | cVabs | cVneg | cVmac
  | cVbcast =>
    exact readBack_cvv h (by decide) fun w hop => by rw [dec16, hop]; rfl
  | scfg p st a | srew p st a | sskip p st a =>
    exact readBack_stream h (by omega) (by omega) (by decide) fun w hp hd ha hz hb hsel => by
      simp [decStream, streamCode_codes.2, hp, hd, ha, hz, hb, hsel]
  | sbind => exact readBack_sbind h
  | spos p d st =>
    exact readBack_stream h (by omega) (by omega) (by decide) fun w hp hd ha hz hb hsel => by
      simp [decStream, streamCode_codes.2, hp, hd, ha, hz, hb, hsel]
  | sstop p st | sflush p st =>
    exact readBack_stream h (by omega) (by decide) (by decide) fun w hp hd ha hz hb hsel => by
      simp [decStream, streamCode_codes.2, hp, hd, ha, hz, hb, hsel]
  | spawn p d a b =>
    exact readBack_strand h (by omega) (by omega) (by omega) (by decide) fun w hp hd ha hb hx hsel => by
      simp [decThread, ggg, hp, hd, ha, hb, hx, hsel]
  | endStrand p | yield p =>
    exact readBack_strand h (by decide) (by decide) (by decide) (by decide) fun w hp hd ha hb hx hsel => by
      simp [decThread, hp, hsel, no_operands hd ha hb hx]
  | sleep p d a | prio p d a =>
    exact readBack_strand h (by omega) (by omega) (by decide) (by decide) fun w hp hd ha hb hx hsel => by
      simp [decThread, gg, hp, hd, ha, hb, hx, hsel]
  | wake p a b =>
    exact readBack_strand h (by decide) (by omega) (by omega) (by decide) fun w hp hd ha hb hx hsel => by
      simp [decThread, hp, hd, ha, hb, hx, hsel]
  | send => exact readBack_tagged (sel := 5) h (by decide) fun w hsel => by rw [decThread, hsel]; rfl
  | senda => exact readBack_tagged (sel := 6) h (by decide) fun w hsel => by rw [decThread, hsel]; rfl
  | fan => exact readBack_tagged (sel := 7) h (by decide) fun w hsel => by rw [decThread, hsel]; rfl
  | gang p d a b c =>
    exact readBack_BCF h p.code_lt (by omega) (by omega) (by omega) (by omega) (by decide) fun w hw hp hd ha hb hc hf => by
      simp [decMajor_gang hw.major, decGang, ggg, hp, hd, ha, hb, hc, hf]
  | gwait p d a | gstat p d a =>
    exact readBack_BCF h p.code_lt (by omega) (by omega) (by decide) (by decide) (by decide)
      fun w hw hp hd ha hb hc hf => by simp [decMajor_gang hw.major, decGang, gg, hp, hd, ha, hb, hc, hf]
  | gthaw p a =>
    exact readBack_BCF h p.code_lt (by decide) (by omega) (by decide) (by decide) (by decide)
      fun w hw hp hd ha hb hc hf => by simp [decMajor_gang hw.major, decGang, hp, hd, ha, hb, hc, hf]
  | movk => exact readBack_movk h
  | movtk => exact readBack_movtk h
  | ppeek p d q =>
    exact readBack_BCF h p.code_lt (by omega) (by have := q.code_lt; omega) (by decide) (by decide) (by decide)
      fun w hw hp hd ha hb hc hf => by
        simp [decMajor_gang hw.major, decGang, portCode_codes.2, hp, hd, ha, hb, hc, hf]
  | topTmm | topTadd | topTmul | topTscale | topTact | topTsum | topTsoft | topTnorm | topTlay | topTcopy =>
    exact readBack_top h (by decide) fun w hf hc => by simp only [decTile, hf, hc]
  | recon p a b =>
    exact readBack_BCF h p.code_lt (by decide) (by omega) (by omega) (by decide) (by decide)
      fun w hw hp hd ha hb hc hf => by simp [decMajor_tile hw.major, decTile, hp, hd, ha, hb, hc, hf]
  | recoff => exact readBack_recoff h
  | recmark p a =>
    exact readBack_BCF h p.code_lt (by decide) (by omega) (by decide) (by decide) (by decide)
      fun w hw hp hd ha hb hc hf => by simp [decMajor_tile hw.major, decTile, hp, hd, ha, hb, hc, hf]
  | reverse p d a =>
    exact readBack_BCF h p.code_lt (by omega) (by omega) (by decide) (by decide) (by decide)
      fun w hw hp hd ha hb hc hf => by simp [decMajor_tile hw.major, decTile, gg, hp, hd, ha, hb, hc, hf]
  | cpgo => exact readBack_cpgo h
  | cpblk => exact readBack_cpblk h
  | ftgo => exact readBack_ftgo h
  | armw => exact readBack_armw h
  | csrr d csr =>
    exact readBack_csr h (by decide) d.code_lt (by decide) fun w hp hd ha hz hcsr => by
      simp [decCsr, hp, hd, ha, hz, hcsr]
  | csrw csr a | csrs csr a | csrc csr a =>
    exact readBack_csr h (by decide) (by decide) a.code_lt fun w hp hd ha hz hcsr => by
      simp [decCsr, hp, hd, ha, hz, hcsr]
  | trap => exact readBack_trap h
  | rett => exact readBack_bare (sel := 1) h (by decide) fun w hz hs => by simp [decTrap, hz, hs]
  | ecall => exact readBack_bare (sel := 2) h (by decide) fun w hz hs => by simp [decTrap, hz, hs]
  | ebreak => exact readBack_bare (sel := 3) h (by decide) fun w hz hs => by simp [decTrap, hz, hs]
  | _ => cases h
end

end Sys2Proof
end

section
/-!
Encoding and decoding agree (O46, O47, O48): from words to bytes (R63).
-/
set_option Elab.async false
namespace Sys2Proof

theorem limits_eq_ok {i j : Instr} : limits i = .ok j ↔ i = j ∧ wellFormed i = true := by
  unfold limits
  split <;> simp [*]

theorem bind_limits_eq_ok {x : Dec Instr} {i : Instr} : (x >>= limits) = .ok i ↔ x = .ok i ∧ wellFormed i = true := by
  rw [bind_eq_ok]
  simp only [limits_eq_ok]
  exact ⟨fun ⟨j, hj, e, hwf⟩ => e ▸ ⟨hj, hwf⟩, fun ⟨hi, hwf⟩ => ⟨i, hi, rfl, hwf⟩⟩

theorem decodeWord_odd {w : Nat} {i : Instr} (h : w % 2 = 1) :
    decodeWord w = .ok i ↔ decMajor w = .ok i ∧ wellFormed i = true := by
  rw [decodeWord, if_pos h]
  exact bind_limits_eq_ok

theorem decodeWord_even {w : Nat} {i : Instr} (h : w % 2 = 0) (hlt : w < 65536) :
    decodeWord w = .ok i ↔ dec16 w = .ok i ∧ wellFormed i = true := by
  rw [decodeWord, if_neg (by omega), Nat.mod_eq_of_lt hlt]
  exact bind_limits_eq_ok

section
variable {b0 b1 : Byte} {rest tail : List Byte} {i : Instr}

/-- A halfword whose bit 0 is 0 is a whole instruction (R63). -/
theorem decode_even_eq_ok (h : (b0.toNat + 256 * b1.toNat) % 2 = 0) :
    decode (b0 :: b1 :: tail) = .ok (i, rest) ↔
      (dec16 (b0.toNat + 256 * b1.toNat) = .ok i ∧ wellFormed i = true) ∧ tail = rest := by
  simp only [decode, h, if_true, bind_eq_ok, decodeWord_even h (by omega), Except.ok.injEq, Prod.mk.injEq]
  exact ⟨fun ⟨j, hj, e, ht⟩ => e ▸ ⟨hj, ht⟩, fun ⟨hi, ht⟩ => ⟨i, hi, rfl, ht⟩⟩

/-- A halfword whose bit 0 is 1 is an instruction with the one that follows it (R63). -/
theorem decode_odd_eq_ok {b2 b3 : Byte} (h : (b0.toNat + 256 * b1.toNat) % 2 = 1) :
    decode (b0 :: b1 :: b2 :: b3 :: tail) = .ok (i, rest) ↔
      (decMajor (b0.toNat + 256 * b1.toNat + 65536 * (b2.toNat + 256 * b3.toNat)) = .ok i ∧ wellFormed i = true) ∧
      tail = rest := by
  have hodd : (b0.toNat + 256 * b1.toNat + 65536 * (b2.toNat + 256 * b3.toNat)) % 2 = 1 := by omega
  simp only [decode, h, Nat.one_ne_zero, if_false, bind_eq_ok, decodeWord_odd hodd, Except.ok.injEq, Prod.mk.injEq]
  exact ⟨fun ⟨j, hj, e, ht⟩ => e ▸ ⟨hj, ht⟩, fun ⟨hi, ht⟩ => ⟨i, hi, rfl, ht⟩⟩

theorem leBytes2 (b0 b1 : Byte) : leBytes 2 (b0.toNat + 256 * b1.toNat) = [b0, b1] := by
  simp only [leBytes, List.cons.injEq, and_true]
  constructor
  all_goals
    apply BitVec.eq_of_toNat_eq
    simp only [BitVec.toNat_ofNat]
    omega

theorem leBytes4 (b0 b1 b2 b3 : Byte) :
    leBytes 4 (b0.toNat + 256 * b1.toNat + 65536 * (b2.toNat + 256 * b3.toNat)) = [b0, b1, b2, b3] := by
  simp only [leBytes, List.cons.injEq, and_true]
  refine ⟨?_, ?_, ?_, ?_⟩
  all_goals
    apply BitVec.eq_of_toNat_eq
    simp only [BitVec.toNat_ofNat]
    omega

theorem decode_leBytes2 {w : Nat} (heven : w % 2 = 0) (hlt : w < 2 ^ 16) (h : dec16 w = .ok i)
    (hwf : wellFormed i = true) : decode (leBytes 2 w ++ rest) = .ok (i, rest) := by
  have hw : (BitVec.ofNat 8 w).toNat + 256 * (BitVec.ofNat 8 (w / 256)).toNat = w := by
    simp only [BitVec.toNat_ofNat]; omega
  refine (decode_even_eq_ok ?_).2 ⟨⟨?_, hwf⟩, rfl⟩ <;> rw [hw]
  · exact heven
  · exact h

theorem decode_leBytes4 {w : Nat} (hodd : w % 2 = 1) (hlt : w < 2 ^ 32) (h : decMajor w = .ok i)
    (hwf : wellFormed i = true) : decode (leBytes 4 w ++ rest) = .ok (i, rest) := by
  have hw : (BitVec.ofNat 8 w).toNat + 256 * (BitVec.ofNat 8 (w / 256)).toNat +
      65536 * ((BitVec.ofNat 8 (w / 256 / 256)).toNat + 256 * (BitVec.ofNat 8 (w / 256 / 256 / 256)).toNat) = w := by
    simp only [BitVec.toNat_ofNat]; omega
  refine (decode_odd_eq_ok ?_).2 ⟨⟨?_, hwf⟩, rfl⟩
  · simp only [BitVec.toNat_ofNat]; omega
  · rw [hw]; exact h

end

/-- Settles O47: the decoder reads each instruction back, by its format, from the bits that encode it. -/
theorem encodedInstructionsDecode : Obligations.EncodedInstructionsDecode := by
  unfold Obligations.EncodedInstructionsDecode
  intro i e rest he hwf
  rcases readBack_of_encode he hwf with ⟨hn, hodd, hlt, h⟩ | ⟨hn, heven, hlt, h⟩
  · rw [hn]; exact decode_leBytes4 hodd hlt h hwf
  · rw [hn]; exact decode_leBytes2 heven hlt h hwf

/-- Settles O46: each instruction encodes to its word, and so is read back from it. -/
theorem instructionWords : Obligations.InstructionWords := by
  unfold Obligations.InstructionWords
  intro e he
  have encodes : encode e.2 = some ⟨32, e.1⟩ ∧ wellFormed e.2 = true := by revert e; decide
  simpa using encodedInstructionsDecode e.2 _ [] encodes.1 encodes.2

/-- Settles O48: whatever branch the decoder takes, the bits it has checked and read are all of the word. -/
theorem decodedBytesReencode : Obligations.DecodedBytesReencode := by
  unfold Obligations.DecodedBytesReencode
  intro bs rest i h
  rcases bs with _ | ⟨b0, _ | ⟨b1, tail⟩⟩
  · cases h
  · cases h
  by_cases hbit : (b0.toNat + 256 * b1.toNat) % 2 = 0
  · obtain ⟨⟨hread, hwf⟩, rfl⟩ := (decode_even_eq_ok hbit).1 h
    exact ⟨hwf, _, encode_of_dec16 hbit (by omega) hread, by simp [leBytes2]⟩
  · rcases tail with _ | ⟨b2, _ | ⟨b3, tail⟩⟩
    · simp [decode, hbit] at h
    · simp [decode, hbit] at h
    obtain ⟨⟨hread, hwf⟩, rfl⟩ := (decode_odd_eq_ok (by omega)).1 h
    exact ⟨hwf, _, encode_of_decMajor (by omega) (by omega) hread, by simp [leBytes4]⟩

end Sys2Proof
end

section
/-!
A step runs what the bytes at the PC decode to (O49): the fetch (R63), and the choice among the ready strands (R205).
-/
set_option Elab.async false
namespace Sys2Proof.Machine

/-! ## Fetch -/

/-- A fetch that reads memory as it is now (log 5): the halfword of the two bytes, and nothing kept. -/
theorem fetchHalf_now {s t : State} {va x : W64} {ref : Ref} (hs : s.lazy = false)
    (haddr : checkAddr s (fetchWho s) .fetch true va = .ok ref t)
    (hword : strandWord t t.cur (me t).uid t.nextSeq (wordOf ref.loc) ref.key (byteMask (ref.loc % 8) 2) = some (x, false))
    (ht : t.lazy = false) :
    fetchHalf s va = .ok ((byteAt x (ref.loc % 8)).toNat + 256 * (byteAt x ((ref.loc + 1) % 8)).toNat, t) := by
  unfold fetchHalf
  rw [hs, Bool.not_false, haddr]
  dsimp only
  rw [hword]
  simp [fetchedHalf, keepFetched, ht]

theorem fetchWord_half {s t : State} {h : Nat} (hfetch : fetchHalf s (me s).pc = .ok (h, t)) (heven : h % 2 = 0) :
    fetchWord s = .ok ((h, 2), t) := by
  simp [fetchWord, hfetch, instrLength, heven]

theorem fetchWord_word {s t u : State} {h h2 : Nat} (hfetch : fetchHalf s (me s).pc = .ok (h, t)) (hodd : h % 2 = 1)
    (hsecond : fetchHalf t ((me t).pc + 2) = .ok (h2, u)) : fetchWord s = .ok ((h + 65536 * h2, 4), u) := by
  simp only [fetchWord, hfetch, instrLength, hodd, if_true, hsecond]
  rfl

theorem attempt_decoded {s t : State} {w len : Nat} {op : Instr} {more : List Byte}
    (hfetch : fetchWord s = .ok ((w, len), t)) (hdec : decode (leBytes len w) = .ok (op, more)) :
    attempt s = exec op t := by
  simp only [attempt, hfetch, hdec]

/-! ## The choice -/

theorem mem_of_nextSlot {l : List Slot} {last i : Slot} (h : nextSlot l last = some i) : i ∈ l := by
  simpa using List.find?_some h

/-- The chosen strand is one of those that are offered. -/
theorem mem_of_choose {s : State} {c : CoreId} {l : List Slot} {i : Slot} {cls : Bool} {y : Option Slot}
    (h : choose s c l = some (i, cls, y)) : i ∈ l := by
  unfold choose at h
  extract_lets k high low cls' mine at h
  have hmine : mine ⊆ l := by
    show (if cls' then high else low) ⊆ l
    split
    · exact fun _ hx => List.mem_of_mem_filter hx
    · exact fun _ hx => List.mem_of_mem_filter hx
  split at h
  · cases h
  next hnext =>
  split at h
  · split at h
    · next hother =>
      obtain ⟨rfl, -⟩ := Prod.mk.inj (Option.some.inj h)
      exact hmine (mem_of_nextSlot hother)
    · obtain ⟨rfl, -⟩ := Prod.mk.inj (Option.some.inj h)
      exact hmine (mem_of_nextSlot hnext)
  · obtain ⟨rfl, -⟩ := Prod.mk.inj (Option.some.inj h)
    exact hmine (mem_of_nextSlot hnext)

/-- What an eligible slot would do is what its attempt answers. -/
theorem eligible_snd {s : State} {c : CoreId} {lz : Bool} {e : Slot × Answer} (h : e ∈ eligible s c lz) :
    e.2 = attempt { s with cur := c, slot := e.1, lazy := lz } := by
  obtain ⟨x, -, hx⟩ := List.mem_filterMap.1 h
  dsimp only at hx
  split at hx
  · cases hx; rfl
  · cases hx

theorem eligible_find {s : State} {c : CoreId} {lz : Bool} {i : Slot}
    (h : i ∈ (eligible s c lz).map fun e => e.1) :
    (eligible s c lz).find? (fun e => e.1 == i) = some (i, attempt { s with cur := c, slot := i, lazy := lz }) := by
  cases hfind : (eligible s c lz).find? fun e => e.1 == i with
  | none =>
    obtain ⟨e, he, rfl⟩ := List.mem_map.1 h
    simpa using List.find?_eq_none.1 hfind e he
  | some e =>
    have hi : e.1 = i := by simpa using List.find?_some hfind
    have ho := eligible_snd (List.mem_of_find?_eq_some hfind)
    subst hi
    rw [← ho]

@[simp] theorem coreOf_openRaised (s : State) (c d : CoreId) : coreOf (openRaised s c) d = coreOf s d := by
  unfold openRaised
  dsimp only
  split <;> rfl

/-- An issue whose chosen strand goes on (R205). -/
theorem issueOn_chosen {s v : State} {c : CoreId} {lz cls : Bool} {i : Slot} {y : Option Slot}
    (hfrozen : (coreOf s c).frozen = none) (hhalted : (coreOf s c).halted = false)
    (hchoose : choose (openRaised s c) c ((eligible (openRaised s c) c lz).map fun e => e.1) = some (i, cls, y))
    (hnext : attempt { openRaised s c with cur := c, slot := i, lazy := lz } = .next v) :
    issueOn c lz s = .next (closeRaised (noteIssue v c i cls
      (((eligible (openRaised s c) c lz).map fun e => e.1).any fun j => !classOf (openRaised s c) c j) y) c) := by
  have hfind := eligible_find (mem_of_choose hchoose)
  rw [hnext] at hfind
  simp only [issueOn, coreOf_openRaised, hfrozen, hhalted, Option.isSome_none, Bool.false_eq_true, if_false, hchoose, hfind]

theorem step_issue {s : State} {c : CoreId} {lz : Bool} {rest : List Turn} (hturns : s.turns = .issue c lz :: rest)
    (hcore : coreExists c = true) (hready : s.dev.ready = true) :
    step s = issueOn c lz { s with freeCtr := s.freeCtr + 1, turns := rest } := by
  simp [step, hturns, turn, turnExists, hcore, takeTurn, hready]

/-- Settles O49, from the fetch of one halfword or two and the choice among the strands whose attempts find them ready. -/
theorem stepRunsTheDecodedInstruction : Obligations.StepRunsTheDecodedInstruction := by
  unfold Obligations.StepRunsTheDecodedInstruction
  intro c lz cls i y rest op more w h h2 len s t u v ref ref2 x x2
  refine ⟨attempt_decoded, fun hs haddr hword hh ht => ?_, fun hturns hcore hready hfrozen hhalted hchoose hnext => ?_⟩
  · have hfirst : fetchHalf s (me s).pc = .ok (h, t) := hh ▸ fetchHalf_now hs haddr hword ht
    refine ⟨fetchWord_half hfirst, fun hodd haddr2 hword2 hh2 hu => fetchWord_word hfirst hodd ?_⟩
    exact hh2 ▸ fetchHalf_now ht haddr2 hword2 hu
  · exact (step_issue hturns hcore hready).trans (issueOn_chosen hfrozen hhalted hchoose hnext)

end Sys2Proof.Machine
end

section
/-!
The checks of privilege come before the operands (O29).
-/
set_option Elab.async false
namespace Sys2Proof.Machine

/-- A user strand names no supervisor CSR (R13, R81). -/
theorem csrChecked_supervisor {n : Nat} {op : CsrOp} {i : Instr} {s : State} {k : State → Answer}
    (huser : (me s).super = false) (hn : n.testBit 11 = true) :
    csrChecked n op i s k = .next (takeTrap (ready s) 4 0x02 (instrWord i)) := by
  rw [csrChecked, if_pos (by simp [hn, huser])]

/-- No strand names an unassigned CSR (R14). -/
theorem csrChecked_unassigned {n : Nat} {op : CsrOp} {i : Instr} {s : State} {k : State → Answer}
    (hn : n.testBit 11 = false) (hclass : csrClass n = .unassigned) :
    csrChecked n op i s k = .next (takeTrap (ready s) 4 0x01 (instrWord i)) := by
  have hallows : csrAllows n op = false := by unfold csrAllows; rw [hclass]
  rw [csrChecked, if_neg (by simp [hn]), if_neg (by simp [hallows])]

theorem privileged_user {s : State} {i : Instr} {k : State → Answer} (huser : (me s).super = false) :
    privileged s i k = .next (takeTrap (ready s) 4 0x02 (instrWord i)) := by
  rw [privileged, if_neg (by simp [huser])]

/-- What the checks of R81 decide whatever follows them is the outcome of CSRR. -/
theorem execCsrr_of_checked {d : SReg} {csr : BitVec 12} {s : State} {o : Answer}
    (h : ∀ k, csrChecked csr.toNat .read (.csrr d csr) s k = o) : execCsrr d csr s = o := by
  unfold execCsrr
  exact h _

/-- What the checks of R81 decide whatever follows them is the outcome of a CSR write. -/
theorem csrModify_of_checked {op : CsrOp} {csr : BitVec 12} {a : SReg} {i : Instr} {s : State} {o : Answer}
    (h : ∀ k, csrChecked csr.toNat op i s k = o) : csrModify op csr a i s = o := h _

/-- Settles O29, from the checks that come before the operands. -/
theorem privilegeTraps : Obligations.PrivilegeTraps := by
  unfold Obligations.PrivilegeTraps
  intro p d csr s huser
  have hrett : execRett p s = .next (takeTrap (ready s) 4 0x02 (instrWord (.rett p))) := privileged_user huser
  refine ⟨fun hn => ?_, hrett, fun hn hclass => ?_⟩
  · have modify (op : CsrOp) (i : Instr) : csrModify op csr d i s = .next (takeTrap (ready s) 4 0x02 (instrWord i)) :=
      csrModify_of_checked fun _ => csrChecked_supervisor huser hn
    exact ⟨execCsrr_of_checked fun _ => csrChecked_supervisor huser hn, modify .write _, modify .set _, modify .clear _⟩
  · have modify (op : CsrOp) (i : Instr) : csrModify op csr d i s = .next (takeTrap (ready s) 4 0x01 (instrWord i)) :=
      csrModify_of_checked fun _ => csrChecked_unassigned hn hclass
    exact ⟨execCsrr_of_checked fun _ => csrChecked_unassigned hn hclass, modify .write _, modify .set _, modify .clear _⟩

end Sys2Proof.Machine
end

section
/-!
Register operations, masks, branches and jumps (O1 to O4): one lemma per shape of an instruction says what it answers when
its operands are at hand; what is left of each instruction is a fact about words.
-/
namespace Sys2Proof.Machine

/-! ## The shapes of register operations -/

section
variable {p : Pred} {d a b : SReg} {s : State}

theorem op3_answer (hon : predOn s p = true) (h : Operable (ready s) { srcS := [a, b], dstS := [d] })
    {f : W64 → W64 → W64} {v : W64} (hv : f (readS (ready s) a) (readS (ready s) b) = v) :
    op3 p d a b f s = .next (retired (ready s) (writeS (ready s) d v) { srcS := [a, b], dstS := [d] }) :=
  compute_next hon h (by rw [hv]) (by simp)

theorem op2_answer (hon : predOn s p = true) (h : Operable (ready s) { srcS := [a], dstS := [d] })
    {f : W64 → W64} {v : W64} (hv : f (readS (ready s) a) = v) :
    op2 p d a f s = .next (retired (ready s) (writeS (ready s) d v) { srcS := [a], dstS := [d] }) :=
  compute_next hon h (by rw [hv]) (by simp)

end

/-! ## Words -/

theorem shamt_eq (y : W64) : shamt y = y.toNat % 64 := by simp [shamt, bits]

theorem boolW_eq (c : Prop) [Decidable c] : boolW (decide c) = if c then 1 else 0 := by
  by_cases h : c <;> simp [boolW, h]

theorem slt_eq_decide (x y : W64) : x.slt y = decide (x.toInt < y.toInt) := rfl

theorem ult_eq_decide (x y : W64) : x.ult y = decide (x.toNat < y.toNat) := rfl

theorem rotateLeft_eq (x : W64) {n : Nat} (h : n < 64) : x.rotateLeft n = (x <<< n) ||| (x >>> (64 - n)) := by
  rw [BitVec.rotateLeft, BitVec.rotateLeftAux, Nat.mod_eq_of_lt h]

theorem rotateRight_eq (x : W64) {n : Nat} (h : n < 64) : x.rotateRight n = (x >>> n) ||| (x <<< (64 - n)) := by
  rw [BitVec.rotateRight, BitVec.rotateRightAux, Nat.mod_eq_of_lt h]

/-- The lesser of two signed words, by their numbers (R104). -/
theorem signed_min (x y : W64) : (if x.slt y then x else y) = BitVec.ofInt 64 (min x.toInt y.toInt) := by
  rw [slt_eq_decide]
  by_cases h : x.toInt < y.toInt
  · simp [h, min_eq_left h.le]
  · simp [h, min_eq_right (not_lt.1 h)]

theorem signed_max (x y : W64) : (if x.slt y then y else x) = BitVec.ofInt 64 (max x.toInt y.toInt) := by
  rw [slt_eq_decide]
  by_cases h : x.toInt < y.toInt
  · simp [h, max_eq_right h.le]
  · simp [h, max_eq_left (not_lt.1 h)]

theorem unsigned_min (x y : W64) : (if x < y then x else y) = BitVec.ofNat 64 (min x.toNat y.toNat) := by
  by_cases h : x.toNat < y.toNat
  · simp [BitVec.lt_def, h, min_eq_left h.le]
  · simp [BitVec.lt_def, h, min_eq_right (not_lt.1 h)]

theorem unsigned_max (x y : W64) : (if x < y then y else x) = BitVec.ofNat 64 (max x.toNat y.toNat) := by
  by_cases h : x.toNat < y.toNat
  · simp [BitVec.lt_def, h, max_eq_right h.le]
  · simp [BitVec.lt_def, h, max_eq_left (not_lt.1 h)]

/-- Each bit of a LOP3 result is the bit of the table that the three operand bits name (R107). -/
theorem lop3Bits_getLsbD {w j : Nat} (table : BitVec 8) (c x y : BitVec w) (hj : j < w) :
    (lop3Bits table c x y).getLsbD j =
      table.getLsbD (4 * (y.getLsbD j).toNat + 2 * (x.getLsbD j).toNat + (c.getLsbD j).toNat) := by
  have pick (i : Nat) (z : BitVec w) : (if bit table i then z else 0).getLsbD j = (table.getLsbD i && z.getLsbD j) := by
    unfold bit; cases table.getLsbD i <;> simp
  simp only [lop3Bits, BitVec.getLsbD_or, pick, BitVec.getLsbD_and, BitVec.getLsbD_not, hj, decide_true, Bool.true_and]
  cases y.getLsbD j <;> cases x.getLsbD j <;> cases c.getLsbD j <;> simp

/-- Settles O1, shape by shape: two sources, the old destination besides, and an immediate. -/
theorem integerOperations : Obligations.IntegerOperations := by
  unfold Obligations.IntegerOperations
  refine ⟨?_, ?_, ?_⟩
  · intro p d a b s hon ho r x y n put
    have three {f : W64 → W64 → W64} {v : W64} (hv : f x y = v) : op3 p d a b f s = put v := op3_answer hon ho hv
    have hn : shamt y = n := shamt_eq y
    have h64 : n < 64 := Nat.mod_lt _ (by decide)
    clear_value put n x y
    exact ⟨three rfl, three rfl, three rfl, three rfl, three rfl,
      three (f := fun x y => x &&& ~~~y) rfl,
      three (f := fun x y => x ||| ~~~y) rfl,
      three (f := fun x y => x <<< shamt y) (by rw [hn]),
      three (f := fun x y => x >>> shamt y) (by rw [hn]),
      three (f := fun x y => x.sshiftRight (shamt y)) (by rw [hn]),
      three (f := fun x y => x.rotateLeft (shamt y)) (by rw [hn, rotateLeft_eq x h64]),
      three (f := fun x y => x.rotateRight (shamt y)) (by rw [hn, rotateRight_eq x h64]),
      three (f := fun x y => if x.slt y then x else y) (signed_min x y),
      three (f := fun x y => if x.slt y then y else x) (signed_max x y),
      three (f := fun x y => if x < y then x else y) (unsigned_min x y),
      three (f := fun x y => if x < y then y else x) (unsigned_max x y),
      three (f := fun x y => boolW (x.slt y)) (boolW_eq (x.toInt < y.toInt)),
      three (f := fun x y => boolW (x.ult y)) (boolW_eq (x.toNat < y.toNat)),
      three (f := fun x y => boolW (x == y)) (boolW_eq (x = y)),
      three (f := fun x y => boolW (x != y)) (by by_cases h : x = y <;> simp [boolW, h])⟩
  · intro p d a b table s hon ho r c x y put
    refine ⟨compute_next hon ho ?_ (by simp [r]), lop3Bits table c x y, compute_next hon ho rfl (by simp [r]),
      fun j hj => lop3Bits_getLsbD table c x y hj⟩
    show Except.ok (setG r d (if c ≠ 0 then x else y)) = Except.ok (setG r d (if c = 0 then y else x))
    rw [ite_not]
  · intro p d a imm sh s hon ho r x i n put
    have two {f : W64 → W64} {v : W64} (hv : f x = v) : op2 p d a f s = put v := op2_answer hon ho hv
    clear_value put x
    exact ⟨two (f := (· + i)) rfl, two (f := (· &&& i)) rfl, two (f := (· ||| i)) rfl, two (f := (· ^^^ i)) rfl,
      two (f := fun x => boolW (x.slt i)) (boolW_eq (x.toInt < i.toInt)),
      two (f := fun x => boolW (x.ult i)) (boolW_eq (x.toNat < i.toNat)),
      two (f := (· <<< n)) rfl, two (f := (· >>> n)) rfl, two (f := (·.sshiftRight n)) rfl,
      two (f := (·.rotateLeft n)) (rotateLeft_eq x sh.isLt)⟩

/-! ## Funnel shifts, products and quotients (R108, R109) -/

theorem append_toNat (x y : W64) : (x ++ y).toNat = x.toNat * 2 ^ 64 + y.toNat := by
  rw [BitVec.toNat_append, Nat.shiftLeft_eq, Nat.mul_comm, Nat.two_pow_add_eq_or_of_lt y.isLt]

theorem funnelLeft_eq (x y : W64) (n : Nat) :
    funnelLeft x y n = BitVec.ofNat 64 ((x.toNat * 2 ^ 64 + y.toNat) * 2 ^ n / 2 ^ 64) := by
  apply BitVec.eq_of_toNat_eq
  rw [funnelLeft, BitVec.extractLsb'_toNat, BitVec.toNat_shiftLeft, append_toNat, BitVec.toNat_ofNat, Nat.shiftLeft_eq,
    Nat.shiftRight_eq_div_pow, show 2 ^ (64 + 64) = 2 ^ 64 * 2 ^ 64 from rfl, Nat.mod_mul_right_div_self, Nat.mod_mod]

theorem funnelRight_eq (x y : W64) (n : Nat) :
    funnelRight x y n = BitVec.ofNat 64 ((x.toNat * 2 ^ 64 + y.toNat) / 2 ^ n) := by
  apply BitVec.eq_of_toNat_eq
  rw [funnelRight, BitVec.extractLsb'_toNat, BitVec.toNat_ushiftRight, append_toNat, BitVec.toNat_ofNat, Nat.shiftRight_zero,
    Nat.shiftRight_eq_div_pow]

theorem mul_eq_ofInt (x y : W64) : x * y = BitVec.ofInt 64 (x.toInt * y.toInt) := by
  rw [BitVec.ofInt_mul, BitVec.ofInt_toInt, BitVec.ofInt_toInt]

theorem divU_eq (x y : W64) :
    divU x y = if y = 0 then 0xFFFFFFFFFFFFFFFF else BitVec.ofNat 64 (x.toNat / y.toNat) := by
  rw [divU, ← BitVec.toNat_udiv, BitVec.ofNat_toNat, BitVec.setWidth_eq]; rfl

theorem remU_eq (x y : W64) : remU x y = if y = 0 then x else BitVec.ofNat 64 (x.toNat % y.toNat) := by
  rw [remU, ← BitVec.toNat_umod, BitVec.ofNat_toNat, BitVec.setWidth_eq]

/-- The one quotient that overflows (R109). -/
theorem divS_overflow : divS 0x8000000000000000 0xFFFFFFFFFFFFFFFF = 0x8000000000000000 := by decide

theorem remS_overflow : remS 0x8000000000000000 0xFFFFFFFFFFFFFFFF = 0 := by decide

theorem divS_zero (x : W64) : divS x 0 = 0xFFFFFFFFFFFFFFFF := if_pos rfl
theorem divU_zero (x : W64) : divU x 0 = 0xFFFFFFFFFFFFFFFF := if_pos rfl
theorem remS_zero (x : W64) : remS x 0 = x := if_pos rfl
theorem remU_zero (x : W64) : remU x 0 = x := if_pos rfl

/-- Settles O2: each result by its own fact about words, and the corners from what the divisions give there. -/
theorem multiplyDivideAndFunnelShifts : Obligations.MultiplyDivideAndFunnelShifts := by
  unfold Obligations.MultiplyDivideAndFunnelShifts
  refine ⟨?_, ?_⟩
  · intro p d a b sh s hon ho r x y wide put
    have three {f : W64 → W64 → W64} {v : W64} (hv : f x y = v) : op3 p d a b f s = put v := op3_answer hon ho hv
    clear_value put
    exact ⟨three (f := (funnelLeft · · sh.toNat)) (funnelLeft_eq x y sh.toNat),
      three (f := (funnelRight · · sh.toNat)) (funnelRight_eq x y sh.toNat),
      three (f := (· * ·)) (mul_eq_ofInt x y), three (f := mulHigh) rfl, three (f := mulHighU) rfl,
      three (f := divS) rfl, three (f := divU) (divU_eq x y), three (f := remS) rfl, three (f := remU) (remU_eq x y)⟩
  · intro p d a b s hon ho r put
    have three {f : W64 → W64 → W64} {v : W64} (hv : f (readS r a) (readS r b) = v) : op3 p d a b f s = put v :=
      op3_answer hon ho hv
    clear_value put
    refine ⟨fun ha hb => ?_, fun hb => ?_⟩
    · rw [ha, hb] at three
      exact ⟨three (f := divS) divS_overflow, three (f := remS) remS_overflow⟩
    · rw [hb] at three
      exact ⟨three (f := divS) (divS_zero _), three (f := divU) (divU_zero _), three (f := remS) (remS_zero _),
        three (f := remU) (remU_zero _)⟩

/-! ## Bits counted and moved (R110) -/

/-- Above its bit length a number has no bit set, and the bit below it is set. -/
theorem testBit_bitLen (x : Nat) :
    (∀ j, bitLen x ≤ j → x.testBit j = false) ∧ (bitLen x ≠ 0 → x.testBit (bitLen x - 1) = true) := by
  by_cases h : x = 0
  · subst h; simp [bitLen]
  · rw [bitLen, if_neg h]
    exact ⟨fun j hj => Nat.testBit_lt_two_pow ((Nat.log2_lt h).1 hj), fun _ => Nat.testBit_log2 h⟩

/-- The count of CTZ, among the lowest n bits: all below it are clear, and where it stops a bit is set. -/
theorem countTrailingFrom_spec (x n : Nat) : countTrailingFrom x n ≤ n ∧
    (∀ j, j < countTrailingFrom x n → x.testBit j = false) ∧
    (countTrailingFrom x n < n → x.testBit (countTrailingFrom x n) = true) := by
  induction n generalizing x with
  | zero => simp [countTrailingFrom]
  | succ n ih =>
    obtain ⟨hle, hbelow, hstop⟩ := ih (x / 2)
    rw [countTrailingFrom]
    split
    · next hodd => simp [Nat.testBit_zero, hodd]
    · next heven =>
      refine ⟨by omega, fun j hj => ?_, fun h => ?_⟩
      · cases j with
        | zero => simp [Nat.testBit_zero]; omega
        | succ j => rw [Nat.testBit_succ]; exact hbelow j (by omega)
      · rw [Nat.add_comm, Nat.testBit_succ]; exact hstop (by omega)

/-- The number of set bits counts the positions that are set. -/
theorem popcount_eq (n x : Nat) : popcount n x = ((List.range n).filter fun j => x.testBit j).length := by
  induction n generalizing x with
  | zero => rfl
  | succ n ih =>
    have hrest : ((fun j => x.testBit j) ∘ Nat.succ) = fun j => (x / 2).testBit j := by
      funext j; exact Nat.testBit_succ x j
    rw [popcount, ih, List.range_succ_eq_map, List.filter_cons, List.filter_map, hrest, Nat.testBit_zero]
    rcases Nat.mod_two_eq_zero_or_one x with h | h <;> simp [h, Nat.add_comm]

/-- Lanes put side by side, bit by bit. -/
theorem lanesOf_getLsbD {v w n k : Nat} (f : Nat → BitVec w) (hw : 0 < w) (hk : k < v) :
    (lanesOf v w f n).getLsbD k = (decide (k / w < n) && (f (k / w)).getLsbD (k % w)) := by
  induction n with
  | zero => simp [lanesOf]
  | succ n ih =>
    rw [lanesOf, BitVec.getLsbD_or, ih, BitVec.getLsbD_shiftLeft, BitVec.getLsbD_setWidth, decide_eq_true hk]
    rcases Nat.lt_trichotomy (k / w) n with hlt | heq | hgt
    · have : k < n * w := (Nat.div_lt_iff_lt_mul hw).1 hlt
      simp [this, hlt, Nat.lt_succ_of_lt hlt]
    · have hsub : k - n * w = k % w := by rw [← heq, Nat.mul_comm, ← Nat.mod_eq_sub_mul_div]
      have hle : ¬ k < n * w := by rw [← heq]; exact not_lt.2 (Nat.div_mul_le_self k w)
      simp [heq, hsub, hle, show k % w < v from lt_of_le_of_lt (Nat.mod_le k w) hk]
    · have hle : (n + 1) * w ≤ k := (Nat.le_div_iff_mul_le hw).1 hgt
      have hout : (f n).getLsbD (k - n * w) = false :=
        BitVec.getLsbD_of_ge _ _ (by rw [Nat.add_mul] at hle; omega)
      simp [hout, show ¬ k / w < n by omega, show ¬ k / w < n + 1 by omega]

theorem bitReverse_getLsbD (x : W64) {j : Nat} (hj : j < 64) : (bitReverse x).getLsbD j = x.getLsbD (63 - j) := by
  rw [bitReverse, lanesOf_getLsbD _ (by decide) hj]
  simp [lane, hj, Nat.mod_one]

theorem byteSwap_getLsbD (x : W64) {j k : Nat} (hj : j < 8) (hk : k < 8) :
    (byteSwap x).getLsbD (8 * j + k) = x.getLsbD (8 * (7 - j) + k) := by
  rw [byteSwap, lanesOf_getLsbD _ (by decide) (by omega), show (8 * j + k) / 8 = j by omega,
    show (8 * j + k) % 8 = k by omega]
  simp [lane, hj, hk, Nat.mul_comm]

/-- A word under a mask of its low n bits is its low n bits, zero-extended. -/
theorem and_low_bits (x m : W64) {n : Nat} (hm : ∀ j, j < 64 → m.getLsbD j = decide (j < n)) :
    x &&& m = (x.setWidth n).setWidth 64 := by
  apply BitVec.eq_of_getLsbD_eq
  intro j hj
  rw [BitVec.getLsbD_and, hm j hj, BitVec.getLsbD_setWidth, BitVec.getLsbD_setWidth, Bool.and_comm]
  simp [hj]

/-- Settles O3: each count and each rearrangement by its bits, the masks by the one body of their shape. -/
theorem bitAndMaskOperations : Obligations.BitAndMaskOperations := by
  unfold Obligations.BitAndMaskOperations
  refine ⟨?_, ?_⟩
  · intro p d a s hon ho r x put
    have two {f : W64 → W64} {v : W64} (hv : f x = v) : op2 p d a f s = put v := op2_answer hon ho hv
    clear_value put
    have hlen : bitLen x.toNat ≤ 64 := bitLen_le x.isLt
    obtain ⟨habove, htop⟩ := testBit_bitLen x.toNat
    obtain ⟨hle, hbelow, hstop⟩ := countTrailingFrom_spec x.toNat 64
    refine ⟨⟨64 - bitLen x.toNat, by omega, two (f := countLeading) rfl, fun j hj => habove j (by omega), fun h => ?_⟩,
      ⟨countTrailingFrom x.toNat 64, hle, two (f := countTrailing) rfl, hbelow, hstop⟩,
      two (f := populationCount) (congrArg (BitVec.ofNat 64) (popcount_eq 64 x.toNat)),
      ⟨bitReverse x, two (f := bitReverse) rfl, fun j hj => bitReverse_getLsbD x hj⟩,
      ⟨byteSwap x, two (f := byteSwap) rfl, fun j k hj hk => byteSwap_getLsbD x hj hk⟩,
      two (f := (sext · 8 64)) rfl, two (f := (sext · 16 64)) rfl, two (f := (sext · 32 64)) rfl,
      two (f := (· &&& 0xFF)) (and_low_bits x _ (by decide)),
      two (f := (· &&& 0xFFFF)) (and_low_bits x _ (by decide)),
      two (f := (· &&& 0xFFFFFFFF)) (and_low_bits x _ (by decide))⟩
    have := htop (by omega)
    rwa [show bitLen x.toNat - 1 = 63 - (64 - bitLen x.toNat) by omega] at this
  · intro p d a e f h imm s r u
    refine ⟨fun ho => ⟨compute_next rfl ho rfl (by simp [r]), compute_next rfl ho rfl (by simp [r]),
        fun hon => compute_next hon ho rfl (by simp [r])⟩,
      fun ho hon => compute_next hon ho rfl (by simp [r]), fun hon => ?_⟩
    have mask (v : State → W32) : compute s (predOn s p) {} (fun s => .ok (setM s e (v s))) =
        .next (advance (setM r e (v r)) 4) := compute_next hon (operable_nothing r) rfl (by simp [r])
    exact ⟨mask fun s => getM s f &&& getM s h, mask fun s => getM s f ||| getM s h, mask fun s => ~~~ getM s f⟩

/-! ## Branches and jumps (R112, R113) -/

/-- A trap leaves the requests in flight of a strand that is no service strand. -/
theorem takeTrap_inflight {s : State} {len : Nat} {c : Byte} {v : W64} {wr : Bool} (hkind : (me s).kind ≠ .service) :
    (me (takeTrap s len c v wr)).inflight = (me s).inflight := by
  rw [takeTrap, if_neg hkind]
  split
  · rw [postAndWait, if_neg (show (strandAt s s.cur s.slot).kind ≠ .service from hkind)]
    show (me (modMe (postFault s _ _) _)).inflight = _
    rw [me_modMe, me_postFault]
  · rw [me_modMe]

/-- A JALR to an odd target raises cause 0x03; the word blocks that an instruction at the PC has asked for are dropped. -/
theorem exec_jalr_odd {p : Pred} {d : SReg} {a : GReg} {imm : BitVec 13} {s : State} (hon : predOn s p = true)
    (hodd : (getG s a + imm.signExtend 64).getLsbD 0 = true) (h : Operable (ready s) { srcS := [.g a], dstS := [d] }) :
    exec (.jalr p d a imm) s = .next (takeTrap (dropBlocks (ready s)) 4 0x03 (getG s a + imm.signExtend 64)) := by
  have hmis : (if bit (getG s a + sext13 imm) 0 then some (Stop.trap 0x03 (getG s a + sext13 imm)) else none) =
      some (Stop.trap 0x03 (getG s a + imm.signExtend 64)) := if_pos hodd
  show execJalr p d a imm s = _
  rw [execJalr, hmis]
  exact execute_misaligned (u := { srcS := [.g a], dstS := [d] }) hon h

/-- A word block on its way for the instruction at the PC. -/
def blockRequest : Pending := ⟨0, 0, 0, .load, [], .block, none, true, none, none, [], false, false, false, 0, false⟩

/-- A strand whose instruction at the PC has asked for a word block. -/
def blockOnItsWay : State := modMe State.reset fun t => { t with occ := true, inflight := [blockRequest] }

/-- Refutes O4: its last clause has the trap of an odd JALR target taken from the state before the instruction, but when
the strand has a word block in flight the trap drops it, so the two states differ in the requests in flight. -/
theorem not_controlTransfers : ¬ Obligations.ControlTransfers := by
  unfold Obligations.ControlTransfers
  rintro ⟨-, -, hodd⟩
  have hon : predOn blockOnItsWay .always = true := by decide
  have htarget : (getG blockOnItsWay 0 + (1 : BitVec 13).signExtend 64).getLsbD 0 = true := by decide
  have hop : Operable (ready blockOnItsWay) { srcS := [.g 0], dstS := [.g 0] } := ⟨by rfl, by rfl⟩
  have kept := hodd .always (.g 0) 0 1 blockOnItsWay hon htarget hop
  rw [exec_jalr_odd hon htarget hop] at kept
  injection kept with same
  have inflight : (me (takeTrap (dropBlocks (ready blockOnItsWay)) 4 0x03 _)).inflight =
    (me (takeTrap (ready blockOnItsWay) 4 0x03 _)).inflight := congrArg (fun t => (me t).inflight) same
  rw [takeTrap_inflight (by decide), takeTrap_inflight (by decide)] at inflight
  exact absurd inflight (by decide)

end Sys2Proof.Machine
end

section
/-!
Misaligned accesses (O7): the check of alignment comes with the operands or, where the address is known only then, with the
body; either way the instruction ends in the trap of cause 0x03.
-/
namespace Sys2Proof.Machine

/-- The end of an access whose address is misaligned (R12, R115). -/
def misalignedAnswer (s : State) (wr : Bool) (ea : W64) : Answer := .next (takeTrap (dropBlocks (ready s)) 4 0x03 ea wr)

section
variable {s : State} {on : Bool} {u : Uses} {body : State → Except Stop State} {ea : W64} {n : Nat} {wr : Bool}

theorem misOf_misaligned (h : ea.toNat % n ≠ 0) : misOf ea n wr = some (.trap 0x03 ea wr) := if_neg h

theorem misOf_aligned (h : ea.toNat % n = 0) : misOf ea n wr = none := if_pos h

theorem execute_misOf (hon : on = true) (ho : Operable (ready s) u) (h : ea.toNat % n ≠ 0) :
    execute s on { u with mis := misOf ea n wr } body = misalignedAnswer s wr ea := by
  rw [misOf_misaligned h]
  exact execute_misaligned hon ho

theorem compute_misOf (hon : on = true) (ho : Operable (ready s) u) (h : ea.toNat % n ≠ 0) :
    compute s on { u with mis := misOf ea n wr } body = misalignedAnswer s wr ea := execute_misOf hon ho h

end

/-! ## Scalar and presence accesses (R115, R120, R284) -/

section
variable {p : Pred} {s : State} {bases : List SReg} {ea : W64} {inc : Option (Fin 24 × W64)} {d : SReg} {e : VReg}

theorem loadScalar_misaligned {sz : LSize} {blocking : Bool} {acq : Option Scope} (hon : predOn s p = true)
    (ho : Operable (ready s) { srcS := bases, dstS := [d] }) (h : ea.toNat % lsize sz ≠ 0) :
    loadScalar p d sz bases ea inc blocking acq s = misalignedAnswer s false ea :=
  execute_misOf (u := { srcS := bases, dstS := [d] }) hon ho h

theorem storeScalar_misaligned {sz : SSize} {rel : Option Scope} (hon : predOn s p = true)
    (ho : Operable (ready s) { srcS := bases, movS := [d] }) (h : ea.toNat % ssize sz ≠ 0) :
    storeScalar p d sz bases ea inc rel s = misalignedAnswer s true ea :=
  compute_misOf (u := { srcS := bases, movS := [d] }) hon ho h

theorem loadPresence_misaligned (hon : predOn s p = true) (ho : Operable (ready s) { srcS := bases, dstS := [d] })
    (h : ea.toNat % 8 ≠ 0) : loadPresence p d bases ea inc s = misalignedAnswer s false ea :=
  execute_misOf (u := { srcS := bases, dstS := [d] }) hon ho h

theorem storePresence_misaligned (hon : predOn s p = true) (ho : Operable (ready s) { srcS := d :: bases })
    (h : ea.toNat % 8 ≠ 0) : storePresence p d bases ea inc s = misalignedAnswer s true ea :=
  compute_misOf (u := { srcS := d :: bases }) hon ho h

/-- CLRP of at least one word checks its address after it has read how many. -/
theorem clearPresence_misaligned (hon : predOn s p = true) (ho : Operable (ready s) { srcS := d :: bases })
    (hk : readS (ready s) d ≠ 0) (h : ea.toNat % 8 ≠ 0) :
    clearPresence p d bases ea inc s = misalignedAnswer s true ea := by
  have hk' : (readS (ready s) d).toNat ≠ 0 := fun h0 => hk (BitVec.eq_of_toNat_eq h0)
  refine execute_stop (x := .trap 0x03 ea true) hon ho ?_
  simp only [hk', if_false, misOf_misaligned h]
  rfl

theorem enabledWords_on {m : W32} (h : ∃ j < 4, m.getLsbD j = true) : (!(enabledWords m).isEmpty) = true := by
  obtain ⟨j, hj, hb⟩ := h
  have : j ∈ enabledWords m := List.mem_filter.2 ⟨List.mem_range.2 hj, hb⟩
  simp [List.ne_nil_of_mem this]

theorem loadPresenceV_misaligned (hon : ∃ j < 4, (predMask s p).getLsbD j = true)
    (ho : Operable (ready s) { srcS := bases, dstV := [e] }) (h : ea.toNat % 32 ≠ 0) :
    loadPresenceV p e bases ea inc s = misalignedAnswer s false ea :=
  execute_misOf (u := { srcS := bases, dstV := [e] }) (enabledWords_on hon) ho h

theorem storePresenceV_misaligned (hon : ∃ j < 4, (predMask s p).getLsbD j = true)
    (ho : Operable (ready s) { srcS := bases, srcV := [e] }) (h : ea.toNat % 32 ≠ 0) :
    storePresenceV p e bases ea inc s = misalignedAnswer s true ea :=
  compute_misOf (u := { srcS := bases, srcV := [e] }) (enabledWords_on hon) ho h

end

/-! ## Vector accesses, atomics and reductions (R122, R147, R148, R389, R390) -/

section
variable {p : Pred} {s : State} {bases : List SReg} {ea : W64} {inc : Option (Fin 24 × W64)} {d i : VReg} {a b : GReg}

theorem loadVector_misaligned (hon : predMask s p ≠ 0) (ho : Operable (ready s) { srcS := bases, dstV := [d] })
    (h : ea.toNat % 8 ≠ 0) : loadVector p d bases ea inc s = misalignedAnswer s false ea :=
  execute_misOf (u := { srcS := bases, dstV := [d] }) (bne_iff_ne.2 hon) ho h

theorem storeVector_misaligned (hon : predMask s p ≠ 0) (ho : Operable (ready s) { srcS := bases, movV := [d] })
    (h : ea.toNat % 8 ≠ 0) : storeVector p d bases ea inc s = misalignedAnswer s true ea :=
  compute_misOf (u := { srcS := bases, movV := [d] }) (bne_iff_ne.2 hon) ho h

/-- The lowest-numbered misaligned address of a list is the first that its order meets. -/
theorem misAny_first {n : Nat} {l : List Nat} {f : Nat → W64} {k : Nat} {wr : Bool} (hl : l.Pairwise (· < ·)) (hk : k ∈ l)
    (hbad : (f k).toNat % n ≠ 0) (hfirst : ∀ j ∈ l, j < k → (f j).toNat % n = 0) :
    misAny n (l.map f) wr = some (.trap 0x03 (f k) wr) := by
  have find : (l.map f).find? (fun e => e.toNat % n != 0) = some (f k) := by
    rw [List.find?_map, Option.map_eq_some_iff]
    refine ⟨k, ?_, rfl⟩
    rw [List.find?_eq_some_iff_append]
    obtain ⟨before, after, rfl⟩ := List.append_of_mem hk
    refine ⟨by simpa using hbad, before, after, rfl, fun j hj => ?_⟩
    have hlt : j < k := (List.pairwise_append.1 hl).2.2 j hj k (List.mem_cons_self ..)
    simpa using hfirst j (List.mem_append_left _ hj) hlt
  rw [misAny, find]; rfl

theorem ewBits_lanes (ew : EWidth) : 256 / ewBits ew ≤ 32 := by cases ew <;> decide

/-- The elements that VGATH and VSCAT address are those of the lanes that the predicate enables. -/
theorem enabled_elements (ew : EWidth) (m : W32) :
    enabledLanes (lanesOn m (256 / ewBits ew)) (256 / ewBits ew) =
      (List.range (256 / ewBits ew)).filter fun k => m.getLsbD k :=
  enabledLanes_lanesOn m _ (ewBits_lanes ew)

theorem lanesOn_of_mem {ew : EWidth} {m : W32} {k : Nat} (h : k ∈ (List.range (256 / ewBits ew)).filter fun k => m.getLsbD k) :
    (lanesOn m (256 / ewBits ew) != 0) = true := by
  obtain ⟨hk, hb⟩ := List.mem_filter.1 h
  exact lanesOn_ne_zero (ewBits_lanes ew) ⟨k, List.mem_range.1 hk, hb⟩

/-- The first element of VGATH and VSCAT that is misaligned stops the body. -/
theorem misAny_elements {ew : EWidth} {m : W32} {f : Nat → W64} {n k : Nat} {wr : Bool}
    (hk : k ∈ (List.range (256 / ewBits ew)).filter fun k => m.getLsbD k) (hbad : (f k).toNat % n ≠ 0)
    (hfirst : ∀ j ∈ (List.range (256 / ewBits ew)).filter (fun k => m.getLsbD k), j < k → (f j).toNat % n = 0) :
    misAny n (((enabledLanes (lanesOn m (256 / ewBits ew)) (256 / ewBits ew)).map fun k => (k, f k)).map fun e => e.2) wr =
      some (.trap 0x03 (f k) wr) := by
  rw [enabled_elements, List.map_map]
  exact misAny_first (List.pairwise_lt_range.filter _) hk hbad hfirst

/-- Of two misaligned addresses the first named is raised (R407). -/
theorem firstStop_misaligned {x y : W64} {k l : Nat} :
    firstStop (some (.trap 0x03 ea true)) (firstStop (misOf x k true) (misOf y l true)) = some (.trap 0x03 ea true) := by
  unfold misOf
  split <;> split <;> rfl

theorem atomic_misaligned {d : SReg} {srcs : List SReg} {n : Nat} {signed : Bool} {o : Ord} {sc : Scope}
    {kind : State → ReqKind} (ho : Operable (ready s) { srcS := .g a :: srcs, dstS := [d] }) (h : (getG s a).toNat % n ≠ 0) :
    atomic d srcs a n signed o sc kind s = misalignedAnswer s true (getG s a) :=
  execute_misOf (u := { srcS := .g a :: srcs, dstS := [d] }) rfl ho h

theorem reduction_misaligned {k : RedKind} {rel : Bool} {sc : Scope} {y : SReg} (ho : Operable (ready s) { srcS := [.g a, y] })
    (h : (getG s a).toNat % redBytes k ≠ 0) : reduction k rel sc a y s = misalignedAnswer s true (getG s a) :=
  compute_misOf (u := { srcS := [.g a, y] }) rfl ho h

end

/-- Settles O7, one lemma per shape of an access. -/
theorem misalignedAccessesTrap : Obligations.MisalignedAccessesTrap := by
  unfold Obligations.MisalignedAccessesTrap
  refine ⟨?_, ?_⟩
  · intro p d e a b lz sz sc off off5 s r trap at_ near base sum three
    refine ⟨fun hon => ⟨?_, ?_, ?_⟩, fun hon => ⟨?_, ?_⟩⟩
    · intro n h1 h2
      exact ⟨⟨loadScalar_misaligned hon h1, loadScalar_misaligned hon h1, loadScalar_misaligned hon h2⟩,
        loadScalar_misaligned hon h1,
        loadPresence_misaligned hon h1, loadPresence_misaligned hon h1, loadPresence_misaligned hon h2⟩
    · intro n h1 h2
      exact ⟨⟨storeScalar_misaligned hon h1, storeScalar_misaligned hon h1, storeScalar_misaligned hon h2⟩,
        storeScalar_misaligned hon h1⟩
    · intro h1 h2
      exact ⟨⟨storePresence_misaligned hon h1, storePresence_misaligned hon h1, storePresence_misaligned hon h2⟩,
        fun hk => ⟨clearPresence_misaligned hon h1 hk, clearPresence_misaligned hon h1 hk,
          clearPresence_misaligned hon h2 hk⟩⟩
    · intro h1 h2
      exact ⟨loadPresenceV_misaligned hon h1, loadPresenceV_misaligned hon h1, loadPresenceV_misaligned hon h2⟩
    · intro h1 h2
      exact ⟨storePresenceV_misaligned hon h1, storePresenceV_misaligned hon h1, storePresenceV_misaligned hon h2⟩
  · intro p d i x g a b y ew o op rop z f sc rel md na off off4 s r m trap eaOff base sum w on element firstBad norm three
    refine ⟨fun hon => ⟨fun h1 h2 => ?_, fun h1 h2 => ?_⟩, fun k hk => ?_, fun hon ho hbad => ?_, fun hon ho hbad => ?_,
      fun hbad => ?_, fun hbad => ?_⟩
    · exact ⟨loadVector_misaligned hon h1, loadVector_misaligned hon h1, loadVector_misaligned hon h2⟩
    · exact ⟨storeVector_misaligned hon h1, storeVector_misaligned hon h1, storeVector_misaligned hon h2⟩
    · obtain ⟨hmem, hbad, hfirst⟩ := hk
      refine ⟨fun ho => execute_stop (x := .trap 0x03 (element k)) (lanesOn_of_mem hmem) ho ?_,
        fun ho => execute_stop (x := .trap 0x03 (element k) true) (lanesOn_of_mem hmem) ho ?_⟩
      · show throwIf (misAny (w / 8) (((enabledLanes (lanesOn m (256 / w)) (256 / w)).map fun k => (k, element k)).map
          fun e => e.2)) >>= _ = _
        rw [misAny_elements hmem hbad hfirst]; rfl
      · show Except.map _ (throwIf (misAny (w / 8) (((enabledLanes (lanesOn m (256 / w)) (256 / w)).map
          fun k => (k, element k)).map fun e => e.2) true) >>= _) = _
        rw [misAny_elements hmem hbad hfirst]; rfl
    · obtain ⟨k, hk⟩ := List.exists_mem_of_ne_nil on hon
      show execVstt p d a md b ew s = _
      rw [execVstt, misOf_misaligned hbad]
      dsimp only
      rw [firstStop_misaligned]
      exact execute_misaligned (u := { srcS := [.g a, .g b], movV := [d] }) (lanesOn_of_mem hk) ho
    · cases md <;>
        exact compute_misOf (u := { srcS := [.g a], srcV := [d] }) (lanesOn_ne_zero (by decide) hon) ho hbad
    · exact ⟨fun ho => atomic_misaligned ho hbad, fun ho => atomic_misaligned ho hbad, fun ho => atomic_misaligned ho hbad,
        fun ho => reduction_misaligned (k := .int rop z) ho hbad⟩
    · exact ⟨fun ho => atomic_misaligned ho hbad, fun ho => reduction_misaligned (k := .fp rop f) ho hbad⟩

end Sys2Proof.Machine
end

section
/-!
Fences, barriers and plumb time (O11): none of them reads or writes a view, so what its body leaves is what the instruction
leaves, whatever becomes of the requests in flight.
-/
namespace Sys2Proof.Machine

/-! ## Instructions without views -/

section
variable {s t : State} {on : Bool} {u : Uses} {body : State → Except Stop State}

/-- An instruction that pops no view leaves what its body leaves. -/
theorem execute_unpopped (hon : on = true) (h : Operable (ready s) u) (hv : popsOf (ready s) u = [])
    (hb : body (ready s) = .ok t) : execute s on u body = .next t := by
  have hc := h.1
  rw [hv] at hc
  simp only [execute, executeLen, hon, if_true, issueBody, h.2, hb, withOperands, hv, hc]
  rfl

theorem compute_unpopped (hon : on = true) (h : Operable (ready s) u) (hv : popsOf (ready s) u = [])
    (hb : body (ready s) = .ok t) : compute s on u body = .next (advance t 4) :=
  execute_unpopped hon h hv (by rw [hb]; rfl)

/-- A computing instruction whose body blocks waits. -/
theorem compute_block {w : Wait} (hon : on = true) (h : Operable (ready s) u)
    (hb : body (ready s) = .error (.block w)) : compute s on u body = .next (modMe (ready s) fun t => { t with wait := w }) :=
  execute_stop (x := .block w) hon h (by rw [hb]; rfl)

end

/-! ## Releases of the issuing strand (R130, R312) -/

theorem release_performed {s : State} {sc : Scope} {uo red : Bool}
    (h : outstanding s s.cur (me s).uid s.nextSeq sc uo red = false) : release s sc uo red = .ok () := by
  rw [release, releaseWaits, h]; rfl

theorem release_blocks {s : State} {sc : Scope} {uo red : Bool}
    (h : outstanding s s.cur (me s).uid s.nextSeq sc uo red = true) :
    release s sc uo red = .error (.block (.release sc uo red)) := by
  rw [release, releaseWaits, h]; rfl

/-- The body of FENCE. -/
def fenceBody (o : Ord) (sc : Scope) (red uo : Bool) (s : State) : Except Stop State := do
  waitUnless (drained s)
  match ordRel o sc with
  | some sc => release s sc uo red
  | none => if red then release s .cr false true else .ok ()
  let s := match ordRel o sc with | some sc => markMine s sc uo | none => s
  .ok (match ordAcq o sc with | some sc => markAcquire s s.cur (me s).uid sc | none => s)

theorem exec_fence (o : Ord) (sc : Scope) (red uo : Bool) (s : State) :
    exec (.fence o sc red uo) s = compute s true {} (fenceBody o sc red uo) := rfl

/-- With no load in flight a FENCE waits for its release, or under RED alone for the reductions, and then marks (R129, R312). -/
theorem fenceBody_drained {o : Ord} {sc : Scope} {red uo : Bool} {r : State} {rel acq : Bool}
    (hrel : ordRel o sc = if rel then some sc else none) (hacq : ordAcq o sc = if acq then some sc else none)
    (hd : drained r = true) :
    let marked := if rel then markMine r sc uo else r
    fenceBody o sc red uo r =
      (if rel || red then release r (if rel then sc else .cr) (rel && uo) red else .ok ()).map fun _ =>
        if acq then markAcquire marked marked.cur (me marked).uid sc else marked := by
  cases rel <;> cases acq <;> cases red <;> simp only [fenceBody, hrel, hacq, hd] <;> rfl

theorem plumbAt_ready (s : State) (c : CoreId) : plumbAt (ready s) c = s.plumb[dieNum c]?.getD 0 := rfl

/-! ## Barriers (R219) -/

/-- A member that has not arrived takes its place in issue order and arrives, at once or as soon as its release is
performed; `k` is what the instruction writes. -/
theorem arrive_member {s : State} {l : BarLevel} {b : Nat} {k : W32 → State → State} (hb : (me s).bond = some b)
    (hm : (me s).member = true) (ha : hasArrived s b l = false) :
    arrive s l k =
      let x := k (barOf s b l (clusterIdx s.cur)).phase (issuedOne (markMine s (barScope l) false))
      .ok (if outstanding s s.cur (me s).uid s.nextSeq (barScope l) false false then
        modMe x fun t => { t with arriving := t.arriving ++ [(l, s.nextSeq)] }
      else arriveBarrier x b l (clusterIdx x.cur) (me x).uid) := by
  cases hout : outstanding s s.cur (me s).uid s.nextSeq (barScope l) false false <;>
    simp only [arrive, hb, hm, ha, show releaseWaits s (barScope l) false false = _ from hout] <;> rfl

/-- Settles O11. -/
theorem fencesBarriersAndTime : Obligations.FencesBarriersAndTime := by
  unfold Obligations.FencesBarriersAndTime
  refine ⟨?_, ?_, ?_, ?_⟩
  · intro o sc red uo s _ r releases at_ uo' acquires marked ordered hd
    have hrel : ordRel o sc = if releases then some sc else none := by cases o <;> rfl
    have hacq : ordAcq o sc = if acquires then some sc else none := by cases o <;> rfl
    have body : fenceBody o sc red uo r = (if releases || red then release r at_ uo' red else .ok ()).map fun _ => ordered :=
      fenceBody_drained hrel hacq hd
    rw [exec_fence]
    refine ⟨fun hor hout => compute_block rfl (operable_nothing r) ?_,
      fun hout => compute_unpopped rfl (operable_nothing r) rfl ?_⟩
    · rw [body, if_pos (by simpa using hor), release_blocks hout]; rfl
    · rw [body]
      by_cases hor : releases = true ∨ red = true
      · rw [if_pos (by simpa using hor), release_performed (hout hor)]; rfl
      · rw [if_neg (by simpa using hor)]; rfl
  · intro s hd
    refine ⟨_, compute_unpopped rfl (operable_nothing _) rfl (t := modMe (ready s) fun t => { t with ifetch := [] }) ?_, ?_⟩
    · rw [hd]; rfl
    · simp
  · intro p l d b s r phase sc u late enter hon hb hm ha
    have hsc : barScope l = sc := by cases l <;> rfl
    have body (k : W32 → State → State) : arrive r l k = .ok (enter (k phase u)) := by
      rw [arrive_member hb hm ha, hsc]
    exact ⟨execute_unpopped hon (operable_nothing r) rfl (body _), fun ho => execute_unpopped hon ho rfl (body _)⟩
  · intro p d a s r now hon
    refine ⟨fun ho => compute_unpopped hon ho rfl rfl, fun ho => ⟨fun hle => compute_unpopped hon ho rfl ?_,
      fun hlt => compute_block hon ho ?_⟩⟩
    · exact if_pos hle
    · exact if_neg (not_le.2 hlt)

end Sys2Proof.Machine
end

section
/-!
Steps of requests and waits (O31): what each event does when it is the turn of the part, the answer or the deadline.
-/
namespace Sys2Proof.Machine

section
variable {s : State} {c : CoreId} {slot : Slot} {idx part : Nat} {p : Pending} {q : Part}

/-! ## Parts (R281, R288, R297) -/

/-- The event that performs a part is that of the memory it lies in. -/
theorem exec_stepPart (loc : Nat) :
    exec (if isSlice loc then .slicePortRequest c slot idx part else .stackAccess c slot idx part) s =
      .next (stepPart s c slot idx part (isSlice loc)) := by
  cases isSlice loc <;> rfl

/-- A load that a reply lets run again does so when one of its parts has its turn. -/
theorem stepPart_again (hocc : (strandAt s c slot).occ = true) (hp : (strandAt s c slot).inflight[idx]? = some p)
    (hq : p.parts[part]? = some q) (ha : p.again = true) :
    stepPart s c slot idx part (isSlice q.loc) = asStrand s c slot fun s => runAgain s p := by
  simp [stepPart, hp, hq, hocc, ha]

/-- Any other part that is performed apart from its answer. -/
theorem stepPart_now (hocc : (strandAt s c slot).occ = true) (hp : (strandAt s c slot).inflight[idx]? = some p)
    (hq : p.parts[part]? = some q) (ha : p.again = false) (hw : withAnswer p = false) :
    stepPart s c slot idx part (isSlice q.loc) = partNow s c slot p part := by
  simp [stepPart, hp, hq, hocc, ha, hw]

/-- A load's part whose turn it is holds what the strand reads there. -/
theorem performPart_load {uid : Nat} {w : W64 × Bool} (hq : p.parts[part]? = some q) (hg : q.got = none)
    (hr : p.rejected = false) (ha : p.again = false) (hk : p.kind = .load) (ht : partTurn s c uid p part q = true)
    (he : epochRevoked s q.loc q.lease = false)
    (hw : strandWord s c uid p.seq (wordOf q.loc) q.key (partMask q) = some w) :
    performPart s c slot uid p part = (takePart p part q w, s) := by
  simp [performPart, hq, hg, hr, ha, hk, ht, he, readPart, hw]

/-! ## Answers (R102) -/

/-- An answered request whose views can take it is written to its destination. -/
theorem exec_loadResponse_answers (hocc : (strandAt s c slot).occ = true)
    (hp : (strandAt s c slot).inflight[idx]? = some p) (hb : blockLoad p = false) (hr : p.rejected = false)
    (ha : answered p = true) (hn : poisonedPart p = none)
    (hv : firstOf { s with cur := c, slot := slot } (answerViews { s with cur := c, slot := slot } p) (viewStop · true) = none)
    (hrdy : (answerViews { s with cur := c, slot := slot } p).all (viewReady { s with cur := c, slot := slot } true) = true) :
    exec (.loadResponse c slot idx) s = .next (asStrand s c slot fun s => answerStrand s p) := by
  show execLoadResponse c slot idx s = _
  simp [execLoadResponse, hp, hocc, hb, hr, ha, asStrand, takeAnswer, hn, hv, hrdy]

/-! ## Waits that end (R130, R211, R449) -/

theorem exec_releaseComplete {sc : Scope} {uo red : Bool} (hocc : (strandAt s c slot).occ = true)
    (hf : (coreOf s c).frozen = none) (hh : (coreOf s c).halted = false) (ha : (strandAt s c slot).arriving = [])
    (hw : (strandAt s c slot).wait = .release sc uo red)
    (ho : outstanding s c (strandAt s c slot).uid s.nextSeq sc uo red = false) :
    exec (.releaseComplete c slot) s = .next (modStrand s c slot fun t => { t with wait := .none }) := by
  have settled : settleArrivals s c slot = s := by rw [settleArrivals, ha]; rfl
  show execReleaseComplete c slot s = _
  simp [execReleaseComplete, hocc, hf, hh, settled, hw, ho]

theorem exec_sleepDeadline {d : Fin 24} {a : W64} (hocc : (strandAt s c slot).occ = true)
    (hh : (coreOf s c).halted = false) (hw : (strandAt s c slot).wait = .sleep d a) (ha : a ≠ 0)
    (hd : a.toNat ≤ (plumbAt s c).toNat) :
    exec (.sleepDeadline c slot) s =
      .next (modStrand s c slot fun t => { putG t d 1 with wait := .none, pc := t.pc + 4 }) := by
  show execSleepDeadline c slot s = _
  simp only [execSleepDeadline, hw, hocc, hh, hd, bne_iff_ne.2 ha]
  exact congrArg Host.Outcome.next (modStrand_congr (by rw [awake, hw]))

theorem exec_tuntilDeadline {a : W64} (hocc : (strandAt s c slot).occ = true)
    (hw : (strandAt s c slot).wait = .tuntil a) (hd : a.toNat ≤ (plumbAt s c).toNat) :
    exec (.tuntilDeadline c slot) s = .next (modStrand s c slot fun t => { t with wait := .none }) := by
  show execTuntilDeadline c slot s = _
  simp [execTuntilDeadline, hw, hocc, hd]

end

/-- Settles O31, event by event. -/
theorem requestEvents : Obligations.RequestEvents := by
  unfold Obligations.RequestEvents
  intro c slot idx part p q w sc uo red d a l s u t there hocc
  refine ⟨fun hp hq ha hl => ?_, fun hp hq hg hr ha hk ht he hw => ?_, fun hp hb hr ha hn hv hrdy =>
    exec_loadResponse_answers hocc hp hb hr ha hn hv hrdy, fun hf hh ha hw ho => exec_releaseComplete hocc hf hh ha hw ho,
    fun hh hw ha hd => exec_sleepDeadline hocc hh hw ha hd, fun hw hd => exec_tuntilDeadline hocc hw hd⟩
  · rw [exec_stepPart, stepPart_again hocc hp hq ha, asStrand, runAgain, hl]
  · have hwa : withAnswer p = false := by rw [withAnswer, hk]; rfl
    rw [exec_stepPart, stepPart_now hocc hp hq ha hwa, partNow, performPart_load hq hg hr ha hk ht he hw]
    rfl

end Sys2Proof.Machine
end

section
/-!
Loads and PREF (O5): a checked address changes at most what the TLBs hold, and what a served load assembles agrees with the
homes' answer wherever its destination looks.
-/
namespace Sys2Proof.Machine

/-! ## What the check of an address leaves alone (R117, R293) -/

/-- From s to t every strand and all of memory stay. -/
def StrandsKept (s t : State) : Prop :=
  t.mem = s.mem ∧ t.cur = s.cur ∧ t.slot = s.slot ∧ ∀ c i, strandAt t c i = strandAt s c i

theorem StrandsKept.refl (s : State) : StrandsKept s s := ⟨rfl, rfl, rfl, fun _ _ => rfl⟩

theorem StrandsKept.trans {s t u : State} (h : StrandsKept s t) (k : StrandsKept t u) : StrandsKept s u := by
  obtain ⟨h1, h2, h3, h4⟩ := h
  obtain ⟨k1, k2, k3, k4⟩ := k
  exact ⟨k1.trans h1, k2.trans h2, k3.trans h3, fun c i => (k4 c i).trans (h4 c i)⟩

theorem StrandsKept.me {s t : State} (h : StrandsKept s t) : me t = me s := by
  obtain ⟨-, hc, hi, hs⟩ := h
  show strandAt t t.cur t.slot = _
  rw [hc, hi, hs]; rfl

/-- A change of a core outside its strands leaves every strand. -/
theorem strandAt_modCore {s : State} {c : CoreId} {f : Core → Core} (hf : ∀ k, (f k).slots = k.slots)
    (d : CoreId) (i : Slot) :
    strandAt (modCore s c f) d i = strandAt s d i := by
  show (coreOf (modCore s c f) d).slots[i] = (coreOf s d).slots[i]
  by_cases h : d = c
  · subst h; rw [coreOf_modCore_self]; simp [hf]
  · rw [coreOf_modCore_ne s f h]

theorem modCore_keeps_strands {s : State} {c : CoreId} {f : Core → Core} (hf : ∀ k, (f k).slots = k.slots) :
    StrandsKept s (modCore s c f) := ⟨rfl, rfl, rfl, strandAt_modCore hf⟩

theorem tlbFill_keeps_strands (s : State) (c : CoreId) (fetch engine : Bool) (e : TlbEntry) :
    StrandsKept s (tlbFill s c fetch engine e) := by
  unfold tlbFill
  cases engine with
  | true => exact ⟨rfl, rfl, rfl, fun _ _ => rfl⟩
  | false =>
    simp only [Bool.false_eq_true, if_false]
    refine StrandsKept.trans ?_ (modCore_keeps_strands fun k => ?_)
    · exact ⟨rfl, rfl, rfl, fun _ _ => rfl⟩
    · cases fetch <;> rfl

theorem throughLeaf_state {s t : State} {w : Who} {use : Use} {va : W64} {e : TlbEntry} {r : Ref}
    (h : throughLeaf s w use va e = .ok r t) : t = s := by
  unfold throughLeaf at h
  dsimp only at h
  split at h
  · cases h
  · injection h with _ h; exact h.symm

/-- A translation that goes through leaves the state, but for an entry in the TLBs. -/
theorem translate_keeps_strands {s t : State} {w : Who} {use : Use} {inl : Bool} {va : W64} {r : Ref}
    (h : translate s w use inl va = .ok r t) : StrandsKept s t := by
  unfold translate at h
  dsimp only at h
  split at h
  · rw [throughLeaf_state h]; exact .refl s
  · split at h
    · cases h
    · split at h
      · cases h
      · cases h
      · split at h
        · rw [throughLeaf_state h]; exact tlbFill_keeps_strands ..
        · cases h
        · cases h

theorem checkAddr_keeps_strands {s t : State} {w : Who} {use : Use} {inl : Bool} {ea : W64} {r : Ref}
    (h : checkAddr s w use inl ea = .ok r t) : StrandsKept s t := by
  unfold checkAddr at h
  split at h
  · cases h
  · split at h
    · injection h with _ h; rw [← h]; exact .refl s
    · cases h
  · exact translate_keeps_strands h

theorem access_keeps_strands {s t : State} {use : Use} {va : W64} {r : Ref} (h : access s use va = .ok (r, t)) :
    StrandsKept s t := by
  unfold access at h
  split at h
  · next hc => injection h with h; injection h with _ h; rw [← h]; exact checkAddr_keeps_strands hc
  all_goals cases h

theorem checkPieces_keeps_strands {s t : State} {use : Use} {ps : List Piece} {l : List (Piece × Ref)}
    (h : checkPieces s use ps = .ok (l, t)) : StrandsKept s t := by
  induction ps generalizing s t l with
  | nil => injection h with h; injection h with _ h; rw [← h]; exact .refl s
  | cons p ps ih =>
    simp only [checkPieces] at h
    split at h
    · next ha =>
      split at h
      · next hps => injection h with h; injection h with _ h; rw [← h]; exact (access_keeps_strands ha).trans (ih hps)
      · cases h
    · split at h <;> cases h

/-- PREF goes on, with at most an entry in the TLBs (R121). -/
theorem exec_pref (p : Pred) (hint : Fin 3) (a : GReg) (off : BitVec 5) (s : State) :
    ∃ u, exec (.pref p hint a off) s = .next (advance u 4) ∧ StrandsKept (ready s) u := by
  show ∃ u, execPref p hint a off s = _ ∧ _
  unfold execPref
  dsimp only
  split
  · split
    · next hc => exact ⟨_, rfl, checkAddr_keeps_strands hc⟩
    all_goals exact ⟨_, rfl, .refl _⟩
  · exact ⟨_, rfl, .refl _⟩

/-! ## What a served load writes -/

@[simp] theorem me_markAcquire (s : State) (c : CoreId) (uid : Nat) (sc : Scope) : me (markAcquire s c uid sc) = me s :=
  slot_mapCores s.cores s.cur s.slot (g := id) (fun _ => rfl) rfl

@[simp] theorem me_issuedOne (s : State) : me (issuedOne s) = me s := rfl

@[simp] theorem applyInc_inflight (s : State) (inc : Option (Fin 24 × W64)) :
    (me (applyInc s inc)).inflight = (me s).inflight := by
  cases inc <;> simp [applyInc]

theorem loaded_inflight (t : State) (d : Dest) (inc : Option (Fin 24 × W64)) (y : W256) (acq : Option Scope) :
    (me (loaded t d inc y acq)).inflight = (me t).inflight := by
  cases d <;> cases acq <;> simp [loaded]

/-- An assembled value agrees with x in the bits that its pieces cover, and is zero elsewhere. -/
theorem placed_getLsbD {x : W256} {ps : List Piece} {k : Nat} (hk : k < 256) (hn : ∀ p ∈ ps, p.n ≤ 8) :
    (placed x ps).getLsbD k = (x.getLsbD k && ps.any fun p => decide (8 * p.pos ≤ k) && decide (k < 8 * p.pos + 8 * p.n)) := by
  induction ps with
  | nil => simp [placed]
  | cons p ps ih =>
    have h8 := hn p (List.mem_cons_self ..)
    rw [placed, BitVec.getLsbD_or, ih fun q hq => hn q (List.mem_cons_of_mem _ hq), BitVec.getLsbD_shiftLeft,
      BitVec.getLsbD_setWidth, BitVec.getLsbD_setWidth, BitVec.getLsbD_extractLsb', List.any_cons]
    by_cases hlo : 8 * p.pos ≤ k
    · rw [Nat.add_sub_cancel' hlo]
      by_cases hhi : k < 8 * p.pos + 8 * p.n
      · have h1 : k - 8 * p.pos < 8 * p.n := by omega
        have h2 : k - 8 * p.pos < 64 := by omega
        cases x.getLsbD k <;> simp [hk, hlo, hhi, h1, h2]; omega
      · have h1 : ¬ k - 8 * p.pos < 8 * p.n := by omega
        simp [hhi, h1]
    · simp [hlo, Nat.lt_of_not_le hlo]

/-- A lane that lies in a piece is the lane of x. -/
theorem placed_lane {x : W256} {ps : List Piece} {p : Piece} {w i : Nat} (hn : ∀ p ∈ ps, p.n ≤ 8) (hp : p ∈ ps)
    (hi : i * w + w ≤ 256) (hlo : 8 * p.pos ≤ i * w) (hhi : i * w + w ≤ 8 * p.pos + 8 * p.n) :
    lane (placed x ps) w i = lane x w i := by
  apply BitVec.eq_of_getLsbD_eq
  intro b hb
  have hcov : (ps.any fun p => decide (8 * p.pos ≤ i * w + b) && decide (i * w + b < 8 * p.pos + 8 * p.n)) = true :=
    List.any_eq_true.2 ⟨p, hp, by simp; omega⟩
  rw [lane, lane, BitVec.getLsbD_extractLsb', BitVec.getLsbD_extractLsb', placed_getLsbD (by omega) hn, hcov, Bool.and_true]

theorem placed_one (x : W256) (ea : W64) {n : Nat} (hn : n ≤ 8) :
    (placed x [⟨ea, n, 0⟩]).setWidth (8 * n) = x.setWidth (8 * n) := by
  apply BitVec.eq_of_getLsbD_eq
  intro k hk
  rw [BitVec.getLsbD_setWidth, BitVec.getLsbD_setWidth, placed_getLsbD (by omega) (by simpa using hn)]
  simp [hk]

theorem lsize_le (sz : LSize) : lsize sz ≤ 8 := by cases sz <;> decide

section
variable {p : Pred} {s t : State} {x : W256} {bases : List SReg} {ea : W64} {inc : Option (Fin 24 × W64)}

/-- A scalar load whose home answers with x. -/
theorem loadScalar_served {d : SReg} {sz : LSize} {blocking : Bool} {acq : Option Scope} (hon : predOn s p = true)
    (hal : ea.toNat % lsize sz = 0) (ho : Operable (ready s) { srcS := bases, dstS := [d] })
    (hs : LoadServed (ready s) t [⟨ea, lsize sz, 0⟩] x) :
    loadScalar p d sz bases ea inc blocking acq s =
      .next (popAll (loaded t (.scalar d (8 * lsize sz) (lsigned sz)) inc x acq)
        (popsOf (ready s) { srcS := bases, dstS := [d] })) := by
  have same : loaded t (.scalar d (8 * lsize sz) (lsigned sz)) inc (placed x [⟨ea, lsize sz, 0⟩]) acq =
      loaded t (.scalar d (8 * lsize sz) (lsigned sz)) inc x acq := by
    simp only [loaded, sext, placed_one x ea (lsize_le sz)]
  have kept : StrandsKept (ready s) t := by obtain ⟨-, l, hc, -⟩ := hs; exact checkPieces_keeps_strands hc
  unfold loadScalar
  dsimp only
  rw [misOf_aligned hal, ← same]
  refine execute_next (u := { srcS := bases, dstS := [d] }) hon ho (loadPieces_served hs) ?_
  rw [loaded_inflight, kept.me]; exact List.Subset.refl _

/-- A word that the predicate touches lies in the byte lanes of its piece. -/
theorem placed_touched {m : W32} {x : W256} {f : Nat → W64} {i : Nat} (hi : i < 32) (hb : m.getLsbD i = true) :
    lane (placed x ((touchedWords m).map fun j => ⟨f j, 8, 8 * j⟩)) 8 i = lane x 8 i := by
  have hw : wordMask m (i / 8) ≠ 0 := by
    intro h0
    have hbit : (wordMask m (i / 8)).getLsbD (i % 8) = m.getLsbD i := by
      rw [wordMask, BitVec.getLsbD_extractLsb', Nat.div_add_mod]
      simp [Nat.mod_lt i (by decide : 8 > 0)]
    rw [h0, hb] at hbit
    simp at hbit
  have hmem : i / 8 ∈ touchedWords m := List.mem_filter.2 ⟨List.mem_range.2 (by omega), bne_iff_ne.2 hw⟩
  refine placed_lane (p := ⟨f (i / 8), 8, 8 * (i / 8)⟩) ?_ (List.mem_map.2 ⟨_, hmem, rfl⟩) (by omega) ?_ ?_
  · intro q hq
    obtain ⟨j, -, rfl⟩ := List.mem_map.1 hq
    exact le_refl 8
  · show 8 * (8 * (i / 8)) ≤ i * 8; omega
  · show i * 8 + 8 ≤ 8 * (8 * (i / 8)) + 8 * 8; omega

theorem pastOwnSlice_ok {js : List Nat} {wr : Bool} (h : ∀ j ∈ js, ea.toNat ≤ (wordAddr ea j).toNat) :
    pastOwnSlice ea js wr = .ok () := by
  have : (js.any fun j => decide ((ea + BitVec.ofNat 64 (8 * j)).toNat < ea.toNat)) = false := by
    rw [List.any_eq_false]
    intro j hj
    simpa [wordAddr] using h j hj
  rw [pastOwnSlice, this]; rfl

/-- The words of a vector access are those with an enabled byte. -/
theorem touchedWords_eq (m : W32) : touchedWords m = (List.range 4).filter fun j => m.extractLsb' (8 * j) 8 ≠ 0 := by
  refine List.filter_congr fun j _ => ?_
  simp [wordMask, bne, decide_not, Bool.beq_eq_decide_eq]

/-- A vector load whose words' homes answer with x. -/
theorem loadVector_served {d : VReg} (hon : predMask s p ≠ 0) (hal : ea.toNat % 8 = 0)
    (hin : ∀ j ∈ touchedWords (predMask s p), ea.toNat ≤ (wordAddr ea j).toNat)
    (ho : Operable (ready s) { srcS := bases, dstV := [d] })
    (hs : LoadServed (ready s) t ((touchedWords (predMask s p)).map fun j => ⟨wordAddr ea j, 8, 8 * j⟩) x) :
    loadVector p d bases ea inc s =
      .next (popAll (loaded t (.vector d 8 (predMask s p)) inc x none) (popsOf (ready s) { srcS := bases, dstV := [d] })) := by
  have same : loaded t (.vector d 8 (predMask s p)) inc
      (placed x ((touchedWords (predMask s p)).map fun j => ⟨wordAddr ea j, 8, 8 * j⟩)) none =
      loaded t (.vector d 8 (predMask s p)) inc x none := by
    simp only [loaded, writeLanes_congr _ d 8 (predMask s p) _ x fun i hi hb => placed_touched hi hb]
  have kept : StrandsKept (ready s) t := by obtain ⟨-, l, hc, -⟩ := hs; exact checkPieces_keeps_strands hc
  unfold loadVector
  dsimp only
  rw [misOf_aligned hal, ← same]
  refine execute_next (u := { srcS := bases, dstV := [d] }) (bne_iff_ne.2 hon) ho ?_ ?_
  · rw [pastOwnSlice_ok hin]
    exact loadPieces_served hs
  · rw [loaded_inflight, kept.me]; exact List.Subset.refl _

end

theorem ewBits_bytes (ew : EWidth) : 8 * (ewBits ew / 8) = ewBits ew ∧ ewBits ew / 8 ≤ 8 := by cases ew <;> decide

/-- A lane that the predicate enables is the element of its own piece. -/
theorem placed_element {ew : EWidth} {m : W32} {x : W256} {f : Nat → W64} {q : Nat} (hq : q < 256 / ewBits ew)
    (hb : m.getLsbD q = true) :
    lane (placed x (((List.range (256 / ewBits ew)).filter fun k => m.getLsbD k).map fun k =>
      ⟨f k, ewBits ew / 8, ewBits ew / 8 * k⟩)) (ewBits ew) q = lane x (ewBits ew) q := by
  obtain ⟨h8, hle⟩ := ewBits_bytes ew
  have hend : (q + 1) * ewBits ew ≤ 256 := (Nat.mul_le_mul_right _ hq).trans (Nat.div_mul_le_self 256 _)
  rw [Nat.add_mul] at hend
  have hpos : 8 * (ewBits ew / 8 * q) = q * ewBits ew := by rw [← Nat.mul_assoc, h8, Nat.mul_comm]
  refine placed_lane (p := ⟨f q, ewBits ew / 8, ewBits ew / 8 * q⟩) ?_
    (List.mem_map.2 ⟨q, List.mem_filter.2 ⟨List.mem_range.2 hq, hb⟩, rfl⟩) (by omega) hpos.le (by rw [hpos, h8])
  intro r hr
  obtain ⟨j, -, rfl⟩ := List.mem_map.1 hr
  exact hle

theorem misAny_none {n : Nat} {l : List Nat} {f : Nat → W64} {wr : Bool} (h : ∀ k ∈ l, (f k).toNat % n = 0) :
    misAny n (l.map f) wr = none := by
  rw [misAny, Option.map_eq_none_iff, List.find?_eq_none]
  intro e he
  obtain ⟨k, hk, rfl⟩ := List.mem_map.1 he
  simpa using h k hk

/-- A gather whose elements' homes answer with their places in x. -/
theorem vgath_served {p : Pred} {d i : VReg} {a : GReg} {ew : EWidth} {s t : State} {x : W256} {element : Nat → W64}
    (he : ∀ k, gatherAddr (getG (ready s) a) (readV (ready s) i) (ewBits ew) k = element k) {on : List Nat}
    (hl : on = (List.range (256 / ewBits ew)).filter fun k => (predMask s p).getLsbD k) (hon : on ≠ [])
    (hal : ∀ k ∈ on, (element k).toNat % (ewBits ew / 8) = 0)
    (ho : Operable (ready s) { srcS := [.g a], srcV := [i], dstV := [d] })
    (hs : LoadServed (ready s) t (on.map fun k => ⟨element k, ewBits ew / 8, ewBits ew / 8 * k⟩) x) :
    exec (.vgath p d a ew i) s =
      .next (popAll (loaded t (.vector d (ewBits ew) (lanesOn (predMask s p) (256 / ewBits ew))) none x none)
        (popsOf (ready s) { srcS := [.g a], srcV := [i], dstV := [d] })) := by
  subst hl
  obtain ⟨k, hk⟩ := List.exists_mem_of_ne_nil _ hon
  have same : loaded t (.vector d (ewBits ew) (lanesOn (predMask s p) (256 / ewBits ew))) none
      (placed x (((List.range (256 / ewBits ew)).filter fun k => (predMask s p).getLsbD k).map fun k =>
        ⟨element k, ewBits ew / 8, ewBits ew / 8 * k⟩)) none =
      loaded t (.vector d (ewBits ew) (lanesOn (predMask s p) (256 / ewBits ew))) none x none := by
    simp only [loaded]
    rw [writeLanes_congr _ d (ewBits ew) _ _ x fun q hq hb => ?_]
    rw [lanesOn, BitVec.getLsbD_and, Bool.and_eq_true] at hb
    exact placed_element hq hb.1
  have kept : StrandsKept (ready s) t := by obtain ⟨-, l, hc, -⟩ := hs; exact checkPieces_keeps_strands hc
  rw [← same]
  refine execute_next (u := { srcS := [.g a], srcV := [i], dstV := [d] }) (lanesOn_of_mem hk) ho ?_ ?_
  · simp only [enabled_elements, he]
    rw [List.map_map, List.map_map]
    refine (congrArg (fun o => throwIf o >>= _) (misAny_none hal)).trans ?_
    exact loadPieces_served hs
  · rw [loaded_inflight, kept.me]; exact List.Subset.refl _

/-- Settles O5: the forms of a load differ in their addresses and bases alone. -/
theorem loads : Obligations.Loads := by
  unfold Obligations.Loads
  refine ⟨?_, ?_, ?_⟩
  · intro p d a b sz off off5 sc s t x r n v eaOff eaAcq eaIdx got hon
    exact ⟨fun hal ho hs => loadScalar_served hon hal ho hs, fun hal ho hs => loadScalar_served hon hal ho hs,
      fun hal ho hs => loadScalar_served hon hal ho hs, fun hal ho hs => loadScalar_served hon hal ho hs⟩
  · intro p d i a b ew off s t x r m words pieces inSlice eaOff eaIdx got w on element
    have hwords : words = touchedWords m := (touchedWords_eq m).symm
    refine ⟨fun hm => ?_, fun hne hal ho hs => ?_⟩
    · simp only [pieces, inSlice, hwords]
      exact ⟨fun hal hin ho hs => loadVector_served hm hal hin ho hs, fun hal hin ho hs => loadVector_served hm hal hin ho hs,
        fun hal hin ho hs => loadVector_served hm hal hin ho hs⟩
    · exact vgath_served (fun _ => rfl) rfl hne hal ho hs
  · intro p hint a off s
    obtain ⟨u, hu, hk⟩ := exec_pref p hint a off s
    have hme := hk.me
    obtain ⟨hmem, hcur, hslot, hstrands⟩ := hk
    refine ⟨_, hu, hmem, ?_, fun c i h => ?_⟩
    · rw [me_advance, hme, me_ready]; rfl
    · have hnot : (c, i) ≠ (u.cur, u.slot) := by rw [hcur, hslot]; exact h
      rw [show strandAt (advance u 4) c i = strandAt u c i from strandAt_modStrand_ne u _ hnot, hstrands]
      exact strandAt_modStrand_ne s _ h

end Sys2Proof.Machine
end

section
/-!
Statements about stores and reductions that fail (O6, O8, O10), each with the state that the model runs to another outcome.
-/
namespace Sys2Proof.Machine

/-! ## States -/

/-- The first address of the issuing core's own slice, and its location in core (0, 0). -/
def sliceStart : W64 := 0xFFFFFFFFFFFF0000

def sliceStartRef : Ref := ⟨sliceStart, sliceLoc 0 0, 0, .rc, false, false, none⟩

/-- The machine after reset with one strand, in slot 0 of core (0, 0). -/
def withStrand (t : Strand) : State :=
  { State.reset with cores := [(0, { Core.reset with slots := Core.reset.slots.set 0 t })] }

/-! ## Poison that a store brings to its word -/

/-- A strand whose v0 holds 1 and 2 in its lowest two 32-bit lanes, in a word that is poisoned; both indices in v1 are 0, and
m1 enables these two lanes. -/
def poisonedLanes : State := withStrand { Strand.free with
  occ := true
  uid := 1
  g := Strand.free.g.set 0 sliceStart
  v := Strand.free.v.set 0 0x0000000200000001
  m := Strand.free.m.set 1 3
  vPoison := 1 }

/-- The two elements, at one address, with where they go. -/
def sameElements : List (Piece × Ref) := [(⟨sliceStart, 4, 0⟩, sliceStartRef), (⟨sliceStart, 4, 0⟩, sliceStartRef)]

/-- The byte at the start of the slice after an instruction. -/
def firstByte : Answer → Option Byte
  | .next u => some (memGet u.mem (sliceLoc 0 0))
  | _ => none

theorem poisonedLanes_allowed :
    StoreAllowed (ready poisonedLanes) (ready poisonedLanes) [⟨sliceStart, 4, 0⟩, ⟨sliceStart, 4, 0⟩] sameElements :=
  ⟨rfl, by decide⟩

theorem firstByte_vscat : firstByte (exec (.vscat .m1 (.v 0) 0 .w (.v 1)) poisonedLanes) = some 1 := by decide +kernel

/-- Refutes O8: of two elements of a VSCAT at one address the first brings its register's poison to the word, so the home
rejects the second, which writes part of the word (R118, R421), and the byte stays that of the first. The statement asks
that the words be unpoisoned before the stores, but not that the data be. -/
theorem not_scalarStoreFrame : ¬ Obligations.ScalarStoreFrame := by
  unfold Obligations.ScalarStoreFrame
  rintro ⟨-, h⟩
  obtain ⟨u, hu⟩ := exec_answers (.vscat .m1 (.v 0) 0 .w (.v 1)) poisonedLanes
  have first := firstByte_vscat
  rw [hu] at first
  obtain ⟨-, frame⟩ := h .m1 (.v 0) (.v 1) 0 0 .w .offset 0 poisonedLanes (ready poisonedLanes) u sameElements 0
    (by decide) (by decide) (by decide)
  obtain ⟨scattered, -⟩ := frame (by decide)
  obtain ⟨-, bytes⟩ := scattered (by decide) ⟨by rfl, by rfl⟩ poisonedLanes_allowed hu
  obtain ⟨-, written⟩ := bytes (sliceLoc 0 0)
  have unhindered : ∀ e ∈ sameElements, Unhindered (ready poisonedLanes) e ∧
      (ready poisonedLanes).poison.contains (e.2.loc / 8) = false ∧
      footHeld (ready poisonedLanes) (e.2.loc / 8 * 8) = false := by unfold Unhindered; decide
  have last := written ⟨rfl, by decide, unhindered⟩
    [((⟨sliceStart, 4, 0⟩, 0xFF, 1), ⟨sliceStart, 4, 0⟩, sliceStartRef)]
    ((⟨sliceStart, 4, 0⟩, 0xFF, 2), ⟨sliceStart, 4, 0⟩, sliceStartRef) [] (by rfl) (by decide) (by simp)
  rw [firstByte, last] at first
  exact absurd first (by decide)

/-! ## A request that an access wakes while its own instruction completes -/

/-- A load of the first word of the slice, parked there, whose place in issue order is that of the next instruction. -/
def parkedLoad : Pending :=
  ⟨1, 0, 4, .load, [⟨sliceStart, sliceLoc 0 0, 8, 0, 0, .rc, none, none⟩], .scalar (.g 5) 64 false, none, false, none, none,
    [], false, false, false, 1, false⟩

/-- A strand with that load in flight, at a core whose east queue holds one entry for it. -/
def parkedLoadAndEntry : State :=
  { modCore (withStrand { Strand.free with
      occ := true
      uid := 1
      g := Strand.free.g.set 0 sliceStart
      bond := some 0
      inflight := [parkedLoad] }) 0 fun k => { k with inq := k.inq.set 1 [⟨7, 0, false, none, none⟩] } with
    clusters := [(0, { Cluster.reset with bond := some 0, part := some 0 })] }

/-- How many entries an instruction leaves in the east queue. -/
def eastEntries : Answer → Nat
  | .next u => (inqOf (coreOf u 0) .e).length
  | _ => 0

theorem eastEntries_st : eastEntries (exec (.st .always (.p .e) 0 .d .offset 0) parkedLoadAndEntry) = 1 := by
  decide +kernel

theorem eastEntries_red : eastEntries (exec (.red true .add .d .cr 0 (.p .e)) parkedLoadAndEntry) = 1 := by
  decide +kernel

/-- Refutes O6: the statement has the views of a store popped at once in every state, also in one whose strand has a load
in flight that is not earlier than the store and waits for its word. The store wakes that load, and the entry stays in its
queue: an instruction pops its views with the requests in flight that it has changed. -/
theorem not_stores : ¬ Obligations.Stores := by
  unfold Obligations.Stores
  rintro ⟨h, -, -⟩
  obtain ⟨store, -⟩ := h .always (.p .e) 0 0 .d 0 0 .cr parkedLoadAndEntry (ready parkedLoadAndEntry) sliceStartRef
    ([], State.reset) (by decide)
  have popped := congrArg eastEntries (store (by decide) ⟨by rfl, by rfl⟩ ⟨by rfl, by decide⟩)
  rw [eastEntries_st] at popped
  exact absurd popped (by decide +kernel)

/-- Refutes O10, in the same state: a releasing reduction replaces the tag of the word that the load waits for. -/
theorem not_atomicsAndReductions : ¬ Obligations.AtomicsAndReductions := by
  unfold Obligations.AtomicsAndReductions
  rintro ⟨-, h⟩
  obtain ⟨red, -⟩ := h true .add .fp32 .d .cr 0 (.p .e) parkedLoadAndEntry (ready parkedLoadAndEntry) sliceStartRef
    ⟨by rfl, by rfl⟩ (by rfl) (by decide) (by decide)
  have popped := congrArg eastEntries (red (by decide))
  rw [eastEntries_red] at popped
  exact absurd popped (by decide +kernel)

end Sys2Proof.Machine
end

section
/-!
Vector lane operations (O16): what each computes of its lanes, read as bit vectors, and the shapes that they share.
-/
namespace Sys2Proof.Machine

/-! ## Lanes as bit vectors -/

/-- What an operation makes of a lane: a bit vector in the integer formats, a code with its flags in the others (R71). -/
def byFormat (f : LFmt) (int : BitVec f.width) (fp : Fmt → Nat × Flags) : Nat × Flags :=
  match laneFmt f with
  | none => (int.toNat, 0)
  | some k => fp k

section
variable {f : LFmt} (rm : RMode) (x y z : BitVec f.width)

theorem qRead_lane : qRead f.width x.toNat = x.toInt := qRead_toNat (LFmt.lanes_width f).2.2 x

/-- Integer arithmetic on lanes is that of bit vectors, from which it differs by a multiple of 2 to the width. -/
theorem arith_toNat {int : Int → Int → Int} {fp : Fmt → RMode → Nat → Nat → Nat × Flags} {g : BitVec f.width}
    (h : BitVec.ofInt f.width (int x.toInt y.toInt) = g) :
    arith f int fp rm x.toNat y.toNat = byFormat f g fun k => fp k rm x.toNat y.toNat := by
  cases hk : laneFmt f with
  | none => simp only [arith, byFormat, hk, qRead_lane, intCode_eq, h]
  | some k => simp only [arith, byFormat, hk]

theorem addLane_toNat : addLane f rm x.toNat y.toNat = byFormat f (x + y) fun k => fpAdd k rm x.toNat y.toNat :=
  arith_toNat rm x y (by rw [BitVec.ofInt_add, BitVec.ofInt_toInt, BitVec.ofInt_toInt])

theorem subLane_toNat : subLane f rm x.toNat y.toNat = byFormat f (x - y) fun k => fpSub k rm x.toNat y.toNat :=
  arith_toNat rm x y (by rw [← BitVec.toInt_inj, BitVec.toInt_ofInt, BitVec.toInt_sub])

theorem mulLane_toNat : mulLane f rm x.toNat y.toNat = byFormat f (x * y) fun k => fpMul k rm x.toNat y.toNat :=
  arith_toNat rm x y (by rw [BitVec.ofInt_mul, BitVec.ofInt_toInt, BitVec.ofInt_toInt])

theorem minLane_toNat : minLane f rm x.toNat y.toNat =
    byFormat f (if x.toInt ≤ y.toInt then x else y) fun k => fpMin k x.toNat y.toNat :=
  arith_toNat rm x y (by rw [min_def]; split <;> exact BitVec.ofInt_toInt)

theorem maxLane_toNat : maxLane f rm x.toNat y.toNat =
    byFormat f (if x.toInt ≤ y.toInt then y else x) fun k => fpMax k x.toNat y.toNat :=
  arith_toNat rm x y (by rw [max_def]; split <;> exact BitVec.ofInt_toInt)

theorem mulHighLane_toNat : mulHighLane f rm x.toNat y.toNat =
    ((BitVec.ofInt f.width (x.toInt * y.toInt / 2 ^ f.width)).toNat, 0) := by
  rw [mulHighLane, qRead_lane, qRead_lane, intCode_eq]

theorem andLane_toNat : bitLane (· &&& ·) rm x.toNat y.toNat = ((x &&& y).toNat, 0) := by rw [bitLane, BitVec.toNat_and]

theorem orLane_toNat : bitLane (· ||| ·) rm x.toNat y.toNat = ((x ||| y).toNat, 0) := by rw [bitLane, BitVec.toNat_or]

theorem xorLane_toNat : bitLane (· ^^^ ·) rm x.toNat y.toNat = ((x ^^^ y).toNat, 0) := by rw [bitLane, BitVec.toNat_xor]

theorem shlLane_toNat : shlLane f rm x.toNat y.toNat = ((if f.width ≤ y.toNat then 0 else x <<< y.toNat).toNat, 0) := by
  unfold shlLane
  split <;> simp [BitVec.toNat_shiftLeft, Nat.shiftLeft_eq]

theorem shrLane_toNat : shrLane f rm x.toNat y.toNat = ((if f.width ≤ y.toNat then 0 else x >>> y.toNat).toNat, 0) := by
  unfold shrLane
  split <;> simp [BitVec.toNat_ushiftRight, Nat.shiftRight_eq_div_pow]

theorem sraLane_toNat : sraLane f rm x.toNat y.toNat = ((x.sshiftRight (Nat.min y.toNat f.width)).toNat, 0) := by
  rw [sraLane, qRead_lane, BitVec.sshiftRight, intCode_eq, Int.shiftRight_eq_div_pow]
  norm_cast

theorem absLane_toNat : absLane f x.toNat =
    byFormat f (BitVec.ofInt f.width x.toInt.natAbs) fun k => fpSetSign k false x.toNat := by
  cases hk : laneFmt f with
  | none => simp only [absLane, byFormat, hk, qRead_lane, intCode_eq]
  | some k => simp only [absLane, byFormat, hk]

theorem negLane_toNat : negLane f x.toNat =
    byFormat f (-x) fun k => fpSetSign k (!isNeg (readFp k x.toNat)) x.toNat := by
  cases hk : laneFmt f with
  | none => simp only [negLane, byFormat, hk, qRead_lane, intCode_eq, BitVec.ofInt_neg, BitVec.ofInt_toInt]
  | some k => simp only [negLane, byFormat, hk]

/-- Clamping bounds below first, then above, and raises the flags of both (R154). -/
theorem clampLane_toNat :
    let t := if z.toInt ≤ x.toInt then x else z
    clampLane f rm z.toNat x.toNat y.toNat = byFormat f (if t.toInt ≤ y.toInt then t else y) fun k =>
      let t := fpMax k z.toNat x.toNat
      ((fpMin k t.1 y.toNat).1, t.2 ||| (fpMin k t.1 y.toNat).2) := by
  intro t
  rw [clampLane, maxLane_toNat]
  cases hk : laneFmt f with
  | none => simp only [byFormat, hk, minLane_toNat, t]; rfl
  | some k => simp only [byFormat, hk, minLane, arith]

theorem macLane_toNat : macLane f rm z.toNat x.toNat y.toNat =
    byFormat f (z + x * y) fun k => fpFma k rm x.toNat y.toNat z.toNat := by
  cases hk : laneFmt f with
  | none =>
    simp only [macLane, byFormat, hk, qRead_lane, intCode_eq, BitVec.ofInt_add, BitVec.ofInt_mul, BitVec.ofInt_toInt]
  | some k => simp only [macLane, byFormat, hk]

end

/-! ## The shapes of lane operations -/

section
variable {i : Instr} {s : State} {len : Nat} {p : Pred} {m : W32} {f : LFmt} {d a b : VReg} {xs : List SReg}
  {vs : List VReg} {g' : Nat → Nat × Flags}

/-- A lane operation under a mask that its predicate gives; a compressed form, which has none, enables every lane (R84). -/
theorem masked_becomes {g : State → Nat → Nat × Flags} (hi : exec i s = laneOp len p f d { srcS := xs, srcV := vs } g s)
    (hm : predMask s p = m) (hg : ∀ j, g (ready s) j = g' j) :
    LanesBecome i s len m f.lanes f.width id d { srcS := xs, srcV := vs, dstV := [d] } g' id := hm ▸ laneOp_becomes hi hg

theorem lane2_becomes {g : RMode → Nat → Nat → Nat × Flags} (hi : exec i s = lane2 len p f d a b g s)
    (hm : predMask s p = m) (hg : ∀ j, g (fcsrRm (me s).fcsr) (lane (readV (ready s) a) f.width j).toNat
      (lane (readV (ready s) b) f.width j).toNat = g' j) :
    LanesBecome i s len m f.lanes f.width id d { srcV := [a, b], dstV := [d] } g' id :=
  masked_becomes hi hm fun j => by rw [← hg, myRm_ready]; rfl

theorem lane1_becomes {g : Nat → Nat × Flags} (hi : exec i s = lane1 len p f d a g s) (hm : predMask s p = m)
    (hg : ∀ j, g (lane (readV (ready s) a) f.width j).toNat = g' j) :
    LanesBecome i s len m f.lanes f.width id d { srcV := [a], dstV := [d] } g' id := masked_becomes hi hm hg

/-- .P makes no difference to an instruction that is on in some lane (R138). -/
theorem withP_becomes {dotP : Bool} {v : Uses} {g : State → Nat → Nat × Flags}
    (hi : exec i s = withP p f.width dotP v (laneOp len p f d { srcS := xs, srcV := vs } g) s)
    (hg : ∀ j, g (ready s) j = g' j) :
    LanesBecome i s len (predMask s p) f.lanes f.width id d { srcS := xs, srcV := vs, dstV := [d] } g' id := by
  unfold LanesBecome
  intro on hex
  obtain ⟨-, hn, -⟩ := LFmt.lanes_width f
  have hon : activeLanes s p f.width ≠ 0 := by
    simpa [activeLanes, lanes_of_width] using lanesOn_ne_zero hn hex
  exact laneOp_becomes (hi.trans (withP_on hon)) hg hex

theorem estimateLanes_becomes {o : EstOp} {dotP : Bool} (hi : exec i s = estimateLanes o p f dotP d a s) :
    LanesBecome i s 4 (predMask s p) f.lanes f.width id d { srcV := [a], dstV := [d] }
      (fun j => let x := lane (readV (ready s) a) f.width j; byFormat f x fun k => estimate o k x.toNat) id := by
  refine withP_becomes hi fun j => ?_
  cases hk : laneFmt f with
  | none => simp only [byFormat, hk, laneNat]
  | some k => simp only [byFormat, hk, laneNat]

end

/-- Settles O16, by the shape of each operation: two sources, one, or lanes moved. -/
theorem vectorLaneOperations : Obligations.VectorLaneOperations := by
  unfold Obligations.VectorLaneOperations
  constructor
  · intro p f d a b s r rm w m A both plain u uc is isC add sub mul mn mx shl shr sra
    exact ⟨lane2_becomes rfl rfl fun _ => addLane_toNat .., lane2_becomes rfl rfl fun _ => addLane_toNat ..,
      lane2_becomes rfl rfl fun _ => subLane_toNat .., lane2_becomes rfl rfl fun _ => subLane_toNat ..,
      lane2_becomes rfl rfl fun _ => mulLane_toNat .., lane2_becomes rfl rfl fun _ => mulLane_toNat ..,
      lane2_becomes rfl rfl fun _ => mulHighLane_toNat ..,
      lane2_becomes rfl rfl fun _ => minLane_toNat .., lane2_becomes rfl rfl fun _ => minLane_toNat ..,
      lane2_becomes rfl rfl fun _ => maxLane_toNat .., lane2_becomes rfl rfl fun _ => maxLane_toNat ..,
      lane2_becomes rfl rfl fun _ => andLane_toNat .., lane2_becomes rfl rfl fun _ => andLane_toNat ..,
      lane2_becomes rfl rfl fun _ => orLane_toNat .., lane2_becomes rfl rfl fun _ => orLane_toNat ..,
      lane2_becomes rfl rfl fun _ => xorLane_toNat .., lane2_becomes rfl rfl fun _ => xorLane_toNat ..,
      lane2_becomes rfl rfl fun _ => shlLane_toNat .., lane2_becomes rfl rfl fun _ => shlLane_toNat ..,
      lane2_becomes rfl rfl fun _ => shrLane_toNat .., lane2_becomes rfl rfl fun _ => shrLane_toNat ..,
      lane2_becomes rfl rfl fun _ => sraLane_toNat .., lane2_becomes rfl rfl fun _ => sraLane_toNat ..⟩
  · intro p f dotP d a b x k s r rm w m A one copy is isC absolute negated est
    have copied (v : VReg) (j : Nat) : (laneNat (readV r v) f.width j, 0) = copy v j := rfl
    refine ⟨withP_becomes rfl fun _ => absLane_toNat .., lane1_becomes rfl rfl fun _ => absLane_toNat ..,
      withP_becomes rfl fun _ => negLane_toNat .., lane1_becomes rfl rfl fun _ => negLane_toNat ..,
      withP_becomes rfl (copied a), lane1_becomes (p := .always) (g := fun x => (x, 0)) rfl rfl (copied b),
      masked_becomes rfl rfl fun _ => copied a _, masked_becomes (p := .always) rfl rfl fun _ => copied b 0,
      masked_becomes rfl rfl fun j => ?selected, masked_becomes rfl rfl fun _ => copied a _,
      masked_becomes rfl rfl fun _ => copied a _, masked_becomes rfl rfl fun _ => copied b _,
      withP_becomes rfl fun _ => by rfl, estimateLanes_becomes rfl, estimateLanes_becomes rfl, estimateLanes_becomes rfl,
      estimateLanes_becomes rfl, estimateLanes_becomes rfl, fun v => masked_becomes rfl rfl fun _ => clampLane_toNat ..,
      masked_becomes rfl rfl fun _ => by rw [myRm_ready]; exact macLane_toNat ..⟩
    case selected =>
      show (laneNat (if bit (getM (ready s) 0) j then readV r a else readV r b) f.width j, 0) =
        if bit (getM s 0) j then copy a j else copy b j
      rw [getM_ready]
      split <;> rfl

end Sys2Proof.Machine
end

section
/-!
Vector compares, reductions, single lanes and the fused operations (O17), and the bits of what they write.
-/
namespace Sys2Proof.Machine

/-! ## Instructions that raise flags -/

/-- An instruction that raises flags and then writes `k`, which leaves the requests in flight. -/
theorem compute_raised {s : State} {on : Bool} {u : Uses} {body : State → Except Stop State} {fl : Flags}
    {k : State → State} (hon : on = true) (ho : Operable (ready s) u)
    (hb : body (ready s) = (raise (ready s) fl).map k) (hk : ∀ t, (me (k t)).inflight = (me t).inflight) :
    compute s on u body = flaggedAnswer (ready s) 4 u fl k := by
  unfold raise at hb
  unfold flaggedAnswer
  by_cases hf : fl &&& fcsrEn (me (ready s)).fcsr = 0
  · rw [if_neg (by simpa using hf)] at hb
    rw [if_pos hf]
    exact compute_next hon ho hb (by simp [hk])
  · rw [if_pos hf] at hb
    rw [if_neg hf]
    exact (execute_stop (x := .trap 4 (fl.setWidth 64)) hon ho (by rw [hb]; rfl)).trans rfl

/-! ## VCMP (R153) -/

/-- The bits of a sum of powers that a condition selects. -/
theorem foldl_selected (l : List Nat) (c : Nat → Bool) (acc : Nat) :
    l.foldl (fun x i => x + (if c i then 1 else 0) * 2 ^ i) acc = (l.filter c).foldl (fun m i => m + 2 ^ i) acc := by
  induction l generalizing acc with
  | nil => rfl
  | cons i l ih => rw [List.foldl_cons, ih, List.filter_cons]; cases c i <;> simp

theorem lanesOn_getLsbD (m : W32) {n : Nat} (hn : n ≤ 32) (j : Nat) :
    (lanesOn m n).getLsbD j = (decide (j < n) && m.getLsbD j) := by
  rw [lanesOn, BitVec.getLsbD_and, BitVec.getLsbD_ofNat, Nat.testBit_two_pow_sub_one, Bool.and_comm]
  by_cases hj : j < n
  · simp [hj, show j < 32 by omega]
  · simp [hj]

/-- The mask that VCMP writes: the condition in the enabled lanes, the old bits in the others, zero above the lanes. -/
theorem compared_mask {m old n : W32} {k : Nat} (hk : k ≤ 32) {c : Nat → Bool}
    (h : ∀ j, n.getLsbD j = (decide (j < k) && if m.getLsbD j then c j else old.getLsbD j)) :
    BitVec.ofNat 32 ((enabledLanes m k).foldl (fun x i => x + (if c i then 1 else 0) * 2 ^ i) 0) |||
      (lanesOn old k &&& ~~~m) = n := by
  apply BitVec.eq_of_getLsbD_eq
  intro j hj
  have hset : ∀ i ∈ (enabledLanes m k).filter c, i < 32 := fun i hi => by
    have : i < k := List.mem_range.1 (List.mem_filter.1 (List.mem_filter.1 hi).1).1
    omega
  have distinct : ((enabledLanes m k).filter c).Nodup := (List.nodup_range.filter _).filter _
  rw [foldl_selected, BitVec.getLsbD_or, sumMask_bit _ distinct hset 0 (by simp),
    BitVec.getLsbD_and, lanesOn_getLsbD _ hk, BitVec.getLsbD_not, h]
  simp only [List.mem_filter, enabledLanes, List.mem_range, bit, hj]
  by_cases hjk : j < k <;> cases m.getLsbD j <;> simp [hjk]

theorem execVcmp_flagged {s : State} {p : Pred} {cc : VCond} {f : LFmt} {e : MReg} {a b : VReg} {fl : Flags} {n : W32}
    {m : W32} {c : Nat → Bool × Flags} (hm : lanesOn (predMask s p) f.lanes = m) (hne : m ≠ 0)
    (hc : ∀ j, condLane cc f (laneNat (readV (ready s) a) f.width j) (laneNat (readV (ready s) b) f.width j) = c j)
    (ho : Operable (ready s) { srcV := [a, b] })
    (hfl : ∀ i, fl.getLsbD i = true ↔ ∃ j, j < f.lanes ∧ m.getLsbD j = true ∧ (c j).2.getLsbD i = true)
    (hn : ∀ j, n.getLsbD j = (decide (j < f.lanes) && if m.getLsbD j then (c j).1 else (getM s e).getLsbD j)) :
    execVcmp p cc f e a b s = flaggedAnswer (ready s) 4 { srcV := [a, b] } fl fun t => setM t e n := by
  have hact : activeLanes s p f.width = m := by rw [activeLanes, lanes_of_width, hm]
  obtain ⟨-, h32, -⟩ := LFmt.lanes_width f
  have flags : unionFlags ((enabledLanes m f.lanes).map fun i => (i, if (c i).1 then 1 else 0, (c i).2)) = fl := by
    apply BitVec.eq_of_getLsbD_eq
    intro i _
    rw [unionFlags, unionFlags_bit, Bool.eq_iff_iff, hfl]
    simp [enabledLanes, bit]
  refine compute_raised (by simpa [hact] using hne) ho ?_ fun t => by simp [setM]
  simp only [hact, hc, flags, List.foldl_map, getM_ready]
  rw [compared_mask h32 (c := fun j => (c j).1) hn]
  exact bind_ok_eq_map _ _

/-! ## Single lanes (R155) -/

theorem packLanes_single (w k : Nat) (x : W64) :
    packLanes w [(k, lowBits x w)] = (x.setWidth w).setWidth 256 <<< (k * w) := by
  apply BitVec.eq_of_toNat_eq
  simp [packLanes, lowBits, Nat.shiftLeft_eq]

/-- What VEXT writes: the lane extended by its sign in an integer format, by zeros in the others. -/
theorem extracted_lane {f : LFmt} (x : BitVec f.width) :
    (if f.isInt then BitVec.ofInt 64 (qRead f.width x.toNat) else BitVec.ofNat 64 x.toNat) =
      if f.isInt then x.signExtend 64 else x.setWidth 64 := by
  rw [qRead_lane, ← BitVec.signExtend, BitVec.ofNat_toNat]

/-! ## Fused operations (R159) -/

/-- Three sources in a floating-point format, whose lanes are as wide as its codes. -/
theorem lane3_becomes {i : Instr} {s : State} {p : Pred} {k : FFmt} {f : LFmt} {d a b c : VReg}
    {g : Fmt → RMode → Nat → Nat → Nat → Nat × Flags} (hw : f.width = k.width)
    (hi : exec i s = lane3 p k f d a b c g s) :
    let L (v : VReg) (j : Nat) : Nat := laneNat (readV (ready s) v) k.width j
    LanesBecome i s 4 (predMask s p) (256 / k.width) k.width id d { srcV := [a, b, c], dstV := [d] }
      (fun j => g (ffmt k) (fcsrRm (me s).fcsr) (L a j) (L b j) (L c j)) id := by
  intro L
  rw [← hw]
  exact masked_becomes hi rfl fun j => by rw [myRm_ready]

/-- Lane j of VDOT on I8: four products added to the lane of c, modulo 2 to the 32. -/
theorem dotLane_i8 (rm : RMode) (a b c : W256) (j : Nat) :
    let q (i : Nat) : Int := (lane a 8 (4 * j + i)).toInt * (lane b 8 (4 * j + i)).toInt
    dotLane .i8 rm a b c j = ((BitVec.ofInt 32 ((lane c 32 j).toInt + q 0 + q 1 + q 2 + q 3)).toNat, 0) := by
  have byte (v : W256) (i : Nat) : qRead 8 (laneNat v 8 i) = (lane v 8 i).toInt := qRead_toNat (by decide) _
  have word : qRead 32 (laneNat c 32 j) = (lane c 32 j).toInt := qRead_toNat (by decide) _
  simp only [dotLane, byte, word, intCode_eq]

/-- Settles O17, each instruction by what its body raises and writes. -/
theorem vectorComparesReductionsAndFusedOperations : Obligations.VectorComparesReductionsAndFusedOperations := by
  unfold Obligations.VectorComparesReductionsAndFusedOperations
  constructor
  · intro p cc op f dotP e d a b v x y k table s r m A cond ua comb q z
    refine ⟨fun hne ho fl n hfl hn => ?_, fun hne ho => ?_, fun ho hon hk => ?_, fun ho hon => ?_, fun hne ho => ?_⟩
    · exact execVcmp_flagged rfl hne (fun _ => rfl) ho hfl hn
    · have hact : activeLanes s p f.width = m := by rw [activeLanes, lanes_of_width]
      refine (withP_on (by rwa [hact])).trans (compute_raised (by simpa [hact] using hne) ho ?_ fun t => by simp)
      simp only [hact, myRm_ready]
      exact bind_ok_eq_map _ _
    · exact compute_next hon ho (by rw [packLanes_single]) (by simp [r])
    · refine compute_next hon ho ?_ (by simp [r])
      exact congrArg (fun v => Except.ok (writeS r y v)) (extracted_lane (A a k.toNat))
    · exact ⟨lop3Bits table (getV r v) (readV r a) (readV r b), fun j hj => lop3Bits_getLsbD table _ _ _ hj,
        compute_next (by simpa using hne) ho rfl (by simp [r])⟩
  · intro p f h d a b c s r rm m u k g L
    refine ⟨?_, ?_, ?_, masked_becomes (f := .fp32) rfl rfl fun _ => dotLane_i8 ..⟩
    · cases f <;> exact lane3_becomes rfl rfl
    · cases h <;> exact lane3_becomes rfl rfl
    · exact masked_becomes (f := .fp32) rfl rfl fun _ => by rw [myRm_ready]; rfl

end Sys2Proof.Machine
end

section
/-!
Vector conversions (O18): the part of the wider vector that they name, and the draws of .SR in lane order.
-/
namespace Sys2Proof.Machine

/-! ## Draws in lane order (R47) -/

/-- How many lanes below j a mask enables: the place of lane j among the draws. -/
def lanesBelow (m : W32) (j : Nat) : Nat := ((List.range j).filter fun i => m.getLsbD i).length

/-- Of the enabled lanes, the one at place k has k enabled lanes below it. -/
theorem lanesBelow_enabled (m : W32) {n k : Nat} (h : k < ((List.range n).filter fun i => m.getLsbD i).length) :
    lanesBelow m ((List.range n).filter fun i => m.getLsbD i)[k] = k := by
  induction n with
  | zero => simp at h
  | succ n ih =>
    simp only [List.range_succ, List.filter_append, List.getElem_append]
    split
    case isTrue hk => exact ih hk
    case isFalse hk =>
      simp only [List.range_succ, List.filter_append, List.length_append] at h
      cases hm : m.getLsbD n with
      | false => simp [hm] at h; omega
      | true =>
        simp only [hm, List.filter_cons_of_pos, List.filter_nil, List.length_singleton] at h
        simp only [hm, List.filter_cons_of_pos, List.filter_nil, List.getElem_singleton, lanesBelow]
        omega

/-- Values dealt to the enabled lanes in order: each gets the one at the number of enabled lanes below it. -/
theorem zip_enabled (m : W32) (n : Nat) (l : List Nat) (h : l.length = lanesBelow m n) :
    ((List.range n).filter fun j => m.getLsbD j).zip l =
      ((List.range n).filter fun j => m.getLsbD j).map fun j => (j, l.getD (lanesBelow m j) 0) := by
  refine List.ext_getElem (by simp [h, lanesBelow]) fun k hk hk' => ?_
  rw [List.getElem_zip, List.getElem_map, lanesBelow_enabled, List.getD_eq_getElem]

/-! ## Places of the lanes (R160) -/

/-- The lane of a conversion's source or destination, w bits wide against v of the other: in the wider one's part. -/
theorem converted_place {ws wd : Nat} {part : BitVec 3} (hd : 8 ≤ wd) (h : partOk ws wd part = true) {j : Nat}
    (hj : j < 256 / Nat.max ws wd) :
    let q := if wd < ws then part.toNat * (256 / Nat.max ws wd) + j else j
    q < 32 ∧ q * wd + wd ≤ 256 := by
  intro q
  have fits : (q + 1) * wd ≤ 256 := by
    by_cases hw : wd < ws
    · have hmax : Nat.max ws wd = ws := Nat.max_eq_left hw.le
      have hmin : Nat.min ws wd = wd := Nat.min_eq_right hw.le
      simp only [partOk, hmax, hmin, decide_eq_true_eq] at h
      simp only [q, hw, if_true, hmax] at hj ⊢
      calc (part.toNat * (256 / ws) + j + 1) * wd ≤ (part.toNat * (256 / ws) + 256 / ws) * wd :=
            Nat.mul_le_mul_right _ (by omega)
        _ = (part.toNat + 1) * wd * (256 / ws) := by ring
        _ ≤ ws / wd * wd * (256 / ws) := Nat.mul_le_mul_right _ (Nat.mul_le_mul_right _ h)
        _ ≤ ws * (256 / ws) := Nat.mul_le_mul_right _ (Nat.div_mul_le_self ..)
        _ ≤ 256 := Nat.mul_div_le ..
    · have hmax : Nat.max ws wd = wd := Nat.max_eq_right (not_lt.1 hw)
      simp only [q, hw, if_false, hmax] at hj ⊢
      exact (Nat.mul_le_mul_right _ hj).trans (Nat.div_mul_le_self ..)
  have := (Nat.mul_le_mul_left (q + 1) hd).trans fits
  rw [Nat.succ_mul] at fits
  exact ⟨by omega, fits⟩

/-! ## The shape of a conversion -/

/-- The draw that lane j of n gets under .SR, where each enabled lane has one. -/
def drawOf (s : State) (sr : Bool) (m : W32) (n j : Nat) : Option Nat :=
  if sr then some ((draws (lanesBelow m n) (coreOf s s.cur).srseed).1.getD (lanesBelow m j) 0) else none

/-- SRSEED under .SR keeps the state after the last draw (R47). -/
def seedAfter (s : State) (sr : Bool) (m : W32) (n : Nat) (t : State) : State :=
  if sr then setSeed t (draws (lanesBelow m n) (coreOf s s.cur).srseed).2 else t

theorem seedAfter_inflight (s : State) (sr : Bool) (m : W32) (n : Nat) (t : State) :
    (me (seedAfter s sr m n t)).inflight = (me t).inflight := by
  cases sr
  · rfl
  · simp [seedAfter, setSeed, me_modCore]

theorem srseed_ready (s : State) : (coreOf (ready s) (ready s).cur).srseed = (coreOf s s.cur).srseed := by
  simp [ready, modMe]

theorem convertLanes_becomes {i : Instr} {s : State} {p : Pred} {sr : Bool} {ws wd n : Nat} {part : BitVec 3} {d : VReg}
    {srcs : List VReg} {g : State → Nat → Nat → Option Nat → Nat × Flags} {g' : Nat → Nat × Flags}
    (hi : exec i s = convertLanes p sr ws wd part.toNat d srcs g s) (hn : 256 / Nat.max ws wd = n) (hd : 8 ≤ wd)
    (hp : partOk ws wd part = true)
    (hg : ∀ j, g (ready s) (if ws < wd then part.toNat * n + j else j) j (drawOf s sr (predMask s p) n j) = g' j) :
    LanesBecome i s 4 (predMask s p) n wd (fun j => if wd < ws then part.toNat * n + j else j) d
      { srcV := srcs, dstV := [d] } g' (seedAfter s sr (predMask s p) n) := by
  subst hn
  have h32 : 256 / Nat.max ws wd ≤ 32 :=
    Nat.div_le_of_le_mul (Nat.mul_le_mul_right 32 (hd.trans (Nat.le_max_right ws wd)))
  refine lanes_become (hi.trans rfl) (lanesOn_ne_zero h32) ?_ ?_ (fun j hj => converted_place hd hp hj)
    fun t => by rw [seedAfter_inflight]; exact List.Subset.refl _
  · simp only [enabledLanes_lanesOn _ _ h32, srseed_ready]
    rw [← lanesBelow, zip_enabled _ _ _ (draws_length ..), List.map_map]
    simp only [Function.comp_def, ← hg]
    exact bind_ok_map _ _ _
  · intro j k _ _ h
    split at h <;> omega

/-! ## The instructions -/

theorem FFmt.eight_le_width (f : FFmt) : 8 ≤ f.width := by cases f <;> decide
theorem IFmt.eight_le_width (f : IFmt) : 8 ≤ f.width := by cases f <;> decide
theorem NarrowDst.eight_le_width (f : NarrowDst) : 8 ≤ f.width := by cases f <;> simp [NarrowDst.width]
theorem WidenDst.eight_le_width (f : WidenDst) : 8 ≤ f.width := by cases f <;> decide

theorem eight_le_vcvtWidth (k : VcvtKind) : 8 ≤ (vcvtWidths k).2 := by
  cases k with
  | ff dst _ => exact FFmt.eight_le_width dst
  | fi _ dst => exact IFmt.eight_le_width dst
  | intF dst _ => exact FFmt.eight_le_width dst

section
variable (p : Pred) (sr : Bool) (part : BitVec 3) (d a : VReg) (s : State)

theorem exec_vcvt (k : VcvtKind) : exec (.vcvt p sr k part d a) s =
    convertLanes p sr (vcvtWidths k).1 (vcvtWidths k).2 part.toNat d [a]
      (fun s i _ r => vcvtLane k (myRm s) r (laneNat (readV s a) (vcvtWidths k).1 i)) s := rfl

theorem exec_vnarrow (f : NarrowDst) : exec (.vnarrow p sr f part d a) s =
    convertLanes p sr 32 f.width part.toNat d [a, .v 0] (fun s i _ r => narrowTo f (myRm s) r
      (divNum (readFp fmtFp32 (laneNat (readV s a) 32 i)) (readFp fmtFp32 (laneNat (getV s 0) 32 i)))) s := rfl

theorem exec_vwiden (f : WidenDst) (e : WidenSrc) : exec (.vwiden p f e part d a) s =
    convertLanes p false e.width f.width part.toNat d [a, .v 0] (fun s i j _ => finishFp (widenFmt f) (myRm s)
      (mulNum (widenSrc e (laneNat (readV s a) e.width i)) (readFp (widenFmt f) (laneNat (getV s 0) f.width j)))) s := rfl

end

/-- Settles O18: the three instructions are one conversion of lanes each. -/
theorem vectorConversions : Obligations.VectorConversions := by
  unfold Obligations.VectorConversions
  intro p sr k nd wd ws part d a s r rm m seed below drawn seeded wide src dst L
  refine ⟨fun hp => ?_, fun hp => ?_, fun hp => ?_⟩
  · exact convertLanes_becomes (exec_vcvt ..) rfl (eight_le_vcvtWidth k) hp fun j => by rw [myRm_ready]; rfl
  · exact convertLanes_becomes (exec_vnarrow ..) rfl (NarrowDst.eight_le_width nd) hp fun j => by rw [myRm_ready]; rfl
  · exact convertLanes_becomes (exec_vwiden ..) rfl (WidenDst.eight_le_width wd) hp fun j => by rw [myRm_ready]; rfl

end Sys2Proof.Machine
end

section
/-!
Positions of a traversal (O20): the indices of a place are the digits of its number in the mixed radix of the counts
(R168), and the four fields that SPOS packs hold one index each (R188, R190).
-/
namespace Sys2Proof.Machine

/-! ## Counts and indices (R167, R168) -/

theorem sdCnt_pos (d : W512) (k : Nat) : 0 < sdCnt d k := Nat.succ_pos _

theorem sdCnt_le (d : W512) (k : Nat) : sdCnt d k ≤ 2 ^ 16 := by
  have width : 143 + 16 * k + 1 - (128 + 16 * k) = 16 := by omega
  rw [sdCnt, bits, width]
  exact Nat.mod_lt _ (by decide)

theorem sdIndex_lt (d : W512) (t : Nat) {k : Nat} (hk : k < 4) : sdIndex d t k < sdCnt d k := by
  interval_cases k <;> exact Nat.mod_lt _ (sdCnt_pos ..)

theorem sdIndex_lt_two_pow (d : W512) (t : Nat) {k : Nat} (hk : k < 4) : sdIndex d t k < 2 ^ 16 :=
  (sdIndex_lt d t hk).trans_le (sdCnt_le d k)

/-- Within the traversal the slowest index needs no wrapping. -/
theorem sdIndex_three {d : W512} {t : Nat} (h : t < sdTotal d) :
    sdIndex d t 3 = t / (sdCnt d 0 * sdCnt d 1 * sdCnt d 2) :=
  Nat.mod_eq_of_lt (Nat.div_lt_of_lt_mul h)

/-- A place of the traversal counts its indices, i0 fastest (R168). -/
theorem place_eq_indices {d : W512} {t : Nat} (h : t < sdTotal d) :
    t = sdIndex d t 0 + sdCnt d 0 * (sdIndex d t 1 + sdCnt d 1 * (sdIndex d t 2 + sdCnt d 2 * sdIndex d t 3)) := by
  have h2 : sdIndex d t 2 + sdCnt d 2 * sdIndex d t 3 = t / (sdCnt d 0 * sdCnt d 1) := by
    rw [sdIndex_three h, ← Nat.div_div_eq_div_mul]
    exact Nat.mod_add_div ..
  have h1 : sdIndex d t 1 + sdCnt d 1 * (t / (sdCnt d 0 * sdCnt d 1)) = t / sdCnt d 0 := by
    rw [← Nat.div_div_eq_div_mul]
    exact Nat.mod_add_div ..
  rw [h2, h1]
  exact (Nat.mod_add_div ..).symm

/-! ## The packed position (R188, R190) -/

/-- Four fields of 16 bits read back from the word that packs them. -/
theorem bits_ofNat_fields {i j k l : Nat} (hi : i < 2 ^ 16) (hj : j < 2 ^ 16) (hk : k < 2 ^ 16) (hl : l < 2 ^ 16) :
    let a : W64 := BitVec.ofNat 64 (i + j * 2 ^ 16 + k * 2 ^ 32 + l * 2 ^ 48)
    bits a 15 0 = i ∧ bits a 31 16 = j ∧ bits a 47 32 = k ∧ bits a 63 48 = l := by
  simp only [bits, BitVec.toNat_ofNat, Nat.shiftRight_eq_div_pow]
  omega

/-- Field k of the packed position is index k of its place. -/
theorem bits_sdPack (d : W512) (t : Nat) :
    bits (sdPack d t) 15 0 = sdIndex d t 0 ∧ bits (sdPack d t) 31 16 = sdIndex d t 1 ∧
      bits (sdPack d t) 47 32 = sdIndex d t 2 ∧ bits (sdPack d t) 63 48 = sdIndex d t 3 :=
  bits_ofNat_fields (sdIndex_lt_two_pow d t (by decide)) (sdIndex_lt_two_pow d t (by decide))
    (sdIndex_lt_two_pow d t (by decide)) (sdIndex_lt_two_pow d t (by decide))

theorem sdPlace_sdPack {d : W512} {t : Nat} (h : t < sdTotal d) : sdPlace d (sdPack d t) = t := by
  obtain ⟨h0, h1, h2, h3⟩ := bits_sdPack d t
  rw [sdPlace, h0, h1, h2, h3]
  exact (place_eq_indices h).symm

theorem placeOk_sdPack (d : W512) (t : Nat) : placeOk d (sdPack d t) = true := by
  obtain ⟨h0, h1, h2, h3⟩ := bits_sdPack d t
  rw [placeOk, List.all_eq_true]
  intro k hk
  have hk : k < 4 := List.mem_range.1 hk
  have field : bits (sdPack d t) (16 * k + 15) (16 * k) = sdIndex d t k := by interval_cases k <;> assumption
  rw [field]
  exact decide_eq_true (sdIndex_lt d t hk)

/-- Settles O20: the indices of the place are those that the statement asks for. -/
theorem streamPositionsRoundTrip : Obligations.StreamPositionsRoundTrip := by
  unfold Obligations.StreamPositionsRoundTrip
  intro d t h
  exact ⟨sdPlace_sdPack h, placeOk_sdPack d t, sdIndex d t 0, sdIndex d t 1, sdIndex d t 2, sdIndex d t 3,
    sdIndex_lt d t (by decide), sdIndex_lt d t (by decide), sdIndex_lt d t (by decide), sdIndex_lt d t (by decide),
    place_eq_indices h, rfl, rfl⟩

end Sys2Proof.Machine
end

section
/-!
Steps of stream engines and seam buffers (O35): what each event does when its conditions hold.
-/
namespace Sys2Proof.Machine

section
variable {s u : State} {c k : CoreId} {n : StreamId} {l : Port} {f : ElemFault} {e last : Elem} {t : List Elem}
  {en : PortEntry} {es : List PortEntry}

/-! ## Read engines (R175, R176, R187) -/

/-- A fetched element enters the buffer, and the engine goes on behind its place. -/
def putFetched (s : State) (c : CoreId) (n : StreamId) (r : List W32 × Nat) (z : Elem) : State :=
  modStream s c n fun st => { st with skips := r.1, ahead := r.2 + 1, buf := st.buf ++ [z] }

section
variable {st : Stream} {r : List W32 × Nat} (hst : (coreOf s c).streams[n] = st) (hr : nextOf s c st st.ahead = r)
  (hmay : mayFetch s c n st = true) (hlt : r.2 < sdTotal st.desc)
include hst hr hmay hlt

theorem streamFetch_zero (hz : st.zeros.contains r.2 = true) :
    streamFetch s c n = putFetched s c n r ⟨r.2, true, 0, none⟩ := by
  subst hst hr
  simp only [streamFetch, hmay, Nat.not_le.2 hlt, hz]
  rfl

theorem streamFetch_data {v : W256} (hz : st.zeros.contains r.2 = false)
    (hread : readElem s c n (streamWho s c st) (sdPres st.desc) (sdAddr st.desc r.2) (elemChunks (sdSize st.desc)) =
      (.data v, u)) :
    streamFetch s c n = putFetched u c n r ⟨r.2, true, v, none⟩ := by
  subst hst hr
  simp only [streamFetch, hmay, Nat.not_le.2 hlt, hz, hread]
  rfl

theorem streamFetch_fault (hz : st.zeros.contains r.2 = false)
    (hread : readElem s c n (streamWho s c st) (sdPres st.desc) (sdAddr st.desc r.2) (elemChunks (sdSize st.desc)) =
      (.fault f, u)) :
    streamFetch s c n = putFetched u c n r ⟨r.2, true, 0, some f⟩ := by
  subst hst hr
  simp only [streamFetch, hmay, Nat.not_le.2 hlt, hz, hread]
  rfl

end

/-! ## Write engines (R177, R189) -/

section
variable {st : Stream} (hst : (coreOf s c).streams[n] = st)

theorem pausedAt_eq_false (h : st.bound = none ∨ (coreOf s c).frozen = none ∨ e.first = false) :
    pausedAt (coreOf s c) st e = false := by
  rcases h with h | h | h <;> simp [pausedAt, h]

include hst

/-- An element of one piece, unpoisoned and of a stream without presence bits, is written at its home. -/
theorem streamPerform_one {off len : Nat} {ref : Ref} (hw : sdWrite st.desc = true) (ht : st.token = none)
    (hb : st.buf = e :: t) (hp : pausedAt (coreOf s c) st e = false)
    (hc : checkElem s c (streamWho s c st) (sdAddr st.desc e.idx) (elemChunks (sdSize st.desc)) =
      .ok ([(off, len, ref)], u)) (hf : e.fault = none) (hpres : sdPres st.desc = false) :
    streamPerform s c n = wakeWord (setTag (putBytes
      (crossSeams (modStream u c n fun st => { st with buf := t }) c ref.loc (.stream c n)) ref.loc ref.key len
      ((e.data >>> (8 * off)).setWidth 64)) (wordOf ref.loc) none) (wordOf ref.loc) := by
  subst hst
  simp only [streamPerform, hw, ht, hb, hp, hc, hf, hpres]
  rfl

theorem streamPerform_fault (hw : sdWrite st.desc = true) (ht : st.token = none) (hb : st.buf = e :: t)
    (hp : pausedAt (coreOf s c) st e = false)
    (hc : checkElem s c (streamWho s c st) (sdAddr st.desc e.idx) (elemChunks (sdSize st.desc)) = .error (some f)) :
    streamPerform s c n = streamPost s c n e.idx (streamMsg c n st .writeStream e.idx f) := by
  subst hst
  simp only [streamPerform, hw, ht, hb, hp, hc]
  rfl

end

/-! ## Bound streams (R185, R187) -/

/-- A change of a core outside its streams leaves the streams of every core. -/
theorem streams_modCore (d : CoreId) {g : Core → Core} (hg : ∀ k, (g k).streams = k.streams) :
    (coreOf (modCore s c g) d).streams = (coreOf s d).streams := by
  by_cases h : d = c
  · rw [h, coreOf_modCore_self, hg]
  · rw [coreOf_modCore_ne s g h]

theorem streams_useCtx (d : CoreId) (owner : Transfer) :
    (coreOf (useCtx s c l owner) d).streams = (coreOf s d).streams :=
  streams_modCore d fun _ => rfl

theorem streams_pushLink (d : CoreId) (en : PortEntry) :
    (coreOf (pushLink s c l en) d).streams = (coreOf s d).streams := by
  unfold pushLink
  split
  · exact streams_modCore d fun _ => rfl
  · split
    · exact streams_modCore d fun _ => rfl
    · rfl

/-- Two changes that agree on a stream as it stands are one change of it. -/
theorem modStream_congr {g h : Stream → Stream} (heq : g (coreOf s c).streams[n] = h (coreOf s c).streams[n]) :
    modStream s c n g = modStream s c n h := by
  simp only [modStream, modCore, heq]

section
variable {st : Stream} (hst : (coreOf s c).streams[n] = st) (hl : st.bound = some l) (hm : st.mode = .active)
  (ht : st.token = none) (hz : (coreOf s c).frozen = none)
include hst hl hm ht hz

theorem boundPush_group (hw : sdWrite st.desc = false) (hr : popReady s c st (sdGroup st.desc) = true)
    (hf : popFault st (sdGroup st.desc) = none) (hlast : (st.buf.take (sdGroup st.desc)).getLast? = some last)
    (hroom : linkFree s c l ≠ 0) {nx : List W32 × Nat}
    (hnx : nextPlace s.mem c st.desc (2 * sdTotal st.desc + 2) st.skips (last.idx + 1) = nx) :
    boundPush s c n = modStream (pushLink (if crossesSeam c l then useCtx s c l (.stream c n) else s) c l
      ⟨popBytes st (st.buf.take (sdGroup st.desc)) 0, tagBits (coreOf s c), false, some (c, n, nx.2), none⟩) c n
      fun x => { x with buf := x.buf.drop (sdGroup x.desc), skips := nx.1 } := by
  subst hst hnx
  have unchanged (y : State) (h : (coreOf y c).streams = (coreOf s c).streams) (z : PortEntry) :
      (coreOf (pushLink y c l z) c).streams[n] = (coreOf s c).streams[n] := by rw [streams_pushLink, h]
  simp only [boundPush, hl, hm, ht, hz, hw, hr, hf, hlast, hroom, bne_self_eq_false, Option.isSome_none, Bool.or_self,
    Bool.not_true, Bool.false_eq_true, if_false]
  refine modStream_congr ?_
  rw [unchanged _ (by split <;> simp only [streams_useCtx])]

/-- The first element of the group that faults halts the engine (R187). -/
theorem boundPush_fault (hw : sdWrite st.desc = false) (hr : popReady s c st (sdGroup st.desc) = true)
    (hf : popFault st (sdGroup st.desc) = some e) (he : e.fault = some f) :
    boundPush s c n = streamPost s c n e.idx (streamMsg c n st .readStream e.idx f) := by
  subst hst
  simp only [boundPush, hl, hm, ht, hz, hw, hr, hf, he]
  rfl

theorem boundPop_entry (hw : sdWrite st.desc = true) (hq : inqOf (coreOf s c) l = en :: es)
    (hplaces : (pushPlaces s c st true).1 ≠ []) (hroom : pushRoom st true = true) :
    let ps := pushPlaces s c st true
    boundPop s c n = modStream (popLink s c l) c n fun x =>
      let y := setPlace x ps.2.1 ps.2.2
      { y with buf := y.buf ++ cutElems y en.data (if en.poison then some .poison else none) ps.1 0 } := by
  subst hst
  simp only [boundPop, hl, hm, ht, hz, hw, hq, hroom, List.isEmpty_eq_false_iff.2 hplaces]
  rfl

end

/-! ## Seams (R441, R442) -/

theorem seamForward_oldest (hq : seamOf (coreOf s c) l = en :: es) (hk : neighbour c l = some k)
    (hroom : (inqOf (coreOf s k) (opposite l)).length < 4) :
    seamForward s c l = modCore (modCore s c fun y => setSeam y l es) k fun y =>
      setInq y (opposite l) (inqOf y (opposite l) ++ [en]) := by
  simp only [seamForward, hq, hk, if_neg (Nat.not_le.2 hroom)]

theorem exec_seamContextTimeout_idle {idx : Nat} {x : SeamCtx} (hx : (coreOf s c).ctxs[portFin l][idx]? = some x)
    (h : x.last + 4096 ≤ s.ticks) :
    exec (.seamContextTimeout c l idx) s = .next (modCore s c fun y =>
      { y with ctxs := y.ctxs.set (portFin l) (y.ctxs[portFin l].eraseIdx idx) }) := by
  show execSeamContextTimeout c l idx s = _
  simp only [execSeamContextTimeout, hx, if_pos h]

end

/-- Settles O35, event by event (`streamEvents` is the name of the list of a stream's steps). -/
theorem streamAndSeamEvents : Obligations.StreamEvents := by
  unfold Obligations.StreamEvents
  intro c k n l idx off len v f e last t ref en es x s u core st r fetched read checked
  have next {y z : State} (h : y = z) : (.next y : Answer) = .next z := congrArg _ h
  refine ⟨fun hmay hlt => ⟨fun hz => next (streamFetch_zero rfl rfl hmay hlt hz), fun hz =>
      ⟨fun hread => next (streamFetch_data rfl rfl hmay hlt hz hread),
        fun hread => next (streamFetch_fault rfl rfl hmay hlt hz hread)⟩⟩,
    fun hw ht hb hp => ⟨fun hc hf hpres =>
        next (streamPerform_one rfl hw ht hb (pausedAt_eq_false hp) hc hf hpres),
      fun hc => next (streamPerform_fault rfl hw ht hb (pausedAt_eq_false hp) hc)⟩,
    fun hl hm ht hz => ⟨fun hw hr hf hlast hroom => next (boundPush_group rfl hl hm ht hz hw hr hf hlast hroom rfl),
      fun hw hr hf he => next (boundPush_fault rfl hl hm ht hz hw hr hf he),
      fun hw hq hplaces hroom => next (boundPop_entry rfl hl hm ht hz hw hq hplaces hroom)⟩,
    fun hq hk hroom => next (seamForward_oldest hq hk hroom), exec_seamContextTimeout_idle⟩

end Sys2Proof.Machine
end

section
/-!
The stream instructions (O21): none of them reads or writes a view, and each begins once no request on its way is to pop
its stream; what is left is its body on a stream that stands as it stood before the instruction.
-/
namespace Sys2Proof.Machine

/-! ## Streams that are unbound or dropped (R186, R189 to R191) -/

section
variable {s : State} {c : CoreId} {n : StreamId}

theorem streams_modStream_self (s : State) (c : CoreId) (n : StreamId) (f : Stream → Stream) :
    (coreOf (modStream s c n f) c).streams[n] = f (coreOf s c).streams[n] := by
  simp [modStream]

theorem streamOf_modStream (h : s.cur = c) (f : Stream → Stream) :
    streamOf (modStream s c n f) n = f (streamOf s n) := by
  subst h
  exact streams_modStream_self ..

@[simp] theorem streamOf_advance (s : State) (n : StreamId) (len : Nat) : streamOf (advance s len) n = streamOf s n := by
  show (coreOf (modStrand s s.cur s.slot _) s.cur).streams[n] = _
  rw [coreOf_modStrand_self]
  rfl

/-- Withdrawing queue entries changes no strand, and the issuing strand stays the same one. -/
theorem withdraw_keeps_issuer (s : State) (c : CoreId) (n : StreamId) :
    (withdraw s c n).cur = s.cur ∧ (withdraw s c n).slot = s.slot ∧ me (withdraw s c n) = me s := by
  unfold withdraw
  dsimp only
  split
  · exact ⟨rfl, rfl, rfl⟩
  · split
    · exact ⟨rfl, rfl, rfl⟩
    · split <;> simp [me_modCore, setInq, setSeam]

@[simp] theorem withdraw_cur (s : State) (c : CoreId) (n : StreamId) : (withdraw s c n).cur = s.cur :=
  (withdraw_keeps_issuer s c n).1

@[simp] theorem me_withdraw (s : State) (c : CoreId) (n : StreamId) : me (withdraw s c n) = me s :=
  (withdraw_keeps_issuer s c n).2.2

@[simp] theorem unbind_cur (s : State) (c : CoreId) (n : StreamId) : (unbind s c n).cur = s.cur := withdraw_cur ..

@[simp] theorem unbind_slot (s : State) (c : CoreId) (n : StreamId) : (unbind s c n).slot = s.slot :=
  (withdraw_keeps_issuer s c n).2.1

@[simp] theorem me_unbind (s : State) (c : CoreId) (n : StreamId) : me (unbind s c n) = me s := by simp [unbind]

theorem unbind_bound (s : State) (n : StreamId) : (streamOf (unbind s s.cur n) n).bound = none := by
  rw [unbind, streamOf_modStream (withdraw_cur ..)]

@[simp] theorem dropRead_cur (s : State) (n : StreamId) : (dropRead s n).cur = s.cur := by
  unfold dropRead; split <;> simp

@[simp] theorem me_dropRead (s : State) (n : StreamId) : me (dropRead s n) = me s := by
  unfold dropRead; split <;> simp

/-- A stream that is bound to no link has no queue entries to withdraw. -/
theorem withdraw_unbound (h : (coreOf s c).streams[n].bound = none) : withdraw s c n = s := by simp only [withdraw, h]

/-- Dropping what a read stream holds leaves an unbound stream unbound. -/
theorem dropRead_unbound (h : (streamOf s n).bound = none) : (streamOf (dropRead s n) n).bound = none := by
  unfold dropRead
  split
  · exact h
  · rw [withdraw_unbound h, streamOf_modStream rfl]
    exact h

/-- The state that SSTOP leaves of a stream that is not idle, before the PC advances (R189). -/
def stopped (s : State) (n : StreamId) : State :=
  modStream (dropRead (unbind s s.cur n) n) s.cur n fun x => { x with mode := .stopped }

theorem streamOf_stopped (s : State) (n : StreamId) :
    streamOf (stopped s n) n = { streamOf (dropRead (unbind s s.cur n) n) n with mode := .stopped } :=
  streamOf_modStream (by simp) _

/-! ## A stream as it stands when the instruction begins -/

@[simp] theorem ready_cur (s : State) : (ready s).cur = s.cur := rfl

@[simp] theorem streams_ready (s : State) : (coreOf (ready s) s.cur).streams = (coreOf s s.cur).streams := by
  show (coreOf (modStrand s s.cur s.slot _) s.cur).streams = _
  rw [coreOf_modStrand_self]

@[simp] theorem streamOf_ready (s : State) (n : StreamId) : streamOf (ready s) n = (coreOf s s.cur).streams[n] := by
  simp [streamOf]

@[simp] theorem boundOn_ready (s : State) (l : Port) (write : Bool) :
    boundOn (coreOf (ready s) s.cur) l write = boundOn (coreOf s s.cur) l write := by
  simp [boundOn]

@[simp] theorem myLink_ready (s : State) (q : Port) : myLink (ready s) q = linkOf (me s).orient q := by
  rw [myLink, me_ready]

end

/-! ## Bodies that wait for their stream -/

section
variable {s t : State} {on : Bool} {u : Uses} {body : State → Except Stop State}

theorem waitUnless_bind {b : Bool} {k : Unit → Except Stop State} (h : b = true) : (waitUnless b >>= k) = k () := by
  rw [h]; rfl

/-- How a stream instruction ends that raises cause 0x06 (R174). -/
def streamTrapped (s : State) (n : StreamId) (reason : Nat) : Answer :=
  .next (takeTrap (dropBlocks (ready s)) 4 0x06 (BitVec.ofNat 64 (n.val + 16 * reason)))

theorem compute_streamTrap {n : StreamId} {reason : Nat} (hon : on = true) (h : Operable (ready s) u)
    (hb : body (ready s) = .error (streamTrap n reason)) : compute s on u body = streamTrapped s n reason :=
  execute_stop (x := streamTrap n reason) hon h (by rw [hb]; rfl)

end

/-! ## What each instruction does (R185 to R192) -/

section
variable {p : Pred} {n : StreamId} {q : Port} {d a : GReg} {s : State} {st : Stream} (hon : predOn s p = true)
  (hst : streamOf (ready s) n = st)
include hon hst

theorem exec_spos (ho : Operable (ready s) { dstS := [.g d] }) : exec (.spos p d n) s =
    .next (advance (setG (ready s) d (if st.mode = .idle ∨ st.exh = true then 0 else sdPack st.desc st.pos)) 4) :=
  compute_unpopped hon ho rfl (by simp only [hst])

variable (hfree : streamFree (ready s) n = true)
include hfree

omit hst in
theorem exec_sbind_none : exec (.sbind p n none) s = .next (advance (unbind (ready s) s.cur n) 4) :=
  compute_unpopped hon (operable_nothing _) rfl (waitUnless_bind hfree)

theorem exec_sbind_free {l : Port} (hl : linkOf (me s).orient q = l) (hm : st.mode = .active) (hb : st.bound = none)
    (hlink : boundOn (coreOf s s.cur) l (sdWrite st.desc) = none) : exec (.sbind p n (some q)) s =
      .next (advance (modStream (ready s) s.cur n fun x => { x with bound := some l }) 4) := by
  refine compute_unpopped hon (operable_nothing _) rfl ((waitUnless_bind hfree).trans ?_)
  simp [hst, hl, hm, hb, hlink]

theorem exec_sbind_taken {l : Port} (hl : linkOf (me s).orient q = l)
    (h : st.mode ≠ .active ∨ st.bound ≠ none ∨ boundOn (coreOf s s.cur) l (sdWrite st.desc) ≠ none) :
    exec (.sbind p n (some q)) s = streamTrapped s n 7 := by
  refine compute_streamTrap hon (operable_nothing _) ((waitUnless_bind hfree).trans (if_pos ?_))
  simpa [hst, hl, Option.isSome_iff_ne_none] using h

theorem exec_sstop_idle (hm : st.mode = .idle) : exec (.sstop p n) s = .next (advance (ready s) 4) :=
  compute_unpopped hon (operable_nothing _) rfl ((waitUnless_bind hfree).trans (if_pos (by rw [hst, hm])))

theorem exec_sstop (hm : st.mode ≠ .idle) : exec (.sstop p n) s = .next (advance (stopped (ready s) n) 4) :=
  compute_unpopped hon (operable_nothing _) rfl ((waitUnless_bind hfree).trans (if_neg (by rwa [hst])))

theorem exec_srew (ho : Operable (ready s) { srcS := [.g a] }) (hm : st.mode ≠ .idle)
    (hok : placeOk st.desc (getG (ready s) a) = true) : exec (.srew p n a) s =
      .next (advance (modStream (dropRead (ready s) n) s.cur n fun x => { x with
        pos := sdPlace st.desc (getG (ready s) a), ahead := sdPlace st.desc (getG (ready s) a), endF := false
        exh := false, mode := .active }) 4) := by
  refine compute_unpopped hon ho rfl ((waitUnless_bind hfree).trans ((if_neg (by rwa [hst])).trans ?_))
  simp only [hst, hok]
  rfl

theorem exec_srew_idle (ho : Operable (ready s) { srcS := [.g a] }) (hm : st.mode = .idle) :
    exec (.srew p n a) s = streamTrapped s n 1 :=
  compute_streamTrap hon ho ((waitUnless_bind hfree).trans (if_pos (by rw [hst, hm])))

theorem exec_srew_outside (ho : Operable (ready s) { srcS := [.g a] }) (hm : st.mode ≠ .idle)
    (hout : placeOk st.desc (getG (ready s) a) = false) : exec (.srew p n a) s = streamTrapped s n 8 :=
  compute_streamTrap hon ho ((waitUnless_bind hfree).trans ((if_neg (by rwa [hst])).trans
    (if_pos (by rw [hst, hout]; rfl))))

theorem exec_sflush (hd : drained (ready s) = true) (hl : pushedLeft st = false) : exec (.sflush p n) s =
    .next (advance (if st.mode = .idle then ready s else dropRead (ready s) n) 4) :=
  compute_unpopped hon (operable_nothing _) rfl ((waitUnless_bind (by rw [hd, hfree, hst, hl]; rfl)).trans (by rw [hst]))

theorem exec_sskip (ho : Operable (ready s) { srcS := [.g a] }) (hm : st.mode = .active) (hb : st.bound = none) :
    exec (.sskip p n a) s = .next (advance (if getG (ready s) a = 0 then ready s else
      modStream (ready s) s.cur n fun x => skipElems (ready s) s.cur x (getG (ready s) a).toNat) 4) := by
  refine compute_unpopped hon ho rfl ((waitUnless_bind hfree).trans ((if_neg (by rw [hst, hm]; decide)).trans
    ((if_neg (by rw [hst, hb]; decide)).trans ?_)))
  split <;> rfl

theorem exec_sskip_inactive (ho : Operable (ready s) { srcS := [.g a] }) (hm : st.mode ≠ .active) :
    exec (.sskip p n a) s = streamTrapped s n 1 :=
  compute_streamTrap hon ho ((waitUnless_bind hfree).trans (if_pos (by rwa [hst])))

theorem exec_sskip_bound (ho : Operable (ready s) { srcS := [.g a] }) (hm : st.mode = .active) (hb : st.bound ≠ none) :
    exec (.sskip p n a) s = streamTrapped s n 9 :=
  compute_streamTrap hon ho ((waitUnless_bind hfree).trans ((if_neg (by rw [hst, hm]; decide)).trans
    (if_pos (by rw [hst]; exact Option.isSome_iff_ne_none.2 hb))))

end

/-! ## Descriptors that SCFG refuses (R169) -/

/-- Bits [hi:lo] of a descriptor, by division. -/
def sdField (d : W512) (hi lo : Nat) : Nat := d.toNat / 2 ^ lo % 2 ^ (hi + 1 - lo)

theorem bits_eq_sdField (d : W512) (hi lo : Nat) : bits d hi lo = sdField d hi lo := by
  rw [bits, sdField, Nat.shiftRight_eq_div_pow]

theorem bit_iff_sdField (d : W512) (i : Nat) : bit d i = true ↔ sdField d i i = 1 := by
  rw [bit, BitVec.getLsbD, Nat.testBit_eq_decide_div_mod_eq, decide_eq_true_iff, sdField, Nat.add_sub_cancel_left, pow_one]

theorem sdField_ne_one_iff (d : W512) (i : Nat) : ¬ sdField d i i = 1 ↔ sdField d i i = 0 := by
  have range : sdField d i i < 2 := by rw [sdField, Nat.add_sub_cancel_left]; exact Nat.mod_lt _ (by decide)
  omega

/-- What makes a descriptor invalid for a reason other than alignment (R169). -/
def SdMalformed (d : W512) : Prop :=
  sdField d 79 74 ≠ 0 ∨ sdField d 127 112 ≠ 0 ∨ sdField d 511 448 ≠ 0 ∨ 4 < sdField d 66 64 ∨
    (sdField d 68 68 = 1 ∧ (sdField d 67 67 = 1 ∨ 3 ≤ sdField d 66 64)) ∨
    (sdField d 69 69 = 1 ∧ sdField d 63 48 ≠ 0xFFFF) ∨ (sdField d 70 70 = 1 ∧ sdField d 95 80 % 4 ≠ 0) ∨
    (sdField d 71 71 = 0 ∧ sdField d 73 72 ≠ 0)

/-- The multiple that BASE and the strides have to be (R169). -/
def sdAlign (d : W512) : Nat := match sdField d 66 64 with | 0 => 1 | 1 => 2 | 2 => 4 | _ => 8

/-- BASE, or a stride of a dimension of more than one element, is no such multiple (R169). -/
def SdMisaligned (d : W512) : Prop :=
  sdField d 63 0 % sdAlign d ≠ 0 ∨ ∃ k < 4, sdField d (143 + 16 * k) (128 + 16 * k) ≠ 0 ∧
    sdField d (255 + 64 * k) (192 + 64 * k) % sdAlign d ≠ 0

theorem anyBelow_iff {f : Nat → Bool} {n : Nat} : anyBelow f n = true ↔ ∃ k < n, f k = true := by
  induction n with
  | zero => simp [anyBelow]
  | succ n ih => rw [anyBelow, Bool.or_eq_true, ih, Nat.exists_lt_succ_right]

theorem toNat_sdBase (d : W512) : (sdBase d).toNat = sdField d 63 0 := by
  rw [sdBase, BitVec.extractLsb'_toNat, sdField, Nat.shiftRight_eq_div_pow]

theorem toNat_sdStride (d : W512) (k : Nat) : (sdStride d k).toNat = sdField d (255 + 64 * k) (192 + 64 * k) := by
  have width : 255 + 64 * k + 1 - (192 + 64 * k) = 64 := by omega
  rw [sdStride, BitVec.extractLsb'_toNat, sdField, Nat.shiftRight_eq_div_pow, width]

/-- The conditions of R169 but those of alignment, as the model checks them. -/
theorem sdMalformed_iff (d : W512) : SdMalformed d ↔
    (bits d 79 74 ≠ 0 ∨ bits d 127 112 ≠ 0 ∨ bits d 511 448 ≠ 0 ∨ sdEsz d > 4) ∨
    (sdSx d = true ∧ (sdWrite d = true ∨ sdEsz d ≥ 3)) ∨ (sdPres d = true ∧ bits d 63 48 ≠ 0xFFFF) ∨
    (sdSkip d = true ∧ sdSkipOff d % 4 ≠ 0) ∨ (¬ sdHdv d = true ∧ sdHdie d ≠ 0) := by
  simp only [SdMalformed, sdEsz, sdSx, sdWrite, sdPres, sdSkip, sdSkipOff, sdHdv, sdHdie, bits_eq_sdField,
    bit_iff_sdField, sdField_ne_one_iff, or_assoc, gt_iff_lt, ge_iff_le]

/-- The multiple that the model asks for, of an element size that is not reserved. -/
theorem sdAlign_eq {d : W512} (h : sdField d 66 64 ≤ 4) : (if sdEsz d = 4 then 8 else sdSize d) = sdAlign d := by
  rw [sdSize, sdAlign, sdEsz, bits_eq_sdField]
  generalize sdField d 66 64 = size at h
  interval_cases size <;> rfl

/-- The condition of R169 on alignment, as the model checks it. -/
theorem sdMisaligned_iff (d : W512) : SdMisaligned d ↔ (sdBase d).toNat % sdAlign d ≠ 0 ∨
    anyBelow (fun k => sdCnt d k != 1 && (sdStride d k).toNat % sdAlign d != 0) 4 = true := by
  simp only [SdMisaligned, anyBelow_iff, toNat_sdBase, toNat_sdStride, sdCnt, bits_eq_sdField, Bool.and_eq_true,
    bne_iff_ne, ne_eq, Nat.add_eq_right]

/-- The checks of SCFG in their order: those of alignment come last (log 103). -/
theorem sdInvalid_eq (d : W512) [Decidable (SdMalformed d)] : sdInvalid d =
    if SdMalformed d then some 5
    else if (sdBase d).toNat % (if sdEsz d = 4 then 8 else sdSize d) ≠ 0 ∨
      anyBelow (fun k => sdCnt d k != 1 && (sdStride d k).toNat % (if sdEsz d = 4 then 8 else sdSize d) != 0) 4 = true
      then some 6
    else none := by
  rw [if_congr (sdMalformed_iff d) rfl rfl]
  simp only [sdInvalid, ite_or]

theorem sdInvalid_malformed {d : W512} (h : SdMalformed d) : sdInvalid d = some 5 := by
  classical
  rw [sdInvalid_eq, if_pos h]

theorem sdInvalid_misaligned {d : W512} (h : ¬ SdMalformed d) (hm : SdMisaligned d) : sdInvalid d = some 6 := by
  classical
  have size : sdField d 66 64 ≤ 4 := not_lt.1 fun hlt => h (by simp only [SdMalformed, hlt, true_or, or_true])
  rw [sdInvalid_eq, if_neg h, sdAlign_eq size, if_pos ((sdMisaligned_iff d).1 hm)]

/-! ## SCFG (R184) -/

section
variable {p : Pred} {n : StreamId} {a : GReg} {s t : State} {desc : W512}

/-- The body of SCFG. -/
def scfgBody (n : StreamId) (a : GReg) (r : State) : Except Stop State := do
  let (d, t) ← loadBlock r (getG r a)
  match sdInvalid d with
  | some reason => .error (streamTrap n reason)
  | none => do
    waitUnless (streamFree t n)
    if !pushedLeft (streamOf t n) then
      .ok (advance (modStream (unbind t t.cur n) t.cur n fun _ => configured t d) 4)
    else if (streamOf t n).bound.isSome then .ok (unbind t t.cur n)
    else .error .wait

theorem exec_scfg_aligned (hal : (getG s a).toNat % 64 = 0) :
    exec (.scfg p n a) s = execute s (predOn s p) { srcS := [.g a] } (scfgBody n a) := by
  show execScfg p n a s = _
  rw [execScfg, misOf_aligned hal]
  rfl

section
variable {r : State} (hload : loadBlock r (getG r a) = .ok (desc, t))
include hload

theorem scfgBody_invalid {reason : Nat} (hbad : sdInvalid desc = some reason) :
    scfgBody n a r = .error (streamTrap n reason) := by
  rw [scfgBody, hload]
  simp only [bind, Except.bind, hbad]

theorem scfgBody_valid (hok : sdInvalid desc = none) (hfree : streamFree t n = true) : scfgBody n a r =
    if !pushedLeft (streamOf t n) then
      .ok (advance (modStream (unbind t t.cur n) t.cur n fun _ => configured t desc) 4)
    else if (streamOf t n).bound.isSome then .ok (unbind t t.cur n) else .error .wait := by
  rw [scfgBody, hload]
  simp only [bind, Except.bind, hok, hfree]
  rfl

end

variable (hon : predOn s p = true) (hal : (getG s a).toNat % 64 = 0) (ho : Operable (ready s) { srcS := [.g a] })
  (hload : loadBlock (ready s) (getG (ready s) a) = .ok (desc, t))
include hon hal ho hload

theorem exec_scfg_invalid {reason : Nat} (hbad : sdInvalid desc = some reason) :
    exec (.scfg p n a) s = streamTrapped s n reason := by
  rw [exec_scfg_aligned hal]
  exact execute_stop (x := streamTrap n reason) hon ho (scfgBody_invalid hload hbad)

variable (hok : sdInvalid desc = none) (hfree : streamFree t n = true)
include hok hfree

theorem exec_scfg_configures (hleft : pushedLeft (streamOf t n) = false) : exec (.scfg p n a) s =
    .next (advance (modStream (unbind t t.cur n) t.cur n fun _ => configured t desc) 4) := by
  rw [exec_scfg_aligned hal]
  exact execute_unpopped hon ho rfl ((scfgBody_valid hload hok hfree).trans (if_pos (by rw [hleft]; rfl)))

theorem exec_scfg_unbinds (hleft : pushedLeft (streamOf t n) = true) (hb : (streamOf t n).bound ≠ none) :
    exec (.scfg p n a) s = .next (unbind t t.cur n) := by
  rw [exec_scfg_aligned hal]
  exact execute_unpopped hon ho rfl ((scfgBody_valid hload hok hfree).trans
    ((if_neg (by rw [hleft]; decide)).trans (if_pos (Option.isSome_iff_ne_none.2 hb))))

end

/-- Settles O21, one lemma per instruction and way to end. -/
theorem streamInstructions : Obligations.StreamInstructions := by
  unfold Obligations.StreamInstructions
  refine ⟨?_, ?_⟩
  · intro p n q d a s t desc r st put l dropped hon
    have hst : streamOf r n = st := streamOf_ready s n
    have hdrop : dropRead r n = dropped := by simp only [dropRead, hst, dropped, put, withdraw_cur]
    refine ⟨fun hal ho hload hok hfree => ⟨fun hleft => ?_, exec_scfg_unbinds hon hal ho hload hok hfree⟩,
      exec_spos hon hst, fun hfree => ⟨exec_sbind_none hon hfree, exec_sbind_free hon hst hfree rfl,
      exec_sstop_idle hon hst hfree, fun hm => ?_, fun ho hm hplace => ?_, fun hd hleft => ?_,
      exec_sskip hon hst hfree⟩⟩
    · simp only [put, unbind_cur, unbind_slot, me_unbind]
      exact exec_scfg_configures hon hal ho hload hok hfree hleft
    · refine ⟨_, exec_sstop hon hst hfree hm, ?_, ?_, ?_⟩
      · rw [streamOf_advance, streamOf_stopped]
      · rw [streamOf_advance, streamOf_stopped]
        exact dropRead_unbound (unbind_bound r n)
      · simp [stopped, r]
    · simp only [put, ← hdrop, dropRead_cur]
      exact exec_srew hon hst hfree ho hm hplace
    · rw [← hdrop]
      exact exec_sflush hon hst hfree hd hleft
  · intro p n q a s t desc r st trap hon hfree ho
    have hst : streamOf r n = st := streamOf_ready s n
    refine ⟨exec_srew_idle hon hst hfree ho, exec_srew_outside hon hst hfree ho, exec_sskip_inactive hon hst hfree ho,
      exec_sskip_bound hon hst hfree ho, exec_sbind_taken hon hst hfree rfl, fun hal hload => ⟨fun hbad => ?_,
      fun hfine hmis => ?_⟩⟩
    · exact exec_scfg_invalid hon hal ho hload (sdInvalid_malformed hbad)
    · exact exec_scfg_invalid hon hal ho hload (sdInvalid_misaligned hfine hmis)

end Sys2Proof.Machine
end

section
/-!
What every step keeps of the message and command queues (O58): the invariant taken apart, and what the changes of a record
keep. `Kept s₀ s` says that from s₀ to s the queues have stayed within their places, and memory canonical besides, since the
same functions are walked through for it; a lemma `f_kept` says that f keeps both.
-/
set_option Elab.async false
namespace Sys2Proof.Machine

/-! ## The invariant, taken apart -/

def CoresFit (m : Map Core) : Prop := ∀ e ∈ m, CoreQueuesFit e.2
def MailboxesFit (m : Map Cluster) : Prop := ∀ e ∈ m, e.2.mailbox.length ≤ 64
def ChannelsFit (m : Map Channel) : Prop := ∀ e ∈ m, e.2.cmds.length ≤ 16
def SequencersFit (v : Vector Die 4) : Prop := ∀ (d : Fin 4) (q : Fin 8), (v[d].seqrs[q]).cmds.length ≤ 16
def SavedFits (x : Saved) : Prop := CoresFit x.cores ∧ MailboxesFit x.clusters ∧ ChannelsFit x.exchange
def PartsFit (m : Map Partition) : Prop := ∀ p ∈ m, ∀ x ∈ p.2.saved, SavedFits x

theorem queuesFit_iff {s : State} : QueuesFit s ↔ CoresFit s.cores ∧ MailboxesFit s.clusters ∧ ChannelsFit s.exchange ∧
    SequencersFit s.dies ∧ PartsFit s.parts := Iff.rfl

/-- From s₀ to s every queue has stayed within its places, and memory in canonical form. -/
structure Kept (s₀ s : State) : Prop where
  cores : QueuesFit s₀ → CoresFit s.cores
  mailboxes : QueuesFit s₀ → MailboxesFit s.clusters
  channels : QueuesFit s₀ → ChannelsFit s.exchange
  sequencers : QueuesFit s₀ → SequencersFit s.dies
  saved : QueuesFit s₀ → PartsFit s.parts
  mem : Memory.wf s₀.mem = true → Memory.wf s.mem = true

theorem Kept.refl (s : State) : Kept s s where
  cores h := h.1
  mailboxes h := h.2.1
  channels h := h.2.2.1
  sequencers h := h.2.2.2.1
  saved h := h.2.2.2.2
  mem := id

section
variable {s₀ s t : State}

theorem Kept.queuesFit (h : Kept s₀ s) (ho : QueuesFit s₀) : QueuesFit s :=
  ⟨h.cores ho, h.mailboxes ho, h.channels ho, h.sequencers ho, h.saved ho⟩

/-- What holds queues, and memory. -/
def holders (s : State) : Map Core × Map Cluster × Map Channel × Vector Die 4 × Map Partition × List Host.Cell :=
  (s.cores, s.clusters, s.exchange, s.dies, s.parts, s.mem)

theorem Kept.of_eq (h : Kept s₀ s) (e : holders t = holders s := by unfold holders; rfl) : Kept s₀ t := by
  simp only [holders, Prod.mk.injEq] at e
  obtain ⟨hc, hl, hx, hd, hp, hm⟩ := e
  exact ⟨hc ▸ h.cores, hl ▸ h.mailboxes, hx ▸ h.channels, hd ▸ h.sequencers, hp ▸ h.saved, hm ▸ h.mem⟩

/-! ## Maps of records -/

theorem coresFit_map {m : Map Core} {g : Nat × Core → Nat × Core} (hm : CoresFit m)
    (hg : ∀ e, CoreQueuesFit e.2 → CoreQueuesFit (g e).2) : CoresFit (m.map g) :=
  List.forall_mem_map.2 fun e he => hg e (hm e he)

theorem mailboxesFit_map {m : Map Cluster} {g : Nat × Cluster → Nat × Cluster} (hm : MailboxesFit m)
    (hg : ∀ e, (g e).2.mailbox.length ≤ e.2.mailbox.length) : MailboxesFit (m.map g) :=
  List.forall_mem_map.2 fun e he => (hg e).trans (hm e he)

theorem channelsFit_mapSet {m : Map Channel} {c : Nat} {x : Channel} (hm : ChannelsFit m) (hx : x.cmds.length ≤ 16) :
    ChannelsFit (mapSet c x m) := fun e he => (mem_mapSet he).elim (fun h => h ▸ hx) (hm e)

theorem channelsFit_mapSets {m l : Map Channel} (hm : ChannelsFit m) (hl : ChannelsFit l) :
    ChannelsFit (l.foldl (fun m e => mapSet e.1 e.2 m) m) := by
  induction l generalizing m with
  | nil => exact hm
  | cons e l ih =>
    obtain ⟨he, hl⟩ := List.forall_mem_cons.1 hl
    exact ih (channelsFit_mapSet hm he) hl

/-- A core that is not listed is as after reset, with empty queues. -/
theorem coreOf_fits (h : CoresFit s.cores) (c : CoreId) : CoreQueuesFit (coreOf s c) :=
  mapGet_of_forall (by unfold CoreQueuesFit; decide) h c

theorem clusterOf_fits (h : MailboxesFit s.clusters) (cl : Nat) : (clusterOf s cl).mailbox.length ≤ 64 :=
  mapGet_of_forall (P := fun l : Cluster => l.mailbox.length ≤ 64) (by decide) h cl

theorem chanOf_fits (h : Kept s₀ s) (ho : QueuesFit s₀) (c : CoreId) (ch : Fin 3) : (chanOf s c ch).cmds.length ≤ 16 := by
  unfold chanOf
  split
  · next hlt => exact (coreOf_fits (h.cores ho) c).2.2.1 ⟨ch.val, hlt⟩
  · exact mapGet_of_forall (P := fun x : Channel => x.cmds.length ≤ 16) (by decide) (h.channels ho) c

theorem partOf_fits (h : PartsFit s.parts) (p : Nat) : ∀ x ∈ (partOf s p).saved, SavedFits x :=
  mapGet_of_forall (P := fun q : Partition => ∀ x ∈ q.saved, SavedFits x) (fun _ h => by cases h) h p

/-- A record got of a map whose values are changed, where an unlisted one stays as it is. -/
theorem mapGet_mapValues {α : Type} {d : α} {g : α → α} (hd : g d = d) (m : Map α) (k : Nat) :
    mapGet d (m.map fun e => (e.1, g e.2)) k = g (mapGet d m k) := by
  induction m with
  | nil => exact hd.symm
  | cons e l ih => rw [List.map_cons, mapGet, mapGet, ih, ← apply_ite g]

/-! ## Changes of one record -/

/-- The queues of a core. -/
def queuesOf (k : Core) : List InMsg × List OutMsg × Vector Channel 2 × List FootCmd :=
  (k.inbound, k.outbound, k.chans, k.foot.cmds)

theorem CoreQueuesFit.of_eq {k k' : Core} (h : CoreQueuesFit k) (e : queuesOf k' = queuesOf k) : CoreQueuesFit k' := by
  simp only [queuesOf, Prod.mk.injEq] at e
  obtain ⟨hi, ho, hc, hf⟩ := e
  unfold CoreQueuesFit inboundUsed at *
  rw [hi, ho, hc, hf]
  exact h

/-- A core whose queues are those of another, or the later ones of them shorter. -/
theorem CoreQueuesFit.shorter {k k' : Core} (h : CoreQueuesFit k) (hi : inboundUsed k' ≤ inboundUsed k)
    (ho : k'.outbound.Sublist k.outbound) (hc : ∀ ch : Fin 2, (k'.chans[ch]).cmds.length ≤ (k.chans[ch]).cmds.length)
    (hf : k'.foot.cmds.length ≤ k.foot.cmds.length) : CoreQueuesFit k' :=
  ⟨(ho.filter _).length_le.trans h.1, hi.trans h.2.1, fun ch => (hc ch).trans (h.2.2.1 ch), hf.trans h.2.2.2⟩

theorem setCore_kept {c : CoreId} {k : Core} (h : Kept s₀ s) (hk : QueuesFit s₀ → CoreQueuesFit k) :
    Kept s₀ (setCore s c k) :=
  { h with cores := fun ho e he => (mem_mapSet he).elim (fun h => h ▸ hk ho) (h.cores ho e) }

/-- A change of a core that fits its queues if they fitted. -/
theorem modCore_kept_of {c : CoreId} {f : Core → Core} (h : Kept s₀ s)
    (hf : CoreQueuesFit (coreOf s c) → CoreQueuesFit (f (coreOf s c))) : Kept s₀ (modCore s c f) :=
  setCore_kept h fun ho => hf (coreOf_fits (h.cores ho) c)

/-- A change of a core that leaves its queues alone. -/
theorem modCore_kept {c : CoreId} {f : Core → Core} (h : Kept s₀ s)
    (hf : ∀ k, queuesOf (f k) = queuesOf k := by intro; unfold queuesOf; rfl) : Kept s₀ (modCore s c f) := modCore_kept_of h fun hk => hk.of_eq (hf _)

/-- A change of every core that fits its queues if they fitted. -/
theorem withCores_kept_of {g : Nat × Core → Nat × Core} (h : Kept s₀ s)
    (hg : ∀ e, CoreQueuesFit e.2 → CoreQueuesFit (g e).2) : Kept s₀ { s with cores := s.cores.map g } :=
  { h with cores := fun ho => coresFit_map (h.cores ho) hg }

theorem withCores_kept {g : Nat × Core → Nat × Core} (h : Kept s₀ s)
    (hg : ∀ e, queuesOf (g e).2 = queuesOf e.2 := by intro; unfold queuesOf; rfl) :
    Kept s₀ { s with cores := s.cores.map g } := withCores_kept_of h fun e he => he.of_eq (hg e)

/-- A change of every core that leaves its queues alone, and of what holds no queue. -/
theorem Kept.of_cores {g : Nat × Core → Nat × Core} (h : Kept s₀ s) (hc : t.cores = s.cores.map g)
    (hg : ∀ e, queuesOf (g e).2 = queuesOf e.2 := by intro; unfold queuesOf; rfl)
    (e : (t.clusters, t.exchange, t.dies, t.parts, t.mem) = (s.clusters, s.exchange, s.dies, s.parts, s.mem) := by rfl) :
    Kept s₀ t :=
  (withCores_kept h hg).of_eq (congrArg₂ Prod.mk hc e)

/-- A change of a cluster that fits its mailbox if it fitted. -/
theorem modCluster_kept_of {cl : Nat} {f : Cluster → Cluster} (h : Kept s₀ s)
    (hf : (clusterOf s cl).mailbox.length ≤ 64 → (f (clusterOf s cl)).mailbox.length ≤ 64) :
    Kept s₀ (modCluster s cl f) := by
  refine { h with mailboxes := fun ho e he => ?_ }
  rcases mem_mapSet he with rfl | he
  · exact hf (clusterOf_fits (h.mailboxes ho) cl)
  · exact h.mailboxes ho e he

theorem modCluster_kept {cl : Nat} {f : Cluster → Cluster} (h : Kept s₀ s)
    (hf : ∀ l, (f l).mailbox.length ≤ l.mailbox.length := by intro; exact le_rfl) : Kept s₀ (modCluster s cl f) :=
  modCluster_kept_of h fun hl => (hf _).trans hl

theorem withClusters_kept {g : Nat × Cluster → Nat × Cluster} (h : Kept s₀ s)
    (hg : ∀ e, (g e).2.mailbox.length ≤ e.2.mailbox.length := by intro; exact le_rfl) : Kept s₀ { s with clusters := s.clusters.map g } :=
  { h with mailboxes := fun ho => mailboxesFit_map (h.mailboxes ho) hg }

/-- A change of a channel that fits its commands if they fitted. -/
theorem modChan_kept_of {c : CoreId} {ch : Fin 3} {f : Channel → Channel} (h : Kept s₀ s)
    (hf : (chanOf s c ch).cmds.length ≤ 16 → (f (chanOf s c ch)).cmds.length ≤ 16) : Kept s₀ (modChan s c ch f) := by
  have fits (ho : QueuesFit s₀) := hf (chanOf_fits h ho c ch)
  unfold modChan
  unfold chanOf at fits
  split
  · next hlt =>
    refine setCore_kept h fun ho => ?_
    have hk := coreOf_fits (h.cores ho) c
    refine ⟨hk.1, hk.2.1, fun i => ?_, hk.2.2.2⟩
    by_cases hi : i.val = ch.val
    · simpa [hi, hlt] using fits ho
    · simpa [Vector.getElem_set_ne _ _ (Ne.symm hi)] using hk.2.2.1 i
  · next hge => exact { h with channels := fun ho => channelsFit_mapSet (h.channels ho) (fits ho) }

theorem modChan_kept {c : CoreId} {ch : Fin 3} {f : Channel → Channel} (h : Kept s₀ s)
    (hf : ∀ x, (f x).cmds.length ≤ x.cmds.length) : Kept s₀ (modChan s c ch f) :=
  modChan_kept_of h fun hx => (hf _).trans hx

/-- A change of a footing unit that fits its commands if they fitted. -/
theorem modFootQueue_kept_of {c : CoreId} {f : Core → FootQueue} (h : Kept s₀ s)
    (hf : (coreOf s c).foot.cmds.length ≤ 16 → (f (coreOf s c)).cmds.length ≤ 16) :
    Kept s₀ (modCore s c fun k => { k with foot := f k }) :=
  modCore_kept_of h fun ⟨ho, hi, hc, hk⟩ => ⟨ho, hi, hc, hf hk⟩

theorem modFootQueue_kept {c : CoreId} {f : FootQueue → FootQueue} (h : Kept s₀ s)
    (hf : ∀ x, (f x).cmds.length ≤ x.cmds.length) : Kept s₀ (modCore s c fun k => { k with foot := f k.foot }) :=
  modFootQueue_kept_of h fun hx => (hf _).trans hx

/-- A change of a die that leaves its sequencers alone. -/
theorem modDie_kept {d : Fin 4} {f : Die → Die} (h : Kept s₀ s)
    (hf : ∀ x, (f x).seqrs = x.seqrs := by intro; rfl) : Kept s₀ (modDie s d f) := by
  refine { h with sequencers := fun ho i q => ?_ }
  have hi := h.sequencers ho i q
  by_cases e : d = i
  · subst e; simpa [modDie, hf] using hi
  · simpa [modDie, Vector.getElem_set_ne _ _ (fun he => e (Fin.ext he))] using hi

/-- A change of one sequencer that fits its commands if they fitted. -/
theorem modSeqr_kept_of {d : Fin 4} {q : Fin 8} {x : Die → Sequencer} (h : Kept s₀ s)
    (hx : (s.dies[d].seqrs[q]).cmds.length ≤ 16 → (x s.dies[d]).cmds.length ≤ 16) :
    Kept s₀ (modDie s d fun y => { y with seqrs := y.seqrs.set q (x y) }) := by
  refine { h with sequencers := fun ho i j => ?_ }
  have hij := h.sequencers ho i j
  by_cases e : d = i
  · subst e
    by_cases e' : q = j
    · subst e'; simpa [modDie] using hx hij
    · simpa [modDie, Vector.getElem_set_ne _ _ (fun he => e' (Fin.ext he))] using hij
  · simpa [modDie, Vector.getElem_set_ne _ _ (fun he => e (Fin.ext he))] using hij

theorem modSeqr_kept {d : Fin 4} {q : Fin 8} {f : Sequencer → Sequencer} (h : Kept s₀ s)
    (hf : ∀ x, (f x).cmds.length ≤ x.cmds.length) :
    Kept s₀ (modDie s d fun y => { y with seqrs := y.seqrs.set q (f y.seqrs[q]) }) :=
  modSeqr_kept_of h fun hx => (hf _).trans hx

/-- A change of every die whose sequencers hold no more commands. -/
theorem withDies_kept {g : Die → Die} (h : Kept s₀ s)
    (hg : ∀ x (q : Fin 8), ((g x).seqrs[q]).cmds.length ≤ (x.seqrs[q]).cmds.length) :
    Kept s₀ { s with dies := s.dies.map g } := by
  refine { h with sequencers := fun ho d q => ?_ }
  simpa using (hg s.dies[d] q).trans (h.sequencers ho d q)

/-- A change of a partition whose saved contexts fit if those that it had do. -/
theorem modPart_kept_of {p : Nat} {f : Partition → Partition} (h : Kept s₀ s)
    (hf : QueuesFit s₀ → (∀ x ∈ (partOf s p).saved, SavedFits x) → ∀ x ∈ (f (partOf s p)).saved, SavedFits x) :
    Kept s₀ (modPart s p f) :=
  { h with saved := fun ho q hq => (mem_mapSet hq).elim (fun e => e ▸ hf ho (partOf_fits (h.saved ho) p)) (h.saved ho q) }

/-- A change of a partition that saves no other context. -/
theorem modPart_kept {p : Nat} {f : Partition → Partition} (h : Kept s₀ s) (hf : ∀ q, ∀ x ∈ (f q).saved, x ∈ q.saved := by intro _ _ h; exact h) :
    Kept s₀ (modPart s p f) := modPart_kept_of h fun _ hs x hx => hs x (hf _ x hx)

/-- A change of every partition that saves no other context. -/
theorem withParts_kept {g : Nat × Partition → Nat × Partition} (h : Kept s₀ s)
    (hg : ∀ e, ∀ x ∈ (g e).2.saved, x ∈ e.2.saved) : Kept s₀ { s with parts := s.parts.map g } :=
  { h with saved := fun ho => List.forall_mem_map.2 fun e he x hx => h.saved ho e he x (hg e x hx) }

/-- A change of every partition that saves no other context, and of what holds no queue. -/
theorem Kept.of_parts {g : Nat × Partition → Nat × Partition} (h : Kept s₀ s) (hp : t.parts = s.parts.map g)
    (hg : ∀ e, ∀ x ∈ (g e).2.saved, x ∈ e.2.saved := by intro _ _ h; exact h)
    (e : (t.cores, t.clusters, t.exchange, t.dies, t.mem) = (s.cores, s.clusters, s.exchange, s.dies, s.mem) := by rfl) :
    Kept s₀ t := by
  refine (withParts_kept h hg).of_eq ?_
  simp only [Prod.mk.injEq] at e
  simp only [holders, hp, e]

theorem withMem_kept {m : List Host.Cell} (h : Kept s₀ s) (hm : Memory.wf s.mem = true → Memory.wf m = true) :
    Kept s₀ { s with mem := m } := { h with mem := fun ho => hm (h.mem ho) }

theorem withBonds_kept {m : Map Bond} (h : Kept s₀ s) : Kept s₀ { s with bonds := m } := h.of_eq

theorem withNet_kept {l : List Packet} (h : Kept s₀ s) : Kept s₀ { s with net := l } := h.of_eq

theorem withDev_kept {d : Device} (h : Kept s₀ s) : Kept s₀ { s with dev := d } := h.of_eq

theorem modJob_kept {j : Nat} {f : Job → Job} (h : Kept s₀ s) : Kept s₀ (modJob s j f) := h.of_eq

theorem modQueue_kept {q : Nat} {f : Queue → Queue} (h : Kept s₀ s) : Kept s₀ (modQueue s q f) := h.of_eq

theorem modBond_kept {b : Nat} {f : Bond → Bond} (h : Kept s₀ s) : Kept s₀ (modBond s b f) := by
  unfold modBond
  split
  · exact h.of_eq
  · exact h

/-! ## Conditions and folds -/

theorem ite_kept {p : Prop} [Decidable p] (hs : Kept s₀ s) (ht : Kept s₀ t) : Kept s₀ (if p then s else t) :=
  iteInduction (fun _ => hs) fun _ => ht

/-- A change that is made under a condition. -/
theorem iteSelf_kept {p : Prop} [Decidable p] (ht : Kept s₀ s → Kept s₀ t) (h : Kept s₀ s) :
    Kept s₀ (if p then t else s) := ite_kept (ht h) h

theorem foldl_kept {α : Type} {f : State → α → State} (hf : ∀ s x, Kept s₀ s → Kept s₀ (f s x)) (l : List α)
    (h : Kept s₀ s) : Kept s₀ (l.foldl f s) := by
  induction l generalizing s with
  | nil => exact h
  | cons x l ih => exact ih (hf s x h)

end

end Sys2Proof.Machine
end

section
/-!
What every step keeps of the message and command queues (O58): memory, its homes and the reductions.
-/
set_option Elab.async false
namespace Sys2Proof.Machine

section
variable {s₀ s t : State}

theorem modStrand_kept {c : CoreId} {i : Slot} {f : Strand → Strand} (h : Kept s₀ s) :
    Kept s₀ (modStrand s c i f) := modCore_kept h

theorem modMe_kept {f : Strand → Strand} (h : Kept s₀ s) : Kept s₀ (modMe s f) := modStrand_kept h

theorem modStream_kept {c : CoreId} {n : StreamId} {f : Stream → Stream} (h : Kept s₀ s) :
    Kept s₀ (modStream s c n f) := modCore_kept h

theorem modTicket_kept {c : CoreId} {i : Fin 4} {f : Ticket → Ticket} (h : Kept s₀ s) :
    Kept s₀ (modTicket s c i f) := modCore_kept h

theorem raiseFlags_kept {c : CoreId} {f : BitVec 6} (h : Kept s₀ s) : Kept s₀ (raiseFlags s c f) :=
  modCluster_kept h

theorem openRaised_kept {c : CoreId} (h : Kept s₀ s) : Kept s₀ (openRaised s c) :=
  ite_kept h (modCluster_kept h)

theorem closeRaised_kept {c : CoreId} (h : Kept s₀ s) : Kept s₀ (closeRaised s c) :=
  ite_kept h (modCluster_kept h)

theorem clearFlags_kept {c : CoreId} {a : W64} (h : Kept s₀ s) : Kept s₀ (clearFlags s c a) :=
  modCluster_kept h

theorem addFlags_kept {c : CoreId} {i : Slot} {fl : Flags} (h : Kept s₀ s) : Kept s₀ (addFlags s c i fl) :=
  ite_kept h (raiseFlags_kept (modStrand_kept h))

theorem rekey_kept {word key : Nat} (h : Kept s₀ s) : Kept s₀ (rekey s word key) := by
  refine (withMem_kept h (rekey_wf word key)).of_eq ?_
  unfold holders rekey
  split
  · rfl
  · dsimp only
    split <;> rfl

theorem putWord_kept {word key : Nat} {mask : BitVec 8} {val : W64} (h : Kept s₀ s) :
    Kept s₀ (putWord s word key mask val) :=
  (withMem_kept (rekey_kept h) (memPut_wf word mask val 8)).of_eq

theorem poisonWord_kept {word : Nat} (h : Kept s₀ s) : Kept s₀ (poisonWord s word) := h.of_eq

theorem setPresent_kept {word : Nat} (h : Kept s₀ s) : Kept s₀ (setPresent s word) := h.of_eq

theorem clearPresent_kept {word : Nat} (h : Kept s₀ s) : Kept s₀ (clearPresent s word) := h.of_eq

theorem unparkWord_kept {word : Nat} (h : Kept s₀ s) : Kept s₀ (unparkWord s word) :=
  withCores_kept h

theorem setTag_kept {word : Nat} {t : Option Tag} (h : Kept s₀ s) : Kept s₀ (setTag s word t) := by
  unfold setTag
  split
  · exact h
  · exact unparkWord_kept (h.of_cores rfl)

theorem countMiss_kept {c : CoreId} {lo : Nat} (h : Kept s₀ s) : Kept s₀ (countMiss s c lo) :=
  modCore_kept h

theorem sendMiss_kept {t : Tag} {rs : List Reader} (h : Kept s₀ s) : Kept s₀ (sendMiss s t rs) :=
  h.of_eq

theorem parkMiss_kept {r : Reader} {word : Nat} (h : Kept s₀ s) : Kept s₀ (parkMiss s r word) := by
  unfold parkMiss
  split
  · exact h
  · exact ite_kept h (ite_kept (h.of_eq) (sendMiss_kept h))

theorem putBytes_kept {loc key n : Nat} {val : W64} (h : Kept s₀ s) : Kept s₀ (putBytes s loc key n val) :=
  putWord_kept h

theorem parkReq_kept {c : CoreId} {p : Pending} {loc : Nat} (h : Kept s₀ s) :
    Kept s₀ (parkReq s c p loc).2 := by
  unfold parkReq
  split
  · exact h
  · split
    · exact h
    · exact h.of_eq

theorem readPart_kept {c : CoreId} {uid : Nat} {p : Pending} {j : Nat} {q : Part} (h : Kept s₀ s) :
    Kept s₀ (readPart s c uid p j q).2 := by
  unfold readPart
  split
  · exact h
  · exact parkMiss_kept (parkReq_kept h)

theorem genPart_kept {c : CoreId} {uid : Nat} {p : Pending} {j : Nat} {q : Part} {b : W32} (h : Kept s₀ s) :
    Kept s₀ (genPart s c uid p j q b).2 := by
  unfold genPart
  dsimp only
  split
  · exact h
  split
  · exact parkMiss_kept (parkReq_kept h)
  split
  · exact h
  · exact parkReq_kept h

theorem rmwPart_kept {c : CoreId} {slot : Slot} {uid : Nat} {p : Pending} {j : Nat} {q : Part} (h : Kept s₀ s) :
    Kept s₀ (rmwPart s c slot uid p j q).2 := by
  unfold rmwPart
  dsimp only
  split
  · exact h
  split
  · exact parkMiss_kept (parkReq_kept h)
  split
  · exact h
  split
  · exact h
  · split
    · exact setTag_kept (putBytes_kept h)
    · exact putBytes_kept h

theorem performPart_kept {c : CoreId} {slot : Slot} {uid : Nat} {p : Pending} {j : Nat} (h : Kept s₀ s) :
    Kept s₀ (performPart s c slot uid p j).2 := by
  unfold performPart
  split
  · exact h
  split
  · exact h
  split
  · exact h
  split
  · exact readPart_kept h
  · split
    · exact readPart_kept h
    · exact parkReq_kept h
  · split
    · exact h
    · exact clearPresent_kept h
  · exact genPart_kept h
  all_goals exact rmwPart_kept h

theorem performParts_kept {c : CoreId} {slot : Slot} {uid : Nat} {p : Pending} (k : Nat) (h : Kept s₀ s) :
    Kept s₀ (performParts s c slot uid p k).2 := by
  induction k with
  | zero => exact h
  | succ k ih => exact performPart_kept ih

theorem performReq_kept {c : CoreId} {slot : Slot} {uid : Nat} {p : Pending} (h : Kept s₀ s) :
    Kept s₀ (performReq s c slot uid p).2 := performParts_kept _ h

theorem retryReq_kept {c : CoreId} {slot : Slot} {seq : Nat} (h : Kept s₀ s) :
    Kept s₀ (retryReq s c slot seq) := by
  unfold retryReq
  dsimp only
  split
  · exact h
  · exact ite_kept h (modStrand_kept (performReq_kept h))

theorem wakeWord_kept {word : Nat} (h : Kept s₀ s) : Kept s₀ (wakeWord s word) :=
  unparkWord_kept (foldl_kept (fun _ _ h => retryReq_kept h) _ h)

theorem wakeLine_kept {word : Nat} (h : Kept s₀ s) : Kept s₀ (wakeLine s word) :=
  foldl_kept (fun _ _ h => wakeWord_kept h) _ h

theorem homeWrite_kept {word key : Nat} {mask : BitVec 8} {val : W64} {tag : Option Tag} (h : Kept s₀ s) :
    Kept s₀ (homeWrite s word key mask val tag) := wakeWord_kept (setTag_kept (putWord_kept h))

theorem postFault_kept {agent : Fin 20} {m : FaultMsg} (h : Kept s₀ s) : Kept s₀ (postFault s agent m) :=
  (modCore_kept (c := m.core)
    (f := fun k => { k with agentSeq := k.agentSeq.set agent (k.agentSeq[agent] + 1) }) h).of_eq

theorem rejectStore_kept {c : CoreId} {e : StoreEntry} (h : Kept s₀ s) : Kept s₀ (rejectStore s c e) := by
  unfold rejectStore
  exact modCore_kept (postFault_kept h)

theorem performStore_kept {c : CoreId} {e : StoreEntry} (h : Kept s₀ s) : Kept s₀ (performStore s c e) := by
  unfold performStore
  split
  · exact rejectStore_kept h
  · exact wakeWord_kept (setTag_kept (iteSelf_kept poisonWord_kept (putWord_kept (modCore_kept h))))

theorem normAdd_kept {part die n : Nat} {x : Int} (h : Kept s₀ s) : Kept s₀ (normAdd s part die n x) :=
  modPart_kept h

theorem normWrite_kept {part die n : Nat} {word key : Nat} {mask : BitVec 2} {v : W64} (h : Kept s₀ s) :
    Kept s₀ (normWrite s part die n word key mask v) := normAdd_kept (homeWrite_kept h)

theorem mapOrders_kept {f : Nat → Nat → OrdKind → Order → Order} (h : Kept s₀ s) :
    Kept s₀ (mapOrders s f) := withDies_kept (withCores_kept h) fun _ _ => le_rfl

theorem markRelease_kept {c : CoreId} {uid seq : Nat} {sc : Scope} {uo : Bool} (h : Kept s₀ s) :
    Kept s₀ (markRelease s c uid seq sc uo) := mapOrders_kept h

theorem markAcquire_kept {c : CoreId} {uid : Nat} {sc : Scope} (h : Kept s₀ s) :
    Kept s₀ (markAcquire s c uid sc) := mapOrders_kept h

theorem rejectRed_kept {c : CoreId} {r : Reduction} (h : Kept s₀ s) : Kept s₀ (rejectRed s c r) := by
  unfold rejectRed
  exact modCore_kept (postFault_kept h)

theorem performRed_kept {c : CoreId} {r : Reduction} (h : Kept s₀ s) : Kept s₀ (performRed s c r) := by
  unfold performRed
  dsimp only
  split
  · exact parkMiss_kept h
  split
  · exact rejectRed_kept h
  split
  · exact modCore_kept (normWrite_kept h)
  · refine modCore_kept ?_
    split
    · exact wakeWord_kept (setTag_kept (putBytes_kept h))
    · exact putBytes_kept h

theorem ackRed_kept {c : CoreId} {r : Reduction} (h : Kept s₀ s) : Kept s₀ (ackRed s c r) :=
  modCore_kept h

theorem dropUnit_kept {die : Fin 4} {u : ShadowUnit} (h : Kept s₀ s) : Kept s₀ (dropUnit s die u) :=
  modDie_kept h

theorem rejectUnit_kept {die : Fin 4} {u : ShadowUnit} (h : Kept s₀ s) : Kept s₀ (rejectUnit s die u) := by
  unfold rejectUnit
  split
  · exact dropUnit_kept h
  · exact rejectRed_kept (modCore_kept (dropUnit_kept h))

theorem mergeShadow_kept {die : Fin 4} {u : ShadowUnit} (h : Kept s₀ s) : Kept s₀ (mergeShadow s die u) := by
  unfold mergeShadow
  dsimp only
  split
  · exact rejectUnit_kept h
  · exact dropUnit_kept (iteSelf_kept poisonWord_kept (putBytes_kept h))

theorem mergeUnits_kept {die : Fin 4} {u : ShadowUnit} (h : Kept s₀ s) : Kept s₀ (mergeUnits s die u) :=
  ite_kept (foldl_kept (fun _ _ h => mergeShadow_kept h) _ h) h

theorem joinUnit_kept {c : CoreId} {r : Reduction} (h : Kept s₀ s) : Kept s₀ (joinUnit s c r) := by
  unfold joinUnit
  exact modDie_kept h fun x => by split <;> rfl

theorem combineShadow_kept {c : CoreId} {r : Reduction} (h : Kept s₀ s) : Kept s₀ (combineShadow s c r) := by
  have merged := foldl_kept (fun s u h => mergeUnits_kept (die := dieOf c) (u := u) h) (otherUnits s.dies[dieOf c] r) h
  exact ite_kept h (ite_kept (rejectRed_kept h) (ite_kept h (ite_kept h (modCore_kept (joinUnit_kept merged)))))

end

end Sys2Proof.Machine
end


section
/-!
What every step keeps of the message and command queues (O58): translation, streams, seams, strands and barriers.
-/
set_option Elab.async false
namespace Sys2Proof.Machine

variable {s₀ s t : State}

/-- The state that goes with a result. -/
theorem kept_of_snd {α : Type} {r : α × State} {x : α} (h : Kept s₀ r.2) (hr : r = (x, t)) : Kept s₀ t := by
  subst hr; exact h

/-- A state that is handed on with a value. -/
theorem yields_kept {ε α : Type} {a : α} (h : Kept s₀ t) : Yields (ε := ε) (fun x : α × State => Kept s₀ x.2) (.ok (a, t)) :=
  h

theorem tlbFill_kept {c : CoreId} {fetch engine : Bool} {e : TlbEntry} (h : Kept s₀ s) :
    Kept s₀ (tlbFill s c fetch engine e) :=
  ite_kept (modDie_kept h) (modCore_kept (modCluster_kept (modDie_kept h)) fun k => by split <;> rfl)

/-- The state that a checked access leaves, if it goes on. -/
def ChkKept (s₀ : State) : Chk → Prop
  | .ok _ t => Kept s₀ t
  | .violation | .fault _ _ _ | .await => True

theorem throughLeaf_kept {w : Who} {use : Use} {va : W64} {t : TlbEntry} (h : Kept s₀ s) :
    ChkKept s₀ (throughLeaf s w use va t) := iteInduction (motive := ChkKept s₀) (fun _ => trivial) fun _ => h

theorem translate_kept {w : Who} {use : Use} {inline_ : Bool} {va : W64} (h : Kept s₀ s) :
    ChkKept s₀ (translate s w use inline_ va) := by
  unfold translate
  dsimp only
  split
  · exact throughLeaf_kept h
  split
  · exact trivial
  split
  · exact trivial
  · exact trivial
  split
  · exact throughLeaf_kept (tlbFill_kept h)
  · exact trivial
  · exact trivial

theorem checkAddr_kept {w : Who} {use : Use} {inline_ : Bool} {ea : W64} (h : Kept s₀ s) :
    ChkKept s₀ (checkAddr s w use inline_ ea) := by
  unfold checkAddr
  split
  · exact trivial
  · exact iteInduction (motive := ChkKept s₀) (fun _ => h) fun _ => trivial
  · exact translate_kept h

theorem elemAddr_kept {w : Who} {use : Use} {a : W64} {off : Nat} (h : Kept s₀ s) :
    ChkKept s₀ (elemAddr s w use a off) :=
  iteInduction (motive := ChkKept s₀) (fun _ => trivial) fun _ => checkAddr_kept h

theorem ChkKept.elim {r : Ref} {x : Chk} (h : ChkKept s₀ x) (hx : x = .ok r t) : Kept s₀ t := by
  subst hx; exact h

theorem useCtx_kept {c : CoreId} {l : Port} {owner : Transfer} (h : Kept s₀ s) :
    Kept s₀ (useCtx s c l owner) := modCore_kept h

theorem closeCtxs_kept (h : Kept s₀ s) : Kept s₀ (closeCtxs s) := h.of_cores rfl

theorem crossSeams_kept {c : CoreId} {loc : Nat} {owner : Transfer} (h : Kept s₀ s) :
    Kept s₀ (crossSeams s c loc owner) := by
  unfold crossSeams
  split
  · exact foldl_kept (fun _ _ h => useCtx_kept h) _ h
  · exact h

theorem readElem_kept {s : State} {c : CoreId} {sid : StreamId} {w : Who} {pres : Bool} {a : W64}
    (l : List (Nat × Nat)) (h : Kept s₀ s) : Kept s₀ (readElem s c sid w pres a l).2 := by
  induction l generalizing s with
  | nil => exact h
  | cons e l ih =>
    unfold readElem
    split
    · exact h
    · exact h
    · exact h
    next r s' hok =>
      have h' := (elemAddr_kept h).elim hok
      split
      · exact h'
      split
      · exact parkMiss_kept h'
      split
      · exact h'
      · have rest := ih (crossSeams_kept (c := c) (loc := r.loc) (owner := .stream c sid) h')
        split
        · next hrest => rw [hrest] at rest; exact rest
        · exact rest

theorem streamFetch_kept {c : CoreId} {n : StreamId} (h : Kept s₀ s) : Kept s₀ (streamFetch s c n) := by
  unfold streamFetch
  dsimp only
  split
  · exact h
  split
  · exact modStream_kept h
  split
  · exact modStream_kept h
  split
  all_goals next hread => exact modStream_kept (kept_of_snd (readElem_kept _ h) hread)

theorem streamPost_kept {c : CoreId} {n : StreamId} {idx : Nat} {m : FaultMsg} (h : Kept s₀ s) :
    Kept s₀ (streamPost s c n idx m) := by
  unfold streamPost
  exact modStream_kept (postFault_kept h)

theorem checkElem_kept {c : CoreId} {w : Who} {a : W64} (l : List (Nat × Nat)) (h : Kept s₀ s) :
    Yields (fun x => Kept s₀ x.2) (checkElem s c w a l) := by
  induction l generalizing s with
  | nil => exact h
  | cons e l ih =>
    unfold checkElem
    split
    · exact trivial
    · exact trivial
    · exact trivial
    next hok =>
      have h' := (elemAddr_kept h).elim hok
      refine ite_yields trivial (ite_yields trivial (ite_yields trivial ?_))
      have rest := ih h'
      split
      · next hrest =>
        have h'' := rest.elim hrest
        exact h''
      · exact trivial

theorem streamPerform_kept {c : CoreId} {n : StreamId} (h : Kept s₀ s) : Kept s₀ (streamPerform s c n) := by
  unfold streamPerform
  dsimp only
  split
  · exact h
  split
  · exact h
  split
  · exact h
  split
  · exact h
  · exact streamPost_kept h
  · next hok =>
      refine foldl_kept (fun s x h => ?_) _ (modStream_kept ((checkElem_kept _ h).elim hok))
      exact wakeWord_kept (setTag_kept (iteSelf_kept setPresent_kept (iteSelf_kept poisonWord_kept
        (putBytes_kept (crossSeams_kept h)))))

theorem popStream_kept {c : CoreId} {n : StreamId} {vec : Bool} (h : Kept s₀ s) :
    Kept s₀ (popStream s c n vec) := modStream_kept h

theorem pushStream_kept {c : CoreId} {n : StreamId} {vec : Bool} {v : W256} (h : Kept s₀ s) :
    Kept s₀ (pushStream s c n vec v) := modStream_kept h

theorem pushLink_kept {c : CoreId} {l : Port} {e : PortEntry} (h : Kept s₀ s) :
    Kept s₀ (pushLink s c l e) := by
  unfold pushLink
  split
  · exact modCore_kept h
  split
  · exact modCore_kept h
  · exact h

theorem popLink_kept {c : CoreId} {l : Port} (h : Kept s₀ s) : Kept s₀ (popLink s c l) := by
  unfold popLink
  split
  · exact h
  dsimp only
  split
  · exact modStream_kept (modCore_kept h)
  · exact modCore_kept h

theorem withdraw_kept {c : CoreId} {n : StreamId} (h : Kept s₀ s) : Kept s₀ (withdraw s c n) := by
  unfold withdraw
  dsimp only
  split
  · exact h
  refine ite_kept h (modStream_kept ?_)
  split
  · exact modCore_kept (modCore_kept h)
  · exact modCore_kept h

theorem unbind_kept {c : CoreId} {n : StreamId} (h : Kept s₀ s) : Kept s₀ (unbind s c n) :=
  modStream_kept (withdraw_kept h)

theorem boundPush_kept {c : CoreId} {n : StreamId} (h : Kept s₀ s) : Kept s₀ (boundPush s c n) := by
  unfold boundPush
  dsimp only
  split
  · exact h
  split
  · exact h
  split
  · exact h
  split
  · exact streamPost_kept h
  split
  · exact h
  exact ite_kept h (modStream_kept (pushLink_kept (iteSelf_kept useCtx_kept h)))

theorem boundPop_kept {c : CoreId} {n : StreamId} (h : Kept s₀ s) : Kept s₀ (boundPop s c n) := by
  unfold boundPop
  dsimp only
  split
  · exact h
  split
  · exact h
  split
  · exact h
  · exact ite_kept h (modStream_kept (popLink_kept h))

theorem seamForward_kept {c : CoreId} {l : Port} (h : Kept s₀ s) : Kept s₀ (seamForward s c l) := by
  unfold seamForward
  split
  · exact ite_kept h (modCore_kept (modCore_kept h))
  · exact h

theorem mapStrands_kept {f : CoreId → Strand → Strand} (h : Kept s₀ s) : Kept s₀ (mapStrands s f) :=
  h.of_cores rfl

theorem setBar_kept {b : Nat} {l : BarLevel} {cl : Nat} {x : Barrier} (h : Kept s₀ s) :
    Kept s₀ (setBar s b l cl x) := modBond_kept h

theorem acquireBarrier_kept {b : Nat} {l : BarLevel} {cl : Nat} {ph : W32} (h : Kept s₀ s) :
    Kept s₀ (acquireBarrier s b l cl ph) := foldl_kept (fun _ _ h => markAcquire_kept h) _ h

theorem settleBarrier_kept {b : Nat} {l : BarLevel} {cl : Nat} (h : Kept s₀ s) :
    Kept s₀ (settleBarrier s b l cl) := ite_kept h (mapStrands_kept (acquireBarrier_kept (setBar_kept h)))

theorem joinBarriers_kept {b : Nat} {c : CoreId} {uid : Nat} (h : Kept s₀ s) :
    Kept s₀ (joinBarriers s b c uid) := by
  unfold joinBarriers
  exact setBar_kept (setBar_kept h)

theorem arriveBarrier_kept {b : Nat} {l : BarLevel} {cl uid : Nat} (h : Kept s₀ s) :
    Kept s₀ (arriveBarrier s b l cl uid) := settleBarrier_kept (setBar_kept h)

theorem leaveBarrier_kept {b : Nat} {l : BarLevel} {cl uid : Nat} (h : Kept s₀ s) :
    Kept s₀ (leaveBarrier s b l cl uid) := ite_kept (settleBarrier_kept (setBar_kept h)) h

theorem leaveSlot_kept {c : CoreId} {i : Slot} (h : Kept s₀ s) : Kept s₀ (leaveSlot s c i) := by
  unfold leaveSlot
  dsimp only
  split
  · exact modStrand_kept h
  · exact leaveBarrier_kept (leaveBarrier_kept (modStrand_kept h))

theorem putStrand_kept {c : CoreId} {i : Slot} {t : Strand} (h : Kept s₀ s) : Kept s₀ (putStrand s c i t) :=
  markAcquire_kept (modStrand_kept h)

theorem advanceTimeline_kept {job tl : Nat} {v : W64} (h : Kept s₀ s) :
    Kept s₀ (advanceTimeline s job tl v) := modJob_kept h

theorem sendMsix_kept {vec : Nat} (h : Kept s₀ s) : Kept s₀ (sendMsix s vec) := h.of_eq

theorem markDone_kept {q n : Nat} (h : Kept s₀ s) : Kept s₀ (markDone s q n) := modQueue_kept h

theorem stopQueue_kept {q : Nat} {cause : Byte} {index : Nat} (h : Kept s₀ s) :
    Kept s₀ (stopQueue s q cause index) := modQueue_kept h

theorem failPacket_kept {q : Nat} {cause : Byte} {index : Nat} (h : Kept s₀ s) :
    Kept s₀ (failPacket s q cause index) := stopQueue_kept (modQueue_kept h)

end Sys2Proof.Machine
end


section
/-!
What every step keeps of the message and command queues (O58): gangs, from the claim of their cores to the end of their pulses.
-/
set_option Elab.async false
namespace Sys2Proof.Machine

variable {s₀ s t : State}

theorem releaseCores_kept {c : CoreId} {i : Fin 4} (h : Kept s₀ s) : Kept s₀ (releaseCores s c i) :=
  h.of_cores rfl

theorem refuseClaim_kept {c : CoreId} {i : Fin 4} {reason : BitVec 4} {u v : Nat} (h : Kept s₀ s) :
    Kept s₀ (refuseClaim s c i reason u v) :=
  ite_kept (modTicket_kept (releaseCores_kept h)) (modTicket_kept (modTicket_kept (releaseCores_kept h)))

theorem faultGang_kept {c : CoreId} {i : Fin 4} {cause : Byte} {u v pulse : Nat} (h : Kept s₀ s) :
    Kept s₀ (faultGang s c i cause u v pulse) := modTicket_kept h

theorem queuesOf_kPut (k : Core) (i : Nat) (x : W32) : queuesOf (kPut k i x) = queuesOf k := by
  unfold kPut; split <;> rfl

theorem queuesOf_kPutLanes (k : Core) (l : List (Nat × W32)) : queuesOf (kPutLanes k l) = queuesOf k := by
  unfold kPutLanes
  induction l generalizing k with
  | nil => rfl
  | cons e l ih => exact (ih _).trans (queuesOf_kPut k e.1 e.2)

theorem freezeCells_kept {s : State} {c : CoreId} {i : Fin 4} {d : W512} {p : PairShape} (l : List CoreId)
    (h : Kept s₀ s) : Kept s₀ (freezeCells s c i d p l) := by
  induction l generalizing s with
  | nil => exact h
  | cons k l ih =>
    refine ih ?_
    have frozen := modCore_kept (c := k) (f := fun x => if gdKeep d || !takesPart d (cellU d k) (cellV d k)
      then freezeCore x (.gang c i) else kPutLanes (freezeCore x (.gang c i)) ((cellLanes d p).map fun l => (l, 0))) h
      fun x => by split; exacts [rfl, queuesOf_kPutLanes _ _]
    exact iteSelf_kept faultGang_kept (modTicket_kept frozen)

theorem freezeGang_kept {c : CoreId} {i : Fin 4} {d : W512} {p : PairShape} {cs : List CoreId} (h : Kept s₀ s) :
    Kept s₀ (freezeGang s c i d p cs) := by
  unfold freezeGang
  split
  · exact parkMiss_kept h
  · exact modTicket_kept (freezeCells_kept _ h)

theorem claimCores_kept {s : State} {c : CoreId} {i : Fin 4} {d : W512} (l : List CoreId) (h : Kept s₀ s) :
    Kept s₀ (claimCores s c i d l) := by
  induction l generalizing s with
  | nil => exact h
  | cons k l ih => exact ite_kept (refuseClaim_kept h) (ih (modCore_kept h))

theorem claimGang_kept {c : CoreId} {i : Fin 4} {cell : Option CoreId} (h : Kept s₀ s) :
    Kept s₀ (claimGang s c i cell) := by
  unfold claimGang
  dsimp only
  split
  · exact h
  split
  · exact refuseClaim_kept h
  · exact h
  · exact iteSelf_kept freezeGang_kept (claimCores_kept _ h)

theorem unbindLink_kept {o : CoreId} {l : Port} (h : Kept s₀ s) : Kept s₀ (unbindLink s o l) :=
  foldl_kept (fun _ _ h => ite_kept (unbind_kept h) h) _ h

theorem clearCell_kept {d : W512} {e : Nat × Nat} (h : Kept s₀ s) : Kept s₀ (clearCell d s e) := by
  unfold clearCell
  split
  · exact h
  · exact modCore_kept h fun k => by dsimp only; split <;> split <;> rfl

theorem clearEdges_kept {d : W512} (h : Kept s₀ s) : Kept s₀ (clearEdges s d) :=
  foldl_kept (fun _ _ h => clearCell_kept h) _ (foldl_kept (fun _ _ h => unbindLink_kept h) _ h)

theorem mergeGangFlags_kept {c : CoreId} {t : Ticket} (h : Kept s₀ s) : Kept s₀ (mergeGangFlags s c t) :=
  ite_kept (addFlags_kept h) (raiseFlags_kept h)

theorem thawGang_kept {c : CoreId} {i : Fin 4} {state : GangState} {pulse : Nat} {cause : Byte} {u v : Nat}
    (h : Kept s₀ s) : Kept s₀ (thawGang s c i state pulse cause u v) := by
  unfold thawGang
  exact modTicket_kept (clearEdges_kept (releaseCores_kept (mergeGangFlags_kept h)))

theorem modCell_kept {x : CellAt} {k : CoreId} {f : Cell → Cell} (h : Kept s₀ s) :
    Kept s₀ (modCell s x k f) := modTicket_kept h

theorem cellFault_kept {x : CellAt} {cause : Byte} (h : Kept s₀ s) : Kept s₀ (cellFault s x cause) :=
  faultGang_kept h

theorem latchEntry_kept {k : CoreId} (h : Kept s₀ s) : Kept s₀ (latchEntry s k) := by
  unfold latchEntry
  split
  · exact h
  dsimp only
  split
  · split
    · exact h
    split
    · exact cellFault_kept h
    split
    · exact ite_kept h (modCell_kept (pushLink_kept (popLink_kept h)))
    · exact modCell_kept (modCore_kept (popLink_kept h) fun k => queuesOf_kPutLanes k _)
  · exact h

theorem forward_kept {k : CoreId} {on : Bool} {l : Port} {data : Nat} {tag : BitVec 7} (h : Kept s₀ s) :
    Kept s₀ (forward s k on l data tag) := ite_kept (pushLink_kept h) h

theorem endPulse_kept {x : CellAt} {k : CoreId} {lanes : List (Nat × W32)} {fl : Flags} {zpiv : Bool}
    (h : Kept s₀ s) : Kept s₀ (endPulse s x k lanes fl zpiv) :=
  modCell_kept (modCore_kept h fun k => queuesOf_kPutLanes k _)

theorem boundaryStep_kept {x : CellAt} {k : CoreId} {sa sb : Nat × Bool} (h : Kept s₀ s) :
    Kept s₀ (boundaryStep s x k sa sb) := by
  unfold boundaryStep
  dsimp only
  exact ite_kept (cellFault_kept h) (ite_kept (cellFault_kept h)
    (modCell_kept (modCore_kept h fun k => queuesOf_kPutLanes k _)))

theorem firePulseRs_kept {x : CellAt} {k : CoreId} {a b : PortEntry} {scales : Option ((Nat × Bool) × (Nat × Bool))}
    (h : Kept s₀ s) : Kept s₀ (firePulseRs s x k a b scales) := by
  unfold firePulseRs
  split
  · refine ite_kept (cellFault_kept h) ?_
    have fired {lanes : List (Nat × W32)} {fl : Flags} {s₁ : State} (h₁ : Kept s₀ s₁) :=
      endPulse_kept (x := x) (k := k) (lanes := lanes) (fl := fl) (zpiv := false) h₁
    dsimp only
    split
    · exact boundaryStep_kept (fired (forward_kept (forward_kept (popLink_kept (popLink_kept h)))))
    · exact fired (forward_kept (forward_kept (popLink_kept (popLink_kept h))))
  · exact h

theorem firePulseWs_kept {x : CellAt} {k : CoreId} {a : PortEntry} {sums : Option PortEntry} {sc : Nat × Bool}
    (h : Kept s₀ s) : Kept s₀ (firePulseWs s x k a sums sc) := by
  unfold firePulseWs
  split
  · split
    · exact cellFault_kept h
    · refine ite_kept (cellFault_kept h) (ite_kept (cellFault_kept h) ?_)
      exact modCell_kept (endPulse_kept (forward_kept (forward_kept
        (iteSelf_kept popLink_kept (popLink_kept h)))))
  · exact cellFault_kept h

theorem firePulseGiv_kept {x : CellAt} {k : CoreId} {a : Option PortEntry} {b : PortEntry} (h : Kept s₀ s) :
    Kept s₀ (firePulseGiv s x k a b) := by
  unfold firePulseGiv
  refine ite_kept (cellFault_kept h) ?_
  split
  · exact endPulse_kept (forward_kept (popLink_kept h))
  · exact endPulse_kept (forward_kept (forward_kept (popLink_kept (popLink_kept h))))

theorem pulseCell_kept {k : CoreId} (h : Kept s₀ s) : Kept s₀ (pulseCell s k) := by
  unfold pulseCell
  split
  · exact h
  refine ite_kept h ?_
  split
  · refine ite_kept h ?_
    split
    · exact parkMiss_kept h
    · exact firePulseRs_kept h
  · refine ite_kept h ?_
    split
    · exact parkMiss_kept h
    · exact firePulseWs_kept h
  · exact ite_kept (ite_kept (firePulseGiv_kept h) h) (ite_kept h (firePulseGiv_kept h))
  · exact h

theorem requestThaw_kept {c : CoreId} {i : Fin 4} {preempt : Bool} (h : Kept s₀ s) :
    Kept s₀ (requestThaw s c i preempt) := ite_kept h (modTicket_kept h)

theorem preemptThaw_kept {c : CoreId} {i : Fin 4} (h : Kept s₀ s) : Kept s₀ (preemptThaw s c i) := by
  unfold preemptThaw
  dsimp only
  split
  · exact h
  · exact ite_kept h (thawGang_kept h)

theorem readScales_kept {s : State} {c : CoreId} {i : Fin 4} {d : W512} {p : PairShape} (l : List (CoreId × Cell))
    (h : Kept s₀ s) : Kept s₀ (readScales s c i d p l).1 := by
  induction l generalizing s with
  | nil => exact h
  | cons e l ih =>
    unfold readScales
    split
    · exact ih h
    split
    · exact parkMiss_kept h
    split
    · exact faultGang_kept h
    · exact ih (modTicket_kept h)

theorem epilogueAt_kept {c : CoreId} {i : Fin 4} {n u v : Nat} (h : Kept s₀ s) :
    Kept s₀ (epilogueAt s c i n u v) := modTicket_kept h

theorem drainStore_kept {c : CoreId} {i : Fin 4} {r : Ref} {es code : Nat} {poison : Bool} (h : Kept s₀ s) :
    Kept s₀ (drainStore s c i r es code poison) :=
  iteSelf_kept poisonWord_kept (homeWrite_kept (crossSeams_kept h))

theorem epilogue_kept {s : State} {c : CoreId} {i : Fin 4} {p : PairShape} {n : Nat}
    (l : List ((Nat × Nat) × (Nat × Nat) × Nat)) (h : Kept s₀ s) : Kept s₀ (epilogue s c i p n l).1 := by
  induction l generalizing s n with
  | nil => exact h
  | cons w l ih =>
    unfold epilogue
    dsimp only
    split
    · exact ih h
    split
    · exact ih h
    split
    · exact faultGang_kept h
    split
    · exact faultGang_kept (modTicket_kept h)
    have marked {f : Ticket → Ticket} : Kept s₀ (modTicket s c i f) := modTicket_kept h
    split
    · exact faultGang_kept marked
    · exact epilogueAt_kept marked
    · dsimp only
      refine modTicket_kept ?_
      exact epilogueAt_kept (postFault_kept marked)
    next hok =>
      have h' := (checkAddr_kept marked).elim hok
      split
      · exact faultGang_kept h'
      split
      · exact faultGang_kept h'
      split
      · exact epilogueAt_kept h'
      · exact ih (drainStore_kept h')

theorem completeGang_kept {c : CoreId} {i : Fin 4} (h : Kept s₀ s) : Kept s₀ (completeGang s c i) := by
  unfold completeGang
  dsimp only
  split
  · exact h
  refine ite_kept h ?_
  have read {l : List ((Nat × Nat) × (Nat × Nat) × Nat)} {p : PairShape} :
      Kept s₀ (if l.isEmpty then (s, true) else readScales s c i (coreOf s c).tickets[i].desc p
        (coreOf s c).tickets[i].cells).1 := by
    split
    · exact h
    · exact readScales_kept _ h
  have written {q : State × Bool} {p : PairShape} {n : Nat} {l : List ((Nat × Nat) × (Nat × Nat) × Nat)}
      (hq : Kept s₀ q.1) : Kept s₀ (if q.2 then epilogue q.1 c i p n l else q).1 := by
    split
    · exact epilogue_kept _ hq
    · exact hq
  exact iteSelf_kept thawGang_kept (written read)

theorem moveCells_kept {t : Ticket} (h : Kept s₀ s) : Kept s₀ (moveCells s t) := by
  refine foldl_kept (fun s k h => seamForward_kept (seamForward_kept (pulseCell_kept (latchEntry_kept h)))) _ ?_
  refine foldl_kept (fun s e h => seamForward_kept ?_) _ h
  exact foldl_kept (fun s n h => ite_kept (boundPush_kept (streamFetch_kept h)) h) _ h

theorem drainCells_kept {s : State} {c : CoreId} {i : Fin 4} {n : Nat} (k : Nat) (h : Kept s₀ s) :
    Kept s₀ (drainCells c i n k s) := by
  induction k generalizing s with
  | zero => exact h
  | succ k ih => exact ite_kept h (ih (moveCells_kept h))

theorem endGang_kept {c : CoreId} {i : Fin 4} (h : Kept s₀ s) : Kept s₀ (endGang s c i) := by
  unfold endGang
  dsimp only
  refine ite_kept (modTicket_kept (releaseCores_kept h)) ?_
  have stopped {n : Nat} {m : Nat} := completeGang_kept (c := c) (i := i) (drainCells_kept (c := c) (i := i) (n := n) m
    (requestThaw_kept (c := c) (i := i) (preempt := false) (modTicket_kept (c := c) (i := i)
      (f := fun t => { t with thawReq := true }) h)))
  refine ite_kept stopped ?_
  split
  · exact thawGang_kept stopped
  · exact thawGang_kept stopped

end Sys2Proof.Machine
end


section
/-!
What every step keeps of the message and command queues (O58): what ends commands, strands, bonds and jobs, and the answers to faults.
-/
set_option Elab.async false
namespace Sys2Proof.Machine

variable {s₀ s t : State}

theorem finishCopy_kept {c : CoreId} {ch : Fin 3} {n : Nat} {o : Byte} (h : Kept s₀ s) :
    Kept s₀ (finishCopy s c ch n o) := by
  unfold finishCopy
  split
  · exact h
  have ended {f : List CopyCmd → List CopyCmd} (hf : ∀ l, (f l).length ≤ l.length) :
      Kept s₀ (modChan s c ch fun k => { tl := tlFinish k.tl n o, cmds := f k.cmds }) := modChan_kept h fun x => hf x.cmds
  have fewer {b : Bool} {f : CopyCmd → CopyCmd} {p : CopyCmd → Bool} (l : List CopyCmd) :
      (if b then l.map f else l.filter p).length ≤ l.length := by
    cases b
    · exact List.length_filter_le ..
    · exact (List.length_map ..).le
  dsimp only
  split
  · exact markDone_kept (ended fewer)
  · exact ended fewer

theorem finishFoot_kept {c : CoreId} {n : Nat} {o : Byte} (h : Kept s₀ s) : Kept s₀ (finishFoot s c n o) := by
  unfold finishFoot
  exact foldl_kept (fun _ _ h => wakeLine_kept h) _ (modFootQueue_kept
    (f := fun x => { tl := tlFinish x.tl n o, cmds := x.cmds.filter fun y => y.n != n }) h
    fun x => List.length_filter_le ..)

theorem releaseSeqCores_kept {die : Fin 4} {q : Fin 8} (h : Kept s₀ s) :
    Kept s₀ (releaseSeqCores s die q) := h.of_cores rfl

theorem leaveComponent_kept {die : Fin 4} {q : Fin 8} (h : Kept s₀ s) : Kept s₀ (leaveComponent s die q) := by
  unfold leaveComponent
  dsimp only
  split
  · split
    · exact iteSelf_kept clearEdges_kept (releaseSeqCores_kept h)
    · exact releaseSeqCores_kept h
  · exact releaseSeqCores_kept h

theorem finishSeq_kept {die : Fin 4} {q : Fin 8} {n : Nat} {o : Byte} (h : Kept s₀ s) :
    Kept s₀ (finishSeq s die q n o) := by
  unfold finishSeq
  dsimp only
  split
  · exact h
  have left := modSeqr_kept (d := die) (q := q)
    (f := fun y => { y with tl := tlFinish y.tl n o, cmds := y.cmds.filter fun z => z.n != n })
    (leaveComponent_kept (die := die) (q := q) h) fun x => List.length_filter_le ..
  split
  · refine mapStrands_kept (raiseFlags_kept ?_)
    split
    · exact modBond_kept left
    · exact left
  · refine raiseFlags_kept ?_
    split
    · exact modBond_kept left
    · exact left

theorem thawTickets_kept {c : CoreId} {b : Nat} (h : Kept s₀ s) : Kept s₀ (thawTickets s c b) :=
  foldl_kept (fun _ _ h => modTicket_kept h) _ h

theorem dropTickets_kept {c : CoreId} {b : Nat} (h : Kept s₀ s) : Kept s₀ (dropTickets s c b) :=
  foldl_kept (fun _ _ h => endGang_kept h) _ h

theorem dropTags_kept {gone : Tag → Bool} (h : Kept s₀ s) : Kept s₀ (dropTags s gone) :=
  foldl_kept (fun _ _ h => wakeWord_kept (setTag_kept h)) _ h

theorem abandonWrites_kept {c : CoreId} {uid : Nat} (h : Kept s₀ s) : Kept s₀ (abandonWrites s c uid) :=
  dropTags_kept (modCore_kept h)

theorem killStrand_kept {c : CoreId} {i : Slot} (h : Kept s₀ s) : Kept s₀ (killStrand s c i) :=
  abandonWrites_kept (leaveSlot_kept h)

theorem cancelCore_kept {c : CoreId} {b : Nat} (h : Kept s₀ s) : Kept s₀ (cancelCore s c b) := by
  refine foldl_kept (fun _ _ h => finishFoot_kept h) _ ?_
  exact foldl_kept (fun _ _ h => finishCopy_kept h) _ h

theorem cancelSeq_kept {x : Bond} {inCluster : Nat → Bool} (h : Kept s₀ s) :
    Kept s₀ (cancelSeq s x inCluster) := by
  unfold cancelSeq
  split
  · exact h
  · exact foldl_kept (fun _ _ h => finishSeq_kept h) _ h

theorem killPart_kept {b : Nat} {inCluster : Nat → Bool} {now : Bool} (h : Kept s₀ s) :
    Kept s₀ (killPart s b inCluster now) := by
  refine foldl_kept (fun s c h => ite_kept (dropTickets_kept (cancelCore_kept h))
    (thawTickets_kept (cancelCore_kept h))) _ ?_
  have killed := foldl_kept (f := fun s e => killStrand s e.1 e.2.1) (fun _ _ h => killStrand_kept h)
    (bondStrands s b inCluster) h
  have abandoned := withCores_kept
    (g := fun e => if inCluster (clusterIdx e.1) then (e.1, abandonEnded e.2) else e) killed fun e => by split <;> rfl
  split
  · exact cancelSeq_kept (dropTags_kept abandoned)
  · exact dropTags_kept abandoned

theorem killCourse_kept {b cl : Nat} (h : Kept s₀ s) : Kept s₀ (killCourse s b cl) := killPart_kept h

theorem releaseSeqr_kept {x : Bond} (h : Kept s₀ s) : Kept s₀ (releaseSeqr s x) := by
  unfold releaseSeqr
  split
  · exact modSeqr_kept (f := fun y => { y with bond := none }) h fun _ => le_rfl
  · exact h

theorem freeClusters_kept {x : Bond} (h : Kept s₀ s) : Kept s₀ (freeClusters s x) :=
  foldl_kept (fun _ _ h => modCluster_kept h) _ h

theorem clearCore_fits {k : Core} (h : CoreQueuesFit k) : CoreQueuesFit (clearCore k) := by
  refine h.shorter (Nat.zero_le _) (List.nil_sublist _) (fun ch => ?_) le_rfl
  simp [clearCore, List.length_filter_le]

theorem stopBond_kept {b : Nat} (h : Kept s₀ s) : Kept s₀ (stopBond s b) := by
  unfold stopBond
  split
  · exact h
  next x _ =>
    have cleared := withCores_kept_of
      (g := fun e => if (bondClusters x).contains (clusterIdx e.1) then (e.1, clearCore e.2) else e)
      (killPart_kept (b := b) (inCluster := fun cl => (bondClusters x).contains cl) (now := true) h)
      fun e he => by
        split
        · exact clearCore_fits he
        · exact he
    refine withBonds_kept (freeClusters_kept (releaseSeqr_kept (withNet_kept (foldl_kept (fun s p h => ?_) _ cleared))))
    split
    · exact markDone_kept h
    · exact h

theorem killBond_kept {b : Nat} {cause : Byte} (h : Kept s₀ s) : Kept s₀ (killBond s b cause) := by
  unfold killBond
  split
  · exact h
  · exact markDone_kept (modQueue_kept (stopBond_kept h))

theorem dropSavedBond_kept {cause : Byte} {e : Nat × Bond} (h : Kept s₀ s) :
    Kept s₀ (dropSavedBond cause s e) :=
  markDone_kept (modQueue_kept (dropTags_kept (releaseSeqr_kept (cancelSeq_kept h))))

theorem dropSaved_kept {j : Nat} {cause : Byte} (h : Kept s₀ s) : Kept s₀ (dropSaved s j cause) := by
  unfold dropSaved
  refine withParts_kept (foldl_kept (fun s x h => ?_) _ h) fun e x hx => (List.mem_filter.1 hx).1
  refine foldl_kept (fun _ _ h => markDone_kept h) _ ?_
  exact foldl_kept (fun _ _ h => dropSavedBond_kept h) _ h

theorem dropUnits_kept {q : WorkUnit → Bool} (h : Kept s₀ s) : Kept s₀ { s with
    parts := s.parts.map fun e => (e.1, { e.2 with units := e.2.units.filter q }) } := 
  withParts_kept h fun _ _ hx => hx

theorem killJob_kept {j : Nat} {cause : Byte} (h : Kept s₀ s) : Kept s₀ (killJob s j cause) := by
  unfold killJob
  refine modJob_kept (foldl_kept (fun _ _ h => stopQueue_kept h) _ ?_)
  refine dropUnits_kept (foldl_kept (fun _ _ h => markDone_kept h) _ (dropSaved_kept ?_))
  exact foldl_kept (fun _ _ h => killBond_kept h) _ h

theorem queueFanned_kept {b : Nat} {x : Bond} {c : CoreId} {first t n : Nat} (h : Kept s₀ s) :
    Kept s₀ (queueFanned s b x c first t n) := by
  unfold queueFanned
  refine modCore_kept_of (foldl_kept (fun _ _ h => joinBarriers_kept h) _ h.of_eq) fun ⟨hout, hin, hch, hft⟩ =>
    ⟨hout, le_trans (le_of_eq ?_) hin, hch, hft⟩
  have again {f : InMsg → InMsg} {p : InMsg → Bool} (hf : ∀ m, (f m).size = m.size) (l : List InMsg) :
      ((l.map fun m => if p m then f m else m).map fun m => m.size) = l.map fun m => m.size := by
    simp only [List.map_map]
    exact List.map_congr_left fun m _ => by simp only [Function.comp_apply, apply_ite InMsg.size, hf, ite_self]
  unfold inboundUsed
  dsimp only
  split
  · rw [again]
    intro m
    split <;> rfl
  · simp [List.foldl_cons]

theorem restartFanned_kept {s : State} {b : Nat} {x : Bond} {c : CoreId} {first n : Nat} (k : Nat)
    (h : Kept s₀ s) : Kept s₀ (restartFanned s b x c first n k) := by
  induction k generalizing s with
  | zero => exact h
  | succ k ih =>
    unfold restartFanned
    dsimp only
    split
    · exact queueFanned_kept h
    · exact ih (joinBarriers_kept (putStrand_kept (h.of_eq)))

theorem restartCourse_kept {b cl : Nat} (h : Kept s₀ s) : Kept s₀ (restartCourse s b cl) := by
  unfold restartCourse
  split
  · exact h
  · exact foldl_kept (fun _ _ h => restartFanned_kept _ h) _ (killCourse_kept h)

theorem requeueBond_kept {b : Nat} {left : Option (Nat × Nat × Nat)} (h : Kept s₀ s) :
    Kept s₀ (requeueBond s b left) := by
  unfold requeueBond
  split
  · exact h
  · exact modPart_kept (stopBond_kept h).of_eq

theorem restartUnits_kept {bs : List Nat} {level : Nat} (h : Kept s₀ s) :
    Kept s₀ (restartUnits s bs level) := by
  refine foldl_kept (fun s b h => ?_) _ h
  split
  · exact h
  · exact requeueBond_kept h

theorem modCopy_kept {c : CoreId} {ch : Fin 3} {n : Nat} {f : CopyCmd → CopyCmd} (h : Kept s₀ s) :
    Kept s₀ (modCopy s c ch n f) :=
  modChan_kept h fun _ => (List.length_map ..).le

theorem modFoot_kept {c : CoreId} {n : Nat} {f : FootCmd → FootCmd} (h : Kept s₀ s) :
    Kept s₀ (modFoot s c n f) := by
  unfold modFoot
  exact modFootQueue_kept (f := fun x => { x with cmds := x.cmds.map fun m => if m.n = n then f m else m }) h
    fun _ => (List.length_map ..).le

theorem modSeq_kept {die : Fin 4} {q : Fin 8} {n : Nat} {f : SeqCmd → SeqCmd} (h : Kept s₀ s) :
    Kept s₀ (modSeq s die q n f) := by
  unfold modSeq
  exact modSeqr_kept (f := fun x => { x with cmds := x.cmds.map fun m => if m.n = n then f m else m }) h
    fun _ => (List.length_map ..).le

theorem endSeq_kept {die : Fin 4} {q : Fin 8} {n : Nat} {o : Byte} (h : Kept s₀ s) :
    Kept s₀ (endSeq s die q n o) := modSeq_kept (leaveComponent_kept h)

theorem resumeAgent_kept {m : FaultMsg} (a : Agent) (h : Kept s₀ s) : Kept s₀ (resumeAgent s m a) := by
  unfold resumeAgent
  cases a with
  | strand c i => exact modStrand_kept (iteSelf_kept modStream_kept h)
  | stream | ticket => exact modCore_kept h
  | copy => exact modCopy_kept h
  | foot => exact modFoot_kept h
  | seq => exact modSeq_kept h
  | store | red => exact modCore_kept h

theorem skipAgent_kept {_m : FaultMsg} (a : Agent) (h : Kept s₀ s) : Kept s₀ (skipAgent s _m a) := by
  unfold skipAgent
  cases a with
  | strand => exact modStrand_kept h
  | stream | ticket => exact modCore_kept h
  | copy => exact modCopy_kept h
  | foot => exact finishFoot_kept h
  | seq => exact endSeq_kept h
  | store | red => exact modCore_kept h

theorem killAgent_kept (a : Agent) (h : Kept s₀ s) : Kept s₀ (killAgent s a) := by
  unfold killAgent
  cases a with
  | stream => exact modStream_kept (unbind_kept h)
  | copy => exact finishCopy_kept h
  | foot => exact finishFoot_kept h
  | seq => exact endSeq_kept h
  | ticket => exact modTicket_kept h
  | strand | store | red => exact h

theorem useRetry_kept {b : Nat} {cl l : Nat} (h : Kept s₀ s) : Kept s₀ (useRetry s b cl l) := by
  unfold useRetry
  split
  · exact h
  split
  · exact modBond_kept h
  · exact modBond_kept h
  · exact foldl_kept (fun _ _ h => modBond_kept h) _ h
  · exact foldl_kept (fun _ _ h => modBond_kept h) _ h

theorem killUnit_kept {b cl : Nat} {cause : Byte} {l : Nat} (h : Kept s₀ s) :
    Kept s₀ (killUnit s b cl cause l) := by
  unfold killUnit
  split
  · exact h
  split
  · exact killCourse_kept h
  · exact killBond_kept h
  · exact foldl_kept (fun _ _ h => killBond_kept h) _ h
  · exact killJob_kept h

theorem restartUnit_kept {b cl : Nat} {l : Nat} (h : Kept s₀ s) : Kept s₀ (restartUnit s b cl l) := by
  unfold restartUnit
  split
  · exact h
  split
  · exact restartCourse_kept h
  all_goals exact restartUnits_kept h

theorem ignoreFault_kept {w : Walker} (h : Kept s₀ s) : Kept s₀ (ignoreFault s w) := by
  unfold ignoreFault
  split
  · exact skipAgent_kept _ h
  · exact h

theorem walkStrand_kept {w : Walker} (h : Kept s₀ s) : ∀ t, walkStrand s w = some t → Kept s₀ t := by
  intro t ht
  unfold walkStrand at ht
  split at ht
  · cases ht
  dsimp only at ht
  split at ht
  · split at ht
    · cases ht
    · cases ht; exact ignoreFault_kept h
  · cases ht; exact killStrand_kept h
  · split at ht
    · cases ht
    · cases ht
      split
      · exact resumeAgent_kept _ (modStrand_kept h)
      · exact modStrand_kept h
  · cases ht

theorem walkUp_kept {w : Walker} {b : Nat} (l : List Nat) (h : Kept s₀ s) : Kept s₀ (walkUp s w b l) := by
  induction l with
  | nil => exact killUnit_kept h
  | cons l rest ih =>
    unfold walkUp
    split
    · exact ite_kept ih (ignoreFault_kept h)
    · exact killUnit_kept h
    · exact ite_kept ih (restartUnit_kept (useRetry_kept h))
    · exact ih

theorem walk_kept {m : FaultMsg} {agent : Option Agent} (h : Kept s₀ s) : Kept s₀ (walk s m agent) := by
  unfold walk
  dsimp only
  split
  · next hw => exact walkStrand_kept h _ hw
  · exact walkUp_kept _ h
  · exact h

theorem replyKill_kept {m : FaultMsg} {a : Agent} (h : Kept s₀ s) : Kept s₀ (replyKill s m a) :=
  walk_kept (killAgent_kept _ h)

theorem applyReply_kept {m : FaultMsg} {a : Agent} {act : Act} (h : Kept s₀ s) :
    Kept s₀ (applyReply s m a act) := by
  cases act with
  | resume => exact resumeAgent_kept _ (h.of_eq)
  | skip => exact ite_kept (replyKill_kept (h.of_eq)) (skipAgent_kept _ (h.of_eq))
  | kill => exact replyKill_kept (h.of_eq)

theorem reply_kept {part : Option Nat} {token : W64} {act : Act} (h : Kept s₀ s) :
    Kept s₀ (reply s part token act) := by
  unfold reply
  split
  · exact ite_kept (ite_kept (modPart_kept h) (applyReply_kept h)) h
  · exact h

theorem walkWhenRunning_kept {part : Nat} {m : FaultMsg} (h : Kept s₀ s) :
    Kept s₀ (walkWhenRunning s part m) := ite_kept (modPart_kept h) (walk_kept h)

theorem dropService_kept {c : CoreId} {i : Slot} (h : Kept s₀ s) : Kept s₀ (dropService s c i) := by
  unfold dropService
  dsimp only
  split
  · exact reply_kept (killStrand_kept h)
  · exact killStrand_kept h

theorem postAndWait_kept {c : CoreId} {i : Slot} {len : Nat} {load : Option Nat} {m : FaultMsg} (h : Kept s₀ s) :
    Kept s₀ (postAndWait s c i len load m) := ite_kept (dropService_kept h) (modStrand_kept (postFault_kept h))

theorem takeTrap_kept {len : Nat} {cause : Byte} {tval : W64} {wr : Bool} (h : Kept s₀ s) :
    Kept s₀ (takeTrap s len cause tval wr) :=
  ite_kept (dropService_kept h) (ite_kept (postAndWait_kept h) (modMe_kept h))

theorem returnFromTrap_kept (h : Kept s₀ s) : Kept s₀ (returnFromTrap s) := modMe_kept h

end Sys2Proof.Machine
end


section
/-!
What every step keeps of the message and command queues (O58): register files, traps, loads and stores, engines and copies.
-/
set_option Elab.async false
namespace Sys2Proof.Machine

variable {s₀ s t : State}

theorem popView_kept (l : View) (h : Kept s₀ s) : Kept s₀ (popView s l) := by
  unfold popView
  split
  · exact popStream_kept h
  · exact popLink_kept h

theorem popAll_kept {vs : List View} (h : Kept s₀ s) : Kept s₀ (popAll s vs) :=
  foldl_kept (fun _ v h => popView_kept v h) _ h

theorem setG_kept {i : Fin 24} {x : W64} (h : Kept s₀ s) : Kept s₀ (setG s i x) := modMe_kept h

theorem setVWords_kept {i : Fin 8} {words : BitVec 4} {x : W256} (h : Kept s₀ s) :
    Kept s₀ (setVWords s i words x) := modMe_kept h

theorem setV_kept {i : Fin 8} {x : W256} (h : Kept s₀ s) : Kept s₀ (setV s i x) := setVWords_kept h

theorem setM_kept {i : Fin 4} {x : W32} (h : Kept s₀ s) : Kept s₀ (setM s i x) := modMe_kept h

theorem pushPort_kept {p : Port} {x : W256} (h : Kept s₀ s) : Kept s₀ (pushPort s p x) :=
  ite_kept (pushLink_kept (h.of_eq)) (pushLink_kept h)

theorem writeS_kept {d : SReg} {x : W64} (h : Kept s₀ s) : Kept s₀ (writeS s d x) := by
  unfold writeS
  split
  · exact setG_kept h
  · exact pushStream_kept h
  · exact pushPort_kept h

theorem writeV_kept {d : VReg} {x : W256} (h : Kept s₀ s) : Kept s₀ (writeV s d x) := by
  unfold writeV
  split
  · exact setV_kept h
  · exact pushStream_kept h
  · exact pushPort_kept h

theorem commitPops_kept {s₀ s t : State} {pops : List View} (h : Kept s₀ t) : Kept s₀ (commitPops s t pops) :=
  ite_kept (popAll_kept h) (modMe_kept h)

theorem ready_kept (h : Kept s₀ s) : Kept s₀ (ready s) := modMe_kept h

theorem dropBlocks_kept (h : Kept s₀ s) : Kept s₀ (dropBlocks s) := modMe_kept h

theorem sendBlock_kept {ps : List Part} (h : Kept s₀ s) : Kept s₀ (sendBlock s ps) :=
  modMe_kept (h.of_eq)

theorem stopStep_kept {len : Nat} (l : Stop) (h : Kept s₀ s) : Kept s₀ (stopStep s len l) := by
  unfold stopStep
  split
  · exact modMe_kept h
  · exact modMe_kept h
  · exact modMe_kept (parkMiss_kept h)
  · exact sendBlock_kept h
  · exact takeTrap_kept (dropBlocks_kept h)
  · exact postAndWait_kept (dropBlocks_kept h)

theorem advance_kept {len : Nat} (h : Kept s₀ s) : Kept s₀ (advance s len) := modMe_kept h

theorem access_kept {use : Use} {va : W64} (h : Kept s₀ s) :
    Yields (fun x => Kept s₀ x.2) (access s use va) := by
  unfold access
  split
  · next hok => exact (checkAddr_kept h).elim hok
  all_goals exact trivial

theorem takeSeq_kept (h : Kept s₀ s) : Kept s₀ (takeSeq s).2 := h.of_eq

theorem markMine_kept {sc : Scope} {uo : Bool} (h : Kept s₀ s) : Kept s₀ (markMine s sc uo) :=
  markRelease_kept h

theorem raise_kept {fl : Flags} (h : Kept s₀ s) : Yields (Kept s₀) (raise s fl) :=
  ite_yields trivial (addFlags_kept h)

theorem applyInc_kept {b : Option (Fin 24 × W64)} (h : Kept s₀ s) : Kept s₀ (applyInc s b) := by
  unfold applyInc
  split
  · exact setG_kept h
  · exact h

theorem writeLanes_kept {d : VReg} {w : Nat} {mask : W32} {x : W256} (h : Kept s₀ s) :
    Kept s₀ (writeLanes s d w mask x) := by
  unfold writeLanes
  split
  · exact setVWords_kept h
  · exact writeV_kept h

theorem writeAnswer_kept {p : Pending} (h : Kept s₀ s) : Kept s₀ (writeAnswer s p) := by
  have written : Kept s₀ (match p.dest with
      | .scalar d w sg => writeS s d (if sg then sext (assemble p.parts) w 64 else ((assemble p.parts).setWidth w).setWidth 64)
      | .vector d w m => writeLanes s d w m (assemble p.parts)
      | .nothing | .block => s) := by
    split
    · exact writeS_kept h
    · exact writeLanes_kept h
    all_goals exact h
  unfold writeAnswer
  dsimp only
  split
  · exact markAcquire_kept (addFlags_kept (applyInc_kept written))
  · exact addFlags_kept (applyInc_kept written)

theorem checkPieces_kept {use : Use} (l : List Piece) (h : Kept s₀ s) :
    Yields (fun x => Kept s₀ x.2) (checkPieces s use l) := by
  induction l generalizing s with
  | nil => exact h
  | cons p l ih =>
    unfold checkPieces
    split
    · next hok =>
      have rest := ih ((access_kept h).elim hok)
      split
      · next hrest =>
        have h'' := rest.elim hrest
        exact h''
      · exact trivial
    · split
      all_goals exact trivial

theorem sendRequest_kept {p : Pending} {len : Nat} (h : Kept s₀ s) : Yields (Kept s₀) (sendRequest s p len) := by
  have kept {t : State} {q : Pending} {b : Bool} (h : Kept s₀ t) : Kept s₀
      (if b then modMe (modMe t fun t => { t with inflight := t.inflight ++ [{ q with blocking := b }] }) fun t =>
          { t with wait := .answer }
        else advance (modMe t fun t => { t with inflight := t.inflight ++ [{ q with blocking := b }] }) len) :=
    ite_kept (modMe_kept (modMe_kept h)) (advance_kept (modMe_kept h))
  unfold sendRequest
  dsimp only
  refine ite_yields (kept h) (ite_yields trivial (ite_yields ?_ (kept (performReq_kept h))))
  split
  · exact trivial
  · exact advance_kept (writeAnswer_kept (performReq_kept h))

theorem drainStores_kept {s : State} {c : CoreId} {from_ : Nat} (k : Nat) (h : Kept s₀ s) :
    Kept s₀ (drainStores s c from_ k) := by
  induction k generalizing s with
  | zero => exact h
  | succ k ih =>
    unfold drainStores
    split
    · exact ih (performStore_kept h)
    · exact h

theorem queueStores_kept {es : List StoreEntry} (h : Kept s₀ s) : Kept s₀ (queueStores s es) :=
  ite_kept (modCore_kept h) (drainStores_kept _ (modCore_kept h))

theorem makeEntries_kept {s : State} {tag : Option Scope} {each : Bool} {first : W64} (l : List (Chunk × Ref))
    (h : Kept s₀ s) : Kept s₀ (makeEntries s tag each first l).2 := by
  induction l generalizing s with
  | nil => exact h
  | cons e l ih => exact ih (ite_kept (h.of_eq) h)

theorem storeChunks_kept {cs : List Chunk} {tag : Option Scope} {each : Bool} (h : Kept s₀ s) :
    Yields (Kept s₀) (storeChunks s cs tag each) := by
  refine (checkPieces_kept _ h).bind fun ⟨l, s⟩ h => yields_after fun _ => ?_
  exact queueStores_kept (makeEntries_kept _ h)

theorem releasing_kept {rel : Option Scope} (h : Kept s₀ s) : Yields (Kept s₀) (releasing s rel) := by
  unfold releasing
  split
  · exact Yields.map (P := fun _ => True) (by unfold release; split <;> trivial) fun _ _ => markMine_kept h
  · exact h

theorem atomicReq_kept {kind : ReqKind} {ea : W64} {n : Nat} {d : Dest} {rel acq : Option Scope} (h : Kept s₀ s) :
    Yields (Kept s₀) (atomicReq s kind ea n d rel acq) := by
  refine (access_kept h).bind fun ⟨r, s⟩ h => yields_after fun _ => (releasing_kept h).bind fun s h => ?_
  exact sendRequest_kept (takeSeq_kept h)

theorem loadPieces_kept {ps : List Piece} {kind : ReqKind} {d : Dest} {base : Option (Fin 24 × W64)}
    {blocking : Bool} {acq : Option Scope} (h : Kept s₀ s) :
    Yields (Kept s₀) (loadPieces s ps kind d base blocking acq) := by
  refine (checkPieces_kept _ h).bind fun ⟨l, s⟩ h => yields_after fun _ => ?_
  exact sendRequest_kept (takeSeq_kept h)

theorem performNow_kept {rs : List Reduction} (h : Kept s₀ s) : Kept s₀ (performNow s rs) := by
  refine foldl_kept (fun s r h => ?_) _ h
  have done : Kept s₀ (if r.rp then combineShadow s s.cur r else performRed s s.cur r) :=
    ite_kept (combineShadow_kept h) (performRed_kept h)
  dsimp only
  split
  · exact iteSelf_kept ackRed_kept done
  · exact done

theorem sendReductions_kept {l : List (RedKind × W64 × Ref × Bool)} {rel : Option Scope} (h : Kept s₀ s) :
    Yields (Kept s₀) (sendReductions s l rel) := by
  refine yields_after fun _ => ite_kept ?_ (performNow_kept ?_)
  all_goals
    refine modCore_kept (takeSeq_kept ?_)
    split
    · exact markMine_kept h
    · exact h

theorem loadWords_kept {s : State} {a : W64} (k i : Nat) (h : Kept s₀ s) :
    Yields (fun x => Kept s₀ x.2) (loadWords s a k i) := by
  induction k generalizing s i with
  | zero => exact h
  | succ k ih =>
    refine (access_kept h).bind fun ⟨r, s⟩ h => yields_after fun _ => ?_
    dsimp only
    split
    · exact trivial
    · exact ite_yields trivial ((ih _ h).bind fun _ h => h)

theorem loadBlock_kept {a : W64} (h : Kept s₀ s) : Yields (fun x => Kept s₀ x.2) (loadBlock s a) := by
  unfold loadBlock
  split
  · refine ite_yields trivial (ite_yields trivial ?_)
    split
    · exact trivial
    · exact yields_kept (modMe_kept h)
  · refine yields_after fun _ => ite_yields ?_ ?_
    · exact (checkPieces_kept _ h).bind fun _ _ => yields_after fun _ => trivial
    · exact (loadWords_kept _ _ h).bind fun _ h => h

theorem jumpBy_kept {w : Nat} {off : BitVec w} (h : Kept s₀ s) : Kept s₀ (jumpBy s off) := modMe_kept h

theorem putPresent_kept (l : List (Nat × W64)) (h : Kept s₀ s) : Kept s₀ (putPresent s l) := by
  induction l generalizing s with
  | nil => exact h
  | cons e l ih => exact wakeWord_kept (ih (setPresent_kept (setTag_kept (putWord_kept h))))

theorem storePresent_kept {l : List (W64 × W64)} {ea : W64} (h : Kept s₀ s) :
    Yields (Kept s₀) (storePresent s l ea) :=
  yields_after fun _ => yields_after fun _ => yields_after fun _ => ite_yields trivial (putPresent_kept _ h)

theorem rmwWords_kept {s : State} {loc : Nat} (l : List W64) (h : Kept s₀ s) : Kept s₀ (rmwWords s loc l) := by
  induction l generalizing s loc with
  | nil => exact h
  | cons x l ih => exact ih (wakeWord_kept (putWord_kept h))

theorem portWrite_kept {s : State} {loc : Nat} (l : List W64) (h : Kept s₀ s) : Kept s₀ (portWrite s loc l) := by
  induction l generalizing s loc with
  | nil => exact h
  | cons x l ih => exact ih (homeWrite_kept h)

theorem claimRegs_kept {d : GReg} {e : W64} {st c : Nat} (h : Kept s₀ s) : Kept s₀ (claimRegs s d e st c) :=
  setG_kept (setG_kept (setG_kept (setG_kept (setG_kept h))))

theorem arrive_kept {s : State} {l : BarLevel} {k : W32 → State → State}
    (hk : ∀ ph s, Kept s₀ s → Kept s₀ (k ph s)) (h : Kept s₀ s) : Yields (Kept s₀) (arrive s l k) := by
  unfold arrive
  split
  · refine yields_after fun _ => ?_
    have arrived {ph : W32} := hk ph _ (takeSeq_kept (markMine_kept (sc := barScope l) (uo := false) h))
    exact ite_yields (modMe_kept arrived) (arriveBarrier_kept arrived)
  · exact trivial

theorem faultThaw_kept {c : CoreId} {i : Fin 4} (h : Kept s₀ s) : Kept s₀ (faultThaw s c i) := by
  unfold faultThaw
  dsimp only
  split
  · exact h
  · exact ite_kept h (iteSelf_kept walkWhenRunning_kept (thawGang_kept h))

theorem engCheck_kept {w : Who} {use : Use} {flash : Bool} {va : W64} (h : Kept s₀ s) :
    Yields (fun x => Kept s₀ x.2) (engCheck s w use flash va) := by
  unfold engCheck
  split
  · next hok => exact ite_yields trivial ((checkAddr_kept h).elim hok)
  all_goals exact trivial

theorem engLoad_kept {w : Who} {va : W64} {n : Nat} (h : Kept s₀ s) :
    Yields (fun x => Kept s₀ x.2) (engLoad s w va n) :=
  (engCheck_kept h).bind fun ⟨_, _⟩ h => ite_yields trivial h

theorem engLoads_kept {w : Who} {n : Nat} (l : List W64) (h : Kept s₀ s) :
    Yields (fun x => Kept s₀ x.2) (engLoads s w n l) := by
  induction l generalizing s with
  | nil => exact h
  | cons va l ih => exact (engLoad_kept h).bind fun ⟨x, s⟩ h => (ih h).bind fun _ h => h

theorem engTarget_kept {w : Who} {va : W64} {n : Nat} (h : Kept s₀ s) :
    Yields (fun x => Kept s₀ x.2) (engTarget s w va n) :=
  (engCheck_kept h).bind fun ⟨_, _⟩ h => ite_yields trivial (ite_yields trivial (ite_yields trivial h))

theorem handCopy_kept {ch : Fin 2} {words : W512} {tick : W64} (h : Kept s₀ s) :
    Yields (fun x => Kept s₀ x.2) (handCopy s ch words tick) := by
  unfold handCopy
  dsimp only
  split
  · exact trivial
  next hroom =>
  refine yields_kept (modChan_kept_of (takeSeq_kept h) fun _ => ?_)
  rw [List.length_append]
  exact Nat.not_le.1 hroom

theorem copyCheck_kept {ch : Fin 3} {m : CopyCmd} {use : Use} {va : W64} (h : Kept s₀ s) :
    Yields (fun x => Kept s₀ x.2) (copyCheck s ch m use va) := ite_yields trivial (engCheck_kept h)

theorem copyPlace_kept {ch : Fin 3} {m : CopyCmd} {use : Use} {va : W64} (h : Kept s₀ s) :
    Yields (fun x => Kept s₀ x.2) (copyPlace s ch m use va) := by
  unfold copyPlace
  split
  · exact h
  · exact copyCheck_kept h

theorem markLate_kept {c : CoreId} {ch : Fin 3} (h : Kept s₀ s) : Kept s₀ (markLate s c ch) :=
  modChan_kept h fun _ => le_rfl

theorem startCopy_kept {c : CoreId} {ch : Fin 3} {n : Nat} (h : Kept s₀ s) : Kept s₀ (startCopy s c ch n) := by
  unfold startCopy
  split
  · exact h
  · exact ite_kept h (iteSelf_kept markLate_kept (modCopy_kept h))

theorem acceptCopy_kept {c : CoreId} {ch : Fin 3} {m : CopyCmd} (h : Kept s₀ s) :
    Kept s₀ (acceptCopy s c ch m) :=
  ite_kept (finishCopy_kept h) (ite_kept (finishCopy_kept h) (ite_kept (modCopy_kept h)
    (ite_kept (markLate_kept (modCopy_kept h)) (startCopy_kept (modCopy_kept h)))))

theorem copySeams_kept {c : CoreId} {ch : Fin 3} {m : CopyCmd} {loc : Nat} (h : Kept s₀ s) :
    Kept s₀ (copySeams s c ch m loc) := ite_kept h (crossSeams_kept h)

theorem gatherWord_kept {c : CoreId} {ch : Fin 3} {m : CopyCmd} (l : List (Nat × Nat × Nat)) (h : Kept s₀ s) :
    Yields (fun x => Kept s₀ x.2) (gatherWord s c ch m l) := by
  induction l generalizing s with
  | nil => exact h
  | cons e l ih =>
    refine (copyPlace_kept h).bind fun ⟨r, s⟩ h => ite_yields trivial ?_
    exact (ih (copySeams_kept h)).bind fun _ h => h

theorem landTarget_kept {ch : Fin 3} {m : CopyCmd} {word : Nat} {mask : BitVec 8} (h : Kept s₀ s) :
    Yields (fun x => Kept s₀ x.2) (landTarget s ch m word mask) :=
  (copyPlace_kept h).bind fun ⟨_, _⟩ h => ite_yields trivial (ite_yields trivial (ite_yields trivial h))

theorem gatherUnit_kept {c : CoreId} {ch : Fin 3} {m : CopyCmd} (l : List Nat) (h : Kept s₀ s) :
    Yields (fun x => Kept s₀ x.2) (gatherUnit s c ch m l) := by
  induction l generalizing s with
  | nil => exact h
  | cons w l ih =>
    exact (gatherWord_kept _ h).bind fun ⟨x, s⟩ h => (landTarget_kept h).bind fun ⟨r, s⟩ h =>
      (ih h).bind fun _ h => h

theorem arrivalStep_kept {d : W512} {n : Nat} (h : Kept s₀ s) :
    ∀ t, arrivalStep s d n = some t → Kept s₀ t := by
  intro t ht
  unfold arrivalStep at ht
  dsimp only at ht
  split at ht
  · cases ht; exact h
  split at ht
  · cases ht
  · cases ht; exact portWrite_kept _ h

theorem landWord_kept {c : CoreId} {ch : Fin 3} {m : CopyCmd} {word home key : Nat} {x : Landing} (h : Kept s₀ s)
    : Kept s₀ (landWord s c ch m word home key x) := by
  have landed {f : CopyCmd → CopyCmd} : Kept s₀ (modCopy (if cdPset m.words then
        wakeWord (setPresent (if x.poison then poisonWord (homeWrite (copySeams s c ch m home) home key x.mask x.val none)
          home else homeWrite (copySeams s c ch m home) home key x.mask x.val none) home) home
      else if x.poison then poisonWord (homeWrite (copySeams s c ch m home) home key x.mask x.val none) home
        else homeWrite (copySeams s c ch m home) home key x.mask x.val none) c ch m.n f) :=
    modCopy_kept (iteSelf_kept (fun h => wakeWord_kept (setPresent_kept h))
      (iteSelf_kept poisonWord_kept (homeWrite_kept (copySeams_kept h))))
  unfold landWord
  dsimp only
  split
  · next hs => exact arrivalStep_kept landed _ hs
  · exact finishCopy_kept landed

theorem landElement_kept {c : CoreId} {ch : Fin 3} {m : CopyCmd} {word : Nat} (h : Kept s₀ s) :
    Yields (Kept s₀) (landElement s c ch m word) := by
  unfold landElement
  split
  · exact ite_yields trivial (ite_yields trivial (landWord_kept h))
  · refine (gatherUnit_kept _ h).bind fun ⟨l, s⟩ h => ?_
    dsimp only
    split
    · exact landWord_kept (modCopy_kept h)
    · exact modCopy_kept h

theorem flashLanding_kept {c : CoreId} {ch : Fin 3} {m : CopyCmd} {e : Nat × Bool} (h : Kept s₀ s) :
    Kept s₀ (flashLanding s c ch m e) := ite_kept (finishCopy_kept h) (ite_kept h (h.of_eq))

theorem landNow_kept {c : CoreId} {ch : Fin 3} {n : Nat} {word : Nat} (h : Kept s₀ s) :
    Kept s₀ (landNow c ch n s word) := by
  unfold landNow
  split
  · exact h
  split
  · next hs => exact (landElement_kept h).elim hs
  · exact parkMiss_kept h
  · exact h

theorem failWord_kept {c : CoreId} {ch : Fin 3} {n : Nat} {word : Nat} (h : Kept s₀ s) :
    Kept s₀ (failWord c ch n s word) := by
  unfold failWord
  split
  · exact h
  refine modCopy_kept ?_
  split
  · next hs => exact poisonWord_kept ((copyPlace_kept h).elim hs)
  · exact h

end Sys2Proof.Machine
end


section
/-!
What every step keeps of the message and command queues (O58): CSRs, the steps of requests, messages, and errors of the hardware.
-/
set_option Elab.async false
namespace Sys2Proof.Machine

variable {s₀ s t : State}

theorem csrLatch_kept {n : Nat} (h : Kept s₀ s) : Kept s₀ (csrLatch s n) := ite_kept (modMe_kept h) h

theorem csrClear_kept {n : Nat} {a : W64} (h : Kept s₀ s) : Kept s₀ (csrClear s n a) := by
  unfold csrClear
  dsimp only
  split
  case h_5 | h_10 =>
    split
    · exact modBond_kept h
    · exact h
  case h_6 | h_9 | h_11 => exact modCore_kept h
  case h_7 | h_8 => exact modChan_kept h fun _ => le_rfl
  case h_12 => exact clearFlags_kept h
  case h_13 => exact h
  all_goals exact modStream_kept h

theorem csrPut_kept {n : Nat} {v : W64} (h : Kept s₀ s) : Kept s₀ (csrPut s n v) := by
  unfold csrPut
  dsimp only
  split
  case h_3 | h_7 | h_12 => exact modCore_kept h
  case h_11 | h_17 => exact modJob_kept h
  case h_14 =>
    split
    · exact modBond_kept h
    · exact h
  case h_20 => exact modCluster_kept h
  case h_22 =>
    split
    · exact modMe_kept h
    · exact h
  all_goals exact modMe_kept h

theorem nactlPut_kept {n : Nat} {v : W64} (h : Kept s₀ s) : Kept s₀ (nactlPut s n v) :=
  modPart_kept h

theorem hirqPut_kept {v : W64} (h : Kept s₀ s) : Yields (Kept s₀) (hirqPut s v) :=
  yields_after fun _ => yields_after fun _ => sendMsix_kept (markMine_kept h)

theorem rescopeTag_kept {t : Tag} {m : Miss} (h : Kept s₀ s) : Kept s₀ (rescopeTag s t m) :=
  ite_kept (markRelease_kept (h.of_eq)) (sendMiss_kept (markRelease_kept (h.of_eq)))

theorem widenTag_kept {m : Miss} (h : Kept s₀ s) : Kept s₀ (widenTag s m) := by
  unfold widenTag
  refine mapStrands_kept (wakeWord_kept ?_)
  split
  · exact ite_kept (rescopeTag_kept (ite_kept (countMiss_kept (h.of_eq)) (h.of_eq))) (h.of_eq)
  · exact h.of_eq

theorem smrelPut_kept {token : W64} (h : Kept s₀ s) : Yields (Kept s₀) (smrelPut s token) := by
  unfold smrelPut
  split
  · exact h
  · exact ite_yields (widenTag_kept h) (modMe_kept (h.of_eq))

theorem dropTlb_kept {asid : Nat} {v : W64} (h : Kept s₀ s) : Kept s₀ (dropTlb s asid v) :=
  withDies_kept (withClusters_kept (withCores_kept h)) fun _ _ => le_rfl

theorem tlbinvPut_kept {v : W64} (h : Kept s₀ s) : Yields (Kept s₀) (tlbinvPut s v) :=
  ite_yields trivial (dropTlb_kept h)

theorem fractPut_kept {act : Act} (h : Kept s₀ s) : Yields (Kept s₀) (fractPut s act) := by
  refine ite_yields trivial (reply_kept ?_)
  split
  · exact iteSelf_kept modMe_kept h
  · exact h

theorem woPut_kept {n : Nat} {v : W64} (h : Kept s₀ s) : Yields (Kept s₀) (woPut s n v) := by
  unfold woPut
  split
  · exact smrelPut_kept h
  · exact hirqPut_kept h
  · exact tlbinvPut_kept h
  · exact fractPut_kept h
  · exact h

theorem csrWrite_kept {op : CsrOp} {n : Nat} {a w : W64} (h : Kept s₀ s) :
    Yields (Kept s₀) (csrWrite s op n a w) := by
  unfold csrWrite
  cases csrClass n with
  | rw => exact ite_yields (yields_ok (csrPut_kept h)) trivial
  | clr m => exact ite_yields (csrClear_kept h) trivial
  | wo => exact ite_yields (woPut_kept h) trivial
  | ctl =>
    cases op with
    | write => exact ite_yields (nactlPut_kept h) trivial
    | read | set | clear => exact ite_yields (yields_ok (modPart_kept h)) trivial
  | ro | unassigned => exact trivial

theorem csrFinish_kept {uid : Nat} (h : Kept s₀ s) : Kept s₀ (csrFinish uid s) := ite_kept h (advance_kept h)

theorem asStrand_kept {s : State} {c : CoreId} {i : Slot} {f : State → State}
    (hf : ∀ s, Kept s₀ s → Kept s₀ (f s)) (h : Kept s₀ s) : Kept s₀ (asStrand s c i f) :=
  Kept.of_eq (s := f { s with cur := c, slot := i }) (hf _ h.of_eq) rfl

theorem partNow_kept {c : CoreId} {slot : Slot} {p : Pending} {part : Nat} (h : Kept s₀ s) :
    Kept s₀ (partNow s c slot p part) := by
  unfold partNow
  exact modStrand_kept (performPart_kept h)

theorem failLoad_kept {p : Pending} {m : FaultMsg} (h : Kept s₀ s) : Kept s₀ (failLoad s p m) :=
  ite_kept (postAndWait_kept (modMe_kept h)) h

theorem withdrawReq_kept {p : Pending} (h : Kept s₀ s) : Kept s₀ (withdrawReq s p) := modMe_kept h

theorem answerStrand_kept {p : Pending} (h : Kept s₀ s) : Kept s₀ (answerStrand s p) :=
  iteSelf_kept modMe_kept (writeAnswer_kept (popAll_kept (withdrawReq_kept h)))

theorem failRequest_kept {p : Pending} {x : Stop} (h : Kept s₀ s) : Kept s₀ (failRequest s p x) :=
  stopStep_kept _ (modMe_kept (withdrawReq_kept h))

theorem answerPoison_kept {p : Pending} {va : W64} (h : Kept s₀ s) : Kept s₀ (answerPoison s p va) :=
  ite_kept (failRequest_kept h) (failLoad_kept h)

theorem answerRejected_kept {p : Pending} (h : Kept s₀ s) : Kept s₀ (answerRejected s p) :=
  ite_kept (failRequest_kept h) (failLoad_kept h)

theorem takeAnswer_kept {p : Pending} (h : Kept s₀ s) : Kept s₀ (takeAnswer s p) := by
  unfold takeAnswer
  split
  · exact answerPoison_kept h
  · exact failRequest_kept h
  · exact ite_kept (answerStrand_kept h) h

theorem recheckParts_kept (l : List Part) (h : Kept s₀ s) :
    Yields (fun x => Kept s₀ x.2) (recheckParts s l) := by
  induction l generalizing s with
  | nil => exact h
  | cons q l ih => exact (access_kept h).bind fun ⟨r, s⟩ h => (ih h).bind fun _ h => h

theorem runAgain_kept {p : Pending} (h : Kept s₀ s) : Kept s₀ (runAgain s p) := by
  unfold runAgain
  split
  · next hok =>
    have h' := (recheckParts_kept (s := { s with lazy := false }) _ h.of_eq).elim hok
    exact modMe_kept h'.of_eq
  · exact failLoad_kept h
  · exact failLoad_kept h
  · exact h

theorem partAnswered_kept {c : CoreId} {slot : Slot} {p : Pending} {part : Nat} (h : Kept s₀ s) :
    Kept s₀ (partAnswered s c slot p part) := by
  unfold partAnswered
  split
  · exact failRequest_kept h
  refine ite_kept h ?_
  dsimp only
  split
  · exact ite_kept (partNow_kept h) (takeAnswer_kept (partNow_kept h))
  · exact partNow_kept h

theorem stepPart_kept {c : CoreId} {slot : Slot} {idx part : Nat} {slice : Bool} (h : Kept s₀ s) :
    Kept s₀ (stepPart s c slot idx part slice) := by
  unfold stepPart
  dsimp only
  split
  · exact h
  split
  · exact h
  · exact ite_kept h (ite_kept (asStrand_kept (fun _ h => runAgain_kept h) h)
      (ite_kept (asStrand_kept (fun _ h => partAnswered_kept h) h) (partNow_kept h)))

theorem settleArrivals_kept {c : CoreId} {slot : Slot} (h : Kept s₀ s) :
    Kept s₀ (settleArrivals s c slot) := by
  refine foldl_kept (fun s e h => ?_) _ h
  dsimp only
  split
  · exact h
  · exact ite_kept h (arriveBarrier_kept (modStrand_kept h))

theorem walkFor_kept {c : CoreId} {slot : Slot} {va : W64} {fetch wr : Bool} (h : Kept s₀ s) :
    Kept s₀ (walkFor s c slot va fetch wr) := by
  unfold walkFor
  dsimp only
  split
  · exact h
  · exact postAndWait_kept h
  · split
    · exact modStrand_kept (tlbFill_kept h)
    · exact postAndWait_kept h
    · exact h

theorem dropLeased_kept {node page : Nat} (h : Kept s₀ s) : Kept s₀ (dropLeased s node page) :=
  withDies_kept (withClusters_kept (withCores_kept h)) fun _ _ => le_rfl

theorem coreOf_mapOrders (s : State) (f : Nat → Nat → OrdKind → Order → Order) (c : CoreId) :
    coreOf (mapOrders s f) c = { coreOf s c with
      stores := (coreOf s c).stores.map fun w => { w with order := f w.uid w.seq w.ord w.order }
      reds := (coreOf s c).reds.map fun r => { r with order := f r.uid r.seq r.ord r.order } } :=
  mapGet_mapValues (d := Core.reset) (g := fun k => { k with
    stores := k.stores.map fun w => { w with order := f w.uid w.seq w.ord w.order }
    reds := k.reds.map fun r => { r with order := f r.uid r.seq r.ord r.order } }) rfl s.cores c

/-- A request joins an outbound buffer that has room for it; FAN's start message takes no place (R209). -/
theorem pushOutbound_kept {c : CoreId} {m : OutMsg} (h : Kept s₀ s)
    (hroom : isFanStart m = false → outRoom (coreOf s c) = true) :
    Kept s₀ (modCore s c fun k => { k with outbound := k.outbound ++ [m] }) := by
  refine modCore_kept_of h fun ⟨hout, hin, hch, hft⟩ => ⟨?_, hin, hch, hft⟩
  rw [List.filter_append, List.length_append]
  cases hm : isFanStart m with
  | true => simpa [hm] using hout
  | false => simpa [hm] using of_decide_eq_true (hroom hm)

theorem sendOut_kept {sc : Scope} {b : Body} (h : Kept s₀ s)
    (hroom : isFanStart ⟨(me s).uid, s.nextSeq, sc, b⟩ = false → outRoom (coreOf s s.cur) = true) :
    Kept s₀ (sendOut s sc b) := by
  refine pushOutbound_kept (markMine_kept h) fun hm => ?_
  unfold markMine markRelease
  rw [coreOf_mapOrders]
  exact hroom hm

/-- What goes on only under a condition may use it. -/
theorem yields_waitUnless {β : Type} {P : β → Prop} {c : Bool} {f : Unit → Except Stop β}
    (hf : c = true → Yields P (f ())) : Yields P (waitUnless c >>= f) := by
  cases c with
  | false => exact trivial
  | true => exact hf rfl

theorem postMessage_kept {c : CoreId} {d b : GReg} {tag : BitVec 4} (h : Kept s₀ s) :
    Yields (Kept s₀) (postMessage s c d b tag) := yields_waitUnless fun hroom => sendOut_kept h fun _ => hroom

theorem fanEntryOf_kept {b spc : Nat} {pc arg size tick : W64} {x : State × List (CoreId × InMsg)} {e : CoreId × Nat}
    (h : Kept s₀ x.1) : Kept s₀ (fanEntryOf b spc pc arg size tick x e).1 :=
  foldl_kept (fun _ _ h => joinBarriers_kept h) _ (h.of_eq)

theorem fanCluster_kept {l : List (CoreId × InMsg)} {cl : Nat} (h : Kept s₀ s) :
    Kept s₀ (fanCluster l s cl) := by
  unfold fanCluster
  split
  · exact h
  · exact sendOut_kept h fun hm => by cases hm

theorem fanOut_kept {b : Nat} {x : Bond} {dmask : BitVec 4} {pc arg tick : W64} (h : Kept s₀ s) :
    Kept s₀ (fanOut s b x dmask pc arg tick) := by
  refine leaveSlot_kept (foldl_kept (fun _ _ h => fanCluster_kept h) _ ?_)
  have entries {l : List (CoreId × Nat)} {pc arg size tick : W64} {q : State × List (CoreId × InMsg)}
      (hq : Kept s₀ q.1) : Kept s₀ (l.foldl (fanEntryOf b x.spc pc arg size tick) q).1 := by
    induction l generalizing q with
    | nil => exact hq
    | cons e l ih => exact ih (fanEntryOf_kept hq)
  refine entries ?_
  dsimp only
  exact mapStrands_kept (modBond_kept h)

theorem launchPacket_kept {c : CoreId} {m : OutMsg} (h : Kept s₀ s) : Kept s₀ (launchPacket s c m) :=
  h.of_eq

theorem sendCompletion_kept {c : CoreId} {e : Fin 2 × CopyCmd} (h : Kept s₀ s) :
    Kept s₀ (sendCompletion s c e) := by
  unfold sendCompletion
  split
  · exact h
  · exact modChan_kept (launchPacket_kept h) fun _ => List.length_filter_le ..

theorem sendGangWake_kept {c : CoreId} {i : Fin 4} (h : Kept s₀ s) : Kept s₀ (sendGangWake s c i) := by
  unfold sendGangWake
  split
  · exact h
  · exact modTicket_kept (launchPacket_kept h)

theorem sendNext_kept {c : CoreId} {idx : Nat} (h : Kept s₀ s) : Kept s₀ (sendNext s c idx) := by
  unfold sendNext
  dsimp only
  split
  · refine ite_kept h (launchPacket_kept (modCore_kept_of h fun hk => ?_))
    exact hk.shorter le_rfl (List.eraseIdx_sublist ..) (fun _ => le_rfl) le_rfl
  split
  · exact sendCompletion_kept h
  split
  · exact sendGangWake_kept h
  · exact h

theorem dropPacket_kept {idx : Nat} (h : Kept s₀ s) : Kept s₀ (dropPacket s idx) := h.of_eq

theorem inboundUsed_eq (k : Core) : inboundUsed k = (k.inbound.map InMsg.size).sum := List.sum_eq_foldl.symm

/-- A message is taken where its size still fits. -/
theorem pushInbound_kept {c : CoreId} {m : InMsg} (h : Kept s₀ s) (hroom : inboundUsed (coreOf s c) + m.size ≤ 16) :
    Kept s₀ (modCore s c fun k => { k with inbound := k.inbound ++ [m] }) := by
  refine modCore_kept_of h fun ⟨hout, _, hch, hft⟩ => ⟨hout, ?_, hch, hft⟩
  rw [inboundUsed_eq] at hroom ⊢
  simpa using hroom

theorem accept_kept {idx : Nat} {p : Packet} {dst : CoreId} {m : InMsg} (h : Kept s₀ s) :
    Kept s₀ (accept s idx p dst m) := by
  unfold accept
  split
  · exact h
  split
  · exact h.of_eq
  next hroom =>
    have taken := pushInbound_kept (c := dst) (m := { m with poison := m.poison || p.poison })
      (dropPacket_kept (idx := idx) h) (not_lt.1 hroom)
    dsimp only
    split
    · exact markDone_kept taken
    · exact taken

theorem arrival_kept {f : Body → Option (CoreId × InMsg)} {idx : Nat} (h : Kept s₀ s) :
    Kept s₀ (arrival f idx s) := by
  unfold arrival
  split
  · exact h
  split
  · exact accept_kept h
  · exact h

theorem passFan_kept {idx : Nat} {p : Packet} {l : List (CoreId × InMsg)} (h : Kept s₀ s) :
    Kept s₀ (passFan s idx p l) := h.of_eq

theorem askWiden_kept {token : W64} (h : Kept s₀ s) : Kept s₀ (askWiden s token) := h.of_eq

theorem markBondLate_kept {b : Option Nat} (h : Kept s₀ s) : Kept s₀ (markBondLate s b) := by
  unfold markBondLate
  split
  · exact modBond_kept h
  · exact h

/-- The inbound queue of a core is left as a list of no more entries' worth. -/
theorem setHead_kept {c : CoreId} {l : List InMsg} (h : Kept s₀ s)
    (hl : (l.map InMsg.size).sum ≤ ((coreOf s c).inbound.map InMsg.size).sum) : Kept s₀ (setHead s c l) := by
  refine modCore_kept_of h fun hk => hk.shorter ?_ (List.Sublist.refl _) (fun _ => le_rfl) le_rfl
  simpa only [inboundUsed_eq] using hl

/-- The head of an inbound queue starts a strand: what stays behind is the tail, with a FAN's next strand before it. -/
theorem activate_kept {c : CoreId} {i : Slot} {m : InMsg} {rest : List InMsg} {late : Bool} (h : Kept s₀ s)
    (hm : (coreOf s c).inbound = m :: rest) : Kept s₀ (activate s c i m rest late) := by
  have tail : (rest.map InMsg.size).sum ≤ ((coreOf s c).inbound.map InMsg.size).sum := by simp [hm]
  have all (m' : InMsg) (e : m'.size = m.size) :
      ((m' :: rest).map InMsg.size).sum ≤ ((coreOf s c).inbound.map InMsg.size).sum := by simp [hm, e]
  unfold activate
  split
  · exact askWiden_kept (setHead_kept h tail)
  · exact putStrand_kept (iteSelf_kept countMiss_kept (setHead_kept (h.of_eq) tail))
  · exact putStrand_kept (setHead_kept h tail)
  split
  · exact setHead_kept h tail
  · refine putStrand_kept (iteSelf_kept markBondLate_kept (setHead_kept h ?_))
    split
    · exact all _ rfl
    · exact tail

theorem fanOnTick_kept {s : State} {c : CoreId} (k : Nat) (h : Kept s₀ s) : Kept s₀ (fanOnTick c k s) := by
  induction k generalizing s with
  | zero => exact h
  | succ k ih =>
    unfold fanOnTick
    dsimp only
    split
    · next hm _ =>
      split
      · exact ite_kept (ih (activate_kept h hm)) h
      · exact h
    · exact h

theorem dropServiceFault_kept {e : CoreId × Slot} {m : FaultMsg} (h : Kept s₀ s) :
    Kept s₀ (dropServiceFault s e m) := by
  refine dropService_kept (Kept.of_eq (s := match agentOf s m.token with
    | some a => killAgent s a
    | none => s) ?_)
  split
  · exact killAgent_kept _ h
  · exact h

theorem popMailbox_kept {cl : Nat} (h : Kept s₀ s) : Kept s₀ (popMailbox s cl) :=
  modCluster_kept h fun l => l.mailbox.tail_sublist.length_le

theorem defaultReply_kept {cl : Nat} {m : FaultMsg} (h : Kept s₀ s) : Kept s₀ (defaultReply s cl m) :=
  reply_kept (popMailbox_kept h)

theorem countCorrected_kept {c : CoreId} (h : Kept s₀ s) : Kept s₀ (countCorrected s c) :=
  modCore_kept h

theorem countPoisoned_kept {c : CoreId} (h : Kept s₀ s) : Kept s₀ (countPoisoned s c) :=
  modCore_kept h

theorem length_modifyAt {α : Type} (l : List α) (i : Nat) (f : α → α) : (modifyAt l i f).length = l.length := by
  unfold modifyAt
  split
  · exact List.length_set
  · rfl

/-- What a change of one entry leaves of a list, it leaves. -/
theorem map_modifyAt {α β : Type} {g : α → β} {f : α → α} (hf : ∀ x, g (f x) = g x) (l : List α) (i : Nat) :
    (modifyAt l i f).map g = l.map g := by
  unfold modifyAt
  split
  · next x hx =>
    obtain ⟨hi, rfl⟩ := List.getElem?_eq_some_iff.1 hx
    rw [List.map_set, hf, ← List.getElem_map g (h := by simpa using hi), List.set_getElem_self]
  · rfl

theorem CoreQueuesFit.poisonInbound {k : Core} (h : CoreQueuesFit k) (i : Nat) :
    CoreQueuesFit { k with inbound := modifyAt k.inbound i fun m => { m with poison := true } } := by
  refine h.shorter (le_of_eq ?_) (List.Sublist.refl _) (fun _ => le_rfl) le_rfl
  have same := map_modifyAt (g := InMsg.size) (f := fun m => { m with poison := true }) (fun _ => rfl) k.inbound i
  simp only [inboundUsed_eq, same]

theorem isFanStart_poisonBody (b : Body) (u n : Nat) (sc : Scope) :
    isFanStart ⟨u, n, sc, poisonBody b⟩ = isFanStart ⟨u, n, sc, b⟩ := by cases b <;> rfl

theorem CoreQueuesFit.poisonOutbound {k : Core} (h : CoreQueuesFit k) (i : Nat) :
    CoreQueuesFit { k with outbound := modifyAt k.outbound i fun m => { m with body := poisonBody m.body } } := by
  refine ⟨?_, h.2⟩
  have same := map_modifyAt (g := isFanStart) (f := fun m => { m with body := poisonBody m.body })
    (fun m => isFanStart_poisonBody m.body ..) k.outbound i
  have counted (l : List OutMsg) : (l.filter fun m => !isFanStart m).length = ((l.map isFanStart).filter (!·)).length := by
    rw [List.filter_map, List.length_map]; rfl
  rw [counted, same, ← counted]
  exact h.1

theorem poisonShadow_fits {c : CoreId} {off : Nat} {k k' : Core} (h : poisonShadow c off k = some k')
    (hk : CoreQueuesFit k) : CoreQueuesFit k' := by
  unfold poisonShadow at h
  split at h
  case h_5 => cases h; exact hk.poisonInbound _
  case h_6 =>
    obtain ⟨l, -, rfl⟩ := Option.map_eq_some_iff.1 h
    exact hk.of_eq rfl
  case h_7 | h_8 | h_9 => cases h
  all_goals cases h; exact hk.of_eq rfl

theorem coresFit_mapSet {m : Map Core} {c : CoreId} {k : Core} (hm : CoresFit m) (hk : CoreQueuesFit k) :
    CoresFit (mapSet c k m) := fun e he => (mem_mapSet he).elim (fun h => h ▸ hk) (hm e)

/-- An error in a shadow store lengthens no queue that was saved there. -/
theorem strikeSaved_fits {c : CoreId} {off : Nat} {x : Saved} (h : SavedFits x) : SavedFits (strikeSaved c off x) := by
  unfold strikeSaved
  split
  · exact h
  next hk =>
    split
    · next hp => exact ⟨coresFit_mapSet h.1 (poisonShadow_fits hp (h.1 _ (mem_of_mapFind hk))), h.2⟩
    · exact h

theorem strikeShadow_kept {part job : Nat} {c : CoreId} {off : Nat} (h : Kept s₀ s) :
    Kept s₀ (strikeShadow s part job c off) := by
  refine ite_kept h (modPart_kept_of (countPoisoned_kept h) fun _ hs x hx => ?_)
  obtain ⟨y, hy, rfl⟩ := List.mem_map.1 hx
  split
  · exact strikeSaved_fits (hs y hy)
  · exact hs y hy

theorem strikeAt_kept (l : ErrSite) (h : Kept s₀ s) : Kept s₀ (strikeAt s l) := by
  unfold strikeAt
  split
  case h_1 =>
    exact ite_kept h (ite_kept (countPoisoned_kept (poisonWord_kept h)) (poisonWord_kept h))
  case h_2 | h_3 | h_17 => exact countPoisoned_kept (modStrand_kept h)
  case h_7 => exact countPoisoned_kept (modCore_kept_of h fun hk => hk.poisonInbound _)
  case h_8 => exact countPoisoned_kept (modCore_kept_of h fun hk => hk.poisonOutbound _)
  case h_4 | h_5 | h_6 | h_9 | h_18 => exact countPoisoned_kept (modCore_kept h)
  case h_10 => exact countPoisoned_kept (modStream_kept h)
  case h_11 => exact countPoisoned_kept (modCluster_kept h fun _ => (length_modifyAt ..).le)
  case h_12 =>
    split
    · exact ite_kept h (finishCopy_kept h)
    · exact h
  case h_13 => exact finishFoot_kept h
  case h_14 => exact endSeq_kept h
  case h_15 => exact strikeShadow_kept h
  case h_16 | h_23 => exact modDie_kept h
  case h_19 => exact modCopy_kept h
  case h_20 => exact modCore_kept h
  case h_21 => exact modCore_kept h fun k => by split <;> rfl
  case h_22 => exact modCluster_kept h

end Sys2Proof.Machine
end


section
/-!
What every step keeps of the message and command queues (O58): footing units, queues, partitions and their saved contexts, and the device.
-/
set_option Elab.async false
namespace Sys2Proof.Machine

variable {s₀ s t : State}

theorem footPage_kept {w : Who} {page : Nat} {use : Use} (h : Kept s₀ s) :
    Yields (fun x => Kept s₀ x.2) (footPage s w page use) :=
  ite_yields trivial ((engCheck_kept h).bind fun _ h => ite_yields trivial h)

theorem footPages_kept {w : Who} (l : List (Nat × Bool)) (h : Kept s₀ s) :
    Yields (fun x => Kept s₀ x.2) (footPages s w l) := by
  induction l generalizing s with
  | nil => exact h
  | cons e l ih => exact (footPage_kept h).bind fun ⟨r, s⟩ h => (ih h).bind fun _ h => h

theorem putFootWord_kept {pages : Map (Nat × Nat × Nat)} {l : List FootPut} {word : Nat} (h : Kept s₀ s) :
    Kept s₀ (putFootWord pages l s word) := iteSelf_kept poisonWord_kept (homeWrite_kept h)

theorem computeElem_kept {c : CoreId} {m : FootCmd} {pages : Map (Nat × Nat × Nat)} {k : Nat} (h : Kept s₀ s) :
    Kept s₀ (computeElem s c m pages k) := by
  unfold computeElem
  split
  · exact h
  dsimp only
  split
  · exact h
  split
  · exact parkMiss_kept h
  · exact modFoot_kept h

theorem performPiece_kept {c : CoreId} {m : FootCmd} {pages : Map (Nat × Nat × Nat)} {k : Nat} (h : Kept s₀ s) :
    Kept s₀ (performPiece s c m pages k) := by
  unfold performPiece
  split
  · exact wakeLine_kept (putFootWord_kept (modFoot_kept h))
  · exact computeElem_kept h

theorem startFoot_kept {c : CoreId} {m : FootCmd} (h : Kept s₀ s) : Kept s₀ (startFoot s c m) := by
  unfold startFoot
  split
  · exact finishFoot_kept h
  split
  · next hok => exact modFoot_kept ((footPages_kept _ h).elim hok)
  · exact h
  · exact parkMiss_kept h
  · exact finishFoot_kept h
  · exact modFoot_kept (postFault_kept h)

theorem mapUnits_kept {f : WorkUnit → WorkUnit} (h : Kept s₀ s) : Kept s₀ { s with
    parts := s.parts.map fun e => (e.1, { e.2 with units := e.2.units.map f }) } :=
  h.of_parts rfl (fun _ _ hx => hx) rfl

theorem noteMet_kept (h : Kept s₀ s) : Kept s₀ (noteMet s) := mapUnits_kept h

theorem loadConfig_kept {j : Nat} {clusters : List Nat} (h : Kept s₀ s) :
    Kept s₀ (loadConfig s j clusters) := by
  refine foldl_kept (fun s cl h => ?_) _ (iteSelf_kept modJob_kept h)
  exact foldl_kept (fun _ _ h => ite_kept h (modCore_kept h)) _ (modCluster_kept h)

theorem placeUnit_kept {part : Nat} {u : WorkUnit} {cx cy : Nat} (h : Kept s₀ s) :
    Kept s₀ (placeUnit s part u cx cy) := by
  have placed {cls : List Nat} {b : Nat} {x : Bond} {f : Job → Job} := foldl_kept
    (f := fun s cl => modCluster s cl fun l => { l with bond := some b }) (fun _ _ h => modCluster_kept h) cls
    (modJob_kept (j := u.job) (f := f) (Kept.of_eq
      (t := { loadConfig s u.job cls with nextBond := b + 1, bonds := mapSet b x (loadConfig s u.job cls).bonds })
      (loadConfig_kept h)))
  unfold placeUnit
  dsimp only
  split
  · exact placed
  · exact putStrand_kept (Kept.of_eq placed)

theorem releaseBond_kept {b : Nat} {x : Bond} (h : Kept s₀ s) : Kept s₀ (releaseBond s b x) :=
  dropTags_kept (foldl_kept (fun _ _ h => mergeUnits_kept h) _ h)

theorem fetchPacket_kept {q : Nat} (h : Kept s₀ s) : Kept s₀ (fetchPacket s q) := by
  unfold fetchPacket
  dsimp only
  split
  · exact h
  exact ite_kept h (ite_kept (modQueue_kept h) (ite_kept (modQueue_kept h) (failPacket_kept (modQueue_kept h))))

theorem passHand_kept {q : Nat} {p : QPacket} {done : Bool} (h : Kept s₀ s) :
    Kept s₀ (passHand s q p done) := fetchPacket_kept (modQueue_kept h)

theorem dispatchPlain_kept {q ty : Nat} {alone : Bool} (h : Kept s₀ s) :
    Kept s₀ (dispatchPlain q ty alone s) := by
  unfold dispatchPlain
  split
  · exact h
  · exact ite_kept h (passHand_kept h)

theorem completePacket_kept {q : Nat} {t : Taken} (h : Kept s₀ s) : Kept s₀ (completePacket q s t) := by
  unfold completePacket
  exact modQueue_kept (iteSelf_kept sendMsix_kept (iteSelf_kept advanceTimeline_kept h))

theorem launchJob_kept {j : Nat} (h : Kept s₀ s) : Kept s₀ (launchJob s j) := ite_kept h (modJob_kept h)

theorem bindKeys_kept {keys : List Nat} (h : Kept s₀ s) : Kept s₀ (bindKeys s keys) :=
  foldl_kept (fun _ _ h => Kept.of_eq h) _ h

theorem extendMeasure_kept {i : Fin 8} {v : Nat} (h : Kept s₀ s) : Kept s₀ (extendMeasure s i v) :=
  h.of_eq

theorem preemptComponent_kept {die : Fin 4} {q : Fin 8} (h : Kept s₀ s) :
    Kept s₀ (preemptComponent s die q) := by
  unfold preemptComponent
  refine modSeqr_kept (f := fun x => { x with cmds := x.cmds.map _ }) (leaveComponent_kept h) fun x => ?_
  exact (List.length_map _).le

theorem haltCores_kept {part : Nat} (h : Kept s₀ s) : Kept s₀ (haltCores s part) := by
  refine foldl_kept (fun _ _ h => modCore_kept h) _ (foldl_kept (fun s e h => ?_) _ h)
  split
  · exact preemptComponent_kept h
  · exact h

theorem withdrawAll_kept {part : Nat} (h : Kept s₀ s) : Kept s₀ (withdrawAll s part) :=
  foldl_kept (fun _ _ h => foldl_kept (fun _ _ h => withdraw_kept h) _ h) _ h

theorem reset_fits : CoreQueuesFit Core.reset := by unfold CoreQueuesFit; decide

/-- A core that changes its context, but not what is the hardware's, has the queues of the context. -/
theorem swapCore_fits {hw k : Core} (h : CoreQueuesFit k) : CoreQueuesFit (swapCore hw k) := h.of_eq rfl

/-- A core whose context leaves is as after reset, with empty queues (R424). -/
theorem emptyCores_kept {s : State} {part : Nat} (h : Kept s₀ s) : Kept s₀ (emptyCores s part) where
  cores ho := coresFit_map (h.cores ho) fun e he => by
    split
    · exact (swapCore_fits (hw := e.2) reset_fits).of_eq rfl
    · exact he
  mailboxes ho := mailboxesFit_map (h.mailboxes ho) fun e => by
    split
    · exact Nat.zero_le _
    · exact le_rfl
  channels ho e he := h.channels ho e (List.mem_filter.1 he).1
  sequencers := h.sequencers
  saved := h.saved
  mem := h.mem

theorem saveCore_fits {k : Core} (h : CoreQueuesFit k) : CoreQueuesFit (saveCore k) :=
  h.shorter le_rfl (List.Sublist.refl _) (fun ch => by simp [saveCore, saveChannel]) le_rfl

theorem savedContext_fits {part : Nat} (h : Kept s₀ s) (ho : QueuesFit s₀) : SavedFits (savedContext s part) where
  left := List.forall_mem_map.2 fun e he => saveCore_fits (h.cores ho e (List.mem_filter.1 he).1)
  right := ⟨fun e he => h.mailboxes ho e (List.mem_filter.1 he).1, List.forall_mem_map.2 fun e he =>
    (List.length_map _).trans_le (h.channels ho e (List.mem_filter.1 he).1)⟩

theorem savePartition_kept {part : Nat} (h : Kept s₀ s) : Kept s₀ (savePartition s part) := by
  have withdrawn := withdrawAll_kept (part := part) h
  unfold savePartition
  refine modPart_kept_of (emptyCores_kept withdrawn) fun ho hs x hx => ?_
  rcases List.mem_append.1 hx with hx | hx
  · exact hs x (List.mem_filter.1 hx).1
  · exact List.mem_singleton.1 hx ▸ savedContext_fits withdrawn ho

theorem haltStep_kept {s : State} {part : Nat} {done : State → State}
    (hd : ∀ s, Kept s₀ s → Kept s₀ (done s)) (h : Kept s₀ s) : Kept s₀ (haltStep s part done) :=
  ite_kept (iteSelf_kept haltCores_kept h) (ite_kept (iteSelf_kept (fun h => modPart_kept h) h) (iteSelf_kept (hd s) h))

theorem moveSlice_kept {part loc pa : Nat} {out : Bool} (h : Kept s₀ s) :
    Kept s₀ (moveSlice s part loc pa out) := by
  refine ite_kept h ?_
  dsimp only
  cases out
  all_goals exact iteSelf_kept poisonWord_kept (homeWrite_kept h)

/-- The queues of a core that is restored are the saved ones (R426). -/
theorem restoreCore_kept {s : State} {e : CoreId × Core} (he : QueuesFit s₀ → CoreQueuesFit e.2) (h : Kept s₀ s) :
    Kept s₀ (restoreCore s e) :=
  setCore_kept h fun ho => (swapCore_fits (hw := coreOf s e.1) (he ho)).of_eq rfl

theorem retryParked_kept {cs : List CoreId} (h : Kept s₀ s) : Kept s₀ (retryParked s cs) :=
  foldl_kept (fun _ _ h => retryReq_kept h) _ h

theorem applyHeld_kept {part : Nat} (h : Kept s₀ s) : Kept s₀ (applyHeld s part) := by
  refine foldl_kept (fun _ _ h => walk_kept h) _ ?_
  exact foldl_kept (fun _ _ h => reply_kept h) _ (modPart_kept h)

theorem restoreCores_kept {s : State} {l : Map Core} (hl : QueuesFit s₀ → CoresFit l) (h : Kept s₀ s) :
    Kept s₀ (l.foldl restoreCore s) := by
  induction l generalizing s with
  | nil => exact h
  | cons e l ih =>
    exact ih (fun ho x hx => hl ho x (List.mem_cons_of_mem e hx))
      (restoreCore_kept (fun ho => hl ho e List.mem_cons_self) h)

/-- The keystone core of a cluster is restored with the mailbox that was saved. -/
def restoreCluster (s : State) (e : Nat × Cluster) : State :=
  modCluster s e.1 fun l => { l with fhvec := e.2.fhvec, mailbox := e.2.mailbox, since := s.ticks, bond := e.2.bond }

theorem restoreClusters_kept {s : State} {l : Map Cluster} (hl : QueuesFit s₀ → MailboxesFit l) (h : Kept s₀ s) :
    Kept s₀ (l.foldl restoreCluster s) := by
  induction l generalizing s with
  | nil => exact h
  | cons e l ih =>
    refine ih (fun ho x hx => hl ho x (List.mem_cons_of_mem e hx)) { h with mailboxes := fun ho x hx => ?_ }
    rcases mem_mapSet hx with rfl | hx
    · exact hl ho e List.mem_cons_self
    · exact h.mailboxes ho x hx

theorem unhaltCores_kept {l : List CoreId} (h : Kept s₀ s) :
    Kept s₀ (l.foldl (fun s c => modCore s c fun k => { k with halted := false }) s) :=
  foldl_kept (fun _ _ h => modCore_kept h) _ h

theorem withContext_kept {s : State} {bonds : Map Bond} {net : List Packet} {exchange : Map Channel}
    (hx : QueuesFit s₀ → ChannelsFit exchange) (h : Kept s₀ s) :
    Kept s₀ { s with bonds := bonds, net := net, exchange := exchange } := { h with channels := hx }

theorem restoreContext_kept {s : State} {part job : Nat} {x : Saved} (hx : QueuesFit s₀ → SavedFits x) (h : Kept s₀ s) :
    Kept s₀ (restoreContext s part job x) := by
  refine foldl_kept (fun _ _ h => fetchPacket_kept h) _ (applyHeld_kept (retryParked_kept ?_))
  have clusters {s : State} {l : List CoreId} (h : Kept s₀ s) := restoreClusters_kept (fun ho => (hx ho).2.1)
    (restoreCores_kept (fun ho => (hx ho).1) (unhaltCores_kept (l := l) h))
  refine withContext_kept (fun ho => channelsFit_mapSets ((clusters ?_).channels ho) (hx ho).2.2) (clusters ?_)
  all_goals exact modPart_kept (modJob_kept h) fun q y hy => (List.mem_filter.1 hy).1

theorem contextFor_fits {part job : Nat} (h : Kept s₀ s) (ho : QueuesFit s₀) : SavedFits (contextFor s part job) := by
  unfold contextFor
  cases hx : (partOf s part).saved.find? fun y => y.job == job with
  | none =>
    refine ⟨?_, ?_, ?_⟩
    all_goals exact fun _ he => by cases he
  | some x => exact partOf_fits (h.saved ho) part x (List.mem_of_find?_eq_some hx)

theorem restorePartition_kept {part job : Nat} (h : Kept s₀ s) : Kept s₀ (restorePartition s part job) :=
  ite_kept (restoreContext_kept (contextFor_fits h) h)
    (killJob_kept (restoreContext_kept (contextFor_fits h) h))

theorem zeroSlices_kept {part : Nat} (h : Kept s₀ s) : Kept s₀ (zeroSlices s part) := by
  unfold zeroSlices
  exact Kept.of_eq (withMem_kept h (memFilter_wf _))

theorem withLeases_kept {l : List Lease} {x : List Export} (h : Kept s₀ s) :
    Kept s₀ { s with leases := l, exports := x } := h.of_eq

theorem dropPartTlb_kept {part : Nat} (h : Kept s₀ s) : Kept s₀ (dropPartTlb s part) := by
  unfold dropPartTlb
  exact withLeases_kept (withDies_kept (withClusters_kept (withCores_kept h)) fun _ _ => le_rfl)

theorem zeroSeqrs_kept {part : Nat} (h : Kept s₀ s) : Kept s₀ (zeroSeqrs s part) := by
  refine withDies_kept h fun x q => ?_
  simp only [Fin.getElem_fin, Vector.getElem_map]
  split
  · exact Nat.zero_le _
  · exact le_rfl

theorem completeJob_kept {part j : Nat} (h : Kept s₀ s) : Kept s₀ (completeJob s part j) := by
  refine foldl_kept (fun _ _ h => iteSelf_kept completePacket_kept h) _ ?_
  exact foldl_kept (fun _ _ h => finishCopy_kept h) _ h

/-- The cores of a partition that is torn down are as after reset, and the partition's clusters and exchange go. -/
theorem resetCores_kept {s : State} {part : Nat} {p : Nat × Cluster → Bool} {q : Nat × Channel → Bool} (h : Kept s₀ s) :
    Kept s₀ { s with
      cores := s.cores.map fun e => if holdsCore s part e.1 then (e.1, swapCore e.2 Core.reset) else e
      clusters := s.clusters.filter p
      exchange := s.exchange.filter q } where
  cores ho := coresFit_map (h.cores ho) fun e he => by
    split
    · exact swapCore_fits reset_fits
    · exact he
  mailboxes ho e he := h.mailboxes ho e (List.mem_filter.1 he).1
  channels ho e he := h.channels ho e (List.mem_filter.1 he).1
  sequencers := h.sequencers
  saved := h.saved
  mem := h.mem

theorem withoutPart_kept {s : State} {part : Nat} (h : Kept s₀ s) :
    Kept s₀ { s with parts := mapErase part s.parts } :=
  { h with saved := fun ho p hp => h.saved ho p (List.mem_filter.1 hp).1 }

theorem tearDown_kept {part : Nat} (h : Kept s₀ s) : Kept s₀ (tearDown s part) := by
  unfold tearDown
  refine withoutPart_kept (foldl_kept (fun _ _ h => modJob_kept h) _ ?_)
  refine Kept.of_eq (resetCores_kept (part := part) (zeroSeqrs_kept (part := part)
    (dropPartTlb_kept (part := part) (zeroSlices_kept (part := part)
      (dropTags_kept (gone := fun t => holdsCore _ part t.core) (foldl_kept (fun s j h => ?_) _ h))))))
  exact completeJob_kept (killJob_kept h)

theorem startFans_kept (h : Kept s₀ s) : Kept s₀ (startFans s) :=
  foldl_kept (fun _ _ h => fanOnTick_kept _ h) _ h

theorem startCopies_kept (h : Kept s₀ s) : Kept s₀ (startCopies s) :=
  foldl_kept (fun _ _ h => startCopy_kept h) _ h

theorem advancePlumb_kept {by_ : Fin 6 → Nat} (h : Kept s₀ s) : Kept s₀ (advancePlumb s by_) :=
  startCopies_kept (startFans_kept (h.of_eq))

theorem forgetRaised_kept (h : Kept s₀ s) : Kept s₀ (forgetRaised s) := withClusters_kept h

theorem tick_kept (h : Kept s₀ s) : Kept s₀ (tick s) :=
  closeCtxs_kept (forgetRaised_kept (noteMet_kept (advancePlumb_kept (h.of_eq))))

/-- What is left of the part has no queue: every core is as after reset, and memory is the host's. -/
theorem lostState_kept (h : Kept s₀ s) : Kept s₀ (lostState s) where
  cores _ _ he := by cases he
  mailboxes _ _ he := by cases he
  channels _ _ he := by cases he
  sequencers _ := (by unfold SequencersFit; decide : SequencersFit State.reset.dies)
  saved _ _ he := by cases he
  mem hm := memFilter_wf _ (h.mem hm)

theorem bringUp_kept (h : Kept s₀ s) : Kept s₀ (bringUp s) :=
  ite_kept (lostState_kept h) (withDev_kept (extendMeasure_kept (extendMeasure_kept (lostState_kept h))))

theorem outsideAccess_kept {word key : Nat} {write : Option W64} (h : Kept s₀ s) :
    Kept s₀ (outsideAccess s word key write) := by
  unfold outsideAccess
  refine ite_kept h ?_
  split
  · exact homeWrite_kept h
  · exact ite_kept h (parkMiss_kept h)

theorem exportLease_kept {x : Export} {on : Bool} (h : Kept s₀ s) : Kept s₀ (exportLease s x on) := by
  unfold exportLease
  refine ite_kept (h.of_eq) ?_
  split
  · exact ite_kept (h.of_eq) h
  · exact h

theorem assignNode_kept {n : Byte} (h : Kept s₀ s) : Kept s₀ (assignNode s n) := ite_kept h (h.of_eq)

theorem writeFlagged_kept {d : SReg} {x : W64} {fl : Flags} (h : Kept s₀ s) :
    Yields (Kept s₀) (writeFlagged s d x fl) := (raise_kept h).bind fun _ h => writeS_kept h

end Sys2Proof.Machine
end


section
/-!
What every step keeps of the message and command queues (O58): sequencers and their records, lanes, and fetch.
-/
set_option Elab.async false
namespace Sys2Proof.Machine

variable {s₀ s t : State}

theorem dropRead_kept {st : StreamId} (h : Kept s₀ s) : Kept s₀ (dropRead s st) :=
  ite_kept h (modStream_kept (withdraw_kept h))

theorem takeSeqr_kept (h : Kept s₀ s) : Yields (fun x => Kept s₀ x.2) (takeSeqr s) := by
  unfold takeSeqr
  split
  · exact trivial
  split
  · exact trivial
  split
  · exact h
  dsimp only
  split
  · exact trivial
  · exact yields_kept (modBond_kept (modSeqr_kept
      (f := fun y => { y with bond := some _, part := some (me s).part }) h fun _ => le_rfl))

theorem handSeq_kept {e : Fin 4 × Fin 8} {op : SeqOp} (h : Kept s₀ s) :
    Yields (fun x => Kept s₀ x.2) (handSeq s e op) := by
  unfold handSeq
  dsimp only
  split
  · exact trivial
  next hroom =>
    refine yields_kept (modSeqr_kept_of (takeSeq_kept h) fun _ => ?_)
    rw [List.length_append]
    exact not_le.1 hroom

theorem appendRecord_kept {l : List W512} (h : Kept s₀ s) : Yields (Kept s₀) (appendRecord s l) :=
  (storeChunks_kept h).bind fun _ h => modMe_kept h

theorem recordTop_kept {op : Nat} {b : W64} {ds : List W512} {n : Nat} (h : Kept s₀ s) :
    Yields (fun x => Kept s₀ x.2) (recordTop s op b ds n) :=
  yields_after fun _ => yields_after fun _ => (appendRecord_kept h).bind fun _ h =>
    yields_kept (modMe_kept h)

theorem loadSlots_kept {a : W64} (l : List Nat) (h : Kept s₀ s) :
    Yields (fun x => Kept s₀ x.2) (loadSlots s a l) := by
  induction l generalizing s with
  | nil => exact h
  | cons k l ih => exact (loadBlock_kept h).bind fun ⟨d, s⟩ h => (ih h).bind fun _ h => h

theorem walkLog_kept {s : State} {base : W64} {m : W32} (k : Nat) (a : W64) (h : Kept s₀ s) :
    Yields (fun x => Kept s₀ x.2.2) (walkLog base m k s a) := by
  induction k generalizing s a with
  | zero => exact h
  | succ k ih =>
    refine ite_yields h ((loadWords_kept _ _ h).bind fun ⟨l, s⟩ h => ite_yields ?_ (ite_yields h ?_))
    · exact (loadWords_kept _ _ h).bind fun _ h => h
    · exact (ih _ h).bind fun _ h => h

theorem leaveStaging_kept {w : W64} {staged : List (Nat × Byte)} {accs : List (Nat × W32)} (h : Kept s₀ s) :
    Kept s₀ (leaveStaging s w staged accs) := by
  refine foldl_kept (fun s e h => iteSelf_kept ?_ h) _ (foldl_kept (fun s e h => ?_) _ h)
  · exact fun h => modCore_kept h fun k => by split <;> rfl
  · exact iteSelf_kept homeWrite_kept h

theorem readGrid_kept {w : Who} {f : Fmt} {es rows cols : Nat} {addrs : List W64} (h : Kept s₀ s) :
    Yields (fun x => Kept s₀ x.2) (readGrid s w f es rows cols addrs) :=
  (engLoads_kept _ h).bind fun _ h => ite_yields trivial h

theorem readTensor_kept {w : Who} {d : W512} (h : Kept s₀ s) :
    Yields (fun x => Kept s₀ x.2) (readTensor s w d) := readGrid_kept h

theorem readIf_kept {on : Bool} {w : Who} {d : W512} (h : Kept s₀ s) :
    Yields (fun x => Kept s₀ x.2) (readIf on s w d) := ite_yields (readTensor_kept h) h

theorem stashCodes_kept {w : Who} {d : W512} {e : W64 × W64} (h : Kept s₀ s) :
    Yields (fun x => Kept s₀ x.2) (stashCodes s w d e) := ite_yields h (engLoads_kept _ h)

theorem tileCodes_kept {w : Who} {op : Nat} {b : W64} {split : List Nat} {x y z : W512} (h : Kept s₀ s) :
    Yields (fun x => Kept s₀ x.2) (tileCodes s w op b split x y z) := by
  unfold tileCodes
  refine ite_yields ?_ ?_
  · exact (engLoads_kept _ h).bind fun _ h => h
  · exact (readTensor_kept h).bind fun ⟨_, s⟩ h => (readIf_kept h).bind fun ⟨_, s⟩ h =>
      (readIf_kept h).bind fun _ h => h

theorem tileWrites_kept {w : Who} {op : Nat} {b : W64} {split : List Nat} {ds : List W512} {stash : List (W64 × W64)}
    (h : Kept s₀ s) : Yields (fun x => Kept s₀ x.2) (tileWrites s w op b split ds stash) :=
  (tileCodes_kept h).bind fun ⟨_, _⟩ h => (stashCodes_kept h).bind fun ⟨_, _⟩ h =>
    (stashCodes_kept h).bind fun _ h => h

theorem startTile_kept {w : Who} {op : Nat} {b : W64} {split : List Nat} {ds : List W512} {stash : List (W64 × W64)}
    (h : Kept s₀ s) : Yields (fun x => Kept s₀ x.2) (startTile s w op b split ds stash) :=
  (tileWrites_kept h).bind fun _ h => h

theorem readOperand_kept {on : Bool} {w : Who} {d : W512} {turn : Bool} (h : Kept s₀ s) :
    Yields (fun x => Kept s₀ x.2) (readOperand on s w d turn) :=
  ite_yields h (ite_yields (readTensor_kept h) (ite_yields (readGrid_kept h) (readGrid_kept h)))

theorem startAdjoint_kept {w : Who} {op : Nat} {b : W64} {ds : List W512} {splitA splitB : List Nat}
    (h : Kept s₀ s) : Yields (fun x => Kept s₀ x.2) (startAdjoint s w op b ds splitA splitB) :=
  (readOperand_kept h).bind fun ⟨_, _⟩ h => (readOperand_kept h).bind fun ⟨_, _⟩ h =>
    (readOperand_kept h).bind fun ⟨_, _⟩ h => (readGrid_kept h).bind fun _ h => h

theorem engBlock_kept {w : Who} {a : W64} (h : Kept s₀ s) :
    Yields (fun x => Kept s₀ x.2) (engBlock s w a) := (engLoads_kept _ h).bind fun _ h => ite_yields trivial h

theorem engBlocks_kept {w : Who} (l : List W64) (h : Kept s₀ s) :
    Yields (fun x => Kept s₀ x.2) (engBlocks s w l) := by
  induction l generalizing s with
  | nil => exact h
  | cons a l ih => exact (engBlock_kept h).bind fun ⟨d, s⟩ h => (ih h).bind fun _ h => h

theorem startRecord_kept {w : Who} {a : W64} {splitA splitB : List Nat} (h : Kept s₀ s) :
    Yields (fun x => Kept s₀ x.2) (startRecord s w a splitA splitB) :=
  (engBlock_kept h).bind fun ⟨_, _⟩ h => ite_yields h ((engBlocks_kept _ h).bind fun ⟨_, _⟩ h =>
    ite_yields trivial (ite_yields h (startAdjoint_kept h)))

theorem seqPut_kept {w : Who} {x : SeqPut} {l : List SeqPut} (h : Kept s₀ s) :
    Yields (fun x => Kept s₀ x.2) (seqPut s w x l) := by
  refine (engTarget_kept h).bind fun ⟨r, s⟩ h => ite_yields trivial ?_
  refine Yields.iteBind (engLoad_kept h) (yields_kept h) fun ⟨old, s⟩ h => ?_
  refine ite_yields trivial ?_
  dsimp only
  split
  · exact yields_kept (normWrite_kept h)
  · exact yields_kept (iteSelf_kept poisonWord_kept (homeWrite_kept h))

theorem stopSeq_kept {die : Fin 4} {q : Fin 8} {m : SeqCmd} (l : EngStop) (h : Kept s₀ s) :
    Kept s₀ (stopSeq s die q m l) := by
  unfold stopSeq
  split
  · exact h
  · exact parkMiss_kept h
  · exact modSeq_kept (postFault_kept h)
  · exact endSeq_kept h

theorem beginSeq_kept {die : Fin 4} {q : Fin 8} {b : Nat} {m : SeqCmd} {splits : List (List Nat)} (h : Kept s₀ s)
    : Kept s₀ (beginSeq s die q b m splits) := by
  unfold beginSeq
  dsimp only
  split
  · exact stopSeq_kept _ h
  next hok =>
    refine modSeq_kept (Yields.elim (P := fun x : (List SeqPut × Flags) × State => Kept s₀ x.2) ?_ hok)
    split
    · exact startTile_kept h
    · exact startRecord_kept h

theorem putSeq_kept {die : Fin 4} {q : Fin 8} {b n : Nat} {i : Nat} (h : Kept s₀ s) :
    Kept s₀ (putSeq die q b n s i) := by
  unfold putSeq
  split
  · exact h
  dsimp only
  split
  · exact h
  refine ite_kept h ?_
  split
  · exact stopSeq_kept _ h
  · next hok => exact modSeq_kept ((seqPut_kept h).elim hok)

theorem nextSeq_kept {die : Fin 4} {q : Fin 8} {m : SeqCmd} (h : Kept s₀ s) : Kept s₀ (nextSeq s die q m) := by
  unfold nextSeq
  split
  · exact endSeq_kept h
  · exact modSeq_kept h

theorem placeComponent_kept {die : Fin 4} {q : Fin 8} {b : Nat} {m : SeqCmd} {region : W64} {d : W512}
    (h : Kept s₀ s) : Kept s₀ (placeComponent s die q b m region d) :=
  ite_kept h (modSeq_kept (foldl_kept (fun _ _ h => modCore_kept h) _ h))

theorem stepSeq_kept {die : Fin 4} {q : Fin 8} {b : Nat} {m : SeqCmd} {region : W64} {splits : List (List Nat)}
    {act : SeqAct} (h : Kept s₀ s) : Kept s₀ (stepSeq s die q b m region splits act) := by
  unfold stepSeq
  split
  · exact placeComponent_kept h
  · exact ite_kept (modSeq_kept h) h
  · exact ite_kept (modSeq_kept (leaveComponent_kept h)) h
  refine ite_kept h ?_
  split
  · exact beginSeq_kept h
  · exact ite_kept h (nextSeq_kept h)
  · exact foldl_kept (fun _ _ h => putSeq_kept h) _ h

theorem writeResults_kept {d : VReg} {w : Nat} {l : List (Nat × Nat × Flags)} (h : Kept s₀ s) :
    Yields (Kept s₀) (writeResults s d w l) := (raise_kept h).bind fun _ h => writeLanes_kept h

theorem popOff_kept {v : View} (h : Kept s₀ s) : Kept s₀ (popOff s v) := by
  unfold popOff
  split
  · exact ite_kept (modStream_kept h) (popView_kept _ h)
  · exact popView_kept _ h

theorem keepFetched_kept {loc k : Nat} (h : Kept s₀ s) : Kept s₀ (keepFetched s loc k) :=
  ite_kept (modMe_kept h) h

theorem fetchHalf_kept {va : W64} (h : Kept s₀ s) : Yields (fun x => Kept s₀ x.2) (fetchHalf s va) := by
  unfold fetchHalf
  split
  · exact trivial
  · exact trivial
  · exact trivial
  next hok =>
    have h' := (checkAddr_kept h).elim hok
    split
    · exact trivial
    · exact ite_yields trivial (keepFetched_kept h')

theorem fetchWord_kept (h : Kept s₀ s) : Yields (fun x => Kept s₀ x.2) (fetchWord s) := by
  unfold fetchWord
  split
  · exact trivial
  next hok =>
    have h' := (fetchHalf_kept h).elim hok
    split
    · exact h'
    split
    · exact trivial
    next hok =>
      have h'' := (fetchHalf_kept h').elim hok
      exact h''

theorem noteIssue_kept {c : CoreId} {i : Slot} {cls : Bool} {lowReady : Bool} {yielded : Option Slot}
    (h : Kept s₀ s) : Kept s₀ (noteIssue s c i cls lowReady yielded) := by
  have yields : Kept s₀ (match yielded with
      | some j => modStrand s c j fun t => { t with yieldPend := false }
      | none => s) := by
    split
    · exact modStrand_kept h
    · exact h
  unfold noteIssue
  exact modCore_kept yields

theorem outsideByte_kept {loc : Nat} {b : Byte} (h : Kept s₀ s) : Kept s₀ (outsideByte s loc b) :=
  ite_kept h (withMem_kept h (memSet_wf _ _))

theorem revoke_kept {node page : Nat} (h : Kept s₀ s) : Kept s₀ (revoke s node page) := h.of_eq

end Sys2Proof.Machine
end


section
/-!
What every step keeps of the message and command queues (O58): every instruction of a strand.
-/
set_option Elab.async false
namespace Sys2Proof.Machine

variable {s₀ s t : State}

theorem setSeed_kept {x : W64} (h : Kept s₀ s) : Kept s₀ (setSeed s x) := modCore_kept h

/-! ## The shapes in which an instruction executes -/

/-- If the outcome is a next state, that state is kept within its places. -/
def NextKept (s₀ : State) : Answer → Prop
  | .next t => Kept s₀ t
  | _ => True

/-- What an instruction does, if it keeps the queues within their places. -/
def KeepsQueues (s₀ : State) (body : State → Except Stop State) : Prop := ∀ s, Kept s₀ s → Yields (Kept s₀) (body s)

theorem ite_nextKept {c : Prop} [Decidable c] {o o' : Answer} (h : NextKept s₀ o) (h' : NextKept s₀ o') :
    NextKept s₀ (if c then o else o') := iteInduction (fun _ => h) fun _ => h'

theorem withOperands_kept {o : Option Stop} {r : Except Stop State} (h : Yields (Kept s₀) r) :
    Yields (Kept s₀) (withOperands o r) := by
  unfold withOperands
  split
  · exact h
  · exact trivial
  · split <;> exact trivial

theorem issueBody_kept {u : Uses} {body : State → Except Stop State} (h : Kept s₀ s) (hb : KeepsQueues s₀ body) :
    Yields (Kept s₀) (issueBody s u body) :=
  yields_after fun _ => (withOperands_kept (hb s h)).bind fun _ h => commitPops_kept h

theorem conclude_kept {len : Nat} {r : Except Stop State} (h : Kept s₀ s) (hr : Yields (Kept s₀) r) :
    NextKept s₀ (conclude s len r) := by
  cases r with
  | error x => exact stopStep_kept _ h
  | ok t => exact hr

theorem executeLen_kept {len : Nat} {on : Bool} {u : Uses} {body : State → Except Stop State} (h : Kept s₀ s)
    (hb : KeepsQueues s₀ body) : NextKept s₀ (executeLen len s on u body) := by
  cases on
  · exact advance_kept (ready_kept h)
  · exact conclude_kept (ready_kept h) (issueBody_kept (ready_kept h) hb)

theorem execute_kept {on : Bool} {u : Uses} {body : State → Except Stop State} (h : Kept s₀ s)
    (hb : KeepsQueues s₀ body) : NextKept s₀ (execute s on u body) := executeLen_kept h hb

theorem compute_kept {on : Bool} {u : Uses} {body : State → Except Stop State} (h : Kept s₀ s)
    (hb : KeepsQueues s₀ body) : NextKept s₀ (compute s on u body) :=
  execute_kept h fun s h => (hb s h).map fun _ h => advance_kept h

theorem privileged_kept {i : Instr} {k : State → Answer} (h : Kept s₀ s) (hk : NextKept s₀ (k s)) :
    NextKept s₀ (privileged s i k) := ite_nextKept hk (takeTrap_kept (ready_kept h))

theorem csrChecked_kept {n : Nat} {op : CsrOp} {i : Instr} {k : State → Answer} (h : Kept s₀ s)
    (hk : NextKept s₀ (k s)) : NextKept s₀ (csrChecked n op i s k) :=
  ite_nextKept (takeTrap_kept (ready_kept h)) (ite_nextKept hk (takeTrap_kept (ready_kept h)))

/-! ## Instructions of a strand -/

theorem op3_kept {p : Pred} {d a b : SReg} {f : W64 → W64 → W64} (h : Kept s₀ s) :
    NextKept s₀ (op3 p d a b f s) := compute_kept h fun _ h => writeS_kept h

theorem op2_kept {p : Pred} {d a : SReg} {f : W64 → W64} (h : Kept s₀ s) : NextKept s₀ (op2 p d a f s) :=
  compute_kept h fun _ h => writeS_kept h

theorem branch_kept {a b : SReg} {off : BitVec 15} {c : W64 → W64 → Bool} (h : Kept s₀ s) :
    NextKept s₀ (branch a b off c s) := execute_kept h fun _ h => ite_kept (jumpBy_kept h) (advance_kept h)

theorem execBeos_kept {st : StreamId} {off : BitVec 15} (h : Kept s₀ s) : NextKept s₀ (execBeos st off s) :=
  execute_kept h fun _ h => ite_kept (jumpBy_kept h) (advance_kept h)

theorem loadScalar_kept {p : Pred} {d : SReg} {sz : LSize} {bases : List SReg} {ea : W64}
    {inc : Option (Fin 24 × W64)} {blocking : Bool} {acq : Option Scope} (h : Kept s₀ s) :
    NextKept s₀ (loadScalar p d sz bases ea inc blocking acq s) := execute_kept h fun _ h => loadPieces_kept h

theorem storeScalar_kept {p : Pred} {d : SReg} {sz : SSize} {bases : List SReg} {ea : W64}
    {inc : Option (Fin 24 × W64)} {rel : Option Scope} (h : Kept s₀ s) :
    NextKept s₀ (storeScalar p d sz bases ea inc rel s) :=
  compute_kept h fun _ h => yields_after fun _ => (releasing_kept h).bind fun _ h =>
    (storeChunks_kept h).bind fun _ h => applyInc_kept h

theorem execPref_kept {p : Pred} {hint : Fin 3} {a : GReg} {off : BitVec 5} (h : Kept s₀ s) :
    NextKept s₀ (execPref p hint a off s) := by
  unfold execPref
  dsimp only
  split
  · split
    · next hok => exact advance_kept (ChkKept.elim (checkAddr_kept (ready_kept h)) hok)
    all_goals exact advance_kept (ready_kept h)
  · exact advance_kept (ready_kept h)

theorem loadPresence_kept {p : Pred} {d : SReg} {bases : List SReg} {ea : W64} {inc : Option (Fin 24 × W64)}
    (h : Kept s₀ s) : NextKept s₀ (loadPresence p d bases ea inc s) :=
  execute_kept h fun _ h => yields_after fun _ => yields_after fun _ => loadPieces_kept h

theorem storePresence_kept {p : Pred} {d : SReg} {bases : List SReg} {ea : W64} {inc : Option (Fin 24 × W64)}
    (h : Kept s₀ s) : NextKept s₀ (storePresence p d bases ea inc s) :=
  compute_kept h fun _ h => yields_after fun _ => (storePresent_kept h).bind fun _ h => applyInc_kept h

theorem clearPresence_kept {p : Pred} {d : SReg} {bases : List SReg} {ea : W64} {inc : Option (Fin 24 × W64)}
    (h : Kept s₀ s) : NextKept s₀ (clearPresence p d bases ea inc s) := by
  refine execute_kept h fun s h => ite_yields (advance_kept h) ?_
  refine yields_after fun _ => yields_after fun _ => yields_after fun _ => ite_yields trivial ?_
  exact yields_after fun _ => sendRequest_kept (takeSeq_kept h)

theorem loadPresenceV_kept {p : Pred} {d : VReg} {bases : List SReg} {ea : W64} {inc : Option (Fin 24 × W64)}
    (h : Kept s₀ s) : NextKept s₀ (loadPresenceV p d bases ea inc s) :=
  execute_kept h fun _ h => yields_after fun _ => yields_after fun _ => yields_after fun _ => loadPieces_kept h

theorem storePresenceV_kept {p : Pred} {d : VReg} {bases : List SReg} {ea : W64} {inc : Option (Fin 24 × W64)}
    (h : Kept s₀ s) : NextKept s₀ (storePresenceV p d bases ea inc s) :=
  compute_kept h fun _ h => yields_after fun _ => (storePresent_kept h).bind fun _ h => applyInc_kept h

theorem loadVector_kept {p : Pred} {d : VReg} {bases : List SReg} {ea : W64} {inc : Option (Fin 24 × W64)}
    (h : Kept s₀ s) : NextKept s₀ (loadVector p d bases ea inc s) :=
  execute_kept h fun _ h => yields_after fun _ => loadPieces_kept h

theorem storeVector_kept {p : Pred} {d : VReg} {bases : List SReg} {ea : W64} {inc : Option (Fin 24 × W64)}
    (h : Kept s₀ s) : NextKept s₀ (storeVector p d bases ea inc s) :=
  compute_kept h fun _ h => yields_after fun _ => (storeChunks_kept h).bind fun _ h => applyInc_kept h

theorem execVgath_kept {p : Pred} {d : VReg} {a : GReg} {ew : EWidth} {i : VReg} (h : Kept s₀ s) :
    NextKept s₀ (execVgath p d a ew i s) := execute_kept h fun _ h => yields_after fun _ => loadPieces_kept h

theorem execVscat_kept {p : Pred} {d : VReg} {a : GReg} {ew : EWidth} {i : VReg} (h : Kept s₀ s) :
    NextKept s₀ (execVscat p d a ew i s) := compute_kept h fun _ h => yields_after fun _ => storeChunks_kept h

theorem execVstt_kept {p : Pred} {d : VReg} {a : GReg} {md : LMode} {b : GReg} {ew : EWidth} (h : Kept s₀ s) :
    NextKept s₀ (execVstt p d a md b ew s) := by
  refine compute_kept h fun _ h => (storeChunks_kept h).bind fun _ h => ?_
  split
  · exact h
  · exact setG_kept (setG_kept h)

theorem execStn_kept {p : Pred} {d : VReg} {a : GReg} {md : LMode} {off : BitVec 4} {na : Fin 16} (h : Kept s₀ s)
    : NextKept s₀ (execStn p d a md off na s) := by
  refine compute_kept h fun _ h => (checkPieces_kept _ h).bind fun ⟨_, s⟩ h => ite_yields trivial ?_
  refine (sendReductions_kept h).bind fun _ h => ?_
  split
  · exact h
  · exact setG_kept h

theorem atomic_kept {d : SReg} {srcs : List SReg} {a : GReg} {n : Nat} {signed : Bool} {o : Ord} {sc : Scope}
    {kind : State → ReqKind} (h : Kept s₀ s) : NextKept s₀ (atomic d srcs a n signed o sc kind s) :=
  execute_kept h fun _ h => atomicReq_kept h

theorem reduction_kept {k : RedKind} {rel : Bool} {sc : Scope} {a : GReg} {b : SReg} (h : Kept s₀ s) :
    NextKept s₀ (reduction k rel sc a b s) :=
  compute_kept h fun _ h => (access_kept h).bind fun _ h => sendReductions_kept h

theorem acquired_kept {a : Option Scope} (h : Kept s₀ s) : Yields (ε := Stop) (Kept s₀)
    (.ok (match a with | some sc => markAcquire s s.cur (me s).uid sc | none => s)) := by
  cases a
  · exact h
  · exact markAcquire_kept h

theorem execFence_kept {o : Ord} {sc : Scope} {red uo : Bool} (h : Kept s₀ s) :
    NextKept s₀ (execFence o sc red uo s) := by
  refine compute_kept h fun s h => yields_after fun _ => ?_
  split
  · exact yields_after fun _ => acquired_kept (markMine_kept h)
  · exact ite_yields (yields_after fun _ => acquired_kept h) (acquired_kept h)

theorem execIfence_kept (h : Kept s₀ s) : NextKept s₀ (execIfence s) :=
  compute_kept h fun _ h => yields_after fun _ => modMe_kept h

theorem execIter_kept {p : Pred} {d a : GReg} {off : BitVec 12} (h : Kept s₀ s) :
    NextKept s₀ (execIter p d a off s) := by
  refine execute_kept h fun s h => yields_after fun loc => yields_after fun l => ?_
  split
  · split
    · exact jumpBy_kept h
    · exact advance_kept (claimRegs_kept (rmwWords_kept _ h))
  · exact h

theorem execIteri_kept {p : Pred} {d a : GReg} {mn : BitVec 12} (h : Kept s₀ s) :
    NextKept s₀ (execIteri p d a mn s) :=
  compute_kept h fun _ h => yields_after fun _ => yields_after fun _ => portWrite_kept _ h

theorem execBar_kept {p : Pred} {l : BarLevel} (h : Kept s₀ s) : NextKept s₀ (execBar p l s) :=
  execute_kept h fun _ h => arrive_kept (fun _ _ h => modMe_kept h) h

theorem execArrive_kept {p : Pred} {l : BarLevel} {d : GReg} (h : Kept s₀ s) :
    NextKept s₀ (execArrive p l d s) :=
  execute_kept h fun _ h => arrive_kept (fun _ _ h => advance_kept (setG_kept h)) h

theorem execWaitge_kept {p : Pred} {d a b : GReg} (h : Kept s₀ s) : NextKept s₀ (execWaitge p d a b s) :=
  compute_kept h fun _ h => yields_after fun _ => yields_after fun _ => setG_kept (markAcquire_kept h)

theorem execSignal_kept {p : Pred} {a b : GReg} (h : Kept s₀ s) : NextKept s₀ (execSignal p a b s) := by
  refine compute_kept h fun s h => ?_
  split
  · exact yields_after fun _ => yields_after fun _ => advanceTimeline_kept (markMine_kept h)
  · exact trivial

theorem execArmw_kept {p : Pred} {d a b : GReg} (h : Kept s₀ s) : NextKept s₀ (execArmw p d a b s) := by
  refine compute_kept h fun s h => yields_after fun loc => yields_after fun l => ?_
  split
  · exact setG_kept (rmwWords_kept _ h)
  · exact h

theorem execWaitgen_kept {p : Pred} {d a b : GReg} (h : Kept s₀ s) : NextKept s₀ (execWaitgen p d a b s) :=
  execute_kept h fun _ h => yields_after fun _ => yields_after fun _ => sendRequest_kept (takeSeq_kept h)

theorem execTuntil_kept {p : Pred} {d a : GReg} (h : Kept s₀ s) : NextKept s₀ (execTuntil p d a s) :=
  compute_kept h fun _ h => ite_yields (setG_kept h) trivial

theorem execGang_kept {p : Pred} {d a b c : GReg} (h : Kept s₀ s) : NextKept s₀ (execGang p d a b c s) := by
  refine compute_kept h fun _ h => yields_after fun _ => (loadBlock_kept h).bind fun ⟨_, s⟩ h => ?_
  dsimp only
  split
  · exact trivial
  · exact yields_after fun _ => setG_kept (modCore_kept (modTicket_kept h))

theorem execGwait_kept {p : Pred} {d a : GReg} (h : Kept s₀ s) : NextKept s₀ (execGwait p d a s) := by
  refine compute_kept h fun _ h => yields_after fun o => ?_
  split
  · exact setG_kept h
  · exact yields_after fun _ => setG_kept (modTicket_kept h)

theorem execGstat_kept {p : Pred} {d a : GReg} (h : Kept s₀ s) : NextKept s₀ (execGstat p d a s) := by
  refine compute_kept h fun _ h => yields_after fun o => ?_
  split <;> exact setG_kept h

theorem execGthaw_kept {p : Pred} {a : GReg} (h : Kept s₀ s) : NextKept s₀ (execGthaw p a s) := by
  refine compute_kept h fun _ h => yields_after fun o => ?_
  split
  · exact h
  · exact modTicket_kept h

theorem execMovk_kept {p : Pred} {d : KReg} {k : BitVec 8} (h : Kept s₀ s) : NextKept s₀ (execMovk p d k s) := by
  cases d
  · exact compute_kept h fun _ h => yields_after fun _ => writeS_kept h
  · exact compute_kept h fun _ h => yields_after fun _ => writeS_kept h
  · exact compute_kept h fun _ h => yields_after fun _ => writeLanes_kept h

theorem queuesOf_kPutPair (k : Core) (i : Nat) (x : W64) : queuesOf (kPutPair k i x) = queuesOf k :=
  (queuesOf_kPut ..).trans (queuesOf_kPut ..)

theorem execMovtk_kept {p : Pred} {k : BitVec 8} {a : KReg} (h : Kept s₀ s) : NextKept s₀ (execMovtk p k a s) := by
  cases a
  · exact compute_kept h fun _ h => modCore_kept h fun k => queuesOf_kPut ..
  · exact compute_kept h fun _ h => modCore_kept h fun k => queuesOf_kPutPair ..
  · exact compute_kept h fun _ h => modCore_kept h fun k => queuesOf_kPutLanes ..

theorem execPpeek_kept {p : Pred} {d : GReg} {port : Port} (h : Kept s₀ s) :
    NextKept s₀ (execPpeek p d port s) := compute_kept h fun _ h => yields_after fun _ => setG_kept h

theorem execCpgo_kept {p : Pred} {ch : Fin 2} {d : GReg} (h : Kept s₀ s) : NextKept s₀ (execCpgo p ch d s) :=
  compute_kept h fun _ h => (handCopy_kept h).bind fun _ h => setG_kept h

theorem execCpblk_kept {p : Pred} {ch : Fin 2} {d a b : GReg} (h : Kept s₀ s) :
    NextKept s₀ (execCpblk p ch d a b s) :=
  compute_kept h fun _ h => (loadBlock_kept h).bind fun _ h => (handCopy_kept h).bind fun _ h => setG_kept h

theorem execCsrr_kept {d : SReg} {csr : BitVec 12} (h : Kept s₀ s) : NextKept s₀ (execCsrr d csr s) := by
  unfold execCsrr
  refine csrChecked_kept h ?_
  exact compute_kept h fun _ h => writeS_kept (csrLatch_kept h)

theorem writeThenFinish_kept {op : CsrOp} {n : Nat} {v : W64} {w : W64} {r : State} (h : Kept s₀ s) :
    Yields (Kept s₀) ((csrWrite s op n v w).map (csrFinish (me r).uid)) :=
  (csrWrite_kept h).map fun _ h => csrFinish_kept h

theorem csrModify_kept {op : CsrOp} {csr : BitVec 12} {a : SReg} {i : Instr} (h : Kept s₀ s) :
    NextKept s₀ (csrModify op csr a i s) := csrChecked_kept h (execute_kept h fun _ h => writeThenFinish_kept h)

theorem csrEvent_kept {n : Nat} {v : W64} (h : Kept s₀ s) : NextKept s₀ (csrEvent n v s) :=
  ite_nextKept h (execute_kept h fun _ h => writeThenFinish_kept h)

theorem execRett_kept {p : Pred} (h : Kept s₀ s) : NextKept s₀ (execRett p s) :=
  privileged_kept h (execute_kept h fun _ h => ite_yields trivial (returnFromTrap_kept h))

theorem withUid_kept {n : Nat} (h : Kept s₀ s) : Kept s₀ { s with nextUid := n } := h.of_eq

theorem execSpawn_kept {p : Pred} {d a b : GReg} (h : Kept s₀ s) : NextKept s₀ (execSpawn p d a b s) := by
  refine compute_kept h fun s h => yields_after fun c => ?_
  split
  · exact trivial
  refine yields_after fun _ => yields_after fun _ => yields_waitUnless fun hroom => ?_
  have sent {sc : Scope} {b : Body} := sendOut_kept (sc := sc) (b := b) (withUid_kept (n := s.nextUid + 1) h) fun _ => hroom
  dsimp only
  split
  · exact joinBarriers_kept sent
  · exact sent

theorem execEndStrand_kept {p : Pred} (h : Kept s₀ s) : NextKept s₀ (execEndStrand p s) :=
  execute_kept h fun _ h => yields_after fun _ => ite_kept (dropService_kept h) (leaveSlot_kept h)

theorem execSleep_kept {p : Pred} {d a : GReg} (h : Kept s₀ s) : NextKept s₀ (execSleep p d a s) :=
  compute_kept h fun _ h => yields_after fun _ =>
    ite_yields (modMe_kept (setG_kept h)) (ite_yields (setG_kept h) trivial)

theorem execWake_kept {p : Pred} {a b : GReg} (h : Kept s₀ s) : NextKept s₀ (execWake p a b s) :=
  compute_kept h fun _ h => yields_after fun _ => yields_waitUnless fun hroom => pushOutbound_kept h fun _ => hroom

theorem execSend_kept {p : Pred} {d a b : GReg} {tag : BitVec 4} (h : Kept s₀ s) :
    NextKept s₀ (execSend p d a b tag s) := compute_kept h fun _ h => yields_after fun _ => postMessage_kept h

theorem execSenda_kept {p : Pred} {d a b : GReg} {tag : BitVec 4} (h : Kept s₀ s) :
    NextKept s₀ (execSenda p d a b tag s) := compute_kept h fun _ h => ite_yields trivial (postMessage_kept h)

theorem execFan_kept {p : Pred} {d a b : GReg} {dmask : BitVec 4} (h : Kept s₀ s) :
    NextKept s₀ (execFan p d a b dmask s) := by
  refine execute_kept h fun s h => ?_
  split
  · split
    · exact trivial
    · exact ite_yields trivial (ite_yields trivial (yields_after fun _ => fanOut_kept h))
  · exact trivial

theorem execFtgo_kept {p : Pred} {d a : GReg} (h : Kept s₀ s) : NextKept s₀ (execFtgo p d a s) :=
  compute_kept h fun _ h => (loadBlock_kept h).bind fun ⟨_, _⟩ h => yields_waitUnless fun hroom =>
    setG_kept (modFootQueue_kept_of (takeSeq_kept h) fun _ => by
      rw [List.length_append]
      exact of_decide_eq_true hroom)

theorem fp2_kept {p : Pred} {w : Nat} {d a b : SReg} {f : RMode → Nat → Nat → Nat × Flags} (h : Kept s₀ s) :
    NextKept s₀ (fp2 p w d a b f s) := compute_kept h fun _ h => writeFlagged_kept h

theorem fp1_kept {p : Pred} {w : Nat} {d a : SReg} {f : State → Nat → Nat × Flags} (h : Kept s₀ s) :
    NextKept s₀ (fp1 p w d a f s) := compute_kept h fun _ h => writeFlagged_kept h

theorem fp3_kept {p : Pred} {f : FmaFmt} {d a b c : SReg} {g : Fmt → RMode → Nat → Nat → Nat → Nat × Flags}
    (h : Kept s₀ s) : NextKept s₀ (fp3 p f d a b c g s) := compute_kept h fun _ h => writeFlagged_kept h

/-- The generator after the draws of an instruction, where it draws at all. -/
theorem drawn_kept {sr : Bool} {n : Nat} {x : W64} (h : Kept s₀ s) :
    Kept s₀ (if sr then setSeed s (draws n x).2 else s) := ite_kept (setSeed_kept h) h

theorem fconvert_kept {p : Pred} {sr : Bool} {dst src : Fmt} {w : Nat} {d a : SReg} (h : Kept s₀ s) :
    NextKept s₀ (fconvert p sr dst src w d a s) :=
  compute_kept h fun _ h => (writeFlagged_kept h).bind fun _ h => drawn_kept h

theorem q2_kept {p : Pred} {w : Nat} {d : GReg} {a : SReg} {f : RMode → Int → Int → Int × Flags} (h : Kept s₀ s) :
    NextKept s₀ (q2 p w d a f s) := compute_kept h fun _ h => writeFlagged_kept h

theorem execScfg_kept {p : Pred} {st : StreamId} {a : GReg} (h : Kept s₀ s) : NextKept s₀ (execScfg p st a s) := by
  refine execute_kept h fun _ h => (loadBlock_kept h).bind fun ⟨_, s⟩ h => ?_
  dsimp only
  split
  · exact trivial
  · exact yields_after fun _ => ite_yields (advance_kept (modStream_kept (unbind_kept h)))
      (ite_yields (unbind_kept h) trivial)

theorem execSbind_kept {p : Pred} {st : StreamId} {port : Option Port} (h : Kept s₀ s) :
    NextKept s₀ (execSbind p st port s) := by
  refine compute_kept h fun s h => yields_after fun _ => ?_
  split
  · exact unbind_kept h
  · exact ite_yields trivial (modStream_kept h)

theorem execSstop_kept {p : Pred} {st : StreamId} (h : Kept s₀ s) : NextKept s₀ (execSstop p st s) :=
  compute_kept h fun _ h => yields_after fun _ =>
    ite_yields h (modStream_kept (dropRead_kept (unbind_kept h)))

theorem execSrew_kept {p : Pred} {st : StreamId} {a : GReg} (h : Kept s₀ s) : NextKept s₀ (execSrew p st a s) :=
  compute_kept h fun _ h => yields_after fun _ =>
    ite_yields trivial (ite_yields trivial (modStream_kept (dropRead_kept h)))

theorem execSflush_kept {p : Pred} {st : StreamId} (h : Kept s₀ s) : NextKept s₀ (execSflush p st s) :=
  compute_kept h fun _ h => yields_after fun _ => ite_kept h (dropRead_kept h)

theorem execSskip_kept {p : Pred} {st : StreamId} {a : GReg} (h : Kept s₀ s) :
    NextKept s₀ (execSskip p st a s) :=
  compute_kept h fun _ h => yields_after fun _ =>
    ite_yields trivial (ite_yields trivial (ite_yields h (modStream_kept h)))

theorem tileOperation_kept {op : Nat} {p : Pred} {d a b : GReg} (h : Kept s₀ s) :
    NextKept s₀ (tileOperation op p d a b s) := by
  refine compute_kept h fun _ h => (loadSlots_kept _ h).bind fun ⟨ds, s⟩ h => ?_
  refine (takeSeqr_kept h).bind fun ⟨e, s⟩ h => ?_
  refine Yields.iteBind (recordTop_kept h) (yields_kept h) fun ⟨_, s⟩ h => ?_
  exact (handSeq_kept h).bind fun _ h => setG_kept h

theorem execRecon_kept {p : Pred} {a b : GReg} (h : Kept s₀ s) : NextKept s₀ (execRecon p a b s) :=
  compute_kept h fun _ h => yields_after fun _ => yields_after fun _ =>
    ite_yields (modMe_kept h) (modMe_kept h)

theorem execRecmark_kept {p : Pred} {a : GReg} (h : Kept s₀ s) : NextKept s₀ (execRecmark p a s) :=
  compute_kept h fun _ h => yields_after fun _ => ite_yields h (yields_after fun _ => appendRecord_kept h)

theorem execReverse_kept {p : Pred} {d a : GReg} (h : Kept s₀ s) : NextKept s₀ (execReverse p d a s) := by
  refine compute_kept h fun s h => ite_yields trivial (yields_after fun _ => ?_)
  refine Yields.iteBind (P := fun x : List W64 × Found × State => Kept s₀ x.2.2) (yields_ok h)
    (walkLog_kept _ _ h) fun ⟨_, _, s⟩ h => ?_
  exact (takeSeqr_kept h).bind fun ⟨_, s⟩ h => (handSeq_kept h).bind fun _ h => setG_kept (modMe_kept h)

theorem laneOp_kept {len : Nat} {p : Pred} {f : LFmt} {d : VReg} {u : Uses} {g : State → Nat → Nat × Flags}
    (h : Kept s₀ s) : NextKept s₀ (laneOp len p f d u g s) :=
  executeLen_kept h fun _ h => (writeResults_kept h).bind fun _ h => advance_kept h

theorem lane2_kept {len : Nat} {p : Pred} {f : LFmt} {d a b : VReg} {g : RMode → Nat → Nat → Nat × Flags}
    (h : Kept s₀ s) : NextKept s₀ (lane2 len p f d a b g s) := laneOp_kept h

theorem lane1_kept {len : Nat} {p : Pred} {f : LFmt} {d a : VReg} {g : Nat → Nat × Flags} (h : Kept s₀ s) :
    NextKept s₀ (lane1 len p f d a g s) := laneOp_kept h

theorem lane3_kept {p : Pred} {f : FFmt} {lf : LFmt} {d a b c : VReg}
    {g : Fmt → RMode → Nat → Nat → Nat → Nat × Flags} (h : Kept s₀ s) : NextKept s₀ (lane3 p f lf d a b c g s) :=
  laneOp_kept h

theorem broadcast_kept {len : Nat} {p : Pred} {f : LFmt} {d a : VReg} {j : Nat} (h : Kept s₀ s) :
    NextKept s₀ (broadcast len p f d a j s) := laneOp_kept h

theorem withP_kept {p : Pred} {w : Nat} {dotP : Bool} {u : Uses} {k : State → Answer} (h : Kept s₀ s)
    (hk : NextKept s₀ (k s)) : NextKept s₀ (withP p w dotP u k s) :=
  ite_nextKept (compute_kept h fun _ h => yields_after fun _ => yields_ok (foldl_kept (fun _ _ h => popOff_kept h) _ h)) hk

theorem execVcmp_kept {p : Pred} {cc : VCond} {f : LFmt} {d : MReg} {a b : VReg} (h : Kept s₀ s) :
    NextKept s₀ (execVcmp p cc f d a b s) := compute_kept h fun _ h => (raise_kept h).bind fun _ h => setM_kept h

theorem execVins_kept {p : Pred} {f : LFmt} {d : Fin 8} {a : SReg} {j : BitVec 5} (h : Kept s₀ s) :
    NextKept s₀ (execVins p f d a j s) := compute_kept h fun _ h => writeLanes_kept h

theorem reduceLanes_kept {p : Pred} {op : RedOp} {f : LFmt} {d a : VReg} (h : Kept s₀ s) :
    NextKept s₀ (reduceLanes p op f d a s) := compute_kept h fun _ h => (raise_kept h).bind fun _ h => writeV_kept h

theorem estimateLanes_kept {op : EstOp} {p : Pred} {f : LFmt} {dotP : Bool} {d a : VReg} (h : Kept s₀ s) :
    NextKept s₀ (estimateLanes op p f dotP d a s) := withP_kept h (lane1_kept h)

theorem execVlop3_kept {p : Pred} {d : Fin 8} {a b : VReg} {table : BitVec 8} (h : Kept s₀ s) :
    NextKept s₀ (execVlop3 p d a b table s) := compute_kept h fun _ h => writeLanes_kept h

theorem convertLanes_kept {p : Pred} {sr : Bool} {ws wd part : Nat} {d : VReg} {srcs : List VReg}
    {g : State → Nat → Nat → Option Nat → Nat × Flags} (h : Kept s₀ s) :
    NextKept s₀ (convertLanes p sr ws wd part d srcs g s) :=
  compute_kept h fun _ h => (writeResults_kept h).bind fun _ h => drawn_kept h

theorem execVcvt_kept {p : Pred} {sr : Bool} {k : VcvtKind} {part : BitVec 3} {d a : VReg} (h : Kept s₀ s) :
    NextKept s₀ (execVcvt p sr k part d a s) := by
  unfold execVcvt
  exact convertLanes_kept h

theorem execVnarrow_kept {p : Pred} {sr : Bool} {dst : NarrowDst} {part : BitVec 3} {d a : VReg} (h : Kept s₀ s) :
    NextKept s₀ (execVnarrow p sr dst part d a s) := by
  unfold execVnarrow
  exact convertLanes_kept h

theorem execVwiden_kept {p : Pred} {dst : WidenDst} {src : WidenSrc} {part : BitVec 3} {d a : VReg}
    (h : Kept s₀ s) : NextKept s₀ (execVwiden p dst src part d a s) := by
  unfold execVwiden
  exact convertLanes_kept h

end Sys2Proof.Machine
end


section
/-!
What every step keeps of the message and command queues (O58): every step of the part and of the world outside it.
-/
set_option Elab.async false
namespace Sys2Proof.Machine

variable {s₀ s t : State}

/-! ## Steps of the part and of the world outside it -/

theorem execGangTimedStart_kept {c : CoreId} {slot : Fin 4} (h : Kept s₀ s) :
    NextKept s₀ (execGangTimedStart c slot s) := ite_nextKept (modTicket_kept h) h

theorem execCopyAccept_kept {c : CoreId} {ch : Fin 3} {n : Nat} {refuse : Option Nat} (h : Kept s₀ s) :
    NextKept s₀ (execCopyAccept c ch n refuse s) := by
  unfold execCopyAccept
  split
  · exact h
  refine ite_kept h ?_
  split
  · exact acceptCopy_kept h
  · exact ite_kept h (modCopy_kept h)

theorem execCopyRefusalRetry_kept {c : CoreId} {ch : Fin 3} {n : Nat} (h : Kept s₀ s) :
    NextKept s₀ (execCopyRefusalRetry c ch n s) := by
  unfold execCopyRefusalRetry
  split
  · exact h
  split
  · exact ite_kept (modCopy_kept h) h
  · exact h

theorem execNvmeCompletion_kept {idx : Nat} {mediaError : Bool} (h : Kept s₀ s) :
    NextKept s₀ (execNvmeCompletion idx mediaError s) := by
  unfold execNvmeCompletion
  split
  · exact h
  dsimp only
  next op _ =>
    have h' : Kept s₀ { s with flash := s.flash.eraseIdx idx } := h.of_eq
    split
    · exact h'
    refine ite_kept h' (ite_kept h' (ite_kept ?_ (ite_kept ?_ (modCopy_kept h'))))
    · exact foldl_kept (fun _ _ h => failWord_kept h) _ h'
    · exact foldl_kept (fun _ _ h => landNow_kept h) _ h'

theorem execCopyLanding_kept {c : CoreId} {ch : Fin 3} {n word : Nat} (h : Kept s₀ s) :
    NextKept s₀ (execCopyLanding c ch n word s) := by
  unfold execCopyLanding
  split
  · exact h
  refine ite_kept (landNow_kept h) (ite_kept h ?_)
  split
  · exact flashLanding_kept h
  · exact landNow_kept h

theorem execCopyComplete_kept {c : CoreId} {ch : Fin 3} {n : Nat} (h : Kept s₀ s) :
    NextKept s₀ (execCopyComplete c ch n s) := by
  unfold execCopyComplete
  split
  · exact h
  · exact ite_kept (finishCopy_kept h) h

theorem execCopyFault_kept {c : CoreId} {ch : Fin 3} {n word : Nat} (h : Kept s₀ s) :
    NextKept s₀ (execCopyFault c ch n word s) := by
  unfold execCopyFault
  split
  · exact h
  refine ite_kept h ?_
  split
  · exact finishCopy_kept h
  · exact modCopy_kept (postFault_kept h)
  · exact h

theorem execLoadResponse_kept {c : CoreId} {slot : Slot} {idx : Nat} (h : Kept s₀ s) :
    NextKept s₀ (execLoadResponse c slot idx s) := by
  unfold execLoadResponse
  dsimp only
  split
  · exact h
  · exact ite_kept h (asStrand_kept
      (fun _ h => ite_kept (modMe_kept h) (ite_kept (answerRejected_kept h) (takeAnswer_kept h))) h)

theorem execStorePerform_kept {c : CoreId} {idx : Nat} (h : Kept s₀ s) :
    NextKept s₀ (execStorePerform c idx s) := by
  unfold execStorePerform
  split
  · exact h
  · exact ite_kept (performStore_kept h) h

theorem execFaultAcknowledgement_kept {c : CoreId} {idx : Nat} (h : Kept s₀ s) :
    NextKept s₀ (execFaultAcknowledgement c idx s) := by
  unfold execFaultAcknowledgement
  split
  · exact h
  · exact ite_kept (rejectStore_kept h) h

theorem execReleaseComplete_kept {c : CoreId} {slot : Slot} (h : Kept s₀ s) :
    NextKept s₀ (execReleaseComplete c slot s) := by
  unfold execReleaseComplete
  refine ite_kept h ?_
  dsimp only
  split
  · exact ite_kept (settleArrivals_kept h) (modStrand_kept (settleArrivals_kept h))
  · exact settleArrivals_kept h

theorem execSleepDeadline_kept {c : CoreId} {slot : Slot} (h : Kept s₀ s) :
    NextKept s₀ (execSleepDeadline c slot s) := by
  unfold execSleepDeadline
  dsimp only
  split
  · exact ite_kept (modStrand_kept h) h
  · exact h

theorem execTuntilDeadline_kept {c : CoreId} {slot : Slot} (h : Kept s₀ s) :
    NextKept s₀ (execTuntilDeadline c slot s) := by
  unfold execTuntilDeadline
  dsimp only
  split
  · exact ite_kept (modStrand_kept h) h
  · exact h

theorem execPageWalk_kept {c : CoreId} {slot : Slot} (h : Kept s₀ s) : NextKept s₀ (execPageWalk c slot s) := by
  unfold execPageWalk
  dsimp only
  split
  · exact ite_kept (walkFor_kept h) h
  · exact h

theorem execLeaseGrant_kept {node page : Nat} {granted : Bool} {size : Nat} {rd wr : Bool} {epoch : W32}
    (h : Kept s₀ s) : NextKept s₀ (execLeaseGrant node page granted size rd wr epoch s) :=
  ite_kept h (h.of_eq)

theorem execLeaseRecall_kept {node page : Nat} (h : Kept s₀ s) : NextKept s₀ (execLeaseRecall node page s) := by
  unfold execLeaseRecall
  split
  · exact h
  · exact ite_kept ((dropLeased_kept h).of_eq) ((dropLeased_kept h).of_eq)

theorem execSeamContextTimeout_kept {c : CoreId} {link : Port} {idx : Nat} (h : Kept s₀ s) :
    NextKept s₀ (execSeamContextTimeout c link idx s) := by
  unfold execSeamContextTimeout
  split
  · exact h
  · exact ite_kept (modCore_kept h) h

theorem execTagWiden_kept {token : Nat} (h : Kept s₀ s) : NextKept s₀ (execTagWiden token s) := by
  unfold execTagWiden
  split
  · exact h
  · exact ite_kept (widenTag_kept h) h

theorem execFanStartMessage_kept {idx : Nat} (h : Kept s₀ s) : NextKept s₀ (execFanStartMessage idx s) := by
  unfold execFanStartMessage
  split
  · exact h
  split
  · exact ite_kept h (passFan_kept h)
  · exact arrival_kept h

theorem execNetworkRetry_kept {idx : Nat} (h : Kept s₀ s) : NextKept s₀ (execNetworkRetry idx s) := by
  unfold execNetworkRetry
  split
  · exact h
  · exact withNet_kept h

theorem execWakeDelivery_kept {idx : Nat} (h : Kept s₀ s) : NextKept s₀ (execWakeDelivery idx s) := by
  unfold execWakeDelivery
  split
  · exact h
  split
  · refine ite_kept h (ite_kept (dropPacket_kept h) ?_)
    split
    · exact modStrand_kept (dropPacket_kept h)
    · exact modStrand_kept (dropPacket_kept h)
  · exact h

theorem execScopeMissMessage_kept {idx : Nat} (h : Kept s₀ s) : NextKept s₀ (execScopeMissMessage idx s) := by
  unfold execScopeMissMessage
  split
  · exact h
  split
  · refine ite_kept h ?_
    split
    · exact accept_kept h
    · exact dropPacket_kept h
  · exact h

theorem execScopeMissAutoWiden_kept {idx : Nat} (h : Kept s₀ s) : NextKept s₀ (execScopeMissAutoWiden idx s) := by
  unfold execScopeMissAutoWiden
  split
  · exact h
  split
  · refine ite_kept h ?_
    split
    · exact accept_kept h
    · exact dropPacket_kept h
  · exact h

theorem execSlotActivation_kept {c : CoreId} (h : Kept s₀ s) : NextKept s₀ (execSlotActivation c s) := by
  unfold execSlotActivation
  dsimp only
  split
  · next hm _ =>
    refine ite_kept h ?_
    split
    · exact ite_kept (activate_kept h hm) (ite_kept (activate_kept h hm) h)
    · exact activate_kept h hm
  · exact h

theorem execFaultMessageArrival_kept {idx : Nat} (h : Kept s₀ s) : NextKept s₀ (execFaultMessageArrival idx s) := by
  unfold execFaultMessageArrival
  split
  · exact h
  split
  · refine ite_kept h ?_
    split
    · exact dropServiceFault_kept (dropPacket_kept h)
    split
    · exact withNet_kept h
    next hroom =>
      refine modCluster_kept_of (dropPacket_kept h) fun _ => ?_
      rw [List.length_append]
      exact not_le.1 hroom
  · exact h

theorem execServiceStrandStart_kept {cl : Nat} (h : Kept s₀ s) : NextKept s₀ (execServiceStrandStart cl s) := by
  unfold execServiceStrandStart
  dsimp only
  split
  · exact h
  refine ite_kept h (ite_kept (defaultReply_kept h) ?_)
  split
  · exact h
  · exact putStrand_kept (withUid_kept (popMailbox_kept h))

theorem execFaultSlotTimeout_kept {cl : Nat} (h : Kept s₀ s) : NextKept s₀ (execFaultSlotTimeout cl s) := by
  unfold execFaultSlotTimeout
  dsimp only
  split
  · exact h
  · exact ite_kept h (ite_kept (defaultReply_kept h) (ite_kept (defaultReply_kept h) h))

theorem execLinkReplay_kept {idx : Nat} (h : Kept s₀ s) : NextKept s₀ (execLinkReplay idx s) := by
  unfold execLinkReplay
  split
  · exact h
  · exact ite_kept h (ite_kept (withNet_kept h) (countPoisoned_kept (withNet_kept h)))

theorem execOptimiserPiece_kept {c : CoreId} {n piece : Nat} (h : Kept s₀ s) :
    NextKept s₀ (execOptimiserPiece c n piece s) := by
  unfold execOptimiserPiece
  split
  · exact h
  refine ite_kept h ?_
  split
  · exact startFoot_kept h
  · exact performPiece_kept h

theorem execOptimiserComplete_kept {c : CoreId} {n : Nat} (h : Kept s₀ s) :
    NextKept s₀ (execOptimiserComplete c n s) := by
  unfold execOptimiserComplete
  split
  · exact h
  · exact ite_kept (finishFoot_kept h) h

theorem execFootingAtomic_kept {c : CoreId} {idx : Nat} (h : Kept s₀ s) :
    NextKept s₀ (execFootingAtomic c idx s) := by
  unfold execFootingAtomic
  split
  · exact h
  · exact ite_kept h (performRed_kept h)

theorem execShadowCombine_kept {c : CoreId} {idx : Nat} (h : Kept s₀ s) :
    NextKept s₀ (execShadowCombine c idx s) := by
  unfold execShadowCombine
  split
  · exact h
  · exact ite_kept h (combineShadow_kept h)

theorem execReductionAck_kept {c : CoreId} {idx : Nat} (h : Kept s₀ s) :
    NextKept s₀ (execReductionAck c idx s) := by
  unfold execReductionAck
  split
  · exact h
  refine ite_kept (ackRed_kept h) (ite_kept h ?_)
  dsimp only
  split
  · exact ite_kept (ackRed_kept (performRed_kept h)) (performRed_kept h)
  · exact performRed_kept h

theorem execShadowMerge_kept {die : Fin 4} {idx : Nat} (h : Kept s₀ s) :
    NextKept s₀ (execShadowMerge die idx s) := by
  unfold execShadowMerge
  split
  · exact h
  · exact ite_kept (mergeUnits_kept h) h

theorem execShadowCapacityMerge_kept {die : Fin 4} (h : Kept s₀ s) :
    NextKept s₀ (execShadowCapacityMerge die s) := by
  unfold execShadowCapacityMerge
  split
  · exact h
  · exact ite_kept (mergeUnits_kept h) h

theorem execPriorityAging_kept {part idx : Nat} (h : Kept s₀ s) : NextKept s₀ (execPriorityAging part idx s) := by
  unfold execPriorityAging
  split
  · exact h
  split
  · exact h
  · exact ite_kept (modPart_kept h) h

theorem execSchedulerPlace_kept {part idx cx cy : Nat} (h : Kept s₀ s) :
    NextKept s₀ (execSchedulerPlace part idx cx cy s) := by
  unfold execSchedulerPlace
  dsimp only
  split
  · exact h
  · exact ite_kept h (placeUnit_kept (modPart_kept h))

theorem execBondCompletion_kept {b : Nat} (h : Kept s₀ s) : NextKept s₀ (execBondCompletion b s) := by
  unfold execBondCompletion
  split
  · exact h
  · exact ite_kept h (markDone_kept (withBonds_kept (freeClusters_kept (releaseSeqr_kept (releaseBond_kept h)))))

theorem execLaunch_kept {q : Nat} (h : Kept s₀ s) : NextKept s₀ (execLaunch q s) := by
  unfold execLaunch
  split
  · exact h
  · exact ite_kept (failPacket_kept h) (ite_kept (failPacket_kept h) (passHand_kept (modPart_kept (h.of_eq) fun _ _ hx => hx)))

theorem execActive_kept {q : Nat} (h : Kept s₀ s) : NextKept s₀ (execActive q s) := by
  unfold execActive
  split
  · exact h
  · exact ite_kept h (ite_kept (failPacket_kept h) (passHand_kept (withNet_kept h)))

theorem execCopy_kept {q : Nat} (h : Kept s₀ s) : NextKept s₀ (execCopy q s) := by
  unfold execCopy
  split
  · exact h
  dsimp only
  split
  · exact h
  next hroom =>
    refine passHand_kept (modChan_kept_of h fun _ => ?_)
    rw [List.length_append]
    simp only [Bool.or_eq_true, decide_eq_true_eq, not_or, not_le] at hroom
    exact hroom.2

theorem execPacketComplete_kept {q n : Nat} (h : Kept s₀ s) : NextKept s₀ (execPacketComplete q n s) := by
  unfold execPacketComplete
  split
  · exact h
  · exact completePacket_kept h

theorem execQcfgWrite_kept {q : Nat} {v : W64} (h : Kept s₀ s) : NextKept s₀ (execQcfgWrite q v s) :=
  ite_kept (ite_kept h (modQueue_kept h))
    (ite_kept (fetchPacket_kept (modQueue_kept (launchJob_kept h))) (modQueue_kept h))

theorem execPartitionAssign_kept {part : Nat} {clusters memStacks keys : List Nat} {window : Option (Nat × Nat)}
    (h : Kept s₀ s) : NextKept s₀ (execPartitionAssign part clusters memStacks keys window s) := by
  unfold execPartitionAssign
  refine ite_kept h (extendMeasure_kept (bindKeys_kept (foldl_kept (fun _ _ h => modCluster_kept h) _ ?_)))
  exact modPart_kept h fun _ _ hx => by cases hx

theorem execPartitionHalt_kept {part : Nat} (h : Kept s₀ s) : NextKept s₀ (execPartitionHalt part s) :=
  ite_kept h (haltStep_kept (fun _ h => savePartition_kept h) h)

theorem execPartitionTeardown_kept {part : Nat} (h : Kept s₀ s) : NextKept s₀ (execPartitionTeardown part s) := by
  unfold execPartitionTeardown
  split
  · exact h
  · exact modPart_kept h
  · exact haltStep_kept (fun _ h => tearDown_kept h) h
  · exact tearDown_kept h

theorem execPtpMessage_kept {slow fast : BitVec 6} {err : W32} (h : Kept s₀ s) :
    NextKept s₀ (execPtpMessage slow fast err s) := ite_kept h (noteMet_kept (advancePlumb_kept (h.of_eq)))

theorem execFirmwareImage_kept {image version : Nat} (h : Kept s₀ s) :
    NextKept s₀ (execFirmwareImage image version s) := ite_kept h (ite_kept (bringUp_kept (withDev_kept h)) (lostState_kept (withDev_kept h)))

theorem withMemKeys_kept {m : List Host.Cell} {l : Map Nat} (h : Kept s₀ s)
    (hm : Memory.wf s₀.mem = true → Memory.wf m = true) : Kept s₀ { s with mem := m, lineKey := l } :=
  { h with mem := hm }

theorem execSecurityAlarm_kept {cause : AlarmCause} (h : Kept s₀ s) : NextKept s₀ (execSecurityAlarm cause s) :=
  ite_kept h (withMemKeys_kept (lostState_kept (withDev_kept h)) fun hm => memFilter_wf _ (h.mem hm))

theorem execControlStateError_kept {owner : ErrOwner} (h : Kept s₀ s) :
    NextKept s₀ (execControlStateError owner s) := by
  cases owner
  · exact killJob_kept h
  · exact bringUp_kept h

theorem execHostRegisterWrite_kept {r : HostReg} {v : W64} (h : Kept s₀ s) :
    NextKept s₀ (execHostRegisterWrite r v s) := by
  cases r
  · exact ite_kept h (modQueue_kept h)
  · exact modQueue_kept h
  · exact bringUp_kept h

theorem bar0Write_kept {off : Nat} {v : W64} (h : Kept s₀ s) : NextKept s₀ (bar0Write off v s) := by
  unfold bar0Write
  split
  · dsimp only
    split
    · exact execHostRegisterWrite_kept h
    · exact execQcfgWrite_kept h
    · exact execHostRegisterWrite_kept h
    · exact fetchPacket_kept h
    · exact h
  split
  · dsimp only
    split
    · exact ite_kept h (modJob_kept h)
    · exact ite_kept h (modJob_kept h)
    · exact ite_kept h (modJob_kept h)
    · exact ite_kept h (modJob_kept h)
    · exact h
  · exact h

theorem execPeerAccess_kept {part : Nat} {peer : Lessee} {off : Nat} {write : Option W64} (h : Kept s₀ s) :
    NextKept s₀ (execPeerAccess part peer off write s) := by
  unfold execPeerAccess
  dsimp only
  split
  · exact h
  · exact ite_kept h (outsideAccess_kept h)

theorem execUstisFrame_kept {node seq : Nat} (h : Kept s₀ s) : NextKept s₀ (execUstisFrame node seq s) :=
  ite_kept h (h.of_eq)

theorem execUstisRetransmitTimeout_kept {node : Nat} (h : Kept s₀ s) :
    NextKept s₀ (execUstisRetransmitTimeout node s) := ite_kept h (ite_kept (h.of_eq) (h.of_eq))

theorem execSeqCommand_kept {die : Fin 4} {q : Fin 8} {splits : List (List Nat)} {staged : List (Nat × Byte)}
    {accs : List (Nat × W32)} {act : SeqAct} (h : Kept s₀ s) :
    NextKept s₀ (execSeqCommand die q splits staged accs act s) := by
  unfold execSeqCommand
  split
  · exact h
  dsimp only
  next b m _ =>
    have run_kept {r : W64} (hm : SeqCmd) : Kept s₀ (if regionOk s b r then
        stepSeq (leaveStaging (modSeq s die q m.n fun _ => hm) r staged accs) die q b hm r splits act
      else endSeq s die q m.n 0x08) :=
      ite_kept (stepSeq_kept (leaveStaging_kept (modSeq_kept h))) (endSeq_kept h)
    split
    · exact endSeq_kept h
    · exact ite_kept (run_kept _) (endSeq_kept h)
    · exact run_kept _

theorem execSeqCommandComplete_kept {die : Fin 4} {q : Fin 8} (h : Kept s₀ s) :
    NextKept s₀ (execSeqCommandComplete die q s) := by
  unfold execSeqCommandComplete
  split
  · exact ite_kept (finishSeq_kept h) h
  · exact h

/-! ## Every instruction and every step of the part -/

/-- Every instruction and every step of the part keeps the queues within their places, and memory canonical. -/
theorem exec_kept (i : Instr) (h : Kept s₀ s) : NextKept s₀ (exec i s) := by
  unfold exec
  cases i with
  | add | sub | and | or | xor | andn | orn | sll | srl | sra | rol | ror | min | max | minu | maxu | slt | sltu | seq
  | sne | fshl | fshr | mul | mulh | mulhu | div | divu | rem | remu => exact op3_kept h
  | addi | andi | ori | xori | slli | srli | srai | roli | slti | sltiu | clz | ctz | popc | brev | bswap | sextB | sextH
  | sextW | zextB | zextH | zextW => exact op2_kept h
  | lui | auipc | getm | vext => exact compute_kept h fun _ h => writeS_kept h
  | sel | lop3 | tnow | spos => exact compute_kept h fun _ h => setG_kept h
  | setm | mand | mor | mnot => exact compute_kept h fun _ h => setM_kept h
  | beq | bne | blt | bge | bltu | bgeu => exact branch_kept h
  | j => exact execute_kept h fun _ h => jumpBy_kept h
  | jal => exact execute_kept h fun _ h => jumpBy_kept (writeS_kept h)
  | jalr => exact execute_kept h fun _ h => modMe_kept (writeS_kept h)
  | beos => exact execBeos_kept h
  | ld | ldIndexed | lda => exact loadScalar_kept h
  | st | stIndexed | stl => exact storeScalar_kept h
  | pref => exact execPref_kept h
  | ldp | ldpIndexed => exact loadPresence_kept h
  | stp | stpIndexed => exact storePresence_kept h
  | clrp | clrpIndexed => exact clearPresence_kept h
  | vldp | vldpIndexed => exact loadPresenceV_kept h
  | vstp | vstpIndexed => exact storePresenceV_kept h
  | vld | vldIndexed => exact loadVector_kept h
  | vst | vstIndexed => exact storeVector_kept h
  | vgath => exact execVgath_kept h
  | vscat => exact execVscat_kept h
  | vstt => exact execVstt_kept h
  | stn => exact execStn_kept h
  | amo | cas | casXchg | famo => exact atomic_kept h
  | red | fred => exact reduction_kept h
  | fence => exact execFence_kept h
  | ifence => exact execIfence_kept h
  | iter => exact execIter_kept h
  | iteri => exact execIteri_kept h
  | bar => exact execBar_kept h
  | arrive => exact execArrive_kept h
  | waitge => exact execWaitge_kept h
  | waitgen => exact execWaitgen_kept h
  | signal => exact execSignal_kept h
  | armw => exact execArmw_kept h
  | tuntil => exact execTuntil_kept h
  | fadd | fsub | fmul | fdiv | fmin | fmax | fsgn | fcmp => exact fp2_kept h
  | fsqrt | fclass | icvtf | frnd => exact fp1_kept h
  | fma | fms | fnma => exact fp3_kept h
  | fcvt | fcvtWideToB8 | fcvtB8ToWide => exact fconvert_kept h
  | fcvti | qsqrt => exact compute_kept h fun _ h => writeFlagged_kept h
  | qmul | qdiv => exact q2_kept h
  | vadd | vsub | vmul | vmulh | vmin | vmax | vand | vor | vxor | vshl | vshr | vsra | cVadd | cVsub | cVmul | cVmin
  | cVmax | cVand | cVor | cVxor | cVshl | cVshr | cVsra => exact lane2_kept h
  | cVmov | cVabs | cVneg => exact lane1_kept h
  | vbcast | cVbcast => exact broadcast_kept h
  | vsel | vclamp | vshuf | vrot | vlut | vdot | cVmac => exact laneOp_kept h
  | vfma | vfms => exact lane3_kept h
  | vabs | vneg | vmov => exact withP_kept h (lane1_kept h)
  | viota => exact withP_kept h (laneOp_kept h)
  | vred => exact withP_kept h (reduceLanes_kept h)
  | vexp2 | vlog2 | vrcp | vrsq | vtanh => exact estimateLanes_kept h
  | vcmp => exact execVcmp_kept h
  | vins => exact execVins_kept h
  | vlop3 => exact execVlop3_kept h
  | vcvt => exact execVcvt_kept h
  | vnarrow => exact execVnarrow_kept h
  | vwiden => exact execVwiden_kept h
  | scfg => exact execScfg_kept h
  | sbind => exact execSbind_kept h
  | sstop => exact execSstop_kept h
  | srew => exact execSrew_kept h
  | sflush => exact execSflush_kept h
  | sskip => exact execSskip_kept h
  | spawn => exact execSpawn_kept h
  | endStrand => exact execEndStrand_kept h
  | yield => exact compute_kept h fun _ h => modMe_kept h
  | sleep => exact execSleep_kept h
  | wake => exact execWake_kept h
  | send => exact execSend_kept h
  | senda => exact execSenda_kept h
  | fan => exact execFan_kept h
  | prio => exact compute_kept h fun _ h => modMe_kept (setG_kept h)
  | gang => exact execGang_kept h
  | gwait => exact execGwait_kept h
  | gstat => exact execGstat_kept h
  | gthaw => exact execGthaw_kept h
  | movk => exact execMovk_kept h
  | movtk => exact execMovtk_kept h
  | ppeek => exact execPpeek_kept h
  | topTmm | topTadd | topTmul | topTscale | topTact | topTsum | topTsoft | topTnorm | topTlay | topTcopy =>
    exact tileOperation_kept h
  | recon => exact execRecon_kept h
  | recoff => exact compute_kept h fun _ h => modMe_kept h
  | recmark => exact execRecmark_kept h
  | reverse => exact execReverse_kept h
  | cpgo => exact execCpgo_kept h
  | cpblk => exact execCpblk_kept h
  | ftgo => exact execFtgo_kept h
  | csrr => exact execCsrr_kept h
  | csrw | csrs | csrc => exact csrModify_kept h
  | trap | ecall | ebreak => exact execute_kept h fun _ _ => trivial
  | rett => exact execRett_kept h
  | illegalInstruction => exact takeTrap_kept (ready_kept h)
  | hirqWrite | nactlWrite | tlbinvAll | tlbinvVa | containWrite | smrelWrite | fractResume | fractSkip | fractKill =>
    exact csrEvent_kept h
  | nalRead => exact compute_kept h fun _ h => writeS_kept (csrLatch_kept h)
  | loadResponse => exact execLoadResponse_kept h
  | storePerform => exact execStorePerform_kept h
  | reductionAck => exact execReductionAck_kept h
  | releaseComplete => exact execReleaseComplete_kept h
  | faultAcknowledgement => exact execFaultAcknowledgement_kept h
  | slicePortRequest | stackAccess => exact stepPart_kept h
  | networkRetry => exact execNetworkRetry_kept h
  | spawnRequest | message | completionMessage | gangWakeMessage => exact arrival_kept h
  | fanStartMessage => exact execFanStartMessage_kept h
  | wakeDelivery => exact execWakeDelivery_kept h
  | scopeMissMessage => exact execScopeMissMessage_kept h
  | scopeMissAutoWiden => exact execScopeMissAutoWiden_kept h
  | tagWiden => exact execTagWiden_kept h
  | slotActivation => exact execSlotActivation_kept h
  | outboundSend => exact ite_kept h (sendNext_kept h)
  | sleepDeadline => exact execSleepDeadline_kept h
  | fanTimedStart => exact fanOnTick_kept _ h
  | bondCompletion => exact execBondCompletion_kept h
  | schedulerPlace => exact execSchedulerPlace_kept h
  | priorityAging => exact execPriorityAging_kept h
  | streamReadFetch => exact streamFetch_kept h
  | streamWritePerform => exact streamPerform_kept h
  | boundStreamPush => exact boundPush_kept h
  | boundStreamPop => exact boundPop_kept h
  | gangClaim => exact claimGang_kept h
  | gangTimedStart => exact execGangTimedStart_kept h
  | wsLatchEntry => exact latchEntry_kept h
  | gangPulse => exact pulseCell_kept h
  | gangComplete => exact completeGang_kept h
  | gangThawRequest => exact requestThaw_kept h
  | gangPreemptThaw => exact preemptThaw_kept h
  | gangFaultThaw => exact faultThaw_kept h
  | seamBufferForward => exact seamForward_kept h
  | seamContextTimeout => exact execSeamContextTimeout_kept h
  | pageWalk => exact execPageWalk_kept h
  | leaseGrant => exact execLeaseGrant_kept h
  | leaseRecall => exact execLeaseRecall_kept h
  | peerAccess => exact execPeerAccess_kept h
  | copyAccept => exact execCopyAccept_kept h
  | copyRefusalRetry => exact execCopyRefusalRetry_kept h
  | copyTimedStart => exact startCopy_kept h
  | copyLanding => exact execCopyLanding_kept h
  | copyComplete => exact execCopyComplete_kept h
  | copyFault => exact execCopyFault_kept h
  | footingAtomic => exact execFootingAtomic_kept h
  | optimiserPiece => exact execOptimiserPiece_kept h
  | optimiserComplete => exact execOptimiserComplete_kept h
  | seqCommand => exact execSeqCommand_kept h
  | seqCommandComplete => exact execSeqCommandComplete_kept h
  | faultMessageArrival => exact execFaultMessageArrival_kept h
  | serviceStrandStart => exact execServiceStrandStart_kept h
  | faultSlotTimeout => exact execFaultSlotTimeout_kept h
  | eccCorrected => exact countCorrected_kept h
  | uncorrectableError => exact strikeAt_kept _ h
  | linkReplay => exact execLinkReplay_kept h
  | controlStateError => exact execControlStateError_kept h
  | timeSliceExpiry => exact ite_kept (modPart_kept h) h
  | partitionHalt => exact execPartitionHalt_kept h
  | partitionRestore => exact ite_kept h (restorePartition_kept h)
  | partitionAssign => exact execPartitionAssign_kept h
  | partitionTeardown => exact execPartitionTeardown_kept h
  | shadowCombine => exact execShadowCombine_kept h
  | shadowMerge => exact execShadowMerge_kept h
  | shadowCapacityMerge => exact execShadowCapacityMerge_kept h
  | ptpMessage => exact execPtpMessage_kept h
  | tuntilDeadline => exact execTuntilDeadline_kept h
  | qdbWrite => exact fetchPacket_kept h
  | qcfgWrite => exact execQcfgWrite_kept h
  | hostRegisterWrite => exact execHostRegisterWrite_kept h
  | jobConfigWrite => exact ite_kept h (modJob_kept h)
  | queuePollTimeout => exact ite_kept (fetchPacket_kept h) h
  | launch => exact execLaunch_kept h
  | active => exact execActive_kept h
  | copy => exact execCopy_kept h
  | signalPacket | wait | fencePacket => exact dispatchPlain_kept h
  | packetComplete => exact execPacketComplete_kept h
  | hostMemoryAccess => exact ite_kept (outsideAccess_kept h) h
  | ustisFrame => exact execUstisFrame_kept h
  | ustisRetransmitTimeout => exact execUstisRetransmitTimeout_kept h
  | nvmeCompletion => exact execNvmeCompletion_kept h
  | deviceReset => exact bringUp_kept h
  | powerOn => exact bringUp_kept (withDev_kept h)
  | firmwareImage => exact execFirmwareImage_kept h
  | attestationRequest | thermalThrottle | primaryPortDown => exact withDev_kept h
  | securityAlarm => exact execSecurityAlarm_kept h
  | thermalShutdown => exact lostState_kept (withDev_kept h)
  | powerLimitSet | synchronisationLost => exact ite_kept (withDev_kept h) h

end Sys2Proof.Machine
end


section
/-!
What every step keeps of the message and command queues (O58): issue, the due steps, cycles and turns.
-/
set_option Elab.async false
namespace Sys2Proof.Machine

variable {s₀ s t : State}

/-! ## Issue, cycles and turns -/

theorem attempt_kept (h : Kept s₀ s) : NextKept s₀ (attempt s) := by
  unfold attempt
  split
  · exact stopStep_kept _ h
  · next hok =>
    have h' := (fetchWord_kept h).elim hok
    split <;> exact exec_kept _ h'

/-- The same state while a strand of another core issues. -/
theorem withIssuer_kept {c : CoreId} {i : Slot} {lz : Bool} (h : Kept s₀ s) :
    Kept s₀ { s with cur := c, slot := i, lazy := lz } := h.of_eq

theorem completeIssued_kept {c : CoreId} {lazy_ : Bool} (h : Kept s₀ s) :
    NextKept s₀ (completeIssued c lazy_ s) := by
  unfold completeIssued
  split
  · exact attempt_kept (withIssuer_kept (modStrand_kept h))
  · exact h

/-- What an eligible slot would do is what its attempt answers. -/
theorem eligible_kept {c : CoreId} {lz : Bool} {e : Slot × Answer} (h : Kept s₀ s) (he : e ∈ eligible s c lz) :
    NextKept s₀ e.2 := by
  obtain ⟨x, -, hx⟩ := List.mem_filterMap.1 he
  dsimp only at hx
  split at hx
  · cases hx; exact attempt_kept (withIssuer_kept h)
  · cases hx

theorem issueOn_kept {c : CoreId} {lazy_ : Bool} (h : Kept s₀ s) : NextKept s₀ (issueOn c lazy_ s) := by
  unfold issueOn
  have h' := openRaised_kept (c := c) h
  dsimp only
  refine ite_nextKept h' (ite_nextKept (completeIssued_kept h') ?_)
  split
  · exact h'
  split
  · next hfind =>
    exact closeRaised_kept (noteIssue_kept (eligible_kept h' (List.mem_of_find?_eq_some hfind)))
  · next hfind => exact eligible_kept h' (List.mem_of_find?_eq_some hfind)
  · exact h'

theorem issueAll_kept (l : List CoreId) (h : Kept s₀ s) : NextKept s₀ (issueAll s l) := by
  induction l generalizing s with
  | nil => exact h
  | cons c l ih =>
    have hc := issueOn_kept (c := c) (lazy_ := false) h
    unfold issueAll
    revert hc
    cases issueOn c false s with
    | next t => exact fun hc => ih hc
    | fault r => exact fun _ => trivial
    | refused r => exact fun _ => trivial

theorem perform_kept {f : Move} (h : Kept s₀ s) (hf : NextKept s₀ (f s)) : Kept s₀ (perform s f) := by
  unfold perform
  revert hf
  cases f s with
  | next t => exact id
  | fault r => exact fun _ => h
  | refused r => exact fun _ => h

/-- A move that keeps the queues within their places, and memory canonical. -/
def KeptMove (f : Move) : Prop := ∀ s₀ s, Kept s₀ s → NextKept s₀ (f s)

/-- Moves that each keep the queues within their places, and memory canonical. -/
def KeptMoves (l : List Move) : Prop := ∀ f ∈ l, KeptMove f

theorem keptMoves_nil : KeptMoves [] := fun _ hf => by cases hf

theorem keptMoves_cons {f : Move} {l : List Move} (hf : KeptMove f) (hl : KeptMoves l) : KeptMoves (f :: l) :=
  List.forall_mem_cons.2 ⟨hf, hl⟩

theorem keptMoves_one {f : Move} (hf : KeptMove f) : KeptMoves [f] := keptMoves_cons hf keptMoves_nil

theorem keptMoves_append {l l' : List Move} (h : KeptMoves l) (h' : KeptMoves l') : KeptMoves (l ++ l') :=
  List.forall_mem_append.2 ⟨h, h'⟩

theorem keptMoves_map {α : Type} {l : List α} {g : α → Move} (h : ∀ x, KeptMove (g x)) : KeptMoves (l.map g) :=
  List.forall_mem_map.2 fun x _ => h x

theorem keptMoves_flatMap {α : Type} {l : List α} {g : α → List Move} (h : ∀ x, KeptMoves (g x)) :
    KeptMoves (l.flatMap g) := fun f hf => by
  obtain ⟨x, -, hx⟩ := List.mem_flatMap.1 hf
  exact h x f hx

theorem keptMoves_replicate {n : Nat} {f : Move} (h : KeptMove f) : KeptMoves (List.replicate n f) :=
  fun _ hg => (List.eq_of_mem_replicate hg) ▸ h

theorem keptMoves_ite {c : Prop} [Decidable c] {l l' : List Move} (h : KeptMoves l) (h' : KeptMoves l') :
    KeptMoves (if c then l else l') := iteInduction (fun _ => h) fun _ => h'

theorem keptMoves_filterMap {α : Type} {l : List α} {g : α → Option Move} (h : ∀ x f, g x = some f → KeptMove f) :
    KeptMoves (l.filterMap g) := fun f hf => by
  obtain ⟨x, -, hx⟩ := List.mem_filterMap.1 hf
  exact h x f hx

theorem keptMoves_two {f g : Move} (hf : KeptMove f) (hg : KeptMove g) : KeptMoves [f, g] :=
  keptMoves_cons hf (keptMoves_one hg)

/-! ## The due steps -/

theorem strandEvents_kept (c : CoreId) (i : Slot) (t : Strand) : KeptMoves (strandEvents c i t) := by
  unfold strandEvents
  refine keptMoves_append (keptMoves_append ?_ (keptMoves_flatMap fun j => keptMoves_append
    (keptMoves_flatMap fun k => ?_) ?_)) (keptMoves_ite keptMoves_nil ?_)
  · split
    · exact keptMoves_one fun _ _ h => execPageWalk_kept h
    · exact keptMoves_one fun _ _ h => execSleepDeadline_kept h
    · exact keptMoves_one fun _ _ h => execTuntilDeadline_kept h
    · exact keptMoves_nil
  · exact keptMoves_two (fun _ _ h => stepPart_kept h) fun _ _ h => stepPart_kept h
  · exact keptMoves_one fun _ _ h => execLoadResponse_kept h
  · exact keptMoves_one fun _ _ h => execReleaseComplete_kept h

theorem streamEvents_kept (c : CoreId) (n : StreamId) (st : Stream) : KeptMoves (streamEvents c n st) := by
  have performs : KeptMove (execStreamWritePerform c n) := fun _ _ h => streamPerform_kept h
  unfold streamEvents
  refine keptMoves_ite (keptMoves_append (keptMoves_replicate performs) ?_)
    (keptMoves_ite keptMoves_nil (keptMoves_append (keptMoves_replicate fun _ _ h => streamFetch_kept h) ?_))
  · exact keptMoves_ite (keptMoves_two (fun _ _ h => boundPop_kept h) performs) keptMoves_nil
  · exact keptMoves_ite (keptMoves_one fun _ _ h => boundPush_kept h) keptMoves_nil

theorem ticketEvents_kept (c : CoreId) (i : Fin 4) (t : Ticket) : KeptMoves (ticketEvents c i t) := by
  unfold ticketEvents
  refine keptMoves_ite keptMoves_nil ?_
  refine keptMoves_cons (fun _ _ h => requestThaw_kept h) (keptMoves_cons (fun _ _ h => requestThaw_kept h) ?_)
  refine keptMoves_cons (fun _ _ h => claimGang_kept h) (keptMoves_cons (fun _ _ h => execGangTimedStart_kept h) ?_)
  refine keptMoves_cons (fun _ _ h => faultThaw_kept h) (keptMoves_cons (fun _ _ h => preemptThaw_kept h) ?_)
  exact keptMoves_one fun _ _ h => completeGang_kept h

theorem copyEvents_kept (c : CoreId) (ch : Fin 3) (m : CopyCmd) : KeptMoves (copyEvents c ch m) := by
  unfold copyEvents
  split
  · exact keptMoves_one fun _ _ h => execCopyAccept_kept h
  · exact keptMoves_one fun _ _ h => execCopyRefusalRetry_kept h
  · exact keptMoves_one fun _ _ h => startCopy_kept h
  · split
    · exact keptMoves_two (fun _ _ h => execCopyFault_kept h) fun _ _ h => execCopyLanding_kept h
    · exact keptMoves_one fun _ _ h => execCopyComplete_kept h
  · exact keptMoves_nil
  · exact keptMoves_nil

theorem coreEvents_kept (c : CoreId) (k : Core) : KeptMoves (coreEvents c k) := by
  unfold coreEvents
  refine keptMoves_append (keptMoves_append (keptMoves_append (keptMoves_append (keptMoves_append (keptMoves_append
    (keptMoves_append (keptMoves_append (keptMoves_append (keptMoves_append (keptMoves_append (keptMoves_append
    ?strands ?stores) ?reds) ?streams) ?seams) ?contexts) ?cells) ?tickets) ?copies0) ?copies1) ?foot) ?outbound) ?inbound
  case strands => exact keptMoves_flatMap fun e => strandEvents_kept c e.1 e.2
  case stores =>
    exact keptMoves_flatMap fun i =>
      keptMoves_two (fun _ _ h => execStorePerform_kept h) fun _ _ h => execFaultAcknowledgement_kept h
  case reds =>
    exact keptMoves_flatMap fun i => keptMoves_cons (fun _ _ h => execFootingAtomic_kept h)
      (keptMoves_two (fun _ _ h => execShadowCombine_kept h) fun _ _ h => execReductionAck_kept h)
  case streams => exact keptMoves_flatMap fun n => streamEvents_kept c n _
  case seams =>
    refine keptMoves_filterMap fun l f hf => ?_
    split at hf
    · cases hf
    · cases hf; exact fun _ _ h => seamForward_kept h
  case contexts => exact keptMoves_flatMap fun l => keptMoves_map fun i _ _ h => execSeamContextTimeout_kept h
  case cells =>
    exact keptMoves_ite (keptMoves_two (fun _ _ h => latchEntry_kept h) fun _ _ h => pulseCell_kept h) keptMoves_nil
  case tickets => exact keptMoves_flatMap fun i => ticketEvents_kept c i _
  case copies0 => exact keptMoves_flatMap fun m => copyEvents_kept c 0 m
  case copies1 => exact keptMoves_flatMap fun m => copyEvents_kept c 1 m
  case foot =>
    exact keptMoves_flatMap fun m => keptMoves_append (keptMoves_map fun j _ _ h => execOptimiserPiece_kept h)
      (keptMoves_one fun _ _ h => execOptimiserComplete_kept h)
  case outbound => exact keptMoves_map fun i _ _ h => ite_kept h (sendNext_kept h)
  case inbound =>
    exact keptMoves_ite keptMoves_nil (keptMoves_cons (fun _ _ h => fanOnTick_kept _ h)
      (keptMoves_replicate fun _ _ h => execSlotActivation_kept h))

theorem packetEvents_kept (idx : Nat) (p : Packet) : KeptMoves (packetEvents idx p) := by
  unfold packetEvents
  refine keptMoves_append (keptMoves_ite (keptMoves_one fun _ _ h => execNetworkRetry_kept h) keptMoves_nil) ?_
  split
  · split
    · exact keptMoves_one fun _ _ h => arrival_kept h
    · exact keptMoves_one fun _ _ h => arrival_kept h
  · exact keptMoves_one fun _ _ h => execFanStartMessage_kept h
  · exact keptMoves_one fun _ _ h => execFanStartMessage_kept h
  · exact keptMoves_one fun _ _ h => arrival_kept h
  · exact keptMoves_one fun _ _ h => arrival_kept h
  · exact keptMoves_one fun _ _ h => execWakeDelivery_kept h
  · exact keptMoves_one fun _ _ h => execFaultMessageArrival_kept h
  · exact keptMoves_two (fun _ _ h => execScopeMissMessage_kept h) fun _ _ h => execScopeMissAutoWiden_kept h

theorem dieEvents_kept (d : Fin 4) (x : Die) : KeptMoves (dieEvents d x) := by
  unfold dieEvents
  refine keptMoves_append (keptMoves_append (keptMoves_flatMap fun q => ?_)
    (keptMoves_map fun i _ _ h => execShadowMerge_kept h)) (keptMoves_one fun _ _ h => execShadowCapacityMerge_kept h)
  split
  · exact keptMoves_nil
  · exact keptMoves_two (fun _ _ h => execSeqCommand_kept h) fun _ _ h => execSeqCommandComplete_kept h

theorem partEvents_kept (s : State) (part : Nat) (p : Partition) : KeptMoves (partEvents s part p) := by
  unfold partEvents
  split
  · exact keptMoves_one fun _ _ h => execPartitionHalt_kept h
  · refine keptMoves_flatMap fun i => keptMoves_cons (fun _ _ h => execPriorityAging_kept h) ?_
    split
    · exact keptMoves_map fun e _ _ h => execSchedulerPlace_kept h
    · exact keptMoves_nil
  · exact keptMoves_nil
  · exact keptMoves_nil

theorem queueEvents_kept (q : Nat) (x : Queue) : KeptMoves (queueEvents q x) := by
  unfold queueEvents
  refine keptMoves_append (keptMoves_filterMap fun t f hf => ?_) ?_
  · split at hf
    · cases hf; exact fun _ _ h => execPacketComplete_kept h
    · cases hf
  split
  · split
    · exact keptMoves_one fun _ _ h => execLaunch_kept h
    · exact keptMoves_one fun _ _ h => execActive_kept h
    · exact keptMoves_one fun _ _ h => execCopy_kept h
    · exact keptMoves_one fun _ _ h => dispatchPlain_kept h
    · exact keptMoves_one fun _ _ h => dispatchPlain_kept h
    · exact keptMoves_one fun _ _ h => dispatchPlain_kept h
  · exact keptMoves_ite (keptMoves_one fun _ _ h => ite_kept (fetchPacket_kept h) h) keptMoves_nil

theorem dueEvents_kept (s : State) : KeptMoves (dueEvents s) := by
  unfold dueEvents
  refine keptMoves_append (keptMoves_append (keptMoves_append (keptMoves_append (keptMoves_append (keptMoves_append
    (keptMoves_append (keptMoves_append (keptMoves_append
    ?queues ?parts) ?net) ?misses) ?leases) ?clusters) ?cores) ?exchange) ?dies) ?bonds
  case queues => exact keptMoves_flatMap fun e => queueEvents_kept e.1 e.2
  case parts => exact keptMoves_flatMap fun e => partEvents_kept s e.1 e.2
  case net =>
    refine keptMoves_flatMap fun i => ?_
    split
    · exact packetEvents_kept _ _
    · exact keptMoves_nil
  case misses => exact keptMoves_map fun m _ _ h => execTagWiden_kept h
  case leases => exact keptMoves_map fun l _ _ h => execLeaseRecall_kept h
  case clusters =>
    exact keptMoves_flatMap fun e => keptMoves_ite keptMoves_nil
      (keptMoves_two (fun _ _ h => execServiceStrandStart_kept h) fun _ _ h => execFaultSlotTimeout_kept h)
  case cores => exact keptMoves_flatMap fun e => coreEvents_kept e.1 e.2
  case exchange => exact keptMoves_flatMap fun e => keptMoves_flatMap fun m => copyEvents_kept e.1 2 m
  case dies => exact keptMoves_flatMap fun d => dieEvents_kept d _
  case bonds => exact keptMoves_map fun e _ _ h => execBondCompletion_kept h

theorem performs_kept {l : List Move} (hl : KeptMoves l) (h : Kept s₀ s) : Kept s₀ (l.foldl perform s) := by
  induction l generalizing s with
  | nil => exact h
  | cons f l ih =>
    obtain ⟨hf, hl⟩ := List.forall_mem_cons.1 hl
    exact ih hl (perform_kept h (hf s₀ s h))

theorem settle_kept (h : Kept s₀ s) : Kept s₀ (settle s) := performs_kept (dueEvents_kept s) h

theorem cycle_kept (h : Kept s₀ s) : NextKept s₀ (cycle s) := by
  have hall := issueAll_kept
    (((settle s).cores.filter fun e => !(coreStrands e.2).isEmpty).map fun e => e.1) (settle_kept h)
  unfold cycle
  revert hall
  dsimp only
  cases issueAll (settle s) _ with
  | next t => exact fun ht => tick_kept ht
  | fault r => exact fun _ => trivial
  | refused r => exact fun _ => trivial

theorem takeTurn_kept {t : Turn} (h : Kept s₀ s) : NextKept s₀ (takeTurn t s) := by
  cases t with
  | event i => exact ite_nextKept (exec_kept i h) h
  | issue c lz => exact ite_nextKept (issueOn_kept h) h
  | tick => exact ite_kept (tick_kept h) h
  | dropItlb | dropDtlb => exact modCore_kept h
  | dropCluster => exact modCluster_kept h
  | dropDie => exact modDie_kept h
  | outside => exact outsideByte_kept h
  | revoke => exact revoke_kept h
  | hostWrite off v => exact ite_nextKept (bar0Write_kept h) h
  | exportLease => exact ite_kept (exportLease_kept h) h
  | assignNode => exact assignNode_kept h
  | moveSlice => exact moveSlice_kept h

theorem turn_kept {t : Turn} (h : Kept s₀ s) : NextKept s₀ (turn t s) := ite_nextKept (takeTurn_kept h) trivial

theorem withFreeCtr_kept {n : Nat} (h : Kept s₀ s) : Kept s₀ { s with freeCtr := n } := h.of_eq

theorem withTurns_kept {l : List Turn} (h : Kept s₀ s) : Kept s₀ { s with turns := l } := h.of_eq

theorem step_kept (h : Kept s₀ s) : NextKept s₀ (step s) := by
  have h' := withFreeCtr_kept (n := s.freeCtr + 1) h
  unfold step
  generalize ({ s with freeCtr := s.freeCtr + 1 } : State) = u at h'
  dsimp only
  split
  · exact ite_nextKept (cycle_kept h') h'
  · next rest _ => exact turn_kept (withTurns_kept (l := rest) h')

/-- Settles O58: every function of the model leaves each queue within its places, for what is added has a place free. -/
theorem messageQueuesStayBounded : Obligations.MessageQueuesStayBounded := by
  unfold Obligations.MessageQueuesStayBounded
  intro s t h hstep
  have hnext := step_kept (Kept.refl s)
  rw [hstep] at hnext
  exact hnext.queuesFit h

end Sys2Proof.Machine
end

section
/-!
The ends and the pauses of strands (O23): what END, YIELD, PRIO and SLEEP leave, and that the end of one strand, which may
let others pass their barrier, touches no register of another slot.
-/
set_option Elab.async false
namespace Sys2Proof.Machine

/-! ## Strands under a change of every core -/

theorem strandAt_mapStrands (s : State) (f : CoreId → Strand → Strand) (c : CoreId) (i : Slot) :
    strandAt (mapStrands s f) c i = if (strandAt s c i).occ then f c (strandAt s c i) else strandAt s c i := by
  unfold strandAt coreOf mapStrands
  dsimp only
  induction s.cores with
  | nil => simp [mapGet, Core.reset, Strand.free]
  | cons e l ih =>
    rw [List.map_cons, mapGet, mapGet]
    by_cases h : e.1 = c
    · simp [h]
    · rw [if_neg h, if_neg h]
      exact ih

@[simp] theorem strandAt_mapOrders (s : State) (f : Nat → Nat → OrdKind → Order → Order) (c : CoreId) (i : Slot) :
    strandAt (mapOrders s f) c i = strandAt s c i := slot_mapCores s.cores c i (g := id) (fun _ => rfl) rfl

@[simp] theorem strandAt_modBond (s : State) (b : Nat) (f : Bond → Bond) (c : CoreId) (i : Slot) :
    strandAt (modBond s b f) c i = strandAt s c i := by
  unfold modBond
  split <;> rfl

@[simp] theorem strandAt_acquireBarrier (s : State) (b : Nat) (l : BarLevel) (cl : Nat) (ph : W32) (c : CoreId) (i : Slot) :
    strandAt (acquireBarrier s b l cl ph) c i = strandAt s c i := by
  unfold acquireBarrier
  generalize s.cores.flatMap _ = l
  induction l generalizing s with
  | nil => rfl
  | cons e l ih => exact (ih _).trans (strandAt_mapOrders ..)

/-! ## The registers that an end leaves alone (R199, R210) -/

/-- From s to t every slot keeps its registers, and a free slot stays as it is. -/
structure RegsStay (s t : State) : Prop where
  regs (c : CoreId) (i : Slot) : (strandAt t c i).g = (strandAt s c i).g ∧ (strandAt t c i).v = (strandAt s c i).v ∧
    (strandAt t c i).m = (strandAt s c i).m
  free (c : CoreId) (i : Slot) : strandAt s c i = Strand.free → strandAt t c i = Strand.free

theorem RegsStay.of_eq {s t : State} (h : ∀ c i, strandAt t c i = strandAt s c i) : RegsStay s t :=
  ⟨fun c i => by simp [h c i], fun c i => by simp [h c i]⟩

theorem RegsStay.trans {s t u : State} (h : RegsStay s t) (h' : RegsStay t u) : RegsStay s u where
  regs c i := by
    obtain ⟨hg, hv, hm⟩ := h.regs c i
    obtain ⟨hg', hv', hm'⟩ := h'.regs c i
    exact ⟨hg'.trans hg, hv'.trans hv, hm'.trans hm⟩
  free c i e := h'.free c i (h.free c i e)

theorem passBarrier_regsStay (s : State) (b : Nat) (l : BarLevel) (cl : Nat) (ph : W32) :
    RegsStay s (mapStrands s (passBarrier b l cl ph)) where
  regs c i := by
    rw [strandAt_mapStrands, passBarrier]
    split
    · split <;> simp
    · simp
  free c i e := by rw [strandAt_mapStrands, e]; rfl

theorem settleBarrier_regsStay (s : State) (b : Nat) (l : BarLevel) (cl : Nat) : RegsStay s (settleBarrier s b l cl) := by
  unfold settleBarrier
  dsimp only
  split
  · exact .of_eq fun _ _ => rfl
  · exact .trans (.of_eq fun _ _ => by simp [setBar]) (passBarrier_regsStay ..)

theorem leaveBarrier_regsStay (s : State) (b : Nat) (l : BarLevel) (cl uid : Nat) :
    RegsStay s (leaveBarrier s b l cl uid) := by
  unfold leaveBarrier
  dsimp only
  split
  · exact .trans (.of_eq fun _ _ => by simp [setBar]) (settleBarrier_regsStay ..)
  · exact .of_eq fun _ _ => rfl

/-- A strand that leaves its slot frees it, and the barriers that it leaves change no register. -/
theorem leaveSlot_regsStay (s : State) (c : CoreId) (i : Slot) :
    RegsStay (modStrand s c i fun _ => Strand.free) (leaveSlot s c i) := by
  unfold leaveSlot
  dsimp only
  split
  · exact .of_eq fun _ _ => rfl
  · exact .trans (leaveBarrier_regsStay ..) (leaveBarrier_regsStay ..)

theorem leaveSlot_frees (s : State) (c : CoreId) (i : Slot) : strandAt (leaveSlot s c i) c i = Strand.free :=
  (leaveSlot_regsStay s c i).free c i (strandAt_modStrand_self ..)

theorem leaveSlot_others (s : State) {c d : CoreId} {i j : Slot} (h : (d, j) ≠ (c, i)) :
    (strandAt (leaveSlot s c i) d j).g = (strandAt s d j).g ∧ (strandAt (leaveSlot s c i) d j).v = (strandAt s d j).v ∧
      (strandAt (leaveSlot s c i) d j).m = (strandAt s d j).m := by
  have hregs := (leaveSlot_regsStay s c i).regs d j
  rwa [strandAt_modStrand_ne _ _ h] at hregs

/-! ## END, YIELD, PRIO and SLEEP (R210, R211) -/

section
variable {p : Pred} {d a : GReg} {s : State} (hon : predOn s p = true)
include hon

theorem exec_endStrand (hd : drained (ready s) = true) : exec (.endStrand p) s = .next
    (if (me s).kind = .service then dropService (ready s) s.cur s.slot else leaveSlot (ready s) s.cur s.slot) :=
  execute_unpopped hon (operable_nothing _) rfl (by rw [hd, me_ready]; rfl)

theorem exec_yield : exec (.yield p) s = .next (advance (modMe (ready s) fun t => { t with yieldPend := true }) 4) :=
  compute_unpopped hon (operable_nothing _) rfl rfl

section
variable (ho : Operable (ready s) { srcS := [.g a], dstS := [.g d] })
include ho

theorem exec_prio : exec (.prio p d a) s = .next (advance (modMe (setG (ready s) d (boolW (bit (me s).sprio 0)))
    fun t => { t with sprio := boolW (bit (getG (ready s) a) 0) }) 4) :=
  compute_unpopped hon ho rfl (by rw [me_ready])

variable (hd : drained (ready s) = true)
include hd

theorem exec_sleep_pending (hw : (me s).wakePend = true) : exec (.sleep p d a) s =
    .next (advance (modMe (setG (ready s) d 0) fun t => { t with wakePend := false }) 4) :=
  compute_unpopped hon ho rfl (by simp only [hd, hw, waitUnless, me_ready]; rfl)

theorem exec_sleep_over (hw : (me s).wakePend = false) (ha : getG (ready s) a ≠ 0)
    (hn : (getG (ready s) a).toNat ≤ (plumbAt s s.cur).toNat) :
    exec (.sleep p d a) s = .next (advance (setG (ready s) d 1) 4) := by
  refine compute_unpopped hon ho rfl ?_
  have ended : (getG (ready s) a ≠ 0 && decide ((getG (ready s) a).toNat ≤ (plumbAt s s.cur).toNat)) = true := by
    simpa using And.intro (by simpa using ha) (by simpa using hn)
  simp only [hd, hw, waitUnless, me_ready, if_true, Bool.false_eq_true, if_false, bind, Except.bind]
  exact if_pos ended

theorem exec_sleep_waits (hw : (me s).wakePend = false)
    (hn : getG (ready s) a = 0 ∨ (plumbAt s s.cur).toNat < (getG (ready s) a).toNat) :
    exec (.sleep p d a) s = .next (modMe (ready s) fun t => { t with wait := .sleep d (getG (ready s) a) }) := by
  refine compute_block hon ho ?_
  have waits : ¬(getG (ready s) a ≠ 0 && decide ((getG (ready s) a).toNat ≤ (plumbAt s s.cur).toNat)) = true := by
    rcases hn with ha | hn
    · simp [ha]
    · simp only [getG_ready] at hn
      simp [hn]
  simp only [hd, hw, waitUnless, me_ready, if_true, Bool.false_eq_true, if_false, bind, Except.bind]
  exact if_neg waits

end

end

/-- Settles O23: the instructions' bodies, and an end that frees its own slot alone. -/
theorem strandControl : Obligations.StrandControl := by
  unfold Obligations.StrandControl
  refine ⟨?_, fun p s hon hd hk => ?_⟩
  · intro p d a s r now dl us hon
    exact ⟨fun hd => exec_endStrand hon hd, exec_yield hon, fun ho => exec_prio hon ho, fun ho hd =>
      ⟨fun hw => exec_sleep_pending hon ho hd hw, fun hw ha hn => exec_sleep_over hon ho hd hw ha hn,
        fun hw hn => exec_sleep_waits hon ho hd hw hn⟩⟩
  · refine ⟨leaveSlot (ready s) s.cur s.slot, by rw [exec_endStrand hon hd, if_neg hk], leaveSlot_frees .., ?_⟩
    intro c i hne
    have kept := leaveSlot_others (ready s) hne
    rwa [show strandAt (ready s) c i = strandAt s c i from strandAt_modStrand_ne _ _ hne] at kept

end Sys2Proof.Machine
end

section
/-!
A statement about FAN that fails (O22), with the state that the model runs to another outcome.
-/
set_option Elab.async false
namespace Sys2Proof.Machine

/-- A bond of one cluster, whose barriers have no member, before its FAN. -/
def unfannedBond : Bond where
  job := 0
  part := 0
  cx := 0
  cy := 0
  cw := 1
  ch := 1
  spc := 1
  dmask := 0
  size := 0
  fanned := false
  late := false
  contup := 0
  bay := 0
  fanPc := 0
  fanArg := 0
  fanMask := 0
  bar := emptyBarrier
  courses := []
  seqr := none
  tregion := 0
  tsErr := false
  tsFlags := 0
  tsCause := 0
  leftCourse := []
  leftBond := 0
  leftBay := 0
  leftJob := 0
  queue := 0
  packetNo := 0
  packet := ⟨0, 0⟩

/-- Its start stub in slot 0 of core (0, 0), and in slot 1 a strand that the stub has spawned, blocked at the bond's barrier
in phase 1. -/
def stubAndBlocked : State :=
  { modStrand (withStrand { Strand.free with occ := true, uid := 1, kind := .stub, bond := some 0 }) 0 1 fun t =>
      { t with occ := true, uid := 2, bond := some 0, wait := .barrier .bond 1 } with
    bonds := [(0, unfannedBond)] }

/-- What the strand in slot 1 of core (0, 0) waits for. -/
def waitOfSlot1 : Answer → Option Wait
  | .next u => some (strandAt u 0 1).wait
  | _ => none

theorem waitOfSlot1_fan : waitOfSlot1 (exec (.fan .always 0 0 0 0) stubAndBlocked) = some (.barrier .bond 0) := by
  decide +kernel

/-- Refutes O22: the state that the statement gives FAN has every strand wait as before, but a strand of the bond that is
blocked at a barrier when FAN takes the phase numbers to 0 stays in the current phase, so it waits in phase 0 from then on
(R218, R219). -/
theorem not_requestsAndStarts : ¬ Obligations.RequestsAndStarts := by
  unfold Obligations.RequestsAndStarts
  rintro ⟨-, h⟩
  obtain ⟨fan, -⟩ := h .always 0 0 0 0 stubAndBlocked 0 unfannedBond (by decide) ⟨by rfl, by rfl⟩
  obtain ⟨starts, -⟩ := fan (by decide) (by decide) (by rfl)
  have waits := congrArg waitOfSlot1 (starts (by decide) (by decide) (by decide))
  rw [waitOfSlot1_fan] at waits
  exact absurd waits (by decide +kernel)

end Sys2Proof.Machine
end

section
/-!
Nest counters and arrival words (O12): ITER, ITERI, ARMW and WAITGEN at a slice port whose words are read in one turn.
-/
set_option Elab.async false
namespace Sys2Proof.Machine

/-! ## Fields of their words (R220, R285) -/

theorem bits_eq {w : Nat} (x : BitVec w) (hi lo : Nat) : bits x hi lo = x.toNat / 2 ^ lo % 2 ^ (hi + 1 - lo) := by
  rw [bits, Nat.shiftRight_eq_div_pow]

/-- An n-bit field of a nest counter from bit lo on, where 0 means 1. -/
def nestField (x : W64) (lo n : Nat) : Nat :=
  let v := x.toNat / 2 ^ lo % 2 ^ n
  if v = 0 then 1 else v

theorem atLeast1_bits (x : W64) (hi lo : Nat) : atLeast1 (bits x hi lo) = nestField x lo (hi + 1 - lo) := by
  rw [bits_eq]; rfl

theorem toNat_putBits_upper (x : W64) (v : Nat) :
    (putBits x 32 32 v).toNat = v % 2 ^ 32 * 2 ^ 32 + x.toNat % 2 ^ 32 := by
  rw [putBits, Nat.shiftRight_eq_div_pow, BitVec.toNat_ofNat]
  omega

theorem putBits_lower (x : W64) (v : Nat) :
    putBits x 0 32 v = BitVec.ofNat 64 (x.toNat / 2 ^ 32 * 2 ^ 32 + v % 2 ^ 32) := by
  rw [putBits, Nat.shiftRight_eq_div_pow]
  congr 1
  omega

/-- The generation of an arrival word after the arrival step with 0 of a count, and what is left of the count: the count
passes its target as often as it holds it (R285). -/
def armedGen (target gen count : Nat) : Nat := if target = 0 then gen else (gen + count / target) % 2 ^ 32
def armedCount (target count : Nat) : Nat := if target = 0 then count else count % target

theorem armedGen_lt {target gen count : Nat} (h : gen < 2 ^ 32) : armedGen target gen count < 2 ^ 32 := by
  unfold armedGen
  split
  · exact h
  · exact Nat.mod_lt _ (by decide)

theorem bits_lower {n g : Nat} (h : g < 2 ^ 32) : bits (BitVec.ofNat 64 (n * 2 ^ 32 + g)) 31 0 = g := by
  rw [bits_eq, BitVec.toNat_ofNat]
  omega

/-- The arrival step with 0 of an arrival word that ARMW has armed (R285, R286). -/
theorem arrivalWords_armed (w0 arm v : W64) :
    let target := arm.toNat % 2 ^ 32
    arrivalWords (putBits w0 32 32 (bits arm 31 0)) v 0 =
      [BitVec.ofNat 64 (target * 2 ^ 32 + armedGen target (w0.toNat % 2 ^ 32) v.toNat),
        BitVec.ofNat 64 (armedCount target v.toNat)] := by
  intro target
  have word : (putBits w0 32 32 (bits arm 31 0)).toNat = target * 2 ^ 32 + w0.toNat % 2 ^ 32 := by
    rw [toNat_putBits_upper, bits_eq]
    omega
  have upper : bits (putBits w0 32 32 (bits arm 31 0)) 63 32 = target := by rw [bits_eq, word]; omega
  have lower : bits (putBits w0 32 32 (bits arm 31 0)) 31 0 = w0.toNat % 2 ^ 32 := by rw [bits_eq, word]; omega
  rw [arrivalWords, upper, lower, Nat.add_zero, Nat.mod_eq_of_lt v.isLt, armedGen, armedCount]
  split
  · rw [← word, BitVec.ofNat_toNat, BitVec.ofNat_toNat, BitVec.setWidth_eq, BitVec.setWidth_eq]
  · rw [putBits_lower, word, show (target * 2 ^ 32 + w0.toNat % 2 ^ 32) / 2 ^ 32 = target by omega]

theorem genPassed_iff {gen b : W32} :
    genPassed gen b = true ↔ 1 ≤ (gen - b).toNat ∧ (gen - b).toNat < 2 ^ 31 := by
  simp [genPassed]

/-- The request of a WAITGEN for its arrival word. -/
def genRequest (r : State) (d : GReg) (ea : W64) (loc : Nat) (b : W32) : Pending :=
  requestOf (issuedOne r) r.nextSeq (.gen b) [⟨ea, loc, 4, 0, 0, .rc, none, none⟩] (.scalar (.g d) 32 false) none true
    none (some .sy) false

/-! ## ITER, ITERI and ARMW (R220, R221, R359) -/

section
variable {p : Pred} {d a b : GReg} {s : State} {loc : Nat} (hon : predOn s p = true)
  (hl : portObject (ready s) (getG s a) = .ok loc)
include hon hl

theorem exec_iter {off : BitVec 12} {next total e w : W64} (ha : (getG s a).toNat % 32 = 0)
    (ho : Operable (ready s) { srcS := [.g a], dstS := (List.range 5).map fun k => SReg.g (gPlus d k) })
    (hw : portWords (ready s) (getG s a) loc 4 = .ok [next, total, e, w]) :
    exec (.iter p d a off) s = .next (match claim next total w with
      | none => jumpBy (ready s) off
      | some (st, c) => advance (claimRegs (rmwWords (ready s) loc [BitVec.ofNat 64 (st + c)]) d e st c) 4) := by
  show execIter p d a off s = _
  rw [execIter, misOf_aligned ha]
  refine execute_unpopped hon ho rfl ?_
  simp only [hl, hw, bind, Except.bind]
  cases claim next total w <;> rfl

theorem exec_iteri {mn : BitVec 12} (ha : (getG s a).toNat % 32 = 0)
    (ho : Operable (ready s) { srcS := .g a :: (List.range 3).map fun k => SReg.g (gPlus d k) })
    (ht : portTurn (ready s) ((List.range 4).map fun j => loc + 8 * j) = .ok ()) :
    exec (.iteri p d a mn) s = .next (advance (portWrite (ready s) loc (nestObject (getG (ready s) d)
      (getG (ready s) (gPlus d 1)) (getG (ready s) (gPlus d 2)) mn)) 4) := by
  show execIteri p d a mn s = _
  rw [execIteri, misOf_aligned ha]
  refine compute_unpopped hon ho rfl ?_
  simp only [hl, ht, bind, Except.bind]

variable (ha : (getG s a).toNat % 16 = 0) (ho : Operable (ready s) { srcS := [.g a, .g b], dstS := [.g d] })
include ha ho

theorem exec_armw {w0 w1 : W64} {l : List W64} (hw : portWords (ready s) (getG s a) loc 2 = .ok [w0, w1])
    (harm : arrivalWords (putBits w0 32 32 (bits (getG (ready s) b) 31 0))
      (if bit (getG (ready s) b) 32 then 0 else w1) 0 = l) :
    exec (.armw p d a b) s =
      .next (advance (setG (rmwWords (ready s) loc l) d (BitVec.ofNat 64 (bits (l.headD 0) 31 0))) 4) := by
  show execArmw p d a b s = _
  rw [execArmw, misOf_aligned ha]
  refine compute_unpopped hon ho rfl ?_
  simp only [hl, hw, harm, bind, Except.bind]

/-! ## WAITGEN (R361, R324) -/

theorem execWaitgen_eq (hd : drained (ready s) = true) {t : State}
    (ht : sendRequest (issuedOne (ready s)) (genRequest (ready s) d (getG s a) loc ((getG (ready s) b).setWidth 32)) 4 =
      .ok t) : exec (.waitgen p d a b) s = .next t := by
  show execWaitgen p d a b s = _
  rw [execWaitgen, misOf_aligned ha]
  refine execute_unpopped hon ho rfl ?_
  simp only [hl, hd, waitUnless, bind, Except.bind]
  exact ht

end

section
variable {r : State} {ea : W64} {loc : Nat} {d : GReg} {b : W32} {w0 : W64}

/-- The word is read at the port where nothing of the core comes before it there. -/
theorem performReq_gen (hal : loc % 8 = 0) (hw : homeWord r loc 0 = (w0, false))
    (hu : Unhindered r (⟨ea, 4, 0⟩, ⟨ea, loc, 0, .rc, false, false, none⟩))
    (hq : queuedStore r r.cur (me r).uid r.nextSeq loc = false) (hr : readable r (.core r.cur) loc = true) :
    performReq (issuedOne r) r.cur r.slot (me r).uid (genRequest r d ea loc b) =
      if genPassed (w0.setWidth 32) b then
        (takePart (genRequest r d ea loc b) 0 ⟨ea, loc, 4, 0, 0, .rc, none, none⟩ (w0, false), issuedOne r)
      else parkReq (issuedOne r) r.cur (genRequest r d ea loc b) loc := by
  obtain ⟨hread, hred, -, hrev⟩ := hu
  have hword : wordOf loc = loc := by unfold wordOf; omega
  have hturn : partTurn (issuedOne r) r.cur (me r).uid (genRequest r d ea loc b) 0
      ⟨ea, loc, 4, 0, 0, .rc, none, none⟩ = true := by
    have hread : olderRead (issuedOne r) r.cur (me r).uid r.nextSeq (wordOf loc) = false := hread
    have hred : olderRed (issuedOne r) r.cur (me r).uid r.nextSeq (wordOf loc) = false := hred
    simp [partTurn, genRequest, requestOf, hread, hred, peerTurn]
  have hgen : genPart (issuedOne r) r.cur (me r).uid (genRequest r d ea loc b) 0
      ⟨ea, loc, 4, 0, 0, .rc, none, none⟩ b = if genPassed (w0.setWidth 32) b then
          (takePart (genRequest r d ea loc b) 0 ⟨ea, loc, 4, 0, 0, .rc, none, none⟩ (w0, false), issuedOne r)
      else parkReq (issuedOne r) r.cur (genRequest r d ea loc b) loc := by
    have hq : queuedStore (issuedOne r) r.cur (me r).uid (genRequest r d ea loc b).seq loc = false := hq
    have hr : readable (issuedOne r) (.core r.cur) loc = true := hr
    have hw : homeWord (issuedOne r) loc 0 = (w0, false) := hw
    simp [genPart, hword, hq, hr, hw]
  show performPart (issuedOne r) r.cur r.slot (me r).uid (genRequest r d ea loc b) 0 = _
  rw [← hgen]
  show (if _ then _ else _) = _
  rw [if_neg (by rw [hturn]; exact Bool.false_ne_true)]
  exact if_neg (hrev ▸ Bool.false_ne_true)

/-- The generation x written to d, and the acquire of its answer. -/
def genWritten (t : State) (d : GReg) (x : W64) : State :=
  markAcquire (setG t d x) (setG t d x).cur (me (setG t d x)).uid .sy

/-- A generation that has passed b is written at once, and the answer is an acquire. -/
theorem sendRequest_gen_passed (hlazy : r.lazy = false) (hal : loc % 8 = 0)
    (hp : performReq (issuedOne r) r.cur r.slot (me r).uid (genRequest r d ea loc b) =
      (takePart (genRequest r d ea loc b) 0 ⟨ea, loc, 4, 0, 0, .rc, none, none⟩ (w0, false), issuedOne r)) :
    sendRequest (issuedOne r) (genRequest r d ea loc b) 4 =
      .ok (advance (genWritten (issuedOne r) d ((w0.setWidth 32).setWidth 64)) 4) := by
  have value : ((assemble [⟨ea, loc, 4, 0, 0, .rc, none, some (w0, false)⟩]).setWidth 32).setWidth 64 =
      (w0.setWidth 32).setWidth 64 := by
    apply BitVec.eq_of_getLsbD_eq
    intro i _
    by_cases hi : i < 32
    · simp [assemble, subWord, hal, hi, show i < 64 by omega]
    · simp [hi]
  rw [sendRequest_now (s := issuedOne r) hlazy hp rfl rfl rfl, ← value]
  rfl

/-- A request that parks, or that its port takes up later, is otherwise as it was. -/
theorem parkReq_eq {s : State} {c : CoreId} {p : Pending} : ∃ k n,
    parkReq s c p loc = ({ p with park := k }, { s with nextSeq := n }) := by
  unfold parkReq
  split
  · exact ⟨_, _, rfl⟩
  split
  · exact ⟨_, _, rfl⟩
  · exact ⟨_, _, rfl⟩

/-- Before, the strand waits for the answer, with d and the PC as they were. -/
theorem sendRequest_gen_waits (hlazy : r.lazy = false)
    (hp : performReq (issuedOne r) r.cur r.slot (me r).uid (genRequest r d ea loc b) =
      parkReq (issuedOne r) r.cur (genRequest r d ea loc b) loc) :
    ∃ v, sendRequest (issuedOne r) (genRequest r d ea loc b) 4 = .ok v ∧ (me v).wait = .answer ∧
      (me v).pc = (me r).pc ∧ (me v).g = (me r).g ∧ v.mem = r.mem := by
  obtain ⟨k, n, hk⟩ := parkReq_eq (s := issuedOne r) (c := r.cur) (p := genRequest r d ea loc b) (loc := loc)
  rw [hk] at hp
  have hp : performReq (issuedOne r) (issuedOne r).cur (issuedOne r).slot (me (issuedOne r)).uid
    (genRequest r d ea loc b) = _ := hp
  unfold sendRequest
  rw [if_neg (show ¬ (issuedOne r).lazy = true by rw [show (issuedOne r).lazy = false from hlazy]; decide)]
  dsimp only
  rw [hp]
  have same : me { issuedOne r with nextSeq := n } = me r := rfl
  refine ⟨_, rfl, ?_, ?_, ?_, rfl⟩
  all_goals simp [genRequest, requestOf, same]

end

/-- Settles O12: the four bodies, with the fields of the words in arithmetic. -/
theorem nestCountersAndArrivalWords : Obligations.NestCountersAndArrivalWords := by
  unfold Obligations.NestCountersAndArrivalWords
  refine ⟨?_, ?_⟩
  · intro p d a off mn s loc next total e w r ea ds field left part len e0 e1 st put hon ha hl
    refine ⟨fun ho hw => ⟨fun hlt => ?_, fun hle => ?_⟩, fun ho ht => ?_⟩
    · rw [exec_iter hon hl ha ho hw, claim, if_pos hlt]
      simp only [claimRegs, ceilDiv, atLeast1_bits]
      rfl
    · rw [exec_iter hon hl ha ho hw, claim, if_neg (not_lt.2 hle)]
      rfl
    · rw [exec_iteri hon hl ha ho ht]
      simp only [nestObject, atLeast1_bits]
      rfl
  · intro p d a b s loc w0 w1 r ea arm target count gen gen' count' ahead u hon ha hl ho
    refine ⟨fun hw => ?_, fun hal hd hlazy hw hu hq hr => ?_⟩
    · have hv : (if bit arm 32 then (0 : W64) else w1).toNat = count := by
        show _ = if arm.getLsbD 32 then 0 else w1.toNat
        unfold bit
        split <;> rfl
      have armed := arrivalWords_armed w0 arm (if bit arm 32 then 0 else w1)
      rw [exec_armw hon hl ha ho hw armed, hv, List.headD_cons, bits_lower (armedGen_lt (Nat.mod_lt _ (by decide)))]
      rfl
    · have performed := performReq_gen (d := d) (b := arm.setWidth 32) hal hw hu hq hr
      refine ⟨fun hahead => ?_, fun hahead => ?_⟩
      · rw [if_pos (genPassed_iff.2 hahead)] at performed
        exact execWaitgen_eq hon hl ha ho hd (sendRequest_gen_passed hlazy hal performed)
      · rw [if_neg (mt genPassed_iff.1 hahead)] at performed
        obtain ⟨v, hv, hwait, hpc, hg, hmem⟩ := sendRequest_gen_waits hlazy performed
        exact ⟨v, execWaitgen_eq hon hl ha ho hd hv, hwait, by rw [hpc, me_ready], by rw [hg, me_ready], hmem⟩

end Sys2Proof.Machine
end

section
/-!
The scheduler (O40): a bond that completes, a unit that is placed, and a unit that ages. A placement goes over its clusters
and their cores, so what it leaves is said of a walk through a list: what each step leaves alone, and what it establishes.
-/
set_option Elab.async false
namespace Sys2Proof.Machine

/-! ## Walks through a list -/

/-- What every step of a walk leaves alone, the walk leaves alone. -/
theorem foldl_leaves {σ α β : Type} {g : σ → α → σ} {φ : σ → β} (h : ∀ s x, φ (g s x) = φ s) (l : List α) (s : σ) :
    φ (l.foldl g s) = φ s := by
  induction l generalizing s with
  | nil => rfl
  | cons x l ih => exact (ih _).trans (h s x)

/-- What every step of a walk keeps, the walk keeps. -/
theorem foldl_keeps {σ α : Type} {g : σ → α → σ} {P : σ → Prop} (h : ∀ s x, P s → P (g s x)) (l : List α) {s : σ}
    (hs : P s) : P (l.foldl g s) := by
  induction l generalizing s with
  | nil => exact hs
  | cons x l ih => exact ih (h s x hs)

/-- What the step for x establishes, and every later step keeps, holds at the end of a walk that passes x. -/
theorem foldl_establishes {σ α : Type} {g : σ → α → σ} {P : σ → Prop} {x : α} {l : List α} (hx : x ∈ l)
    (made : ∀ s, P (g s x)) (kept : ∀ s y, P s → P (g s y)) (s : σ) : P (l.foldl g s) := by
  induction l generalizing s with
  | nil => cases hx
  | cons y l ih =>
    rcases List.mem_cons.1 hx with rfl | hx
    · exact foldl_keeps kept l (made s)
    · exact ih hx _

/-! ## One cluster, one core -/

theorem clusterOf_modCluster_ne {s : State} {cl j : Nat} (f : Cluster → Cluster) (h : j ≠ cl) :
    clusterOf (modCluster s cl f) j = clusterOf s j := mapGet_mapSet_ne _ _ _ h

/-- What a change of a cluster keeps of it, it keeps of every cluster. -/
theorem clusterOf_modCluster_field {β : Type} {φ : Cluster → β} {f : Cluster → Cluster} (hf : ∀ x, φ (f x) = φ x)
    (s : State) (cl j : Nat) : φ (clusterOf (modCluster s cl f) j) = φ (clusterOf s j) := by
  by_cases h : j = cl
  · rw [h, clusterOf_modCluster_self, hf]
  · rw [clusterOf_modCluster_ne f h]

/-- What a change of a core keeps of it, it keeps of every core. -/
theorem coreOf_modCore_field {β : Type} {φ : Core → β} {f : Core → Core} (hf : ∀ x, φ (f x) = φ x)
    (s : State) (c d : CoreId) : φ (coreOf (modCore s c f) d) = φ (coreOf s d) := by
  by_cases h : d = c
  · rw [h, coreOf_modCore_self, hf]
  · rw [coreOf_modCore_ne s f h]

/-- What a change of a cluster establishes there, whatever the cluster was, a later such change keeps. -/
theorem clusterOf_modCluster_const {P : Cluster → Prop} {f : Cluster → Cluster} (hf : ∀ x, P (f x)) {s : State} {cl j : Nat}
    (h : P (clusterOf s j)) : P (clusterOf (modCluster s cl f) j) := by
  by_cases e : j = cl
  · rw [e, clusterOf_modCluster_self]; exact hf _
  · rwa [clusterOf_modCluster_ne f e]

/-! ## The configuration record (R461) -/

/-- SMVEC of the configuration record in one core. -/
def loadCore (v : W64) (s : State) (c : CoreId) : State :=
  if (coreOf s c).smvec = v then s else modCore s c fun k => { k with smvec := v }

/-- The configuration record in one cluster and its cores. -/
def loadCluster (x : Job) (s : State) (cl : Nat) : State :=
  (clusterCores cl).foldl (loadCore x.cfgSmvec) (modCluster s cl fun l => { l with fhvec := x.cfgFhvec })

theorem loadConfig_eq (s : State) (j : Nat) (cls : List Nat) : loadConfig s j cls = cls.foldl (loadCluster (jobOf s j))
    (if jobBonds s j = [] then modJob s j fun y => { y with ptroot := (jobOf s j).cfgPtroot } else s) := rfl

theorem loadCore_made (v : W64) (s : State) (c : CoreId) : (coreOf (loadCore v s c) c).smvec = v := by
  unfold loadCore
  split
  · assumption
  · rw [coreOf_modCore_self]

theorem loadCore_keeps {v : W64} {s : State} {c d : CoreId} (h : (coreOf s d).smvec = v) :
    (coreOf (loadCore v s c) d).smvec = v := by
  by_cases e : d = c
  · rw [e, loadCore_made]
  · unfold loadCore
    split
    · exact h
    · rwa [coreOf_modCore_ne s _ e]

/-- Loading a core leaves alone whatever no change of SMVEC touches. -/
theorem loadCore_leaves {β : Type} {φ : State → β} (h : ∀ s c v, φ (modCore s c fun k => { k with smvec := v }) = φ s)
    (v : W64) (s : State) (c : CoreId) : φ (loadCore v s c) = φ s := by
  unfold loadCore
  split
  · rfl
  · exact h ..

theorem loadCluster_leaves {β : Type} {φ : State → β} (hc : ∀ s c v, φ (modCore s c fun k => { k with smvec := v }) = φ s)
    (hl : ∀ s cl v, φ (modCluster s cl fun l => { l with fhvec := v }) = φ s) (x : Job) (s : State) (cl : Nat) :
    φ (loadCluster x s cl) = φ s :=
  (foldl_leaves (fun s c => loadCore_leaves hc x.cfgSmvec s c) _ _).trans (hl ..)

theorem clusterOf_loadCluster (x : Job) (s : State) (cl j : Nat) :
    clusterOf (loadCluster x s cl) j = clusterOf (modCluster s cl fun l => { l with fhvec := x.cfgFhvec }) j := by
  unfold loadCluster
  exact foldl_leaves (φ := (clusterOf · j)) (loadCore_leaves (φ := (clusterOf · j)) (fun _ _ _ => rfl) x.cfgSmvec) _ _

theorem loadCluster_fhvec_made (x : Job) (s : State) (cl : Nat) :
    (clusterOf (loadCluster x s cl) cl).fhvec = x.cfgFhvec := by
  rw [clusterOf_loadCluster, clusterOf_modCluster_self]

theorem loadCluster_fhvec_keeps {x : Job} {s : State} {cl j : Nat} (h : (clusterOf s j).fhvec = x.cfgFhvec) :
    (clusterOf (loadCluster x s cl) j).fhvec = x.cfgFhvec := by
  rw [clusterOf_loadCluster]
  exact clusterOf_modCluster_const (P := fun l => l.fhvec = x.cfgFhvec) (fun _ => rfl) h

theorem loadCluster_smvec_made {x : Job} {s : State} {cl : Nat} {c : CoreId} (h : c ∈ clusterCores cl) :
    (coreOf (loadCluster x s cl) c).smvec = x.cfgSmvec :=
  foldl_establishes (P := fun t => (coreOf t c).smvec = x.cfgSmvec) h (fun s => loadCore_made _ s c)
    (fun _ _ h => loadCore_keeps h) _

theorem loadCluster_smvec_keeps {x : Job} {s : State} {cl : Nat} {c : CoreId} (h : (coreOf s c).smvec = x.cfgSmvec) :
    (coreOf (loadCluster x s cl) c).smvec = x.cfgSmvec :=
  foldl_keeps (P := fun s => (coreOf s c).smvec = x.cfgSmvec) (fun _ _ h => loadCore_keeps h) _ h

section
variable {s : State} {j : Nat} {cls : List Nat}

theorem loadConfig_fhvec {cl : Nat} (h : cl ∈ cls) : (clusterOf (loadConfig s j cls) cl).fhvec = (jobOf s j).cfgFhvec :=
  foldl_establishes (P := fun t => (clusterOf t cl).fhvec = (jobOf s j).cfgFhvec) h
    (fun s => loadCluster_fhvec_made _ s cl) (fun _ _ h => loadCluster_fhvec_keeps h) _

theorem loadConfig_smvec {cl : Nat} {c : CoreId} (h : cl ∈ cls) (hc : c ∈ clusterCores cl) :
    (coreOf (loadConfig s j cls) c).smvec = (jobOf s j).cfgSmvec :=
  foldl_establishes (P := fun t => (coreOf t c).smvec = (jobOf s j).cfgSmvec) h
    (fun _ => loadCluster_smvec_made hc) (fun _ _ h => loadCluster_smvec_keeps h) _

/-- The configuration record leaves alone whatever no change of PTROOT, FHVEC or SMVEC touches. -/
theorem loadConfig_leaves {β : Type} {φ : State → β} (hc : ∀ s c v, φ (modCore s c fun k => { k with smvec := v }) = φ s)
    (hl : ∀ s cl v, φ (modCluster s cl fun l => { l with fhvec := v }) = φ s)
    (hj : ∀ v, φ (modJob s j fun y => { y with ptroot := v }) = φ s) : φ (loadConfig s j cls) = φ s := by
  rw [loadConfig_eq, foldl_leaves (loadCluster_leaves hc hl (jobOf s j))]
  split
  · exact hj _
  · rfl

theorem modCore_smvec_slots (s : State) (c d : CoreId) (v : W64) :
    (coreOf (modCore s c fun k => { k with smvec := v }) d).slots = (coreOf s d).slots :=
  coreOf_modCore_field (φ := Core.slots) (f := fun k => { k with smvec := v }) (fun _ => rfl) s c d

theorem loadConfig_slots (c : CoreId) : (coreOf (loadConfig s j cls) c).slots = (coreOf s c).slots :=
  loadConfig_leaves (φ := fun t => (coreOf t c).slots) (fun s d v => modCore_smvec_slots s d c v)
    (fun _ _ _ => rfl) fun _ => rfl

/-- PTROOT of a job with no bond is loaded (log 123). -/
theorem loadConfig_ptroot : (jobOf (loadConfig s j cls) j).ptroot =
    if jobBonds s j = [] then (jobOf s j).cfgPtroot else (jobOf s j).ptroot := by
  rw [loadConfig_eq, foldl_leaves (φ := fun t => (jobOf t j).ptroot)
    (loadCluster_leaves (φ := fun t => (jobOf t j).ptroot) (fun _ _ _ => rfl) (fun _ _ _ => rfl) (jobOf s j))]
  split
  · rw [jobOf_modJob_self]
  · rfl

end

/-! ## Placement (R416, R466, R467) -/

/-- The state in which the start stub of a placed unit takes its slot: the configuration record is loaded, and the bond is
there on its clusters. -/
def withPlaced (s : State) (part : Nat) (u : WorkUnit) (cx cy : Nat) : State :=
  let x := newBond s part u cx cy
  let cls := rectClusters cx cy x.cw x.ch
  let t := loadConfig s u.job cls
  cls.foldl (fun s cl => modCluster s cl fun l => { l with bond := some t.nextBond })
    (modJob { t with nextBond := t.nextBond + 1, bonds := mapSet t.nextBond x t.bonds } u.job fun y =>
      { y with ownset := pktWord u.packet 10 })

section
variable {s : State} {part : Nat} {u : WorkUnit} {cx cy : Nat}

/-- A placement leaves alone whatever its changes of clusters, cores, jobs and bonds do not touch. -/
theorem withPlaced_leaves {β : Type} {φ : State → β}
    (hc : ∀ s c v, φ (modCore s c fun k => { k with smvec := v }) = φ s)
    (hl : ∀ s cl f, φ (modCluster s cl f) = φ s) (hj : ∀ s j f, φ (modJob s j f) = φ s)
    (hb : ∀ (s : State) n l, φ { s with nextBond := n, bonds := l } = φ s) :
    φ (withPlaced s part u cx cy) = φ s := by
  refine (foldl_leaves (fun s cl => hl s cl _) _ _).trans ?_
  rw [hj, hb]
  exact loadConfig_leaves hc (fun s cl v => hl s cl _) fun v => hj ..

theorem withPlaced_slots (c : CoreId) : (coreOf (withPlaced s part u cx cy) c).slots = (coreOf s c).slots :=
  withPlaced_leaves (φ := fun t => (coreOf t c).slots) (fun s d v => modCore_smvec_slots s d c v)
    (fun _ _ _ => rfl) (fun _ _ _ => rfl) fun _ _ _ => rfl

theorem loadConfig_nextBond {cls : List Nat} : (loadConfig s u.job cls).nextBond = s.nextBond :=
  loadConfig_leaves (φ := State.nextBond) (fun _ _ _ => rfl) (fun _ _ _ => rfl) fun _ => rfl

/-- Giving the clusters to the bond leaves alone whatever no change of a cluster's bond touches. -/
theorem withPlaced_eq_before {β : Type} {φ : State → β}
    (hl : ∀ s cl b, φ (modCluster s cl fun l => { l with bond := b }) = φ s) :
    let t := loadConfig s u.job (rectClusters cx cy (launchW u.packet) (launchH u.packet))
    φ (withPlaced s part u cx cy) = φ (modJob { t with
      nextBond := t.nextBond + 1, bonds := mapSet t.nextBond (newBond s part u cx cy) t.bonds } u.job fun y =>
        { y with ownset := pktWord u.packet 10 }) :=
  foldl_leaves (fun s cl => hl s cl _) _ _

theorem withPlaced_bond : mapFind (withPlaced s part u cx cy).bonds s.nextBond = some (newBond s part u cx cy) := by
  rw [withPlaced_eq_before (φ := State.bonds) fun _ _ _ => rfl]
  show mapFind (mapSet _ _ _) _ = _
  rw [loadConfig_nextBond, mapFind_mapSet_self]

theorem withPlaced_nextBond : (withPlaced s part u cx cy).nextBond = s.nextBond + 1 := by
  rw [withPlaced_eq_before (φ := State.nextBond) fun _ _ _ => rfl]
  show (loadConfig _ _ _).nextBond + 1 = _
  rw [loadConfig_nextBond]

theorem withPlaced_job : (jobOf (withPlaced s part u cx cy) u.job).ownset = pktWord u.packet 10 ∧
    (jobOf (withPlaced s part u cx cy) u.job).ptroot =
      if jobBonds s u.job = [] then (jobOf s u.job).cfgPtroot else (jobOf s u.job).ptroot := by
  rw [withPlaced_eq_before (φ := fun t => jobOf t u.job) fun _ _ _ => rfl, jobOf_modJob_self]
  exact ⟨rfl, loadConfig_ptroot⟩

theorem withPlaced_cluster {cl : Nat} (h : cl ∈ rectClusters cx cy (launchW u.packet) (launchH u.packet)) :
    (clusterOf (withPlaced s part u cx cy) cl).bond = some s.nextBond ∧
      (clusterOf (withPlaced s part u cx cy) cl).fhvec = (jobOf s u.job).cfgFhvec := by
  constructor
  · rw [← loadConfig_nextBond (u := u)]
    unfold withPlaced
    dsimp only
    generalize (loadConfig s u.job _).nextBond = n
    exact foldl_establishes (P := fun t => (clusterOf t cl).bond = some n) h
      (fun s => congrArg Cluster.bond (clusterOf_modCluster_self ..))
      (fun _ _ h => clusterOf_modCluster_const (P := fun l => l.bond = some n) (fun _ => rfl) h) _
  · rw [withPlaced_eq_before (φ := fun t => (clusterOf t cl).fhvec) fun s k b =>
      clusterOf_modCluster_field (φ := Cluster.fhvec) (f := fun l => { l with bond := b }) (fun _ => rfl) s k cl]
    exact loadConfig_fhvec h

theorem withPlaced_smvec {cl : Nat} {c : CoreId} (h : cl ∈ rectClusters cx cy (launchW u.packet) (launchH u.packet))
    (hc : c ∈ clusterCores cl) : (coreOf (withPlaced s part u cx cy) c).smvec = (jobOf s u.job).cfgSmvec := by
  rw [withPlaced_eq_before (φ := fun t => (coreOf t c).smvec) fun _ _ _ => rfl]
  exact loadConfig_smvec h hc

/-- A unit that is placed where the cornerstone core has a free slot. -/
theorem placeUnit_eq {i : Slot} (h : freeSlot (coreOf s (keystone (cy * 16 + cx))) = some i) :
    placeUnit s part u cx cy =
      let t := withPlaced s part u cx cy
      putStrand { t with nextUid := t.nextUid + 1 } (keystone (cy * 16 + cx)) i
        (stubStrand t s.nextBond (newBond s part u cx cy) (keystone (cy * 16 + cx)) t.nextUid) := by
  have free : freeSlot (coreOf (withPlaced s part u cx cy) (keystone (cy * 16 + cx))) = some i := by
    rw [← h, freeSlot, freeSlot, withPlaced_slots]
  unfold placeUnit withPlaced at *
  dsimp only at *
  split
  · next hn => exact absurd (free.symm.trans hn) (by simp)
  · next j hj =>
    obtain rfl : i = j := Option.some.inj (free.symm.trans hj)
    simp only [loadConfig_nextBond]

end

/-! ## Strands that take a slot -/

theorem strandAt_putStrand_self (s : State) (c : CoreId) (i : Slot) (t : Strand) :
    strandAt (putStrand s c i t) c i = { t with pc := t.pc &&& ~~~(1 : W64) } :=
  (strandAt_mapOrders ..).trans (strandAt_modStrand_self ..)

theorem putStrand_g (s : State) (c : CoreId) (i : Slot) (t : Strand) : (strandAt (putStrand s c i t) c i).g = t.g := by
  rw [strandAt_putStrand_self]

/-- The argument of a start stub in its slot (R467). -/
theorem putStrand_stub_args (s t : State) (b : Nat) (x : Bond) (c : CoreId) (i : Slot) (uid : Nat) :
    (strandAt (putStrand s c i (stubStrand t b x c uid)) c i).g[0] = pktWord x.packet 7 ∧
      (strandAt (putStrand s c i (stubStrand t b x c uid)) c i).g[1] = 0 := by
  rw [putStrand_g]
  simp [stubStrand, startFanned, regsFrom]

theorem putStrand_smvec (s : State) (c d : CoreId) (i : Slot) (t : Strand) :
    (coreOf (putStrand s c i t) d).smvec = (coreOf s d).smvec := by
  unfold putStrand markAcquire
  rw [coreOf_mapOrders]
  by_cases h : d = c
  · rw [h, coreOf_modStrand_self]
  · rw [coreOf_modStrand_ne _ i _ h]

/-! ## The scheduler's steps -/

section
variable {s : State} {part idx cx cy : Nat} {u : WorkUnit}

theorem exec_bondCompletion {b : Nat} {x : Bond} (hx : mapFind s.bonds b = some x) (hi : bondIdle s b x = true) :
    exec (.bondCompletion b) s =
      let t := freeClusters (releaseSeqr (releaseBond s b x) x) x
      .next (markDone { t with bonds := mapErase b t.bonds } x.queue x.packetNo) := by
  show execBondCompletion b s = _
  simp [execBondCompletion, hx, hi]

theorem exec_schedulerPlace (hu : (partOf s part).units[idx]? = some u) (hp : (partOf s part).phase = .running)
    (hd : depsMet s u.job u.packet = true) (hr : rectAllowed (partOf s part) u.packet cx cy = true)
    (hf : placeFree s u.packet (cx, cy) = true)
    (hfirst : ∀ v ∈ (partOf s part).units, before s (partOf s part).units v u = true →
      depsMet s v.job v.packet = true → ∀ e ∈ launchPlaces (partOf s part) v.packet, placeFree s v.packet e = false) :
    exec (.schedulerPlace part idx cx cy) s =
      .next (placeUnit (modPart s part fun p => { p with units := p.units.eraseIdx idx }) part u cx cy) := by
  have first : ((partOf s part).units.any fun v => before s (partOf s part).units v u &&
      (depsMet s v.job v.packet && (launchPlaces (partOf s part) v.packet).any (placeFree s v.packet))) = false := by
    rw [List.any_eq_false]
    intro v hv
    simp only [Bool.and_eq_true, List.any_eq_true, not_and, not_exists]
    exact fun hb hd e he => by simp [hfirst v hv hb hd e he]
  show execSchedulerPlace part idx cx cy s = _
  simp [execSchedulerPlace, hu, hp, hd, hr, hf, first]

theorem exec_priorityAging {t : Nat} (hu : (partOf s part).units[idx]? = some u) (ht : u.metAt = some t) (ha : u.aged < 3)
    (hlate : t + 2 ^ 20 * (u.aged + 1) ≤ schedulerTime s) : exec (.priorityAging part idx) s =
      .next (modPart s part fun p => { p with units := p.units.set idx { u with aged := u.aged + 1 } }) := by
  show execPriorityAging part idx s = _
  rw [execPriorityAging, hu]
  simp only [ht]
  exact congrArg _ (if_pos ⟨ha, hlate⟩)

end

/-- Settles O40, step by step. -/
theorem schedulerEvents : Obligations.SchedulerEvents := by
  unfold Obligations.SchedulerEvents
  intro b part idx cx cy at_ x u i s p
  refine ⟨fun hx hi => exec_bondCompletion hx hi, fun hu hp hd hr hf hfree hfirst => ?_, fun hu ht ha hlate =>
    exec_priorityAging hu ht ha hlate⟩
  rw [exec_schedulerPlace hu hp hd hr hf hfirst,
    placeUnit_eq (s := modPart s part fun p => { p with units := p.units.eraseIdx idx }) hfree]
  generalize hs : (modPart s part fun p => { p with units := p.units.eraseIdx idx }) = s'
  have units : (partOf s' part).units = p.units.eraseIdx idx := by rw [← hs, partOf_modPart_self]
  have parts : partOf (withPlaced s' part u cx cy) part = partOf s' part :=
    withPlaced_leaves (φ := (partOf · part)) (fun _ _ _ => rfl) (fun _ _ _ => rfl) (fun _ _ _ => rfl) fun _ _ _ => rfl
  have mem : (withPlaced s' part u cx cy).mem = s'.mem :=
    withPlaced_leaves (φ := State.mem) (fun _ _ _ => rfl) (fun _ _ _ => rfl) (fun _ _ _ => rfl) fun _ _ _ => rfl
  obtain ⟨ownset, ptroot⟩ := withPlaced_job (s := s') (part := part) (u := u) (cx := cx) (cy := cy)
  have same : s'.nextBond = s.nextBond ∧ s'.mem = s.mem ∧ jobOf s' u.job = jobOf s u.job ∧
      jobBonds s' u.job = jobBonds s u.job := by subst hs; exact ⟨rfl, rfl, rfl, rfl⟩
  obtain ⟨nextBond, sameMem, job, bonds⟩ := same
  rw [← nextBond, ← sameMem, ← job, ← bonds]
  refine ⟨_, newBond s' part u cx cy, rfl, withPlaced_bond, withPlaced_nextBond,
    (congrArg Partition.units parts).trans units, mem, rfl, rfl, rfl, rfl, rfl, rfl, rfl, rfl, rfl, rfl, rfl, rfl, rfl,
    rfl, fun cl h => withPlaced_cluster h, fun cl h c hc => (putStrand_smvec ..).trans (withPlaced_smvec h hc), ownset,
    ptroot, ?_⟩
  have args := putStrand_stub_args { withPlaced s' part u cx cy with nextUid := (withPlaced s' part u cx cy).nextUid + 1 }
    (withPlaced s' part u cx cy) s'.nextBond (newBond s' part u cx cy) (keystone (cy * 16 + cx)) i
    (withPlaced s' part u cx cy).nextUid
  dsimp only at args ⊢
  rw [strandAt_putStrand_self] at args ⊢
  exact ⟨rfl, rfl, rfl, rfl, rfl, args⟩

end Sys2Proof.Machine
end

section
/-!
Containment (O41): the replies to a fault, the walk up from a strand, and what the kill of a bond or a job leaves. A kill
goes over clusters, packets and queues, so what it leaves is said of a walk through a list, as for a placement.
-/
set_option Elab.async false
namespace Sys2Proof.Machine

/-! ## Replies (R414, R430) -/

section
variable {s : State} {part : Option Nat} {token : W64} {act : Act} {m : FaultMsg} {a : Agent}

/-- A reply to a token that an agent of the partition waits on. -/
theorem reply_of_agent (hm : s.asked.find? (fun y => y.token == token) = some m) (ha : agentOf s token = some a)
    (mine : match part with | some p => agentPart s a = p | none => True) :
    reply s part token act = if partHalted s (agentPart s a) then
      modPart s (agentPart s a) fun p => { p with held := p.held ++ [(token, actCode act)] } else applyReply s m a act := by
  unfold reply
  rw [hm, ha]
  cases part with
  | none => rfl
  | some p => exact if_pos (beq_iff_eq.2 mine)

variable {c : CoreId} {i : Slot} {len q : Nat}

theorem resumeAgent_instruction (hw : (strandAt s c i).wait = .reply token len none) (hs : m.source ≠ .readStream) :
    resumeAgent s m (.strand c i) = modStrand s c i fun y => { y with wait := .none } := by
  unfold resumeAgent
  simp only [if_neg hs]
  exact modStrand_congr (by simp only [hw])

theorem resumeAgent_load (hw : (strandAt s c i).wait = .reply token len (some q)) (hs : m.source ≠ .readStream) :
    resumeAgent s m (.strand c i) = modStrand s c i fun y => { y with
      wait := .none
      inflight := y.inflight.map fun p => if p.seq = q then { p with
        parts := p.parts.map fun z => { z with got := none, lease := none }
        rejected := false, park := 0, again := true } else p } := by
  unfold resumeAgent
  simp only [if_neg hs]
  exact modStrand_congr (by simp only [hw])

theorem skipAgent_instruction (hw : (strandAt s c i).wait = .reply token len none) :
    skipAgent s m (.strand c i) = modStrand s c i fun y => { y with wait := .none, pc := y.pc + BitVec.ofNat 64 len } := by
  unfold skipAgent
  exact modStrand_congr (by simp only [hw])

theorem skipAgent_load (hw : (strandAt s c i).wait = .reply token len (some q)) :
    skipAgent s m (.strand c i) = modStrand s c i fun y => { y with
      wait := .none, inflight := y.inflight.filter fun p => p.seq != q } := by
  unfold skipAgent
  exact modStrand_congr (by simp only [hw])

end

/-! ## The walk (R415) -/

/-- A walk that starts at a live strand, whose agent waits. -/
def strandWalker (c : CoreId) (i : Slot) (b : Nat) (a : Agent) (m : FaultMsg) : Walker :=
  ⟨some (c, i), some b, clusterIdx c, some a, m⟩

/-- A level passes a fault up: its policy is to pass, or to restart with no retry left. -/
def LevelPasses (s : State) (w : Walker) (l : Nat) : Prop :=
  contPol (walkContup s w) (l - 1) = 0 ∨ (contPol (walkContup s w) (l - 1) = 1 ∧ walkLeft s w l = 0)

section
variable {s t : State} {c : CoreId} {i : Slot} {b : Nat} {a : Agent} {m : FaultMsg}

theorem walk_at_strand (hu : findUid s m.uid = some (c, i)) (hb : (strandAt s c i).bond = some b) :
    walk s m (some a) = match walkStrand s (strandWalker c i b a m) with
      | some t => t
      | none => walkUp s (strandWalker c i b a m) b [1, 2, 3, 4] := by
  unfold walk
  simp only [hu, hb]
  unfold strandWalker
  split <;> simp_all

theorem walkStrand_kill (h : bits (strandAt s c i).contain 1 0 = 2) :
    walkStrand s (strandWalker c i b a m) = some (killStrand s c i) := by
  unfold walkStrand strandWalker
  simp only [h]

theorem walkStrand_skip (h : bits (strandAt s c i).contain 1 0 = 3) (hs : m.source ≠ .fetch) :
    walkStrand s (strandWalker c i b a m) = some (skipAgent s m a) := by
  unfold walkStrand strandWalker
  simp only [h, if_neg hs]
  rfl

theorem walkStrand_retry (h : bits (strandAt s c i).contain 1 0 = 1) (left : bits (strandAt s c i).contain 11 8 ≠ 0) :
    walkStrand s (strandWalker c i b a m) = some (resumeAgent (modStrand s c i fun y => { y with
      contain := putBits y.contain 8 4 (bits (strandAt s c i).contain 11 8 - 1) }) m a) := by
  unfold walkStrand strandWalker
  simp only [h, if_neg left]

theorem walkStrand_passes (h : bits (strandAt s c i).contain 1 0 = 0 ∨
    (bits (strandAt s c i).contain 1 0 = 1 ∧ bits (strandAt s c i).contain 11 8 = 0)) :
    walkStrand s (strandWalker c i b a m) = none := by
  unfold walkStrand strandWalker
  rcases h with h | ⟨h, left⟩
  · simp only [h]
  · simp only [h, left, if_true]

variable {w : Walker} {l : Nat} {rest : List Nat}

theorem walkUp_passes (h : LevelPasses s w l) : walkUp s w b (l :: rest) = walkUp s w b rest := by
  rw [walkUp]
  rcases h with h | ⟨h, left⟩
  · simp only [h]
  · simp only [h, left, if_true]

theorem walkUp_append {pre : List Nat} (h : ∀ k ∈ pre, LevelPasses s w k) :
    walkUp s w b (pre ++ rest) = walkUp s w b rest := by
  induction pre with
  | nil => rfl
  | cons k pre ih => exact (walkUp_passes (h k (by simp))).trans (ih fun k hk => h k (by simp [hk]))

/-- The walk comes to a level when all below it pass. -/
theorem walkUp_reaches (h1 : 1 ≤ l) (h4 : l ≤ 4) (h : ∀ k, 1 ≤ k → k < l → LevelPasses s w k) :
    walkUp s w b [1, 2, 3, 4] = walkUp s w b (List.range' l (5 - l)) := by
  have split : [1, 2, 3, 4] = List.range' 1 (l - 1) ++ List.range' l (5 - l) := by
    interval_cases l <;> rfl
  rw [split]
  refine walkUp_append fun k hk => ?_
  obtain ⟨lo, hi⟩ := List.mem_range'_1.1 hk
  exact h k lo (by omega)

theorem walkUp_kill (h : contPol (walkContup s w) (l - 1) = 2) :
    walkUp s w b (l :: rest) = killUnit s b w.cluster w.msg.kind l := by
  rw [walkUp]
  simp only [h]

theorem walkUp_skip (h : contPol (walkContup s w) (l - 1) = 3) (hs : w.msg.source ≠ .fetch) :
    walkUp s w b (l :: rest) = ignoreFault s w := by
  rw [walkUp]
  simp only [h, if_neg hs]

theorem walkUp_restart (h : contPol (walkContup s w) (l - 1) = 1) (left : walkLeft s w l ≠ 0) :
    walkUp s w b (l :: rest) = restartUnit (useRetry s b w.cluster l) b w.cluster l := by
  rw [walkUp]
  simp only [h, if_neg left]

end

/-! ## The kill of a bond (R417, R468) -/

/-- What a kill of a bond leaves of one of its cores (R417, R196). -/
def CoreCleared (k : Core) : Prop :=
  k.inq = Vector.replicate 4 [] ∧ k.seam = Vector.replicate 4 [] ∧ k.inbound = [] ∧ k.outbound = [] ∧
    k.k = Vector.replicate 256 0 ∧ k.streams = Vector.replicate 4 Stream.idle ∧ k.frozen = none ∧ k.claimed = none ∧
    ∀ ch : Fin 2, ∀ y ∈ (k.chans[ch]).cmds, y.phase ≠ .finished

theorem coreCleared_clearCore (k : Core) : CoreCleared (clearCore k) := by
  refine ⟨rfl, rfl, rfl, rfl, rfl, rfl, rfl, rfl, fun ch y hy => ?_⟩
  simp only [clearCore, Fin.getElem_fin, Vector.getElem_map, List.mem_filter, bne_iff_ne] at hy
  exact hy.2

theorem coreCleared_reset : CoreCleared Core.reset := by
  refine ⟨rfl, rfl, rfl, rfl, rfl, rfl, rfl, rfl, fun ch y hy => ?_⟩
  simp [Core.reset] at hy

/-- The cores of a cluster test cleared. -/
def clearCores (inside : Nat → Bool) (l : Map Core) : Map Core :=
  l.map fun e => if inside (clusterIdx e.1) then (e.1, clearCore e.2) else e

theorem coreCleared_clearCores {inside : Nat → Bool} {c : CoreId} (h : inside (clusterIdx c) = true) (l : Map Core) :
    CoreCleared (mapGet Core.reset (clearCores inside l) c) := by
  induction l with
  | nil => exact coreCleared_reset
  | cons e l ih =>
    obtain ⟨d, k⟩ := e
    by_cases hd : d = c
    · subst hd
      simp [clearCores, h, mapGet, coreCleared_clearCore]
    · by_cases hi : inside (clusterIdx d) = true <;> simpa [clearCores, hi, mapGet, hd] using ih

theorem mapFind_mapErase_self {α : Type} (k : Nat) (l : Map α) : mapFind (mapErase k l) k = none := by
  induction l with
  | nil => rfl
  | cons e l ih =>
    obtain ⟨a, v⟩ := e
    by_cases h : a = k
    · simpa [mapErase, h] using ih
    · simpa [mapErase, h, mapFind] using ih

theorem releaseSeqr_leaves {β : Type} {φ : State → β} (h : ∀ s d f, φ (modDie s d f) = φ s) (s : State) (x : Bond) :
    φ (releaseSeqr s x) = φ s := by
  unfold releaseSeqr
  split
  · exact h ..
  · rfl

theorem freeClusters_leaves {β : Type} {φ : State → β} (h : ∀ s cl f, φ (modCluster s cl f) = φ s) (s : State) (x : Bond) :
    φ (freeClusters s x) = φ s := foldl_leaves (fun s cl => h s cl _) _ _

theorem freeClusters_bond {x : Bond} {cl : Nat} (h : cl ∈ bondClusters x) (s : State) :
    (clusterOf (freeClusters s x) cl).bond = none := by
  unfold freeClusters
  exact foldl_establishes (P := fun t => (clusterOf t cl).bond = none) h
    (fun s => congrArg Cluster.bond (clusterOf_modCluster_self ..))
    (fun _ _ h => clusterOf_modCluster_const (P := fun l => l.bond = none) (fun _ => rfl) h) _

/-- The start and wake messages on their way into clusters complete their packets, and are dropped. -/
def dropStarts (inside : Nat → Bool) (s : State) : State :=
  let t := (s.net.filter fun p => startsOn inside p.body).foldl (fun s p => match p.queue with
    | some (q, n) => markDone s q n
    | none => s) s
  { t with net := t.net.filter fun p => !startsOn inside p.body }

theorem dropStarts_cores (inside : Nat → Bool) (s : State) : (dropStarts inside s).cores = s.cores :=
  foldl_leaves (φ := State.cores) (fun _ _ => by split <;> rfl) _ s

theorem dropStarts_net {inside : Nat → Bool} {s : State} : ∀ y ∈ (dropStarts inside s).net,
    startsOn inside y.body = false := by
  intro y hy
  simpa using (List.mem_filter.1 hy).2

section
variable {s : State} {b : Nat} {x : Bond} (hx : mapFind s.bonds b = some x)
include hx

theorem stopBond_eq : stopBond s b =
    let inside := fun cl => (bondClusters x).contains cl
    let t := killPart s b inside true
    let t := freeClusters (releaseSeqr (dropStarts inside { t with cores := clearCores inside t.cores }) x) x
    { t with bonds := mapErase b t.bonds } := by
  unfold stopBond
  rw [hx]
  rfl

theorem stopBond_bonds : mapFind (stopBond s b).bonds b = none := by
  rw [stopBond_eq hx]
  exact mapFind_mapErase_self ..

theorem stopBond_cluster {cl : Nat} (h : cl ∈ bondClusters x) : (clusterOf (stopBond s b) cl).bond = none := by
  rw [stopBond_eq hx]
  exact freeClusters_bond h _

/-- Giving up the clusters and the sequencer leaves alone whatever no change of them touches. -/
theorem stopBond_leaves {β : Type} {φ : State → β} (hl : ∀ s cl f, φ (modCluster s cl f) = φ s)
    (hd : ∀ s d f, φ (modDie s d f) = φ s) (hb : ∀ (s : State) l, φ { s with bonds := l } = φ s) :
    let inside := fun cl => (bondClusters x).contains cl
    let t := killPart s b inside true
    φ (stopBond s b) = φ (dropStarts inside { t with cores := clearCores inside t.cores }) := by
  rw [stopBond_eq hx]
  exact (hb ..).trans ((freeClusters_leaves hl _ _).trans (releaseSeqr_leaves hd _ _))

theorem stopBond_core {c : CoreId} (h : clusterIdx c ∈ bondClusters x) : CoreCleared (coreOf (stopBond s b) c) := by
  rw [stopBond_leaves hx (φ := fun t => coreOf t c) (fun _ _ _ => rfl) (fun _ _ _ => rfl) fun _ _ => rfl]
  unfold coreOf
  rw [dropStarts_cores]
  exact coreCleared_clearCores (List.contains_iff_mem.2 h) _

theorem stopBond_net : ∀ y ∈ (stopBond s b).net, startsOn (fun cl => (bondClusters x).contains cl) y.body = false := by
  rw [stopBond_leaves hx (φ := State.net) (fun _ _ _ => rfl) (fun _ _ _ => rfl) fun _ _ => rfl]
  exact dropStarts_net

theorem killBond_eq (cause : Byte) : killBond s b cause =
    markDone (modQueue (stopBond s b) x.queue fun q => { q with
      bkill := true, bcause := cause, bpos := BitVec.ofNat 16 x.packet.index }) x.queue x.packetNo := by
  unfold killBond
  rw [hx]

theorem killBond_queue (cause : Byte) : queueOf (killBond s b cause) x.queue =
    { queueOf (stopBond s b) x.queue with
      bkill := true, bcause := cause, bpos := BitVec.ofNat 16 x.packet.index
      taken := (queueOf (stopBond s b) x.queue).taken.map fun t =>
        if t.n = x.packetNo then { t with done := true } else t } := by
  rw [killBond_eq hx, markDone, queueOf_modQueue_self, queueOf_modQueue_self]

theorem killBond_taken (cause : Byte) :
    ∀ y ∈ (queueOf (killBond s b cause) x.queue).taken, y.n = x.packetNo → y.done = true := by
  rw [killBond_queue hx]
  intro y hy hn
  obtain ⟨t, -, rfl⟩ := List.mem_map.1 hy
  split at hn
  · next h => rw [if_pos h]
  · next h => exact absurd hn h

/-- Where the bond was, a killed bond leaves nothing. -/
theorem killBond_leaves (cause : Byte) :
    mapFind (killBond s b cause).bonds b = none ∧
    (∀ cl ∈ bondClusters x, (clusterOf (killBond s b cause) cl).bond = none) ∧
    (∀ c : CoreId, clusterIdx c ∈ bondClusters x → CoreCleared (coreOf (killBond s b cause) c)) ∧
    ∀ y ∈ (killBond s b cause).net, startsOn (fun cl => (bondClusters x).contains cl) y.body = false := by
  rw [killBond_eq hx]
  exact ⟨stopBond_bonds hx, fun _ h => stopBond_cluster hx h, fun _ h => stopBond_core hx h, stopBond_net hx⟩

theorem killUnit_eq (n : Nat) (why : Byte) :
    killUnit s b n why 1 = killPart s b (· == n) false ∧ killUnit s b n why 2 = killBond s b why ∧
      killUnit s b n why 3 = (bayBonds s x b).foldl (fun y e => killBond y e why) s ∧
      killUnit s b n why 4 = killJob s x.job why := by
  unfold killUnit
  rw [hx]
  exact ⟨rfl, rfl, rfl, rfl⟩

theorem requeueBond_eq (left : Option (Nat × Nat × Nat)) : requeueBond s b left =
    modPart { stopBond s b with nextSeq := s.nextSeq + 1 } x.part fun p => { p with
      units := p.units ++ [⟨x.packet, x.queue, x.packetNo, x.job, none, 0, s.nextSeq, left⟩] } := by
  unfold requeueBond
  rw [hx]

end

/-! ## The kill of a job (R417, R468) -/

theorem mapGet_eq_or_mem {α : Type} (d : α) (l : Map α) (k : Nat) : mapGet d l k = d ∨ (k, mapGet d l k) ∈ l := by
  induction l with
  | nil => exact .inl rfl
  | cons e l ih =>
    obtain ⟨a, v⟩ := e
    rw [mapGet]
    split
    · next h => subst h; exact .inr (by simp)
    · exact ih.imp id fun h => by simp [h]

theorem queueOf_stopQueue_ne {s : State} {q r index : Nat} {cause : Byte} (h : r ≠ q) :
    queueOf (stopQueue s q cause index) r = queueOf s r := mapGet_mapSet_ne _ _ _ h

theorem stopQueue_queueJob (s : State) (q r index : Nat) (cause : Byte) :
    queueJob (queueOf (stopQueue s q cause index) r) = queueJob (queueOf s r) := by
  by_cases h : r = q
  · rw [h, stopQueue, queueOf_modQueue_self]; rfl
  · rw [queueOf_stopQueue_ne h]

theorem stopQueue_stops (s : State) (q index : Nat) (cause : Byte) :
    (queueOf (stopQueue s q cause index) q).run = false := by
  rw [stopQueue, queueOf_modQueue_self]

theorem stopQueue_keeps_stopped {s : State} {q r index : Nat} {cause : Byte} (h : (queueOf s r).run = false) :
    (queueOf (stopQueue s q cause index) r).run = false := by
  by_cases e : r = q
  · rw [e, stopQueue_stops]
  · rwa [queueOf_stopQueue_ne e]

/-- Queues stop, each at an index. -/
def stopAll (cause : Byte) (l : List (Nat × Nat)) (s : State) : State := l.foldl (fun s q => stopQueue s q.1 cause q.2) s

/-- The queues of a job that run. -/
def runningQueues (s : State) (j : Nat) : List Nat :=
  (s.queues.filter fun e => queueJob e.2 == j && e.2.run).map fun e => e.1

theorem stopAll_parts (cause : Byte) (l : List (Nat × Nat)) (s : State) : (stopAll cause l s).parts = s.parts :=
  foldl_leaves (φ := State.parts) (g := fun s (q : Nat × Nat) => stopQueue s q.1 cause q.2) (fun _ _ => rfl) l s

theorem stopAll_queueJob (cause : Byte) (l : List (Nat × Nat)) (s : State) (q : Nat) :
    queueJob (queueOf (stopAll cause l s) q) = queueJob (queueOf s q) :=
  foldl_leaves (φ := fun t => queueJob (queueOf t q)) (g := fun s (q : Nat × Nat) => stopQueue s q.1 cause q.2)
    (fun s x => stopQueue_queueJob s x.1 q x.2 cause) l s

theorem stopAll_keeps_stopped {cause : Byte} {l : List (Nat × Nat)} {s : State} {q : Nat}
    (h : (queueOf s q).run = false) : (queueOf (stopAll cause l s) q).run = false := by
  unfold stopAll
  exact foldl_keeps (P := fun t => (queueOf t q).run = false) (fun _ _ h => stopQueue_keeps_stopped h) l h

theorem stopAll_stops {cause : Byte} {l : List (Nat × Nat)} {q index : Nat} (h : (q, index) ∈ l) (s : State) :
    (queueOf (stopAll cause l s) q).run = false := by
  unfold stopAll
  exact foldl_establishes (P := fun t => (queueOf t q).run = false) h (fun s => stopQueue_stops s q index cause)
    (fun _ _ h => stopQueue_keeps_stopped h) s

theorem mem_runningQueues {s : State} {q : Nat} (h : (queueOf s q).run = true) :
    q ∈ runningQueues s (queueJob (queueOf s q)) := by
  have listed : (q, queueOf s q) ∈ s.queues := by
    refine (mapGet_eq_or_mem Queue.reset s.queues q).resolve_left fun unlisted => ?_
    have : (queueOf s q).run = Queue.reset.run := congrArg Queue.run unlisted
    simp [h, Queue.reset] at this
  exact List.mem_map.2 ⟨_, List.mem_filter.2 ⟨listed, by simp [h]⟩, rfl⟩

/-- When the running queues of a job stop, none of its queues runs. -/
theorem stopAll_runningQueues {s : State} {cause : Byte} {index : Nat → Nat} {j q : Nat}
    (h : queueJob (queueOf (stopAll cause ((runningQueues s j).map fun q => (q, index q)) s) q) = j) :
    (queueOf (stopAll cause ((runningQueues s j).map fun q => (q, index q)) s) q).run = false := by
  rw [stopAll_queueJob] at h
  cases hrun : (queueOf s q).run with
  | false => exact stopAll_keeps_stopped hrun
  | true =>
    have running : q ∈ runningQueues s j := h ▸ mem_runningQueues hrun
    exact stopAll_stops (index := index q) (List.mem_map.2 ⟨q, running, rfl⟩) s

/-- A job's units are queued no more, and their packets are done. -/
def dropUnits (s : State) (j : Nat) : State :=
  let t := (s.parts.flatMap fun e => e.2.units.filter fun u => u.job == j).foldl (fun s u => markDone s u.queue u.packetNo) s
  { t with parts := t.parts.map fun e => (e.1, { e.2 with units := e.2.units.filter fun u => u.job != j }) }

theorem dropUnits_parts (s : State) (j : Nat) : (dropUnits s j).parts =
    s.parts.map fun e => (e.1, { e.2 with units := e.2.units.filter fun u => u.job != j }) := by
  have kept := foldl_leaves (φ := State.parts) (g := fun s (u : WorkUnit) => markDone s u.queue u.packetNo)
    (fun _ _ => rfl) (s.parts.flatMap fun e => e.2.units.filter fun u => u.job == j) s
  exact congrArg (List.map _) kept

theorem dropSaved_parts {s : State} {j : Nat} {cause : Byte} : ∀ p ∈ (dropSaved s j cause).parts,
    (∀ y ∈ p.2.saved, y.job ≠ j) ∧ ∀ y ∈ p.2.walks, y.1 ≠ j := by
  intro p hp
  obtain ⟨e, -, rfl⟩ := List.mem_map.1 hp
  exact ⟨fun y hy => by simpa using (List.mem_filter.1 hy).2, fun y hy => by simpa using (List.mem_filter.1 hy).2⟩

theorem queueOf_modJob (s : State) (j q : Nat) (f : Job → Job) : queueOf (modJob s j f) q = queueOf s q := rfl

/-- The index of a job's packet at which each of its queues stops (log 133). -/
def stopIndex (s : State) (j q : Nat) : Nat :=
  ((s.bonds.find? fun e => e.2.job == j && e.2.queue == q).map fun e => e.2.packet.index).getD (queueOf s q).pos

/-- A killed job without its bonds, its saved context and its units. -/
def emptied (s : State) (j : Nat) (cause : Byte) : State :=
  dropUnits (dropSaved ((jobBonds s j).foldl (fun s b => killBond s b cause) s) j cause) j

section
variable {s : State} {j : Nat} {cause : Byte}

theorem emptied_parts : ∀ p ∈ (emptied s j cause).parts,
    (∀ y ∈ p.2.units, y.job ≠ j) ∧ (∀ y ∈ p.2.saved, y.job ≠ j) ∧ ∀ y ∈ p.2.walks, y.1 ≠ j := by
  unfold emptied
  rw [dropUnits_parts]
  intro p hp
  obtain ⟨e, he, rfl⟩ := List.mem_map.1 hp
  exact ⟨fun y hy => by simpa using (List.mem_filter.1 hy).2, dropSaved_parts e he⟩

theorem killJob_eq : killJob s j cause =
    modJob (stopAll cause ((runningQueues (emptied s j cause) j).map fun q => (q, stopIndex s j q)) (emptied s j cause)) j
      fun x => { x with killed := true } := by
  unfold killJob stopAll runningQueues emptied dropUnits
  rfl

theorem killJob_killed : (jobOf (killJob s j cause) j).killed = true := by
  rw [killJob_eq]
  exact congrArg Job.killed (jobOf_modJob_self ..)

theorem killJob_parts : ∀ p ∈ (killJob s j cause).parts,
    (∀ y ∈ p.2.units, y.job ≠ j) ∧ (∀ y ∈ p.2.saved, y.job ≠ j) ∧ ∀ y ∈ p.2.walks, y.1 ≠ j := by
  have kept : (killJob s j cause).parts = (emptied s j cause).parts := by
    rw [killJob_eq, modJob_parts, stopAll_parts]
  rw [kept]
  exact emptied_parts

theorem killJob_queues {q : Nat} (h : queueJob (queueOf (killJob s j cause) q) = j) :
    (queueOf (killJob s j cause) q).run = false := by
  rw [killJob_eq, queueOf_modJob] at h ⊢
  exact stopAll_runningQueues h

end

/-! ## The obligation -/

theorem applyReply_eq (s : State) (m : FaultMsg) (a : Agent) :
    let asked : State := { s with asked := s.asked.filter fun y => y.token != m.token }
    applyReply s m a .resume = resumeAgent asked m a ∧
      (m.source ≠ .fetch → applyReply s m a .skip = skipAgent asked m a) ∧
      (m.source = .fetch → applyReply s m a .skip = replyKill asked m a) ∧
      applyReply s m a .kill = replyKill asked m a :=
  ⟨rfl, fun h => if_neg h, fun h => if_pos h, rfl⟩

section
variable {s : State} {c : CoreId} {i : Slot} {b l : Nat} {a : Agent} {m : FaultMsg}

/-- The strand passes the fault up, and so does every level below l. -/
theorem walk_reaches (hu : findUid s m.uid = some (c, i)) (hb : (strandAt s c i).bond = some b)
    (pass : bits (strandAt s c i).contain 1 0 = 0 ∨
      (bits (strandAt s c i).contain 1 0 = 1 ∧ bits (strandAt s c i).contain 11 8 = 0))
    (h1 : 1 ≤ l) (h4 : l ≤ 4) (below : ∀ k, 1 ≤ k → k < l → LevelPasses s (strandWalker c i b a m) k) :
    walk s m (some a) = walkUp s (strandWalker c i b a m) b (List.range' l (5 - l)) := by
  rw [walk_at_strand hu hb, walkStrand_passes pass]
  exact walkUp_reaches h1 h4 below

end

/-- Settles O41, reply by reply, level by level and kill by kill. -/
theorem containmentEvents : Obligations.ContainmentEvents := by
  unfold Obligations.ContainmentEvents
  intro c i l n len b j q uid ch token act part m a x u w left why s asked mine killed t
  refine ⟨fun hm ha hmine => ?_, fun hw => ?_, rfl, rfl, fun hu hb => ?_, fun hx => ?_, rfl, ?_⟩
  · rw [reply_of_agent hm ha hmine]
    obtain ⟨resumes, skips, skipKills, kills⟩ := applyReply_eq s m a
    refine ⟨fun h => if_pos h, fun h => ?_⟩
    rw [if_neg (by simp [h])]
    exact ⟨fun e => e ▸ resumes, fun e hs => e ▸ skips hs, fun e hs => e ▸ skipKills hs, fun e => e ▸ kills⟩
  · exact ⟨fun hs e => resumeAgent_instruction (e ▸ hw) hs, fun hs e => resumeAgent_load (e ▸ hw) hs,
      fun e => skipAgent_instruction (e ▸ hw), fun e => skipAgent_load (e ▸ hw)⟩
  · refine ⟨fun h => ?_, fun h hs => ?_, fun h left => ?_, fun pass h1 h4 below => ?_⟩
    · rw [walk_at_strand hu hb, walkStrand_kill h]
    · rw [walk_at_strand hu hb, walkStrand_skip h hs]
    · rw [walk_at_strand hu hb, walkStrand_retry h left]
    · rw [walk_reaches hu hb pass h1 h4 below]
      obtain ⟨k, hk⟩ : ∃ k, 5 - l = k + 1 := ⟨4 - l, by omega⟩
      rw [hk, List.range'_succ]
      refine ⟨fun h => walkUp_kill h, fun h hs => walkUp_skip h hs, fun h left => walkUp_restart h left, fun e p => ?_⟩
      subst e
      obtain rfl : k = 0 := by omega
      exact walkUp_passes p
  · obtain ⟨bonds, clusters, cores, net⟩ := killBond_leaves hx why
    have queue := killBond_queue hx why
    obtain ⟨course, bond, bay, job⟩ := killUnit_eq hx n why
    exact ⟨course, bond, bay, job, bonds, congrArg Queue.bkill queue, congrArg Queue.bcause queue,
      congrArg Queue.bpos queue, killBond_taken hx why, clusters, cores, net, fun hu => hu ▸ requeueBond_eq hx left⟩
  · exact ⟨killJob_killed, killJob_parts, fun q h => killJob_queues h⟩

end Sys2Proof.Machine
end
